-- ==== Sys2Proof/Word.lean ====
section
/-! DEFINITION. The word types of the Fjarun N5 and their plainest arithmetic (00_scope.md R2, R3; 04_numbers.md R52). -/

namespace Sys2Proof

/-- A scalar register's value: 64 bits (R52). -/
abbrev Word := BitVec 64
/-- The smallest addressable unit (R3). -/
abbrev Byte := BitVec 8
/-- An instruction word (R28). -/
abbrev IWord := BitVec 32
/-- A vector register: 1,024 bits (R98). -/
abbrev VWord := BitVec 1024
/-- A mask register: 128 bits (R98, R120). -/
abbrev MWord := BitVec 128
/-- An instruction address: 16 bits, a multiple of 4 (R28). -/
abbrev IAddr := BitVec 16

/-- Bits [hi:lo] of a word, as a natural number (R3). -/
def bits (w : Word) (hi lo : Nat) : Nat := (w.toNat >>> lo) % 2 ^ (hi + 1 - lo)

/-- The word with the low `n` bits of a natural number. -/
def wordOf (n : Nat) : Word := BitVec.ofNat 64 n

end Sys2Proof
end

