-- ==== Sys2Proof/Syntax.lean ====
section
/-! DEFINITION. The instructions and events of the Fjarun N5: one constructor of `Instr` per row of spec/opcode_table.json.
The rows with an encoding are the instruction words of 03_instruction_words.md (R28 to R49); the rows without one are the
whole, indivisible steps of the device, its host and its peers (95_what_each_step_holds.md), which no word encodes. -/

namespace Sys2Proof

/-- A scalar register x0..x31 (R30). -/
abbrev Reg := BitVec 5
/-- A vector register v0..v31 (R30). -/
abbrev VReg := BitVec 5
/-- A mask selector k0..k3 (R35). -/
abbrev MSel := BitVec 2

/-- A source of forms VR, VU and VC: its kind tag and field (R32). -/
inductive Src where
  | v (r : VReg)        -- tag 00, a vector register
  | x (r : Reg)         -- tag 01, a scalar register, broadcast
  | c (e : BitVec 5)    -- tag 10, a constant-bank entry, broadcast
  | lit (n : BitVec 5)  -- tag 11, a literal -16..15, broadcast
  deriving DecidableEq, Repr

/-- The element types (R34). -/
inductive Ty where
  | i8 | i16 | i32 | i64 | n8 | n16 | n32 | n64 | e4m3 | e5m2 | f16 | bf16 | f32 | e5m3
  deriving DecidableEq, Repr

/-- The conditions of VCMP (R47, R106). -/
inductive VCond where
  | eq | ne | lt | le | gt | ge | unord | ord
  deriving DecidableEq, Repr

/-- The rounding codes (R47): `dyn` reads FRM. -/
inductive Rnd where
  | dyn | rne | rtz | rdn | rup | rna | sto | odd
  deriving DecidableEq, Repr

/-- The memory hints (R36). -/
inductive Hint where
  | normal | by | na | lu
  deriving DecidableEq, Repr

/-- The scopes (R190). -/
inductive Scope where
  | core | grp | clu | bay | die | dev | sys
  deriving DecidableEq, Repr

/-- The two sizes of LDAQ, STRL, AMO, AMOX and RED (R47). -/
inductive Size where
  | w | d
  deriving DecidableEq, Repr

/-- The orders of AMO and AMOX (R47, R214). -/
inductive AOrder where
  | rlx | acq | rel | ar
  deriving DecidableEq, Repr

/-- The projection sets (R47, R331). -/
inductive PSet where
  | none | spx | l1b | l2b | box | inc | dec
  deriving DecidableEq, Repr

/-- A byte store: whose memory it is and where in it (R130, R184). `ls n` is core n's LS, `scr c` cluster c's scratch
window, `dev` physical device memory and `ten h` the element array of the tensor with handle `h`. -/
inductive Space where
  | ls (core : Nat) | scr (cluster : Nat) | dev | ten (h : Nat)
  deriving DecidableEq, Repr

/-- A location: one byte of a space (R184). -/
structure Loc where
  space : Space
  off : Nat
  deriving DecidableEq, Repr

/-- Where a lasting error lies (R377). -/
inductive ErrSite where
  | data (l : Loc)            -- a data granule of LS, CM or device memory
  | writeback (k : Nat)       -- the bytes of CM line k while they are written back
  | cached (k g : Nat)        -- the 8-byte granule g of CM line k
  | metadata (ctx : Nat)      -- metadata of a context
  | blockMeta (h off : Nat)   -- the compression metadata of the block at byte off of a tensor
  | bayLogic (bay : Nat)      -- a bay's logic
  | shared                    -- a part shared by contexts
  deriving DecidableEq, Repr

/-- An access that a watchpoint compares with its bytes (R397). -/
structure WatchAccess where
  loc : Loc
  size : Nat
  write : Bool
  core : Option Nat           -- the accessor; none for a combination at a home
  va : Word
  deriving DecidableEq, Repr

/-- A command of the remote command service, as it arrives on its session (R426, R428): `enc` says that its packets are encrypted
(R424). -/
structure HostCmd where
  session : Nat
  enc : Bool
  code : Nat
  ctx : Nat
  seq : Nat
  arg0 : Word
  arg1 : Word
  arg2 : Word
  data : List Byte
  deriving DecidableEq, Repr

/-- A firmware image presented at boot (R434, R435): its bytes, the public key of 96 bytes that it is checked with, its signature
of 96 bytes, and its rollback level. -/
structure BootImage where
  bytes : List Byte
  key : List Byte
  sig : List Byte
  level : Nat
  deriving DecidableEq, Repr

/-- What the barrier network brings of another core (R226, R232, R242): the core, and the quorum count that its slot holds, or for
slot 8 the level at which its thread stands once the superstep barrier releases it. `told` says that no arrival reaches the network, but
the count that the core's BSETM or BQUORUM has set, or the level of its thread. -/
structure Arriver where
  core : Nat
  quorum : Nat
  told : Bool
  deriving DecidableEq, Repr

/-- A member whose work is retracted (R268, R270), and whether it had issued a peer copy. -/
structure Retracted where
  member : Nat
  peered : Bool
  deriving DecidableEq, Repr

/-- A copy that completes, by its place in the list, and the address that its peer refused, if it did (R291). -/
structure CopyEnd where
  k : Nat
  refused : Option Word
  deriving DecidableEq, Repr

/-- Where a packet of a peer is for (R431, R432): the context, the entry of its peer table and the session key. -/
structure PeerRoute where
  ctx : Nat
  idx : Nat
  key : BitVec 256
  deriving DecidableEq, Repr

/-- The instructions and events of the device, one constructor per row of spec/opcode_table.json. -/
inductive Instr where
  | add (d : Reg) (a : Reg) (b : Reg)
  | sub (d : Reg) (a : Reg) (b : Reg)
  | mul (d : Reg) (a : Reg) (b : Reg)
  | mulh (d : Reg) (a : Reg) (b : Reg)
  | mulhn (d : Reg) (a : Reg) (b : Reg)
  | div (d : Reg) (a : Reg) (b : Reg) (l : BitVec 4)
  | divn (d : Reg) (a : Reg) (b : Reg) (l : BitVec 4)
  | rem (d : Reg) (a : Reg) (b : Reg) (l : BitVec 4)
  | remn (d : Reg) (a : Reg) (b : Reg) (l : BitVec 4)
  | and (d : Reg) (a : Reg) (b : Reg)
  | or (d : Reg) (a : Reg) (b : Reg)
  | xor (d : Reg) (a : Reg) (b : Reg)
  | andn (d : Reg) (a : Reg) (b : Reg)
  | shl (d : Reg) (a : Reg) (b : Reg)
  | shr (d : Reg) (a : Reg) (b : Reg)
  | sar (d : Reg) (a : Reg) (b : Reg)
  | rol (d : Reg) (a : Reg) (b : Reg)
  | ror (d : Reg) (a : Reg) (b : Reg)
  | min (d : Reg) (a : Reg) (b : Reg)
  | max (d : Reg) (a : Reg) (b : Reg)
  | minn (d : Reg) (a : Reg) (b : Reg)
  | maxn (d : Reg) (a : Reg) (b : Reg)
  | clz (d : Reg) (a : Reg)
  | ctz (d : Reg) (a : Reg)
  | popc (d : Reg) (a : Reg)
  | slt (d : Reg) (a : Reg) (b : Reg)
  | sltn (d : Reg) (a : Reg) (b : Reg)
  | seq (d : Reg) (a : Reg) (b : Reg)
  | bext (d : Reg) (a : Reg) (b : Reg)
  | bins (d : Reg) (a : Reg) (b : Reg)
  | fshl (d : Reg) (a : Reg) (b : Reg)
  | fshr (d : Reg) (a : Reg) (b : Reg)
  | addi (d : Reg) (a : Reg) (i : BitVec 15)
  | andi (d : Reg) (a : Reg) (i : BitVec 15)
  | ori (d : Reg) (a : Reg) (i : BitVec 15)
  | xori (d : Reg) (a : Reg) (i : BitVec 15)
  | slti (d : Reg) (a : Reg) (i : BitVec 15)
  | shli (d : Reg) (a : Reg) (s : BitVec 8)
  | shri (d : Reg) (a : Reg) (s : BitVec 8)
  | sari (d : Reg) (a : Reg) (s : BitVec 8)
  | rori (d : Reg) (a : Reg) (s : BitVec 8)
  | li (d : Reg) (i : BitVec 20)
  | lui (d : Reg) (i : BitVec 20)
  | lhi (d : Reg) (i : BitVec 20)
  | beq (a : Reg) (b : Reg) (o : BitVec 12)
  | bne (a : Reg) (b : Reg) (o : BitVec 12)
  | blt (a : Reg) (b : Reg) (o : BitVec 12)
  | bge (a : Reg) (b : Reg) (o : BitVec 12)
  | bltn (a : Reg) (b : Reg) (o : BitVec 12)
  | bgen (a : Reg) (b : Reg) (o : BitVec 12)
  | jal (d : Reg) (o : BitVec 20)
  | jr (d : Reg) (a : Reg)
  | jrf (d : Reg) (a : Reg)
  | jf (d : Reg) (o : BitVec 20)
  | rpt (r : BitVec 4) (n : BitVec 4) (d : BitVec 5) (s : BitVec 5)
  | cfetch (a : Reg) (b : Reg)
  | cfstat (d : Reg) (a : Reg)
  | csrr (d : Reg) (c : BitVec 12)
  | csrw (d : Reg) (a : Reg) (c : BitVec 12)
  | csrs (d : Reg) (a : Reg) (c : BitVec 12)
  | csrc (d : Reg) (a : Reg) (c : BitVec 12)
  | csrx (d : Reg) (a : Reg) (c : BitVec 12)
  | csrWrite (csr : BitVec 12) (v : Word)
  | lfsrWrite (v : Word)
  | ulfullClear (v : Word)
  | crootWrite (v : Word)
  | vadd (d : VReg) (a : Src) (b : Src) (t : Ty) (q : MSel)
  | vsub (d : VReg) (a : Src) (b : Src) (t : Ty) (q : MSel)
  | vmul (d : VReg) (a : Src) (b : Src) (t : Ty) (q : MSel)
  | vfma (d : VReg) (a : Src) (b : Src) (t : Ty) (q : MSel)
  | vfnma (d : VReg) (a : Src) (b : Src) (t : Ty) (q : MSel)
  | vmin (d : VReg) (a : Src) (b : Src) (t : Ty) (q : MSel)
  | vmax (d : VReg) (a : Src) (b : Src) (t : Ty) (q : MSel)
  | vadds (d : VReg) (a : Src) (b : Src) (t : Ty) (q : MSel)
  | vsubs (d : VReg) (a : Src) (b : Src) (t : Ty) (q : MSel)
  | vmulh (d : VReg) (a : Src) (b : Src) (t : Ty) (q : MSel)
  | vand (d : VReg) (a : Src) (b : Src) (t : Ty) (q : MSel)
  | vor (d : VReg) (a : Src) (b : Src) (t : Ty) (q : MSel)
  | vxor (d : VReg) (a : Src) (b : Src) (t : Ty) (q : MSel)
  | vandn (d : VReg) (a : Src) (b : Src) (t : Ty) (q : MSel)
  | vshl (d : VReg) (a : Src) (b : Src) (t : Ty) (q : MSel)
  | vshr (d : VReg) (a : Src) (b : Src) (t : Ty) (q : MSel)
  | vsar (d : VReg) (a : Src) (b : Src) (t : Ty) (q : MSel)
  | vcmp (c : VCond) (kd : MSel) (a : Src) (b : Src) (t : Ty) (q : MSel)
  | vsel (d : VReg) (a : Src) (b : Src) (t : Ty) (q : MSel)
  | vfsh (d : VReg) (a : Src) (b : Src) (t : Ty) (q : MSel)
  | vbext (d : VReg) (a : Src) (b : Src) (t : Ty) (q : MSel)
  | vperm (d : VReg) (a : VReg) (b : Src) (t : Ty) (q : MSel)
  | vcvt (d : VReg) (a : Src) (t : Ty) (ts : Ty) (p : BitVec 2) (r : Rnd)
  | vabs (d : VReg) (a : Src) (t : Ty) (q : MSel)
  | vneg (d : VReg) (a : Src) (t : Ty) (q : MSel)
  | vnot (d : VReg) (a : Src) (t : Ty) (q : MSel)
  | vclz (d : VReg) (a : Src) (t : Ty) (q : MSel)
  | vpopc (d : VReg) (a : Src) (t : Ty) (q : MSel)
  | vmov (d : VReg) (a : Src) (t : Ty) (q : MSel)
  | vrcp (d : VReg) (a : Src) (t : Ty) (q : MSel) (l : BitVec 4)
  | vsqrt (d : VReg) (a : Src) (t : Ty) (q : MSel) (l : BitVec 4)
  | vrsq (d : VReg) (a : Src) (t : Ty) (q : MSel) (l : BitVec 4)
  | vexp2 (d : VReg) (a : Src) (t : Ty) (q : MSel) (l : BitVec 4)
  | vlog2 (d : VReg) (a : Src) (t : Ty) (q : MSel) (l : BitVec 4)
  | vtanh (d : VReg) (a : Src) (t : Ty) (q : MSel) (l : BitVec 4)
  | vsigm (d : VReg) (a : Src) (t : Ty) (q : MSel) (l : BitVec 4)
  | vfloor (d : VReg) (a : Src) (t : Ty) (q : MSel)
  | vceil (d : VReg) (a : Src) (t : Ty) (q : MSel)
  | vrndi (d : VReg) (a : Src) (t : Ty) (q : MSel)
  | vredSum (d : VReg) (a : VReg) (t : Ty) (q : MSel) (l : BitVec 4)
  | vredMax (d : VReg) (a : VReg) (t : Ty) (q : MSel) (l : BitVec 4)
  | vredMin (d : VReg) (a : VReg) (t : Ty) (q : MSel) (l : BitVec 4)
  | vredAnd (d : VReg) (a : VReg) (t : Ty) (q : MSel) (l : BitVec 4)
  | vredOr (d : VReg) (a : VReg) (t : Ty) (q : MSel) (l : BitVec 4)
  | vredXor (d : VReg) (a : VReg) (t : Ty) (q : MSel) (l : BitVec 4)
  | vredAmax (d : VReg) (a : VReg) (t : Ty) (q : MSel) (l : BitVec 4)
  | vscanSadd (d : VReg) (a : VReg) (t : Ty) (q : MSel) (l : BitVec 4)
  | vscanSmax (d : VReg) (a : VReg) (t : Ty) (q : MSel) (l : BitVec 4)
  | vscanSmin (d : VReg) (a : VReg) (t : Ty) (q : MSel) (l : BitVec 4)
  | vcompact (d : VReg) (a : VReg) (t : Ty) (q : MSel)
  | vexpand (d : VReg) (a : VReg) (t : Ty) (q : MSel)
  | vcell (d : VReg) (a : Src) (b : Src) (q : MSel)
  | vmorton (d : VReg) (a : Src) (b : Src) (t : Ty) (q : MSel)
  | vhashk (d : VReg) (a : Src) (b : Src) (t : Ty) (q : MSel)
  | mand (d : MSel) (a : MSel) (b : MSel)
  | mor (d : MSel) (a : MSel) (b : MSel)
  | mxor (d : MSel) (a : MSel) (b : MSel)
  | mandn (d : MSel) (a : MSel) (b : MSel)
  | mnot (d : MSel) (a : MSel)
  | mpopc (d : Reg) (a : MSel)
  | mfirst (d : Reg) (a : MSel)
  | mfromx (d : MSel) (a : Reg) (b : Reg)
  | mtox (d : Reg) (a : MSel) (h : Bool)
  | vsmap (d : Reg) (a : Reg) (l : BitVec 4)
  | vsred (d : Reg) (a : Reg) (l : BitVec 4)
  | vscvt (d : Reg) (a : Reg) (l : BitVec 4)
  | vgrow (d : Reg) (a : Reg)
  | vshrink (d : Reg) (a : Reg)
  | vallotq (d : Reg)
  | vext (d : Reg) (a : VReg) (b : Reg)
  | vins (d : VReg) (a : Reg) (b : Reg)
  | ldb (d : Reg) (b : Reg) (l : BitVec 4) (h : Hint) (o : BitVec 9)
  | ldh (d : Reg) (b : Reg) (l : BitVec 4) (h : Hint) (o : BitVec 9)
  | ldw (d : Reg) (b : Reg) (l : BitVec 4) (h : Hint) (o : BitVec 9)
  | ldd (d : Reg) (b : Reg) (l : BitVec 4) (h : Hint) (o : BitVec 9)
  | ldbn (d : Reg) (b : Reg) (l : BitVec 4) (h : Hint) (o : BitVec 9)
  | ldhn (d : Reg) (b : Reg) (l : BitVec 4) (h : Hint) (o : BitVec 9)
  | ldwn (d : Reg) (b : Reg) (l : BitVec 4) (h : Hint) (o : BitVec 9)
  | stb (d : Reg) (b : Reg) (h : Hint) (o : BitVec 9)
  | sth (d : Reg) (b : Reg) (h : Hint) (o : BitVec 9)
  | stw (d : Reg) (b : Reg) (h : Hint) (o : BitVec 9)
  | std (d : Reg) (b : Reg) (h : Hint) (o : BitVec 9)
  | vld (d : VReg) (b : Reg) (l : BitVec 4) (h : Hint) (o : BitVec 9)
  | vst (d : VReg) (b : Reg) (h : Hint) (o : BitVec 9)
  | vgath (d : VReg) (b : Reg) (v : VReg) (l : BitVec 4) (t : Ty) (q : MSel)
  | vscat (d : VReg) (b : Reg) (v : VReg) (t : Ty) (q : MSel)
  | pref (a : Reg)
  | clean (a : Reg)
  | discard (a : Reg)
  | invl1 (a : Reg)
  | zline (a : Reg)
  | tnew (d : Reg) (a : Reg) (b : Reg) (l : BitVec 4)
  | twiden (d : Reg) (a : Reg) (b : Reg) (l : BitVec 4)
  | tfree (a : Reg)
  | tinfo (d : Reg) (a : Reg) (b : Reg) (l : BitVec 4)
  | tview (d : Reg) (a : Reg) (b : Reg) (l : BitVec 4)
  | tlde (d : Reg) (a : Reg) (b : Reg) (l : BitVec 4)
  | tste (d : Reg) (a : Reg) (b : Reg)
  | twait (a : Reg)
  | fenceAcq (a : Reg) (s : Scope)
  | fenceRel (a : Reg) (s : Scope)
  | fenceAr (a : Reg) (s : Scope)
  | fenceSc (a : Reg) (s : Scope)
  | fenceWin (a : Reg) (s : Scope)
  | fenceEng (a : Reg) (s : Scope)
  | ldaq (d : Reg) (a : Reg) (b : Reg) (l : BitVec 4) (s : Scope) (z : Size)
  | strl (d : Reg) (a : Reg) (b : Reg) (s : Scope) (z : Size)
  | inrecv (d : Reg) (a : Reg)
  | inpeek (d : Reg)
  | incount (d : Reg)
  | uiarm (a : Reg)
  | uidis
  | uiret
  | uiTake
  | amoadd (d : Reg) (a : Reg) (b : Reg) (l : BitVec 4) (z : Size) (o : AOrder)
  | amomin (d : Reg) (a : Reg) (b : Reg) (l : BitVec 4) (z : Size) (o : AOrder)
  | amomax (d : Reg) (a : Reg) (b : Reg) (l : BitVec 4) (z : Size) (o : AOrder)
  | amominn (d : Reg) (a : Reg) (b : Reg) (l : BitVec 4) (z : Size) (o : AOrder)
  | amomaxn (d : Reg) (a : Reg) (b : Reg) (l : BitVec 4) (z : Size) (o : AOrder)
  | amoand (d : Reg) (a : Reg) (b : Reg) (l : BitVec 4) (z : Size) (o : AOrder)
  | amoor (d : Reg) (a : Reg) (b : Reg) (l : BitVec 4) (z : Size) (o : AOrder)
  | amoxor (d : Reg) (a : Reg) (b : Reg) (l : BitVec 4) (z : Size) (o : AOrder)
  | amoswap (d : Reg) (a : Reg) (b : Reg) (l : BitVec 4) (z : Size) (o : AOrder)
  | amocas (d : Reg) (a : Reg) (b : Reg) (l : BitVec 4) (z : Size) (o : AOrder)
  | redaddi (a : Reg) (b : Reg) (z : Size)
  | redaddf32 (a : Reg) (b : Reg)
  | redaddbf16 (a : Reg) (b : Reg)
  | redmin (a : Reg) (b : Reg) (z : Size)
  | redmax (a : Reg) (b : Reg) (z : Size)
  | redminn (a : Reg) (b : Reg) (z : Size)
  | redmaxn (a : Reg) (b : Reg) (z : Size)
  | redor (a : Reg) (b : Reg) (z : Size)
  | uoFlush (k : Nat)
  | uoRecall (k : Nat)
  | fetake (d : Reg) (a : Reg) (l : BitVec 4)
  | feput (a : Reg) (b : Reg)
  | feread (d : Reg) (a : Reg) (l : BitVec 4)
  | fepeek (d : Reg) (a : Reg) (l : BitVec 4)
  | feclr (a : Reg)
  | barv (a : Reg)
  | bwait (d : Reg) (a : Reg)
  | bsync (d : Reg) (a : Reg)
  | btest (d : Reg) (a : Reg)
  | bsetm (a : Reg) (b : Reg)
  | bquorum (a : Reg) (b : Reg)
  | brecord (a : Reg) (b : Reg)
  | barrierArrival (core : Arriver) (slot : Nat) (mask : Word)
  | barrierRelease (slot : Nat)
  | lateArrival (slot : Nat)
  | tkspawn (d : Reg) (a : Reg)
  | tknext (d : Reg)
  | tkend
  | tkyield
  | tkdep (d : Reg) (a : Reg) (b : Reg)
  | tkstat (d : Reg) (a : Reg)
  | taskDispatch (core : Nat)
  | taskAging (us : Nat)
  | sexch
  | ssync
  | sdom (a : Reg)
  | superstepRelease
  | qnew (d : Reg) (a : Reg)
  | qcontrib (a : Reg) (b : Reg)
  | qarrive (d : Reg) (a : Reg)
  | kpoint
  | qstat (d : Reg) (a : Reg)
  | qreset (a : Reg)
  | killSignal (join : Word) (member : Nat)
  | retraction (join : Word) (member : Retracted)
  | joinCombine (join : Word)
  | joinFutPost (join : Word)
  | joinClose (join : Word)
  | killTimeoutReset (join : Word) (member : Nat)
  | wqpop (d : Reg) (a : Reg)
  | wqpush (d : Reg) (a : Reg) (b : Reg)
  | wqfill (d : Reg) (a : Reg) (b : Reg)
  | wqcount (d : Reg) (a : Reg)
  | wqRefill
  | cpy (a : Reg)
  | cpyq (a : Reg)
  | cpyt (a : Reg)
  | cpyxr (a : Reg)
  | cpypd (a : Reg)
  | cpyst (d : Reg) (a : Reg)
  | copyExecute (k : Nat)
  | exponentTableLoad (k : Nat)
  | copyComplete (k : CopyEnd)
  | peerAckTimeout (k : Nat)
  | messageEnterInbox
  | mqsend (d : Reg) (a : Reg) (b : Reg)
  | mqrecv (d : Reg) (a : Reg) (b : Reg)
  | mqpoll (d : Reg) (a : Reg)
  | mqbind (d : Reg) (a : Reg) (b : Reg)
  | mcset (a : Reg) (b : Reg)
  | mcget (d : Reg) (a : Reg)
  | mcap (d : Reg) (a : Reg)
  | mrset (a : Reg) (b : Reg)
  | mradv (d : Reg) (a : Reg) (b : Reg)
  | mrstat (d : Reg) (a : Reg) (b : Reg)
  | mma (c : BitVec 2) (a : BitVec 3) (b : BitVec 3) (s : Reg) (f : BitVec 6)
  | mmab (c : BitVec 2) (a : BitVec 3) (b : BitVec 3) (s : Reg) (f : BitVec 6)
  | mpass (c : BitVec 2) (a : BitVec 3) (b : BitVec 3) (s : Reg) (f : BitVec 6)
  | mdrain (c : BitVec 2) (a : Reg) (b : Reg) (u : Bool) (v : Bool) (w : Bool) (e : PSet)
  | mzero (c : BitVec 2) (a : Reg)
  | mfence (a : Reg)
  | mstat (c : BitVec 2) (a : Reg) (b : Reg)
  | mcsetUnit (unit : Nat)
  | mrsetUnit (unit : Nat)
  | mmaUnit (unit : Nat)
  | mmabUnit (unit : Nat)
  | mpassUnit (unit : Nat)
  | mdrainUnit (unit : Nat)
  | mzeroUnit (unit : Nat)
  | nmupd (a : Reg)
  | nmstat (d : Reg) (a : Reg)
  | nmuPieceUpdate (k : Nat) (piece : Nat)
  | nmuComplete (k : Nat)
  | proj (d : Reg) (a : Reg) (b : Reg) (u : Bool) (v : Bool) (e : PSet)
  | padj (d : Reg) (a : Reg) (b : Reg) (e : PSet)
  | ecall (d : Reg) (a : Reg) (b : Reg)
  | ecallAnswer
  | eret
  | wfi
  | endT
  | spin (a : Reg)
  | csave (d : Reg) (a : Reg)
  | crest (d : Reg) (a : Reg)
  | ckpt (d : Reg) (a : Reg)
  | rback (d : Reg) (a : Reg)
  | tinval (a : Reg) (b : Reg)
  | fattr (a : Reg) (b : Reg)
  | ulmark (d : Reg) (a : Reg)
  | ulstat (d : Reg) (a : Reg)
  | uldrain (d : Reg) (a : Reg)
  | trec (a : Reg) (b : Reg)
  | perfr (d : Reg) (a : Reg)
  | perfc (a : Reg)
  | brk (a : Reg)
  | wset (d : Reg) (a : Reg) (b : Reg)
  | wclr (a : Reg)
  | heldWriteLand (k : Nat)
  | storePerform
  | loadPerform (k : Nat)
  | homePerform (stack : Nat)
  | cvpWriteback (k : Nat)
  | lineEvict (k : Nat)
  | l1Drop (k : Nat)
  | cmCleanDrop (k : Nat)
  | codeFetchComplete (seg : Nat)
  | rerepMoveBegin (h : Nat)
  | rerepMoveComplete (h : Nat)
  | freeEntryHead (h : Nat)
  | groupPlace
  | threadRetireFree (core : Nat)
  | switchTimeReached
  | timeBudgetStop (ctx : Nat)
  | budgetPeriod
  | gangStop (ctx : Nat) (why : Nat)
  | resumeStart (ctx : Nat)
  | checkpointBoundary (ctx : Nat)
  | checkpointAbandon (ctx : Nat)
  | uncorrectableError (site : ErrSite) (lasting : Bool)
  | contextRollback (ctx : Nat)
  | contextKill (ctx : Nat) (reason : Nat) (cause : Nat) (addr : Word)
  | contextRetire (ctx : Nat)
  | fatalError
  | watchpointTrigger (acc : WatchAccess)
  | watchpointTrap
  | breakpointStop
  | scribeEmit
  | ident (c : HostCmd)
  | quote (c : HostCmd)
  | errread (c : HostCmd)
  | create (c : HostCmd)
  | destroy (c : HostCmd)
  | map (c : HostCmd)
  | unmap (c : HostCmd)
  | launch (c : HostCmd)
  | exportT (c : HostCmd)
  | importT (c : HostCmd)
  | preempt (c : HostCmd)
  | resume (c : HostCmd)
  | safesave (c : HostCmd)
  | setpeer (c : HostCmd)
  | setlog (c : HostCmd)
  | trdrain (c : HostCmd)
  | unknownCommand (c : HostCmd)
  | debugAttach (c : HostCmd)
  | debugStop (c : HostCmd)
  | debugContinue (c : HostCmd)
  | debugStep (c : HostCmd)
  | debugRstep (c : HostCmd)
  | debugRwindow (c : HostCmd)
  | debugRead (c : HostCmd)
  | debugWrite (c : HostCmd)
  | debugBreak (c : HostCmd)
  | debugTrapstep (c : HostCmd)
  | debugRecords (c : HostCmd)
  | sessionKeyRenew (ctx : Nat) (peer : Nat)
  | oldKeyExpire (ctx : Nat) (peer : Nat)
  | peerPacketAuthFail (k : Nat)
  | timeSyncUpdate (offset : Int)
  | portFail (port : Nat)
  | resetRelease (images : List BootImage) (badBays : Nat)
  | recoveryImageLoad (image : BootImage)
  | thermalThrottle
  | thermalFatal
  | thermalShutdown
  | powerLoss
  | peerWriteArrival (ctx : PeerRoute) (va : Word) (bytes : List Byte)
  | spinHoldEnd
  | rbcntRaise (level : Nat) (signed : Bool)
  deriving DecidableEq, Repr

end Sys2Proof
end

