-- ==== Sys2Proof/WellFormed.lean ====
section
/-! DEFINITION. Which instructions are words of the machine (R33 to R36, R47, R49): the conditions that the fields of one
constructor must meet together, decided on the word alone. -/

namespace Sys2Proof

namespace Ty

/-- The integer types (R34, R52). -/
def isInt : Ty → Bool
  | .i8 | .i16 | .i32 | .i64 | .n8 | .n16 | .n32 | .n64 => true
  | _ => false

/-- The signed integer types. -/
def isSigned : Ty → Bool
  | .i8 | .i16 | .i32 | .i64 => true
  | _ => false

/-- The floating types that vector arithmetic accepts (R103). -/
def isFl : Ty → Bool
  | .f16 | .bf16 | .f32 => true
  | _ => false

/-- The eight-bit floating types that VCVT does not join with e5m3 (R110). -/
def isFp8 : Ty → Bool
  | .e4m3 | .e5m2 => true
  | _ => false

/-- The lane width in bits (R34). -/
def width : Ty → Nat
  | .i8 | .n8 | .e4m3 | .e5m2 | .e5m3 => 8
  | .i16 | .n16 | .f16 | .bf16 => 16
  | .i32 | .n32 | .f32 => 32
  | .i64 | .n64 => 64

/-- The number of lanes (R34). -/
def lanes (t : Ty) : Nat := 1024 / t.width

end Ty

/-- VCVT's width ratio (R47). -/
def cvtRatio (t ts : Ty) : Nat := max t.width ts.width / min t.width ts.width

/-- The pairs of types VCVT accepts (R110): every pair of different types but e5m3 with an integer or an
eight-bit floating type. -/
def cvtPair (t ts : Ty) : Bool :=
  !(t == .e5m3 && (ts.isInt || ts.isFp8)) && !(ts == .e5m3 && (t.isInt || t.isFp8))

/-- Whether the fields of an instruction make a word of the machine (R49). An event has no word and is never decoded. -/
def wf : Instr → Bool
  | .vadd _ _ _ t _ | .vsub _ _ _ t _ | .vmul _ _ _ t _ | .vfma _ _ _ t _ | .vfnma _ _ _ t _ | .vmin _ _ _ t _
  | .vmax _ _ _ t _ => t.isInt || t.isFl
  | .vadds _ _ _ t _ | .vsubs _ _ _ t _ | .vmulh _ _ _ t _ | .vshl _ _ _ t _ | .vshr _ _ _ t _ | .vsar _ _ _ t _
  | .vfsh _ _ _ t _ => t.isInt
  | .vbext _ _ _ t _ => t.isInt && t.width != 8
  | .vand _ _ _ t _ | .vor _ _ _ t _ | .vxor _ _ _ t _ | .vandn _ _ _ t _ | .vsel _ _ _ t _ | .vperm _ _ _ t _
  | .vmov _ _ t _ | .vcompact _ _ t _ | .vexpand _ _ t _ => t != .e5m3
  | .vcmp _ kd _ _ t _ => (t.isInt || t.isFl) && kd != 0
  | .vcvt _ _ t ts p _ => t != ts && cvtPair t ts && cvtRatio t ts != 8 && decide (p.toNat < cvtRatio t ts)
  | .vabs _ _ t _ | .vneg _ _ t _ => t.isInt || t.isFl
  | .vnot _ _ t _ | .vclz _ _ t _ | .vpopc _ _ t _ => t.isInt
  | .vrcp _ _ t _ _ | .vsqrt _ _ t _ _ | .vrsq _ _ t _ _ | .vexp2 _ _ t _ _ | .vlog2 _ _ t _ _ | .vtanh _ _ t _ _
  | .vsigm _ _ t _ _ => t.isFl
  | .vfloor _ _ t _ | .vceil _ _ t _ | .vrndi _ _ t _ => t.isFl
  | .vredSum _ _ t _ _ | .vredMax _ _ t _ _ | .vredMin _ _ t _ _ => t.isInt || t.isFl
  | .vredAnd _ _ t _ _ | .vredOr _ _ t _ _ | .vredXor _ _ t _ _ => t.isInt
  | .vredAmax _ _ t _ _ => t.isFl
  | .vscanSadd _ _ t _ _ | .vscanSmax _ _ t _ _ | .vscanSmin _ _ t _ _ => t.isInt || t.isFl
  | .vmorton _ _ _ t _ | .vhashk _ _ _ t _ => t == .n32 || t == .n64
  | .mand d _ _ | .mor d _ _ | .mxor d _ _ | .mandn d _ _ | .mnot d _ | .mfromx d _ _ => d != 0
  | .stb _ _ h _ | .sth _ _ h _ | .stw _ _ h _ | .std _ _ h _ | .vst _ _ h _ => h != .lu
  | .vgath _ _ _ _ t _ | .vscat _ _ _ t _ => t != .e5m3
  | .fenceAcq a s | .fenceRel a s | .fenceAr a s | .fenceSc a s | .fenceWin a s | .fenceEng a s => s == .grp || a == 0
  | .ldaq _ _ b _ s _ | .strl _ _ b s _ => s == .grp || b == 0
  | _ => true

end Sys2Proof
end

