-- ==== Sys2Proof/Machine/Numbers.lean ====
section
/-! DEFINITION. Number formats and rounding (04_numbers.md R52 to R74): exact values, the one rounding function of R68,
and the functions that vector instructions, engines and units share. Nothing here reads the state. -/

namespace Sys2Proof.Machine

/-! ## Integers -/

/-- The low `w` bits of an integer (R52). -/
def wrapInt (w : Nat) (z : Int) : Nat := (z % (2 ^ w : Int)).toNat

/-- A `w`-bit pattern read as two's complement or unsigned (R52). -/
def toInt (signed : Bool) (w n : Nat) : Int :=
  let n := n % 2 ^ w
  if signed && n ≥ 2 ^ (w - 1) then (n : Int) - 2 ^ w else n

/-- The least value of an integer type (R52). -/
def intMin (signed : Bool) (w : Nat) : Int := if signed then -(2 ^ (w - 1) : Int) else 0

/-- The greatest value of an integer type (R52). -/
def intMax (signed : Bool) (w : Nat) : Int := if signed then 2 ^ (w - 1) - 1 else 2 ^ w - 1

/-- A value clamped to an integer type, and whether it was clamped (R55). -/
def clampInt (signed : Bool) (w : Nat) (z : Int) : Int × Bool :=
  if z < intMin signed w then (intMin signed w, true)
  else if z > intMax signed w then (intMax signed w, true) else (z, false)

/-- The quotient of R53. -/
def divQ (signed : Bool) (w : Nat) (a b : Int) : Int :=
  if b = 0 then -1 else if signed && a = intMin true w && b = -1 then a else a.tdiv b

/-- The remainder of R53. -/
def divR (signed : Bool) (w : Nat) (a b : Int) : Int :=
  if b = 0 then a else if signed && a = intMin true w && b = -1 then 0 else a.tmod b

/-- Shift left (R54). -/
def shlN (w a s : Nat) : Nat := if s < w then (a <<< s) % 2 ^ w else 0
/-- Logical shift right (R54). -/
def shrN (w a s : Nat) : Nat := if s < w then (a % 2 ^ w) >>> s else 0
/-- Arithmetic shift right (R54). -/
def sarN (w a s : Nat) : Nat := wrapInt w (toInt true w a >>> min s (w - 1))
/-- Rotate left (R54). -/
def rolN (w a s : Nat) : Nat :=
  let r := s % w
  let a := a % 2 ^ w
  ((a <<< r) ||| (a >>> (w - r))) % 2 ^ w

/-- The number of bits of the binary form of `n`; 0 for 0. -/
def bitLen (n : Nat) : Nat := if n = 0 then 0 else n.log2 + 1

/-- The number of one bits among the low `w`. -/
def popN : Nat → Nat → Nat
  | 0, _ => 0
  | w + 1, n => n % 2 + popN w (n / 2)

/-- The number of trailing zero bits among the low `w`. -/
def ctzN : Nat → Nat → Nat
  | 0, _ => 0
  | w + 1, n => if n % 2 = 1 then 0 else 1 + ctzN w (n / 2)

/-- The integer square root, one result bit per unit of fuel, from the top. -/
def isqrtGo (n : Nat) : Nat → Nat → Nat
  | 0, r => r
  | k + 1, r => let c := r + 2 ^ k; isqrtGo n k (if c * c ≤ n then c else r)

/-- The integer square root. -/
def isqrt (n : Nat) : Nat := isqrtGo n (bitLen n / 2 + 1) 0

/-! ## Floating-point formats -/

/-- What R56 gives of a format: mantissa bits, exponent bits, bias, whether it has a sign and whether it has infinities. -/
structure Fmt where
  m : Nat
  e : Nat
  bias : Nat
  sign : Bool
  inf : Bool
  deriving DecidableEq, Repr

/-- The formats of R56. An integer type has none; f32's is given for it and never used. -/
def fmtOf : Ty → Fmt
  | .f16 => ⟨10, 5, 15, true, true⟩
  | .bf16 => ⟨7, 8, 127, true, true⟩
  | .e4m3 => ⟨3, 4, 7, true, false⟩
  | .e5m2 => ⟨2, 5, 15, true, true⟩
  | .e5m3 => ⟨3, 5, 15, false, false⟩
  | _ => ⟨23, 8, 127, true, true⟩

/-- The code of the largest finite magnitude (R56). -/
def maxCode (t : Ty) : Nat :=
  match t with
  | .e4m3 => 0x7E
  | _ => let f := fmtOf t; (2 ^ f.e - 1) * 2 ^ f.m - 1

/-- The canonical NaN (R56). -/
def nanCode : Ty → Nat
  | .f16 => 0x7E00
  | .bf16 => 0x7FC0
  | .e4m3 => 0x7F
  | .e5m2 => 0x7E
  | .e5m3 => 0xFF
  | _ => 0x7FC00000

/-- The place of the sign bit. -/
def signBit (t : Ty) : Nat := let f := fmtOf t; if f.sign then 2 ^ (f.m + f.e) else 0

/-- What a pattern means: a NaN, an infinity, or the exact value (-1)^neg * n * 2^e; n = 0 is a zero with its sign. -/
inductive FVal where
  | nan
  | inf (neg : Bool)
  | fin (neg : Bool) (n : Nat) (e : Int)
  deriving DecidableEq, Repr

/-- The value of a pattern (R56). -/
def fdec (t : Ty) (c : Nat) : FVal :=
  let f := fmtOf t
  let neg := f.sign && c / 2 ^ (f.m + f.e) % 2 == 1
  let ex := c / 2 ^ f.m % 2 ^ f.e
  let mt := c % 2 ^ f.m
  if ex = 2 ^ f.e - 1 && (f.inf || !f.sign) then (if mt = 0 && f.sign then .inf neg else .nan)
  else if ex = 2 ^ f.e - 1 && mt = 2 ^ f.m - 1 then .nan
  else if ex = 0 then .fin neg mt (1 - f.bias - f.m)
  else .fin neg (2 ^ f.m + mt) ((ex : Int) - f.bias - f.m)

/-- An exact real whose magnitude lies in [n, n + 1) * 2^e: it is n * 2^e if `sticky` is false and above it if true. -/
structure Mag where
  neg : Bool
  n : Nat
  e : Int
  sticky : Bool
  deriving DecidableEq, Repr

/-- A result and its flags: NV 1, DZ 2, OF 4, UF 8, NX 16, SA 32 (R64). -/
abbrev Rounded := Nat × Nat

/-- How a rounding is done: the mode (R63; `dyn` is never used), SATF (R67) and the random value u (R69). -/
structure RMode where
  rnd : Rnd
  sat : Bool
  u : Nat
  deriving DecidableEq, Repr

/-- Round to nearest even: the mode of every engine that names no other (R446). -/
def rmRne : RMode := ⟨.rne, true, 0⟩

/-- The integer part of `n * 2^(-sh)` and its rest, as rest and unit (R68). -/
def splitAt (n : Nat) (sh : Int) : Nat × Nat × Nat :=
  if sh ≤ 0 then (n * 2 ^ (-sh).toNat, 0, 1) else (n / 2 ^ sh.toNat, n % 2 ^ sh.toNat, 2 ^ sh.toNat)

/-- R68 and R69: the magnitude chosen from k and k + 1, and whether the exact value lies between them. -/
def choose (rm : RMode) (neg : Bool) (k rem unit : Nat) (st : Bool) : Nat × Bool :=
  let inex := rem != 0 || st
  let k' := match rm.rnd with
    | .rtz => k
    | .rdn => if inex && neg then k + 1 else k
    | .rup => if inex && !neg then k + 1 else k
    | .rna => if 2 * rem ≥ unit then k + 1 else k
    | .sto => if inex && rem * 2 ^ 32 / unit > rm.u then k + 1 else k
    | .odd => if inex then k ||| 1 else k
    | _ => if 2 * rem > unit || (2 * rem == unit && (st || k % 2 == 1)) then k + 1 else k
  (k', inex)

/-- The result of an overflow of a finite value (R68). -/
def overflowCode (t : Ty) (rm : RMode) (neg : Bool) : Nat :=
  let s := if neg then signBit t else 0
  let mx := s + maxCode t
  let toInf := match rm.rnd with
    | .rtz | .odd => false
    | .rdn => neg
    | .rup => !neg
    | _ => true
  match t with
  | .e5m3 => mx
  | .e4m3 => if rm.sat then mx else if toInf then 0x7F else mx
  | .e5m2 => if rm.sat then mx else if toInf then s + 0x7C else mx
  | _ => if toInf then s + maxCode t + 1 else mx

/-- round_F_mode of an exact real (R65, R68, R69). -/
def roundMag (t : Ty) (rm : RMode) (x : Mag) : Rounded :=
  let f := fmtOf t
  let s := if x.neg then signBit t else 0
  if x.n = 0 && !x.sticky then (s, 0)
  else if x.neg && !f.sign then (0xFF, 1)
  else
    let q : Int := max ((bitLen x.n : Int) - 1 + x.e - f.m) (1 - f.bias - f.m)
    let (k, rem, unit) := splitAt x.n (q - x.e)
    let (k', inex) := choose rm x.neg k rem unit x.sticky
    let code := ((q + f.m + f.bias).toNat) * 2 ^ f.m + k' - 2 ^ f.m
    if code > maxCode t then (overflowCode t rm x.neg, 4 + 16)
    else (s + code, (if inex then 16 else 0) + (if inex && code < 2 ^ f.m then 8 else 0))

/-- round_F_mode of a value, an infinity or a NaN (R57, R68). -/
def roundVal (t : Ty) (rm : RMode) (v : FVal) : Rounded :=
  match v with
  | .nan => (nanCode t, 0)
  | .fin neg n e => roundMag t rm ⟨neg, n, e, false⟩
  | .inf neg =>
    let s := if neg then signBit t else 0
    match t with
    | .e4m3 => (if rm.sat then s + 0x7E else 0x7F, 1)
    | .e5m3 => (if neg then 0xFF else 0xF7, 1)
    | _ => (s + maxCode t + 1, 0)

/-- Whether a value is below -0. -/
def belowZero : FVal → Bool
  | .inf neg => neg
  | .fin neg n _ => neg && n != 0
  | .nan => false

/-! ## Exact operations -/

/-- The exact sum of two dyadic rationals as sign and magnitude. -/
def dyAdd (z1 : Int) (e1 : Int) (z2 : Int) (e2 : Int) : Int × Int :=
  let e := min e1 e2
  (z1 * 2 ^ (e1 - e).toNat + z2 * 2 ^ (e2 - e).toNat, e)

/-- A signed integer of a sign and a magnitude. -/
def sgn (neg : Bool) (n : Nat) : Int := if neg then -(n : Int) else n

/-- The exact value of a signed dyadic rational; a zero takes the sign given. -/
def finOf (z e : Int) (zneg : Bool) : FVal := .fin (if z = 0 then zneg else z < 0) z.natAbs e

/-- Exact addition (R65, R68): NV for opposite infinities; `rdn` chooses the sign of an exact zero. -/
def addVal (rdn : Bool) (a b : FVal) : FVal × Nat :=
  match a, b with
  | .nan, _ => (.nan, 0)
  | _, .nan => (.nan, 0)
  | .inf s, .inf t => if s == t then (.inf s, 0) else (.nan, 1)
  | .inf s, _ => (.inf s, 0)
  | _, .inf t => (.inf t, 0)
  | .fin s n e, .fin t m g =>
    let (z, x) := dyAdd (sgn s n) e (sgn t m) g
    (finOf z x (if n = 0 && m = 0 && s == t then s else rdn), 0)

/-- Exact multiplication (R65): NV for 0 times an infinity. -/
def mulVal (a b : FVal) : FVal × Nat :=
  match a, b with
  | .nan, _ => (.nan, 0)
  | _, .nan => (.nan, 0)
  | .inf s, .inf t => (.inf (s != t), 0)
  | .inf s, .fin t m _ => if m = 0 then (.nan, 1) else (.inf (s != t), 0)
  | .fin s n _, .inf t => if n = 0 then (.nan, 1) else (.inf (s != t), 0)
  | .fin s n e, .fin t m g => (.fin (s != t) (n * m) (e + g), 0)

/-- The scale of a square-scaled element: its block's scale times its tensor's. Under a zero block scale it is a zero whatever the
tensor's is, but for NaN: every finite element reads as a zero of the sign of q × T there (R59). -/
def scaleVal (s t : FVal) : FVal × Nat :=
  match s, t with
  | .fin _ 0 _, .inf neg => (.fin neg 0 0, 0)
  | s, t => mulVal s t

/-- The value with the other sign. -/
def negVal : FVal → FVal
  | .nan => .nan
  | .inf s => .inf !s
  | .fin s n e => .fin (!s) n e

/-- The magnitude of a value. -/
def absVal : FVal → FVal
  | .nan => .nan
  | .inf _ => .inf false
  | .fin _ n e => .fin false n e

/-- a * b + c, rounded nowhere (R65, R71). -/
def fmaVal (rdn : Bool) (a b c : FVal) : FVal × Nat :=
  let (p, f) := mulVal a b
  let (r, g) := addVal rdn p c
  (r, f ||| g)

/-- The order of two values that are not NaN (R58): less, equal or greater. -/
def cmpVal (a b : FVal) : Ordering :=
  match a, b with
  | .inf s, .inf t => if s == t then .eq else if s then .lt else .gt
  | .inf s, _ => if s then .lt else .gt
  | _, .inf t => if t then .gt else .lt
  | .fin s n e, .fin t m g => let (z, _) := dyAdd (sgn s n) e (-(sgn t m)) g; compare z 0
  | _, _ => .eq

/-- Whether a value is negative by its sign. -/
def negSign : FVal → Bool
  | .inf s => s
  | .fin s _ _ => s
  | .nan => false

/-- The lesser (or greater) pattern by R58: NaN gives way, -0 is below +0, two NaNs give the canonical one. -/
def minmaxCode (t : Ty) (isMax : Bool) (a b : Nat) : Nat :=
  match fdec t a, fdec t b with
  | .nan, .nan => nanCode t
  | .nan, _ => b
  | _, .nan => a
  | x, y =>
    let less := match cmpVal x y with
      | .lt => true
      | .gt => false
      | .eq => negSign x && !negSign y
    if less != isMax then a else b

/-- The exact product of a fraction `num / den` and 2^e as a magnitude with 96 or more bits (R71). -/
def ratMag (neg : Bool) (num den : Nat) (e : Int) : Mag :=
  let k := bitLen den + 96
  let x := num * 2 ^ k
  ⟨neg, x / den, e - k, x % den != 0⟩

/-- Addition rounded once in a format, with its flags. -/
def faddCode (t : Ty) (rm : RMode) (a b : Nat) : Rounded :=
  let (v, f) := addVal (rm.rnd == .rdn) (fdec t a) (fdec t b)
  let (c, g) := roundVal t rm v
  (c, f ||| g)

/-- Multiplication rounded once. -/
def fmulCode (t : Ty) (rm : RMode) (a b : Nat) : Rounded :=
  let (v, f) := mulVal (fdec t a) (fdec t b)
  let (c, g) := roundVal t rm v
  (c, f ||| g)

/-- Fused multiply-add of three patterns, rounded once (R71). -/
def ffmaCode (t : Ty) (rm : RMode) (negP : Bool) (a b c : Nat) : Rounded :=
  let va := fdec t a
  let (v, f) := fmaVal (rm.rnd == .rdn) (if negP then negVal va else va) (fdec t b) (fdec t c)
  let (r, g) := roundVal t rm v
  (r, f ||| g)

/-! ## Roundings to integers -/

/-- The magnitude of a real rounded to an integer, and whether it was inexact. -/
def roundToInt (rm : RMode) (x : Mag) : Nat × Bool :=
  let (k, rem, unit) := splitAt x.n (-x.e)
  choose rm x.neg k rem unit x.sticky

/-- Float to integer (R71): NV and the type's bound when the result does not fit, 0 for NaN. -/
def floatToInt (signed : Bool) (w : Nat) (rm : RMode) (v : FVal) : Rounded :=
  match v with
  | .nan => (0, 1)
  | .inf neg => (wrapInt w (if neg then intMin signed w else intMax signed w), 1)
  | .fin neg n e =>
    let (k, inex) := roundToInt rm ⟨neg, n, e, false⟩
    let (z, out) := clampInt signed w (sgn neg k)
    (wrapInt w z, if out then 1 else if inex then 16 else 0)

/-- Integer to float (R71). -/
def intToFloat (t : Ty) (rm : RMode) (z : Int) : Rounded := roundMag t rm ⟨z < 0, z.natAbs, 0, false⟩

/-- A value rounded to an integral value of its own format; the sign of a zero result is the input's. -/
def roundIntegral (t : Ty) (rm : RMode) (c : Nat) : Rounded :=
  match fdec t c with
  | .nan => (nanCode t, 0)
  | .inf _ => (c, 0)
  | .fin neg n e =>
    let (k, inex) := roundToInt rm ⟨neg, n, e, false⟩
    let (r, f) := roundMag t rm ⟨neg, k, 0, false⟩
    (r, f ||| (if inex then 16 else 0))

/-! ## The transcendental functions (R71)

Each gives the exact value's magnitude to 240 or more bits with its sticky bit, from integer arithmetic at 640 bits. -/

/-- The bits of the fixed-point values below. -/
def fxP : Nat := 640
/-- The bits dropped from them, far above their error. -/
def fxS : Nat := 400

/-- The sum of the series of e^r for a fixed-point r below 1. -/
def expSeries (r : Nat) : Nat → Nat → Nat → Nat
  | 0, _, _ => 0
  | f + 1, k, term => term + expSeries r f (k + 1) (term * r / (2 ^ fxP * k))

/-- A fixed-point number squared k times. -/
def squareTimes : Nat → Nat → Nat
  | 0, v => v
  | k + 1, v => squareTimes k (v * v / 2 ^ fxP)

/-- e^y for a fixed-point y from 0 to 255. -/
def expFix (y : Nat) : Nat := squareTimes 8 (expSeries (y / 2 ^ 8) 160 1 (2 ^ fxP))

/-- The series of ln 2: the sum of 1 / (k 2^k). -/
def ln2Go : Nat → Nat → Nat
  | 0, _ => 0
  | f + 1, k => 2 ^ fxP / (k * 2 ^ k) + ln2Go f (k + 1)

/-- ln 2 in fixed point. -/
def ln2Fix : Nat := ln2Go fxP 1

/-- A fixed-point result as an inexact magnitude. -/
def fxMag (neg : Bool) (a : Nat) (e : Int) : Mag := ⟨neg, a / 2 ^ fxS, e - (fxP - fxS : Nat), true⟩

/-- n * 2^e in fixed point, rounded down. -/
def fxOf (n : Nat) (e : Int) : Nat := let k := e + fxP; if k < 0 then n / 2 ^ (-k).toNat else n * 2 ^ k.toNat

/-- 2^x for a finite x: exact for an integer, else irrational. -/
def exp2Mag (neg : Bool) (n : Nat) (e : Int) : Mag :=
  if (bitLen n : Int) + e > 12 then ⟨false, 1, if neg then -4096 else 4096, true⟩
  else
    let z := sgn neg n
    let i : Int := if e < 0 then z / 2 ^ (-e).toNat else z * 2 ^ e.toNat
    let frac : Nat := if e < 0 then (z % 2 ^ (-e).toNat).toNat else 0
    if frac = 0 then ⟨false, 1, i, false⟩
    else fxMag false (expSeries (fxOf frac e * ln2Fix / 2 ^ fxP) 160 1 (2 ^ fxP)) i

/-- The first `f` bits of log2 of a fixed-point y in [1, 2). -/
def log2Go : Nat → Nat → Nat → Nat
  | 0, _, acc => acc
  | f + 1, y, acc =>
    let z := y * y / 2 ^ fxP
    if z ≥ 2 ^ (fxP + 1) then log2Go f (z / 2) (2 * acc + 1) else log2Go f z (2 * acc)

/-- log2 of a positive n * 2^e: exact for a power of two, else irrational. -/
def log2Mag (n : Nat) (e : Int) : Mag :=
  let k : Int := (bitLen n : Int) - 1 + e
  if n = 2 ^ (bitLen n - 1) then ⟨k < 0, k.natAbs, 0, false⟩
  else
    let f := log2Go 240 (fxOf n (1 - (bitLen n : Int))) 0
    if k ≥ 0 then ⟨false, k.toNat * 2 ^ 240 + f, -240, true⟩
    else ⟨true, (-k - 1).toNat * 2 ^ 240 + (2 ^ 240 - f - 1), -240, true⟩

/-- A magnitude just below n * 2^e. -/
def justBelow (neg : Bool) (n : Nat) (e : Int) : Mag := ⟨neg, n * 2 ^ 40 - 1, e - 40, true⟩

/-- tanh of a nonzero finite value. -/
def tanhMag (neg : Bool) (n : Nat) (e : Int) : Mag :=
  let top := (bitLen n : Int) + e
  if top ≤ -40 then justBelow neg n e
  else if top > 6 then justBelow neg (2 ^ 40) (-40)
  else
    let w := expFix (fxOf n (e + 1))
    fxMag neg ((w - 2 ^ fxP) * 2 ^ fxP / (w + 2 ^ fxP)) 0

/-- 1 / (1 + e^-x) of a nonzero finite value. -/
def sigmMag (neg : Bool) (n : Nat) (e : Int) : Mag :=
  let top := (bitLen n : Int) + e
  if top > 7 then (if neg then ⟨false, 1, -400, true⟩ else justBelow false (2 ^ 40) (-40))
  else if top ≤ -240 then ⟨false, if neg then 2 ^ 80 - 1 else 2 ^ 80, -81, true⟩
  else
    let w := expFix (fxOf n e)
    let num := if neg then 2 ^ fxP else w
    fxMag false (num * 2 ^ fxP / (w + 2 ^ fxP)) 0

/-- The transcendental instructions (R71). -/
inductive Trans where
  | sqrt | rcp | rsq | exp2 | log2 | tanh | sigm
  deriving DecidableEq, Repr

/-- The square root of a positive value. -/
def sqrtMag (n : Nat) (e : Int) : Mag :=
  let odd := e % 2
  let m := n * 2 ^ (200 + odd.toNat)
  let r := isqrt m
  ⟨false, r, (e - odd - 200) / 2, r * r != m⟩

/-- The reciprocal square root of a positive value. -/
def rsqMag (n : Nat) (e : Int) : Mag :=
  let odd := e % 2
  let m := n * 2 ^ odd.toNat
  let r := isqrt (2 ^ 300 / m)
  ⟨false, r, -150 - (e - odd) / 2, r * r * m != 2 ^ 300⟩

/-- R71's table of functions and special values: the result pattern and its flags. -/
def transCode (op : Trans) (t : Ty) (rm : RMode) (c : Nat) : Rounded :=
  let one := (fmtOf t).bias * 2 ^ (fmtOf t).m
  match fdec t c with
  | .nan => (nanCode t, 0)
  | .inf neg =>
    match op with
    | .sqrt | .log2 => if neg then (nanCode t, 1) else roundVal t rm (.inf false)
    | .rcp => (if neg then signBit t else 0, 0)
    | .rsq => if neg then (nanCode t, 1) else (0, 0)
    | .exp2 => if neg then (0, 0) else roundVal t rm (.inf false)
    | .tanh => ((if neg then signBit t else 0) + one, 0)
    | .sigm => (if neg then 0 else one, 0)
  | .fin neg n e =>
    if n = 0 then
      match op with
      | .sqrt | .tanh => (c, 0)
      | .rcp | .rsq => let (r, f) := roundVal t rm (.inf neg); (r, f ||| 2)
      | .exp2 => (one, 0)
      | .log2 => let (r, f) := roundVal t rm (.inf true); (r, f ||| 2)
      | .sigm => (one - 2 ^ (fmtOf t).m, 0)
    else
      match op with
      | .sqrt => if neg then (nanCode t, 1) else roundMag t rm (sqrtMag n e)
      | .rcp => roundMag t rm (ratMag neg 1 n (-e))
      | .rsq => if neg then (nanCode t, 1) else roundMag t rm (rsqMag n e)
      | .exp2 => roundMag t rm (exp2Mag neg n e)
      | .log2 => if neg then (nanCode t, 1) else roundMag t rm (log2Mag n e)
      | .tanh => roundMag t rm (tanhMag neg n e)
      | .sigm => roundMag t rm (sigmMag neg n e)

/-! ## The LFSR (R69) -/

/-- One single step. -/
def lfsrStep (s : Word) : Word :=
  let b := s.getLsbD 63 ^^ s.getLsbD 62 ^^ s.getLsbD 60 ^^ s.getLsbD 59
  (s <<< 1) ||| (if b then 1 else 0)

/-- k single steps. -/
def lfsrSteps : Nat → Word → Word
  | 0, s => s
  | k + 1, s => lfsrSteps k (lfsrStep s)

/-- An advance: 32 single steps (R69). -/
def lfsrAdvance (s : Word) : Word := lfsrSteps 32 s

/-! ## Exact sums (R74) -/

/-- An exact sum of products: the finite part, what infinities and NaNs it met, and whether every product was -0. -/
structure ExactSum where
  z : Int
  e : Int
  posInf : Bool
  negInf : Bool
  nan : Bool
  nv : Bool
  allNegZero : Bool
  deriving DecidableEq, Repr

/-- The empty sum. -/
def sumZero : ExactSum := ⟨0, 0, false, false, false, false, true⟩

/-- A product added to an exact sum. -/
def sumAdd (s : ExactSum) (p : FVal × Nat) : ExactSum :=
  let s := { s with nv := s.nv || p.2 % 2 == 1 }
  match p.1 with
  | .nan => { s with nan := true, allNegZero := false }
  | .inf true => { s with negInf := true, allNegZero := false }
  | .inf false => { s with posInf := true, allNegZero := false }
  | .fin neg n e =>
    let (z, x) := dyAdd s.z s.e (sgn neg n) e
    { s with z := z, e := x, allNegZero := s.allNegZero && neg && n == 0 }

/-- The value of an exact sum, with NV for opposite infinities and for 0 times an infinity. DEDUCED: notes/assumptions/59.md. -/
def sumVal (s : ExactSum) : FVal × Nat :=
  if s.nan || (s.posInf && s.negInf) then (.nan, if s.nv || (s.posInf && s.negInf) then 1 else 0)
  else if s.posInf then (.inf false, 0)
  else if s.negInf then (.inf true, 0)
  else (finOf s.z s.e s.allNegZero, 0)

end Sys2Proof.Machine
end

