-- ==== Sys2Proof/Config.lean ====
section
/-! DEFINITION. What the manual leaves open, as uninterpreted constants (notes/assumptions/4.md): nothing in Lean can evaluate
one or prove a value of it. The argument of most is the state's counter `tick`, so that each use is fresh. -/

namespace Sys2Proof.Config

/-- Nanoseconds of device time that have passed since it was last observed (R15, R76). -/
opaque elapsedNs : Nat → Nat
/-- Cycles of the common clock that have passed since they were last observed (R76). -/
opaque elapsedCycles : Nat → Nat
/-- Whether an access through a changed translation entry uses its old form (R147). DESIGN CHOICE: notes/assumptions/93.md. -/
opaque oldEntry : Nat → Bool
/-- Cycles counted by the stall and wait counters of R405 in a hold. DESIGN CHOICE: notes/assumptions/31.md. -/
opaque stallCycles : Nat → Nat
/-- The handle that the joiner would give next (R157): opaque; it is taken only if it is at least 256 and was never given.
DESIGN CHOICE: notes/assumptions/5.md. -/
opaque handle : Nat → Nat
/-- What hides the pegs of the device (R301), modulo 2^63: opaque. DESIGN CHOICE: notes/assumptions/5.md. -/
opaque pegKey : Nat
/-- The stack in which a piece of a tensor lies, by handle and first element (R327, R328). DEDUCED: notes/assumptions/61.md. -/
opaque pieceStack : Nat → Nat → Nat
/-- What a rounding stores where the rule states no value: the quotient by a zero scale (R181).
DESIGN CHOICE: notes/assumptions/24.md. -/
opaque freeElem : Nat → Nat
/-- A value that the manual does not state (R398: ADDR of a breakpoint's trigger record, and like fields).
DESIGN CHOICE: notes/assumptions/94.md. -/
opaque freeWord : Nat → BitVec 64

/-- The copy engine of its die, modulo 4, that the device chooses for a copy (R279). DESIGN CHOICE: notes/assumptions/33.md. -/
opaque copyEngine : Nat → Nat
/-- What a message queue of another cluster answers (R296): 0 to a message that it takes, 1 where it is full, 2 where it is unbound;
modulo 3. DEDUCED: notes/assumptions/49.md. -/
opaque queueAnswer : Nat → Nat
/-- What MQPOLL reads of a message queue of another cluster. DEDUCED: notes/assumptions/49.md. -/
opaque queueState : Nat → BitVec 7
/-- What COREID (0; above every core number), CLUSTERID (1) and CTXID (2) of a service core read (R13).
DEDUCED: notes/assumptions/62.md. -/
opaque serviceCore : Nat → Nat → Nat
/-- A session key of a peer entry: R432 derives it from the two sides' secrets and nonces. DESIGN CHOICE: notes/assumptions/107.md. -/
opaque sessionKey : Nat → BitVec 256
/-- A key of 256 bits drawn from the device's random source: that of a boot's images (R373), and that of a context's memory (R438).
DEDUCED: notes/assumptions/112.md. -/
opaque drawnKey : Nat → BitVec 256
/-- A byte of a block of an image as it is encrypted, by the key, the block's nonce and the byte's place, its tag among them (R373).
DESIGN CHOICE: notes/assumptions/65.md. -/
opaque imageByte : BitVec 256 → BitVec 96 → Nat → BitVec 8
/-- The value in a lane of a stochastic VSCAN whose mask bit is 0, by ICOUNT, half and lane (R23, R73): a free value.
DESIGN CHOICE: notes/assumptions/100.md. -/
opaque scanDraw : BitVec 64 → Nat → Nat → BitVec 64
/-- The SHA-384 of the public key that the fuses hold (R434). DESIGN CHOICE: notes/assumptions/86.md. -/
opaque fusedKeyHash : BitVec 384
/-- The chunks, less one and modulo 8, that a compressed block of these bytes takes (R135): the code is the joiner's.
DESIGN CHOICE: notes/assumptions/98.md. -/
opaque blockChunks : List (BitVec 8) → Nat
/-- The physical address of a 64-byte line of a tensor, by handle and line (R375, R388): the joiner places it.
DESIGN CHOICE: notes/assumptions/98.md. -/
opaque tensorLine : Nat → Nat → BitVec 64
/-- The table page that the device's pool gives for its `n`th table (R428): a page number; it is taken only if it is free.
DEDUCED: notes/assumptions/77.md. -/
opaque tablePage : Nat → Nat
/-- The device identity's public key, of 96 bytes (R436). DEDUCED: notes/assumptions/96.md. -/
opaque identityKey : BitVec 768
/-- The alias public key that a boot derives from measurement registers 0 to 2 (R436). DEDUCED: notes/assumptions/96.md. -/
opaque aliasKey : List (BitVec 384) → BitVec 768
/-- The manufacturer's certificate (R436). DEDUCED: notes/assumptions/96.md. -/
opaque makerCert : List (BitVec 8)
/-- The bytes of a certificate of a public key, signed by the manufacturer's key (`none`) or by another (R436).
DEDUCED: notes/assumptions/96.md. -/
opaque certOf : BitVec 768 → Option (BitVec 768) → List (BitVec 8)
/-- The alias key's 96-byte signature over the first 496 bytes of a quote (R437). DEDUCED: notes/assumptions/96.md. -/
opaque signature : List (BitVec 384) → List (BitVec 8) → BitVec 768
/-- The firmware version of the last stage that runs, by its digest (R440).
DESIGN CHOICE: notes/assumptions/86.md; DEDUCED: notes/assumptions/96.md. -/
opaque firmwareVersion : BitVec 384 → BitVec 32
/-- Measurement registers 3 to 7 as firmware extends them for its configuration (R434).
DESIGN CHOICE: notes/assumptions/86.md. -/
opaque configMeasure : Nat → BitVec 384
/-- The byte in which a reverse command names the reason of R394 for which it refused.
DESIGN CHOICE: notes/assumptions/82.md. -/
opaque reversalReason : Nat → BitVec 8
/-- Whether a load meets a line that the move under way of its tensor has written already (R167, R300).
DEDUCED: notes/assumptions/108.md. -/
opaque movedLine : Nat → Nat → Bool
/-- What a reverse command reports of another core's steps: their number is not known either.
DESIGN CHOICE: notes/assumptions/81.md. -/
opaque freeReport : Nat → List (BitVec 8)

end Sys2Proof.Config
end

