-- ==== Sys2Proof/Decode.lean ====
section
/-! DEFINITION. The decoder and the encoder of instruction words (R28 to R37, R44 to R49), both written from the tables of
03_instruction_words.md. What builds the last constructors is noncomputable because Lean's code generator numbers at most
245 of a type's constructors; the kernel evaluates all of it. `decode` is total and answers none for every word that raises Illegal Instruction (R49). -/

namespace Sys2Proof

/-! ## Fields -/

/-- The field of `len` bits at `lo` (R29). -/
def fld (w : IWord) (lo len : Nat) : BitVec len := w.extractLsb' lo len

/-- A one-bit field. -/
def bit (b : Bool) : BitVec 1 := if b then 1 else 0

/-- A source's kind tag and field (R32). -/
def Src.code : Src → BitVec 7
  | .v r => 0#2 ++ r
  | .x r => 1#2 ++ r
  | .c e => 2#2 ++ e
  | .lit n => 3#2 ++ n

/-- R32. -/
def Src.ofCode (f : BitVec 7) : Src :=
  let r := f.extractLsb' 0 5
  match (f.extractLsb' 5 2).toNat with
  | 0 => .v r
  | 1 => .x r
  | 2 => .c r
  | _ => .lit r

/-- The element type codes (R34). -/
def Ty.code : Ty → BitVec 4
  | .i8 => 0
  | .i16 => 1
  | .i32 => 2
  | .i64 => 3
  | .n8 => 4
  | .n16 => 5
  | .n32 => 6
  | .n64 => 7
  | .e4m3 => 8
  | .e5m2 => 9
  | .f16 => 10
  | .bf16 => 11
  | .f32 => 12
  | .e5m3 => 13

/-- The element type codes (R34). -/
def Ty.ofCode (f : BitVec 4) : Option Ty :=
  match f.toNat with
  | 0 => some .i8
  | 1 => some .i16
  | 2 => some .i32
  | 3 => some .i64
  | 4 => some .n8
  | 5 => some .n16
  | 6 => some .n32
  | 7 => some .n64
  | 8 => some .e4m3
  | 9 => some .e5m2
  | 10 => some .f16
  | 11 => some .bf16
  | 12 => some .f32
  | 13 => some .e5m3
  | _ => none

/-- VCMP's conditions (R47). -/
def VCond.code : VCond → BitVec 3
  | .eq => 0
  | .ne => 1
  | .lt => 2
  | .le => 3
  | .gt => 4
  | .ge => 5
  | .unord => 6
  | .ord => 7

/-- VCMP's conditions (R47). -/
def VCond.ofCode (f : BitVec 3) : VCond :=
  match f.toNat with
  | 0 => .eq
  | 1 => .ne
  | 2 => .lt
  | 3 => .le
  | 4 => .gt
  | 5 => .ge
  | 6 => .unord
  | _ => .ord

/-- The rounding codes (R47). -/
def Rnd.code : Rnd → BitVec 3
  | .dyn => 0
  | .rne => 1
  | .rtz => 2
  | .rdn => 3
  | .rup => 4
  | .rna => 5
  | .sto => 6
  | .odd => 7

/-- The rounding codes (R47). -/
def Rnd.ofCode (f : BitVec 3) : Rnd :=
  match f.toNat with
  | 0 => .dyn
  | 1 => .rne
  | 2 => .rtz
  | 3 => .rdn
  | 4 => .rup
  | 5 => .rna
  | 6 => .sto
  | _ => .odd

/-- The memory hints (R36). -/
def Hint.code : Hint → BitVec 2
  | .normal => 0
  | .by => 1
  | .na => 2
  | .lu => 3

/-- The memory hints (R36). -/
def Hint.ofCode (f : BitVec 2) : Hint :=
  match f.toNat with
  | 0 => .normal
  | 1 => .by
  | 2 => .na
  | _ => .lu

/-- The scope codes (R47). -/
def Scope.code : Scope → BitVec 3
  | .core => 0
  | .grp => 1
  | .clu => 2
  | .bay => 3
  | .die => 4
  | .dev => 5
  | .sys => 6

/-- The scope codes (R47). -/
def Scope.ofCode (f : BitVec 3) : Option Scope :=
  match f.toNat with
  | 0 => some .core
  | 1 => some .grp
  | 2 => some .clu
  | 3 => some .bay
  | 4 => some .die
  | 5 => some .dev
  | 6 => some .sys
  | _ => none

/-- The size bit of LDAQ, STRL, AMO, AMOX and RED (R47). -/
def Size.code : Size → BitVec 1
  | .w => 0
  | .d => 1

/-- The size bit of LDAQ, STRL, AMO, AMOX and RED (R47). -/
def Size.ofCode (f : BitVec 1) : Size :=
  match f.toNat with
  | 0 => .w
  | _ => .d

/-- The orders of AMO and AMOX (R47). -/
def AOrder.code : AOrder → BitVec 2
  | .rlx => 0
  | .acq => 1
  | .rel => 2
  | .ar => 3

/-- The orders of AMO and AMOX (R47). -/
def AOrder.ofCode (f : BitVec 2) : AOrder :=
  match f.toNat with
  | 0 => .rlx
  | 1 => .acq
  | 2 => .rel
  | _ => .ar

/-- The set codes (R47). -/
def PSet.code : PSet → BitVec 3
  | .none => 0
  | .spx => 1
  | .l1b => 2
  | .l2b => 3
  | .box => 4
  | .inc => 5
  | .dec => 6

/-- The set codes (R47). -/
def PSet.ofCode (f : BitVec 3) : Option PSet :=
  match f.toNat with
  | 0 => some .none
  | 1 => some .spx
  | 2 => some .l1b
  | 3 => some .l2b
  | 4 => some .box
  | 5 => some .inc
  | 6 => some .dec
  | _ => Option.none

/-! ## The encoder: one layout per form (R29) -/

/-- Form X. -/
def encX (m : BitVec 7) (d : BitVec 5) (a : BitVec 5) (b : BitVec 5) (la : BitVec 4) (fn : BitVec 6) : IWord :=
  m ++ d ++ a ++ b ++ la ++ fn

/-- Form SI. -/
def encSI (m : BitVec 7) (d : BitVec 5) (a : BitVec 5) (imm : BitVec 15) : IWord :=
  m ++ d ++ a ++ imm

/-- Form SB. -/
def encSB (m : BitVec 7) (a : BitVec 5) (b : BitVec 5) (cond : BitVec 3) (o : BitVec 12) : IWord :=
  m ++ a ++ b ++ cond ++ o

/-- Form SJ. -/
def encSJ (m : BitVec 7) (d : BitVec 5) (imm : BitVec 20) : IWord :=
  m ++ d ++ imm

/-- Form VR. -/
def encVR (m : BitVec 7) (d : BitVec 5) (a : BitVec 7) (b : BitVec 7) (ty : BitVec 4) (km : BitVec 2) : IWord :=
  m ++ d ++ a ++ b ++ ty ++ km

/-- Form VU. -/
def encVU (m : BitVec 7) (d : BitVec 5) (a : BitVec 7) (ty : BitVec 4) (km : BitVec 2) (la : BitVec 4) (fn : BitVec 3) : IWord :=
  m ++ d ++ a ++ ty ++ km ++ la ++ fn

/-- Form VC. -/
def encVC (m : BitVec 7) (d : BitVec 5) (a : BitVec 7) (tyd : BitVec 4) (tys : BitVec 4) (part : BitVec 2) (rnd : BitVec 3) : IWord :=
  m ++ d ++ a ++ tyd ++ tys ++ part ++ rnd

/-- Form VG. -/
def encVG (m : BitVec 7) (d : BitVec 5) (xb : BitVec 5) (vb : BitVec 5) (la : BitVec 4) (ty : BitVec 4) (km : BitVec 2) : IWord :=
  m ++ d ++ xb ++ vb ++ la ++ ty ++ km

/-- Form M. -/
def encM (m : BitVec 7) (d : BitVec 5) (xb : BitVec 5) (la : BitVec 4) (hint : BitVec 2) (o : BitVec 9) : IWord :=
  m ++ d ++ xb ++ la ++ hint ++ o

/-- Form MX. -/
def encMX (m : BitVec 7) (acc : BitVec 2) (ra : BitVec 3) (rb : BitVec 3) (z : BitVec 2) (xs : BitVec 5) (la : BitVec 4) (fn : BitVec 6) : IWord :=
  m ++ acc ++ ra ++ rb ++ z ++ xs ++ la ++ fn

/-- Form CS. -/
def encCS (m : BitVec 7) (d : BitVec 5) (a : BitVec 5) (csr : BitVec 12) (op : BitVec 3) : IWord :=
  m ++ d ++ a ++ csr ++ op

/-- Form RF. -/
def encRF (m : BitVec 7) (reps : BitVec 4) (len : BitVec 4) (ds : BitVec 5) (ss : BitVec 5) (z : BitVec 7) : IWord :=
  m ++ reps ++ len ++ ds ++ ss ++ z

/-- The word of an instruction (R29, R44 to R48); an event has none, and 0 is never an instruction. -/
def encode : Instr → IWord
  | .add d a b => encX 0x01#7 d a b 0#4 0#6
  | .sub d a b => encX 0x01#7 d a b 0#4 1#6
  | .mul d a b => encX 0x01#7 d a b 0#4 2#6
  | .mulh d a b => encX 0x01#7 d a b 0#4 3#6
  | .mulhn d a b => encX 0x01#7 d a b 0#4 4#6
  | .div d a b l => encX 0x01#7 d a b l 5#6
  | .divn d a b l => encX 0x01#7 d a b l 6#6
  | .rem d a b l => encX 0x01#7 d a b l 7#6
  | .remn d a b l => encX 0x01#7 d a b l 8#6
  | .and d a b => encX 0x01#7 d a b 0#4 9#6
  | .or d a b => encX 0x01#7 d a b 0#4 10#6
  | .xor d a b => encX 0x01#7 d a b 0#4 11#6
  | .andn d a b => encX 0x01#7 d a b 0#4 12#6
  | .shl d a b => encX 0x01#7 d a b 0#4 13#6
  | .shr d a b => encX 0x01#7 d a b 0#4 14#6
  | .sar d a b => encX 0x01#7 d a b 0#4 15#6
  | .rol d a b => encX 0x01#7 d a b 0#4 16#6
  | .ror d a b => encX 0x01#7 d a b 0#4 17#6
  | .min d a b => encX 0x01#7 d a b 0#4 18#6
  | .max d a b => encX 0x01#7 d a b 0#4 19#6
  | .minn d a b => encX 0x01#7 d a b 0#4 20#6
  | .maxn d a b => encX 0x01#7 d a b 0#4 21#6
  | .clz d a => encX 0x01#7 d a 0#5 0#4 22#6
  | .ctz d a => encX 0x01#7 d a 0#5 0#4 23#6
  | .popc d a => encX 0x01#7 d a 0#5 0#4 24#6
  | .slt d a b => encX 0x01#7 d a b 0#4 25#6
  | .sltn d a b => encX 0x01#7 d a b 0#4 26#6
  | .seq d a b => encX 0x01#7 d a b 0#4 27#6
  | .bext d a b => encX 0x01#7 d a b 0#4 28#6
  | .bins d a b => encX 0x01#7 d a b 0#4 29#6
  | .fshl d a b => encX 0x01#7 d a b 0#4 30#6
  | .fshr d a b => encX 0x01#7 d a b 0#4 31#6
  | .addi d a i => encSI 0x02#7 d a i
  | .andi d a i => encSI 0x03#7 d a i
  | .ori d a i => encSI 0x04#7 d a i
  | .xori d a i => encSI 0x05#7 d a i
  | .slti d a i => encSI 0x06#7 d a i
  | .shli d a s => encSI 0x07#7 d a (0#7 ++ s)
  | .shri d a s => encSI 0x07#7 d a (32#7 ++ s)
  | .sari d a s => encSI 0x07#7 d a (64#7 ++ s)
  | .rori d a s => encSI 0x07#7 d a (96#7 ++ s)
  | .li d i => encSJ 0x08#7 d i
  | .lui d i => encSJ 0x09#7 d i
  | .lhi d i => encSJ 0x0A#7 d i
  | .beq a b o => encSB 0x0B#7 a b 0#3 o
  | .bne a b o => encSB 0x0B#7 a b 1#3 o
  | .blt a b o => encSB 0x0B#7 a b 2#3 o
  | .bge a b o => encSB 0x0B#7 a b 3#3 o
  | .bltn a b o => encSB 0x0B#7 a b 4#3 o
  | .bgen a b o => encSB 0x0B#7 a b 5#3 o
  | .jal d o => encSJ 0x0C#7 d o
  | .jr d a => encX 0x0D#7 d a 0#5 0#4 0#6
  | .jrf d a => encX 0x0D#7 d a 0#5 0#4 1#6
  | .jf d o => encSJ 0x0E#7 d o
  | .rpt r n d s => encRF 0x0F#7 r n d s 0#7
  | .cfetch a b => encX 0x10#7 0#5 a b 0#4 0#6
  | .cfstat d a => encX 0x10#7 d a 0#5 0#4 1#6
  | .csrr d c => encCS 0x11#7 d 0#5 c 0#3
  | .csrw d a c => encCS 0x11#7 d a c 1#3
  | .csrs d a c => encCS 0x11#7 d a c 2#3
  | .csrc d a c => encCS 0x11#7 d a c 3#3
  | .csrx d a c => encCS 0x11#7 d a c 4#3
  | .vadd d a b t q => encVR 0x18#7 d a.code b.code t.code q
  | .vsub d a b t q => encVR 0x19#7 d a.code b.code t.code q
  | .vmul d a b t q => encVR 0x1A#7 d a.code b.code t.code q
  | .vfma d a b t q => encVR 0x1B#7 d a.code b.code t.code q
  | .vfnma d a b t q => encVR 0x1C#7 d a.code b.code t.code q
  | .vmin d a b t q => encVR 0x1D#7 d a.code b.code t.code q
  | .vmax d a b t q => encVR 0x1E#7 d a.code b.code t.code q
  | .vadds d a b t q => encVR 0x1F#7 d a.code b.code t.code q
  | .vsubs d a b t q => encVR 0x20#7 d a.code b.code t.code q
  | .vmulh d a b t q => encVR 0x21#7 d a.code b.code t.code q
  | .vand d a b t q => encVR 0x22#7 d a.code b.code t.code q
  | .vor d a b t q => encVR 0x23#7 d a.code b.code t.code q
  | .vxor d a b t q => encVR 0x24#7 d a.code b.code t.code q
  | .vandn d a b t q => encVR 0x25#7 d a.code b.code t.code q
  | .vshl d a b t q => encVR 0x26#7 d a.code b.code t.code q
  | .vshr d a b t q => encVR 0x27#7 d a.code b.code t.code q
  | .vsar d a b t q => encVR 0x28#7 d a.code b.code t.code q
  | .vcmp c kd a b t q => encVR 0x29#7 (c.code ++ kd) a.code b.code t.code q
  | .vsel d a b t q => encVR 0x2A#7 d a.code b.code t.code q
  | .vfsh d a b t q => encVR 0x2B#7 d a.code b.code t.code q
  | .vbext d a b t q => encVR 0x2C#7 d a.code b.code t.code q
  | .vperm d a b t q => encVR 0x2D#7 d (Src.v a).code b.code t.code q
  | .vcvt d a t ts p r => encVC 0x2E#7 d a.code t.code ts.code p r.code
  | .vabs d a t q => encVU 0x2F#7 d a.code t.code q 0#4 0#3
  | .vneg d a t q => encVU 0x2F#7 d a.code t.code q 0#4 1#3
  | .vnot d a t q => encVU 0x2F#7 d a.code t.code q 0#4 2#3
  | .vclz d a t q => encVU 0x2F#7 d a.code t.code q 0#4 3#3
  | .vpopc d a t q => encVU 0x2F#7 d a.code t.code q 0#4 4#3
  | .vmov d a t q => encVU 0x2F#7 d a.code t.code q 0#4 5#3
  | .vrcp d a t q l => encVU 0x2F#7 d a.code t.code q l 6#3
  | .vsqrt d a t q l => encVU 0x2F#7 d a.code t.code q l 7#3
  | .vrsq d a t q l => encVU 0x30#7 d a.code t.code q l 0#3
  | .vexp2 d a t q l => encVU 0x30#7 d a.code t.code q l 1#3
  | .vlog2 d a t q l => encVU 0x30#7 d a.code t.code q l 2#3
  | .vtanh d a t q l => encVU 0x30#7 d a.code t.code q l 3#3
  | .vsigm d a t q l => encVU 0x30#7 d a.code t.code q l 4#3
  | .vfloor d a t q => encVU 0x30#7 d a.code t.code q 0#4 5#3
  | .vceil d a t q => encVU 0x30#7 d a.code t.code q 0#4 6#3
  | .vrndi d a t q => encVU 0x30#7 d a.code t.code q 0#4 7#3
  | .vredSum d a t q l => encVU 0x31#7 d (Src.v a).code t.code q l 0#3
  | .vredMax d a t q l => encVU 0x31#7 d (Src.v a).code t.code q l 1#3
  | .vredMin d a t q l => encVU 0x31#7 d (Src.v a).code t.code q l 2#3
  | .vredAnd d a t q l => encVU 0x31#7 d (Src.v a).code t.code q l 3#3
  | .vredOr d a t q l => encVU 0x31#7 d (Src.v a).code t.code q l 4#3
  | .vredXor d a t q l => encVU 0x31#7 d (Src.v a).code t.code q l 5#3
  | .vredAmax d a t q l => encVU 0x31#7 d (Src.v a).code t.code q l 6#3
  | .vscanSadd d a t q l => encVU 0x32#7 d (Src.v a).code t.code q l 0#3
  | .vscanSmax d a t q l => encVU 0x32#7 d (Src.v a).code t.code q l 1#3
  | .vscanSmin d a t q l => encVU 0x32#7 d (Src.v a).code t.code q l 2#3
  | .vcompact d a t q => encVR 0x33#7 d (Src.v a).code 0#7 t.code q
  | .vexpand d a t q => encVR 0x34#7 d (Src.v a).code 0#7 t.code q
  | .vcell d a b q => encVR 0x35#7 d a.code b.code 12#4 q
  | .vmorton d a b t q => encVR 0x36#7 d a.code b.code t.code q
  | .vhashk d a b t q => encVR 0x37#7 d a.code b.code t.code q
  | .mand d a b => encX 0x38#7 (0#3 ++ d) (0#3 ++ a) (0#3 ++ b) 0#4 0#6
  | .mor d a b => encX 0x38#7 (0#3 ++ d) (0#3 ++ a) (0#3 ++ b) 0#4 1#6
  | .mxor d a b => encX 0x38#7 (0#3 ++ d) (0#3 ++ a) (0#3 ++ b) 0#4 2#6
  | .mandn d a b => encX 0x38#7 (0#3 ++ d) (0#3 ++ a) (0#3 ++ b) 0#4 3#6
  | .mnot d a => encX 0x38#7 (0#3 ++ d) (0#3 ++ a) 0#5 0#4 4#6
  | .mpopc d a => encX 0x38#7 d (0#3 ++ a) 0#5 0#4 5#6
  | .mfirst d a => encX 0x38#7 d (0#3 ++ a) 0#5 0#4 6#6
  | .mfromx d a b => encX 0x38#7 (0#3 ++ d) a b 0#4 7#6
  | .mtox d a h => encX 0x38#7 d (0#3 ++ a) (0#4 ++ (bit h)) 0#4 8#6
  | .vsmap d a l => encX 0x39#7 d a 0#5 l 0#6
  | .vsred d a l => encX 0x3A#7 d a 0#5 l 0#6
  | .vscvt d a l => encX 0x3B#7 d a 0#5 l 0#6
  | .vgrow d a => encX 0x3C#7 d a 0#5 0#4 0#6
  | .vshrink d a => encX 0x3C#7 d a 0#5 0#4 1#6
  | .vallotq d => encX 0x3C#7 d 0#5 0#5 0#4 2#6
  | .vext d a b => encX 0x3C#7 d a b 0#4 3#6
  | .vins d a b => encX 0x3C#7 d a b 0#4 4#6
  | .ldb d b l h o => encM 0x40#7 d b l h.code o
  | .ldh d b l h o => encM 0x41#7 d b l h.code o
  | .ldw d b l h o => encM 0x42#7 d b l h.code o
  | .ldd d b l h o => encM 0x43#7 d b l h.code o
  | .ldbn d b l h o => encM 0x44#7 d b l h.code o
  | .ldhn d b l h o => encM 0x45#7 d b l h.code o
  | .ldwn d b l h o => encM 0x46#7 d b l h.code o
  | .stb d b h o => encM 0x47#7 d b 0#4 h.code o
  | .sth d b h o => encM 0x48#7 d b 0#4 h.code o
  | .stw d b h o => encM 0x49#7 d b 0#4 h.code o
  | .std d b h o => encM 0x4A#7 d b 0#4 h.code o
  | .vld d b l h o => encM 0x4B#7 d b l h.code o
  | .vst d b h o => encM 0x4C#7 d b 0#4 h.code o
  | .vgath d b v l t q => encVG 0x4D#7 d b v l t.code q
  | .vscat d b v t q => encVG 0x4E#7 d b v 0#4 t.code q
  | .pref a => encX 0x4F#7 0#5 a 0#5 0#4 0#6
  | .clean a => encX 0x4F#7 0#5 a 0#5 0#4 1#6
  | .discard a => encX 0x4F#7 0#5 a 0#5 0#4 2#6
  | .invl1 a => encX 0x4F#7 0#5 a 0#5 0#4 3#6
  | .zline a => encX 0x4F#7 0#5 a 0#5 0#4 4#6
  | .tnew d a b l => encX 0x50#7 d a b l 0#6
  | .twiden d a b l => encX 0x50#7 d a b l 1#6
  | .tfree a => encX 0x50#7 0#5 a 0#5 0#4 2#6
  | .tinfo d a b l => encX 0x50#7 d a b l 3#6
  | .tview d a b l => encX 0x50#7 d a b l 4#6
  | .tlde d a b l => encX 0x50#7 d a b l 5#6
  | .tste d a b => encX 0x50#7 d a b 0#4 6#6
  | .twait a => encX 0x50#7 0#5 a 0#5 0#4 7#6
  | .fenceAcq a s => encX 0x54#7 0#5 a 0#5 0#4 (s.code ++ 0#3)
  | .fenceRel a s => encX 0x54#7 0#5 a 0#5 0#4 (s.code ++ 1#3)
  | .fenceAr a s => encX 0x54#7 0#5 a 0#5 0#4 (s.code ++ 2#3)
  | .fenceSc a s => encX 0x54#7 0#5 a 0#5 0#4 (s.code ++ 3#3)
  | .fenceWin a s => encX 0x54#7 0#5 a 0#5 0#4 (s.code ++ 4#3)
  | .fenceEng a s => encX 0x54#7 0#5 a 0#5 0#4 (s.code ++ 5#3)
  | .ldaq d a b l s z => encX 0x55#7 d a b l (s.code ++ 0#2 ++ z.code)
  | .strl d a b s z => encX 0x56#7 d a b 0#4 (s.code ++ 0#2 ++ z.code)
  | .inrecv d a => encX 0x57#7 d a 0#5 0#4 0#6
  | .inpeek d => encX 0x57#7 d 0#5 0#5 0#4 1#6
  | .incount d => encX 0x57#7 d 0#5 0#5 0#4 2#6
  | .uiarm a => encX 0x57#7 0#5 a 0#5 0#4 3#6
  | .uidis => encX 0x57#7 0#5 0#5 0#5 0#4 4#6
  | .uiret => encX 0x57#7 0#5 0#5 0#5 0#4 5#6
  | .amoadd d a b l z o => encX 0x58#7 d a b l (0#3 ++ z.code ++ o.code)
  | .amomin d a b l z o => encX 0x58#7 d a b l (1#3 ++ z.code ++ o.code)
  | .amomax d a b l z o => encX 0x58#7 d a b l (2#3 ++ z.code ++ o.code)
  | .amominn d a b l z o => encX 0x58#7 d a b l (3#3 ++ z.code ++ o.code)
  | .amomaxn d a b l z o => encX 0x58#7 d a b l (4#3 ++ z.code ++ o.code)
  | .amoand d a b l z o => encX 0x58#7 d a b l (5#3 ++ z.code ++ o.code)
  | .amoor d a b l z o => encX 0x58#7 d a b l (6#3 ++ z.code ++ o.code)
  | .amoxor d a b l z o => encX 0x58#7 d a b l (7#3 ++ z.code ++ o.code)
  | .amoswap d a b l z o => encX 0x59#7 d a b l (0#3 ++ z.code ++ o.code)
  | .amocas d a b l z o => encX 0x59#7 d a b l (1#3 ++ z.code ++ o.code)
  | .redaddi a b z => encX 0x5A#7 0#5 a b 0#4 (0#3 ++ z.code ++ 0#2)
  | .redaddf32 a b => encX 0x5A#7 0#5 a b 0#4 8#6
  | .redaddbf16 a b => encX 0x5A#7 0#5 a b 0#4 16#6
  | .redmin a b z => encX 0x5A#7 0#5 a b 0#4 (3#3 ++ z.code ++ 0#2)
  | .redmax a b z => encX 0x5A#7 0#5 a b 0#4 (4#3 ++ z.code ++ 0#2)
  | .redminn a b z => encX 0x5A#7 0#5 a b 0#4 (5#3 ++ z.code ++ 0#2)
  | .redmaxn a b z => encX 0x5A#7 0#5 a b 0#4 (6#3 ++ z.code ++ 0#2)
  | .redor a b z => encX 0x5A#7 0#5 a b 0#4 (7#3 ++ z.code ++ 0#2)
  | .fetake d a l => encX 0x5B#7 d a 0#5 l 0#6
  | .feput a b => encX 0x5B#7 0#5 a b 0#4 1#6
  | .feread d a l => encX 0x5B#7 d a 0#5 l 2#6
  | .fepeek d a l => encX 0x5B#7 d a 0#5 l 3#6
  | .feclr a => encX 0x5B#7 0#5 a 0#5 0#4 4#6
  | .barv a => encX 0x5C#7 0#5 a 0#5 0#4 0#6
  | .bwait d a => encX 0x5C#7 d a 0#5 0#4 1#6
  | .bsync d a => encX 0x5C#7 d a 0#5 0#4 2#6
  | .btest d a => encX 0x5C#7 d a 0#5 0#4 3#6
  | .bsetm a b => encX 0x5C#7 0#5 a b 0#4 4#6
  | .bquorum a b => encX 0x5C#7 0#5 a b 0#4 5#6
  | .brecord a b => encX 0x5C#7 0#5 a b 0#4 6#6
  | .tkspawn d a => encX 0x60#7 d a 0#5 0#4 0#6
  | .tknext d => encX 0x60#7 d 0#5 0#5 0#4 1#6
  | .tkend => encX 0x60#7 0#5 0#5 0#5 0#4 2#6
  | .tkyield => encX 0x60#7 0#5 0#5 0#5 0#4 3#6
  | .tkdep d a b => encX 0x60#7 d a b 0#4 4#6
  | .tkstat d a => encX 0x60#7 d a 0#5 0#4 5#6
  | .sexch => encX 0x61#7 0#5 0#5 0#5 0#4 0#6
  | .ssync => encX 0x61#7 0#5 0#5 0#5 0#4 1#6
  | .sdom a => encX 0x61#7 0#5 a 0#5 0#4 2#6
  | .qnew d a => encX 0x62#7 d a 0#5 0#4 0#6
  | .qcontrib a b => encX 0x62#7 0#5 a b 0#4 1#6
  | .qarrive d a => encX 0x62#7 d a 0#5 0#4 2#6
  | .kpoint => encX 0x62#7 0#5 0#5 0#5 0#4 3#6
  | .qstat d a => encX 0x62#7 d a 0#5 0#4 4#6
  | .qreset a => encX 0x62#7 0#5 a 0#5 0#4 5#6
  | .wqpop d a => encX 0x63#7 d a 0#5 0#4 0#6
  | .wqpush d a b => encX 0x63#7 d a b 0#4 1#6
  | .wqfill d a b => encX 0x63#7 d a b 0#4 2#6
  | .wqcount d a => encX 0x63#7 d a 0#5 0#4 3#6
  | .cpy a => encX 0x68#7 0#5 a 0#5 0#4 0#6
  | .cpyq a => encX 0x68#7 0#5 a 0#5 0#4 1#6
  | .cpyt a => encX 0x68#7 0#5 a 0#5 0#4 2#6
  | .cpyxr a => encX 0x68#7 0#5 a 0#5 0#4 3#6
  | .cpypd a => encX 0x68#7 0#5 a 0#5 0#4 4#6
  | .cpyst d a => encX 0x68#7 d a 0#5 0#4 5#6
  | .mqsend d a b => encX 0x69#7 d a b 0#4 0#6
  | .mqrecv d a b => encX 0x69#7 d a b 0#4 1#6
  | .mqpoll d a => encX 0x69#7 d a 0#5 0#4 2#6
  | .mqbind d a b => encX 0x69#7 d a b 0#4 3#6
  | .mcset a b => encX 0x6C#7 0#5 a b 0#4 0#6
  | .mcget d a => encX 0x6C#7 d a 0#5 0#4 1#6
  | .mcap d a => encX 0x6C#7 d a 0#5 0#4 2#6
  | .mrset a b => encX 0x6D#7 0#5 a b 0#4 0#6
  | .mradv d a b => encX 0x6D#7 d a b 0#4 1#6
  | .mrstat d a b => encX 0x6D#7 d a b 0#4 2#6
  | .mma c a b s f => encMX 0x6E#7 c a b 0#2 s 0#4 f
  | .mmab c a b s f => encMX 0x6F#7 c a b 0#2 s 0#4 f
  | .mpass c a b s f => encMX 0x70#7 c a b 0#2 s 0#4 f
  | .mdrain c a b u v w e => encX 0x71#7 (0#3 ++ c) a b 0#4 ((bit u) ++ (bit v) ++ (bit w) ++ e.code)
  | .mzero c a => encX 0x72#7 (0#3 ++ c) a 0#5 0#4 0#6
  | .mfence a => encX 0x72#7 0#5 a 0#5 0#4 1#6
  | .mstat c a b => encX 0x72#7 (0#3 ++ c) a b 0#4 2#6
  | .nmupd a => encX 0x73#7 0#5 a 0#5 0#4 0#6
  | .nmstat d a => encX 0x73#7 d a 0#5 0#4 1#6
  | .proj d a b u v e => encX 0x74#7 d a b 0#4 (0#1 ++ (bit u) ++ (bit v) ++ e.code)
  | .padj d a b e => encX 0x75#7 d a b 0#4 (0#3 ++ e.code)
  | .ecall d a b => encX 0x76#7 d a b 0#4 0#6
  | .eret => encX 0x76#7 0#5 0#5 0#5 0#4 1#6
  | .wfi => encX 0x76#7 0#5 0#5 0#5 0#4 2#6
  | .endT => encX 0x76#7 0#5 0#5 0#5 0#4 3#6
  | .spin a => encX 0x76#7 0#5 a 0#5 0#4 4#6
  | .csave d a => encX 0x77#7 d a 0#5 0#4 0#6
  | .crest d a => encX 0x77#7 d a 0#5 0#4 1#6
  | .ckpt d a => encX 0x77#7 d a 0#5 0#4 2#6
  | .rback d a => encX 0x77#7 d a 0#5 0#4 3#6
  | .tinval a b => encX 0x78#7 0#5 a b 0#4 0#6
  | .fattr a b => encX 0x78#7 0#5 a b 0#4 1#6
  | .ulmark d a => encX 0x7C#7 d a 0#5 0#4 0#6
  | .ulstat d a => encX 0x7C#7 d a 0#5 0#4 1#6
  | .uldrain d a => encX 0x7C#7 d a 0#5 0#4 2#6
  | .trec a b => encX 0x7D#7 0#5 a b 0#4 0#6
  | .perfr d a => encX 0x7D#7 d a 0#5 0#4 1#6
  | .perfc a => encX 0x7D#7 0#5 a 0#5 0#4 2#6
  | .brk a => encX 0x7E#7 0#5 a 0#5 0#4 0#6
  | .wset d a b => encX 0x7E#7 d a b 0#4 1#6
  | .wclr a => encX 0x7E#7 0#5 a 0#5 0#4 2#6
  | _ => 0

/-! ## The decoder: one function per major that has more than one instruction (R46, R47) -/

/-- Major 0x01: ADD, SUB, MUL, MULH, MULHN, DIV, DIVN, REM, REMN, AND, OR, XOR, ANDN, SHL, SHR, SAR, ROL, ROR, MIN, MAX, MINN, MAXN, CLZ, CTZ, POPC, SLT, SLTN, SEQ, BEXT, BINS, FSHL, FSHR. -/
def dec01 (w : IWord) : Option Instr :=
  match (fld w 0 6).toNat with
  | 0 => if fld w 6 4 == 0#4 then some (.add (fld w 20 5) (fld w 15 5) (fld w 10 5)) else none
  | 1 => if fld w 6 4 == 0#4 then some (.sub (fld w 20 5) (fld w 15 5) (fld w 10 5)) else none
  | 2 => if fld w 6 4 == 0#4 then some (.mul (fld w 20 5) (fld w 15 5) (fld w 10 5)) else none
  | 3 => if fld w 6 4 == 0#4 then some (.mulh (fld w 20 5) (fld w 15 5) (fld w 10 5)) else none
  | 4 => if fld w 6 4 == 0#4 then some (.mulhn (fld w 20 5) (fld w 15 5) (fld w 10 5)) else none
  | 5 => some (.div (fld w 20 5) (fld w 15 5) (fld w 10 5) (fld w 6 4))
  | 6 => some (.divn (fld w 20 5) (fld w 15 5) (fld w 10 5) (fld w 6 4))
  | 7 => some (.rem (fld w 20 5) (fld w 15 5) (fld w 10 5) (fld w 6 4))
  | 8 => some (.remn (fld w 20 5) (fld w 15 5) (fld w 10 5) (fld w 6 4))
  | 9 => if fld w 6 4 == 0#4 then some (.and (fld w 20 5) (fld w 15 5) (fld w 10 5)) else none
  | 10 => if fld w 6 4 == 0#4 then some (.or (fld w 20 5) (fld w 15 5) (fld w 10 5)) else none
  | 11 => if fld w 6 4 == 0#4 then some (.xor (fld w 20 5) (fld w 15 5) (fld w 10 5)) else none
  | 12 => if fld w 6 4 == 0#4 then some (.andn (fld w 20 5) (fld w 15 5) (fld w 10 5)) else none
  | 13 => if fld w 6 4 == 0#4 then some (.shl (fld w 20 5) (fld w 15 5) (fld w 10 5)) else none
  | 14 => if fld w 6 4 == 0#4 then some (.shr (fld w 20 5) (fld w 15 5) (fld w 10 5)) else none
  | 15 => if fld w 6 4 == 0#4 then some (.sar (fld w 20 5) (fld w 15 5) (fld w 10 5)) else none
  | 16 => if fld w 6 4 == 0#4 then some (.rol (fld w 20 5) (fld w 15 5) (fld w 10 5)) else none
  | 17 => if fld w 6 4 == 0#4 then some (.ror (fld w 20 5) (fld w 15 5) (fld w 10 5)) else none
  | 18 => if fld w 6 4 == 0#4 then some (.min (fld w 20 5) (fld w 15 5) (fld w 10 5)) else none
  | 19 => if fld w 6 4 == 0#4 then some (.max (fld w 20 5) (fld w 15 5) (fld w 10 5)) else none
  | 20 => if fld w 6 4 == 0#4 then some (.minn (fld w 20 5) (fld w 15 5) (fld w 10 5)) else none
  | 21 => if fld w 6 4 == 0#4 then some (.maxn (fld w 20 5) (fld w 15 5) (fld w 10 5)) else none
  | 22 => if fld w 6 9 == 0#9 then some (.clz (fld w 20 5) (fld w 15 5)) else none
  | 23 => if fld w 6 9 == 0#9 then some (.ctz (fld w 20 5) (fld w 15 5)) else none
  | 24 => if fld w 6 9 == 0#9 then some (.popc (fld w 20 5) (fld w 15 5)) else none
  | 25 => if fld w 6 4 == 0#4 then some (.slt (fld w 20 5) (fld w 15 5) (fld w 10 5)) else none
  | 26 => if fld w 6 4 == 0#4 then some (.sltn (fld w 20 5) (fld w 15 5) (fld w 10 5)) else none
  | 27 => if fld w 6 4 == 0#4 then some (.seq (fld w 20 5) (fld w 15 5) (fld w 10 5)) else none
  | 28 => if fld w 6 4 == 0#4 then some (.bext (fld w 20 5) (fld w 15 5) (fld w 10 5)) else none
  | 29 => if fld w 6 4 == 0#4 then some (.bins (fld w 20 5) (fld w 15 5) (fld w 10 5)) else none
  | 30 => if fld w 6 4 == 0#4 then some (.fshl (fld w 20 5) (fld w 15 5) (fld w 10 5)) else none
  | 31 => if fld w 6 4 == 0#4 then some (.fshr (fld w 20 5) (fld w 15 5) (fld w 10 5)) else none
  | _ => none

/-- Major 0x07: SHLI, SHRI, SARI, RORI. -/
def dec07 (w : IWord) : Option Instr :=
  match (fld w 13 2).toNat with
  | 0 => if fld w 8 5 == 0#5 then some (.shli (fld w 20 5) (fld w 15 5) (fld w 0 8)) else none
  | 1 => if fld w 8 5 == 0#5 then some (.shri (fld w 20 5) (fld w 15 5) (fld w 0 8)) else none
  | 2 => if fld w 8 5 == 0#5 then some (.sari (fld w 20 5) (fld w 15 5) (fld w 0 8)) else none
  | 3 => if fld w 8 5 == 0#5 then some (.rori (fld w 20 5) (fld w 15 5) (fld w 0 8)) else none
  | _ => none

/-- Major 0x0B: BEQ, BNE, BLT, BGE, BLTN, BGEN. -/
def dec0B (w : IWord) : Option Instr :=
  match (fld w 12 3).toNat with
  | 0 => some (.beq (fld w 20 5) (fld w 15 5) (fld w 0 12))
  | 1 => some (.bne (fld w 20 5) (fld w 15 5) (fld w 0 12))
  | 2 => some (.blt (fld w 20 5) (fld w 15 5) (fld w 0 12))
  | 3 => some (.bge (fld w 20 5) (fld w 15 5) (fld w 0 12))
  | 4 => some (.bltn (fld w 20 5) (fld w 15 5) (fld w 0 12))
  | 5 => some (.bgen (fld w 20 5) (fld w 15 5) (fld w 0 12))
  | _ => none

/-- Major 0x0D: JR, JRF. -/
def dec0D (w : IWord) : Option Instr :=
  match (fld w 0 6).toNat with
  | 0 => if fld w 6 9 == 0#9 then some (.jr (fld w 20 5) (fld w 15 5)) else none
  | 1 => if fld w 6 9 == 0#9 then some (.jrf (fld w 20 5) (fld w 15 5)) else none
  | _ => none

/-- Major 0x10: CFETCH, CFSTAT. -/
def dec10 (w : IWord) : Option Instr :=
  match (fld w 0 6).toNat with
  | 0 => if fld w 20 5 == 0#5 && fld w 6 4 == 0#4 then some (.cfetch (fld w 15 5) (fld w 10 5)) else none
  | 1 => if fld w 6 9 == 0#9 then some (.cfstat (fld w 20 5) (fld w 15 5)) else none
  | _ => none

/-- Major 0x11: CSRR, CSRW, CSRS, CSRC, CSRX. -/
def dec11 (w : IWord) : Option Instr :=
  match (fld w 0 3).toNat with
  | 0 => if fld w 15 5 == 0#5 then some (.csrr (fld w 20 5) (fld w 3 12)) else none
  | 1 => some (.csrw (fld w 20 5) (fld w 15 5) (fld w 3 12))
  | 2 => some (.csrs (fld w 20 5) (fld w 15 5) (fld w 3 12))
  | 3 => some (.csrc (fld w 20 5) (fld w 15 5) (fld w 3 12))
  | 4 => some (.csrx (fld w 20 5) (fld w 15 5) (fld w 3 12))
  | _ => none

/-- Major 0x2F: VABS, VNEG, VNOT, VCLZ, VPOPC, VMOV, VRCP, VSQRT. -/
def dec2F (w : IWord) : Option Instr :=
  match (fld w 0 3).toNat with
  | 0 => if fld w 3 4 == 0#4 then (Ty.ofCode (fld w 9 4)).bind fun t => some (.vabs (fld w 20 5) (Src.ofCode (fld w 13 7)) t (fld w 7 2)) else none
  | 1 => if fld w 3 4 == 0#4 then (Ty.ofCode (fld w 9 4)).bind fun t => some (.vneg (fld w 20 5) (Src.ofCode (fld w 13 7)) t (fld w 7 2)) else none
  | 2 => if fld w 3 4 == 0#4 then (Ty.ofCode (fld w 9 4)).bind fun t => some (.vnot (fld w 20 5) (Src.ofCode (fld w 13 7)) t (fld w 7 2)) else none
  | 3 => if fld w 3 4 == 0#4 then (Ty.ofCode (fld w 9 4)).bind fun t => some (.vclz (fld w 20 5) (Src.ofCode (fld w 13 7)) t (fld w 7 2)) else none
  | 4 => if fld w 3 4 == 0#4 then (Ty.ofCode (fld w 9 4)).bind fun t => some (.vpopc (fld w 20 5) (Src.ofCode (fld w 13 7)) t (fld w 7 2)) else none
  | 5 => if fld w 3 4 == 0#4 then (Ty.ofCode (fld w 9 4)).bind fun t => some (.vmov (fld w 20 5) (Src.ofCode (fld w 13 7)) t (fld w 7 2)) else none
  | 6 => (Ty.ofCode (fld w 9 4)).bind fun t => some (.vrcp (fld w 20 5) (Src.ofCode (fld w 13 7)) t (fld w 7 2) (fld w 3 4))
  | 7 => (Ty.ofCode (fld w 9 4)).bind fun t => some (.vsqrt (fld w 20 5) (Src.ofCode (fld w 13 7)) t (fld w 7 2) (fld w 3 4))
  | _ => none

/-- Major 0x30: VRSQ, VEXP2, VLOG2, VTANH, VSIGM, VFLOOR, VCEIL, VRNDI. -/
def dec30 (w : IWord) : Option Instr :=
  match (fld w 0 3).toNat with
  | 0 => (Ty.ofCode (fld w 9 4)).bind fun t => some (.vrsq (fld w 20 5) (Src.ofCode (fld w 13 7)) t (fld w 7 2) (fld w 3 4))
  | 1 => (Ty.ofCode (fld w 9 4)).bind fun t => some (.vexp2 (fld w 20 5) (Src.ofCode (fld w 13 7)) t (fld w 7 2) (fld w 3 4))
  | 2 => (Ty.ofCode (fld w 9 4)).bind fun t => some (.vlog2 (fld w 20 5) (Src.ofCode (fld w 13 7)) t (fld w 7 2) (fld w 3 4))
  | 3 => (Ty.ofCode (fld w 9 4)).bind fun t => some (.vtanh (fld w 20 5) (Src.ofCode (fld w 13 7)) t (fld w 7 2) (fld w 3 4))
  | 4 => (Ty.ofCode (fld w 9 4)).bind fun t => some (.vsigm (fld w 20 5) (Src.ofCode (fld w 13 7)) t (fld w 7 2) (fld w 3 4))
  | 5 => if fld w 3 4 == 0#4 then (Ty.ofCode (fld w 9 4)).bind fun t => some (.vfloor (fld w 20 5) (Src.ofCode (fld w 13 7)) t (fld w 7 2)) else none
  | 6 => if fld w 3 4 == 0#4 then (Ty.ofCode (fld w 9 4)).bind fun t => some (.vceil (fld w 20 5) (Src.ofCode (fld w 13 7)) t (fld w 7 2)) else none
  | 7 => if fld w 3 4 == 0#4 then (Ty.ofCode (fld w 9 4)).bind fun t => some (.vrndi (fld w 20 5) (Src.ofCode (fld w 13 7)) t (fld w 7 2)) else none
  | _ => none

/-- Major 0x31: VRED_SUM, VRED_MAX, VRED_MIN, VRED_AND, VRED_OR, VRED_XOR, VRED_AMAX. -/
def dec31 (w : IWord) : Option Instr :=
  match (fld w 0 3).toNat with
  | 0 => if fld w 18 2 == 0#2 then (Ty.ofCode (fld w 9 4)).bind fun t => some (.vredSum (fld w 20 5) (fld w 13 5) t (fld w 7 2) (fld w 3 4)) else none
  | 1 => if fld w 18 2 == 0#2 then (Ty.ofCode (fld w 9 4)).bind fun t => some (.vredMax (fld w 20 5) (fld w 13 5) t (fld w 7 2) (fld w 3 4)) else none
  | 2 => if fld w 18 2 == 0#2 then (Ty.ofCode (fld w 9 4)).bind fun t => some (.vredMin (fld w 20 5) (fld w 13 5) t (fld w 7 2) (fld w 3 4)) else none
  | 3 => if fld w 18 2 == 0#2 then (Ty.ofCode (fld w 9 4)).bind fun t => some (.vredAnd (fld w 20 5) (fld w 13 5) t (fld w 7 2) (fld w 3 4)) else none
  | 4 => if fld w 18 2 == 0#2 then (Ty.ofCode (fld w 9 4)).bind fun t => some (.vredOr (fld w 20 5) (fld w 13 5) t (fld w 7 2) (fld w 3 4)) else none
  | 5 => if fld w 18 2 == 0#2 then (Ty.ofCode (fld w 9 4)).bind fun t => some (.vredXor (fld w 20 5) (fld w 13 5) t (fld w 7 2) (fld w 3 4)) else none
  | 6 => if fld w 18 2 == 0#2 then (Ty.ofCode (fld w 9 4)).bind fun t => some (.vredAmax (fld w 20 5) (fld w 13 5) t (fld w 7 2) (fld w 3 4)) else none
  | _ => none

/-- Major 0x32: VSCAN_SADD, VSCAN_SMAX, VSCAN_SMIN. -/
def dec32 (w : IWord) : Option Instr :=
  match (fld w 0 3).toNat with
  | 0 => if fld w 18 2 == 0#2 then (Ty.ofCode (fld w 9 4)).bind fun t => some (.vscanSadd (fld w 20 5) (fld w 13 5) t (fld w 7 2) (fld w 3 4)) else none
  | 1 => if fld w 18 2 == 0#2 then (Ty.ofCode (fld w 9 4)).bind fun t => some (.vscanSmax (fld w 20 5) (fld w 13 5) t (fld w 7 2) (fld w 3 4)) else none
  | 2 => if fld w 18 2 == 0#2 then (Ty.ofCode (fld w 9 4)).bind fun t => some (.vscanSmin (fld w 20 5) (fld w 13 5) t (fld w 7 2) (fld w 3 4)) else none
  | _ => none

/-- Major 0x38: MAND, MOR, MXOR, MANDN, MNOT, MPOPC, MFIRST, MFROMX, MTOX. -/
def dec38 (w : IWord) : Option Instr :=
  match (fld w 0 6).toNat with
  | 0 => if fld w 22 3 == 0#3 && fld w 17 3 == 0#3 && fld w 12 3 == 0#3 && fld w 6 4 == 0#4 then some (.mand (fld w 20 2) (fld w 15 2) (fld w 10 2)) else none
  | 1 => if fld w 22 3 == 0#3 && fld w 17 3 == 0#3 && fld w 12 3 == 0#3 && fld w 6 4 == 0#4 then some (.mor (fld w 20 2) (fld w 15 2) (fld w 10 2)) else none
  | 2 => if fld w 22 3 == 0#3 && fld w 17 3 == 0#3 && fld w 12 3 == 0#3 && fld w 6 4 == 0#4 then some (.mxor (fld w 20 2) (fld w 15 2) (fld w 10 2)) else none
  | 3 => if fld w 22 3 == 0#3 && fld w 17 3 == 0#3 && fld w 12 3 == 0#3 && fld w 6 4 == 0#4 then some (.mandn (fld w 20 2) (fld w 15 2) (fld w 10 2)) else none
  | 4 => if fld w 22 3 == 0#3 && fld w 17 3 == 0#3 && fld w 6 9 == 0#9 then some (.mnot (fld w 20 2) (fld w 15 2)) else none
  | 5 => if fld w 17 3 == 0#3 && fld w 6 9 == 0#9 then some (.mpopc (fld w 20 5) (fld w 15 2)) else none
  | 6 => if fld w 17 3 == 0#3 && fld w 6 9 == 0#9 then some (.mfirst (fld w 20 5) (fld w 15 2)) else none
  | 7 => if fld w 22 3 == 0#3 && fld w 6 4 == 0#4 then some (.mfromx (fld w 20 2) (fld w 15 5) (fld w 10 5)) else none
  | 8 => if fld w 17 3 == 0#3 && fld w 11 4 == 0#4 && fld w 6 4 == 0#4 then some (.mtox (fld w 20 5) (fld w 15 2) (fld w 10 1 == 1#1)) else none
  | _ => none

/-- Major 0x3C: VGROW, VSHRINK, VALLOTQ, VEXT, VINS. -/
def dec3C (w : IWord) : Option Instr :=
  match (fld w 0 6).toNat with
  | 0 => if fld w 6 9 == 0#9 then some (.vgrow (fld w 20 5) (fld w 15 5)) else none
  | 1 => if fld w 6 9 == 0#9 then some (.vshrink (fld w 20 5) (fld w 15 5)) else none
  | 2 => if fld w 6 14 == 0#14 then some (.vallotq (fld w 20 5)) else none
  | 3 => if fld w 6 4 == 0#4 then some (.vext (fld w 20 5) (fld w 15 5) (fld w 10 5)) else none
  | 4 => if fld w 6 4 == 0#4 then some (.vins (fld w 20 5) (fld w 15 5) (fld w 10 5)) else none
  | _ => none

/-- Major 0x4F: PREF, CLEAN, DISCARD, INVL1, ZLINE. -/
def dec4F (w : IWord) : Option Instr :=
  match (fld w 0 6).toNat with
  | 0 => if fld w 20 5 == 0#5 && fld w 6 9 == 0#9 then some (.pref (fld w 15 5)) else none
  | 1 => if fld w 20 5 == 0#5 && fld w 6 9 == 0#9 then some (.clean (fld w 15 5)) else none
  | 2 => if fld w 20 5 == 0#5 && fld w 6 9 == 0#9 then some (.discard (fld w 15 5)) else none
  | 3 => if fld w 20 5 == 0#5 && fld w 6 9 == 0#9 then some (.invl1 (fld w 15 5)) else none
  | 4 => if fld w 20 5 == 0#5 && fld w 6 9 == 0#9 then some (.zline (fld w 15 5)) else none
  | _ => none

/-- Major 0x50: TNEW, TWIDEN, TFREE, TINFO, TVIEW, TLDE, TSTE, TWAIT. -/
def dec50 (w : IWord) : Option Instr :=
  match (fld w 0 6).toNat with
  | 0 => some (.tnew (fld w 20 5) (fld w 15 5) (fld w 10 5) (fld w 6 4))
  | 1 => some (.twiden (fld w 20 5) (fld w 15 5) (fld w 10 5) (fld w 6 4))
  | 2 => if fld w 20 5 == 0#5 && fld w 6 9 == 0#9 then some (.tfree (fld w 15 5)) else none
  | 3 => some (.tinfo (fld w 20 5) (fld w 15 5) (fld w 10 5) (fld w 6 4))
  | 4 => some (.tview (fld w 20 5) (fld w 15 5) (fld w 10 5) (fld w 6 4))
  | 5 => some (.tlde (fld w 20 5) (fld w 15 5) (fld w 10 5) (fld w 6 4))
  | 6 => if fld w 6 4 == 0#4 then some (.tste (fld w 20 5) (fld w 15 5) (fld w 10 5)) else none
  | 7 => if fld w 20 5 == 0#5 && fld w 6 9 == 0#9 then some (.twait (fld w 15 5)) else none
  | _ => none

/-- Major 0x54: FENCE_ACQ, FENCE_REL, FENCE_AR, FENCE_SC, FENCE_WIN, FENCE_ENG. -/
def dec54 (w : IWord) : Option Instr :=
  match (fld w 0 3).toNat with
  | 0 => if fld w 20 5 == 0#5 && fld w 6 9 == 0#9 then (Scope.ofCode (fld w 3 3)).bind fun s => some (.fenceAcq (fld w 15 5) s) else none
  | 1 => if fld w 20 5 == 0#5 && fld w 6 9 == 0#9 then (Scope.ofCode (fld w 3 3)).bind fun s => some (.fenceRel (fld w 15 5) s) else none
  | 2 => if fld w 20 5 == 0#5 && fld w 6 9 == 0#9 then (Scope.ofCode (fld w 3 3)).bind fun s => some (.fenceAr (fld w 15 5) s) else none
  | 3 => if fld w 20 5 == 0#5 && fld w 6 9 == 0#9 then (Scope.ofCode (fld w 3 3)).bind fun s => some (.fenceSc (fld w 15 5) s) else none
  | 4 => if fld w 20 5 == 0#5 && fld w 6 9 == 0#9 then (Scope.ofCode (fld w 3 3)).bind fun s => some (.fenceWin (fld w 15 5) s) else none
  | 5 => if fld w 20 5 == 0#5 && fld w 6 9 == 0#9 then (Scope.ofCode (fld w 3 3)).bind fun s => some (.fenceEng (fld w 15 5) s) else none
  | _ => none

/-- Major 0x57: INRECV, INPEEK, INCOUNT, UIARM, UIDIS, UIRET. -/
def dec57 (w : IWord) : Option Instr :=
  match (fld w 0 6).toNat with
  | 0 => if fld w 6 9 == 0#9 then some (.inrecv (fld w 20 5) (fld w 15 5)) else none
  | 1 => if fld w 6 14 == 0#14 then some (.inpeek (fld w 20 5)) else none
  | 2 => if fld w 6 14 == 0#14 then some (.incount (fld w 20 5)) else none
  | 3 => if fld w 20 5 == 0#5 && fld w 6 9 == 0#9 then some (.uiarm (fld w 15 5)) else none
  | 4 => if fld w 6 19 == 0#19 then some (.uidis) else none
  | 5 => if fld w 6 19 == 0#19 then some (.uiret) else none
  | _ => none

/-- Major 0x58: AMOADD, AMOMIN, AMOMAX, AMOMINN, AMOMAXN, AMOAND, AMOOR, AMOXOR. -/
def dec58 (w : IWord) : Option Instr :=
  match (fld w 3 3).toNat with
  | 0 => some (.amoadd (fld w 20 5) (fld w 15 5) (fld w 10 5) (fld w 6 4) (Size.ofCode (fld w 2 1)) (AOrder.ofCode (fld w 0 2)))
  | 1 => some (.amomin (fld w 20 5) (fld w 15 5) (fld w 10 5) (fld w 6 4) (Size.ofCode (fld w 2 1)) (AOrder.ofCode (fld w 0 2)))
  | 2 => some (.amomax (fld w 20 5) (fld w 15 5) (fld w 10 5) (fld w 6 4) (Size.ofCode (fld w 2 1)) (AOrder.ofCode (fld w 0 2)))
  | 3 => some (.amominn (fld w 20 5) (fld w 15 5) (fld w 10 5) (fld w 6 4) (Size.ofCode (fld w 2 1)) (AOrder.ofCode (fld w 0 2)))
  | 4 => some (.amomaxn (fld w 20 5) (fld w 15 5) (fld w 10 5) (fld w 6 4) (Size.ofCode (fld w 2 1)) (AOrder.ofCode (fld w 0 2)))
  | 5 => some (.amoand (fld w 20 5) (fld w 15 5) (fld w 10 5) (fld w 6 4) (Size.ofCode (fld w 2 1)) (AOrder.ofCode (fld w 0 2)))
  | 6 => some (.amoor (fld w 20 5) (fld w 15 5) (fld w 10 5) (fld w 6 4) (Size.ofCode (fld w 2 1)) (AOrder.ofCode (fld w 0 2)))
  | 7 => some (.amoxor (fld w 20 5) (fld w 15 5) (fld w 10 5) (fld w 6 4) (Size.ofCode (fld w 2 1)) (AOrder.ofCode (fld w 0 2)))
  | _ => none

/-- Major 0x59: AMOSWAP, AMOCAS. -/
def dec59 (w : IWord) : Option Instr :=
  match (fld w 3 3).toNat with
  | 0 => some (.amoswap (fld w 20 5) (fld w 15 5) (fld w 10 5) (fld w 6 4) (Size.ofCode (fld w 2 1)) (AOrder.ofCode (fld w 0 2)))
  | 1 => some (.amocas (fld w 20 5) (fld w 15 5) (fld w 10 5) (fld w 6 4) (Size.ofCode (fld w 2 1)) (AOrder.ofCode (fld w 0 2)))
  | _ => none

/-- Major 0x5A: REDADDI, REDADDF32, REDADDBF16, REDMIN, REDMAX, REDMINN, REDMAXN, REDOR. -/
def dec5A (w : IWord) : Option Instr :=
  match (fld w 3 3).toNat with
  | 0 => if fld w 20 5 == 0#5 && fld w 6 4 == 0#4 && fld w 0 2 == 0#2 then some (.redaddi (fld w 15 5) (fld w 10 5) (Size.ofCode (fld w 2 1))) else none
  | 1 => if fld w 20 5 == 0#5 && fld w 6 4 == 0#4 && fld w 0 3 == 0#3 then some (.redaddf32 (fld w 15 5) (fld w 10 5)) else none
  | 2 => if fld w 20 5 == 0#5 && fld w 6 4 == 0#4 && fld w 0 3 == 0#3 then some (.redaddbf16 (fld w 15 5) (fld w 10 5)) else none
  | 3 => if fld w 20 5 == 0#5 && fld w 6 4 == 0#4 && fld w 0 2 == 0#2 then some (.redmin (fld w 15 5) (fld w 10 5) (Size.ofCode (fld w 2 1))) else none
  | 4 => if fld w 20 5 == 0#5 && fld w 6 4 == 0#4 && fld w 0 2 == 0#2 then some (.redmax (fld w 15 5) (fld w 10 5) (Size.ofCode (fld w 2 1))) else none
  | 5 => if fld w 20 5 == 0#5 && fld w 6 4 == 0#4 && fld w 0 2 == 0#2 then some (.redminn (fld w 15 5) (fld w 10 5) (Size.ofCode (fld w 2 1))) else none
  | 6 => if fld w 20 5 == 0#5 && fld w 6 4 == 0#4 && fld w 0 2 == 0#2 then some (.redmaxn (fld w 15 5) (fld w 10 5) (Size.ofCode (fld w 2 1))) else none
  | 7 => if fld w 20 5 == 0#5 && fld w 6 4 == 0#4 && fld w 0 2 == 0#2 then some (.redor (fld w 15 5) (fld w 10 5) (Size.ofCode (fld w 2 1))) else none
  | _ => none

/-- Major 0x5B: FETAKE, FEPUT, FEREAD, FEPEEK, FECLR. -/
def dec5B (w : IWord) : Option Instr :=
  match (fld w 0 6).toNat with
  | 0 => if fld w 10 5 == 0#5 then some (.fetake (fld w 20 5) (fld w 15 5) (fld w 6 4)) else none
  | 1 => if fld w 20 5 == 0#5 && fld w 6 4 == 0#4 then some (.feput (fld w 15 5) (fld w 10 5)) else none
  | 2 => if fld w 10 5 == 0#5 then some (.feread (fld w 20 5) (fld w 15 5) (fld w 6 4)) else none
  | 3 => if fld w 10 5 == 0#5 then some (.fepeek (fld w 20 5) (fld w 15 5) (fld w 6 4)) else none
  | 4 => if fld w 20 5 == 0#5 && fld w 6 9 == 0#9 then some (.feclr (fld w 15 5)) else none
  | _ => none

/-- Major 0x5C: BARV, BWAIT, BSYNC, BTEST, BSETM, BQUORUM, BRECORD. -/
def dec5C (w : IWord) : Option Instr :=
  match (fld w 0 6).toNat with
  | 0 => if fld w 20 5 == 0#5 && fld w 6 9 == 0#9 then some (.barv (fld w 15 5)) else none
  | 1 => if fld w 6 9 == 0#9 then some (.bwait (fld w 20 5) (fld w 15 5)) else none
  | 2 => if fld w 6 9 == 0#9 then some (.bsync (fld w 20 5) (fld w 15 5)) else none
  | 3 => if fld w 6 9 == 0#9 then some (.btest (fld w 20 5) (fld w 15 5)) else none
  | 4 => if fld w 20 5 == 0#5 && fld w 6 4 == 0#4 then some (.bsetm (fld w 15 5) (fld w 10 5)) else none
  | 5 => if fld w 20 5 == 0#5 && fld w 6 4 == 0#4 then some (.bquorum (fld w 15 5) (fld w 10 5)) else none
  | 6 => if fld w 20 5 == 0#5 && fld w 6 4 == 0#4 then some (.brecord (fld w 15 5) (fld w 10 5)) else none
  | _ => none

/-- Major 0x60: TKSPAWN, TKNEXT, TKEND, TKYIELD, TKDEP, TKSTAT. -/
def dec60 (w : IWord) : Option Instr :=
  match (fld w 0 6).toNat with
  | 0 => if fld w 6 9 == 0#9 then some (.tkspawn (fld w 20 5) (fld w 15 5)) else none
  | 1 => if fld w 6 14 == 0#14 then some (.tknext (fld w 20 5)) else none
  | 2 => if fld w 6 19 == 0#19 then some (.tkend) else none
  | 3 => if fld w 6 19 == 0#19 then some (.tkyield) else none
  | 4 => if fld w 6 4 == 0#4 then some (.tkdep (fld w 20 5) (fld w 15 5) (fld w 10 5)) else none
  | 5 => if fld w 6 9 == 0#9 then some (.tkstat (fld w 20 5) (fld w 15 5)) else none
  | _ => none

/-- Major 0x61: SEXCH, SSYNC, SDOM. -/
def dec61 (w : IWord) : Option Instr :=
  match (fld w 0 6).toNat with
  | 0 => if fld w 6 19 == 0#19 then some (.sexch) else none
  | 1 => if fld w 6 19 == 0#19 then some (.ssync) else none
  | 2 => if fld w 20 5 == 0#5 && fld w 6 9 == 0#9 then some (.sdom (fld w 15 5)) else none
  | _ => none

/-- Major 0x62: QNEW, QCONTRIB, QARRIVE, KPOINT, QSTAT, QRESET. -/
def dec62 (w : IWord) : Option Instr :=
  match (fld w 0 6).toNat with
  | 0 => if fld w 6 9 == 0#9 then some (.qnew (fld w 20 5) (fld w 15 5)) else none
  | 1 => if fld w 20 5 == 0#5 && fld w 6 4 == 0#4 then some (.qcontrib (fld w 15 5) (fld w 10 5)) else none
  | 2 => if fld w 6 9 == 0#9 then some (.qarrive (fld w 20 5) (fld w 15 5)) else none
  | 3 => if fld w 6 19 == 0#19 then some (.kpoint) else none
  | 4 => if fld w 6 9 == 0#9 then some (.qstat (fld w 20 5) (fld w 15 5)) else none
  | 5 => if fld w 20 5 == 0#5 && fld w 6 9 == 0#9 then some (.qreset (fld w 15 5)) else none
  | _ => none

/-- Major 0x63: WQPOP, WQPUSH, WQFILL, WQCOUNT. -/
def dec63 (w : IWord) : Option Instr :=
  match (fld w 0 6).toNat with
  | 0 => if fld w 6 9 == 0#9 then some (.wqpop (fld w 20 5) (fld w 15 5)) else none
  | 1 => if fld w 6 4 == 0#4 then some (.wqpush (fld w 20 5) (fld w 15 5) (fld w 10 5)) else none
  | 2 => if fld w 6 4 == 0#4 then some (.wqfill (fld w 20 5) (fld w 15 5) (fld w 10 5)) else none
  | 3 => if fld w 6 9 == 0#9 then some (.wqcount (fld w 20 5) (fld w 15 5)) else none
  | _ => none

/-- Major 0x68: CPY, CPYQ, CPYT, CPYXR, CPYPD, CPYST. -/
noncomputable def dec68 (w : IWord) : Option Instr :=
  match (fld w 0 6).toNat with
  | 0 => if fld w 20 5 == 0#5 && fld w 6 9 == 0#9 then some (.cpy (fld w 15 5)) else none
  | 1 => if fld w 20 5 == 0#5 && fld w 6 9 == 0#9 then some (.cpyq (fld w 15 5)) else none
  | 2 => if fld w 20 5 == 0#5 && fld w 6 9 == 0#9 then some (.cpyt (fld w 15 5)) else none
  | 3 => if fld w 20 5 == 0#5 && fld w 6 9 == 0#9 then some (.cpyxr (fld w 15 5)) else none
  | 4 => if fld w 20 5 == 0#5 && fld w 6 9 == 0#9 then some (.cpypd (fld w 15 5)) else none
  | 5 => if fld w 6 9 == 0#9 then some (.cpyst (fld w 20 5) (fld w 15 5)) else none
  | _ => none

/-- Major 0x69: MQSEND, MQRECV, MQPOLL, MQBIND. -/
noncomputable def dec69 (w : IWord) : Option Instr :=
  match (fld w 0 6).toNat with
  | 0 => if fld w 6 4 == 0#4 then some (.mqsend (fld w 20 5) (fld w 15 5) (fld w 10 5)) else none
  | 1 => if fld w 6 4 == 0#4 then some (.mqrecv (fld w 20 5) (fld w 15 5) (fld w 10 5)) else none
  | 2 => if fld w 6 9 == 0#9 then some (.mqpoll (fld w 20 5) (fld w 15 5)) else none
  | 3 => if fld w 6 4 == 0#4 then some (.mqbind (fld w 20 5) (fld w 15 5) (fld w 10 5)) else none
  | _ => none

/-- Major 0x6C: MCSET, MCGET, MCAP. -/
noncomputable def dec6C (w : IWord) : Option Instr :=
  match (fld w 0 6).toNat with
  | 0 => if fld w 20 5 == 0#5 && fld w 6 4 == 0#4 then some (.mcset (fld w 15 5) (fld w 10 5)) else none
  | 1 => if fld w 6 9 == 0#9 then some (.mcget (fld w 20 5) (fld w 15 5)) else none
  | 2 => if fld w 6 9 == 0#9 then some (.mcap (fld w 20 5) (fld w 15 5)) else none
  | _ => none

/-- Major 0x6D: MRSET, MRADV, MRSTAT. -/
noncomputable def dec6D (w : IWord) : Option Instr :=
  match (fld w 0 6).toNat with
  | 0 => if fld w 20 5 == 0#5 && fld w 6 4 == 0#4 then some (.mrset (fld w 15 5) (fld w 10 5)) else none
  | 1 => if fld w 6 4 == 0#4 then some (.mradv (fld w 20 5) (fld w 15 5) (fld w 10 5)) else none
  | 2 => if fld w 6 4 == 0#4 then some (.mrstat (fld w 20 5) (fld w 15 5) (fld w 10 5)) else none
  | _ => none

/-- Major 0x72: MZERO, MFENCE, MSTAT. -/
noncomputable def dec72 (w : IWord) : Option Instr :=
  match (fld w 0 6).toNat with
  | 0 => if fld w 22 3 == 0#3 && fld w 6 9 == 0#9 then some (.mzero (fld w 20 2) (fld w 15 5)) else none
  | 1 => if fld w 20 5 == 0#5 && fld w 6 9 == 0#9 then some (.mfence (fld w 15 5)) else none
  | 2 => if fld w 22 3 == 0#3 && fld w 6 4 == 0#4 then some (.mstat (fld w 20 2) (fld w 15 5) (fld w 10 5)) else none
  | _ => none

/-- Major 0x73: NMUPD, NMSTAT. -/
noncomputable def dec73 (w : IWord) : Option Instr :=
  match (fld w 0 6).toNat with
  | 0 => if fld w 20 5 == 0#5 && fld w 6 9 == 0#9 then some (.nmupd (fld w 15 5)) else none
  | 1 => if fld w 6 9 == 0#9 then some (.nmstat (fld w 20 5) (fld w 15 5)) else none
  | _ => none

/-- Major 0x76: ECALL, ERET, WFI, END, SPIN. -/
noncomputable def dec76 (w : IWord) : Option Instr :=
  match (fld w 0 6).toNat with
  | 0 => if fld w 6 4 == 0#4 then some (.ecall (fld w 20 5) (fld w 15 5) (fld w 10 5)) else none
  | 1 => if fld w 6 19 == 0#19 then some (.eret) else none
  | 2 => if fld w 6 19 == 0#19 then some (.wfi) else none
  | 3 => if fld w 6 19 == 0#19 then some (.endT) else none
  | 4 => if fld w 20 5 == 0#5 && fld w 6 9 == 0#9 then some (.spin (fld w 15 5)) else none
  | _ => none

/-- Major 0x77: CSAVE, CREST, CKPT, RBACK. -/
noncomputable def dec77 (w : IWord) : Option Instr :=
  match (fld w 0 6).toNat with
  | 0 => if fld w 6 9 == 0#9 then some (.csave (fld w 20 5) (fld w 15 5)) else none
  | 1 => if fld w 6 9 == 0#9 then some (.crest (fld w 20 5) (fld w 15 5)) else none
  | 2 => if fld w 6 9 == 0#9 then some (.ckpt (fld w 20 5) (fld w 15 5)) else none
  | 3 => if fld w 6 9 == 0#9 then some (.rback (fld w 20 5) (fld w 15 5)) else none
  | _ => none

/-- Major 0x78: TINVAL, FATTR. -/
noncomputable def dec78 (w : IWord) : Option Instr :=
  match (fld w 0 6).toNat with
  | 0 => if fld w 20 5 == 0#5 && fld w 6 4 == 0#4 then some (.tinval (fld w 15 5) (fld w 10 5)) else none
  | 1 => if fld w 20 5 == 0#5 && fld w 6 4 == 0#4 then some (.fattr (fld w 15 5) (fld w 10 5)) else none
  | _ => none

/-- Major 0x7C: ULMARK, ULSTAT, ULDRAIN. -/
noncomputable def dec7C (w : IWord) : Option Instr :=
  match (fld w 0 6).toNat with
  | 0 => if fld w 6 9 == 0#9 then some (.ulmark (fld w 20 5) (fld w 15 5)) else none
  | 1 => if fld w 6 9 == 0#9 then some (.ulstat (fld w 20 5) (fld w 15 5)) else none
  | 2 => if fld w 6 9 == 0#9 then some (.uldrain (fld w 20 5) (fld w 15 5)) else none
  | _ => none

/-- Major 0x7D: TREC, PERFR, PERFC. -/
noncomputable def dec7D (w : IWord) : Option Instr :=
  match (fld w 0 6).toNat with
  | 0 => if fld w 20 5 == 0#5 && fld w 6 4 == 0#4 then some (.trec (fld w 15 5) (fld w 10 5)) else none
  | 1 => if fld w 6 9 == 0#9 then some (.perfr (fld w 20 5) (fld w 15 5)) else none
  | 2 => if fld w 20 5 == 0#5 && fld w 6 9 == 0#9 then some (.perfc (fld w 15 5)) else none
  | _ => none

/-- Major 0x7E: BRK, WSET, WCLR. -/
noncomputable def dec7E (w : IWord) : Option Instr :=
  match (fld w 0 6).toNat with
  | 0 => if fld w 20 5 == 0#5 && fld w 6 9 == 0#9 then some (.brk (fld w 15 5)) else none
  | 1 => if fld w 6 4 == 0#4 then some (.wset (fld w 20 5) (fld w 15 5) (fld w 10 5)) else none
  | 2 => if fld w 20 5 == 0#5 && fld w 6 9 == 0#9 then some (.wclr (fld w 15 5)) else none
  | _ => none

/-- The instruction that a word names by its major and its codes, for the majors below 0x68 (R44 to R47). -/
def decodeLow (w : IWord) : Option Instr :=
  match (fld w 25 7).toNat with
  | 0x01 => dec01 w
  | 0x02 => some (.addi (fld w 20 5) (fld w 15 5) (fld w 0 15))
  | 0x03 => some (.andi (fld w 20 5) (fld w 15 5) (fld w 0 15))
  | 0x04 => some (.ori (fld w 20 5) (fld w 15 5) (fld w 0 15))
  | 0x05 => some (.xori (fld w 20 5) (fld w 15 5) (fld w 0 15))
  | 0x06 => some (.slti (fld w 20 5) (fld w 15 5) (fld w 0 15))
  | 0x07 => dec07 w
  | 0x08 => some (.li (fld w 20 5) (fld w 0 20))
  | 0x09 => some (.lui (fld w 20 5) (fld w 0 20))
  | 0x0A => some (.lhi (fld w 20 5) (fld w 0 20))
  | 0x0B => dec0B w
  | 0x0C => some (.jal (fld w 20 5) (fld w 0 20))
  | 0x0D => dec0D w
  | 0x0E => some (.jf (fld w 20 5) (fld w 0 20))
  | 0x0F => if fld w 0 7 == 0#7 then some (.rpt (fld w 21 4) (fld w 17 4) (fld w 12 5) (fld w 7 5)) else none
  | 0x10 => dec10 w
  | 0x11 => dec11 w
  | 0x18 => (Ty.ofCode (fld w 2 4)).bind fun t => some (.vadd (fld w 20 5) (Src.ofCode (fld w 13 7)) (Src.ofCode (fld w 6 7)) t (fld w 0 2))
  | 0x19 => (Ty.ofCode (fld w 2 4)).bind fun t => some (.vsub (fld w 20 5) (Src.ofCode (fld w 13 7)) (Src.ofCode (fld w 6 7)) t (fld w 0 2))
  | 0x1A => (Ty.ofCode (fld w 2 4)).bind fun t => some (.vmul (fld w 20 5) (Src.ofCode (fld w 13 7)) (Src.ofCode (fld w 6 7)) t (fld w 0 2))
  | 0x1B => (Ty.ofCode (fld w 2 4)).bind fun t => some (.vfma (fld w 20 5) (Src.ofCode (fld w 13 7)) (Src.ofCode (fld w 6 7)) t (fld w 0 2))
  | 0x1C => (Ty.ofCode (fld w 2 4)).bind fun t => some (.vfnma (fld w 20 5) (Src.ofCode (fld w 13 7)) (Src.ofCode (fld w 6 7)) t (fld w 0 2))
  | 0x1D => (Ty.ofCode (fld w 2 4)).bind fun t => some (.vmin (fld w 20 5) (Src.ofCode (fld w 13 7)) (Src.ofCode (fld w 6 7)) t (fld w 0 2))
  | 0x1E => (Ty.ofCode (fld w 2 4)).bind fun t => some (.vmax (fld w 20 5) (Src.ofCode (fld w 13 7)) (Src.ofCode (fld w 6 7)) t (fld w 0 2))
  | 0x1F => (Ty.ofCode (fld w 2 4)).bind fun t => some (.vadds (fld w 20 5) (Src.ofCode (fld w 13 7)) (Src.ofCode (fld w 6 7)) t (fld w 0 2))
  | 0x20 => (Ty.ofCode (fld w 2 4)).bind fun t => some (.vsubs (fld w 20 5) (Src.ofCode (fld w 13 7)) (Src.ofCode (fld w 6 7)) t (fld w 0 2))
  | 0x21 => (Ty.ofCode (fld w 2 4)).bind fun t => some (.vmulh (fld w 20 5) (Src.ofCode (fld w 13 7)) (Src.ofCode (fld w 6 7)) t (fld w 0 2))
  | 0x22 => (Ty.ofCode (fld w 2 4)).bind fun t => some (.vand (fld w 20 5) (Src.ofCode (fld w 13 7)) (Src.ofCode (fld w 6 7)) t (fld w 0 2))
  | 0x23 => (Ty.ofCode (fld w 2 4)).bind fun t => some (.vor (fld w 20 5) (Src.ofCode (fld w 13 7)) (Src.ofCode (fld w 6 7)) t (fld w 0 2))
  | 0x24 => (Ty.ofCode (fld w 2 4)).bind fun t => some (.vxor (fld w 20 5) (Src.ofCode (fld w 13 7)) (Src.ofCode (fld w 6 7)) t (fld w 0 2))
  | 0x25 => (Ty.ofCode (fld w 2 4)).bind fun t => some (.vandn (fld w 20 5) (Src.ofCode (fld w 13 7)) (Src.ofCode (fld w 6 7)) t (fld w 0 2))
  | 0x26 => (Ty.ofCode (fld w 2 4)).bind fun t => some (.vshl (fld w 20 5) (Src.ofCode (fld w 13 7)) (Src.ofCode (fld w 6 7)) t (fld w 0 2))
  | 0x27 => (Ty.ofCode (fld w 2 4)).bind fun t => some (.vshr (fld w 20 5) (Src.ofCode (fld w 13 7)) (Src.ofCode (fld w 6 7)) t (fld w 0 2))
  | 0x28 => (Ty.ofCode (fld w 2 4)).bind fun t => some (.vsar (fld w 20 5) (Src.ofCode (fld w 13 7)) (Src.ofCode (fld w 6 7)) t (fld w 0 2))
  | 0x29 => (Ty.ofCode (fld w 2 4)).bind fun t => some (.vcmp (VCond.ofCode (fld w 22 3)) (fld w 20 2) (Src.ofCode (fld w 13 7)) (Src.ofCode (fld w 6 7)) t (fld w 0 2))
  | 0x2A => (Ty.ofCode (fld w 2 4)).bind fun t => some (.vsel (fld w 20 5) (Src.ofCode (fld w 13 7)) (Src.ofCode (fld w 6 7)) t (fld w 0 2))
  | 0x2B => (Ty.ofCode (fld w 2 4)).bind fun t => some (.vfsh (fld w 20 5) (Src.ofCode (fld w 13 7)) (Src.ofCode (fld w 6 7)) t (fld w 0 2))
  | 0x2C => (Ty.ofCode (fld w 2 4)).bind fun t => some (.vbext (fld w 20 5) (Src.ofCode (fld w 13 7)) (Src.ofCode (fld w 6 7)) t (fld w 0 2))
  | 0x2D => if fld w 18 2 == 0#2 then (Ty.ofCode (fld w 2 4)).bind fun t => some (.vperm (fld w 20 5) (fld w 13 5) (Src.ofCode (fld w 6 7)) t (fld w 0 2)) else none
  | 0x2E => (Ty.ofCode (fld w 9 4)).bind fun t => (Ty.ofCode (fld w 5 4)).bind fun ts => some (.vcvt (fld w 20 5) (Src.ofCode (fld w 13 7)) t ts (fld w 3 2) (Rnd.ofCode (fld w 0 3)))
  | 0x2F => dec2F w
  | 0x30 => dec30 w
  | 0x31 => dec31 w
  | 0x32 => dec32 w
  | 0x33 => if fld w 18 2 == 0#2 && fld w 6 7 == 0#7 then (Ty.ofCode (fld w 2 4)).bind fun t => some (.vcompact (fld w 20 5) (fld w 13 5) t (fld w 0 2)) else none
  | 0x34 => if fld w 18 2 == 0#2 && fld w 6 7 == 0#7 then (Ty.ofCode (fld w 2 4)).bind fun t => some (.vexpand (fld w 20 5) (fld w 13 5) t (fld w 0 2)) else none
  | 0x35 => if fld w 2 4 == 12#4 then some (.vcell (fld w 20 5) (Src.ofCode (fld w 13 7)) (Src.ofCode (fld w 6 7)) (fld w 0 2)) else none
  | 0x36 => (Ty.ofCode (fld w 2 4)).bind fun t => some (.vmorton (fld w 20 5) (Src.ofCode (fld w 13 7)) (Src.ofCode (fld w 6 7)) t (fld w 0 2))
  | 0x37 => (Ty.ofCode (fld w 2 4)).bind fun t => some (.vhashk (fld w 20 5) (Src.ofCode (fld w 13 7)) (Src.ofCode (fld w 6 7)) t (fld w 0 2))
  | 0x38 => dec38 w
  | 0x39 => if fld w 10 5 == 0#5 && fld w 0 6 == 0#6 then some (.vsmap (fld w 20 5) (fld w 15 5) (fld w 6 4)) else none
  | 0x3A => if fld w 10 5 == 0#5 && fld w 0 6 == 0#6 then some (.vsred (fld w 20 5) (fld w 15 5) (fld w 6 4)) else none
  | 0x3B => if fld w 10 5 == 0#5 && fld w 0 6 == 0#6 then some (.vscvt (fld w 20 5) (fld w 15 5) (fld w 6 4)) else none
  | 0x3C => dec3C w
  | 0x40 => some (.ldb (fld w 20 5) (fld w 15 5) (fld w 11 4) (Hint.ofCode (fld w 9 2)) (fld w 0 9))
  | 0x41 => some (.ldh (fld w 20 5) (fld w 15 5) (fld w 11 4) (Hint.ofCode (fld w 9 2)) (fld w 0 9))
  | 0x42 => some (.ldw (fld w 20 5) (fld w 15 5) (fld w 11 4) (Hint.ofCode (fld w 9 2)) (fld w 0 9))
  | 0x43 => some (.ldd (fld w 20 5) (fld w 15 5) (fld w 11 4) (Hint.ofCode (fld w 9 2)) (fld w 0 9))
  | 0x44 => some (.ldbn (fld w 20 5) (fld w 15 5) (fld w 11 4) (Hint.ofCode (fld w 9 2)) (fld w 0 9))
  | 0x45 => some (.ldhn (fld w 20 5) (fld w 15 5) (fld w 11 4) (Hint.ofCode (fld w 9 2)) (fld w 0 9))
  | 0x46 => some (.ldwn (fld w 20 5) (fld w 15 5) (fld w 11 4) (Hint.ofCode (fld w 9 2)) (fld w 0 9))
  | 0x47 => if fld w 11 4 == 0#4 then some (.stb (fld w 20 5) (fld w 15 5) (Hint.ofCode (fld w 9 2)) (fld w 0 9)) else none
  | 0x48 => if fld w 11 4 == 0#4 then some (.sth (fld w 20 5) (fld w 15 5) (Hint.ofCode (fld w 9 2)) (fld w 0 9)) else none
  | 0x49 => if fld w 11 4 == 0#4 then some (.stw (fld w 20 5) (fld w 15 5) (Hint.ofCode (fld w 9 2)) (fld w 0 9)) else none
  | 0x4A => if fld w 11 4 == 0#4 then some (.std (fld w 20 5) (fld w 15 5) (Hint.ofCode (fld w 9 2)) (fld w 0 9)) else none
  | 0x4B => some (.vld (fld w 20 5) (fld w 15 5) (fld w 11 4) (Hint.ofCode (fld w 9 2)) (fld w 0 9))
  | 0x4C => if fld w 11 4 == 0#4 then some (.vst (fld w 20 5) (fld w 15 5) (Hint.ofCode (fld w 9 2)) (fld w 0 9)) else none
  | 0x4D => (Ty.ofCode (fld w 2 4)).bind fun t => some (.vgath (fld w 20 5) (fld w 15 5) (fld w 10 5) (fld w 6 4) t (fld w 0 2))
  | 0x4E => if fld w 6 4 == 0#4 then (Ty.ofCode (fld w 2 4)).bind fun t => some (.vscat (fld w 20 5) (fld w 15 5) (fld w 10 5) t (fld w 0 2)) else none
  | 0x4F => dec4F w
  | 0x50 => dec50 w
  | 0x54 => dec54 w
  | 0x55 => if fld w 1 2 == 0#2 then (Scope.ofCode (fld w 3 3)).bind fun s => some (.ldaq (fld w 20 5) (fld w 15 5) (fld w 10 5) (fld w 6 4) s (Size.ofCode (fld w 0 1))) else none
  | 0x56 => if fld w 6 4 == 0#4 && fld w 1 2 == 0#2 then (Scope.ofCode (fld w 3 3)).bind fun s => some (.strl (fld w 20 5) (fld w 15 5) (fld w 10 5) s (Size.ofCode (fld w 0 1))) else none
  | 0x57 => dec57 w
  | 0x58 => dec58 w
  | 0x59 => dec59 w
  | 0x5A => dec5A w
  | 0x5B => dec5B w
  | 0x5C => dec5C w
  | 0x60 => dec60 w
  | 0x61 => dec61 w
  | 0x62 => dec62 w
  | 0x63 => dec63 w
  | _ => none

/-- The instruction that a word names, for the majors from 0x68 on (R44 to R47). -/
noncomputable def decodeHigh (w : IWord) : Option Instr :=
  match (fld w 25 7).toNat with
  | 0x68 => dec68 w
  | 0x69 => dec69 w
  | 0x6C => dec6C w
  | 0x6D => dec6D w
  | 0x6E => if fld w 15 2 == 0#2 && fld w 6 4 == 0#4 then some (.mma (fld w 23 2) (fld w 20 3) (fld w 17 3) (fld w 10 5) (fld w 0 6)) else none
  | 0x6F => if fld w 15 2 == 0#2 && fld w 6 4 == 0#4 then some (.mmab (fld w 23 2) (fld w 20 3) (fld w 17 3) (fld w 10 5) (fld w 0 6)) else none
  | 0x70 => if fld w 15 2 == 0#2 && fld w 6 4 == 0#4 then some (.mpass (fld w 23 2) (fld w 20 3) (fld w 17 3) (fld w 10 5) (fld w 0 6)) else none
  | 0x71 => if fld w 22 3 == 0#3 && fld w 6 4 == 0#4 then (PSet.ofCode (fld w 0 3)).bind fun e => some (.mdrain (fld w 20 2) (fld w 15 5) (fld w 10 5) (fld w 5 1 == 1#1) (fld w 4 1 == 1#1) (fld w 3 1 == 1#1) e) else none
  | 0x72 => dec72 w
  | 0x73 => dec73 w
  | 0x74 => if fld w 5 5 == 0#5 then (PSet.ofCode (fld w 0 3)).bind fun e => some (.proj (fld w 20 5) (fld w 15 5) (fld w 10 5) (fld w 4 1 == 1#1) (fld w 3 1 == 1#1) e) else none
  | 0x75 => if fld w 3 7 == 0#7 then (PSet.ofCode (fld w 0 3)).bind fun e => some (.padj (fld w 20 5) (fld w 15 5) (fld w 10 5) e) else none
  | 0x76 => dec76 w
  | 0x77 => dec77 w
  | 0x78 => dec78 w
  | 0x7C => dec7C w
  | 0x7D => dec7D w
  | 0x7E => dec7E w
  | _ => none

/-- The instruction that a word names by its major and its codes (R44 to R47). -/
noncomputable def decodeRaw (w : IWord) : Option Instr := if (fld w 25 7).toNat < 0x68 then decodeLow w else decodeHigh w

/-- The decoder: none for every word that raises Illegal Instruction in every mode (R49). -/
noncomputable def decode (w : IWord) : Option Instr := (decodeRaw w).filter wf

/-- Whether a constructor has a word: the events of the table have none. -/
noncomputable def isWord (i : Instr) : Bool := decode (encode i) == some i

/-- The instruction read from the `nbits` bits of `w` as the opcode table numbers them: one little-endian word (R28). -/
noncomputable def decodeTableWord (nbits w : Nat) : Option Instr := if nbits == 32 then decode (BitVec.ofNat 32 w) else none

end Sys2Proof
end

