-- ==== Sys2Proof/Machine/State.lean ====
section
/-! DEFINITION. The state of the machine as plain data: one core (hart), the things its cluster shares, and the device
around them. Other cores, peers and the host act on it through the event constructors of `Instr`. -/

namespace Sys2Proof.Machine

/-! ## Memories and small data -/

/-- A sparse map from addresses to `w`-bit cells in ONE canonical form (`Machine.SMap.wf`): keys strictly rise and no
entry holds the value an unlisted key reads as. DESIGN CHOICE: notes/assumptions/2.md. -/
abbrev SMap (w : Nat) := List (Nat × BitVec w)
/-- A byte memory (`Host.Cell` is its entry): an unlisted address reads 0 (notes/assumptions/2.md). -/
abbrev Mem := SMap 8

/-- The privilege modes (PRIV, R78): 0 U, 1 S, 3 M. -/
inductive Mode where
  | u | s | m
  deriving DecidableEq, Repr

/-- The states of an instruction-memory segment (R90). -/
inductive SegState where
  | landed | fetching | empty | failed
  deriving DecidableEq, Repr

/-- One 4 KiB segment of instruction memory (R90 to R95): the cause and address a failed fetch stored, and the device
virtual address of the image while a fetch is in flight, with whether U mode asked for it. -/
structure Seg where
  st : SegState
  cause : Byte
  addr : Word
  user : Bool
  deriving DecidableEq, Repr

/-- The destination of a held write (R38). -/
inductive Dst where
  | none | x (r : Reg) | v (r : VReg)
  deriving DecidableEq, Repr

/-- A held write of a long-latency instruction (R38, R39, R66): the instructions left in its window, its value as it
gathers with the requests still missing, the flags that land with it, the poisoned address
it met, the handler depth at which its window opened, whether its destination names the shadow bank, the issuing
thread's ICOUNT, and the view slot that it binds (R180). `lanes` are the bits of a vector register that it writes: a lane whose
mask bit is 0 stays as it is (R23, R115, R152). -/
structure Held where
  id : Nat
  dst : Dst
  left : Nat
  val : VWord
  lanes : VWord
  missing : Nat
  flags : BitVec 6
  poison : Option Word
  depth : Nat
  shadow : Bool
  icount : Word
  bind : Option (Nat × Option (Nat × Nat))
  deriving DecidableEq, Repr

/-- The point at which a read is performed (R137, R139, R197). -/
inductive ReadPoint where
  | cache | cvp | noAlloc | lastUse | home | homeDev
  deriving DecidableEq, Repr

/-- How an access is performed (R139, R184): at the LS, at the CVP on the scratch window, through the cluster's cache
pool, at the home, or at the CVP on a cluster-resident tensor (R173). -/
inductive Region where
  | ls | scr | wb | unc | pinned
  deriving DecidableEq, Repr

/-- Who made a write, for the undo log (R386, R388, R389): the core, its context, the window in which its instruction
issued, the ICOUNT there, whether that window is covered (R385), and whether the write's entry has been appended already, at the CVP.
DEDUCED: notes/assumptions/22.md. -/
structure Origin where
  core : Nat
  ctx : Nat
  win : BitVec 16
  icount : Word
  cov : Bool
  logged : Bool
  deriving DecidableEq, Repr

/-- A load request on its way to its point (R185): bytes for bits `[pos + 8 size - 1 : pos]` of a held write; `org` is its
instruction (R388). -/
structure LoadReq where
  id : Nat
  seq : Nat
  pos : Nat
  size : Nat
  signed : Bool
  loc : Loc
  region : Region
  va : Word
  point : ReadPoint
  org : Origin
  deriving DecidableEq, Repr

/-- The read-modify-write operations of AMO, AMOX, RED and FE (R213, R216, R217, R222). -/
inductive RmwOp where
  | add | min | max | minn | maxn | and | or | xor | swap | cas | addf32 | addbf16
  deriving DecidableEq, Repr

/-- The operations on future words (R222). -/
inductive FeOp where
  | take | put | read | peek | clr
  deriving DecidableEq, Repr

/-- What a store-queue entry or a path request does when it is performed (R149, R154, R181, R214, R217, R222). A TLDE and a TSTE
carry their element and its size in bytes. -/
inductive StoreOp where
  | store (bytes : List Byte) (hint : Hint)
  | strl (bytes : List Byte) (scope : Scope)
  | clean | discard | zline
  | rmw (op : RmwOp) (size : Nat) (v cmp : Word) (id : Option Nat) (isRed : Bool)
  | fe (op : FeOp) (v : Word) (id : Option Nat) (task : Option (Word × IAddr))
  | tlde (elem size : Nat) (id : Nat)
  | tste (elem size : Nat) (v : Word) (sat : Bool)
  | flush (cells : List (Nat × Word)) (op : RmwOp) (size : Nat)
  | writeback (mask : BitVec 128) (data : BitVec 1024) (bad : BitVec 128)
  deriving DecidableEq, Repr

/-- An entry of the store queue, or a request on the path from the cluster to a home (R149, R186, R187). -/
structure StoreReq where
  seq : Nat
  op : StoreOp
  loc : Loc
  region : Region
  va : Word
  rel : Option Scope
  org : Origin
  deriving DecidableEq, Repr

/-- The kinds of FENCE (R195), and the acquire after a future's value (R223). -/
inductive FenceKind where
  | acq | rel | ar | sc | win | eng | fut
  deriving DecidableEq, Repr

/-- The work of a fence that still holds (R195, R196): the scope it resolved to, the sequence number below which the
thread's accesses come before it, whether it still has its release, its wait for the packets of earlier peer copies (FENCE.WIN at
system scope), its place in the order of R194 and its acquire to make, the held write whose value its acquire follows (R197, R214,
R223), and the window in which a FENCE.WIN issued. -/
structure Fence where
  kind : FenceKind
  scope : Scope
  seq : Nat
  needRel : Bool
  needPeer : Bool
  needSc : Bool
  needAcq : Bool
  after : Option Nat
  window : Nat
  deriving DecidableEq, Repr

/-- The state of a repeat frame (R40 to R42). -/
structure Frame where
  addr : IAddr
  reps : Nat
  len : Nat
  ds : Nat
  ss : Nat
  j : Nat
  i : Nat
  words : List IWord
  deriving DecidableEq, Repr

/-- What a held instruction has already done (R227, R246, R251, R257, R363, R365, R380). -/
inductive Midway where
  | none
  | bsync                       -- BSYNC has arrived and waits
  | sstep                       -- SEXCH or SSYNC has arrived and waits
  -- the task was retired and the thread asks for work: into a register, or after a reset (R269); `kill` says that a kill was
  -- taken (R268)
  | tknext (dst : Option Reg) (kill : Bool)
  | ecall                       -- the firmware call is on its way
  | wq                          -- WQPOP waits for its refill
  | ckpt (ctx interval : Nat)   -- CKPT has armed a boundary and waits (R380)
  -- PROJ or PADJ with this record and these parameters has done its first `n` rows, with `nans` NaN rows and these flags (R346, R348)
  | rows (record : List Byte) (params : Word) (n nans flags : Nat)
  | scatter (rest : List StoreReq)   -- the lanes of a VSCAT that have not entered the store queue yet (R149, R153)
  deriving DecidableEq, Repr

/-- What a trap or a user-level interrupt (`ui`) saves beside the registers and the held writes (R42, R97, R196, R358). -/
structure SavedTrap where
  ui : Bool
  epc : IAddr
  frame : Option Frame
  fences : List Fence
  mid : Midway
  deriving DecidableEq, Repr

/-- A 128-byte line of the core's L1 (R137). -/
structure L1Line where
  space : Space
  line : Nat
  data : BitVec 1024
  deriving DecidableEq, Repr

/-- The partials of an update-only line (R218). -/
structure Partials where
  op : RmwOp
  size : Nat
  cells : List (Nat × Word)
  deriving DecidableEq, Repr

/-- A line of the cluster's cache pool (R134, R218): which bytes are valid, which are dirty, which of its
8-byte granules are poisoned (R140), and the partials of an update-only line. -/
structure CmLine where
  space : Space
  line : Nat
  data : BitVec 1024
  valid : BitVec 128
  dirty : BitVec 128
  poison : BitVec 16
  uo : Option Partials
  deriving DecidableEq, Repr

/-! ## Barriers, messages, tasks, joins -/

/-- The imbalance record of a release (R230). -/
structure BarRecord where
  early : Word
  late : Word
  sumd : BitVec 32
  last : BitVec 16
  count : BitVec 16
  members : BitVec 16
  flags : Byte
  slot : Byte
  phase : BitVec 32
  deriving DecidableEq, Repr

/-- The states of a barrier slot (R227). -/
inductive SlotState where
  | idle | arrived | released
  deriving DecidableEq, Repr

/-- A barrier slot of the core (R225 to R231). `status` is the status the next BWAIT returns for a released slot; `gphase`
counts the phases that the slot's group has released, so that an arrival of an earlier phase is late, and `past` holds the records
of those that the core's own phase has not passed (R227). `scope` is the scope of the last BARV, at which BWAIT acquires (R228). -/
structure Slot where
  st : SlotState
  status : BitVec 2
  phase : BitVec 32
  gphase : BitVec 32
  bmem : Word
  quorum : BitVec 16
  record : BarRecord
  past : List BarRecord
  scope : Scope
  deriving DecidableEq, Repr

/-- An arrival in the barrier network (R226, R230). `slot` 8 is the superstep barrier. `sent` says that it has entered
the network and is counted; `time` and `cyc` are then its arrival time. `scope` and `seq` are those of the release that an
arrival not yet sent waits for (R228). -/
structure Arrival where
  core : Nat
  slot : Nat
  mask : Word
  phase : BitVec 32
  scope : Scope
  seq : Nat
  sent : Bool
  time : Word
  cyc : Word
  deriving DecidableEq, Repr

/-- A message of an inbox (R201), with the lines that its operation wrote (R203) and the ICOUNT of the instruction that sent
its command (R393). -/
structure Msg where
  tag : Byte
  status : Byte
  kind : Byte
  count : BitVec 32
  time : Word
  wrote : List Loc
  icount : Word
  deriving DecidableEq, Repr

/-- A task of the cluster's queue, a running task or a task in a return entry (R247 to R255); `pin` is the core in whose LS its
footprint is pinned (R251); `spawner` is the core whose thread spawned it, while that thread lives (R259). -/
structure Task where
  tid : Word
  launch : Nat
  entry : IAddr
  prio : Nat
  level : Nat
  waited : Nat
  order : Nat
  hold : Bool
  grain : Nat
  lo : Word
  hi : Word
  fsrc : Word
  fdst : Nat
  flen : Nat
  join : Word
  member : Nat
  dep : Nat
  spawner : Option Nat
  ret : Option Nat
  running : Option Nat
  pin : Option Nat
  deriving DecidableEq, Repr

/-- A parked request or a registration on a future word at its home (R222, R254, R255). -/
inductive FutWait where
  | parked (loc : Loc) (take : Bool) (id : Nat) (va : Word) (org : Origin)
  | reg (loc : Loc) (tid : Word)
  deriving DecidableEq, Repr

/-- A member's window marker (R266): the core on which it ran, its first window and the last that the core opened while the
member was current. -/
structure Marker where
  member : Nat
  core : Nat
  lo : BitVec 16
  hi : BitVec 16
  deriving DecidableEq, Repr

/-- What the device keeps of a live join beside its record (R265 to R271): the launch of its QNEW, the bound members
with their task identifiers, the window markers, the members counted, those whose retraction is still to do,
the steps done since the release, the ICOUNT of the releasing QARRIVE, and the nanoseconds since the release during which the
core was stopped (R269). -/
structure Join where
  jid : Word
  ctx : Nat
  launch : Nat
  bound : List (Nat × Word)
  markers : List Marker
  counted : List Nat
  toRetract : List Nat
  combined : Bool
  posted : Bool
  icount : Word
  paused : Nat
  deriving DecidableEq, Repr

/-- A refill of a work queue in flight (R263): the LS address of its descriptor. -/
structure Refill where
  desc : Nat
  org : Origin
  deriving DecidableEq, Repr

/-- A message queue of a cluster (R294, R296). -/
structure MQueue where
  q : Nat
  recv : Option Nat
  msgs : List (Nat × BitVec 512 × Scope)
  deriving DecidableEq, Repr

/-! ## Engines -/

/-- Where an engine command stands: in its queue; done, with the message it places; or sent to a peer, with the message
that follows its acknowledgement. -/
inductive JobState where
  | queued
  | done (status : Byte) (count : BitVec 32)
  | await (status : Byte) (count : BitVec 32)
  deriving DecidableEq, Repr

/-- A copy command in the queue of engine `eng` of its die (R183, R279 to R291). The record is kept as it was read at issue; `exch`
says that the copy reaches another cluster's window, another core's LS or a peer (R244); `sentAt` is the device time at which a
peer copy's packets left (R431). -/
structure Copy where
  id : Nat
  eng : Nat
  seq : Nat
  fn : Nat
  core : Nat
  ctx : Nat
  tag : Byte
  record : List Byte
  rnd : Rnd
  sat : Bool
  gen : Option Word
  user : Bool
  st : JobState
  wrote : List Loc
  org : Origin
  exch : Bool
  sentAt : Word
  deriving DecidableEq, Repr

/-- A near-memory update (R326, R327): the pieces still to do. -/
structure NmuJob where
  id : Nat
  seq : Nat
  core : Nat
  ctx : Nat
  tag : Byte
  record : List Byte
  todo : List (Nat × Nat × Nat)   -- row, first column, columns
  total : Nat
  st : JobState
  org : Origin
  deriving DecidableEq, Repr

/-- A ring of a matrix unit (R305 to R307). -/
structure Ring where
  base : Nat
  slot : Nat
  cap : Nat
  roleB : Bool
  coded : Bool
  head : Nat
  tail : Nat
  deriving DecidableEq, Repr

/-- A command in a matrix unit's queue (R302). -/
inductive MOp where
  | mcset (w : Word)
  | mrset (ring : Nat) (r : Ring)
  | mma (acc ra rb : Nat) (code : BitVec 6)
  | mmab (acc ra rb : Nat) (code : BitVec 6)
  | mpass (acc ra rb : Nat) (code : BitVec 6)
  | mdrain (acc : Nat) (set : PSet) (tr clr sup : Bool) (va : Word) (view : Option (Nat × Nat))
  | mzero (acc : Nat)
  deriving DecidableEq, Repr

/-- A queued command with what it read at its issue (R303, R311, R314, R446). -/
structure MCmd where
  id : Nat
  seq : Nat
  core : Nat
  ctx : Nat
  bay : Bool
  lead : Nat
  op : MOp
  nbv : Bool
  rnd : Rnd
  sat : Bool
  gen : Word
  user : Bool
  org : Origin
  deriving DecidableEq, Repr

/-- A cluster's matrix unit (R301 to R325). Element (i, j) of accumulator a is key a * 16384 + i * 128 + j of `acc`; `wrote`
holds, by issuing core, the lines that drains have written and that no MFENCE has acquired (R319). -/
structure MUnit where
  cluster : Nat
  acc : SMap 32
  status : Vector (BitVec 32) 4
  changed : Vector Word 4
  drainAddr : Vector (BitVec 32) 4
  drainCause : Vector Byte 4
  rings : Vector (Option Ring) 8
  fctx : List (Nat × Word)
  queue : List MCmd
  wrote : List (Nat × List Loc)
  deriving DecidableEq, Repr

/-! ## Tensors -/

/-- The placements of a tensor (R159). -/
inductive Place where
  | spread | die (d : Nat) | cluster (c : Nat)
  deriving DecidableEq, Repr

/-- A representation (R159, R160). -/
structure Rep where
  tiles : Bool
  place : Place
  comp : Bool
  mirror : Bool
  scaled : Bool
  unc : Bool
  deriving DecidableEq, Repr

/-- An entry at a tensor's order point (R165, R166): the accesses of a TLDE or TSTE (2 * its sequence number) or of an engine
command (2 * its number + 1); a re-representation, with the sequence number after which the issuing thread's view accesses
come behind it (R167); a free. `mine` says that the core's thread placed it. -/
inductive OEntry where
  | access (id : Nat)
  | rerep (r : Rep) (moving : Bool) (mine : Option Nat)
  | free (mine : Bool)
  deriving DecidableEq, Repr

/-- A tensor (R155 to R172). `data` holds the element array in row-major order, little-endian; `bscale` the block
scales, each held exclusive-or 0x78 so that a new one reads 0x78 (R162); `maker` is the creating cluster; `opt` the optimiser state, m in the low and v in the high half. -/
structure Tensor where
  h : Nat
  ctx : Nat
  ty : Ty
  rank : Nat
  pref : Nat
  maker : Nat
  ext : List Nat
  ops : BitVec 16
  rep : Rep
  data : Mem
  bscale : SMap 8
  tscale : BitVec 16
  opt : SMap 64
  poison : List Nat
  queue : List OEntry
  freed : Bool
  deriving DecidableEq, Repr

/-! ## The log, debug and trace -/

/-- An entry of the undo log (R386 to R388), with the location whose old bytes it holds, and whether its write was performed at the CVP
on a cached line (R184). -/
structure LogEntry where
  pos : Nat
  cvp : Bool
  kind : Nat
  eng : Bool
  pay : Bool
  done : Bool
  freed : Bool
  win : BitVec 16
  core : Nat
  addr : Word
  loc : Loc
  old : List Byte
  size : Nat
  elem : Nat
  icount : Word
  deriving DecidableEq, Repr

/-- An entry of the reverse ring (R392), with what R393 and R395 need of its instruction: the length of the window it opened, whether
it issued in a repeat frame, whether it made a trace record, and whether PERTURB advanced with it. -/
structure RingEntry where
  old : Word
  pay : Option Nat
  cyc : Word
  pc : IAddr
  reg : Nat
  first : Bool
  kill : Bool
  icount : Word
  win : BitVec 16
  span : Nat
  framed : Bool
  traced : Bool
  stalled : Bool
  deriving DecidableEq, Repr

/-- A data watchpoint (R397, R406). -/
structure Watch where
  va : Word
  loc : Loc
  len : Nat
  kind : BitVec 2
  act : Bool
  scope : Bool
  armed : Bool
  deriving DecidableEq, Repr

/-- The trigger record of the debug service (R398). -/
structure Trigger where
  addr : Word
  time : Word
  cyc : BitVec 32
  core : Option Nat
  wp : Byte
  kind : Byte
  icount : Word
  deriving DecidableEq, Repr

/-- The stop record of a core (R368). -/
structure StopRecord where
  icount : Word
  tstop : Word
  sent : BitVec 32
  recv : BitVec 32
  pc : IAddr
  why : Nat
  flags : Byte
  deriving DecidableEq, Repr

/-! ## The hart -/

/-- Whether a thread runs on the core (R240, R366). -/
inductive Thread where
  | idle | running | ended
  deriving DecidableEq, Repr

/-- The register files (R76, R98 to R102, R206). -/
structure Regs where
  x : Vector Word 32
  v : Vector VWord 32
  k : Vector MWord 4
  cbank : Vector Word 32
  xsh : Vector Word 8
  vsh : Vector VWord 8
  allot : Nat
  deriving DecidableEq, Repr

/-- The identity and arithmetic registers (R61 to R70, R78). -/
structure Arith where
  core : Nat
  cluster : Nat
  ctx : Nat
  nbv : Bool
  frm : BitVec 3
  fflags : BitVec 6
  lfsr : Word
  satf : Bool
  deriving DecidableEq, Repr

/-- The trap registers (R359). -/
structure TrapRegs where
  code : Byte
  op : BitVec 4
  imp : Bool
  epc : IAddr
  tval : Word
  ppm : Mode
  tip : Bool
  prn : Bool
  uih : Bool
  frm : Bool
  hwp : Bool
  tvec : IAddr
  sscratch : Word
  deriving DecidableEq, Repr

/-- The asynchronous registers (R206 to R208). -/
structure Async where
  uivec : IAddr
  uicause : Byte
  uiepc : IAddr
  thr : BitVec 7
  armed : Bool
  inh : Bool
  deriving DecidableEq, Repr

/-- The superstep registers and barrier of the thread's domain (R242 to R246). -/
structure Superstep where
  ph : Bool
  count : BitVec 32
  level : BitVec 3
  next : BitVec 3
  phase : BitVec 32
  released : Bool
  record : BarRecord
  deriving DecidableEq, Repr

/-- The task registers (R261), the launch's KTRAP (R268), whether the task has issued a peer copy (R270), and the number of the first
held write that it opens (R254). -/
structure TaskRegs where
  launch : BitVec 16
  member : BitVec 4
  gsize : BitVec 5
  gidx : BitVec 13
  tid : Word
  win : BitVec 16
  qmem : BitVec 4
  prio : BitVec 2
  effect : Bool
  kpend : Bool
  qm : Bool
  run : Bool
  lastCause : Byte
  lastHow : BitVec 3
  ktrap : Bool
  peered : Bool
  heldFrom : Nat
  deriving DecidableEq, Repr

/-- The trace and window registers and counters of the core (R389, R390, R392, R401, R403, R405), and PERTURB as the instruction
retired last left it (R395). -/
structure Trace where
  ulwin : BitVec 16
  covered : Bool
  perturb : Word
  perturb0 : Word
  trcctl : BitVec 6
  icount : Word
  ctr : Vector Word 9
  ring : List RingEntry
  scribe : List (BitVec 512)
  deriving DecidableEq, Repr

/-- A DEBUG STEP in progress (R399): whom it answers, the instructions left and retired, and whether the whole partition was
stopped. -/
structure Stepping where
  session : Nat
  seq : Nat
  left : Nat
  made : Nat
  gang : Bool
  since : Word
  deriving DecidableEq, Repr

/-- The core's part in debugging (R398 to R400). `wpStop` is a stop that an instruction's own access has triggered, of the
partition or of the cluster, which the core makes when the instruction has retired (R367, R407); `stood` is a held BSYNC, SEXCH or
SSYNC that a reverse step has left, whose arrival stands (R246, R393). -/
structure Debug where
  bps : Vector (Option IAddr) 8
  skipBp : Bool
  trapStep : Bool
  wpTrap : Option Word
  wpStop : Option Bool
  stop : Option StopRecord
  skid : BitVec 32
  role : Nat
  stepping : Option Stepping
  stood : Option IAddr
  deriving DecidableEq, Repr

/-- One core. DESIGN CHOICE: notes/assumptions/11.md. -/
structure Hart where
  thread : Thread
  mode : Mode
  pc : IAddr
  regs : Regs
  ar : Arith
  tr : TrapRegs
  ui : Async
  ss : Superstep
  tk : TaskRegs
  tc : Trace
  dbg : Debug
  slots : Vector Slot 8
  blast : Word
  nslots : Nat
  views : Vector (Option (Nat × Nat)) 16
  frame : Option Frame
  held : List Held
  loads : List LoadReq
  fences : List Fence
  saved : List SavedTrap
  sq : List StoreReq
  nextSeq : Nat
  nextId : Nat
  imem : Mem
  segs : Vector Seg 16
  l1 : List L1Line
  inbox : List Msg
  tags : List Byte
  mid : Midway
  spin : Option Nat
  ecall : Option (Word × Word × Reg)
  answer : Option Word
  mfull : Bool                    -- a matrix command waits at issue for a full queue (R325)
  blocked : Bool                  -- a blocking instruction holds (R368)
  refills : List Refill
  fromRefill : List (Nat × Nat)   -- descriptor and position of the entries a refill brought (R263)
  sent : BitVec 32
  recv : BitVec 32
  deriving DecidableEq, Repr

/-! ## The cluster -/

/-- A translation-cache entry (R147): virtual frame, physical frame, POL, U, X, W, R. -/
structure TlbEntry where
  vframe : Nat
  pframe : Nat
  pol : Bool
  u : Bool
  x : Bool
  w : Bool
  r : Bool
  deriving DecidableEq, Repr

/-- What the 16 cores of the cluster share, and the paths that leave it. `cm` holds the lines of the cache pool, the most recently
used first (R136), and `exp` the compressed blocks that the expander holds expanded, by handle and block (R135). `path` holds the requests
on the paths to the homes of the cluster's die, and `gates` those in the window gates, one for each ordered pair of dies: from die a
to die b it is number 3 a + b, less one for b > a (R183, R187); `turn` is the stack whose home is tried first (R138). `members` are the
cores on which the launch has a thread, `group` those of the core's own group. Of other cores the network has told: the quorum
counts of their slots, by core, slot and mask (R232); the arrivals that they still owe to phases released without them, by core,
slot and mask (R227); and the levels of their domains, now and after the superstep barrier at which they stand (R242), where they are
not the launch's. DESIGN CHOICE: notes/assumptions/11.md. -/
structure Cluster where
  cm : List CmLine
  exp : List (Nat × Nat)
  path : List StoreReq
  gates : Vector (List StoreReq) 12
  turn : Nat
  tlb : List TlbEntry
  scratch : Nat
  lsfoot : Nat
  tasks : List Task
  nextTid : Nat
  nextOrder : Nat
  joins : List Join
  mqs : List MQueue
  etab : Vector (BitVec 1024) 8
  arrivals : List Arrival
  quorums : List (Nat × Nat × Word × BitVec 16)
  behind : List (Nat × Nat × Word)
  levels : List (Nat × BitVec 3 × BitVec 3)
  members : List Nat
  group : List Nat
  hold : List Msg
  deriving DecidableEq, Repr

/-! ## The device -/

/-- A peer table entry (R431, R432): the peer's identity public key and its context, the session key with the packets sent under it
and the device time since which it stands, and the key before it while that is still accepted. -/
structure Peer where
  idx : Nat
  ctx : Word
  key : List Byte
  sess : BitVec 256
  packets : Nat
  since : Word
  old : Option (BitVec 256)
  deriving DecidableEq, Repr

/-- A launch (R237 to R241): its number and record, the groups placed, and the cluster that took the last. -/
structure Launch where
  n : Nat
  record : List Byte
  placed : Nat
  lastCluster : Option Nat
  deriving DecidableEq, Repr

/-- Whether a context runs (R367 to R380). -/
inductive CtxState where
  | running
  | stopped (why : Nat)
  | saved
  | dead
  deriving DecidableEq, Repr

/-- A snapshot of what a context's image holds (R372), with the device time at which it was written and the save counter of its
nonces (R373). -/
structure Image where
  time : Word
  counter : Nat
  hart : Hart
  clu : Cluster
  ls : Mem
  scr : Mem
  lsPoison : List Nat
  scrPoison : List Nat
  units : List MUnit
  tensors : List Tensor
  futs : List FutWait
  launches : List Launch
  busy : List (Nat × Nat × Nat)
  log : List LogEntry
  logHead : Nat
  logTail : Nat
  winNext : BitVec 16
  deriving DecidableEq, Repr

/-- A context (R429): its parameters, log, peers, launches and stop state. `serial` tells it from an earlier context of its number
(R301); `born` is the cycle of its creation (R392); `busy` names the cores whose resources a thread holds, with its launch and group
(R239, R240); `ran` is the running time used in the budget period, in ns, to which the time since `since` is still to be added
while it runs (R276). `key` is the key of its memory, which DESTROY erases (R438). -/
structure Context where
  num : Nat
  serial : Nat
  key : Option (BitVec 256)
  born : Word
  session : Nat
  bays : BitVec 64
  quota : Nat
  root : Nat
  logBase : Word
  save : Nat
  sink : Word
  cbudg : Word
  mode : BitVec 2
  policy : BitVec 2
  log2sz : Nat
  dbg : Bool
  sink2sz : Nat
  ptime : Nat
  owner : List Byte
  peers : List Peer
  used : List Nat
  winNext : BitVec 16
  log : List LogEntry
  logHead : Nat
  logTail : Nat
  gone : List (Nat × Word)        -- core and ICOUNT of the DEBUG entries freed (R394)
  droppedN : Nat
  ulDropped : Bool
  ulRsv : Bool
  lines : List (Loc × BitVec 512)
  retired : List (Nat × BitVec 16 × BitVec 16)   -- core and windows of the tasks retired with writes under way (R387)
  deferred : Nat
  interval : Nat
  armed : Bool
  rolledBack : Nat
  watches : Vector (Option Watch) 16
  attached : Bool
  trigger : Option Trigger
  launches : List Launch
  nextLaunch : Nat
  busy : List (Nat × Nat × Nat)
  state : CtxState
  switchAt : Option Nat
  resumeAt : Option Nat
  ran : Nat
  since : Word
  spent : Bool
  sinkHead : Nat
  sinkTail : Nat
  orphaned : Nat
  unret : Nat
  switchImg : Option Image
  boundImg : Option Image
  deriving DecidableEq, Repr

/-- The owner tag of a 64 KiB frame (R143): unlisted frames are free. -/
inductive Owner where
  | joiner | ctx (n : Nat) | pool
  deriving DecidableEq, Repr

/-- A range of device memory written as a whole (R372, R373): the encrypted blocks of an image of a context, by its number, kind and
save counter; or, over an earlier one, plain bytes again. -/
structure Seal where
  base : Nat
  size : Nat
  code : Option (Nat × Nat × Nat)
  deriving DecidableEq, Repr

/-- What the device has sent out of its ports (R286, R376, R378, R379, R426, R431, R441): responses, kill records, events,
notices of a rollback, peer writes and their acknowledgements, a boundary image with its context's memory and tensors for the safe
tier's target (R427), and the dump region over the working ports (R379). -/
inductive Sent where
  | response (session seq status : Nat) (value : Word) (data : List Byte)
  | kill (ctx : Nat) (record : List Byte)
  | event (ctx : Nat) (v : Word)
  | rollback (ctx interval : Nat) (time : Word)
  | peer (ctx idx : Nat) (va : Word) (bytes : List Byte) (window : Nat)
  | ack (ctx : Nat) (va : Word)
  | safe (ctx : Nat) (target : Word) (img : Option Image) (mem : Mem) (tensors : List Tensor)
  | dump (ports : Byte) (images : List (Nat × Image)) (errors : List Byte)
  deriving DecidableEq, Repr

/-- The device around the cluster. Of clusters other than the core's own it holds the scratch size, the exponent tables (by cluster
and number) and the translation cache; `saves` is the counter of the images written (R373), `imageKey` the key of this boot's images,
`seals` the ranges that images were written to, newest first, `tables` the table pages of the pool, with the context that has each
(R428), and `dump` the reserved dump region (R379). In a sealed range a cell of `dmem` is held exclusive-or the byte of the image's
block, so that one that no one has written since is not listed. -/
structure Device where
  powered : Bool
  booted : Bool
  recovery : Bool
  fatal : Bool
  fwver : BitVec 32
  rbcnt : Byte
  verif : Bool
  dbgok : Bool
  meas : Vector (BitVec 384) 8
  msel : BitVec 6
  csel : BitVec 4
  time : Word
  cycle : Word
  unsync : Bool
  offset : Int
  ports : Byte
  lostBays : BitVec 64
  clock : Nat
  errors : List Byte
  ls : Mem
  scr : Mem
  dmem : Mem
  lsPoison : List Nat
  scrPoison : List Nat
  devPoison : List Nat
  owners : List (Nat × Owner)
  uncached : List Nat
  tables : List (Nat × Option Nat)
  tensors : List Tensor
  copies : List Copy
  nmus : List NmuJob
  units : List MUnit
  futs : List FutWait
  ctxs : List Context
  nextEng : Nat
  nextSerial : Nat
  saves : Nat
  imageKey : BitVec 256
  seals : List Seal
  scratches : SMap 32
  etabs : SMap 1024
  tlbs : List (Nat × TlbEntry)
  dump : Option (List (Nat × Image) × List Byte)
  out : List Sent
  deriving DecidableEq, Repr

/-- What waits for a CTX instruction on its context (R380, R426): a kill, or a host command; and an EXPORT or IMPORT with its entry
at the tensor's order point (R439). -/
inductive Waiting where
  | kill (ctx reason cause : Nat) (addr : Word)
  | cmd (c : HostCmd)
  | xfer (id : Nat) (c : HostCmd)
  deriving DecidableEq, Repr

/-- The state of the machine. `agenda` holds the moves that the device's other agents and its own queues make next
(notes/assumptions/1.md); `waiting` what waits for a CTX instruction on its context (R380, R426); `tick` numbers the free values drawn so far
(notes/assumptions/4.md); `moved` is the ICOUNT at which a move was last made although the thread could go on
(notes/assumptions/1.md). -/
structure State where
  hart : Hart
  clu : Cluster
  dev : Device
  agenda : List Instr
  waiting : List Waiting
  tick : Nat
  moved : Word
  deriving DecidableEq, Repr

/-- Why a step can stop the machine. -/
inductive Fault where
  /-- `step` raises it when the 48 V input is gone (R442, POWER_LOSS): no state is left to step. Safe: the machine stops. -/
  | unpowered
  deriving DecidableEq, Repr

/-- Why an instruction has no meaning. -/
inductive Refusal where
  /-- raised by an arm of `exec` whose instruction has no meaning yet. Safe: the run stops. -/
  | notModelled (mnemonic : String)
  deriving DecidableEq, Repr

/-! ## Reset -/

/-- An imbalance record before the first release: all zeros (R230). -/
def BarRecord.zero : BarRecord := ⟨0, 0, 0, 0, 0, 0, 0, 0, 0⟩

/-- A barrier slot before a launch loads it (R225, R227). -/
def Slot.reset : Slot := ⟨.idle, 0, 0, 0, 0, 0, .zero, [], .core⟩

/-- An empty segment (R90). -/
def Seg.reset : Seg := ⟨.empty, 0, 0, false⟩

/-- The register files before a launch loads them (R76, R99, R206). DESIGN CHOICE: notes/assumptions/6.md. -/
def Regs.reset : Regs where
  x := .replicate 32 0
  v := .replicate 32 0
  k := .replicate 4 0
  cbank := .replicate 32 0
  xsh := .replicate 8 0
  vsh := .replicate 8 0
  allot := 8

/-- R62, R63, R64, R67, R70, R78: core 0's identity; LFSR is COREID + 1. DESIGN CHOICE: notes/assumptions/6.md. -/
def Arith.reset : Arith :=
  { core := 0, cluster := 0, ctx := 0, nbv := false, frm := 1, fflags := 0, lfsr := 1, satf := true }

/-- R359. -/
def TrapRegs.reset : TrapRegs :=
  { code := 0, op := 0, imp := false, epc := 0, tval := 0, ppm := .u, tip := false, prn := false, uih := false,
    frm := false, hwp := false, tvec := 0, sscratch := 0 }

/-- R208. -/
def Async.reset : Async := { uivec := 0, uicause := 0, uiepc := 0, thr := 0, armed := false, inh := false }

/-- R76, R245. -/
def Superstep.reset : Superstep :=
  { ph := false, count := 0, level := 0, next := 0, phase := 0, released := false, record := .zero }

/-- R261. -/
def TaskRegs.reset : TaskRegs :=
  { launch := 0, member := 0, gsize := 1, gidx := 0, tid := 0, win := 0, qmem := 0, prio := 0, effect := false,
    kpend := false, qm := false, run := false, lastCause := 0, lastHow := 0, ktrap := false, peered := false, heldFrom := 0 }

/-- R390, R403, R405. -/
def Trace.reset : Trace :=
  { ulwin := 0, covered := false, perturb := 0, perturb0 := 0, trcctl := 0, icount := 0, ctr := .replicate 9 0, ring := [], scribe := [] }

/-- R399, R400. -/
def Debug.reset : Debug :=
  { bps := .replicate 8 none, skipBp := false, trapStep := false, wpTrap := none, wpStop := none, stop := none, skid := 0,
    role := 0, stepping := none, stood := none }

/-- A core on which no thread runs. DESIGN CHOICE: notes/assumptions/6.md. -/
def Hart.reset : Hart where
  thread := .idle
  mode := .u
  pc := 0
  regs := .reset
  ar := .reset
  tr := .reset
  ui := .reset
  ss := .reset
  tk := .reset
  tc := .reset
  dbg := .reset
  slots := .replicate 8 .reset
  blast := 0
  nslots := 0
  views := .replicate 16 none
  frame := none
  held := []
  loads := []
  fences := []
  saved := []
  sq := []
  nextSeq := 0
  nextId := 0
  imem := []
  segs := .replicate 16 .reset
  l1 := []
  inbox := []
  tags := []
  mid := .none
  spin := none
  ecall := none
  answer := none
  mfull := false
  blocked := false
  refills := []
  fromRefill := []
  sent := 0
  recv := 0

/-- A matrix unit that no command has reached (R303, R305, R317). DESIGN CHOICE: notes/assumptions/7.md. -/
def MUnit.reset (c : Nat) : MUnit where
  cluster := c
  acc := []
  status := .replicate 4 0
  changed := .replicate 4 0
  drainAddr := .replicate 4 0
  drainCause := .replicate 4 0
  rings := .replicate 8 none
  fctx := []
  queue := []
  wrote := []

/-- A cluster that no launch uses. DESIGN CHOICE: notes/assumptions/7.md. -/
def Cluster.reset : Cluster where
  cm := []
  exp := []
  path := []
  gates := .replicate 12 []
  turn := 0
  tlb := []
  scratch := 0
  lsfoot := 0
  tasks := []
  nextTid := 1
  nextOrder := 0
  joins := []
  mqs := []
  etab := .replicate 8 0
  arrivals := []
  quorums := []
  behind := []
  levels := []
  members := []
  group := []
  hold := []

/-- The device as the board controller releases reset, before any firmware stage has run (R434, R442).
DESIGN CHOICE: notes/assumptions/7.md. -/
def Device.reset : Device where
  powered := true
  booted := false
  recovery := false
  fatal := false
  fwver := 0
  rbcnt := 0
  verif := false
  dbgok := true
  meas := .replicate 8 0
  msel := 0
  csel := 0
  time := 0
  cycle := 0
  unsync := true
  offset := 0
  ports := 0xFF
  lostBays := 0
  clock := 16
  errors := []
  ls := []
  scr := []
  dmem := []
  lsPoison := []
  scrPoison := []
  devPoison := []
  owners := []
  uncached := []
  tables := []
  tensors := []
  copies := []
  nmus := []
  units := []
  futs := []
  ctxs := []
  nextEng := 0
  nextSerial := 0
  saves := 0
  imageKey := 0
  seals := []
  scratches := []
  etabs := []
  tlbs := []
  dump := none
  out := []

/-- The machine right after reset: no context exists, no thread runs, every memory is empty. -/
def State.reset : State where
  hart := .reset
  clu := .reset
  dev := .reset
  agenda := []
  waiting := []
  tick := 0
  moved := 0

end Sys2Proof.Machine
end

