-- ==== Sys2Proof/Machine/Ops.lean ====
section
/-! DEFINITION. The named operations over memory and registers, the walk of R145, the log of R386 and R387, taking an
exception (R358) and returning from it (R362), and what every instruction does when it retires. -/

namespace Sys2Proof.Machine

/-- The outcome of an instruction or a step. -/
abbrev Out := Host.Outcome State Fault Refusal

/-! ## Sparse memories -/

/-- What a key holds: 0 where none is listed. DESIGN CHOICE: notes/assumptions/2.md. -/
def smGet {w : Nat} : SMap w → Nat → BitVec w
  | [], _ => 0
  | (k, v) :: r, a => if a = k then v else if a < k then 0 else smGet r a

/-- A key set, in the canonical form: a key that holds 0 is not listed. -/
def smSet {w : Nat} : SMap w → Nat → BitVec w → SMap w
  | [], a, v => if v = 0 then [] else [(a, v)]
  | (k, u) :: r, a, v =>
    if a < k then (if v = 0 then (k, u) :: r else (a, v) :: (k, u) :: r)
    else if a = k then (if v = 0 then r else (a, v) :: r)
    else (k, u) :: smSet r a v

/-- The keys strictly rise from `lo` on and no entry is 0. -/
def smWfFrom {w : Nat} : Nat → SMap w → Bool
  | _, [] => true
  | lo, (k, v) :: r => decide (lo ≤ k) && v != 0 && smWfFrom (k + 1) r

/-- The canonical form of a memory: keys strictly rise, and no entry holds what an unlisted key reads as.
DESIGN CHOICE: notes/assumptions/2.md. -/
def Memory.wf {w : Nat} (m : SMap w) : Bool := smWfFrom 0 m

/-- `n` bytes from `a` on, lowest address first. -/
def memBytes (m : Mem) (a : Nat) : Nat → List Byte
  | 0 => []
  | n + 1 => smGet m a :: memBytes m (a + 1) n

/-- Bytes stored from `a` on. DESIGN CHOICE: notes/assumptions/2.md. -/
def memPut (m : Mem) (a : Nat) : List Byte → Mem
  | [] => m
  | b :: bs => memPut (smSet m a b) (a + 1) bs

/-- The little-endian value of bytes (R3). -/
def bytesNat : List Byte → Nat
  | [] => 0
  | b :: bs => b.toNat + 256 * bytesNat bs

/-- The `n` little-endian bytes of a value (R3). -/
def natBytes : Nat → Nat → List Byte
  | 0, _ => []
  | n + 1, v => BitVec.ofNat 8 v :: natBytes n (v / 256)

/-- The little-endian value of `n` bytes of memory. -/
def memNat (m : Mem) (a n : Nat) : Nat := bytesNat (memBytes m a n)

/-- Byte `o` of a record held as a list; 0 past its end. -/
def recByte (r : List Byte) (o : Nat) : Nat := (r.getD o 0).toNat
/-- A field of a record held as a list (R3). -/
def recNat (r : List Byte) (o n : Nat) : Nat := bytesNat ((r.drop o).take n)

/-! ## Lists as tables -/

/-- The first index at which a predicate holds. -/
def findIdxFrom {α : Type} (p : α → Bool) : List α → Nat → Option Nat
  | [], _ => none
  | x :: r, i => if p x then some i else findIdxFrom p r (i + 1)

/-- An entry of a list changed. -/
def modAt {α : Type} (l : List α) (i : Nat) (f : α → α) : List α :=
  match l[i]? with
  | some x => l.set i (f x)
  | none => l

/-- Every entry with a property changed. -/
def modWhere {α : Type} (p : α → Bool) (f : α → α) (l : List α) : List α := l.map fun x => if p x then f x else x

/-- The numbers from `a` on, `n` of them. -/
def rangeFrom (a n : Nat) : List Nat := (List.range n).map (a + ·)

/-! ## Updates of the parts of the state -/

/-- The core changed. -/
def onHart (f : Hart → Hart) (s : State) : State := { s with hart := f s.hart }
/-- The cluster changed. -/
def onClu (f : Cluster → Cluster) (s : State) : State := { s with clu := f s.clu }
/-- The device changed. -/
def onDev (f : Device → Device) (s : State) : State := { s with dev := f s.dev }

/-- A context by its number (R16), unless it was killed or has retired. -/
def ctxOf (d : Device) (n : Nat) : Option Context := d.ctxs.find? fun c => c.num == n && c.state != .dead
/-- A context changed. -/
def onCtx (n : Nat) (f : Context → Context) (s : State) : State :=
  onDev (fun d => { d with ctxs := modWhere (fun c => c.num == n && c.state != .dead) f d.ctxs }) s
/-- The context of the core (R78). DEDUCED: notes/assumptions/62.md. -/
def curCtx (s : State) : Option Context := ctxOf s.dev s.hart.ar.ctx
/-- The context of the core changed. -/
def onCur (f : Context → Context) (s : State) : State := onCtx s.hart.ar.ctx f s

/-- A tensor by its handle (R158). -/
def tensorOf (d : Device) (h : Nat) : Option Tensor := d.tensors.find? fun t => t.h == h
/-- A tensor changed. -/
def onTensor (h : Nat) (f : Tensor → Tensor) (s : State) : State :=
  onDev (fun d => { d with tensors := modWhere (fun t => t.h == h) f d.tensors }) s

/-! ## Time (R15): observing it lets a free amount pass -/

/-- Device time and the cycle count advanced by free amounts, as of this observation. DESIGN CHOICE: notes/assumptions/4.md. -/
def passTime (s : State) : State :=
  { s with
    tick := s.tick + 1
    dev := { s.dev with
      time := s.dev.time + wordOf (Config.elapsedNs s.tick)
      cycle := s.dev.cycle + wordOf (Config.elapsedCycles s.tick) } }

/-- Device time has reached a time. -/
def reachTime (t : Nat) (s : State) : State := onDev (fun d => { d with time := if d.time.toNat < t then wordOf t else d.time }) s

/-- The visibility window of the device (R15). -/
def windowOf (t : Word) : Nat := t.toNat / 512

/-! ## Geography (R11, R12, R143) -/

/-- The cluster of a core. -/
def clusterOfCore (n : Nat) : Nat := n / 16
/-- The bay of a core. -/
def bayOfCore (n : Nat) : Nat := n / 128
/-- The die of a core: 14 bays a die. -/
def dieOfCore (n : Nat) : Nat := n / 1792
/-- The die of a cluster. -/
def dieOfCluster (c : Nat) : Nat := c / 112
/-- The stack whose home serves a physical address (R143). -/
def stackOf (pa : Nat) : Nat := pa / 4096 % 12
/-- The die of a stack: three homes a die (R14). -/
def dieOfStack (k : Nat) : Nat := k / 3
/-- The end of physical device memory (R143). -/
def devEnd : Nat := 0x9000000000
/-- The key of an LS byte. -/
def lsKey (core off : Nat) : Nat := core * 0x20000 + off
/-- The key of a scratch byte. -/
def scrKey (cluster off : Nat) : Nat := cluster * 0x400000 + off

/-- Whether a hart is a service core: it is none of the 7,168, lies in no cluster and belongs to no context (R13), so that its
numbers are past theirs. It stays one whatever mode a trap puts it in. DEDUCED: notes/assumptions/62.md. -/
def isService (h : Hart) : Bool := decide (7168 ≤ h.ar.core)

/-- The LS location of the issuing core. -/
def lsLoc (s : State) (off : Nat) : Loc := ⟨.ls s.hart.ar.core, off⟩

/-! ## Sealed ranges (R372, R373) -/

/-- Whether a range of device memory meets a sealed one. -/
def sealMeets (a n : Nat) (x : Seal) : Bool := decide (x.base < a + n) && decide (a < x.base + x.size)

/-- The nonce of a block of an image (R373): the context in 4 bits, the kind in 4, the save counter in 40, the block in 48. -/
def imageNonce (ctx kind count block : Nat) : BitVec 96 :=
  BitVec.ofNat 4 ctx ++ BitVec.ofNat 4 kind ++ BitVec.ofNat 40 count ++ BitVec.ofNat 48 block

/-- What a cell of device memory is held exclusive-or: the byte of the image's block there as it was encrypted, where the last range
written as a whole that holds it is an image; else 0. DESIGN CHOICE: notes/assumptions/65.md. -/
def sealByte (d : Device) (a : Nat) : Byte :=
  match d.seals.find? (sealMeets a 1) with
  | none => 0
  | some x => match x.code with
    | none => 0
    | some (c, k, n) => Config.imageByte d.imageKey (imageNonce c k n ((a - x.base) / 4096)) ((a - x.base) % 4096)

/-- Bytes from an address on as cells, or cells as bytes. -/
def sealFrom (d : Device) : Nat → List Byte → List Byte
  | _, [] => []
  | a, b :: bs => (b ^^^ sealByte d a) :: sealFrom d (a + 1) bs

/-- The same; nothing is to do where nothing is sealed. -/
def sealed (d : Device) (a : Nat) (bs : List Byte) : List Byte := if d.seals.isEmpty then bs else sealFrom d a bs

/-- A range of device memory without listed cells: it holds the blocks of an image, or zeros (`none`).
DESIGN CHOICE: notes/assumptions/65.md. -/
def wipe (code : Option (Nat × Nat × Nat)) (a n : Nat) (d : Device) : Device :=
  { d with
    dmem := d.dmem.filter fun e => decide (e.1 < a) || decide (a + n ≤ e.1)
    seals := if code.isSome || d.seals.any (sealMeets a n) then
        ⟨a, n, code⟩ :: d.seals.filter fun x => !(decide (a ≤ x.base) && decide (x.base + x.size ≤ a + n))
      else d.seals }

/-! ## Bytes at their homes -/

/-- The bytes of a location as its memory holds them: LS, scratch, physical memory or a tensor's element array. -/
def rawBytes (d : Device) (l : Loc) (n : Nat) : List Byte :=
  match l.space with
  | .ls c => memBytes d.ls (lsKey c l.off) n
  | .scr c => memBytes d.scr (scrKey c l.off) n
  | .dev => sealed d l.off (memBytes d.dmem l.off n)
  | .ten h => match tensorOf d h with
    | some t => memBytes t.data l.off n
    | none => List.replicate n 0

/-- The poison granule of a space in bytes (R140). -/
def granule : Space → Nat
  | .dev => 64
  | .ten _ => 64
  | _ => 8

/-- The key of a location among the poisoned granules of its space. -/
def granKey (l : Loc) : Nat :=
  match l.space with
  | .ls c => lsKey c l.off / 8
  | .scr c => scrKey c l.off / 8
  | _ => l.off / 64

/-- The poisoned granules of a location's space. -/
def poisonList (d : Device) : Space → List Nat
  | .ls _ => d.lsPoison
  | .scr _ => d.scrPoison
  | .dev => d.devPoison
  | .ten h => match tensorOf d h with
    | some t => t.poison
    | none => []

/-- The lowest poisoned byte among `n`, as an offset from the first (R140). -/
def poisonAt (d : Device) (l : Loc) (n : Nat) : Option Nat :=
  (List.range n).find? fun i => (poisonList d l.space).contains (granKey { l with off := l.off + i })

/-- Granules taken out of the poison of a space. -/
def clearPoison (d : Device) (sp : Space) (ks : List Nat) : Device :=
  let f := fun (p : List Nat) => p.filter fun k => !ks.contains k
  match sp with
  | .ls _ => { d with lsPoison := f d.lsPoison }
  | .scr _ => { d with scrPoison := f d.scrPoison }
  | .dev => { d with devPoison := f d.devPoison }
  | .ten h => { d with tensors := modWhere (fun t => t.h == h) (fun t => { t with poison := f t.poison }) d.tensors }

/-- The granules that `n` bytes at a location cover whole. -/
def wholeGranules (l : Loc) (n : Nat) : List Nat :=
  let g := granule l.space
  ((List.range n).filter fun i => (l.off + i) % g == 0 && i + g ≤ n).map fun i => granKey { l with off := l.off + i }

/-- Bytes written at a location's memory; a granule written whole loses its poison (R140). -/
def rawPut (d : Device) (l : Loc) (bs : List Byte) : Device :=
  let d := match l.space with
    | .ls c => { d with ls := memPut d.ls (lsKey c l.off) bs }
    | .scr c => { d with scr := memPut d.scr (scrKey c l.off) bs }
    | .dev => { d with dmem := memPut d.dmem l.off (sealed d l.off bs) }
    | .ten h => { d with
        tensors := modWhere (fun t => t.h == h) (fun t => { t with data := memPut t.data l.off bs }) d.tensors }
  if (poisonList d l.space).isEmpty then d else clearPoison d l.space (wholeGranules l bs.length)

/-- LS bytes of the issuing core. -/
def lsBytes (s : State) (off n : Nat) : List Byte := rawBytes s.dev (lsLoc s off) n

/-! ## The walk (R145, R146, R147) -/

/-- What a leaf gives: the physical address, its policy and its permissions. -/
structure Leaf where
  pa : Nat
  unc : Bool
  u : Bool
  x : Bool
  w : Bool
  r : Bool
  deriving DecidableEq, Repr

/-- The owner tag of a frame (R143). -/
def ownerOf (d : Device) (frame : Nat) : Option Owner := (d.owners.find? fun p => p.1 == frame).map (·.2)

/-- Whether a walk for a context may read a table in this frame (R146). -/
def tableOk (d : Device) (ctx frame : Nat) : Bool :=
  match ownerOf d frame with
  | some .joiner => false
  | some (.ctx n) => n == ctx
  | _ => true

/-- The size of a leaf at a level (R145). -/
def leafSize : Nat → Option Nat
  | 2 => some (2 ^ 30)
  | 3 => some (2 ^ 21)
  | 4 => some (2 ^ 16)
  | _ => none

/-- The index of an address at a level (R145). -/
def walkIndex (va lvl : Nat) : Nat := if lvl = 4 then va / 2 ^ 16 % 32 else va / 2 ^ (48 - 9 * lvl) % 512

/-- The rest of a walk from the table `t` at level `5 - fuel` (R145); none is Translation. -/
def walkFrom (d : Device) (ctx va : Nat) : Nat → Nat → Option Leaf
  | 0, _ => none
  | fuel + 1, t =>
    let lvl := 4 - fuel
    if !tableOk d ctx (t / 65536) then none else
    let e := bytesNat (rawBytes d ⟨.dev, t + 8 * walkIndex va lvl⟩ 8)
    let pol := e / 2 ^ 40 % 4
    let adr := e / 2 ^ 12 % 2 ^ 28 * 2 ^ 12
    if e % 2 = 0 || e / 2 ^ 42 != 0 || e / 2 ^ 6 % 64 != 0 then none
    else if e / 32 % 2 = 0 then
      if lvl = 4 || pol != 0 || e / 2 % 16 != 0 then none else walkFrom d ctx va fuel adr
    else match leafSize lvl with
      | none => none
      | some sz =>
        let pa := adr + va % sz
        if adr % sz != 0 || pol > 1 || pa ≥ devEnd then none
        else some ⟨pa, pol == 1, e / 16 % 2 == 1, e / 8 % 2 == 1, e / 4 % 2 == 1, e / 2 % 2 == 1⟩

/-- The walk of R145 for a context. -/
def walk (d : Device) (ctx va : Nat) : Option Leaf :=
  match ctxOf d ctx with
  | none => none
  | some c => walkFrom d ctx va 4 c.root

/-! ## The undo log (R386 to R391) -/

/-- A 32-byte entry header (R388). -/
def logHeader (e : LogEntry) : List Byte :=
  natBytes 1 e.kind ++
  natBytes 1 ((if e.pay then 1 else 0) + (if e.eng then 2 else 0) + (if e.done then 4 else 0)) ++
  natBytes 2 e.win.toNat ++ natBytes 2 e.core ++ natBytes 2 e.size ++ natBytes 8 e.addr.toNat ++
  natBytes 8 (if e.pay then e.elem else bytesNat e.old) ++ natBytes 8 e.icount.toNat

/-- Bytes of one page written by the device itself into a context's space, where their address translates. -/
def putPage (d : Device) (ctx va : Nat) (bs : List Byte) : Device :=
  match walk d ctx va with
  | some l => rawPut d ⟨.dev, l.pa⟩ bs
  | none => d

/-- The bytes from an address to the end of its page: no leaf is smaller than 64 KiB (R145). -/
def pageRest (va : Nat) : Nat := 65536 - va % 65536

/-- Bytes, at most a page of them, written by the device itself into a context's space at a device virtual address: each at the
address that its own page translates to. -/
def putVa (d : Device) (ctx va : Nat) (bs : List Byte) : Device :=
  let k := pageRest va
  putPage (putPage d ctx va (bs.take k)) ctx (va + k) (bs.drop k)

/-- Bytes of one page of a context's space, read at the home. -/
def getPage (d : Device) (ctx va n : Nat) : List Byte :=
  match walk d ctx va with
  | some l => rawBytes d ⟨.dev, l.pa⟩ n
  | none => List.replicate n 0

/-- Bytes, at most a page of them, of a context's space at a device virtual address, read at the home. -/
def getVa (d : Device) (ctx va n : Nat) : List Byte :=
  let k := min n (pageRest va)
  getPage d ctx va k ++ getPage d ctx (va + k) (n - k)

/-- The bytes an entry takes (R387). -/
def logSize (pay : Bool) : Nat := if pay then 160 else 32

/-- Whether a window is one of those from `lo` to `hi` (R266, R389). -/
def inWindows (lo hi w : BitVec 16) : Bool := decide ((w - lo).toNat ≤ (hi - lo).toNat)

/-- HEAD moved over the freed entries in front of it (R387). -/
def logAdvance (c : Context) : Context :=
  let rest := c.log.dropWhile (·.freed)
  { c with
    log := rest, logHead := match rest with | [] => c.logTail | e :: _ => e.pos
    gone := if c.mode = 2 then
        c.gone ++ ((c.log.takeWhile (·.freed)).filter fun e => e.kind != 0 && !e.done).map fun e => (e.core, e.icount)
      else c.gone }

/-- Whether an entry's task has retired with HOW = 1 while the write was under way: the entry is freed as it is appended (R387). -/
def bornFreed (c : Context) (e : LogEntry) : Bool :=
  (c.mode == 1 || c.mode == 3) && e.kind != 8 && c.retired.any fun r => r.1 == e.core && inWindows r.2.1 r.2.2 e.win

/-- An entry appended at TAIL, after a filler where it would cross the end of the area (R387), and written to the area.
DEDUCED: notes/assumptions/91.md. -/
def logAppend (n : Nat) (e : LogEntry) (s : State) : State :=
  match ctxOf s.dev n with
  | none => s
  | some c =>
    let size := 2 ^ c.log2sz
    let sz := logSize e.pay
    let fill := if c.logTail % size + sz > size then size - c.logTail % size else 0
    let pos := c.logTail + fill
    let e := { e with pos := pos, freed := e.freed || bornFreed c e }
    let filler : LogEntry := { e with pos := c.logTail, kind := 0, pay := false, freed := true, old := [], size := 0 }
    let d := if fill = 0 then s.dev
      else putVa s.dev n (c.logBase.toNat + c.logTail % size) (List.replicate 32 0)
    let d := putVa d n (c.logBase.toNat + pos % size)
      (logHeader e ++ if e.pay then e.old ++ List.replicate (128 - e.old.length) 0 else [])
    onCtx n (fun c =>
      let x := { c with
        log := c.log ++ (if fill = 0 then [] else [filler]) ++ [e]
        logTail := pos + sz
        ulRsv := c.ulRsv || decide (pos + sz - c.logHead > size - size / 16) }
      if e.freed then logAdvance x else x) { s with dev := d }

/-- Whether the log of a context covers a write made in its window (R385): every write in DEBUG mode, and those of a
covered window in TASK and CHECKPOINT modes. -/
def logCovers (s : State) (n : Nat) (covered : Bool) : Bool :=
  match ctxOf s.dev n with
  | none => false
  | some c => c.mode == 2 || ((c.mode == 1 || c.mode == 3) && covered)

/-- The log counter of R405 advanced, for an entry appended for the core. -/
def countLog (core : Nat) (s : State) : State :=
  if core = s.hart.ar.core then
    onHart (fun h => { h with tc := { h.tc with ctr := h.tc.ctr.set 8 (h.tc.ctr[8] + 1) } }) s
  else s

/-- The largest space that the entries of a request may need (R386, R391). -/
def entryNeed (op : StoreOp) (l : Loc) : Nat :=
  let ten := match l.space with | .ten _ => true | _ => false
  match op with
  | .store bs _ => if ten || bs.length > 8 then 160 else 32
  | .strl _ _ => if ten then 160 else 32
  | .rmw _ _ _ _ _ _ => if ten then 160 else 32
  | .fe .read _ _ _ | .fe .peek _ _ _ => 0
  | .fe _ _ _ _ => 160
  | .zline | .discard | .tste _ _ _ _ => 160
  | _ => 0

/-- The requests on the cluster's paths and in the window gates (R183, R187). -/
def paths (s : State) : List StoreReq := s.clu.path ++ s.clu.gates.toList.flatten

/-- The lanes of a VSCAT that wait for the store queue (R153). -/
def scatterRest (h : Hart) : List StoreReq := match h.mid with | .scatter l => l | _ => []

/-- The bytes reserved by what has issued and is not performed (R391): a .LU load with its coverage at issue (R386). -/
def reservedBytes (s : State) (n : Nat) : Nat :=
  ((s.hart.sq ++ scatterRest s.hart ++ paths s).foldl (fun acc r =>
    if r.org.ctx == n && logCovers s n r.org.cov && !r.org.logged then acc + entryNeed r.op r.loc else acc) 0) +
  160 * (s.dev.futs.filter fun w => match w with
    | .parked _ take _ _ o => take && o.ctx == n && logCovers s n o.cov
    | .reg _ _ => false).length +
  160 * (s.hart.loads.filter fun r =>
    r.point == .lastUse && r.region == .wb && r.org.ctx == n && logCovers s n r.org.cov).length

/-- The filler that entries of `n` bytes from TAIL on may need where they reach the end of the area (R387, R391). -/
def fillerNeed (c : Context) (n : Nat) : Nat := if 2 ^ c.log2sz < c.logTail % 2 ^ c.log2sz + n then 128 else 0

/-- Whether entries of `n` bytes, and those reserved, fit with their filler into the first `top` bytes of the area (R391). -/
def logFits (s : State) (c : Context) (top n : Nat) : Bool :=
  let all := reservedBytes s c.num + n
  decide (c.logTail - c.logHead + all + fillerNeed c all ≤ top)

/-- What a reservation may use of the area: the last 1/16 is kept in reserve (R391). DEDUCED: notes/assumptions/91.md. -/
def logTop (c : Context) : Nat := 2 ^ c.log2sz - 2 ^ c.log2sz / 16

/-- Whether DROP_OLDEST must keep an entry: one of a live member task's windows, or an interval line entry (R391). -/
def keptEntry (s : State) (e : LogEntry) : Bool :=
  e.kind == 8 || s.clu.joins.any fun j => j.markers.any fun m => m.core == e.core && inWindows m.lo m.hi e.win

/-- Entries freed from HEAD onward until `need` bytes fit, or none that may be freed is left (R391). -/
def dropOldest (s : State) (need : Nat) : List LogEntry → Context → Context
  | [], c => c
  | e :: r, c =>
    if logFits s c (logTop c) need then c
    else if e.freed || keptEntry s e then dropOldest s need r c
    else dropOldest s need r
      { logAdvance { c with log := modWhere (fun x => x.pos == e.pos) (fun x => { x with freed := true }) c.log } with
        ulDropped := true, droppedN := c.droppedN + 1 }

/-- Under DROP_OLDEST, entries of the core's context freed for a reservation; freed entries stay freed where it still does not
fit (R391). -/
def freeOldest (need : Nat) (s : State) : State :=
  match curCtx s with
  | some c => if c.policy = 1 && !logFits s c (logTop c) need then onCur (fun _ => dropOldest s need c.log c) s else s
  | none => s

/-- R391: a reservation made for the core's context, freeing entries under DROP_OLDEST; none is one that does not fit.
DEDUCED: notes/assumptions/91.md. -/
def reserveLog (need : Nat) (s : State) : Option State :=
  if need = 0 then some s else
  match curCtx s with
  | none => some s
  | some c =>
    if logFits s c (logTop c) need then some s
    else
      let s := freeOldest need s
      match curCtx s with
      | some c => if logFits s c (logTop c) need then some s else none
      | none => none

/-! ## Registers -/

/-- Whether a name 24 to 31 names the shadow bank (R101, R206). -/
def inShadow (h : Hart) (r : BitVec 5) : Bool := h.ui.inh && decide (24 ≤ r.toNat)

/-- A scalar register: x0 reads zero (R75); x24 to x31 name the shadow bank in a handler (R206). -/
def xr (s : State) (r : Reg) : Word :=
  if r = 0 then 0
  else if inShadow s.hart r then s.hart.regs.xsh[r.toNat % 8]'(by omega)
  else s.hart.regs.x[r.toNat]'(by omega)

/-- A scalar register written: a write to x0 is discarded (R75). -/
def setX (r : Reg) (v : Word) (s : State) : State :=
  if r = 0 then s
  else if inShadow s.hart r then
    onHart (fun h => { h with regs := { h.regs with xsh := h.regs.xsh.set (r.toNat % 8) v (by omega) } }) s
  else onHart (fun h => { h with regs := { h.regs with x := h.regs.x.set r.toNat v (by omega) } }) s

/-- A vector register (R98, R101). -/
def vr (s : State) (r : VReg) : VWord :=
  if inShadow s.hart r then s.hart.regs.vsh[r.toNat % 8]'(by omega) else s.hart.regs.v[r.toNat]'(by omega)

/-- A vector register written. -/
def setV (r : VReg) (v : VWord) (s : State) : State :=
  if inShadow s.hart r then
    onHart (fun h => { h with regs := { h.regs with vsh := h.regs.vsh.set (r.toNat % 8) v (by omega) } }) s
  else onHart (fun h => { h with regs := { h.regs with v := h.regs.v.set r.toNat v (by omega) } }) s

/-- A mask register: k0 reads as all ones (R23). -/
def kr (s : State) (q : MSel) : MWord :=
  if q = 0 then BitVec.allOnes 128 else s.hart.regs.k[q.toNat]'(by omega)

/-- A mask register written; k0 is never a destination (R35). -/
def setK (q : MSel) (v : MWord) (s : State) : State :=
  if q = 0 then s else onHart (fun h => { h with regs := { h.regs with k := h.regs.k.set q.toNat v (by omega) } }) s

/-- A constant-bank entry (R24, R102). -/
def cbank (s : State) (e : BitVec 5) : Word := s.hart.regs.cbank[e.toNat]'(by omega)

/-- Whether a vector name lies at or above the allotment (R100, R101). -/
def refused (s : State) (r : VReg) : Bool := !inShadow s.hart r && decide (s.hart.regs.allot ≤ r.toNat)

/-- Sticky flags set (R64). -/
def setFlags (f : Nat) (s : State) : State :=
  onHart (fun h => { h with ar := { h.ar with fflags := h.ar.fflags ||| BitVec.ofNat 6 f } }) s

/-- The program counter set. -/
def setPc (a : IAddr) (s : State) : State := onHart (fun h => { h with pc := a }) s

/-! ## Killing a context (R378) -/

/-- The 64-byte kill record (R378). -/
def killRecord (reason cause core interval : Nat) (time addr : Word) (orphaned unret : Nat) : List Byte :=
  natBytes 1 reason ++ natBytes 1 cause ++ natBytes 2 core ++ natBytes 4 interval ++ natBytes 8 time.toNat ++
  natBytes 8 addr.toNat ++ natBytes 4 orphaned ++ natBytes 4 unret ++ List.replicate 32 0

/-- The core without a thread: what the thread held is gone, LS and instruction memory with it. -/
def emptyHart (h : Hart) : Hart :=
  { Hart.reset with
    ar := { Arith.reset with core := h.ar.core, cluster := h.ar.cluster, ctx := h.ar.ctx }
    nextSeq := h.nextSeq, nextId := h.nextId }

/-- Whether the core belongs to a context: a service core belongs to none (R13).
DEDUCED: notes/assumptions/62.md. -/
def inContext (h : Hart) (n : Nat) : Bool := h.ar.ctx == n && !isService h

/-- The number that a core holds while no context owns it, and a service core always: no context has it (R13, R16).
DEDUCED: notes/assumptions/62.md. -/
def noCtx : Nat := 16

/-- Whether a bay belongs to a context. -/
def hasBay (c : Context) (bay : Nat) : Bool := c.bays.getLsbD bay

/-- The bytes of one image (R372). -/
def imageSize (c : Context) : Nat :=
  let bays := ((List.range 56).filter (hasBay c)).length
  bays * (128 * 384 * 1024 + 8 * 4608 * 1024) + 1024 * 1024

/-- Whether an address lies in `n` images of a context's save area from image `from_` on (R372).
DESIGN CHOICE: notes/assumptions/65.md. -/
def inSave (c : Context) (from_ n a : Nat) : Bool :=
  decide (c.save + from_ * imageSize c ≤ a) && decide (a < c.save + (from_ + n) * imageSize c)

/-- The device memory of a context whose key is erased: nobody reads again what its frames, its tables, its root table and its save
area held (R438); they are as memory that nothing has written. The pool's pages are free again. DEDUCED: notes/assumptions/63.md. -/
def eraseKey (c : Context) (d : Device) : Device :=
  let frames := d.owners.filterMap fun p => if p.2 == .ctx c.num then some (p.1 * 65536, 65536) else none
  let pages := d.tables.filterMap fun p => if p.2 == some c.num then some (p.1, 4096) else none
  let d := (frames ++ pages ++ [(c.root, 4096), (c.save, 2 * imageSize c)]).foldl (fun d r => wipe none r.1 r.2 d) d
  { d with tables := d.tables.map fun p => if p.2 == some c.num then (p.1, none) else p }

/-- A context stopped for good: its cores stop, its bays, frames and key are gone, and the host receives the kill record.
DEDUCED: notes/assumptions/63.md. -/
def killContext (n reason cause : Nat) (core : Option Nat) (addr : Word) (s : State) : State :=
  match ctxOf s.dev n with
  | none => s
  | some c =>
    let r := killRecord reason cause (core.getD 0xFFFF) c.interval s.dev.time addr c.orphaned c.unret
    let d := { eraseKey c s.dev with
      out := s.dev.out ++ [.kill n r]
      copies := s.dev.copies.filter fun k => k.ctx != n
      nmus := s.dev.nmus.filter fun k => k.ctx != n
      units := s.dev.units.filter fun u => !c.bays.getLsbD (u.cluster / 8)
      tensors := s.dev.tensors.filter fun t => t.ctx != n
      owners := s.dev.owners.filter fun p => p.2 != .ctx n
      futs := if inContext s.hart n then [] else s.dev.futs
      ctxs := modWhere (fun k => k.num == n && k.state != .dead) (fun k => { k with state := .dead, key := none }) s.dev.ctxs }
    if inContext s.hart n then
      { s with
        dev := d, clu := .reset
        hart := { emptyHart s.hart with ar := { (emptyHart s.hart).ar with ctx := noCtx } } }
    else { s with dev := d }

/-! ## Traps (R358 to R362) -/

/-- The causes a hart takes (R360). -/
inductive Cause where
  | illegalInstruction | illegalRegister | misaligned | translation | protection | aliasPolicy | phase
  | wideningRequest | codeNotLanded | futureOrder | poison | watchpoint | breakpoint | step | kill | logFull | ecall
  | preempt
  deriving DecidableEq, Repr

/-- The code of a cause (R360). -/
def causeCode : Cause → Byte
  | .illegalInstruction => 0x01
  | .illegalRegister => 0x02
  | .misaligned => 0x03
  | .translation => 0x04
  | .protection => 0x05
  | .aliasPolicy => 0x06
  | .phase => 0x07
  | .wideningRequest => 0x08
  | .codeNotLanded => 0x0A
  | .futureOrder => 0x0B
  | .poison => 0x0C
  | .watchpoint => 0x0D
  | .breakpoint => 0x0E
  | .step => 0x0F
  | .kill => 0x10
  | .logFull => 0x12
  | .ecall => 0x13
  | .preempt => 0x14

/-- The depth of handlers: the windows opened now count at it (R39). DEDUCED: notes/assumptions/12.md. -/
def depthOf (h : Hart) : Nat := h.saved.length

/-- The trap registers as a trap sets them (R358, R359). PPM has no value for M (R6), so a trap taken in M keeps it.
DEDUCED: notes/assumptions/90.md. -/
def trapRegs (h : Hart) (code : Byte) (tval : Word) (epc : IAddr) (op : Nat) (imp : Bool) : TrapRegs :=
  { h.tr with
    code := code, op := BitVec.ofNat 4 op, imp := imp, epc := epc &&& 0xFFFC, tval := tval
    ppm := if h.mode = .m then h.tr.ppm else h.mode
    uih := h.ui.inh, tip := true, frm := h.frame.isSome, hwp := h.held.any fun w => w.depth == depthOf h }

/-- The core inside the handler, with the frame, the fences and a held instruction's progress saved (R42, R196).
DEDUCED: notes/assumptions/90.md. -/
def enterTrap (h : Hart) (t : TrapRegs) (epc : IAddr) : Hart :=
  { h with
    tr := t
    saved := ⟨false, epc, h.frame, h.fences, if h.mid = .ecall then .none else h.mid⟩ :: h.saved
    frame := none, fences := [], mid := .none, spin := none, mfull := false, blocked := false, ecall := none, answer := none
    dbg := { h.dbg with skipBp := false }
    mode := .s
    pc := h.tr.tvec &&& 0xFFC }

/-- R358: a trap is taken, in one step. With TIP set the context is killed with reason "double trap" (R378). -/
def takeTrap (code : Byte) (tval : Word) (epc : IAddr) (op : Nat) (imp : Bool) (s : State) : State :=
  let t := trapRegs s.hart code tval epc op imp
  if s.hart.tr.tip then
    onHart (fun h => { h with thread := .idle })
      (killContext s.hart.ar.ctx 2 code.toNat (some s.hart.ar.core) tval (onHart (fun h => { h with tr := t }) s))
  else onHart (fun h => enterTrap h t epc) s

/-- A trap of the instruction at the program counter. DEDUCED: notes/assumptions/25.md. -/
def trap (c : Cause) (tval : Word) (s : State) : Out := .next (takeTrap (causeCode c) tval s.hart.pc 0 false s)

/-- Widening Request: the handle in TVAL and the operation's bit in OP (R174). -/
def trapWiden (h : Word) (op : Nat) (s : State) : Out :=
  .next (takeTrap (causeCode .wideningRequest) h s.hart.pc op false s)

/-- A trap whose EPC is the next instruction and which is not precise (R140, R400). -/
def trapImprecise (c : Cause) (tval : Word) (s : State) : State := takeTrap (causeCode c) tval s.hart.pc 0 true s

/-- Illegal Instruction for a word (R43, R49, R50). -/
def illegal (w : IWord) (s : State) : Out := trap .illegalInstruction (w.setWidth 64) s

/-- Illegal Register: the word as executed and the refused name (R43). -/
def illegalReg (w : IWord) (r : VReg) (s : State) : Out :=
  trap .illegalRegister ((r.setWidth 64 <<< 32) ||| w.setWidth 64) s

/-- The first refused name, in the order given (R43, R100). -/
def firstRefused (s : State) : List VReg → Option VReg
  | [] => none
  | r :: rs => if refused s r then some r else firstRefused s rs

/-- A hold at issue: the instruction has had no effect and waits. -/
def hold (s : State) : Out := .next s

/-- A hold whose cycles a counter of R405 counts: by a free amount. DESIGN CHOICE: notes/assumptions/4, 31. -/
def holdCounted (i : Fin 9) (s : State) : Out :=
  .next { s with
    tick := s.tick + 1
    hart := { s.hart with tc := { s.hart.tc with
      ctr := s.hart.tc.ctr.set i (s.hart.tc.ctr[i] + wordOf (Config.stallCycles s.tick)) } } }

/-- A stall for the scribe, counted in PERTURB (R401).
DESIGN CHOICE: notes/assumptions/31.md; DEDUCED: notes/assumptions/97.md. -/
def scribeStall (s : State) : State :=
  { s with
    tick := s.tick + 1
    hart := { s.hart with tc := { s.hart.tc with perturb := s.hart.tc.perturb + wordOf (Config.stallCycles s.tick) } } }

/-- A hold for the scribe. DESIGN CHOICE: notes/assumptions/31.md; DEDUCED: notes/assumptions/97.md. -/
def holdScribe (s : State) : Out := .next (scribeStall s)

/-! ## Acquires (R192) -/

/-- The acquire moves of a scope: the L1 is dropped from cluster scope on; from bay scope on the cluster's clean device
lines and the expander's copies too, and the bytes of dirty lines that are not dirty. Update-only lines are neither clean nor
valid. -/
def acquireMoves (sc : Scope) (s : State) : State :=
  match sc with
  | .core => s
  | .clu => onHart (fun h => { h with l1 := [] }) s
  | _ =>
    onClu (fun c => { c with
      exp := []
      cm := (c.cm.filter fun l => l.dirty != 0 || l.uo.isSome).map fun l => { l with valid := l.dirty } })
      (onHart (fun h => { h with l1 := [] }) s)

/-! ## Held writes (R38, R39, R66) -/

/-- The value of a vector register under a held write: its own lanes over the register as it stands (R23, R115, R152). -/
def landValue (w : Held) (old : VWord) : VWord := (old &&& ~~~w.lanes) ||| (w.val &&& w.lanes)

/-- The register a held write names, in the bank it names it in. -/
def landDst (w : Held) (s : State) : State :=
  match w.dst with
  | .none => s
  | .x r =>
    let v := w.val.setWidth 64
    if r = 0 then s
    else if w.shadow then
      onHart (fun h => { h with regs := { h.regs with xsh := h.regs.xsh.set (r.toNat % 8) v (by omega) } }) s
    else onHart (fun h => { h with regs := { h.regs with x := h.regs.x.set r.toNat v (by omega) } }) s
  | .v r =>
    if w.shadow then
      onHart (fun h => { h with regs := { h.regs with
        vsh := h.regs.vsh.set (r.toNat % 8) (landValue w h.regs.vsh[r.toNat % 8]) (by omega) } }) s
    else if s.hart.regs.allot ≤ r.toNat then s   -- released by VSHRINK meanwhile (R127)
    else onHart (fun h => { h with regs := { h.regs with
      v := h.regs.v.set r.toNat (landValue w h.regs.v[r.toNat]) (by omega) } }) s

/-- The FFLAGS that the ring's later entries restore keep the flags of a held write that lands: a reverse step of a later
instruction leaves them as they stand (R393). -/
def landRing (w : Held) (h : Hart) : Hart :=
  if w.flags = 0 then h else
  let later := fun (e : RingEntry) => e.reg == 68 && decide (w.icount.toNat + 1 < e.icount.toNat)
  let r := modWhere later (fun e => { e with old := e.old ||| w.flags.setWidth 64 }) h.tc.ring
  { h with tc := { h.tc with ring := r } }

/-- A held write lands: its register, its flags (R66), and a view's binding (R180). DEDUCED: notes/assumptions/13.md. -/
def landHeld (w : Held) (s : State) : State :=
  let s := onHart (landRing w) (setFlags w.flags.toNat (landDst w s))
  match w.bind with
  | some (i, b) => onHart (fun h => { h with views := h.views.setIfInBounds i b }) s
  | none => s

/-- Whether two held writes name the same register. DEDUCED: notes/assumptions/13.md. -/
def sameDst (a b : Held) : Bool := a.dst == b.dst && a.dst != .none && (a.shadow == b.shadow)

/-- Whether a held write stands still: its window is open in a thread that a handler has interrupted (R39). -/
def frozen (h : Hart) (w : Held) : Bool := decide (w.depth < depthOf h) && decide (0 < w.left)

/-- Whether held write `i` may land: its window has closed, its value has arrived, and no earlier held write of the same register
stands before it (R38.3, R38.4). A handler's write does not wait for a frozen one of the thread that it has interrupted, which lands
after it (R39). DEDUCED: notes/assumptions/12.md. -/
def canLand (h : Hart) (i : Nat) : Bool :=
  match h.held[i]? with
  | none => false
  | some w => w.left == 0 && w.missing == 0 &&
      (h.held.take i).all fun e => (frozen h e && decide (e.depth < w.depth)) || !sameDst e w

/-- The windows of the current depth counted down by one instruction (R38, R39). DEDUCED: notes/assumptions/12.md. -/
def countWindows (h : Hart) (n : Nat) : Hart :=
  { h with held := h.held.map fun w => if w.depth == depthOf h && w.id < n && w.left > 0 then { w with left := w.left - 1 } else w }

/-! ## Retiring (R42, R75, R368, R392, R400) -/

/-- A vector value's place in the log: a KIND 7 entry with a payload (R388, R392), of an instruction that issued in the window
`win`. -/
def logValue (v : VWord) (size : Nat) (win : BitVec 16) (s : State) : State :=
  let h := s.hart
  countLog h.ar.core (logAppend h.ar.ctx
    { pos := 0, cvp := false, kind := 7, eng := false, pay := true, done := false, freed := false, win := win, core := h.ar.core,
      addr := 0, loc := ⟨.dev, 0⟩, old := natBytes size v.toNat, size := size, elem := 0, icount := h.tc.icount + 1 } s)

/-- The old value of a register by its REG code, and its size in the log if it is a payload (R392). -/
def regOld (s : State) (code : Nat) : VWord × Nat :=
  if code < 32 then ((xr s (BitVec.ofNat 5 code)).setWidth 1024, 0)
  else if code < 64 then (vr s (BitVec.ofNat 5 code), 128)
  else if code < 68 then ((kr s (BitVec.ofNat 2 code)).setWidth 1024, 16)
  else if code = 68 then (s.hart.ar.fflags.setWidth 1024, 0)
  else if code = 69 then (s.hart.ar.lfsr.setWidth 1024, 0)
  else if code = 71 then (s.hart.ar.frm.setWidth 1024, 0)
  else if code = 72 then ((if s.hart.ar.satf then 1 else 0), 0)
  else (0, 0)

/-- The length of the longest window that an instruction opened (R38). -/
def openedSpan (s0 s : State) : Nat :=
  (s.hart.held.filter fun w => decide (s0.hart.nextId ≤ w.id)).foldl (fun n w => max n w.left) 0

/-- The cycle in which an instruction retires: one at most retires in each (R75). -/
def passCycle (s : State) : State := let s := passTime s; onDev (fun d => { d with cycle := d.cycle + 1 }) s

/-- The cycles since a context was created (R392, R398). -/
def cycleOf (s : State) (n : Nat) : Word :=
  match ctxOf s.dev n with
  | some c => s.dev.cycle - c.born
  | none => s.dev.cycle

/-- One entry pushed on the reverse ring with a register's value in `s0`; the oldest of 4,096 is overwritten. The window is the
one in which the instruction issued (R389, R396). DEDUCED: notes/assumptions/51.md. -/
def ringPush (s0 : State) (pc : IAddr) (code : Nat) (first kill : Bool) (s : State) : State :=
  let (v, size) := regOld s0 code
  let s1 := if size = 0 then s else logValue v size s0.hart.tc.ulwin s
  let pay := if size = 0 then none else (ctxOf s1.dev s.hart.ar.ctx).bind fun c => c.log.getLast?.map (·.pos)
  let e : RingEntry :=
    { old := v.setWidth 64, pay := pay, cyc := cycleOf s s.hart.ar.ctx, pc := pc, reg := code, first := first, kill := kill
      icount := s.hart.tc.icount + 1, win := s0.hart.tc.ulwin, span := openedSpan s0 s, framed := s0.hart.frame.isSome
      traced := s0.hart.tc.scribe != s.hart.tc.scribe, stalled := s.hart.tc.perturb0 != s.hart.tc.perturb }
  onHart (fun h => { h with tc := { h.tc with ring := ((h.tc.ring ++ [e]).drop (h.tc.ring.length + 1 - 4096)) } }) s1

/-- Entries pushed in order, the first with FIRST set. -/
def ringPushAll (s0 : State) (pc : IAddr) (kill : Bool) : List Nat → Bool → State → State
  | [], _, s => s
  | c :: cs, first, s => ringPushAll s0 pc kill cs false (ringPush s0 pc c first (kill && first) s)

/-- The registers that an instruction changed beside its destination: FFLAGS, LFSR, FRM and SATF (R392). -/
def changedRegs (a b : Arith) : List Nat :=
  (if a.fflags = b.fflags then [] else [68]) ++ (if a.lfsr = b.lfsr then [] else [69]) ++
  (if a.frm = b.frm then [] else [71]) ++ (if a.satf = b.satf then [] else [72])

/-- The reverse ring's record of a retired instruction in DEBUG mode (R392): `regs` are its destinations. -/
def ringRecord (s0 : State) (regs : List Nat) (kill : Bool) (s : State) : State :=
  match curCtx s with
  | some c =>
    if c.mode == 2 then
      -- a held write that brings flags has FFLAGS restored with its destination (R393)
      let late := s.hart.held.any fun w => decide (s0.hart.nextId ≤ w.id) && w.flags != 0
      let fl := changedRegs s0.hart.ar s.hart.ar
      let l := (regs.filter (· != 0)) ++ (if late && !fl.contains 68 then [68] else []) ++ fl
      ringPushAll s0 s0.hart.pc kill (if l.isEmpty then [70] else l) true (passCycle s)
    else s
  | none => s

/-- The program counter and frame after an instruction that does not change the flow (R42, R75). -/
def advance (h : Hart) : Hart :=
  match h.frame with
  | none => { h with pc := h.pc + 4 }
  | some f =>
    if f.i + 1 < f.len then { h with pc := h.pc + 4, frame := some { f with i := f.i + 1 } }
    else if f.j + 1 < f.reps then { h with pc := f.addr + 4, frame := some { f with i := 0, j := f.j + 1 } }
    else { h with pc := f.addr + BitVec.ofNat 16 (4 * (f.len + 1)), frame := none }

/-- R253: an effect instruction issued in the thread's task. -/
def markEffect (s : State) : State :=
  onHart (fun h => { h with tk := { h.tk with effect := h.tk.effect || h.tk.run } }) s

/-- An instruction retired under a DEBUG STEP (R399). -/
def countStep (d : Debug) : Debug :=
  { d with skipBp := false, stepping := d.stepping.map fun x => { x with left := x.left - 1, made := x.made + 1 } }

/-- What every retired instruction records, whose state before it is `s0`: the reverse ring, the windows and ICOUNT. -/
def tally (s0 : State) (regs : List Nat) (kill : Bool) (s : State) : State :=
  onHart (fun h => { countWindows h s0.hart.nextId with
    tc := { h.tc with icount := h.tc.icount + 1, perturb0 := h.tc.perturb }, dbg := countStep h.dbg, blocked := false })
    (ringRecord s0 regs kill s)

/-- The Step trap of R400 after an instruction retired in U mode; `s` holds the next program counter already. -/
def stepTrap (s0 s : State) : State :=
  if s.hart.dbg.trapStep && s0.hart.mode == .u then
    takeTrap (causeCode .step) s.hart.tc.icount s.hart.pc 0 false s
  else s

/-- What every retired instruction does, whose state before it is `s0`. -/
def retired (s0 : State) (regs : List Nat) (kill : Bool) (s : State) : State := stepTrap s0 (tally s0 regs kill s)

/-- R391: an instruction whose log entries need `need` bytes reserves them at issue and goes on, or it waits, or under
policy TRAP it raises Log Full. `s0` is the state before it. -/
def withLog (s0 : State) (need : Nat) (s : State) (k : State → Out) : Out :=
  match reserveLog need s with
  | some s => k s
  | none => match curCtx s with
    | some c => if c.policy = 2 then trap .logFull (wordOf need) s0 else holdCounted 7 (freeOldest need s0)
    | none => hold s0

/-- The marker of the member that runs on a core extended to a window (R266). -/
def extendMarker (core : Nat) (lo w : BitVec 16) (j : Join) : Join :=
  { j with markers := modWhere (fun m => m.core == core && m.lo == lo) (fun m => { m with hi := w }) j.markers }

/-- A window opened (R389): its number is the context's next. `mark` covers it (R404); a member task covers every window its
core opens (R266). -/
def openWindow (mark : Bool) (s : State) : State :=
  match curCtx s with
  | none => s
  | some c =>
    let member := s.hart.tk.run && s.hart.tk.qm
    let s := if member then
        onClu (fun u => { u with joins := u.joins.map (extendMarker s.hart.ar.core s.hart.tk.win c.winNext) }) s
      else s
    onCur (fun c => { c with winNext := c.winNext + 1 })
      (onHart (fun h => { h with tc := { h.tc with ulwin := c.winNext, covered := mark || member } }) s)

/-- The log space that the reverse ring's entries of an instruction need: vector and mask values are payloads (R392). -/
def ringNeed (s : State) (regs : List Nat) : Nat :=
  match curCtx s with
  | some c => if c.mode == 2 then 160 * (regs.filter fun r => 32 ≤ r && r < 68).length else 0
  | none => 0

/-- The end of an instruction that does not change the flow. -/
def finish (s0 : State) (regs : List Nat) (s : State) : Out :=
  withLog s0 (ringNeed s regs) s fun s => .next (retired s0 regs false (onHart advance s))

/-- The end of an effect instruction (R253) that does not change the flow. -/
def finishFx (s0 : State) (regs : List Nat) (s : State) : Out := finish s0 regs (markEffect s)

/-- The end of an instruction that goes on at `a`: a jump leaves no frame behind (no frame word is a jump, R40). -/
def finishAt (s0 : State) (regs : List Nat) (a : IAddr) (s : State) : Out := .next (retired s0 regs false (setPc a s))

/-- A long-latency instruction's held write of some of its destination's bits opened, with its window of `la` instructions
(R38). -/
def openHeldLanes (dst : Dst) (la : BitVec 4) (val lanes : VWord) (missing : Nat) (flags : Nat) (s : State) : State :=
  onHart (fun h => { h with
    nextId := h.nextId + 1
    held := h.held ++ [{
      id := h.nextId, dst := dst, left := la.toNat, val := val, lanes := lanes, missing := missing
      flags := BitVec.ofNat 6 flags
      poison := none, depth := depthOf h
      shadow := match dst with | .none => false | .x r => inShadow h r | .v r => inShadow h r
      icount := h.tc.icount, bind := none }] }) s

/-- A long-latency instruction's held write of its whole destination opened. -/
def openHeld (dst : Dst) (la : BitVec 4) (val : VWord) (missing : Nat) (flags : Nat) (s : State) : State :=
  openHeldLanes dst la val (BitVec.allOnes 1024) missing flags s

/-- The destination of a held scalar write: x0 discards it (R149). -/
def xDst (d : Reg) : Dst := if d = 0 then .none else .x d

/-- The end of a long-latency instruction whose scalar result is known at issue. -/
def finishHeldX (s0 : State) (d : Reg) (la : BitVec 4) (v : Word) (s : State) : Out :=
  finish s0 [d.toNat] (openHeld (xDst d) la (v.setWidth 1024) 0 0 s)

/-! ## Returning from a trap (R362) -/

/-- Held writes of one depth and above landed in program order: their windows close (R39). A return that meets a poisoned one
raises Poison first (`handlerPoison`). -/
def closeWindows (depth : Nat) : List Held → State → State
  | [], s => s
  | w :: r, s => closeWindows depth r (if w.depth ≥ depth then landHeld w s else s)

/-- The first held write of the running handler that has met poison: it would land at the return, which takes Poison in its place
(R39, R140). DEDUCED: notes/assumptions/12.md. -/
def handlerPoison (h : Hart) : Option (Nat × Word) :=
  if h.saved.isEmpty then none else
  match h.held.find? fun w => decide (h.saved.length ≤ w.depth) && w.poison.isSome with
  | some w => w.poison.map fun a => (w.id, a)
  | none => none

/-- Poison taken at a return from a handler, in place of the landing of a held write of the handler. -/
def returnPoison (id : Nat) (a : Word) (s : State) : State :=
  trapImprecise .poison a (onHart (fun h => { h with held := h.held.filter fun w => w.id != id }) s)

/-- Whether the core stands inside an instruction that has begun and is done piece by piece: the rows of PROJ and PADJ (R346), the
lanes of a VSCAT (R153). It is no boundary between instructions. -/
def insideInstr (h : Hart) : Bool :=
  match h.mid with
  | .rows _ _ _ _ _ | .scatter _ => true
  | _ => false

/-- A saved fence as it goes on after a return or a resume: its acquire is made again (R196). -/
def remakeFence (f : Fence) : Fence :=
  { f with needAcq := match f.kind with | .acq | .ar | .sc | .fut => true | .rel | .win | .eng => false }

/-- The held writes after a return to `depth`: those of the handler are gone; on a changed EPC the open windows of the
interrupted thread are discarded too (R362). -/
def heldAfter (depth : Nat) (drop : Bool) (l : List Held) : List Held :=
  l.filter fun w => decide (w.depth ≤ depth) && !(drop && w.depth == depth && w.left > 0)

/-- The interrupted state restored by a return to `target`: windows opened in the handler close; an address that the handler
changed discards the frame and the open windows, as a jump would (R39, R97, R362). -/
def popSaved (target : IAddr) (s : State) : State :=
  let s := closeWindows s.hart.saved.length (if s.hart.saved.isEmpty then [] else s.hart.held) s
  onHart (fun h =>
    match h.saved with
    | [] => { h with pc := target }
    | t :: rest =>
      let same := t.epc == target
      let keep := heldAfter rest.length (!same) h.held
      { h with
        pc := target
        saved := rest
        held := keep
        loads := h.loads.filter fun l => keep.any (·.id == l.id)
        frame := if same then t.frame else none
        mid := if same then t.mid else .none
        fences := t.fences.map remakeFence ++ h.fences }) s

/-- R362: pc, mode, TIP, and what the trap saved. DEDUCED: notes/assumptions/26.md. -/
def returnFromTrap (s : State) : State :=
  onHart (fun h => { h with mode := h.tr.ppm, tr := { h.tr with tip := false } }) (popSaved s.hart.tr.epc s)

/-- Whether a return must wait: a window opened inside the handler whose value has not arrived (R39). -/
def returnWaits (h : Hart) : Bool :=
  !h.saved.isEmpty && h.held.any fun w => w.depth == h.saved.length && w.missing != 0

end Sys2Proof.Machine
end

