-- ==== Sys2Proof/Machine/Memory.lean ====
section
/-! DEFINITION. The memory system: where an address leads and the order of its checks (R130 to R148, R172, R173), the lines
of the L1 and of the cluster (R134, R137, R218), the store queue, the paths and the homes (R183 to R189), and watchpoints. -/

namespace Sys2Proof.Machine

/-! ## Checks of an address (R130, R131, R132, R145 to R148, R172, R173) -/

/-- What a failed check raises: the cause, TVAL and OP. -/
abbrev Refuse := Cause × Word × Nat

/-- A checked value, or the trap that its check raises. -/
abbrev Chk (α : Type) := Except Refuse α

/-- The trap of a failed check. -/
def trapOf (r : Refuse) (s : State) : Out := .next (takeTrap (causeCode r.1) r.2.1 s.hart.pc r.2.2 false s)

/-- A check that holds, or its trap. -/
def check (b : Bool) (c : Cause) (tval : Word) : Chk Unit := if b then .ok () else .error (c, tval, 0)

/-- Where a checked access goes. -/
structure Access where
  loc : Loc
  region : Region
  va : Word
  deriving DecidableEq, Repr

/-- What an access does and which operation bit it needs on a tensor (R146, R155). -/
structure Need where
  rd : Bool
  wr : Bool
  op : Nat
  deriving DecidableEq, Repr

/-- The first address of device virtual space and of the view slots (R130, R172). -/
def devBase : Nat := 0x10000000000
/-- The end of valid addresses (R130). -/
def devTop : Nat := 0x1000000000000
/-- The first view address (R172). -/
def viewBase : Nat := 0xFF0000000000
/-- The end of the view addresses: 16 slots of 2^32 bytes (R172). -/
def viewTop : Nat := viewBase + 16 * 2 ^ 32

/-- Whether an address is device virtual and not a view (R130, R172). -/
def isDevVa (a : Word) : Bool :=
  decide (devBase ≤ a.toNat) && decide (a.toNat < devTop) && !(decide (viewBase ≤ a.toNat) && decide (a.toNat < viewTop))

/-- Whether a frame carries the uncached tag (R146). -/
def frameUnc (d : Device) (pa : Nat) : Bool := d.uncached.contains (pa / 65536)

/-- R146: the checks of a leaf, in order. `fetch` is a code fetch, which needs X in place of R and W, and fails with Protection
whichever check it fails. -/
def leafChecks (d : Device) (ctx : Nat) (user fetch : Bool) (n : Need) (va : Word) (l : Leaf) : Chk Unit := do
  check (l.unc == frameUnc d l.pa) (if fetch then .protection else .aliasPolicy) va
  check (ownerOf d (l.pa / 65536) == some (.ctx ctx)) .protection va
  check (!(user && !l.u) && !(fetch && !l.x) && !(n.rd && !l.r) && !(n.wr && !l.w)) .protection va

/-- The translation-cache entry of a leaf (R147). DESIGN CHOICE: notes/assumptions/93.md. -/
def tlbEntry (va : Nat) (l : Leaf) : TlbEntry :=
  ⟨va / 65536, l.pa / 65536, l.unc, l.u, l.x, l.w, l.r⟩

/-- The leaf that a translation-cache entry gives. -/
def tlbLeaf (e : TlbEntry) (va : Nat) : Leaf := ⟨e.pframe * 65536 + va % 65536, e.pol, e.u, e.x, e.w, e.r⟩

/-- The translation cache of a cluster (R147). -/
def tlbOf (s : State) (c : Nat) : List TlbEntry :=
  if c = s.hart.ar.cluster then s.clu.tlb else (s.dev.tlbs.filter (·.1 == c)).map (·.2)

/-- The entries of a cluster's translation cache (R18, R147). -/
def tlbSize : Nat := 2048

/-- A translation cache with an entry filled: of more than it holds, the one least recently used is lost (R147).
DESIGN CHOICE: notes/assumptions/93.md. -/
def tlbPut (e : TlbEntry) (l : List TlbEntry) : List TlbEntry := (e :: l.filter fun x => x.vframe != e.vframe).take tlbSize

/-- An entry filled in a cluster's translation cache. -/
def tlbFill (c : Nat) (e : TlbEntry) (s : State) : State :=
  if c = s.hart.ar.cluster then onClu (fun u => { u with tlb := tlbPut e u.tlb }) s
  else onDev (fun d => { d with
    tlbs := (tlbPut e ((d.tlbs.filter (·.1 == c)).map (·.2))).map (c, ·) ++ d.tlbs.filter (·.1 != c) }) s

/-- The element size of a type in bytes. -/
def tySize (t : Ty) : Nat := t.width / 8

/-- The rows of a tensor (R156). -/
def tRows (t : Tensor) : Nat := (t.ext.take (t.rank - 1)).foldl (· * ·) 1
/-- The columns of a tensor (R156). -/
def tCols (t : Tensor) : Nat := t.ext.getD (t.rank - 1) 1
/-- The element count of a tensor (R156). -/
def tCount (t : Tensor) : Nat := tRows t * tCols t
/-- The bytes of a tensor's element array. -/
def tBytes (t : Tensor) : Nat := tCount t * tySize t.ty

/-- ceil(a / b). -/
def ceilDiv (a b : Nat) : Nat := (a + b - 1) / b

/-- A block scale (R162). -/
def blockScale (t : Tensor) (b : Nat) : Byte := smGet t.bscale b ^^^ 0x78

/-- A block scale set. -/
def setBlockScale (t : Tensor) (b : Nat) (v : Byte) : Tensor := { t with bscale := smSet t.bscale b (v ^^^ 0x78) }

/-- The block scales of a square-scaled tensor. -/
def scaleBlocks (t : Tensor) : Nat := ceilDiv (tRows t) 32 * ceilDiv (tCols t) 32

/-- The scale bytes of a square-scaled tensor, as they stand behind its element array (R161): its block scales and its tensor scale. -/
def scaleBytes (t : Tensor) : List Byte :=
  (List.range (scaleBlocks t)).map (blockScale t) ++ natBytes 2 t.tscale.toNat

/-- Scale byte `i` of a tensor put back. -/
def setScaleByte (t : Tensor) (i : Nat) (v : Byte) : Tensor :=
  let k := scaleBlocks t
  if i < k then setBlockScale t i v
  else if i = k then { t with tscale := (t.tscale &&& 0xFF00) ||| v.setWidth 16 }
  else { t with tscale := (t.tscale &&& 0x00FF) ||| (v.setWidth 16 <<< 8) }

/-- Byte `o` of what stands behind a tensor's element array (R161): its scale bytes, or its optimiser state, m and v of each element. -/
def tailByte (t : Tensor) (o : Nat) : Byte :=
  if t.rep.scaled then (scaleBytes t).getD o 0 else (smGet t.opt (o / 8)).extractLsb' (8 * (o % 8)) 8

/-- A handle that is live in the core's context (R158). -/
def liveTensor (s : State) (h : Word) : Option Tensor :=
  match tensorOf s.dev h.toNat with
  | some t => if t.ctx = s.hart.ar.ctx && !t.freed then some t else none
  | none => none

/-- Whether an operation bit is in a tensor's set (R155). -/
def hasOp (t : Tensor) (op : Nat) : Bool := t.ops.getLsbD op

/-- Widening Request unless a tensor's set holds the operation (R174). -/
def needOp (t : Tensor) (op : Nat) : Chk Unit :=
  if hasOp t op then .ok () else .error (.wideningRequest, wordOf t.h, op)

/-- Where an access through a view is performed, by the form of its tensor (R173); a tensor that another cluster holds is
accessed at its home, on the path. -/
def viewRegion (t : Tensor) (clu : Nat) : Region :=
  if t.rep.unc then .unc
  else match t.rep.place with
    | .cluster c => if c = clu then .pinned else .unc
    | _ => .wb

/-- A view address (R173). -/
def checkView (s : State) (a : Word) (size : Nat) (n : Need) : Chk Access := do
  let o := a.toNat - viewBase
  match (s.hart.views[o / 2 ^ 32]?).join with
  | none => .error (.translation, a, 0)
  | some (h, w) =>
    match liveTensor s (wordOf h) with
    | none => .error (.translation, a, 0)
    | some t =>
      let len := min (2 ^ 32) (tBytes t - w * 2 ^ 32)
      check (decide (o % 2 ^ 32 + size ≤ len)) .protection a
      needOp t n.op
      let loc : Loc := ⟨.ten h, w * 2 ^ 32 + o % 2 ^ 32⟩
      let away := match t.rep.place with | .cluster c => c != s.hart.ar.cluster | _ => false
      if away && !t.rep.unc then .error (.phase, a, 0) else .ok ⟨loc, viewRegion t s.hart.ar.cluster, a⟩

/-- Whether a write at a scratch address touches the record of a live join, which stores may not (R265). -/
def joinRecordAt (s : State) (v size : Nat) : Bool :=
  s.clu.joins.any fun j => decide (v < j.jid.toNat % 2 ^ 32 + 64) && decide (j.jid.toNat % 2 ^ 32 < v + size)

/-! ## The cache pool (R132, R135, R136, R159 to R164) -/

/-- The shape a tensor is created with, and where (R156, R159). -/
structure Shape where
  ty : Ty
  rank : Nat
  pref : Nat
  ext : List Nat
  maker : Nat
  deriving DecidableEq, Repr

/-- A tensor's shape. -/
def Tensor.shape (t : Tensor) : Shape := ⟨t.ty, t.rank, t.pref, t.ext, t.maker⟩

/-- The rows and columns of a shape (R156). -/
def shapeRows (x : Shape) : Nat := (x.ext.take (x.rank - 1)).foldl (· * ·) 1
/-- The columns of a shape (R156). -/
def shapeCols (x : Shape) : Nat := x.ext.getD (x.rank - 1) 1

/-- The footprint of a shape in a representation (R161). -/
def footprint (x : Shape) (r : Rep) : Nat :=
  let rows := shapeRows x
  let cols := shapeCols x
  let size := tySize x.ty
  let base := if r.tiles then ceilDiv rows 32 * 32 * (ceilDiv cols 32 * 32) * size else rows * cols * size
  let base := if r.scaled then base + ceilDiv rows 32 * ceilDiv cols 32 + 2 else base
  let base := if r.unc then base + 8 * rows * cols else base
  let unit := match r.place with | .cluster _ => 128 | _ => 65536
  (if r.mirror then 4 else 1) * (ceilDiv base unit * unit)

/-- The representations a tensor's storage is charged for: the one in force and those queued (R164). -/
def tensorReps (t : Tensor) : List Rep :=
  t.rep :: t.queue.filterMap fun e => match e with | .rerep r _ _ => some r | _ => none

/-- Whether a representation is cluster-resident in a cluster. -/
def inCluster (r : Rep) (c : Nat) : Bool := match r.place with | .cluster k => k == c | _ => false

/-- The chunks of a cluster's cache pool that pinned tensors hold (R159, R164). -/
def pinnedChunks (d : Device) (c : Nat) : Nat :=
  d.tensors.foldl (fun n t => n + (((tensorReps t).filter (inCluster · c)).map fun r => footprint t.shape r / 128).sum) 0

/-- The chunks of a cluster's cache pool (R132, R135). -/
def poolChunks (s : State) : Nat := 32768 - s.clu.scratch / 128

/-- Whether a space is that of a compressed tensor, whose lines lie in blocks of 1 KiB (R135). -/
def isComp (d : Device) (sp : Space) : Bool :=
  match sp with
  | .ten h => (tensorOf d h).any (·.rep.comp)
  | _ => false

/-- Whether two lines lie in one block of 1 KiB. -/
def sameBlock (x y : CmLine) : Bool := x.space == y.space && x.line / 8 == y.line / 8

/-- The lines that leave the pool with a line: the others of its compressed block (R135), or itself. -/
def withBlock (d : Device) (x y : CmLine) : Bool :=
  if isComp d x.space then sameBlock x y else x.space == y.space && x.line == y.line

/-- The chunks that a clean compressed block takes (R135): 1 to 8. DESIGN CHOICE: notes/assumptions/98.md. -/
def blockSize (d : Device) (sp : Space) (b : Nat) : Nat :=
  1 + Config.blockChunks (rawBytes d ⟨sp, b * 1024⟩ 1024) % 8

/-- The chunks that the pool's lines take: one each, and 8 for a compressed block with a dirty byte, which is held uncompressed
(R134 to R136). DESIGN CHOICE: notes/assumptions/98.md. -/
def lineChunks (d : Device) (cm : List CmLine) : Nat :=
  (cm.map fun x =>
    if !isComp d x.space then 1
    else if cm.find? (sameBlock x) != some x then 0
    else if cm.any fun y => sameBlock x y && y.dirty != 0 then 8
    else blockSize d x.space (x.line / 8)).sum

/-! ## Lines -/

/-- The number of the 128-byte line of a location. -/
def lineOf (l : Loc) : Nat := l.off / 128

/-- Byte `i` of a line's data. -/
def lineByte (d : BitVec 1024) (i : Nat) : Byte := d.extractLsb' (8 * i) 8

/-- `n` bits from bit `i` on. -/
def maskBits (i n : Nat) : BitVec 128 := BitVec.ofNat 128 ((2 ^ n - 1) * 2 ^ i)

/-- The 1,024-bit mask of a byte mask. -/
def spread (m : BitVec 128) : BitVec 1024 :=
  BitVec.ofNat 1024 ((List.range 128).foldl (fun acc i => if m.getLsbD i then acc + 255 * 2 ^ (8 * i) else acc) 0)

/-- Bytes as a line from byte `o` on. -/
def lineOfBytes (o : Nat) (bs : List Byte) : BitVec 1024 := BitVec.ofNat 1024 (bytesNat bs * 2 ^ (8 * o))

/-- Bytes `o` to `o + n - 1` of a line. -/
def lineBytes (d : BitVec 1024) (o n : Nat) : List Byte := (List.range n).map fun i => lineByte d (o + i)

/-- A line merged under a byte mask. -/
def mergeLine (old new : BitVec 1024) (m : BitVec 128) : BitVec 1024 :=
  let k := spread m
  (old &&& ~~~k) ||| (new &&& k)

/-- The cluster's line that holds a location (R134). -/
def cmFind (c : Cluster) (l : Loc) : Option CmLine := c.cm.find? fun x => x.space == l.space && x.line == lineOf l

/-- A cluster line put in place of the one of its name. -/
def cmPut (x : CmLine) (c : Cluster) : Cluster :=
  { c with cm := x :: c.cm.filter fun y => !(y.space == x.space && y.line == x.line) }

/-- The cluster's line of a location dropped. -/
def cmDrop (l : Loc) (c : Cluster) : Cluster :=
  { c with cm := c.cm.filter fun y => !(y.space == l.space && y.line == lineOf l) }

/-- The L1's line of a location (R137). -/
def l1Find (h : Hart) (l : Loc) : Option L1Line := h.l1.find? fun x => x.space == l.space && x.line == lineOf l

/-- The L1's lines that `n` bytes touch dropped (R137). -/
def l1Drop (l : Loc) (n : Nat) (h : Hart) : Hart :=
  { h with l1 := h.l1.filter fun y => !(y.space == l.space && decide (lineOf l ≤ y.line) &&
    decide (y.line ≤ (l.off + n - 1) / 128)) }

/-- The stack whose home performs an access to a location (R143): a tensor's elements lie in 4 KiB units over the twelve stacks, or
over the three of its die (R159). -/
def stackOfLoc (d : Device) (l : Loc) : Nat :=
  match l.space with
  | .ten h => match (tensorOf d h).map (·.rep.place) with
    | some (Place.die k) => 3 * k + l.off / 4096 % 3
    | _ => stackOf l.off
  | _ => stackOf l.off

/-- The first byte of a location's line. -/
def lineLoc (l : Loc) : Loc := { l with off := l.off / 128 * 128 }

/-! ## Watchpoints, stops (R367, R368, R397, R398, R400) -/

/-- Whether the core is in a blocking instruction that has not completed (R37, R368). -/
def inBlocking (h : Hart) : Bool :=
  h.blocked || match h.mid with | .none | .rows _ _ _ _ _ | .scatter _ => false | _ => true

/-- The stop record of the core (R368). -/
def stopRecord (s : State) (why : Nat) : StopRecord :=
  let h := s.hart
  { icount := h.tc.icount, tstop := s.dev.time, sent := h.sent, recv := h.recv, pc := h.pc, why := why
    flags := (if inBlocking h then 1 else 0) ||| (if h.frame.isSome then 2 else 0) |||
      (if h.held.isEmpty then 0 else 4) ||| (if h.ui.inh then 8 else 0) }

/-- SKID of the core's skid record (R398): instructions retired after the trigger. DEDUCED: notes/assumptions/83.md. -/
def skidOf (s : State) : BitVec 32 :=
  match (curCtx s).bind (·.trigger) with
  | none => 0
  | some t =>
    if s.hart.dbg.role = 2 then 0
    else if s.hart.dbg.role = 1 then BitVec.ofNat 32 (s.hart.tc.icount.toNat - t.icount.toNat)
    else BitVec.ofNat 32 (s.hart.tc.ring.filter fun e => e.first && BitVec.slt 0 (e.cyc.setWidth 32 - t.cyc)).length

/-- The core stops at a boundary between instructions (R367); a core that is stopped already stays as it is.
DEDUCED: notes/assumptions/83.md. -/
def stopHart (why : Nat) (s : State) : State :=
  if s.hart.thread = .running && s.hart.dbg.stop.isNone then
    let s := passTime s
    onHart (fun h => { h with
      spin := none, ecall := none, answer := none, mid := if h.mid = .ecall then .none else h.mid
      dbg := { h.dbg with stop := some (stopRecord s why), skid := skidOf s } }) s
  else s

/-- The core's stop ends: the time that it stood is not counted against a kill timeout (R269). -/
def endStop (s : State) : State :=
  match s.hart.dbg.stop with
  | none => s
  | some r =>
    let t := (s.dev.time - r.tstop).toNat
    onClu (fun c => { c with joins := c.joins.map fun j => { j with paused := j.paused + t } })
      (onHart (fun h => { h with dbg := { h.dbg with stop := none } }) s)

/-- A context that stops at a time: its running time is counted (R276, R367). -/
def ctxStopped (t : Word) (why : Nat) (c : Context) : Context :=
  { c with state := .stopped why, ran := c.ran + (t - c.since).toNat, since := t }

/-- A context that goes on at a time (R276, R370). -/
def ctxRunning (t : Word) (c : Context) : Context := { c with state := .running, resumeAt := none, since := t }

/-- Every core of a context stops (R367). -/
def gangStop (n why : Nat) (s : State) : State :=
  match ctxOf s.dev n with
  | none => s
  | some c =>
    if c.state != .running then s else
    let s := onCtx n (ctxStopped s.dev.time why) s
    if inContext s.hart n then stopHart why s else s

/-- Whether an access overlaps a watchpoint with a matching kind (R397). -/
def watchMatches (w : Watch) (a : WatchAccess) : Bool :=
  w.armed && w.loc.space == a.loc.space && decide (w.loc.off < a.loc.off + a.size) && decide (a.loc.off < w.loc.off + w.len) &&
  (if a.write then w.kind.getLsbD 1 else w.kind.getLsbD 0)

/-- A stop set stopped by a watchpoint (R398): the partition, or the cluster. -/
def stopSet (n : Nat) (scope : Bool) (s : State) : State := if scope then gangStop n 5 s else stopHart 5 s

/-- The stop that a watched access asks for. The access of an instruction that has not retired yet stops the core when it has
(R367, R407). -/
def watchStop (n : Nat) (w : Watch) (a : WatchAccess) (mine here : Bool) (s : State) : State :=
  let near := match a.core with
    | some k => clusterOfCore k == s.hart.ar.cluster && s.hart.ar.ctx == n
    | none => s.hart.ar.ctx == n
  if here then onHart (fun h => { h with dbg := { h.dbg with role := 1, wpStop := some w.scope } }) s
  else
    let s := if s.hart.dbg.stop.isNone then onHart (fun h => { h with dbg := { h.dbg with role := if mine then 1 else 0 } }) s else s
    if w.scope || near then stopSet n w.scope s else s

/-- A watched access performed (R397, R398, R400): the lowest watchpoint it matches triggers, all it matches disarm; the
stop set stops, or the accessor takes a Watchpoint trap at its next boundary, or the trigger is only recorded. -/
def watchAccess (n : Nat) (a : WatchAccess) (icount : Word) (s : State) : State :=
  match ctxOf s.dev n with
  | none => s
  | some c =>
    match findIdxFrom (fun (o : Option Watch) => match o with | some w => watchMatches w a | none => false) c.watches.toList 0 with
    | none => s
    | some i =>
      match (c.watches[i]?).join with
      | none => s
      | some w =>
        let s := passTime s
        let lowest := max w.loc.off a.loc.off
        let addr := w.va + wordOf (lowest - w.loc.off)
        let rec_ : Trigger :=
          { addr := addr, time := s.dev.time, cyc := (cycleOf s n).setWidth 32, core := a.core, wp := BitVec.ofNat 8 i
            kind := if a.write then 2 else 1, icount := icount }
        let s := onCtx n (fun c => { c with
          trigger := some rec_
          watches := c.watches.map fun o => o.map fun x => if watchMatches x a then { x with armed := false } else x }) s
        let mine := a.core == some s.hart.ar.core && s.hart.ar.ctx == n
        let here := mine && icount == s.hart.tc.icount + 1 && s.hart.thread == .running && s.hart.dbg.stop.isNone
        if !w.act && c.attached then watchStop n w a mine here s
        else if mine && s.hart.thread = .running then
          onHart (fun h => { h with dbg := { h.dbg with wpTrap := some addr } }) s
        else s

/-! ## Writes at their points, logged and watched (R386) -/

/-- The origin of what the core issues now (R385, R388). DEDUCED: notes/assumptions/22.md. -/
def originOf (s : State) : Origin :=
  { core := s.hart.ar.core, ctx := s.hart.ar.ctx, win := s.hart.tc.ulwin, icount := s.hart.tc.icount + 1
    cov := s.hart.tc.covered, logged := false }

/-- The frames of an area of a context that begins at `va` and is `2 ^ lg` bytes long. -/
def inArea (d : Device) (n : Nat) (va : Word) (lg pa : Nat) : Bool :=
  decide (16 ≤ lg) && (List.range (2 ^ lg / 65536)).any fun i => match walk d n (va.toNat + i * 65536) with
    | some l => l.pa / 65536 == pa / 65536
    | none => false

/-- Whether a location lies in the log area or the trace sink of a context, which no log covers (R386).
DEDUCED: notes/assumptions/21.md. -/
def neverLogged (s : State) (n : Nat) (l : Loc) : Bool :=
  match l.space, ctxOf s.dev n with
  | .dev, some c => inArea s.dev n c.logBase c.log2sz l.off || inArea s.dev n c.sink c.sink2sz l.off
  | _, _ => false

/-- The undo-log entry of a covered write (R386, R388): the old bytes at the write's point. Every write to a tensor names the
handle and the element (R171). DEDUCED: notes/assumptions/21, 91. -/
def logWriteAt (cvp : Bool) (o : Origin) (kind : Nat) (eng : Bool) (va : Word) (l : Loc) (old : List Byte) (s : State) : State :=
  if logCovers s o.ctx o.cov && !o.logged && !neverLogged s o.ctx l then
    let (kind, addr, elem, pay) := match l.space with
      | .ten h => (4, wordOf h, (match tensorOf s.dev h with | some t => l.off / tySize t.ty | none => 0), true)
      | _ => (kind, va, 0, kind == 3 || eng || old.length > 8)
    countLog o.core (logAppend o.ctx
      { pos := 0, cvp := cvp, kind := kind, eng := eng, pay := pay, done := false, freed := false, win := o.win, core := o.core
        addr := addr, loc := l, old := old, size := old.length, elem := elem, icount := o.icount } s)
  else s

/-- The entry of a covered write that is performed at its memory. -/
def logWrite (o : Origin) (kind : Nat) (eng : Bool) (va : Word) (l : Loc) (old : List Byte) (s : State) : State :=
  logWriteAt false o kind eng va l old s

/-- The context whose storage a location at a home is, if any: the owner of its frame, or of the tensor. -/
def homeOwner (d : Device) (l : Loc) : Option Nat :=
  match l.space with
  | .dev => match ownerOf d (l.off / 65536) with
    | some (.ctx n) => some n
    | _ => none
  | .ten h => (tensorOf d h).map (·.ctx)
  | _ => none

/-- The physical address of a 64-byte line at a home (R388). DESIGN CHOICE: notes/assumptions/98.md. -/
def lineAddr (l : Loc) : Word :=
  match l.space with
  | .ten h => Config.tensorLine h (l.off / 64)
  | _ => wordOf l.off

/-- A 64-byte line as its home holds it, what stands behind a tensor's element array with it. -/
def homeLine (d : Device) (k : Loc) : List Byte :=
  match k.space with
  | .ten h => match tensorOf d h with
    | some t => (rangeFrom k.off 64).map fun o => if o < tBytes t then smGet t.data o else tailByte t (o - tBytes t)
    | none => List.replicate 64 0
  | _ => rawBytes d k 64

/-- The first write to each 64-byte line of an interval is logged at its home in CHECKPOINT mode (R375, R385).
DEDUCED: notes/assumptions/21.md. -/
def logLine (n : Nat) (l : Loc) (s : State) : State :=
  match ctxOf s.dev n with
  | some c =>
    let k : Loc := { l with off := l.off / 64 * 64 }
    if c.mode == 3 && !(c.lines.any fun p => p.1 == k) && !neverLogged s n l then
      let old := homeLine s.dev k
      let s := logAppend n
        { pos := 0, cvp := false, kind := 8, eng := false, pay := true, done := false, freed := false, win := 0, core := 0xFFFF
          addr := lineAddr k, loc := k, old := old, size := 64, elem := 0, icount := 0 } s
      let s := onCtx n (fun c => { c with lines := c.lines ++ [(k, BitVec.ofNat 512 (bytesNat old))] }) s
      -- even the reserve is spent: undo log exhausted (R391)
      match ctxOf s.dev n with
      | some c => if c.logTail - c.logHead > 2 ^ c.log2sz then killContext n 8 0 none 0 s else s
      | none => s
    else s
  | none => s

/-- The 64-byte lines that a write of `k` bytes touches. -/
def linesOf (l : Loc) (k : Nat) : List Loc :=
  (List.range ((l.off + k - 1) / 64 - l.off / 64 + 1)).map fun i => { l with off := (l.off / 64 + i) * 64 }

/-- The interval lines of a write of several bytes. -/
def logLines (n : Nat) (l : Loc) (k : Nat) (s : State) : State := (linesOf l k).foldl (fun s x => logLine n x s) s

/-- The interval lines of a write to what stands behind a tensor's element array (R161, R375). -/
def logTail (h o k : Nat) (s : State) : State :=
  match tensorOf s.dev h with
  | some t => logLines t.ctx ⟨.ten h, tBytes t + o⟩ k s
  | none => s

/-- Whether the interval line entries of a write at a home fit, the stop reserve included while the context is stopped; if
not, the write waits (R391). DEDUCED: notes/assumptions/91.md. -/
def linesFit (s : State) (l : Loc) (k : Nat) : Bool :=
  match (homeOwner s.dev l).bind (ctxOf s.dev) with
  | some c =>
    if c.mode != 3 then true else
    let new := (linesOf l k).filter fun x => !(c.lines.any fun p => p.1 == x)
    logFits s c (if c.state = .running then logTop c else 2 ^ c.log2sz) (160 * new.length)
  | none => true

/-- A write that waits for interval line entries asks firmware for a checkpoint boundary (R391). -/
def askBoundary (l : Loc) (s : State) : State :=
  match homeOwner s.dev l with
  | some n => onCtx n (fun c => { c with armed := true }) s
  | none => s

/-- Bytes written at a location's memory, with the interval line of its owner logged first. -/
def homePut (l : Loc) (bs : List Byte) (s : State) : State :=
  let s := match homeOwner s.dev l with
    | some n => logLines n l bs.length s
    | none => s
  onDev (fun d => rawPut d l bs) s

/-- A write performed at its memory by a core: logged (R386), written, watched (R397). -/
def performWrite (o : Origin) (kind : Nat) (va : Word) (l : Loc) (bs : List Byte) (s : State) : State :=
  let s := logWrite o kind false va l (rawBytes s.dev l bs.length) s
  watchAccess o.ctx ⟨l, bs.length, true, some o.core, va⟩ o.icount (homePut l bs s)

/-! ## The cluster visibility point (R134, R139 to R142) -/

/-- The 8-byte granules of a location's line that its home holds poisoned and no dirty bytes cover (R140). -/
def fillPoison (d : Device) (l : Loc) (dirty : BitVec 128) : BitVec 16 :=
  if (poisonList d l.space).isEmpty then 0 else
  BitVec.ofNat 16 ((List.range 16).foldl (fun acc g =>
    if (poisonAt d { lineLoc l with off := l.off / 128 * 128 + 8 * g } 8).isSome &&
        dirty.extractLsb' (8 * g) 8 != BitVec.allOnes 8 then acc + 2 ^ g else acc) 0)

/-- A line as the CVP reads it from the home: the home's bytes under the valid dirty ones (R134.2). -/
def fillLine (d : Device) (l : Loc) (x : Option CmLine) : CmLine :=
  let home := lineOfBytes 0 (rawBytes d (lineLoc l) 128)
  match x with
  | none => ⟨l.space, lineOf l, home, BitVec.allOnes 128, 0, fillPoison d l 0, none⟩
  | some y => { y with
      data := mergeLine home y.data y.dirty, valid := BitVec.allOnes 128, poison := y.poison ||| fillPoison d l y.dirty }

/-- Whether `n` bytes of a location are valid in a line. -/
def validIn (x : CmLine) (l : Loc) (n : Nat) : Bool :=
  let m := maskBits (l.off % 128) n
  x.valid &&& m == m

/-- Whether the CVP can answer a read without its home. -/
def cmHit (c : Cluster) (l : Loc) (n : Nat) : Bool :=
  match cmFind c l with
  | some x => x.uo.isNone && validIn x l n
  | none => false

/-- The bytes of a location as the CVP holds them, over the home's. -/
def cvpBytes (s : State) (l : Loc) (n : Nat) : List Byte :=
  let home := rawBytes s.dev l n
  match cmFind s.clu l with
  | some x =>
    if x.uo.isSome then home else
    (List.range n).map fun i => if x.valid.getLsbD (l.off % 128 + i) then lineByte x.data (l.off % 128 + i)
      else home.getD i 0
  | none => home

/-- The bytes of a location with the dirty bytes of the cluster's line over the home's (R197). -/
def dirtyBytes (s : State) (l : Loc) (n : Nat) : List Byte :=
  let home := rawBytes s.dev l n
  match cmFind s.clu l with
  | some x => (List.range n).map fun i => if x.dirty.getLsbD (l.off % 128 + i) then lineByte x.data (l.off % 128 + i)
      else home.getD i 0
  | none => home

/-- The line of a location, filled from its home; of a compressed tensor the whole block (R134.2, R135). -/
def cmFill (l : Loc) (s : State) : State :=
  if isComp s.dev l.space then
    (List.range 8).foldl (fun s i =>
      let k : Loc := { l with off := l.off / 1024 * 1024 + 128 * i }
      if (cmFind s.clu k).isSome && lineOf k != lineOf l then s else onClu (cmPut (fillLine s.dev k (cmFind s.clu k))) s) s
  else onClu (cmPut (fillLine s.dev l (cmFind s.clu l))) s

/-- A line that a read uses becomes the most recently used (R136). -/
def cmTouch (l : Loc) (c : Cluster) : Cluster :=
  match cmFind c l with
  | some x => cmPut x c
  | none => c

/-- A word read of a clean compressed block goes to the expander, which holds the 64 blocks most recently used (R135.1). -/
def expTouch (l : Loc) (s : State) : State :=
  match l.space with
  | .ten h =>
    let b := (h, l.off / 1024)
    if isComp s.dev l.space && (s.clu.cm.all fun x => !(x.space == l.space && x.line / 8 == b.2 && x.dirty != 0)) then
      onClu (fun c => { c with exp := (b :: c.exp.filter (· != b)).take 64 }) s
    else s
  | _ => s

/-- The expander's copy of a location's block dropped (R135.2). -/
def expDrop (l : Loc) (c : Cluster) : Cluster :=
  match l.space with
  | .ten h => { c with exp := c.exp.filter (· != (h, l.off / 1024)) }
  | _ => c

/-- Poison cleared in the granules of a line that a write covers whole (R140). -/
def clearLinePoison (x : CmLine) (m : BitVec 128) : CmLine :=
  if x.poison = 0 then x else
  { x with poison := BitVec.ofNat 16 ((List.range 16).foldl (fun acc g =>
      if x.poison.getLsbD g && !(m.extractLsb' (8 * g) 8 == BitVec.allOnes 8) then acc + 2 ^ g else acc) 0) }

/-- Bytes stored into the cluster's line: allocated without reading the home, valid and dirty (R134.1). -/
def cvpStore (l : Loc) (bs : List Byte) (s : State) : State :=
  let o := l.off % 128
  let m := maskBits o bs.length
  let x := (cmFind s.clu l).getD ⟨l.space, lineOf l, 0, 0, 0, 0, none⟩
  let x := { x with data := mergeLine x.data (lineOfBytes o bs) m, valid := x.valid ||| m, dirty := x.dirty ||| m }
  onClu (fun c => expDrop l (cmPut (clearLinePoison x m) c)) s

/-- The window gate that a request passes whose home is on another die (R183, R187): of the three gates out of the cluster's die,
the one to that die. -/
def gateOf (s : State) (l : Loc) : Option (Fin 12) :=
  let a := dieOfCluster s.hart.ar.cluster
  let b := dieOfStack (stackOfLoc s.dev l)
  if a = b then none else some (Fin.ofNat 12 (3 * a + if b < a then b else b - 1))

/-- A request put at the end of the paths to its die's homes, or of the gate to another die's (R187). -/
def pathPut (r : StoreReq) (s : State) : State :=
  match gateOf s r.loc with
  | none => onClu (fun c => { c with path := c.path ++ [r] }) s
  | some g => onClu (fun c => { c with gates := c.gates.set g (c.gates[g] ++ [r]) }) s

/-- The dirty bytes of a line that an error in the CM has taken: those of a poisoned granule, unless only its rest is missing
because its home is poisoned (R140). DEDUCED: notes/assumptions/70.md. -/
def lostBytes (d : Device) (x : CmLine) : BitVec 128 :=
  if x.poison = 0 then 0 else
  let lost := fun (g : Nat) =>
    let m := x.dirty.extractLsb' (8 * g) 8
    x.poison.getLsbD g && m != 0 && (m == BitVec.allOnes 8 || (poisonAt d ⟨x.space, x.line * 128 + 8 * g⟩ 8).isNone)
  (List.range 16).foldl (fun acc g => if lost g then acc ||| (x.dirty &&& BitVec.ofNat 128 (255 * 2 ^ (8 * g))) else acc) 0

/-- A line's dirty bytes sent to the home under its mask (R134, R189), for the access `seq` that asked for it (R154); 0 for none,
before every access. -/
def sendDirtyAs (seq : Nat) (x : CmLine) (o : Origin) (s : State) : State :=
  if x.dirty = 0 then s else
  pathPut { seq := seq, op := .writeback x.dirty x.data (lostBytes s.dev x), loc := ⟨x.space, x.line * 128⟩, region := .wb, va := 0, rel := none
            org := { o with cov := false } } s

/-- A line's dirty bytes sent to the home for no access. -/
def sendDirty (x : CmLine) (o : Origin) (s : State) : State := sendDirtyAs 0 x o s

/-! ## Update-only lines (R218, R219) -/

/-- The value of `size` bytes read signed. -/
def asInt (size : Nat) (v : Word) : Int := toInt true (8 * size) v.toNat

/-- Two bf16 halves added, each rounded once by RNE (R217). -/
def addBf16Pair (a b : Nat) : Nat :=
  (faddCode .bf16 rmRne (a % 65536) (b % 65536)).1 + 65536 * (faddCode .bf16 rmRne (a / 65536 % 65536) (b / 65536 % 65536)).1

/-- What a read-modify-write operation makes of the old value (R213, R216, R217); none is a CAS that fails. -/
def rmwNew (op : RmwOp) (size : Nat) (old v cmp : Word) : Option Word :=
  let w := 8 * size
  let o := old.toNat % 2 ^ w
  let n := v.toNat % 2 ^ w
  match op with
  | .add => some (wordOf ((o + n) % 2 ^ w))
  | .min => some (wordOf (if asInt size old ≤ asInt size v then o else n))
  | .max => some (wordOf (if asInt size old ≥ asInt size v then o else n))
  | .minn => some (wordOf (min o n))
  | .maxn => some (wordOf (max o n))
  | .and => some (wordOf (o &&& n))
  | .or => some (wordOf (o ||| n))
  | .xor => some (wordOf (o ^^^ n))
  | .swap => some (wordOf n)
  | .cas => if o = cmp.toNat % 2 ^ w then some (wordOf n) else none
  | .addf32 => some (wordOf (faddCode .f32 rmRne o n).1)
  | .addbf16 => some (wordOf (addBf16Pair o n))

/-- The value that AMO and AMOX write to xd (R213, R216). -/
def rmwResult (op : RmwOp) (size : Nat) (old : Word) : Word :=
  match op with
  | .minn | .maxn => wordOf (old.toNat % 2 ^ (8 * size))
  | _ => BitVec.ofInt 64 (asInt size old)

/-- The identity of an update-only op (R218). -/
def uoIdentity (op : RmwOp) (size : Nat) : Word :=
  match op with
  | .addf32 => 0x80000000
  | .addbf16 => 0x80008000
  | .min => wordOf (2 ^ (8 * size - 1) - 1)
  | .max => wordOf (2 ^ (8 * size - 1))
  | .minn => wordOf (2 ^ (8 * size) - 1)
  | _ => 0

/-- A partial combined (R218). -/
def uoCombine (p : Partials) (unit : Nat) (v : Word) : Partials :=
  let old := match p.cells.find? fun c => c.1 == unit with
    | some c => c.2
    | none => uoIdentity p.op p.size
  { p with cells := (p.cells.filter fun c => c.1 != unit) ++ [(unit, (rmwNew p.op p.size old v 0).getD old)] }

/-- Partials combined into their locations at the home (R219); combinations append no log entry and name no accessor. -/
def combineAt (n : Nat) (l : Loc) (op : RmwOp) (size : Nat) : List (Nat × Word) → State → State
  | [], s => s
  | (u, v) :: r, s =>
    let a : Loc := { l with off := l.off + u * size }
    let old := wordOf (bytesNat (rawBytes s.dev a size))
    let new := (rmwNew op size old v 0).getD old
    combineAt n l op size r
      (watchAccess n ⟨a, size, true, none, 0⟩ 0 (homePut a (natBytes size new.toNat) s))

/-- The units of a line that are no longer at the identity (R218). -/
def uoSent (p : Partials) : List (Nat × Word) := p.cells.filter fun c => c.2 != uoIdentity p.op p.size

/-- An update-only line flushed on the cluster's path (R218). DEDUCED: notes/assumptions/18.md. -/
def uoFlushLine (x : CmLine) (s : State) : State :=
  match x.uo with
  | none => s
  | some p =>
    let l : Loc := ⟨x.space, x.line * 128⟩
    let s := onClu (cmDrop l) s
    if (uoSent p).isEmpty then s
    else pathPut { seq := 0, op := .flush (uoSent p) p.op p.size, loc := l, region := .wb, va := 0, rel := none
                   org := { originOf s with cov := false } } s

/-- An update-only line recalled by its home, which combines its partials at once (R219, R220).
DEDUCED: notes/assumptions/18.md. -/
def uoRecallLine (x : CmLine) (s : State) : State :=
  match x.uo with
  | none => s
  | some p =>
    let l : Loc := ⟨x.space, x.line * 128⟩
    combineAt s.hart.ar.ctx l p.op p.size (uoSent p) (onClu (cmDrop l) s)

/-- Every update-only line with a property recalled. DEDUCED: notes/assumptions/18.md. -/
def uoRecallAll (p : CmLine → Bool) (s : State) : State :=
  (s.clu.cm.filter fun x => x.uo.isSome && p x).foldl (fun s x => uoRecallLine x s) s

/-- The update-only lines that an access touches recalled first (R219). -/
def recallAt (l : Loc) (n : Nat) (s : State) : State :=
  uoRecallAll (fun x => x.space == l.space && decide (lineOf l ≤ x.line) && decide (x.line ≤ (l.off + n - 1) / 128)) s

/-- The update-only lines of the table entries recalled that a walk reads from the table `t` at level `5 - fuel` on (R145, R219). -/
def recallFrom (va : Nat) : Nat → Nat → State → State
  | 0, _, s => s
  | fuel + 1, t, s =>
    let a := t + 8 * walkIndex va (4 - fuel)
    let s := recallAt ⟨.dev, a⟩ 8 s
    let e := bytesNat (rawBytes s.dev ⟨.dev, a⟩ 8)
    if e % 2 = 1 && e / 32 % 2 = 0 then recallFrom va fuel (e / 2 ^ 12 % 2 ^ 28 * 2 ^ 12) s else s

/-- The update-only lines of the tables of a walk recalled (R219). -/
def recallTables (ctx va : Nat) (s : State) : State :=
  if s.clu.cm.all fun x => x.uo.isNone then s else
  match ctxOf s.dev ctx with
  | some c => recallFrom va 4 c.root s
  | none => s

/-! ## An access checked (R145 to R148) -/

/-- Translation with a cluster's translation cache (R145 to R147): a cached entry that no longer agrees with the tables
may be used in its old form, by a free choice; every access that passes its checks fills its entry. The walk reads its tables at
their homes, which recall their update-only lines first (R219). DESIGN CHOICE: notes/assumptions/93.md. -/
def translateIn (clu : Nat) (s : State) (user fetch : Bool) (n : Need) (va : Word) : Chk (Leaf × State) := do
  let ctx := s.hart.ar.ctx
  let a := va.toNat
  let s := recallTables ctx a s
  let fresh := walk s.dev ctx a
  let cached := ((tlbOf s clu).find? fun e => e.vframe == a / 65536).map fun e => tlbLeaf e a
  let stale := match cached with
    | some l => cached != fresh && (leafChecks s.dev ctx user fetch n va l).isOk
    | none => false
  let old := stale && Config.oldEntry s.tick
  let s := if stale then { s with tick := s.tick + 1 } else s
  match if old then cached else fresh with
  | none => .error (.translation, va, 0)
  | some l =>
    leafChecks s.dev ctx user fetch n va l
    .ok (l, tlbFill clu (tlbEntry a l) s)

/-- Translation with the cluster's own translation cache. DESIGN CHOICE: notes/assumptions/93.md. -/
def translate (s : State) (user fetch : Bool) (n : Need) (va : Word) : Chk (Leaf × State) :=
  translateIn s.hart.ar.cluster s user fetch n va

/-- Steps 2 to 6 of R148. -/
def checkRegion (s : State) (a : Word) (size : Nat) (n : Need) : Chk (Access × State) := do
  let v := a.toNat
  if v < 0x20000 then .ok (⟨lsLoc s v, .ls, a⟩, s)
  else if 0x100000 ≤ v && v < 0x500000 then
    check (decide (v - 0x100000 < s.clu.scratch)) .protection a
    check (!(n.wr && joinRecordAt s v size)) .protection a
    .ok (⟨⟨.scr s.hart.ar.cluster, v - 0x100000⟩, .scr, a⟩, s)
  else if 0x100000000 ≤ v && v < 0x170000000 then .error (.phase, a, 0)
  else if viewBase ≤ v && v < viewTop then do .ok (← checkView s a size n, s)
  else if devBase ≤ v && v < devTop then do
    let (l, s) ← translate s (s.hart.mode == .u) false n a
    .ok (⟨⟨.dev, l.pa⟩, if l.unc then .unc else .wb, a⟩, s)
  else .error (.translation, a, 0)

/-- Steps 1 to 6 of R148 for an access of `size` bytes aligned to it. -/
def checkAccess (s : State) (a : Word) (size : Nat) (n : Need) : Chk (Access × State) := do
  check (a.toNat % size == 0) .misaligned a
  checkRegion s a size n

/-! ## The free list (R136) -/

/-- Whether a request carries what left the cache pool with its line. -/
def leftPool : StoreOp → Bool
  | .writeback _ _ _ | .flush _ _ _ => true
  | _ => false

/-- Chunks of lines that have left the pool and whose writeback their home has not accepted yet: they are not free (R136.3). All 8 of
a compressed block that was dirty stay taken until the last of its lines is accepted. -/
def pendingChunks (s : State) : Nat :=
  let gone := (paths s).filter fun q => leftPool q.op && s.clu.cm.all fun x => !(x.space == q.loc.space &&
    if isComp s.dev x.space then x.line / 8 == lineOf q.loc / 8 else x.line == lineOf q.loc)
  let blocks := (gone.map fun q => if isComp s.dev q.loc.space then (q.loc.space, true, lineOf q.loc / 8)
    else (q.loc.space, false, lineOf q.loc)).dedup
  (blocks.map fun b => if b.2.1 then 8 else 1).sum

/-- The chunks of the free list of the cluster's cache pool, what waits for its home counted as free. -/
def freeChunks (s : State) : Nat := poolChunks s - pinnedChunks s.dev s.hart.ar.cluster - lineChunks s.dev s.clu.cm

/-- The chunks that an access to a line needs (R135, R136): one for a line that the pool does not hold; for a compressed block its
size, or 8 as it becomes dirty. -/
def chunksNeeded (s : State) (l : Loc) (wr : Bool) : Nat :=
  let b := s.clu.cm.filter fun x => x.space == l.space && x.line / 8 == lineOf l / 8
  if !isComp s.dev l.space then (if (cmFind s.clu l).isSome then 0 else 1)
  else if wr then (if b.any fun x => x.dirty != 0 then 0 else 8)
  else if b.isEmpty then blockSize s.dev l.space (lineOf l / 8) else 0

/-- Whether the free list has the chunks of an access now. -/
def cmRoom (s : State) (l : Loc) (wr : Bool) : Bool := decide (chunksNeeded s l wr + pendingChunks s ≤ freeChunks s)

/-- The lines that leave the pool with a line (R135): those of its block, or itself. -/
def leavers (s : State) (x : CmLine) : List CmLine := s.clu.cm.filter (withBlock s.dev x)

/-- Whether a line or its block has no dirty byte and no partial. -/
def isClean (s : State) (x : CmLine) : Bool := (leavers s x).all fun y => y.dirty == 0 && y.uo.isNone

/-- A line evicted (R134.3, R136, R218): its dirty bytes, or its partials, go to the home, and the line or block is gone. -/
def evictLine (x : CmLine) (s : State) : State :=
  if x.uo.isSome then uoFlushLine x s
  else
    onClu (fun c => expDrop ⟨x.space, x.line * 128⟩ { c with cm := c.cm.filter fun y => !withBlock s.dev x y })
      ((leavers s x).foldl (fun s y => sendDirty y (originOf s) s) s)

/-- One eviction (R136.2, R136.3): the least recently used clean line or block; with none, the oldest dirty one written back raw, or
the oldest update-only one flushed. What `keep` names stays. -/
def evictOne (keep : CmLine → Bool) (s : State) : State :=
  let heads := (s.clu.cm.filter fun x => !keep x && s.clu.cm.find? (withBlock s.dev x) == some x).reverse
  match heads.find? (isClean s) <|> heads.head? with
  | some x => evictLine x s
  | none => s

/-- Whether a line of the pool is that of a location, or of its compressed block (R135). -/
def holdsLoc (d : Device) (l : Loc) (x : CmLine) : Bool :=
  x.space == l.space && if isComp d l.space then x.line / 8 == lineOf l / 8 else x.line == lineOf l

/-- Evictions until the chunks of an access are free or on their way to be (R136); what holds the access's own line stays. -/
def makeRoom (l : Loc) (wr : Bool) : Nat → State → State
  | 0, s => s
  | n + 1, s => if chunksNeeded s l wr ≤ freeChunks s then s else makeRoom l wr n (evictOne (holdsLoc s.dev l) s)

/-- Evictions until the pool's lines fit beside its pinned tensors, at most `n`. -/
def evictUntilFit : Nat → State → State
  | 0, s => s
  | n + 1, s =>
    if lineChunks s.dev s.clu.cm + pinnedChunks s.dev s.hart.ar.cluster ≤ poolChunks s then s
    else evictUntilFit n (evictOne (fun _ => false) s)

/-- The pool after the scratch window or a cluster-resident tensor has taken chunks of it (R132, R136, R159): lines leave until the
rest fits in the 4 MiB. DESIGN CHOICE: notes/assumptions/98.md. -/
def fitPool (s : State) : State := evictUntilFit s.clu.cm.length s

/-- The pool after it has made room for an access to a line. -/
def roomFor (l : Loc) (wr : Bool) (s : State) : State := if cmRoom s l wr then s else makeRoom l wr (s.clu.cm.length + 1) s

/-- A RED combined into an update-only line in the cluster's CM (R218). -/
def uoRed (o : Origin) (op : RmwOp) (size : Nat) (l : Loc) (v : Word) (s : State) : State :=
  let unit := l.off % 128 / size
  let fresh : Partials := ⟨op, size, []⟩
  let x0 := cmFind s.clu l
  let (p, s) := match x0 with
    | none => (fresh, s)
    | some x =>
      match x.uo with
      | some p => if p.op == op && p.size == size then (p, s) else (fresh, uoFlushLine x s)
      | none => (fresh, onHart (l1Drop l 1) (onClu (cmDrop l) (sendDirty x o s)))
  let x : CmLine := ⟨l.space, lineOf l, 0, 0, 0, 0, some (uoCombine p unit v)⟩
  watchAccess o.ctx ⟨l, size, true, some o.core, 0⟩ o.icount (onClu (fun c => expDrop l (cmPut x c)) s)

/-! ## Loads (R137, R139 to R142, R150, R185, R197) -/

/-- Whether two byte ranges of one space overlap. -/
def overlaps (a : Loc) (n : Nat) (b : Loc) (m : Nat) : Bool :=
  a.space == b.space && decide (a.off < b.off + m) && decide (b.off < a.off + n)

/-- The bytes that a request covers at its location. -/
def reqSize : StoreOp → Nat
  | .store bs _ => bs.length
  | .strl bs _ => bs.length
  | .rmw _ size _ _ _ _ => size
  | .fe _ _ _ _ => 16
  | .tlde _ n _ => n
  | .tste _ n _ _ => n
  | _ => 128

/-- The bytes a request will store, when they are known before it is performed. -/
def reqBytes : StoreOp → Option (List Byte)
  | .store bs _ => some bs
  | .strl bs _ => some bs
  | .zline => some (List.replicate 128 0)
  | _ => none

/-- What a request does to a byte at `i` of its own bytes: nothing, a value that is known before it is performed, or some value. -/
inductive ByteWrite where
  | untouched | known (b : Byte) | unknown
  deriving DecidableEq, Repr

/-- What a request writes at its byte `i`: a writeback only the bytes of its mask (R189). -/
def byteWrite (op : StoreOp) (i : Nat) : ByteWrite :=
  match op with
  | .store bs _ | .strl bs _ => match bs[i]? with
    | some b => .known b
    | none => .untouched
  | .zline => .known 0
  | .writeback m d bad => if bad.getLsbD i then .unknown else if m.getLsbD i then .known (lineByte d i) else .untouched
  | .clean | .discard | .tlde _ _ _ => .untouched
  | .rmw _ _ _ _ _ _ | .fe _ _ _ _ | .tste _ _ _ _ | .flush _ _ _ => .unknown

/-- The latest earlier write in a queue to one byte (R150, R187.3): its value, or nothing if the queue has none, or one whose
value is not known yet. -/
def forwardByte (q : List StoreReq) (seq : Nat) (l : Loc) : Option Byte :=
  q.foldl (fun acc r =>
    if r.seq < seq && overlaps r.loc (reqSize r.op) l 1 then
      match byteWrite r.op (l.off - r.loc.off) with
      | .untouched => acc
      | .known b => some b
      | .unknown => none
    else acc) none

/-- Byte `i` of a load. -/
def loadLoc (r : LoadReq) (i : Nat) : Loc := { r.loc with off := r.loc.off + i }

/-- A byte of a load that the thread's own store queue holds (R150). -/
def ownByte (s : State) (r : LoadReq) (i : Nat) : Option Byte := forwardByte s.hart.sq r.seq (loadLoc r i)

/-- A byte of a load that the CVP holds: any valid one, and from bay scope on only dirty ones (R134, R139, R197). -/
def cvpByte (s : State) (r : LoadReq) (i : Nat) : Option Byte :=
  match r.region, cmFind s.clu r.loc with
  | .wb, some x =>
    let k := r.loc.off % 128 + i
    let m := if r.point == .home || r.point == .homeDev then x.dirty else x.valid
    if x.uo.isNone && m.getLsbD k then some (lineByte x.data k) else none
  | _, _ => none

/-- A byte of a load that goes to a home and finds a write to it in the outgoing gate, which answers below device scope
(R187.3). -/
def gateByte (s : State) (r : LoadReq) (i : Nat) : Option Byte :=
  match r.region with
  | .wb | .unc => if r.point == .homeDev then none else (gateOf s r.loc).bind fun g => forwardByte s.clu.gates[g] r.seq (loadLoc r i)
  | _ => none

/-- A byte of a load that does not come from its home: from the thread's store queue, else from the CVP, else from a gate. -/
def nearByte (s : State) (r : LoadReq) (i : Nat) : Option Byte :=
  ownByte s r i <|> cvpByte s r i <|> gateByte s r i

/-- Whether an earlier request of the thread that is no plain store touches the bytes of a load (R214, R217). -/
def blockedByRmw (s : State) (r : LoadReq) : Bool :=
  (s.hart.sq ++ paths s).any fun q => q.seq < r.seq && (reqBytes q.op).isNone && q.seq != 0 &&
    (match q.op with | .clean | .writeback _ _ _ | .flush _ _ _ | .tlde _ _ _ => false | _ => true) &&
    overlaps q.loc (reqSize q.op) r.loc r.size

/-- Whether the paths hold no request of a location's stack (R187.1, R188). DEDUCED: notes/assumptions/17.md. -/
def pathClear (s : State) (l : Loc) : Bool := (paths s).all fun q => stackOfLoc s.dev q.loc != stackOfLoc s.dev l

/-- Whether a view access with a sequence number waits for a move (R167): the tensor is moving, or the thread's own TWIDEN
came before the access. DEDUCED: notes/assumptions/108.md. -/
def tensorMoving (d : Device) (l : Loc) (seq : Nat) : Bool :=
  match l.space with
  | .ten h => match tensorOf d h with
    | some t => t.queue.any fun e => match e with
      | .rerep _ moving mine => moving || (match mine with | some q => decide (q < seq) | none => false)
      | _ => false
    | none => false
  | _ => false

/-- Where an access to a location is performed now: a view access that waited for its tensor's move takes the new form (R167,
R173). -/
def regionNow (s : State) (l : Loc) (r : Region) : Region :=
  match l.space with
  | .ten h => match tensorOf s.dev h with
    | some t => viewRegion t s.hart.ar.cluster
    | none => r
  | _ => r

/-- Whether a view load that the thread issued after its TWIDEN returned meets the part of the tensor that the move under way has
written already, by a free choice: it is answered from there, and so R300's results without a TWAIT arise. While the move has not
begun it waits. DEDUCED: notes/assumptions/108.md. -/
def movedAhead (s : State) (l : Loc) (seq : Nat) : Bool :=
  match l.space with
  | .ten h => match tensorOf s.dev h with
    | some t =>
      (match t.queue with
        | .rerep _ true (some q) :: rest => decide (q < seq) && !rest.any fun e => match e with
          | .rerep _ _ (some q) => decide (q < seq)
          | _ => false
        | _ => false) && Config.movedLine s.tick (l.off / 128)
    | none => false
  | _ => false

/-- A load request as its tensor stands now: in the written part of a tensor that still moves, it reads the home. -/
def loadNow (s : State) (r : LoadReq) : LoadReq :=
  if movedAhead s r.loc r.seq then { r with region := .unc, point := .home }
  else { r with region := regionNow s r.loc r.region }

/-- Whether a load needs its home: a byte of it is neither at its point nor forwarded (R150, R187.3, R197). -/
def needsHome (s : State) (r : LoadReq) : Bool :=
  match r.region with
  | .ls | .scr | .pinned => false
  | .unc | .wb => (List.range r.size).any fun i => (nearByte s r i).isNone

/-- Whether the line of a location is held update-only (R218). -/
def isUo (c : Cluster) (l : Loc) : Bool := match cmFind c l with | some x => x.uo.isSome | none => false

/-- Whether a load may be performed now. DEDUCED: notes/assumptions/17, 108. -/
def canPerform (s : State) (r : LoadReq) : Bool :=
  !blockedByRmw s r && (!tensorMoving s.dev r.loc r.seq || movedAhead s r.loc r.seq) && !isUo s.clu r.loc && (!needsHome s r || pathClear s r.loc)

/-- The lowest poisoned byte that a load reads, as an offset (R140): at the CM line if the CVP answers it, else in memory. -/
def loadPoison (s : State) (r : LoadReq) : Option Nat :=
  let cmBad : Nat → Bool := fun i => match cmFind s.clu r.loc with
    | some x => x.poison.getLsbD ((r.loc.off % 128 + i) / 8)
    | none => false
  (List.range r.size).find? fun i =>
    (ownByte s r i).isNone &&
    (if (cvpByte s r i).isSome then cmBad i
     else (gateByte s r i).isNone && (poisonAt s.dev (loadLoc r i) 1).isSome)

/-- The bytes that a load returns (R139, R150, R184, R187.3, R197): those near the core over those of its home. -/
def loadBytes (s : State) (r : LoadReq) : List Byte :=
  let home := rawBytes s.dev r.loc r.size
  (List.range r.size).map fun i => (nearByte s r i).getD (home.getD i 0)

/-- Whether a write to a line is still in the store queue or on the paths: the L1 is not filled with it then (R137.2, R150). -/
def linePending (s : State) (l : Loc) : Bool :=
  (s.hart.sq ++ paths s).any fun q =>
    (match q.op with | .writeback _ _ _ => false | _ => true) && q.seq != 0 &&
    overlaps q.loc (max 1 (reqSize q.op)) (lineLoc l) 128

/-- Whether a line holds a poisoned byte at its CVP; the L1 is not filled with it then (R140). -/
def linePoisoned (s : State) (l : Loc) : Bool :=
  (poisonAt s.dev (lineLoc l) 128).isSome || match cmFind s.clu l with
  | some x => x.poison != 0
  | none => false

/-- The lines of the L1: 32 KiB of 128 bytes (R137). -/
def l1Size : Nat := 256

/-- The line of a location as its CVP holds it, if it holds it whole (R137). -/
def cvpLine (s : State) (l : Loc) : Option (BitVec 1024) :=
  match l.space with
  | .dev | .ten _ => match cmFind s.clu l with
    | some x => if x.uo.isNone && x.valid == BitVec.allOnes 128 then some x.data else none
    | none => none
  | _ => some (lineOfBytes 0 (rawBytes s.dev (lineLoc l) 128))

/-- The L1 filled with the line of a location as the CVP holds it, its oldest line evicted by capacity (R137.1, R137.3). -/
def l1Fill (l : Loc) (s : State) : State :=
  if linePending s l || linePoisoned s l then s else
  match cvpLine s l with
  | none => s
  | some d => onHart (fun h =>
      let k := (l1Drop l 1 h).l1
      { h with l1 := k.drop (k.length + 1 - l1Size) ++ [⟨l.space, lineOf l, d⟩] }) s

/-- A stall or miss counter advanced (R405). -/
def bump (i : Nat) (h : i < 9) (s : State) : State :=
  onHart (fun k => { k with tc := { k.tc with ctr := k.tc.ctr.set i (k.tc.ctr[i] + 1) h } }) s

/-- A line dropped with its dirty bytes (R142): logged with the 128 bytes that the CVP held, and watched as a write (R386, R397). -/
def dropLine (o : Origin) (va : Word) (l : Loc) (s : State) : State :=
  let drop := fun (s : State) => onHart (l1Drop l 1) (onClu (fun c => expDrop l (cmDrop l c)) s)
  match cmFind s.clu l with
  | some _ =>
    let k := lineLoc l
    let va := va - wordOf (l.off % 128)
    watchAccess o.ctx ⟨k, 128, true, some o.core, va⟩ o.icount (drop (logWriteAt true o 1 false va k (cvpBytes s k 128) s))
  | none => drop s

/-- Whether a load fills its line from the home: the L1 takes whole lines, a .BY load what it reads (R137, R139). A line is filled
only when no request of its stack is on the paths, so that the home's bytes are the latest (R134, R187, R188). -/
def willFill (s : State) (r : LoadReq) : Bool :=
  match r.region, r.point with
  | .wb, .cache => !cmHit s.clu (lineLoc r.loc) 128 && pathClear s r.loc
  | .wb, .cvp => !cmHit s.clu r.loc r.size && pathClear s r.loc
  | _, _ => false

/-- What a load leaves in the caches (R135, R137, R139, R142). A .NA load of a line that is present and lacks a byte of it takes that
byte from the home and leaves the line as it is. DESIGN CHOICE: notes/assumptions/111.md. -/
def loadMoves (r : LoadReq) (s : State) : State :=
  let miss := fun (s : State) => if cmHit s.clu r.loc r.size then s else bump 4 (by omega) s
  let fill := fun (s : State) => expTouch r.loc (if willFill s r then cmFill r.loc s else onClu (cmTouch r.loc) s)
  match r.region, r.point with
  | .scr, .cache => l1Fill r.loc (bump 3 (by omega) s)
  | .wb, .cache => l1Fill r.loc (bump 3 (by omega) (fill (miss s)))
  | .wb, .cvp => fill (miss s)
  | .wb, .noAlloc => if (cmFind s.clu r.loc).isSome then expTouch r.loc (onClu (cmTouch r.loc) s) else s
  | .wb, .lastUse => dropLine r.org r.va r.loc s
  | _, _ => s

/-- The value of loaded bytes in the place of a held write: a scalar is extended to 64 bits. -/
def loadPiece (r : LoadReq) (bs : List Byte) : BitVec 1024 × BitVec 1024 :=
  let n := bytesNat bs
  let w := 8 * r.size
  if r.signed then (BitVec.ofNat 1024 (wrapInt 64 (toInt true w n)), BitVec.ofNat 1024 (2 ^ 64 - 1))
  else (BitVec.ofNat 1024 (n * 2 ^ r.pos), BitVec.ofNat 1024 ((2 ^ w - 1) * 2 ^ r.pos))

/-- A piece of a held write arrived, or the poisoned address met in its place (R140: the lowest). -/
def arrive (id : Nat) (piece mask : BitVec 1024) (poison : Option Word) (h : Hart) : Hart :=
  { h with held := h.held.map fun w =>
      if w.id == id then
        { w with
          missing := w.missing - 1
          val := (w.val &&& ~~~mask) ||| piece
          poison := match w.poison, poison with
            | some a, some b => some (if b.toNat < a.toNat then b else a)
            | some a, none => some a
            | none, p => p }
      else w }

/-- Load request `k` performed (R185): the bytes the thread's own stores hold, over those of its point. A load that fills a line
waits for the chunks that it takes (R136). -/
def performLoad (k : Nat) (s : State) : State :=
  match s.hart.loads[k]? with
  | none => s
  | some r0 =>
    let r := loadNow s r0
    if !canPerform s r then s else
    let s := if willFill s r then roomFor r.loc false s else s
    if willFill s r && !cmRoom s r.loc false then s else
    let poison := (loadPoison s r).map fun i => r.va + wordOf i
    let (piece, mask) := loadPiece r (loadBytes s r)
    let s := loadMoves r s
    let s := onHart (fun h => arrive r.id piece mask poison { h with loads := h.loads.eraseIdx k }) s
    watchAccess r.org.ctx ⟨r.loc, r.size, false, some r.org.core, r.va⟩ r.org.icount s

/-! ## Releases and fences (R191 to R195) -/

/-- Whether every load before `seq` is performed: a TLDE is a load that leaves through the store queue (R181, R185). -/
def loadsDone (s : State) (seq : Nat) : Bool :=
  (s.hart.loads.all fun r => seq ≤ r.seq) &&
  (s.hart.sq ++ paths s).all fun r => seq ≤ r.seq || (match r.op with | .tlde _ _ _ => false | _ => true)

/-- Whether the store queue holds no entry before `seq` (R191); a CLEAN stays one until its home has accepted its bytes (R154). -/
def queueDone (s : State) (seq : Nat) : Bool :=
  (s.hart.sq.all fun r => seq ≤ r.seq) &&
  (paths s).all fun r => seq ≤ r.seq || r.seq == 0 || (match r.op with | .writeback _ _ _ => false | _ => true)

/-- Whether the release of a scope is complete for the accesses before `seq` (R191). -/
def released (s : State) (sc : Scope) (seq : Nat) : Bool :=
  let loads := loadsDone s seq
  let sq := queueDone s seq
  let accepted := s.clu.path.all fun r => seq ≤ r.seq   -- what has entered a gate is accepted (R187.4)
  let clean := s.clu.cm.all fun x => x.dirty == 0 && x.uo.isNone
  let acceptedAll := s.clu.path.all fun r => r.seq != 0
  let performed := (paths s).all fun r => r.seq != 0 && seq ≤ r.seq
  let peers := s.dev.copies.all fun c => !(c.fn == 4 && c.core == s.hart.ar.core && c.seq < seq)
  match sc with
  | .core => loads && sq
  | .grp | .clu => loads && sq && accepted
  | .bay | .die => loads && sq && accepted && clean && acceptedAll
  | .dev => loads && sq && clean && performed
  | .sys => loads && sq && clean && performed && peers

/-- What FENCE.WIN at device and system scope holds later stores for (R195): the earlier stores have left the SQ, and the dirty bytes
are sent. -/
def windowSent (s : State) (seq : Nat) : Bool :=
  queueDone s seq && s.clu.cm.all fun x => x.dirty == 0 && x.uo.isNone

/-- What FENCE.WIN at system scope holds later peer copies for (R195): the packets of the earlier ones are sent. -/
def peersSent (s : State) (seq : Nat) : Bool :=
  s.dev.copies.all fun c => !(c.fn == 4 && c.core == s.hart.ar.core && c.seq < seq && c.st == .queued)

/-- Whether the release part of a fence is complete. -/
def fenceReleased (s : State) (f : Fence) : Bool :=
  match f.kind with
  | .win => if f.scope = .dev || f.scope = .sys then windowSent s f.seq else released s f.scope f.seq
  | _ => released s f.scope f.seq

/-- Whether the earlier loads of a fence are performed, and the value it follows has arrived, so that its acquire may be
made (R192, R197). -/
def fenceLoads (s : State) (f : Fence) : Bool :=
  loadsDone s f.seq && s.hart.held.all fun w => f.after != some w.id || w.missing == 0

/-- One fence's finished parts taken off it, and its acquire made (R192, R194, R195). DEDUCED: notes/assumptions/15, 16. -/
def settleFence (f : Fence) (s : State) : Fence × State :=
  let f := if f.needRel && fenceReleased s f then { f with needRel := false } else f
  let f := if f.needPeer && peersSent s f.seq then { f with needPeer := false } else f
  let f := if f.needSc && !f.needRel then { f with needSc := false } else f
  let free := f.needAcq && fenceLoads s f && !(f.kind == .sc && (f.needRel || f.needSc))
  if free then ({ f with needAcq := false }, acquireMoves f.scope s) else (f, s)

/-- The fences of a list settled in order; what still holds is kept. DEDUCED: notes/assumptions/16.md. -/
def settleList : List Fence → State → List Fence × State
  | [], s => ([], s)
  | f :: r, s =>
    let (g, s) := settleFence f s
    let (l, s) := settleList r s
    (if g.needRel || g.needPeer || g.needSc || g.needAcq then g :: l else l, s)

/-- The fences that hold, settled as far as the machine has come. DEDUCED: notes/assumptions/16.md. -/
def settle (s : State) : State :=
  if s.hart.fences.isEmpty then s else
  let (l, s) := settleList s.hart.fences s
  onHart (fun h => { h with fences := l }) s

/-! ## The store queue (R149, R186, R198, R211, R214, R218) -/

/-- The read-modify-write of a request at a memory (R212, R215): a poisoned location is not written. -/
def performRmw (q : StoreReq) (op : RmwOp) (size : Nat) (v cmp : Word) (id : Option Nat) (s : State) : State :=
  let old := wordOf (bytesNat (rawBytes s.dev q.loc size))
  let read := fun (s : State) => watchAccess q.org.ctx ⟨q.loc, size, false, some q.org.core, q.va⟩ q.org.icount s
  match id, poisonAt s.dev q.loc size with
  | some i, some p => onHart (arrive i 0 0 (some (q.va + wordOf p))) s
  | _, _ =>
    let s := match rmwNew op size old v cmp with
      | some n => performWrite q.org 2 q.va q.loc (natBytes size n.toNat) (read s)
      | none => read s
    match id with
    | some i =>
      let res := rmwResult op size old
      onHart (arrive i (res.setWidth 1024) (BitVec.ofNat 1024 (2 ^ 64 - 1)) none) s
    | none => s

/-- Whether a RED is performed at the home as an AMO without result (R220): the log covers it. -/
def redAtHome (s : State) (q : StoreReq) : Bool := logCovers s q.org.ctx q.org.cov

/-- The line of a location written back on the path ahead of an atomic, a future operation or an element, and dropped, the
expander's copy of its block with it (R135, R181, R211). -/
def pushOut (o : Origin) (l : Loc) (s : State) : State :=
  let s := match cmFind s.clu l with
    | some x => if x.uo.isSome then uoFlushLine x s else onClu (cmDrop l) (sendDirty x o s)
    | none => s
  onHart (l1Drop l 1) (onClu (expDrop l) s)

/-- A store at the CVP on a write-back line, logged with the bytes it held (R386). -/
def cvpWrite (q : StoreReq) (l : Loc) (bs : List Byte) (s : State) : State :=
  let s := logWriteAt true q.org 1 false q.va l (cvpBytes s l bs.length) s
  watchAccess q.org.ctx ⟨l, bs.length, true, some q.org.core, q.va⟩ q.org.icount (cvpStore l bs s)

/-- A store performed as it leaves the SQ (R139, R141, R186, R198). `through` writes it to the home as well: the write
has one log entry, that of the CVP (R386). -/
def storeLeaves (q : StoreReq) (bs : List Byte) (through noAlloc : Bool) (s : State) : State :=
  match q.region with
  | .ls | .scr | .pinned => performWrite q.org 1 q.va q.loc bs s
  | .unc => pathPut q s
  | .wb =>
    let present := (cmFind s.clu q.loc).isSome
    if through then
      if present then pathPut { q with org := { q.org with logged := true } } (cvpWrite q q.loc bs s) else pathPut q s
    else if noAlloc && !present then pathPut q s
    else cvpWrite q q.loc bs s

/-- Whether a store allocates or makes dirty a line of the cache pool as it leaves the SQ (R134.1, R139, R218). -/
def allocates (s : State) (q : StoreReq) : Bool :=
  let present := (cmFind s.clu q.loc).isSome
  q.region == .wb && match q.op with
    | .store _ h => present || (h != .by && h != .na)
    | .strl _ sc => present || sc == .core || sc == .grp || sc == .clu
    | .zline => true
    | .rmw _ _ _ _ _ isRed => isRed && !redAtHome s q
    | _ => false

/-- Whether the write of a covered store must wait: the old bytes of its log entry lie at a home that earlier requests
have still to reach (R386). -/
def oldBytesReady (s : State) (q : StoreReq) : Bool :=
  q.region != .wb || pathClear s q.loc || cmHit s.clu q.loc (max 1 (reqSize q.op)) || !logCovers s q.org.ctx q.org.cov

/-- Whether an earlier request on the paths keeps an SQ entry back: a later store waits for a STRL to be performed at its point
(R198), and for a TLDE of the bytes that it writes (R150, R181). -/
def pathHolds (s : State) (q : StoreReq) : Bool :=
  (paths s).any fun p => p.seq < q.seq && match p.op with
    | .strl _ _ => match q.op with
      | .store _ _ | .strl _ _ | .zline | .tste _ _ _ _ => true
      | _ => false
    | .tlde _ n _ => overlaps p.loc n q.loc (max 1 (reqSize q.op))
    | _ => false

/-- A store-queue entry as its tensor stands now: TLDE and TSTE always go to the home (R167, R181). -/
def storeNow (s : State) (q : StoreReq) : StoreReq :=
  match q.op with
  | .tlde _ _ _ | .tste _ _ _ _ => q
  | _ => { q with region := regionNow s q.loc q.region }

/-- Whether the oldest SQ entry may leave (R186, R191, R198, R214, R223). -/
def canLeave (s : State) (q : StoreReq) : Bool :=
  (match q.rel with | some sc => released s sc q.seq | none => true) && !pathHolds s q &&
  (s.hart.loads.all fun r => !(r.seq < q.seq && overlaps r.loc r.size q.loc (max 1 (reqSize q.op)))) &&
  !tensorMoving s.dev q.loc q.seq && oldBytesReady s q &&
  (match q.op with
   | .rmw _ _ _ _ _ true => true
   | _ => q.region != .wb || !isUo s.clu q.loc)

/-- What the oldest SQ entry does as it leaves. DEDUCED: notes/assumptions/17.md. -/
def leaveSq (q : StoreReq) (s : State) : State :=
  match q.op with
  | .store bs h => storeLeaves q bs (h == .by) (h == .na) s
  | .strl bs sc => storeLeaves q bs (sc != .core && sc != .grp && sc != .clu) false s
  | .zline => storeLeaves q (List.replicate 128 0) false false s
  | .clean =>
    match q.region, cmFind s.clu q.loc with
    | .wb, some x =>
      if x.uo.isSome || x.dirty = 0 then s
      else onClu (cmPut { x with dirty := 0 }) (sendDirtyAs q.seq x q.org s)
    | _, _ => s
  | .discard => if q.region = .wb then dropLine q.org q.va q.loc s else s
  | .rmw op size v cmp id isRed =>
    match q.region with
    | .ls | .scr | .pinned => performRmw q op size v cmp id s
    | .unc => pathPut q s
    | .wb => if isRed && !redAtHome s q then uoRed q.org op size q.loc v s else pathPut q (pushOut q.org q.loc s)
  | .fe _ _ _ _ => pathPut q (if q.region = .wb then pushOut q.org q.loc s else s)
  -- the thread's own bytes in CM go ahead of a TLDE or TSTE of their element (R181)
  | .tlde _ _ _ | .tste _ _ _ _ => pathPut q (pushOut q.org q.loc s)
  | _ => pathPut q s

/-- STORE_PERFORM: the oldest entry leaves the SQ (R186). One that takes chunks of the cache pool waits for them (R136). -/
def performStore (s : State) : State :=
  match s.hart.sq with
  | [] => s
  | q0 :: r =>
    let q := storeNow s q0
    if !canLeave s q then s else
    let s := if allocates s q then roomFor q.loc true s else s
    if allocates s q && !cmRoom s q.loc true then s
    else settle (leaveSq q (onHart (fun h => { h with sq := r }) s))

/-- An entry put into the SQ at issue; the L1 drops the lines it touches (R137.2, R186). -/
def enqueue (op : StoreOp) (a : Access) (rel : Option Scope) (s : State) : State :=
  let q : StoreReq := { seq := s.hart.nextSeq + 1, op := op, loc := a.loc, region := a.region, va := a.va, rel := rel
                        org := originOf s }
  onHart (fun h =>
    let h := if op = .clean then h else l1Drop a.loc (max 1 (reqSize op)) h
    { h with sq := h.sq ++ [q], nextSeq := h.nextSeq + 1 }) s

/-- A load request sent for the held write opened last; an L1 hit is performed at issue (R185), but not while a view access waits
for its tensor's move (R167). -/
def request (id pos size : Nat) (signed : Bool) (a : Access) (pt : ReadPoint) (s : State) : State :=
  let r : LoadReq := { id := id, seq := s.hart.nextSeq + 1, pos := pos, size := size, signed := signed, loc := a.loc
                       region := a.region, va := a.va, point := pt, org := originOf s }
  let hit := if pt == .cache && (a.region == .scr || a.region == .wb) && !tensorMoving s.dev a.loc r.seq then l1Find s.hart a.loc
    else none
  match hit with
  | some x =>
    let (piece, mask) := loadPiece r (lineBytes x.data (a.loc.off % 128) size)
    watchAccess s.hart.ar.ctx ⟨a.loc, size, false, some s.hart.ar.core, a.va⟩ (s.hart.tc.icount + 1)
      (onHart (fun h => arrive id piece mask none { h with nextSeq := h.nextSeq + 1 }) s)
  | none => onHart (fun h => { h with loads := h.loads ++ [r], nextSeq := h.nextSeq + 1 }) s

end Sys2Proof.Machine
end

