-- ==== Sys2Proof/Machine/Records.lean ====
section
/-! DEFINITION. The records that instructions read from LS at issue: where they lie, and which of their bytes a refusal names
(R445, R140, R200). -/

namespace Sys2Proof.Machine

/-- The end of LS (R130). -/
def lsTop : Nat := 0x20000

/-- A record of `n` bytes at `a`, aligned to `align`, inside LS; a poisoned byte raises Poison precisely (R140, R360).
DEDUCED: notes/assumptions/25.md. -/
def readRecord (s : State) (a : Word) (align n : Nat) : Chk (List Byte) := do
  check (a.toNat % align == 0) .misaligned a
  check (decide (a.toNat + n ≤ lsTop)) .protection a
  match poisonAt s.dev (lsLoc s a.toNat) n with
  | some i => .error (.poison, a + wordOf i, 0)
  | none => .ok (lsBytes s a.toNat n)

/-- The offset of the first rule that a record breaks; the rules stand in ascending order of the byte they name (R445). -/
def firstBroken : List (Bool × Nat) → Option Nat
  | [] => none
  | (ok, o) :: r => if ok then firstBroken r else some o

/-- The rule of a reserved field of `n` bytes at `o`: it must be zero, and a field offends at its first byte (R445). -/
def zeroRules (r : List Byte) (o n : Nat) : List (Bool × Nat) := [((rangeFrom o n).all fun i => recByte r i == 0, o)]

/-- Protection at the first offending byte of a record (R445). -/
def recordRules (a : Word) (l : List (Bool × Nat)) : Chk Unit :=
  match firstBroken l with
  | some o => .error (.protection, a + wordOf o, 0)
  | none => .ok ()

/-- The outcome of an instruction whose checks give what it needs. -/
def afterChecks {α : Type} (c : Chk α) (s : State) (k : α → Out) : Out :=
  match c with
  | .ok x => k x
  | .error r => trapOf r s

end Sys2Proof.Machine
end

