-- ==== Sys2Proof/Machine/Operands.lean ====
section
/-! DEFINITION. Every operand form: immediates and targets (R31), the kinds of vector sources (R32), lanes (R98), masks
(R23), and the strides of a repeat frame (R25, R41). -/

namespace Sys2Proof.Machine

/-! ## Immediates, offsets, targets (R31) -/

/-- imm15, sign-extended. -/
def imm15 (i : BitVec 15) : Word := i.signExtend 64

/-- imm20, sign-extended. -/
def imm20 (i : BitVec 20) : Word := i.signExtend 64

/-- The target of a branch: its address plus 4 * off12, modulo 2^16. -/
def target12 (pc : IAddr) (o : BitVec 12) : IAddr := pc + (o.signExtend 16 <<< 2)

/-- The target of a jump: its address plus 4 * off20, modulo 2^16. -/
def target20 (pc : IAddr) (o : BitVec 20) : IAddr := pc + (o.setWidth 16 <<< 2)

/-- The address of form M: x(xbase) + off9 * size, modulo 2^64 (R149, R151). -/
def memAddr (s : State) (b : Reg) (o : BitVec 9) (size : Nat) : Word := xr s b + o.signExtend 64 * wordOf size

/-- The link of a jump: (pc + 4) mod 2^16 (R87). -/
def linkOf (s : State) : Word := (s.hart.pc + 4).setWidth 64

/-! ## Lanes (R34, R98) -/

/-- Lane `i` of a vector at a lane width of `w` bits. -/
def lane (v : VWord) (w i : Nat) : Nat := v.toNat / 2 ^ (w * i) % 2 ^ w

/-- The lanes of a vector, lane 0 first. -/
def lanesOf (v : VWord) (w : Nat) : List Nat := (List.range (1024 / w)).map (lane v w)

/-- The number that lanes make, lane 0 lowest. -/
def lanesNat (w : Nat) : List Nat → Nat
  | [] => 0
  | x :: r => x % 2 ^ w + 2 ^ w * lanesNat w r

/-- A vector made of lanes. -/
def ofLanes (w : Nat) (l : List Nat) : VWord := BitVec.ofNat 1024 (lanesNat w l)

/-- Whether a mask governs lane `i` (R23). -/
def governs (k : MWord) (i : Nat) : Bool := k.getLsbD i

/-- The bits of the lanes that a mask governs (R23). -/
def laneBits (k : MWord) (w : Nat) : VWord :=
  ofLanes w ((List.range (1024 / w)).map fun i => if governs k i then 2 ^ w - 1 else 0)

/-- A literal in a lane type (R32): exact, taken modulo 2^w in an integer type; e5m3 has no sign. Those that e5m2 cannot hold (9,
11, 13, 15 and their negatives) are rounded by RNE. DESIGN CHOICE: notes/assumptions/99.md. -/
def literal (t : Ty) (n : BitVec 5) : Nat :=
  if t.isInt then wrapInt t.width n.toInt else (roundMag t rmRne ⟨n.toInt < 0, n.toInt.natAbs, 0, false⟩).1

/-- The lanes that a source supplies (R22, R32). -/
def srcLanes (s : State) (t : Ty) (a : Src) : List Nat :=
  let w := t.width
  match a with
  | .v r => lanesOf (vr s r) w
  | .x r => List.replicate (1024 / w) ((xr s r).toNat % 2 ^ w)
  | .c e => List.replicate (1024 / w) ((cbank s e).toNat % 2 ^ w)
  | .lit n => List.replicate (1024 / w) (literal t n)

/-- The vector names among sources, in the order given (R43, R100). -/
def srcRegs : List Src → List VReg
  | [] => []
  | .v r :: l => r :: srcRegs l
  | _ :: l => srcRegs l

/-- New lanes under a mask: the other lanes keep their old value (R23, R103). -/
def maskLanes (k : MWord) (old new : List Nat) : List Nat :=
  (old.zip new).mapIdx fun i p => if governs k i then p.2 else p.1

/-! ## The strides of a repeat frame (R25, R41) -/

/-- A five-bit field at `lo` of a word increased by `n` modulo 32. -/
def bumpField (w : IWord) (lo n : Nat) : IWord :=
  let f : BitVec 5 := w.extractLsb' lo 5 + BitVec.ofNat 5 n
  (w &&& ~~~((31 : IWord) <<< lo)) ||| (f.setWidth 32 <<< lo)

/-- A source of kind 00 or 01 strided: its tag is the two bits above its field. -/
def bumpSrc (w : IWord) (lo n : Nat) : IWord := if w.getLsbD (lo + 6) then w else bumpField w lo n

/-- A captured word as executed in execution `j` (R41): only the fields of its form that its entry reads or writes move. -/
def strideWord (w : IWord) (ds ss j : Nat) : IWord :=
  let m := (fld w 25 7).toNat
  let d := j * ds
  let s := j * ss
  if m = 1 then
    let w1 := bumpField (bumpField w 20 d) 15 s
    let fn := (fld w 0 6).toNat
    if fn = 22 || fn = 23 || fn = 24 then w1 else bumpField w1 10 s
  else if m < 8 then bumpField (bumpField w 20 d) 15 s
  else if m = 0x29 then bumpSrc (bumpSrc w 13 s) 6 s
  else if m = 0x2E || (0x2F ≤ m && m ≤ 0x32) then bumpSrc (bumpField w 20 d) 13 s
  else if m = 0x33 || m = 0x34 then bumpSrc (bumpField w 20 d) 13 s
  else bumpSrc (bumpSrc (bumpField w 20 d) 13 s) 6 s

/-- Whether a major may be captured in a frame (R40). -/
def capturable (w : IWord) : Bool :=
  let m := (fld w 25 7).toNat
  (1 ≤ m && m ≤ 7) || (0x18 ≤ m && m ≤ 0x37)

end Sys2Proof.Machine
end

