-- ==== Sys2Proof/Machine/Flags.lean ====
section
/-! DEFINITION. Every computation of the sticky flags and of the LFSR (R63 to R70): how a lane rounds with FRM, which draws
it makes, and how the lanes of an instruction gather their flags. -/

namespace Sys2Proof.Machine

/-- The dynamic rounding mode (R63). -/
def frmOf (s : State) : Rnd := Rnd.ofCode s.hart.ar.frm

/-- The mode of a rounding field: `dyn` reads FRM (R47, R63). -/
def rndOf (s : State) (r : Rnd) : Rnd := if r = .dyn then frmOf s else r

/-- What the lanes of one instruction thread through: the LFSR and the flags so far. -/
structure Acc where
  lfsr : Word
  flags : Nat
  deriving DecidableEq, Repr

/-- A rounding: under the stochastic mode the LFSR advances once before it (R69). -/
def drawn (m : Rnd) (sat : Bool) (a : Acc) : RMode × Acc :=
  if m = .sto then
    let l := lfsrAdvance a.lfsr
    (⟨.sto, sat, l.toNat % 2 ^ 32⟩, { a with lfsr := l })
  else (⟨m, sat, 0⟩, a)

/-- One rounding of a lane, its flags gathered. -/
def rounding (m : Rnd) (sat : Bool) (f : RMode → Rounded) (a : Acc) : Nat × Acc :=
  let (rm, a) := drawn m sat a
  let (v, g) := f rm
  (v, { a with flags := a.flags ||| g })

/-- The lanes of an instruction in ascending order: only governed lanes are computed (R103.2). -/
def laneLoop (k : MWord) (f : Nat → Acc → Nat × Acc) : List Nat → Nat → Acc → List Nat × Acc
  | [], _, a => ([], a)
  | old :: r, i, a =>
    let (v, a) := if governs k i then f i a else (old, a)
    let (l, a) := laneLoop k f r (i + 1) a
    (v :: l, a)

/-- The accumulator of an instruction that issues now. -/
def accOf (s : State) : Acc := ⟨s.hart.ar.lfsr, 0⟩

/-- The LFSR after an instruction's draws. -/
def setLfsr (l : Word) (s : State) : State := onHart (fun h => { h with ar := { h.ar with lfsr := l } }) s

end Sys2Proof.Machine
end

