-- ==== Sys2Proof/Machine/Vector.lean ====
section
/-! DEFINITION. The vector instructions of forms VR, VU and VC, the masks, the allotment and lane access (R98 to R120, R127,
R128). -/

namespace Sys2Proof.Machine

/-! ## Shared operations -/

/-- Illegal Register for the first refused name (R43, R100), or the rest. -/
def withRegs (w : IWord) (rs : List VReg) (s : State) (k : Unit → Out) : Out :=
  match firstRefused s rs with
  | some r => illegalReg w r s
  | none => k ()

/-- The REG code of a vector register in the reverse ring (R392). -/
def vCode (r : VReg) : Nat := 32 + r.toNat

/-- An instruction that writes governed lanes of vd from its old lanes and two sources (R103). -/
def vrOp (w : IWord) (d : VReg) (a b : Src) (t : Ty) (q : MSel) (f : Nat → Nat → Nat → Acc → Nat × Acc) (s : State) : Out :=
  withRegs w (d :: srcRegs [a, b]) s fun _ =>
    let old := lanesOf (vr s d) t.width
    let la := srcLanes s t a
    let lb := srcLanes s t b
    let (l, acc) := laneLoop (kr s q) (fun i c => f (old.getD i 0) (la.getD i 0) (lb.getD i 0) c) old 0 (accOf s)
    finish s [vCode d] (setFlags acc.flags (setLfsr acc.lfsr (setV d (ofLanes t.width l) s)))

/-- A lane function that sets no flag. -/
def plain (f : Nat → Nat → Nat → Nat) : Nat → Nat → Nat → Acc → Nat × Acc := fun d a b c => (f d a b, c)

/-- The exact integer of a lane by its type's signedness (R104). -/
def laneInt (t : Ty) (x : Nat) : Int := toInt t.isSigned t.width x

/-- An exact integer wrapped to a lane (R52). -/
def laneWrap (t : Ty) (z : Int) : Nat := wrapInt t.width z

/-- A lane of integer or floating arithmetic: `fi` on exact integers, which wraps, and `ff` on patterns, rounded by FRM. -/
def arithLane (s : State) (t : Ty) (fi : Int → Int → Int → Int) (ff : RMode → Nat → Nat → Nat → Rounded) :
    Nat → Nat → Nat → Acc → Nat × Acc := fun d a b c =>
  if t.isInt then (laneWrap t (fi (laneInt t d) (laneInt t a) (laneInt t b)), c)
  else rounding (frmOf s) s.hart.ar.satf (fun rm => ff rm d a b) c

/-- A clamped integer lane: SA when it clamps (R55). -/
def satLane (t : Ty) (f : Int → Int → Int) : Nat → Nat → Nat → Acc → Nat × Acc := fun _ a b c =>
  let (z, sat) := clampInt t.isSigned t.width (f (laneInt t a) (laneInt t b))
  (laneWrap t z, if sat then { c with flags := c.flags ||| 32 } else c)

/-- The lesser or greater of two lanes (R58, R104). -/
def minmaxLane (t : Ty) (isMax : Bool) (a b : Nat) : Nat :=
  if t.isInt then (if decide (laneInt t a < laneInt t b) != isMax then a else b) else minmaxCode t isMax a b

/-- The pattern with its sign inverted. -/
def flipSign (t : Ty) (x : Nat) : Nat := x ^^^ signBit t

/-! ## Arithmetic, logic and shift (R104, R105) -/

/-- VADD (R104). -/
def execVadd (d : VReg) (a b : Src) (t : Ty) (q : MSel) (s : State) : Out :=
  vrOp (encode (.vadd d a b t q)) d a b t q (arithLane s t (fun _ x y => x + y) fun rm _ x y => faddCode t rm x y) s

/-- VSUB (R104). -/
def execVsub (d : VReg) (a b : Src) (t : Ty) (q : MSel) (s : State) : Out :=
  vrOp (encode (.vsub d a b t q)) d a b t q (arithLane s t (fun _ x y => x - y) fun rm _ x y => faddCode t rm x (flipSign t y)) s

/-- VMUL (R104). -/
def execVmul (d : VReg) (a b : Src) (t : Ty) (q : MSel) (s : State) : Out :=
  vrOp (encode (.vmul d a b t q)) d a b t q (arithLane s t (fun _ x y => x * y) fun rm _ x y => fmulCode t rm x y) s

/-- VFMA (R104). -/
def execVfma (d : VReg) (a b : Src) (t : Ty) (q : MSel) (s : State) : Out :=
  vrOp (encode (.vfma d a b t q)) d a b t q (arithLane s t (fun z x y => z + x * y) fun rm z x y => ffmaCode t rm false x y z) s

/-- VFNMA (R104). -/
def execVfnma (d : VReg) (a b : Src) (t : Ty) (q : MSel) (s : State) : Out :=
  vrOp (encode (.vfnma d a b t q)) d a b t q (arithLane s t (fun z x y => z - x * y) fun rm z x y => ffmaCode t rm true x y z) s

/-- VMIN (R58, R104). -/
def execVmin (d : VReg) (a b : Src) (t : Ty) (q : MSel) (s : State) : Out :=
  vrOp (encode (.vmin d a b t q)) d a b t q (plain fun _ x y => minmaxLane t false x y) s

/-- VMAX (R58, R104). -/
def execVmax (d : VReg) (a b : Src) (t : Ty) (q : MSel) (s : State) : Out :=
  vrOp (encode (.vmax d a b t q)) d a b t q (plain fun _ x y => minmaxLane t true x y) s

/-- VADDS (R55, R104). -/
def execVadds (d : VReg) (a b : Src) (t : Ty) (q : MSel) (s : State) : Out :=
  vrOp (encode (.vadds d a b t q)) d a b t q (satLane t fun x y => x + y) s

/-- VSUBS (R55, R104). -/
def execVsubs (d : VReg) (a b : Src) (t : Ty) (q : MSel) (s : State) : Out :=
  vrOp (encode (.vsubs d a b t q)) d a b t q (satLane t fun x y => x - y) s

/-- VMULH (R55, R104). -/
def execVmulh (d : VReg) (a b : Src) (t : Ty) (q : MSel) (s : State) : Out :=
  vrOp (encode (.vmulh d a b t q)) d a b t q (plain fun _ x y => laneWrap t (laneInt t x * laneInt t y / 2 ^ t.width)) s

/-- VAND (R105). -/
def execVand (d : VReg) (a b : Src) (t : Ty) (q : MSel) (s : State) : Out :=
  vrOp (encode (.vand d a b t q)) d a b t q (plain fun _ x y => x &&& y) s

/-- VOR (R105). -/
def execVor (d : VReg) (a b : Src) (t : Ty) (q : MSel) (s : State) : Out :=
  vrOp (encode (.vor d a b t q)) d a b t q (plain fun _ x y => x ||| y) s

/-- VXOR (R105). -/
def execVxor (d : VReg) (a b : Src) (t : Ty) (q : MSel) (s : State) : Out :=
  vrOp (encode (.vxor d a b t q)) d a b t q (plain fun _ x y => x ^^^ y) s

/-- VANDN (R105). -/
def execVandn (d : VReg) (a b : Src) (t : Ty) (q : MSel) (s : State) : Out :=
  vrOp (encode (.vandn d a b t q)) d a b t q (plain fun _ x y => x &&& (2 ^ t.width - 1 - y)) s

/-- VSHL (R54, R105). -/
def execVshl (d : VReg) (a b : Src) (t : Ty) (q : MSel) (s : State) : Out :=
  vrOp (encode (.vshl d a b t q)) d a b t q (plain fun _ x y => shlN t.width x (y % 256)) s

/-- VSHR (R54, R105). -/
def execVshr (d : VReg) (a b : Src) (t : Ty) (q : MSel) (s : State) : Out :=
  vrOp (encode (.vshr d a b t q)) d a b t q (plain fun _ x y => shrN t.width x (y % 256)) s

/-- VSAR (R54, R105). -/
def execVsar (d : VReg) (a b : Src) (t : Ty) (q : MSel) (s : State) : Out :=
  vrOp (encode (.vsar d a b t q)) d a b t q (plain fun _ x y => sarN t.width x (y % 256)) s

/-! ## Compare, select, rearrange (R106 to R109) -/

/-- Whether a condition holds between two lanes (R58, R106). -/
def condHolds (c : VCond) (t : Ty) (a b : Nat) : Bool :=
  let nan := !t.isInt && ((fdec t a == .nan) || (fdec t b == .nan))
  let o := if t.isInt then compare (laneInt t a) (laneInt t b) else cmpVal (fdec t a) (fdec t b)
  match c with
  | .eq => !nan && o == .eq
  | .ne => nan || o != .eq
  | .lt => !nan && o == .lt
  | .le => !nan && o != .gt
  | .gt => !nan && o == .gt
  | .ge => !nan && o != .lt
  | .unord => nan
  | .ord => !nan

/-- VCMP (R106): bits from L on are written 0. -/
def execVcmp (c : VCond) (kd : MSel) (a b : Src) (t : Ty) (q : MSel) (s : State) : Out :=
  withRegs (encode (.vcmp c kd a b t q)) (srcRegs [a, b]) s fun _ =>
    let la := srcLanes s t a
    let lb := srcLanes s t b
    let old := kr s kd
    let n := (List.range t.lanes).foldl (fun acc i =>
      acc + if (if governs (kr s q) i then condHolds c t (la.getD i 0) (lb.getD i 0) else old.getLsbD i) then 2 ^ i else 0) 0
    finish s [64 + kd.toNat] (setK kd (BitVec.ofNat 128 n) s)

/-- VSEL (R107): the mask selects, and every lane is written. -/
def execVsel (d : VReg) (a b : Src) (t : Ty) (q : MSel) (s : State) : Out :=
  withRegs (encode (.vsel d a b t q)) (d :: srcRegs [a, b]) s fun _ =>
    finish s [vCode d] (setV d (ofLanes t.width (maskLanes (kr s q) (srcLanes s t b) (srcLanes s t a))) s)

/-- VFSH (R108). -/
def execVfsh (d : VReg) (a b : Src) (t : Ty) (q : MSel) (s : State) : Out :=
  vrOp (encode (.vfsh d a b t q)) d a b t q (plain fun z x y => (z * 2 ^ t.width + x) * 2 ^ (y % 256 % t.width) / 2 ^ t.width % 2 ^ t.width) s

/-- The extracted field of a lane (R108). -/
def vbextLane (t : Ty) (x y : Nat) : Nat :=
  let w := t.width
  let p := y % 256
  let l := min (y / 256 % 256) w
  let e := if p ≥ w then 0 else x / 2 ^ p % 2 ^ l
  if t.isSigned && l > 0 then wrapInt w (toInt true l e) else e

/-- VBEXT (R108). -/
def execVbext (d : VReg) (a b : Src) (t : Ty) (q : MSel) (s : State) : Out :=
  vrOp (encode (.vbext d a b t q)) d a b t q (plain fun _ x y => vbextLane t x y) s

/-- VPERM (R109). -/
def execVperm (d a : VReg) (b : Src) (t : Ty) (q : MSel) (s : State) : Out :=
  let src := lanesOf (vr s a) t.width
  vrOp (encode (.vperm d a b t q)) d (.v a) b t q (plain fun _ _ y => src.getD (y % 256) 0) s

/-! ## Conversion (R110 to R112) -/

/-- Whether a conversion is exact and never rounds (R112). -/
def cvtExact (t ts : Ty) : Bool :=
  if ts.isInt then t.isInt && decide (ts.width < t.width)
  else match ts, t with
    | .e4m3, .f16 | .e4m3, .bf16 | .e4m3, .f32 | .e5m2, .f16 | .e5m2, .bf16 | .e5m2, .f32 => true
    | .f16, .f32 | .bf16, .f32 => true
    | .e5m3, .f16 | .e5m3, .bf16 | .e5m3, .f32 => true
    | _, _ => false

/-- One conversion (R71, R112): exact, clamped between integers, or rounded with one draw under the stochastic mode. -/
def convLane (t ts : Ty) (m : Rnd) (sat : Bool) (x : Nat) (c : Acc) : Nat × Acc :=
  if ts.isInt && t.isInt then
    if ts.width < t.width then (laneWrap t (laneInt ts x), c)
    else
      let (z, s) := clampInt t.isSigned t.width (laneInt ts x)
      (laneWrap t z, if s then { c with flags := c.flags ||| 32 } else c)
  else if cvtExact t ts then ((roundVal t rmRne (fdec ts x)).1, c)
  else if ts.isInt then rounding m sat (fun rm => intToFloat t rm (laneInt ts x)) c
  else if t.isInt then rounding m sat (fun rm => floatToInt t.isSigned t.width rm (fdec ts x)) c
  else rounding m sat (fun rm => roundVal t rm (fdec ts x)) c

/-- Conversions of a list of lanes in ascending order. -/
def convList (t ts : Ty) (m : Rnd) (sat : Bool) : List Nat → Acc → List Nat × Acc
  | [], c => ([], c)
  | x :: r, c =>
    let (v, c) := convLane t ts m sat x c
    let (l, c) := convList t ts m sat r c
    (v :: l, c)

/-- VCVT (R110 to R112): the lanes that the part names. -/
def execVcvt (d : VReg) (a : Src) (t ts : Ty) (p : BitVec 2) (r : Rnd) (s : State) : Out :=
  withRegs (encode (.vcvt d a t ts p r)) (d :: srcRegs [a]) s fun _ =>
    let src := srcLanes s ts a
    let old := lanesOf (vr s d) t.width
    let narrow := decide (t.width < ts.width)
    let from_ := if narrow then src else (src.drop (p.toNat * t.lanes)).take t.lanes
    let (l, acc) := convList t ts (rndOf s r) s.hart.ar.satf from_ (accOf s)
    let new := if narrow then old.take (p.toNat * ts.lanes) ++ l ++ old.drop ((p.toNat + 1) * ts.lanes) else l
    finish s [vCode d] (setFlags acc.flags (setLfsr acc.lfsr (setV d (ofLanes t.width new) s)))

/-! ## Unary and transcendental (R71, R113) -/

/-- An instruction of one source that is not long-latency. -/
def vuOp (w : IWord) (d : VReg) (a : Src) (t : Ty) (q : MSel) (f : Nat → Acc → Nat × Acc) (s : State) : Out :=
  vrOp w d a (.lit 0) t q (fun _ x _ c => f x c) s

/-- A pattern with its sign changed by `g`; a NaN gives the canonical one. -/
def signLane (t : Ty) (g : Nat → Nat) (x : Nat) : Nat := if fdec t x = .nan then nanCode t else g x

/-- VABS (R113). -/
def execVabs (d : VReg) (a : Src) (t : Ty) (q : MSel) (s : State) : Out :=
  vuOp (encode (.vabs d a t q)) d a t q (fun x c => (if t.isInt then laneWrap t (laneInt t x).natAbs else signLane t (fun y => y % signBit t) x, c)) s

/-- VNEG (R113). -/
def execVneg (d : VReg) (a : Src) (t : Ty) (q : MSel) (s : State) : Out :=
  vuOp (encode (.vneg d a t q)) d a t q (fun x c => (if t.isInt then laneWrap t (-(laneInt t x)) else signLane t (flipSign t) x, c)) s

/-- VNOT (R113). -/
def execVnot (d : VReg) (a : Src) (t : Ty) (q : MSel) (s : State) : Out :=
  vuOp (encode (.vnot d a t q)) d a t q (fun x c => (2 ^ t.width - 1 - x, c)) s

/-- VCLZ (R113). -/
def execVclz (d : VReg) (a : Src) (t : Ty) (q : MSel) (s : State) : Out :=
  vuOp (encode (.vclz d a t q)) d a t q (fun x c => (t.width - bitLen x, c)) s

/-- VPOPC (R113). -/
def execVpopc (d : VReg) (a : Src) (t : Ty) (q : MSel) (s : State) : Out :=
  vuOp (encode (.vpopc d a t q)) d a t q (fun x c => (popN t.width x, c)) s

/-- VMOV (R57, R113). -/
def execVmov (d : VReg) (a : Src) (t : Ty) (q : MSel) (s : State) : Out :=
  vuOp (encode (.vmov d a t q)) d a t q (fun x c => (x, c)) s

/-- VFLOOR (R113). -/
def execVfloor (d : VReg) (a : Src) (t : Ty) (q : MSel) (s : State) : Out :=
  vuOp (encode (.vfloor d a t q)) d a t q (fun x c => ((roundIntegral t ⟨.rdn, true, 0⟩ x).1, c)) s

/-- VCEIL (R113). -/
def execVceil (d : VReg) (a : Src) (t : Ty) (q : MSel) (s : State) : Out :=
  vuOp (encode (.vceil d a t q)) d a t q (fun x c => ((roundIntegral t ⟨.rup, true, 0⟩ x).1, c)) s

/-- VRNDI (R113). -/
def execVrndi (d : VReg) (a : Src) (t : Ty) (q : MSel) (s : State) : Out :=
  vuOp (encode (.vrndi d a t q)) d a t q (fun x c => rounding (frmOf s) true (fun rm => roundIntegral t rm x) c) s

/-- A long-latency transcendental instruction (R37, R71): the lanes are read and the LFSR drawn at issue; the register and
the flags land later (R66). -/
def vtOp (w : IWord) (op : Trans) (d : VReg) (a : Src) (t : Ty) (q : MSel) (la : BitVec 4) (s : State) : Out :=
  withRegs w (d :: srcRegs [a]) s fun _ =>
    let old := lanesOf (vr s d) t.width
    let src := srcLanes s t a
    let (l, acc) := laneLoop (kr s q)
      (fun i c => rounding (frmOf s) true (fun rm => transCode op t rm (src.getD i 0)) c) old 0 (accOf s)
    finish s [vCode d] (openHeldLanes (.v d) la (ofLanes t.width l) (laneBits (kr s q) t.width) 0 acc.flags (setLfsr acc.lfsr s))

/-- VRCP (R71, R113). -/
def execVrcp (d : VReg) (a : Src) (t : Ty) (q : MSel) (l : BitVec 4) (s : State) : Out :=
  vtOp (encode (.vrcp d a t q l)) .rcp d a t q l s

/-- VSQRT (R71, R113). -/
def execVsqrt (d : VReg) (a : Src) (t : Ty) (q : MSel) (l : BitVec 4) (s : State) : Out :=
  vtOp (encode (.vsqrt d a t q l)) .sqrt d a t q l s

/-- VRSQ (R71, R113). -/
def execVrsq (d : VReg) (a : Src) (t : Ty) (q : MSel) (l : BitVec 4) (s : State) : Out :=
  vtOp (encode (.vrsq d a t q l)) .rsq d a t q l s

/-- VEXP2 (R71, R113). -/
def execVexp2 (d : VReg) (a : Src) (t : Ty) (q : MSel) (l : BitVec 4) (s : State) : Out :=
  vtOp (encode (.vexp2 d a t q l)) .exp2 d a t q l s

/-- VLOG2 (R71, R113). -/
def execVlog2 (d : VReg) (a : Src) (t : Ty) (q : MSel) (l : BitVec 4) (s : State) : Out :=
  vtOp (encode (.vlog2 d a t q l)) .log2 d a t q l s

/-- VTANH (R71, R113). -/
def execVtanh (d : VReg) (a : Src) (t : Ty) (q : MSel) (l : BitVec 4) (s : State) : Out :=
  vtOp (encode (.vtanh d a t q l)) .tanh d a t q l s

/-- VSIGM (R71, R113). -/
def execVsigm (d : VReg) (a : Src) (t : Ty) (q : MSel) (l : BitVec 4) (s : State) : Out :=
  vtOp (encode (.vsigm d a t q l)) .sigm d a t q l s

/-! ## Reductions and scans (R72, R73, R114, R115) -/

/-- The reduction operations (R114). -/
inductive Red where
  | sum | max | min | and | or | xor | amax
  deriving DecidableEq, Repr

/-- Two present lanes combined (R72, R114): only SUM of a floating type rounds. -/
def combine (op : Red) (t : Ty) (m : Rnd) (a b : Nat) (c : Acc) : Nat × Acc :=
  match op with
  | .sum => if t.isInt then (laneWrap t (laneInt t a + laneInt t b), c)
            else rounding m true (fun rm => faddCode t rm a b) c
  | .max | .amax => (minmaxLane t true a b, c)
  | .min => (minmaxLane t false a b, c)
  | .and => (a &&& b, c)
  | .or => (a ||| b, c)
  | .xor => (a ^^^ b, c)

/-- The result when no lane is present (R114). -/
def emptyRed (op : Red) (t : Ty) : Nat :=
  match op with
  | .max => if t.isInt then laneWrap t (intMin t.isSigned t.width) else signBit t + maxCode t + 1
  | .min => if t.isInt then laneWrap t (intMax t.isSigned t.width) else maxCode t + 1
  | .and => 2 ^ t.width - 1
  | _ => 0

/-- One step of R72: lane i takes lane i + h, combined if both are present. -/
def redStep (op : Red) (t : Ty) (m : Rnd) : List (Option Nat) → List (Option Nat) → Acc → List (Option Nat) × Acc
  | p :: ps, q :: qs, c =>
    let (v, c) := match p, q with
      | some a, some b => let (x, c) := combine op t m a b c; (some x, c)
      | none, q => (q, c)
      | p, none => (p, c)
    let (l, c) := redStep op t m ps qs c
    (v :: l, c)
  | ps, _, c => (ps, c)

/-- The pairwise pattern of R72 over 2^k lanes. -/
def redLoop (op : Red) (t : Ty) (m : Rnd) : Nat → List (Option Nat) → Acc → Option Nat × Acc
  | 0, l, c => (l.head?.join, c)
  | k + 1, l, c =>
    let h := l.length / 2
    let (l, c) := redStep op t m (l.take h) (l.drop h) c
    redLoop op t m k l c

/-- The lanes that a mask leaves present; AMAX reads them with their sign cleared (R114). -/
def present (op : Red) (t : Ty) (k : MWord) (l : List Nat) : List (Option Nat) :=
  l.mapIdx fun i x => if governs k i then some (if op = .amax then x % signBit t else x) else none

/-- The reduction of a block of lanes (R72, R114). -/
def reduceBlock (op : Red) (t : Ty) (m : Rnd) (l : List (Option Nat)) (c : Acc) : Option Nat × Acc :=
  let (r, c) := redLoop op t m (t.lanes.log2) l c
  -- a single NaN keeps its own pattern only where nothing was combined; every delivered NaN is canonical (R57)
  (r.map fun x => if !t.isInt && fdec t x == .nan then nanCode t else x, c)

/-- VRED (R114): lane 0 holds the result and every other lane zero. -/
def redOp (w : IWord) (op : Red) (d a : VReg) (t : Ty) (q : MSel) (la : BitVec 4) (s : State) : Out :=
  withRegs w [d, a] s fun _ =>
    let (r, acc) := reduceBlock op t (frmOf s) (present op t (kr s q) (lanesOf (vr s a) t.width)) (accOf s)
    finish s [vCode d] (openHeld (.v d) la (BitVec.ofNat 1024 (r.getD (emptyRed op t))) 0 acc.flags (setLfsr acc.lfsr s))

/-- VRED SUM (R72, R114). -/
def execVredSum (d a : VReg) (t : Ty) (q : MSel) (l : BitVec 4) (s : State) : Out :=
  redOp (encode (.vredSum d a t q l)) .sum d a t q l s

/-- VRED MAX (R72, R114). -/
def execVredMax (d a : VReg) (t : Ty) (q : MSel) (l : BitVec 4) (s : State) : Out :=
  redOp (encode (.vredMax d a t q l)) .max d a t q l s

/-- VRED MIN (R72, R114). -/
def execVredMin (d a : VReg) (t : Ty) (q : MSel) (l : BitVec 4) (s : State) : Out :=
  redOp (encode (.vredMin d a t q l)) .min d a t q l s

/-- VRED AND (R72, R114). -/
def execVredAnd (d a : VReg) (t : Ty) (q : MSel) (l : BitVec 4) (s : State) : Out :=
  redOp (encode (.vredAnd d a t q l)) .and d a t q l s

/-- VRED OR (R72, R114). -/
def execVredOr (d a : VReg) (t : Ty) (q : MSel) (l : BitVec 4) (s : State) : Out :=
  redOp (encode (.vredOr d a t q l)) .or d a t q l s

/-- VRED XOR (R72, R114). -/
def execVredXor (d a : VReg) (t : Ty) (q : MSel) (l : BitVec 4) (s : State) : Out :=
  redOp (encode (.vredXor d a t q l)) .xor d a t q l s

/-- VRED AMAX (R72, R114). -/
def execVredAmax (d a : VReg) (t : Ty) (q : MSel) (l : BitVec 4) (s : State) : Out :=
  redOp (encode (.vredAmax d a t q l)) .amax d a t q l s

/-- Two present values combined at lane `i` in the step of distance `h` (R73). At a lane whose mask bit is 0, which an earlier step made
present, no flag is set and the LFSR does not advance (R23, R66, R103); what a stochastic rounding takes there is free: `draw` gives it.
DESIGN CHOICE: notes/assumptions/100.md. -/
def scanCombine (op : Red) (t : Ty) (m : Rnd) (k : MWord) (draw : Nat → Nat → Word) (h i a b : Nat) (c : Acc) : Nat × Acc :=
  if governs k i then combine op t m a b c else ((combine op t m a b ⟨draw h i, 0⟩).1, c)

/-- One step of R73 at distance h: each lane reads what the step before left, in ascending order. -/
def scanStep (op : Red) (t : Ty) (m : Rnd) (k : MWord) (draw : Nat → Nat → Word) (prev : List (Option Nat)) (h : Nat) :
    List (Option Nat) → Nat → Acc → List (Option Nat) × Acc
  | [], _, c => ([], c)
  | x :: r, i, c =>
    let (v, c) := match (if i < h then none else (prev[i - h]?).join), x with
      | none, x => (x, c)
      | some a, none => (some a, c)
      | some a, some b => let (y, c) := scanCombine op t m k draw h i a b c; (some y, c)
    let (l, c) := scanStep op t m k draw prev h r (i + 1) c
    (v :: l, c)

/-- The steps of R73: h = 1, 2, 4, and so on. -/
def scanLoop (op : Red) (t : Ty) (m : Rnd) (k : MWord) (draw : Nat → Nat → Word) :
    Nat → Nat → List (Option Nat) → Acc → List (Option Nat) × Acc
  | 0, _, l, c => (l, c)
  | n + 1, h, l, c =>
    let (l, c) := scanStep op t m k draw l h l 0 c
    scanLoop op t m k draw n (2 * h) l c

/-- What stochastic roundings take at the lanes of mask bit 0 of the scan that issues now. -/
def scanDraws (s : State) : Nat → Nat → Word := Config.scanDraw s.hart.tc.icount

/-- VSCAN (R115): only the governed lanes receive their prefix. -/
def scanOp (w : IWord) (op : Red) (d a : VReg) (t : Ty) (q : MSel) (la : BitVec 4) (s : State) : Out :=
  withRegs w [d, a] s fun _ =>
    let k := kr s q
    let (l, acc) := scanLoop op t (frmOf s) k (scanDraws s) t.lanes.log2 1 (present op t k (lanesOf (vr s a) t.width)) (accOf s)
    let canon := fun x => if !t.isInt && fdec t x == .nan then nanCode t else x
    let new := maskLanes k (lanesOf (vr s d) t.width) (l.map fun x => canon (x.getD 0))
    finish s [vCode d] (openHeldLanes (.v d) la (ofLanes t.width new) (laneBits k t.width) 0 acc.flags (setLfsr acc.lfsr s))

/-- VSCAN SADD (R73, R115). -/
def execVscanSadd (d a : VReg) (t : Ty) (q : MSel) (l : BitVec 4) (s : State) : Out :=
  scanOp (encode (.vscanSadd d a t q l)) .sum d a t q l s

/-- VSCAN SMAX (R73, R115). -/
def execVscanSmax (d a : VReg) (t : Ty) (q : MSel) (l : BitVec 4) (s : State) : Out :=
  scanOp (encode (.vscanSmax d a t q l)) .max d a t q l s

/-- VSCAN SMIN (R73, R115). -/
def execVscanSmin (d a : VReg) (t : Ty) (q : MSel) (l : BitVec 4) (s : State) : Out :=
  scanOp (encode (.vscanSmin d a t q l)) .min d a t q l s

/-! ## Compaction and spatial keys (R116 to R119) -/

/-- VCOMPACT (R116). -/
def execVcompact (d a : VReg) (t : Ty) (q : MSel) (s : State) : Out :=
  withRegs (encode (.vcompact d a t q)) [d, a] s fun _ =>
    let kept := ((lanesOf (vr s a) t.width).mapIdx fun i x => (i, x)).filterMap fun p =>
      if governs (kr s q) p.1 then some p.2 else none
    finish s [vCode d] (setV d (ofLanes t.width kept) s)

/-- The lanes of VEXPAND: governed lanes take the next lane of a. -/
def expandLanes (k : MWord) : List Nat → List Nat → Nat → List Nat
  | [], _, _ => []
  | o :: os, src, i => if governs k i then src.headD 0 :: expandLanes k os src.tail (i + 1) else o :: expandLanes k os src (i + 1)

/-- VEXPAND (R116). -/
def execVexpand (d a : VReg) (t : Ty) (q : MSel) (s : State) : Out :=
  withRegs (encode (.vexpand d a t q)) [d, a] s fun _ =>
    let l := expandLanes (kr s q) (lanesOf (vr s d) t.width) (lanesOf (vr s a) t.width) 0
    finish s [vCode d] (setV d (ofLanes t.width l) s)

/-- A cell index (R117): the exact product, clamped to 0 .. 2^21 - 1. A product strictly between 2^21 - 1 and 2^21, which no row of the
table holds, is taken by its floor, without SA. DEDUCED: notes/assumptions/114.md. -/
def cellLane (a b : Nat) : Nat × Nat :=
  let top := 2 ^ 21 - 1
  match (mulVal (fdec .f32 a) (fdec .f32 b)).1 with
  | .nan => (0, 1)
  | .inf neg => if neg then (0, 32) else (top, 32)
  | .fin neg n e =>
    if neg && n != 0 then (0, 32)
    else
      let k := (splitAt n (-e)).1
      if k > top then (top, 32) else (k, 0)

/-- VCELL (R117). -/
def execVcell (d : VReg) (a b : Src) (q : MSel) (s : State) : Out :=
  vrOp (encode (.vcell d a b q)) d a b .f32 q (fun _ x y c =>
    let (v, f) := cellLane x y
    (v, { c with flags := c.flags ||| f })) s

/-- The bits of a coordinate spread to every third place. -/
def spread3 : Nat → Nat → Nat → Nat
  | 0, _, _ => 0
  | n + 1, x, j => (x % 2) * 2 ^ (3 * j) + spread3 n (x / 2) (j + 1)

/-- A Morton key and SA if a coordinate was clamped (R118). -/
def mortonLane (t : Ty) (z x y : Nat) : Nat × Nat :=
  let n := if t = .n32 then 10 else 21
  let top := 2 ^ n - 1
  let cl := fun v => min v top
  (spread3 n (cl x) 0 + 2 * spread3 n (cl y) 0 + 4 * spread3 n (cl z) 0, if x > top || y > top || z > top then 32 else 0)

/-- VMORTON (R118). -/
def execVmorton (d : VReg) (a b : Src) (t : Ty) (q : MSel) (s : State) : Out :=
  vrOp (encode (.vmorton d a b t q)) d a b t q (fun z x y c =>
    let (v, f) := mortonLane t z x y
    (v, { c with flags := c.flags ||| f })) s

/-- A bucket number (R119). -/
def hashLane (t : Ty) (x y : Nat) : Nat :=
  let w := t.width
  let m := if t = .n32 then 0x9E3779B1 else 0x9E3779B97F4A7C15
  let s := min (y % 256) w
  if s = 0 then 0 else x * m % 2 ^ w / 2 ^ (w - s)

/-- VHASHK (R119). -/
def execVhashk (d : VReg) (a b : Src) (t : Ty) (q : MSel) (s : State) : Out :=
  vrOp (encode (.vhashk d a b t q)) d a b t q (plain fun _ x y => hashLane t x y) s

/-! ## Masks (R120) -/

/-- A mask result. -/
def maskWrite (d : MSel) (v : MWord) (s : State) : Out := finish s [64 + d.toNat] (setK d v s)

/-- MAND (R120). -/
def execMand (d a b : MSel) (s : State) : Out := maskWrite d (kr s a &&& kr s b) s

/-- MOR (R120). -/
def execMor (d a b : MSel) (s : State) : Out := maskWrite d (kr s a ||| kr s b) s

/-- MXOR (R120). -/
def execMxor (d a b : MSel) (s : State) : Out := maskWrite d (kr s a ^^^ kr s b) s

/-- MANDN (R120). -/
def execMandn (d a b : MSel) (s : State) : Out := maskWrite d (kr s a &&& ~~~(kr s b)) s

/-- MNOT (R120). -/
def execMnot (d a : MSel) (s : State) : Out := maskWrite d (~~~(kr s a)) s

/-- MPOPC (R120). -/
def execMpopc (d : Reg) (a : MSel) (s : State) : Out := finish s [d.toNat] (setX d (wordOf (popN 128 (kr s a).toNat)) s)

/-- MFIRST (R120). -/
def execMfirst (d : Reg) (a : MSel) (s : State) : Out := finish s [d.toNat] (setX d (wordOf (ctzN 128 (kr s a).toNat)) s)

/-- MFROMX (R120). -/
def execMfromx (d : MSel) (a b : Reg) (s : State) : Out := maskWrite d (xr s b ++ xr s a) s

/-- MTOX (R120). -/
def execMtox (d : Reg) (a : MSel) (h : Bool) (s : State) : Out :=
  finish s [d.toNat] (setX d (if h then (kr s a).extractLsb' 64 64 else (kr s a).extractLsb' 0 64) s)

/-! ## The allotment and lane access (R127, R128) -/

/-- The allotments (R99). -/
def legalAllot (q : Word) : Bool := q == 8 || q == 16 || q == 24 || q == 32

/-- The names from `lo` to `hi - 1` read zero (R99, R127). -/
def zeroNames (lo hi : Nat) (h : Hart) : Hart :=
  { h with regs := { h.regs with v := h.regs.v.mapIdx fun i x => if lo ≤ i && i < hi then 0 else x } }

/-- VGROW (R127). -/
def execVgrow (d a : Reg) (s : State) : Out :=
  let q := xr s a
  let cur := s.hart.regs.allot
  let s1 := if legalAllot q && decide (cur ≤ q.toNat) then
      onHart (fun h => let h := zeroNames cur q.toNat h; { h with regs := { h.regs with allot := q.toNat } }) s
    else s
  finish s [d.toNat] (setX d (wordOf s1.hart.regs.allot) s1)

/-- Whether a held write names a register that VSHRINK releases (R127). -/
def releasedBy (q cur : Nat) (w : Held) : Bool :=
  match w.dst with
  | .v r => !w.shadow && decide (q ≤ r.toNat) && decide (r.toNat < cur)
  | _ => false

/-- Whether VSHRINK waits for a value (R127). -/
def shrinkWaits (s : State) (a : Reg) : Bool :=
  let q := xr s a
  legalAllot q && decide (q.toNat ≤ s.hart.regs.allot) &&
    s.hart.held.any fun w => releasedBy q.toNat s.hart.regs.allot w && w.missing != 0

/-- VSHRINK (R127): the held writes of the released names are discarded, and the flags they carry set. One that has met poison is
discarded with its poison. DESIGN CHOICE: notes/assumptions/101.md. -/
def execVshrink (d a : Reg) (s : State) : Out :=
  let q := xr s a
  let cur := s.hart.regs.allot
  if shrinkWaits s a then hold s else
  let s1 := if legalAllot q && decide (q.toNat ≤ cur) then
      let gone := s.hart.held.filter (releasedBy q.toNat cur)
      let s := gone.foldl (fun s w => setFlags w.flags.toNat s) s
      onHart (fun h => let h := zeroNames q.toNat cur h
        { h with regs := { h.regs with allot := q.toNat }, held := h.held.filter fun w => !releasedBy q.toNat cur w }) s
    else s
  finish s [d.toNat] (setX d (wordOf s1.hart.regs.allot) s1)

/-- VALLOTQ (R127). -/
def execVallotq (d : Reg) (s : State) : Out := finish s [d.toNat] (setX d (wordOf s.hart.regs.allot) s)

/-- The width and the lane that a control word names (R128). -/
def laneControl (c : Word) : Nat × Nat :=
  let w := 8 * 2 ^ bits c 9 8
  (w, bits c 7 0 % (1024 / w))

/-- VEXT (R128). -/
def execVext (d : Reg) (a : VReg) (b : Reg) (s : State) : Out :=
  withRegs (encode (.vext d a b)) [a] s fun _ =>
    let (w, j) := laneControl (xr s b)
    let v := lane (vr s a) w j
    finish s [d.toNat] (setX d (if (xr s b).getLsbD 10 then BitVec.ofInt 64 (toInt true w v) else wordOf v) s)

/-- VINS (R128). -/
def execVins (d : VReg) (a b : Reg) (s : State) : Out :=
  withRegs (encode (.vins d a b)) [d] s fun _ =>
    let (w, j) := laneControl (xr s b)
    finish s [vCode d] (setV d (ofLanes w ((lanesOf (vr s d) w).set j ((xr s a).toNat % 2 ^ w))) s)

end Sys2Proof.Machine
end

