-- ==== Sys2Proof/Machine/LoadStore.lean ====
section
/-! DEFINITION. Loads and stores, VLD and VST, gather and scatter, and line maintenance (R149 to R154). -/

namespace Sys2Proof.Machine

/-! ## Operation bits (R155) -/

/-- The operation bits of R155. -/
inductive TOp where
  | elem | reduce | mmaA | mmaB | tread | gather | scatter | atomic | red | near | future | peer | host
  deriving DecidableEq, Repr

/-- The number of an operation bit. -/
def TOp.code : TOp → Nat
  | .elem => 0
  | .reduce => 1
  | .mmaA => 2
  | .mmaB => 3
  | .tread => 4
  | .gather => 5
  | .scatter => 6
  | .atomic => 7
  | .red => 8
  | .near => 9
  | .future => 10
  | .peer => 11
  | .host => 12

/-- What a read needs. -/
def readNeed (o : TOp) : Need := ⟨true, false, o.code⟩
/-- What a write needs. -/
def writeNeed (o : TOp) : Need := ⟨false, true, o.code⟩
/-- What a read-modify-write needs. -/
def rmwNeed (o : TOp) : Need := ⟨true, true, o.code⟩

/-! ## The store queue's capacity (R149.5) -/

/-- The entries of the store queue. -/
def sqSize : Nat := 32

/-- Whether `n` entries fit into the store queue. -/
def sqRoom (s : State) (n : Nat) : Bool := decide (s.hart.sq.length + n ≤ sqSize)

/-- The space that a store's log entry may need (R391). -/
def storeNeed (s : State) (op : StoreOp) (l : Loc) : Nat :=
  if logCovers s s.hart.ar.ctx s.hart.tc.covered then entryNeed op l else 0

/-- A request enters the store queue: it waits for room, reserves its log entry and enters (R149). -/
def sqIssue (s0 : State) (op : StoreOp) (a : Access) (rel : Option Scope) (s : State) : Out :=
  if !sqRoom s 1 then hold s0 else
  withLog s0 (storeNeed s op a.loc) s fun s => finish s0 [] (enqueue op a rel s)

/-- A store, which is an effect instruction (R253), issued after its checks. -/
def storeIssue (s0 : State) (op : StoreOp) (c : Chk (Access × State)) (rel : Option Scope) : Out :=
  afterChecks c s0 fun (a, s) => sqIssue s0 op a rel (markEffect s)

/-! ## Scalar loads and stores (R149, R150) -/

/-- The point at which a hinted load reads (R139). -/
def hintPoint : Hint → ReadPoint
  | .normal => .cache
  | .by => .cvp
  | .na => .noAlloc
  | .lu => .lastUse

/-- The log space a load may need: a covered .LU load may drop dirty bytes (R386). -/
def loadNeed (s : State) (h : Hint) (a : Access) : Nat :=
  if h = .lu && a.region == .wb && logCovers s s.hart.ar.ctx s.hart.tc.covered then 160 else 0

/-- A load of `size` bytes into a register, whose value arrives at [8 size - 1 : 0]. Its log space and that of its ring entries are one
reservation (R391). -/
def loadIssue (s0 : State) (dst : Dst) (code : Nat) (l : BitVec 4) (h : Hint) (size : Nat) (signed : Bool)
    (c : Chk (Access × State)) : Out :=
  afterChecks c s0 fun (a, s) =>
    withLog s0 (loadNeed s h a + ringNeed s [code]) s fun s =>
      finish s0 [code] (request s.hart.nextId 0 size signed a (hintPoint h) (openHeld dst l 0 1 0 s))

/-- A scalar load (R149). -/
def scalarLoad (d b : Reg) (l : BitVec 4) (h : Hint) (o : BitVec 9) (size : Nat) (signed : Bool) (s : State) : Out :=
  loadIssue s (xDst d) d.toNat l h size signed (checkAccess s (memAddr s b o size) size (readNeed .elem))

/-- A scalar store of the low bytes of a register (R149). -/
def scalarStore (d b : Reg) (h : Hint) (o : BitVec 9) (size : Nat) (s : State) : Out :=
  storeIssue s (.store (natBytes size (xr s d).toNat) h) (checkAccess s (memAddr s b o size) size (writeNeed .elem)) none

/-- LDB (R149). -/
def execLdb (d b : Reg) (l : BitVec 4) (h : Hint) (o : BitVec 9) (s : State) : Out := scalarLoad d b l h o 1 true s
/-- LDH (R149). -/
def execLdh (d b : Reg) (l : BitVec 4) (h : Hint) (o : BitVec 9) (s : State) : Out := scalarLoad d b l h o 2 true s
/-- LDW (R149). -/
def execLdw (d b : Reg) (l : BitVec 4) (h : Hint) (o : BitVec 9) (s : State) : Out := scalarLoad d b l h o 4 true s
/-- LDD (R149). -/
def execLdd (d b : Reg) (l : BitVec 4) (h : Hint) (o : BitVec 9) (s : State) : Out := scalarLoad d b l h o 8 false s
/-- LDBN (R149). -/
def execLdbn (d b : Reg) (l : BitVec 4) (h : Hint) (o : BitVec 9) (s : State) : Out := scalarLoad d b l h o 1 false s
/-- LDHN (R149). -/
def execLdhn (d b : Reg) (l : BitVec 4) (h : Hint) (o : BitVec 9) (s : State) : Out := scalarLoad d b l h o 2 false s
/-- LDWN (R149). -/
def execLdwn (d b : Reg) (l : BitVec 4) (h : Hint) (o : BitVec 9) (s : State) : Out := scalarLoad d b l h o 4 false s

/-- STB (R149). -/
def execStb (d b : Reg) (h : Hint) (o : BitVec 9) (s : State) : Out := scalarStore d b h o 1 s
/-- STH (R149). -/
def execSth (d b : Reg) (h : Hint) (o : BitVec 9) (s : State) : Out := scalarStore d b h o 2 s
/-- STW (R149). -/
def execStw (d b : Reg) (h : Hint) (o : BitVec 9) (s : State) : Out := scalarStore d b h o 4 s
/-- STD (R149). -/
def execStd (d b : Reg) (h : Hint) (o : BitVec 9) (s : State) : Out := scalarStore d b h o 8 s

/-! ## VLD and VST (R151) -/

/-- VLD (R151): the allotment before R148. -/
def execVld (d : VReg) (b : Reg) (l : BitVec 4) (h : Hint) (o : BitVec 9) (s : State) : Out :=
  withRegs (encode (.vld d b l h o)) [d] s fun _ =>
    loadIssue s (.v d) (vCode d) l h 128 false (checkAccess s (memAddr s b o 128) 128 (readNeed .elem))

/-- VST (R151). -/
def execVst (d : VReg) (b : Reg) (h : Hint) (o : BitVec 9) (s : State) : Out :=
  withRegs (encode (.vst d b h o)) [d] s fun _ =>
    storeIssue s (.store (natBytes 128 (vr s d).toNat) h) (checkAccess s (memAddr s b o 128) 128 (writeNeed .elem)) none

/-! ## VGATH and VSCAT (R152, R153) -/

/-- The governed lanes of an index vector and their addresses, in ascending order (R152). -/
def laneAddrs (s : State) (b : Reg) (v : VReg) (t : Ty) (q : MSel) : List (Nat × Word) :=
  ((lanesOf (vr s v) t.width).mapIdx fun i x => (i, xr s b + wordOf (x * (t.width / 8)))).filter fun p => governs (kr s q) p.1

/-- The checks of every governed lane before any access (R152). -/
def checkLanes (size : Nat) (n : Need) : List (Nat × Word) → State → Chk (List (Nat × Access) × State)
  | [], s => .ok ([], s)
  | (i, a) :: r, s => do
    let (x, s) ← checkAccess s a size n
    let (l, s) ← checkLanes size n r s
    .ok ((i, x) :: l, s)

/-- The loads of a gather, in lane order. -/
def gatherAll (id w : Nat) : List (Nat × Access) → State → State
  | [], s => s
  | (i, a) :: r, s => gatherAll id w r (request id (i * w) (w / 8) false a .cache s)

/-- VGATH (R152): only the governed lanes are written. -/
def execVgath (d : VReg) (b : Reg) (v : VReg) (l : BitVec 4) (t : Ty) (q : MSel) (s : State) : Out :=
  withRegs (encode (.vgath d b v l t q)) [d, v] s fun _ =>
    afterChecks (checkLanes (t.width / 8) (readNeed .gather) (laneAddrs s b v t q) s) s fun (as, s1) =>
      finish s [vCode d] (gatherAll s1.hart.nextId t.width as
        (openHeldLanes (.v d) l (vr s d) (laneBits (kr s q) t.width) as.length 0 s1))

/-- The stores of a scatter, in lane order. -/
def scatterReqs (s : State) (v : VWord) (w : Nat) (l : List (Nat × Access)) : List StoreReq :=
  l.map fun p => { seq := 0, op := .store (natBytes (w / 8) (lane v w p.1)) .normal, loc := p.2.loc, region := p.2.region
                   va := p.2.va, rel := none, org := originOf s }

/-- The lanes of a scatter enter the store queue in order. -/
def scatterAll : List StoreReq → State → State
  | [], s => s
  | q :: r, s => scatterAll r (enqueue q.op ⟨q.loc, q.region, q.va⟩ none s)

/-- The lanes of a scatter that the store queue has room for enter it; the instruction waits with the others (R149.5, R153).
DEDUCED: notes/assumptions/95.md. -/
def scatterEnter (s0 : State) (l : List StoreReq) (s : State) : Out :=
  let n := sqSize - s.hart.sq.length
  let mid := fun (m : Midway) (s : State) => onHart (fun h => { h with mid := m }) (scatterAll (l.take n) s)
  if l.length ≤ n then finishFx s0 [] (mid .none s) else .next (mid (.scatter (l.drop n)) s)

/-- VSCAT (R152, R153). -/
def execVscat (d : VReg) (b : Reg) (v : VReg) (t : Ty) (q : MSel) (s : State) : Out :=
  match s.hart.mid with
  | .scatter l => scatterEnter s l s
  | _ =>
    withRegs (encode (.vscat d b v t q)) [d, v] s fun _ =>
      afterChecks (checkLanes (t.width / 8) (writeNeed .scatter) (laneAddrs s b v t q) s) s fun (as, s1) =>
        withLog s ((as.map fun p => storeNeed s (.store (natBytes (t.width / 8) 0) .normal) p.2.loc).sum) s1 fun s2 =>
          scatterEnter s (scatterReqs s (vr s d) t.width as) s2

/-! ## Line maintenance (R154) -/

/-- PREF (R154): the cluster drops it where the line waits for earlier requests or finds no free chunk.
DEDUCED: notes/assumptions/30.md. -/
def execPref (a : Reg) (s : State) : Out :=
  let v := xr s a
  if !isDevVa v then finish s [] s else
  match checkRegion s v 1 (readNeed .elem) with
  | .ok (x, s1) =>
    if x.region != .wb || isUo s.clu x.loc || !pathClear s x.loc || !cmRoom s1 x.loc false then finish s [] s1
    else finish s [] (l1Fill x.loc (if cmHit s1.clu (lineLoc x.loc) 128 then s1 else cmFill x.loc s1))
  | .error _ => finish s [] s

/-- A line operation that acts on write-back lines only: elsewhere nothing happens (R154). -/
def lineIssue (s0 : State) (op : StoreOp) (c : Chk (Access × State)) : Out :=
  afterChecks c s0 fun (a, s) =>
    if a.region != .wb then finish s0 [] s else sqIssue s0 op { a with loc := lineLoc a.loc } none s

/-- CLEAN (R154). -/
def execClean (a : Reg) (s : State) : Out := lineIssue s .clean (checkRegion s (xr s a) 1 (readNeed .elem))

/-- DISCARD (R142, R154), an effect instruction (R253). -/
def execDiscard (a : Reg) (s : State) : Out :=
  lineIssue s .discard ((checkRegion s (xr s a) 1 (writeNeed .elem)).map fun p => (p.1, markEffect p.2))

/-- The location that an address names now, without checks (R154). -/
def locOfVa (s : State) (a : Word) : Option Loc :=
  let v := a.toNat
  if 0x100000 ≤ v && v < 0x500000 then some ⟨.scr s.hart.ar.cluster, v - 0x100000⟩
  else if viewBase ≤ v && v < viewTop then
    (s.hart.views[(v - viewBase) / 2 ^ 32]?).join.map fun p => ⟨.ten p.1, p.2 * 2 ^ 32 + (v - viewBase) % 2 ^ 32⟩
  else if devBase ≤ v && v < devTop then (walk s.dev s.hart.ar.ctx v).map fun l => ⟨.dev, l.pa⟩
  else none

/-- INVL1 (R154): the line of an address, or with x0 the whole L1. -/
def execInvl1 (a : Reg) (s : State) : Out :=
  if a = 0 then finish s [] (onHart (fun h => { h with l1 := [] }) s)
  else match locOfVa s (xr s a) with
    | some l => finish s [] (onHart (l1Drop l 1) s)
    | none => finish s [] s

/-- ZLINE (R154). -/
def execZline (a : Reg) (s : State) : Out :=
  storeIssue s .zline (checkAccess s (xr s a) 128 (writeNeed .elem)) none

end Sys2Proof.Machine
end

