-- ==== Sys2Proof/Machine/Order.lean ====
section
/-! DEFINITION. Fences, LDAQ and STRL, and the moves of the core: a held write lands, a load or a store is performed (R185,
R186, R190 to R199). -/

namespace Sys2Proof.Machine

/-! ## The scope of a membership mask (R193, R225, R226) -/

/-- The level of a mask (R225). -/
def maskLevel (m : Word) : Nat := bits m 63 62

/-- Whether a mask names a core; `clu` is the issuer's cluster (R226). -/
def maskNames (m : Word) (clu core : Nat) : Bool :=
  let k := clusterOfCore core
  match maskLevel m with
  | 0 => k == clu && m.getLsbD (core % 16)
  | 1 => decide (bits m 56 48 ≤ k) && decide (k < bits m 56 48 + 48) && m.getLsbD (k - bits m 56 48)
  | 2 => decide (bayOfCore core < 56) && m.getLsbD (bayOfCore core)
  | _ => true

/-- Whether a mask names nothing. -/
def maskEmpty (m : Word) : Bool :=
  match maskLevel m with
  | 0 => bits m 15 0 == 0
  | 1 => bits m 47 0 == 0
  | 2 => bits m 55 0 == 0
  | _ => false

/-- The members of a group: the named cores on which the launch has a thread (R226). -/
def maskMembers (s : State) (m : Word) : List Nat := s.clu.members.filter (maskNames m s.hart.ar.cluster)

/-- The narrowest scope that holds every core of a list (R190, R193). -/
def scopeOfCores (me : Nat) (l : List Nat) : Scope :=
  if l.all fun c => clusterOfCore c == clusterOfCore me then .clu
  else if l.all fun c => bayOfCore c == bayOfCore me then .bay
  else if l.all fun c => dieOfCore c == dieOfCore me then .die
  else .dev

/-- R193: the scope of a mask. -/
def maskScope (s : State) (m : Word) : Scope :=
  if maskEmpty m then .core else scopeOfCores s.hart.ar.core (maskMembers s m)

/-- The membership mask of a slot. -/
def slotMask (s : State) (i : Nat) : Word := (s.hart.slots.getD i Slot.reset).bmem

/-- A slot number that the thread may name (R196, R231, R241). -/
def slotCheck (s : State) (v : Word) : Chk Unit :=
  check (decide (v.toNat < 8) && decide (v.toNat < s.hart.nslots)) .protection v

/-- The scope an instruction acts at: a group's mask is read at issue (R193, R196). -/
def resolveScope (s : State) (sc : Scope) (v : Word) : Chk Scope :=
  match sc with
  | .grp => do
    slotCheck s v
    .ok (maskScope s (slotMask s v.toNat))
  | _ => .ok sc

/-! ## FENCE (R195, R196) -/

/-- The parts of a fence that its kind has to do (R195). -/
def fenceOf (s : State) (k : FenceKind) (sc : Scope) : Fence :=
  { kind := k, scope := sc, seq := s.hart.nextSeq + 1
    needRel := k != .acq, needPeer := k == .win && sc == .sys, needSc := k == .sc
    needAcq := k == .acq || k == .ar || k == .sc || k == .fut
    after := none
    window := windowOf s.dev.time }

/-- A fence issued: what it has not done yet holds later instructions. DEDUCED: notes/assumptions/16.md. -/
def fenceIssue (k : FenceKind) (a : Reg) (sc : Scope) (s : State) : Out :=
  afterChecks (resolveScope s sc (xr s a)) s fun sc =>
    finish s [] (settle (onHart (fun h => { h with fences := h.fences ++ [fenceOf s k sc] }) s))

/-- FENCE.ACQ (R195). -/
def execFenceAcq (a : Reg) (sc : Scope) (s : State) : Out := fenceIssue .acq a sc s
/-- FENCE.REL (R195). -/
def execFenceRel (a : Reg) (sc : Scope) (s : State) : Out := fenceIssue .rel a sc s
/-- FENCE.AR (R195). -/
def execFenceAr (a : Reg) (sc : Scope) (s : State) : Out := fenceIssue .ar a sc s
/-- FENCE.SC (R194, R195). -/
def execFenceSc (a : Reg) (sc : Scope) (s : State) : Out := fenceIssue .sc a sc s
/-- FENCE.WIN (R195). -/
def execFenceWin (a : Reg) (sc : Scope) (s : State) : Out := fenceIssue .win a sc s
/-- FENCE.ENG (R195). -/
def execFenceEng (a : Reg) (sc : Scope) (s : State) : Out := fenceIssue .eng a sc s

/-! ## LDAQ and STRL (R197 to R199) -/

/-- The bytes of a size (R47). -/
def sizeBytes : Size → Nat
  | .w => 4
  | .d => 8

/-- The point of an LDAQ (R197). -/
def aqPoint : Scope → ReadPoint
  | .core => .cache
  | .grp | .clu => .cvp
  | .bay | .die => .home
  | .dev | .sys => .homeDev

/-- The acquire that follows the value of the held write opened last, and the later memory instructions it holds (R197,
R214, R223). DEDUCED: notes/assumptions/15.md. -/
def acquireLast (k : FenceKind) (sc : Scope) (s : State) : State :=
  onHart (fun h => { h with fences := h.fences ++ [{ fenceOf s k sc with
    needRel := false, needPeer := false, after := some (h.nextId - 1) }] }) s

/-- LDAQ (R197, R199): the slot before R148. -/
def execLdaq (d a b : Reg) (l : BitVec 4) (sc : Scope) (z : Size) (s : State) : Out :=
  afterChecks (do
    let sc ← resolveScope s sc (xr s b)
    let (x, s) ← checkAccess s (xr s a) (sizeBytes z) (readNeed .elem)
    .ok (sc, x, s)) s fun (sc, x, s1) =>
    finish s [d.toNat] (settle (request s1.hart.nextId 0 (sizeBytes z) (z == .w) x (aqPoint sc)
      (acquireLast .acq sc (openHeld (xDst d) l 0 1 0 s1))))

/-- STRL (R198, R199). -/
def execStrl (d a b : Reg) (sc : Scope) (z : Size) (s : State) : Out :=
  afterChecks (do
    let sc ← resolveScope s sc (xr s b)
    let (x, s) ← checkAccess s (xr s a) (sizeBytes z) (writeNeed .elem)
    .ok (sc, x, s)) s fun (sc, x, s1) =>
    sqIssue s (.strl (natBytes (sizeBytes z) (xr s d).toNat) sc) x (some sc) (markEffect s1)

/-! ## The core's moves -/

/-- HELD_WRITE_LAND (R38, R66, R140): held write `k` lands, or the poison it met is raised in its place.
DEDUCED: notes/assumptions/13, 43. -/
def execHeldWriteLand (k : Nat) (s : State) : Out :=
  match s.hart.held[k]? with
  | none => .next s
  | some w =>
    if !canLand s.hart k then .next s else
    let s1 := onHart (fun h => { h with held := h.held.eraseIdx k }) s
    match w.poison with
    | none => .next (settle (landHeld w s1))
    | some a =>
      if s.hart.thread = .running && s.hart.dbg.stop.isNone then .next (trapImprecise .poison a s1) else .next s

/-- STORE_PERFORM (R186). -/
def execStorePerform (s : State) : Out := .next (performStore s)

/-- LOAD_PERFORM (R185). -/
def execLoadPerform (k : Nat) (s : State) : Out := .next (settle (performLoad k s))

/-! ## The lines' own moves (R134, R189) -/

/-- CVP_WRITEBACK (R189): the dirty bytes of line `k` go to the home; the line stays, clean. -/
def execCvpWriteback (k : Nat) (s : State) : Out :=
  match s.clu.cm[k]? with
  | none => .next s
  | some x =>
    if x.uo.isSome || x.dirty = 0 then .next s
    else .next (settle (onClu (cmPut { x with dirty := 0 }) (sendDirty x (originOf s) s)))

/-- LINE_EVICT (R134.3, R218): dirty bytes or partials go to the home and the line is gone. -/
def execLineEvict (k : Nat) (s : State) : Out :=
  match s.clu.cm[k]? with
  | none => .next s
  | some x => .next (settle (evictLine x s))

/-- L1_DROP (R189). -/
def execL1Drop (k : Nat) (s : State) : Out := .next (onHart (fun h => { h with l1 := h.l1.eraseIdx k }) s)

/-- CM_CLEAN_DROP (R189). -/
def execCmCleanDrop (k : Nat) (s : State) : Out :=
  match s.clu.cm[k]? with
  | none => .next s
  | some x => if isClean s x then .next (evictLine x s) else .next s

end Sys2Proof.Machine
end

