-- ==== Sys2Proof/Machine/Atomics.lean ====
section
/-! DEFINITION. The atomics, the reductions, the update-only lines and the future words (R210 to R224). Where each is performed
stands in Machine/Memory.lean and Machine/Homes.lean. -/

namespace Sys2Proof.Machine

/-- The scope at which an operation on a region releases and acquires (R214). -/
def regionScope : Region → Scope
  | .ls => .core
  | .scr | .pinned => .clu
  | .wb | .unc => .dev

/-- The release of an order (R214). -/
def orderRel (o : AOrder) (r : Region) : Option Scope := if o = .rel || o = .ar then some (regionScope r) else none

/-- The acquire of an order put on the held write opened last (R214). -/
def orderAcq (o : AOrder) (r : Region) (s : State) : State :=
  if o = .acq || o = .ar then acquireLast .acq (regionScope r) s else s

/-- AMO and AMOX (R210 to R216): they enter the store queue, and their value returns in a held write. -/
def amo (op : RmwOp) (d a b : Reg) (l : BitVec 4) (z : Size) (o : AOrder) (s : State) : Out :=
  let n := sizeBytes z
  afterChecks (checkAccess s (xr s a) n (rmwNeed .atomic)) s fun (x, s1) =>
    if !sqRoom s 1 then hold s else
    let q := StoreOp.rmw op n (xr s b) (xr s d) (some s.hart.nextId) false
    withLog s (storeNeed s q x.loc) s1 fun s2 =>
      finishFx s [d.toNat] (enqueue q x (orderRel o x.region) (orderAcq o x.region (openHeld (xDst d) l 0 1 0 s2)))

/-- AMOADD (R213). -/
def execAmoadd (d a b : Reg) (l : BitVec 4) (z : Size) (o : AOrder) (s : State) : Out := amo .add d a b l z o s
/-- AMOMIN (R213). -/
def execAmomin (d a b : Reg) (l : BitVec 4) (z : Size) (o : AOrder) (s : State) : Out := amo .min d a b l z o s
/-- AMOMAX (R213). -/
def execAmomax (d a b : Reg) (l : BitVec 4) (z : Size) (o : AOrder) (s : State) : Out := amo .max d a b l z o s
/-- AMOMINN (R213). -/
def execAmominn (d a b : Reg) (l : BitVec 4) (z : Size) (o : AOrder) (s : State) : Out := amo .minn d a b l z o s
/-- AMOMAXN (R213). -/
def execAmomaxn (d a b : Reg) (l : BitVec 4) (z : Size) (o : AOrder) (s : State) : Out := amo .maxn d a b l z o s
/-- AMOAND (R213). -/
def execAmoand (d a b : Reg) (l : BitVec 4) (z : Size) (o : AOrder) (s : State) : Out := amo .and d a b l z o s
/-- AMOOR (R213). -/
def execAmoor (d a b : Reg) (l : BitVec 4) (z : Size) (o : AOrder) (s : State) : Out := amo .or d a b l z o s
/-- AMOXOR (R213). -/
def execAmoxor (d a b : Reg) (l : BitVec 4) (z : Size) (o : AOrder) (s : State) : Out := amo .xor d a b l z o s
/-- AMOSWAP (R216). -/
def execAmoswap (d a b : Reg) (l : BitVec 4) (z : Size) (o : AOrder) (s : State) : Out := amo .swap d a b l z o s
/-- AMOCAS (R216): the compare value is read at issue. -/
def execAmocas (d a b : Reg) (l : BitVec 4) (z : Size) (o : AOrder) (s : State) : Out := amo .cas d a b l z o s

/-- RED (R217): a store that combines. -/
def redOperation (op : RmwOp) (a b : Reg) (z : Size) (s : State) : Out :=
  let n := sizeBytes z
  storeIssue s (.rmw op n (xr s b) 0 none true) (checkAccess s (xr s a) n (writeNeed .red)) none

/-- REDADDI (R217). -/
def execRedaddi (a b : Reg) (z : Size) (s : State) : Out := redOperation .add a b z s
/-- REDADDF32 (R217). -/
def execRedaddf32 (a b : Reg) (s : State) : Out := redOperation .addf32 a b .w s
/-- REDADDBF16 (R217). -/
def execRedaddbf16 (a b : Reg) (s : State) : Out := redOperation .addbf16 a b .w s
/-- REDMIN (R217). -/
def execRedmin (a b : Reg) (z : Size) (s : State) : Out := redOperation .min a b z s
/-- REDMAX (R217). -/
def execRedmax (a b : Reg) (z : Size) (s : State) : Out := redOperation .max a b z s
/-- REDMINN (R217). -/
def execRedminn (a b : Reg) (z : Size) (s : State) : Out := redOperation .minn a b z s
/-- REDMAXN (R217). -/
def execRedmaxn (a b : Reg) (z : Size) (s : State) : Out := redOperation .maxn a b z s
/-- REDOR (R217). -/
def execRedor (a b : Reg) (z : Size) (s : State) : Out := redOperation .or a b z s

/-- UO_FLUSH (R218): line `k` of the cluster sends its partials. DEDUCED: notes/assumptions/18.md. -/
def execUoFlush (k : Nat) (s : State) : Out :=
  match s.clu.cm[k]? with
  | none => .next s
  | some x => if x.uo.isSome then .next (settle (uoFlushLine x s)) else .next s

/-- UO_RECALL (R219): the home recalls line `k` and combines its partials. DEDUCED: notes/assumptions/18.md. -/
def execUoRecall (k : Nat) (s : State) : Out :=
  match s.clu.cm[k]? with
  | none => .next s
  | some x => if x.uo.isSome then .next (settle (uoRecallLine x s)) else .next s

/-! ## Future words (R221 to R224) -/

/-- The checks of an FE instruction: those of R148 with size 16, then the places R210 refuses. -/
def feCheck (s : State) (a : Word) : Chk (Access × State) := do
  let (x, s) ← checkAccess s a 16 (rmwNeed .future)
  check (x.region == .wb || x.region == .unc) .protection a
  .ok (x, s)

/-- The task a thread runs, with the address of the FEREAD (R254). -/
def taskOf (h : Hart) : Option (Word × IAddr) := if h.tk.run then some (h.tk.tid, h.pc) else none

/-- An FE instruction with a result. -/
def feRead (op : FeOp) (d a : Reg) (l : BitVec 4) (acq fx : Bool) (s : State) : Out :=
  afterChecks (feCheck s (xr s a)) s fun (x, s1) =>
    if !sqRoom s 1 then hold s else
    let q := StoreOp.fe op 0 (some s.hart.nextId) (if op = .read then taskOf s.hart else none)
    withLog s (storeNeed s q x.loc) s1 fun s2 =>
      let s3 := openHeld (xDst d) l 0 1 0 s2
      let s4 := if acq then acquireLast (if op = .read then .fut else .acq) .dev s3 else s3
      finish s [d.toNat] (enqueue q x none (if fx then markEffect s4 else s4))

/-- FETAKE (R222, R223). -/
def execFetake (d a : Reg) (l : BitVec 4) (s : State) : Out := feRead .take d a l true true s

/-- FEREAD (R222 to R224): in a task that has issued an effect instruction it raises Future Order. -/
def execFeread (d a : Reg) (l : BitVec 4) (s : State) : Out :=
  if s.hart.tk.run && s.hart.tk.effect then trap .futureOrder s.hart.tk.tid s else feRead .read d a l true false s

/-- FEPEEK (R222). -/
def execFepeek (d a : Reg) (l : BitVec 4) (s : State) : Out := feRead .peek d a l false false s

/-- FEPUT (R222, R223): a release at device scope before it leaves the store queue. -/
def execFeput (a b : Reg) (s : State) : Out :=
  storeIssue s (.fe .put (xr s b) none none) (feCheck s (xr s a)) (some .dev)

/-- FECLR (R222). -/
def execFeclr (a : Reg) (s : State) : Out := storeIssue s (.fe .clr 0 none none) (feCheck s (xr s a)) none

end Sys2Proof.Machine
end

