-- ==== Sys2Proof/Machine/Scalar.lean ====
section
/-! DEFINITION. The scalar arithmetic: the ALU (R81, R82), the immediates (R83, R84) and the load-immediates (R85). -/

namespace Sys2Proof.Machine

/-- A scalar result written, and the instruction retired. -/
def aluWrite (d : Reg) (v : Word) (s : State) : Out := finish s [d.toNat] (setX d v s)

/-- The shift amount of a register: b[7:0] (R54, R81). -/
def amount (b : Word) : Nat := b.toNat % 256

/-- A signed comparison of two words. -/
def sltW (a b : Word) : Bool := a.slt b
/-- A natural comparison of two words. -/
def ultW (a b : Word) : Bool := a.ult b
/-- 1 or 0. -/
def boolW (b : Bool) : Word := if b then 1 else 0

/-- The long-latency results of the DIV group (R37, R53): known at issue, held for the window. -/
def divWrite (d : Reg) (l : BitVec 4) (v : Int) (s : State) : Out := finishHeldX s d l (BitVec.ofInt 64 v) s

/-- Bits p and l of a field operand (R82). -/
def fieldLen (b : Word) : Nat := min (bits b 15 8) 64
/-- R82: BEXT. -/
def bextW (a b : Word) : Word :=
  let p := amount b
  if p ≥ 64 then 0 else wordOf (a.toNat / 2 ^ p % 2 ^ fieldLen b)
/-- R82: BINS. -/
def binsW (d a b : Word) : Word :=
  let p := amount b
  if p ≥ 64 then d else
  let m := wordOf ((2 ^ fieldLen b - 1) * 2 ^ p)
  (d &&& ~~~m) ||| ((a <<< p) &&& m)
/-- R82: FSHL, the old xd above a. -/
def fshlW (d a b : Word) : Word := wordOf ((d.toNat * 2 ^ 64 + a.toNat) * 2 ^ (b.toNat % 64) / 2 ^ 64)
/-- R82: FSHR, a above the old xd. -/
def fshrW (d a b : Word) : Word := wordOf ((a.toNat * 2 ^ 64 + d.toNat) / 2 ^ (b.toNat % 64))

/-- R81: the count of leading zeros. -/
def clzW (a : Word) : Word := wordOf (64 - bitLen a.toNat)

/-- ADD (R81). -/
def execAdd (d a b : Reg) (s : State) : Out := aluWrite d (xr s a + xr s b) s

/-- SUB (R81). -/
def execSub (d a b : Reg) (s : State) : Out := aluWrite d (xr s a - xr s b) s

/-- MUL (R81). -/
def execMul (d a b : Reg) (s : State) : Out := aluWrite d (xr s a * xr s b) s

/-- MULH (R81). -/
def execMulh (d a b : Reg) (s : State) : Out := aluWrite d (BitVec.ofInt 64 ((xr s a).toInt * (xr s b).toInt / 2 ^ 64)) s

/-- MULHN (R81). -/
def execMulhn (d a b : Reg) (s : State) : Out := aluWrite d (wordOf ((xr s a).toNat * (xr s b).toNat / 2 ^ 64)) s

/-- DIV (R53, R81). -/
def execDiv (d a b : Reg) (l : BitVec 4) (s : State) : Out := divWrite d l (divQ true 64 (xr s a).toInt (xr s b).toInt) s

/-- DIVN (R53, R81). -/
def execDivn (d a b : Reg) (l : BitVec 4) (s : State) : Out := divWrite d l (divQ false 64 (xr s a).toNat (xr s b).toNat) s

/-- REM (R53, R81). -/
def execRem (d a b : Reg) (l : BitVec 4) (s : State) : Out := divWrite d l (divR true 64 (xr s a).toInt (xr s b).toInt) s

/-- REMN (R53, R81). -/
def execRemn (d a b : Reg) (l : BitVec 4) (s : State) : Out := divWrite d l (divR false 64 (xr s a).toNat (xr s b).toNat) s

/-- AND (R81). -/
def execAnd (d a b : Reg) (s : State) : Out := aluWrite d (xr s a &&& xr s b) s

/-- OR (R81). -/
def execOr (d a b : Reg) (s : State) : Out := aluWrite d (xr s a ||| xr s b) s

/-- XOR (R81). -/
def execXor (d a b : Reg) (s : State) : Out := aluWrite d (xr s a ^^^ xr s b) s

/-- ANDN (R81). -/
def execAndn (d a b : Reg) (s : State) : Out := aluWrite d (xr s a &&& ~~~(xr s b)) s

/-- SHL (R81). -/
def execShl (d a b : Reg) (s : State) : Out := aluWrite d (wordOf (shlN 64 (xr s a).toNat (amount (xr s b)))) s

/-- SHR (R81). -/
def execShr (d a b : Reg) (s : State) : Out := aluWrite d (wordOf (shrN 64 (xr s a).toNat (amount (xr s b)))) s

/-- SAR (R81). -/
def execSar (d a b : Reg) (s : State) : Out := aluWrite d (wordOf (sarN 64 (xr s a).toNat (amount (xr s b)))) s

/-- ROL (R81). -/
def execRol (d a b : Reg) (s : State) : Out := aluWrite d (wordOf (rolN 64 (xr s a).toNat (amount (xr s b)))) s

/-- ROR (R81). -/
def execRor (d a b : Reg) (s : State) : Out := aluWrite d (wordOf (rolN 64 (xr s a).toNat (64 - amount (xr s b) % 64))) s

/-- MIN (R81). -/
def execMin (d a b : Reg) (s : State) : Out := aluWrite d (if sltW (xr s a) (xr s b) then xr s a else xr s b) s

/-- MAX (R81). -/
def execMax (d a b : Reg) (s : State) : Out := aluWrite d (if sltW (xr s a) (xr s b) then xr s b else xr s a) s

/-- MINN (R81). -/
def execMinn (d a b : Reg) (s : State) : Out := aluWrite d (if ultW (xr s a) (xr s b) then xr s a else xr s b) s

/-- MAXN (R81). -/
def execMaxn (d a b : Reg) (s : State) : Out := aluWrite d (if ultW (xr s a) (xr s b) then xr s b else xr s a) s

/-- CLZ (R81). -/
def execClz (d a : Reg) (s : State) : Out := aluWrite d (clzW (xr s a)) s

/-- CTZ (R81). -/
def execCtz (d a : Reg) (s : State) : Out := aluWrite d (wordOf (ctzN 64 (xr s a).toNat)) s

/-- POPC (R81). -/
def execPopc (d a : Reg) (s : State) : Out := aluWrite d (wordOf (popN 64 (xr s a).toNat)) s

/-- SLT (R81). -/
def execSlt (d a b : Reg) (s : State) : Out := aluWrite d (boolW (sltW (xr s a) (xr s b))) s

/-- SLTN (R81). -/
def execSltn (d a b : Reg) (s : State) : Out := aluWrite d (boolW (ultW (xr s a) (xr s b))) s

/-- SEQ (R81). -/
def execSeq (d a b : Reg) (s : State) : Out := aluWrite d (boolW (xr s a == xr s b)) s

/-- BEXT (R82). -/
def execBext (d a b : Reg) (s : State) : Out := aluWrite d (bextW (xr s a) (xr s b)) s

/-- BINS (R82). -/
def execBins (d a b : Reg) (s : State) : Out := aluWrite d (binsW (xr s d) (xr s a) (xr s b)) s

/-- FSHL (R82). -/
def execFshl (d a b : Reg) (s : State) : Out := aluWrite d (fshlW (xr s d) (xr s a) (xr s b)) s

/-- FSHR (R82). -/
def execFshr (d a b : Reg) (s : State) : Out := aluWrite d (fshrW (xr s d) (xr s a) (xr s b)) s

/-- ADDI (R83). -/
def execAddi (d a : Reg) (i : BitVec 15) (s : State) : Out := aluWrite d (xr s a + imm15 i) s

/-- ANDI (R83). -/
def execAndi (d a : Reg) (i : BitVec 15) (s : State) : Out := aluWrite d (xr s a &&& imm15 i) s

/-- ORI (R83). -/
def execOri (d a : Reg) (i : BitVec 15) (s : State) : Out := aluWrite d (xr s a ||| imm15 i) s

/-- XORI (R83). -/
def execXori (d a : Reg) (i : BitVec 15) (s : State) : Out := aluWrite d (xr s a ^^^ imm15 i) s

/-- SLTI (R83). -/
def execSlti (d a : Reg) (i : BitVec 15) (s : State) : Out := aluWrite d (boolW (sltW (xr s a) (imm15 i))) s

/-- SHLI (R84). -/
def execShli (d a : Reg) (i : BitVec 8) (s : State) : Out := aluWrite d (wordOf (shlN 64 (xr s a).toNat i.toNat)) s

/-- SHRI (R84). -/
def execShri (d a : Reg) (i : BitVec 8) (s : State) : Out := aluWrite d (wordOf (shrN 64 (xr s a).toNat i.toNat)) s

/-- SARI (R84). -/
def execSari (d a : Reg) (i : BitVec 8) (s : State) : Out := aluWrite d (wordOf (sarN 64 (xr s a).toNat i.toNat)) s

/-- RORI (R84). -/
def execRori (d a : Reg) (i : BitVec 8) (s : State) : Out := aluWrite d (wordOf (rolN 64 (xr s a).toNat (64 - i.toNat % 64))) s

/-- LI (R85). -/
def execLi (d : Reg) (i : BitVec 20) (s : State) : Out := aluWrite d (imm20 i) s

/-- LUI (R85). -/
def execLui (d : Reg) (i : BitVec 20) (s : State) : Out := aluWrite d ((imm20 i <<< 20) + wordOf (bits (xr s d) 19 0)) s

/-- LHI (R85). -/
def execLhi (d : Reg) (i : BitVec 20) (s : State) : Out := aluWrite d ((imm20 i <<< 40) + wordOf (bits (xr s d) 39 0)) s

end Sys2Proof.Machine
end

