-- ==== Sys2Proof/Machine/Csr.lean ====
section
/-! DEFINITION. The control and status registers (R61 to R70, R77 to R80) and the CSR instructions. The layouts stand in the
chapters that R77 names. -/

namespace Sys2Proof.Machine

/-- The order of the modes (R50). -/
def modeRank : Mode → Nat
  | .u => 0
  | .s => 1
  | .m => 3

/-- The class of an address (R77): the rank that reads it, and the rank that writes it if any may. -/
def csrClass (a : Nat) : Option (Nat × Option Nat) :=
  if a < 0x10 then some (0, none)
  else if a < 0x20 then some (0, some 0)
  else if a < 0x30 then some (0, none)
  else if a < 0x40 then some (0, some 1)
  else if a < 0x50 then some (0, some 0)
  else if a < 0x60 then some (1, some 1)
  else if a < 0xB0 then some (0, some 1)
  else if a < 0xD0 then some (3, some 3)
  else none

/-- The addresses that name a register. -/
def csrNamed (a : Nat) : Bool :=
  (a ≤ 0x03) || (0x10 ≤ a && a ≤ 0x14) || a == 0x20 || (0x30 ≤ a && a ≤ 0x33) || (0x40 ≤ a && a ≤ 0x43) ||
  (0x50 ≤ a && a ≤ 0x55) || (0x60 ≤ a && a ≤ 0x63) || (0x70 ≤ a && a ≤ 0x71) || (0x80 ≤ a && a ≤ 0x8A) ||
  (0x90 ≤ a && a ≤ 0x92) || a == 0xA0 || (0xB0 ≤ a && a ≤ 0xB2) || (0xC0 ≤ a && a ≤ 0xC2)

/-- Whether a mode may read an address, and write it when `wr` holds (R50, R77). -/
def csrAllowed (mode : Mode) (a : Nat) (wr : Bool) : Bool :=
  csrNamed a && match csrClass a with
  | none => false
  | some (r, w) => decide (r ≤ modeRank mode) && (!wr || match w with
    | some k => decide (k ≤ modeRank mode)
    | none => false)

/-- A field of a register's value. -/
def fieldAt (b : Bool) (i : Nat) : Nat := if b then 2 ^ i else 0

/-- STATUS (R359). -/
def statusVal (t : TrapRegs) : Nat :=
  (match t.ppm with | .s => 1 | _ => 0) + fieldAt t.tip 2 + fieldAt t.prn 4 + fieldAt t.uih 5 + fieldAt t.frm 6 + fieldAt t.hwp 7

/-- The context that CSEL selects (R383). -/
def selCtx (d : Device) : Option Context := ctxOf d d.csel.toNat

/-- A quorum register: four counts of 16 bits from slot `i` on (R225). -/
def quorumVal (h : Hart) (i : Nat) : Nat :=
  (List.range 4).foldl (fun acc j => acc + (h.slots.getD (i + j) Slot.reset).quorum.toNat * 2 ^ (16 * j)) 0

/-- The commands this core has sent to any matrix unit that have not retired (R325). -/
def pendingCmds (s : State) : Nat :=
  ((s.dev.units.flatMap fun u => (u.queue.filter fun c => c.core == s.hart.ar.core).map (·.id)).dedup).length

/-- The value of a CSR (R61 to R70, R78, R99, R208, R225, R245, R261, R325, R359, R383, R390, R403, R440). What COREID, CLUSTERID and
CTXID read on a service core, which is none of the numbered cores and lies in no cluster and no context (R13), is free.
DEDUCED: notes/assumptions/62.md. -/
def csrVal (s : State) (a : Nat) : Word :=
  let h := s.hart
  let c := curCtx s
  match a with
  | 0x000 => wordOf (if isService h then 7168 + Config.serviceCore 0 h.ar.core % 1024 else h.ar.core % 2 ^ 13)
  | 0x001 => wordOf (if isService h then Config.serviceCore 1 h.ar.core % 2 ^ 9 else h.ar.cluster % 2 ^ 9)
  | 0x002 => wordOf (if isService h then Config.serviceCore 2 h.ar.core % 16 else h.ar.ctx % 16)
  | 0x003 => wordOf (modeRank h.mode)
  | 0x010 => wordOf (0x100 + fieldAt h.ar.nbv 0)
  | 0x011 => h.ar.frm.setWidth 64
  | 0x012 => h.ar.fflags.setWidth 64
  | 0x013 => h.ar.lfsr
  | 0x014 => boolW h.ar.satf
  | 0x020 => wordOf (h.regs.allot % 64)
  | 0x030 => s.dev.time
  | 0x031 => s.dev.time >>> 9
  | 0x032 => wordOf (fieldAt h.ss.ph 63 + h.ss.count.toNat)
  | 0x033 => wordOf (h.ss.next.toNat * 256 + h.ss.level.toNat)
  | 0x040 => h.ui.uivec.setWidth 64
  | 0x041 => h.ui.uicause.setWidth 64
  | 0x042 => h.ui.uiepc.setWidth 64
  | 0x043 => wordOf (h.ui.thr.toNat * 2 ^ 16 + fieldAt h.ui.inh 9 + fieldAt h.ui.armed 8 +
      fieldAt (!s.clu.hold.isEmpty) 7 + h.inbox.length % 128)
  | 0x050 => wordOf (fieldAt h.tr.imp 20 + h.tr.op.toNat * 2 ^ 16 + h.tr.code.toNat)
  | 0x051 => h.tr.epc.setWidth 64
  | 0x052 => h.tr.tval
  | 0x053 => wordOf (statusVal h.tr)
  | 0x054 => h.tr.tvec.setWidth 64
  | 0x055 => h.tr.sscratch
  | 0x060 => match c with | some c => c.mode.setWidth 64 | none => 0
  | 0x061 => match c with | some c => wordOf (c.winNext.toNat * 2 ^ 16 + h.tc.ulwin.toNat) | none => h.tc.ulwin.setWidth 64
  | 0x062 => match c with
    | some c => wordOf (fieldAt c.ulRsv 9 + fieldAt c.ulDropped 8 + c.policy.toNat)
    | none => 0
  | 0x063 => match c with
    | some c => wordOf (c.logBase.toNat / 2 ^ 21 * 2 ^ 21 % 2 ^ 48 + c.log2sz % 64)
    | none => 0
  | 0x070 => h.tc.perturb
  | 0x071 => h.tc.trcctl.setWidth 64
  | 0x088 => wordOf (quorumVal h 0)
  | 0x089 => wordOf (quorumVal h 4)
  | 0x08A => h.blast
  | 0x090 => wordOf (h.tk.launch.toNat * 2 ^ 32 + h.tk.member.toNat * 2 ^ 24 + h.tk.gsize.toNat * 2 ^ 16 + h.tk.gidx.toNat)
  | 0x091 => wordOf (h.tk.tid.toNat % 2 ^ 32 * 2 ^ 32 + h.tk.win.toNat * 2 ^ 16 + h.tk.qmem.toNat * 2 ^ 8 +
      h.tk.prio.toNat * 16 + fieldAt h.tk.effect 3 + fieldAt h.tk.kpend 2 + fieldAt h.tk.qm 1 + fieldAt h.tk.run 0)
  | 0x092 => wordOf (h.tk.lastCause.toNat * 256 + h.tk.lastHow.toNat)
  | 0x0A0 => wordOf (fieldAt h.mfull 16 + pendingCmds s % 2 ^ 16)
  | 0x0B0 => s.dev.csel.setWidth 64
  | 0x0B1 => match selCtx s.dev with | some c => wordOf c.root | none => 0
  | 0x0B2 => match selCtx s.dev with | some c => c.cbudg | none => 0
  | 0x0C0 => wordOf (s.dev.fwver.toNat * 2 ^ 32 + s.dev.rbcnt.toNat * 256 + fieldAt s.dev.dbgok 2 +
      fieldAt s.dev.recovery 1 + fieldAt s.dev.verif 0)
  | 0x0C1 => s.dev.msel.setWidth 64
  | 0x0C2 => ((s.dev.meas.getD (s.dev.msel.toNat / 8) 0) >>> (64 * (s.dev.msel.toNat % 8))).setWidth 64
  | n => if 0x080 ≤ n && n ≤ 0x087 then (h.slots.getD (n - 0x080) Slot.reset).bmem else 0

/-- A read of a CSR by an instruction: TIME and WINDOW observe device time (R15, R245), PERTURB nothing. -/
def csrRead (a : Nat) (s : State) : Word × State :=
  if a = 0x030 || a = 0x031 then let s := passTime s; (csrVal s a, s) else (csrVal s a, s)

/-- The arithmetic registers written (R63, R64, R67). -/
def putArith (f : Arith → Arith) (s : State) : State := onHart (fun h => { h with ar := f h.ar }) s

/-- R70: a write of zero to LFSR stores 1. -/
def putLfsr (v : Word) (s : State) : State := putArith (fun a => { a with lfsr := if v = 0 then 1 else v }) s

/-- R390: ones written to RSV and DROPPED clear them. -/
def putUlfull (v : Word) (s : State) : State :=
  onCur (fun c => { c with
    ulRsv := c.ulRsv && !v.getLsbD 9
    ulDropped := c.ulDropped && !v.getLsbD 8 }) s

/-- R383: the selected context's root table, for walks that start later. -/
def putCroot (v : Word) (s : State) : State :=
  onCtx s.dev.csel.toNat (fun c => { c with root := v.toNat % 2 ^ 40 / 4096 * 4096 }) s

/-- A slot's register written (R225). -/
def putSlot (i : Nat) (f : Slot → Slot) (s : State) : State :=
  onHart (fun h => { h with slots := h.slots.setIfInBounds i (f (h.slots.getD i Slot.reset)) }) s

/-- Four quorum counts written (R225). -/
def putQuorum (i : Nat) (v : Word) (s : State) : State :=
  (List.range 4).foldl (fun s j => putSlot (i + j) (fun x => { x with quorum := BitVec.ofNat 16 (v.toNat / 2 ^ (16 * j)) }) s) s

/-- The mode that PPM takes from a written value; 2 and 3 are not values (R6, R359). DEDUCED: notes/assumptions/90.md. -/
def ppmOf (old : Mode) (v : Word) : Mode :=
  match v.toNat % 4 with
  | 0 => .u
  | 1 => .s
  | _ => old

/-- A CSR write under the field rules of R6 and R7: read-only fields ignore it, and an enumerated field keeps its value
when the value written is not listed. -/
def csrPut (a : Nat) (v : Word) (s : State) : State :=
  match a with
  | 0x011 => putArith (fun x => { x with frm := if v.setWidth 3 = (0 : BitVec 3) then x.frm else v.setWidth 3 }) s
  | 0x012 => putArith (fun x => { x with fflags := v.setWidth 6 }) s
  | 0x013 => putLfsr v s
  | 0x014 => putArith (fun x => { x with satf := v.getLsbD 0 }) s
  | 0x040 => onHart (fun h => { h with ui := { h.ui with uivec := v.setWidth 16 &&& 0xFFFC } }) s
  | 0x042 => onHart (fun h => { h with ui := { h.ui with uiepc := v.setWidth 16 &&& 0xFFFC } }) s
  | 0x050 => onHart (fun h => { h with tr := { h.tr with
      imp := v.getLsbD 20, op := BitVec.ofNat 4 (bits v 19 16), code := v.setWidth 8 } }) s
  | 0x051 => onHart (fun h => { h with tr := { h.tr with epc := v.setWidth 16 &&& 0xFFFC } }) s
  | 0x052 => onHart (fun h => { h with tr := { h.tr with tval := v } }) s
  | 0x053 => onHart (fun h => { h with tr := { h.tr with
      prn := v.getLsbD 4, tip := v.getLsbD 2, ppm := ppmOf h.tr.ppm v } }) s
  | 0x054 => onHart (fun h => { h with tr := { h.tr with tvec := v.setWidth 16 &&& 0xFFC } }) s
  | 0x055 => onHart (fun h => { h with tr := { h.tr with sscratch := v } }) s
  | 0x062 => putUlfull v s
  | 0x070 => onHart (fun h => { h with tc := { h.tc with perturb := v } }) s
  | 0x071 => onHart (fun h => { h with tc := { h.tc with trcctl := v.setWidth 6 } }) s
  | 0x088 => putQuorum 0 v s
  | 0x089 => putQuorum 4 v s
  | 0x0B0 => onDev (fun d => { d with csel := v.setWidth 4 }) s
  | 0x0B1 => putCroot v s
  | 0x0B2 => onCtx s.dev.csel.toNat (fun c => { c with cbudg := v &&& 0xFFFFFFFF000003FF }) s
  | 0x0C1 => onDev (fun d => { d with
      msel := BitVec.ofNat 6 (bits v 5 3 * 8 + if bits v 2 0 < 6 then bits v 2 0 else d.msel.toNat % 8) }) s
  | n => if 0x080 ≤ n && n ≤ 0x087 then putSlot (n - 0x080) (fun x => { x with bmem := v &&& 0xC1FFFFFFFFFFFFFF, gphase := x.phase }) s else s

/-- R79: a CSR instruction. `new` makes the value written from the old one; none does not write. -/
def csrOp (w : IWord) (d : Reg) (c : BitVec 12) (new : Option (Word → Word)) (s : State) : Out :=
  let a := c.toNat
  if !csrAllowed s.hart.mode a new.isSome then illegal w s
  else
    let (old, s1) := csrRead a s
    let s2 := match new with
      | some f => csrPut a (f old) s1
      | none => s1
    finish s [d.toNat] (setX d old s2)

/-- CSRR (R79). -/
def execCsrr (d : Reg) (c : BitVec 12) (s : State) : Out := csrOp (encCS 0x11#7 d 0 c 0#3) d c none s

/-- CSRW (R79): it always writes. -/
def execCsrw (d a : Reg) (c : BitVec 12) (s : State) : Out :=
  csrOp (encCS 0x11#7 d a c 1#3) d c (some fun _ => xr s a) s

/-- CSRS (R79): with xa = x0 it does not write. -/
def execCsrs (d a : Reg) (c : BitVec 12) (s : State) : Out :=
  csrOp (encCS 0x11#7 d a c 2#3) d c (if a = 0 then none else some fun old => old ||| xr s a) s

/-- CSRC (R79). -/
def execCsrc (d a : Reg) (c : BitVec 12) (s : State) : Out :=
  csrOp (encCS 0x11#7 d a c 3#3) d c (if a = 0 then none else some fun old => old &&& ~~~(xr s a)) s

/-- CSRX (R79). -/
def execCsrx (d a : Reg) (c : BitVec 12) (s : State) : Out :=
  csrOp (encCS 0x11#7 d a c 4#3) d c (if a = 0 then none else some fun old => old ^^^ xr s a) s

/-- CSR_WRITE (R80): a write takes effect under the field rules. -/
def execCsrWrite (c : BitVec 12) (v : Word) (s : State) : Out := .next (csrPut c.toNat v s)

/-- LFSR_WRITE (R70). -/
def execLfsrWrite (v : Word) (s : State) : Out := .next (putLfsr v s)

/-- ULFULL_CLEAR (R390). -/
def execUlfullClear (v : Word) (s : State) : Out := .next (putUlfull v s)

/-- CROOT_WRITE (R383). -/
def execCrootWrite (v : Word) (s : State) : Out := .next (putCroot v s)

end Sys2Proof.Machine
end

