-- ==== Sys2Proof/Machine/Trace.lean ====
section
/-! DEFINITION. The scribe and its records, the windows of the undo log, counters, breakpoints by instruction and watchpoints
(R389, R391, R397 to R406, R430). -/

namespace Sys2Proof.Machine

/-! ## The scribe (R401, R402, R430) -/

/-- The classes of trace records, by the bit of TRCCTL that enables each and the KIND of its records (R402, R403). -/
inductive TraceKind where
  | superstep | slot | user | task | join
  deriving DecidableEq, Repr

/-- The KIND of a record. -/
def TraceKind.code : TraceKind → Nat
  | .superstep => 1
  | .slot => 2
  | .user => 3
  | .task => 4
  | .join => 5

/-- Whether records of a class are made: EN and the class's bit, which is its KIND (R403). -/
def traceOn (h : Hart) (k : TraceKind) : Bool := h.tc.trcctl.getLsbD 0 && h.tc.trcctl.getLsbD k.code

/-- Whether making a record would find the buffer full (R401). DEDUCED: notes/assumptions/97.md. -/
def traceStalls (h : Hart) (k : TraceKind) : Bool := traceOn h k && decide (64 ≤ h.tc.scribe.length)

/-- A record made, if its class is enabled (R402). DEDUCED: notes/assumptions/45.md. -/
def traceRecord (k : TraceKind) (payload : List Byte) (s : State) : State :=
  if traceOn s.hart k then
    let s := passTime s
    let bs := natBytes 1 k.code ++ natBytes 1 0 ++ natBytes 2 s.hart.ar.core ++ natBytes 4 s.hart.ss.count.toNat ++
      natBytes 8 s.dev.time.toNat ++ payload
    onHart (fun h => { h with tc := { h.tc with scribe := h.tc.scribe ++ [BitVec.ofNat 512 (bytesNat bs)] } }) s
  else s

/-- Whether the core stands at an exchange boundary: its SEXCH has been released (R401). -/
def atExchange (h : Hart) : Bool := h.mid == .sstep && h.ss.released && !h.ss.ph

/-- Whether the buffer may be emitted now (R401). DEDUCED: notes/assumptions/97.md. -/
def mayEmit (s : State) : Bool :=
  atExchange s.hart || s.hart.thread == .ended || (s.hart.sq.isEmpty && s.hart.loads.isEmpty && (paths s).isEmpty)

/-- Whether the sink has no room for a record (R401, R430). -/
def sinkFull (c : Context) : Bool := decide (c.sinkTail - c.sinkHead + 64 > 2 ^ c.sink2sz)

/-- Whether the scribe holds a record that only the full sink keeps back (R401). -/
def scribeHolds (s : State) : Bool :=
  !s.hart.tc.scribe.isEmpty && mayEmit s && match curCtx s with
    | some c => sinkFull c
    | none => false

/-- SCRIBE_EMIT (R401, R430): the oldest record enters the context's sink; at a full sink the scribe holds, and PERTURB counts.
DEDUCED: notes/assumptions/97.md. -/
def execScribeEmit (s : State) : Out :=
  if scribeHolds s then holdScribe s else
  match s.hart.tc.scribe, curCtx s with
  | r :: rest, some c =>
    if !mayEmit s then .next s
    else
      let r := if atExchange s.hart then r ||| (1#512 <<< 8) else r
      let s := onDev (fun d => putVa d c.num (c.sink.toNat + c.sinkTail % 2 ^ c.sink2sz) (natBytes 64 r.toNat)) s
      .next (onCur (fun c => { c with sinkTail := c.sinkTail + 64 })
        (onHart (fun h => { h with tc := { h.tc with scribe := rest } }) s))
  | _, _ => .next s

/-! ## UL (R389, R404) -/

/-- ULMARK (R404). -/
def execUlmark (d a : Reg) (s : State) : Out :=
  let v := xr s a
  if bits v 63 1 != 0 then trap .protection v s
  else
    let s1 := openWindow (v.getLsbD 0) s
    finish s [d.toNat] (setX d (s1.hart.tc.ulwin.setWidth 64) s1)

/-- What ULSTAT reads (R404). DEDUCED: notes/assumptions/29.md. -/
def ulstatVal (s : State) (q : Nat) : Nat :=
  match curCtx s with
  | none => 0
  | some c => match q with
    | 0 => c.logTail
    | 1 => c.logHead
    | 2 => 2 ^ c.log2sz - (c.logTail - c.logHead)
    | 3 => match c.log.head? with | some e => e.win.toNat | none => 0
    | 4 => c.droppedN
    | 5 => reservedBytes s c.num
    | _ => 0

/-- ULSTAT (R404). -/
def execUlstat (d a : Reg) (s : State) : Out := finish s [d.toNat] (setX d (wordOf (ulstatVal s (xr s a).toNat)) s)

/-- R389: w1 is older than w2. -/
def windowOlder (w1 w2 : BitVec 16) : Bool := let n := (w2 - w1).toNat; decide (1 ≤ n) && decide (n ≤ 32767)

/-- The entries that ULDRAIN frees (R404). -/
def drainable (s : State) (w : BitVec 16) (e : LogEntry) : Bool := !e.freed && !keptEntry s e && windowOlder e.win w

/-- ULDRAIN (R404). -/
def execUldrain (d a : Reg) (s : State) : Out :=
  let v := xr s a
  if bits v 63 16 != 0 then trap .protection v s
  else match curCtx s with
    | none => finish s [d.toNat] (setX d 0 s)
    | some c =>
      if c.mode != 2 then finish s [d.toNat] (setX d 0 s) else
      let gone := c.log.filter (drainable s (v.setWidth 16))
      let s1 := onCur (fun c => logAdvance { c with
        log := modWhere (drainable s (v.setWidth 16)) (fun e => { e with freed := true }) c.log }) s
      finish s [d.toNat] (setX d (wordOf (gone.map fun e => logSize e.pay).sum) s1)

/-! ## TRC (R405) -/

/-- TREC (R405), an effect instruction (R253). -/
def execTrec (a b : Reg) (s : State) : Out :=
  if traceStalls s.hart .user then holdScribe s
  else finishFx s []
    (traceRecord .user (natBytes 8 (xr s a).toNat ++ natBytes 8 (xr s b).toNat ++ natBytes 8 s.hart.pc.toNat) s)

/-- A counter (R405). -/
def counterVal (s : State) (c : Nat) : Word :=
  match c with
  | 0 => s.dev.cycle
  | 1 => s.hart.tc.icount
  | 6 => s.hart.tc.perturb
  | n => s.hart.tc.ctr.toList.getD n 0

/-- PERFR (R405). -/
def execPerfr (d a : Reg) (s : State) : Out :=
  let c := xr s a
  if c.toNat > 8 then trap .protection c s
  else
    let s1 := if c = 0 then passTime s else s
    finish s [d.toNat] (setX d (counterVal s1 c.toNat) s1)

/-- A counter cleared; 0, 1 and 6 stay (R405). -/
def clearCounter (c : Nat) (s : State) : State :=
  if c = 0 || c = 1 || c = 6 then s
  else onHart (fun h => { h with tc := { h.tc with ctr := h.tc.ctr.setIfInBounds c 0 } }) s

/-- PERFC (R405). -/
def execPerfc (a : Reg) (s : State) : Out :=
  let c := xr s a
  if c = 0xFF then finish s [] ([2, 3, 4, 5, 7, 8].foldl (fun s i => clearCounter i s) s)
  else if c.toNat > 8 then trap .protection c s
  else finish s [] (clearCounter c.toNat s)

/-! ## DBG (R399, R400, R406) -/

/-- The trigger record of a breakpoint (R398, R399). DESIGN CHOICE: notes/assumptions/94.md. -/
def breakRecord (s : State) (icount : Word) : Trigger :=
  { addr := Config.freeWord s.tick, time := s.dev.time, cyc := (cycleOf s s.hart.ar.ctx).setWidth 32
    core := some s.hart.ar.core, wp := 0xFF
    kind := 3, icount := icount }

/-- A stop of the core's cluster as a breakpoint (R399). DEDUCED: notes/assumptions/83.md. -/
def breakStop (icount : Word) (s : State) : State :=
  let s := passTime s
  let s := onCur (fun c => { c with trigger := some (breakRecord s icount) }) { s with tick := s.tick + 1 }
  stopHart 5 (onHart (fun h => { h with dbg := { h.dbg with role := 2 } }) s)

/-- Whether the debug service is attached to the core's context. -/
def attached (s : State) : Bool := match curCtx s with | some c => c.attached | none => false

/-- BRK (R399, R400): with the service attached it retires and stops the cluster; else it traps. -/
def execBrk (a : Reg) (s : State) : Out :=
  if attached s then .next (breakStop (s.hart.tc.icount + 1) (retired s [] false (onHart advance s)))
  else trap .breakpoint (xr s a) s

/-- Whether a WSET control word is legal (R406). DEDUCED: notes/assumptions/28.md. -/
def wsetLegal (c : Word) : Bool := bits c 63 8 == 0 && bits c 5 4 != 0 && bits c 3 2 == 0

/-- WSET's checks (R406): the location watched. DEDUCED: notes/assumptions/28.md. -/
def wsetCheck (s : State) (a c : Word) : Chk (Loc × State) := do
  check (wsetLegal c) .protection c
  check (a.toNat % 2 ^ bits c 1 0 == 0) .misaligned a
  let v := a.toNat
  if v < 0x20000 then .ok (lsLoc s v, s)
  else if 0x100000 ≤ v && decide (v < 0x100000 + s.clu.scratch) then .ok (⟨.scr s.hart.ar.cluster, v - 0x100000⟩, s)
  else if isDevVa a then do
    let (l, s) ← translate s (s.hart.mode == .u) false ⟨false, false, 0⟩ a
    .ok (⟨.dev, l.pa⟩, s)
  else .error (.protection, a, 0)

/-- WSET (R406). -/
def execWset (d a b : Reg) (s : State) : Out :=
  let c := xr s b
  afterChecks (wsetCheck s (xr s a) c) s fun (l, s1) =>
    match curCtx s1 with
    | none => finish s [d.toNat] (setX d (BitVec.allOnes 64) s1)
    | some k => match findIdxFrom (fun (o : Option Watch) => o.isNone) k.watches.toList 0 with
      | none => finish s [d.toNat] (setX d (BitVec.allOnes 64) s1)
      | some i =>
        let w : Watch := { va := xr s a, loc := l, len := 2 ^ bits c 1 0, kind := BitVec.ofNat 2 (bits c 5 4)
                           act := c.getLsbD 6, scope := c.getLsbD 7, armed := true }
        finish s [d.toNat] (setX d (wordOf i) (onCur (fun k => { k with watches := k.watches.setIfInBounds i (some w) }) s1))

/-- WCLR (R406). -/
def execWclr (a : Reg) (s : State) : Out :=
  let n := xr s a
  if n.toNat > 15 then trap .protection n s
  else finish s [] (onCur (fun k => { k with watches := k.watches.setIfInBounds n.toNat none }) s)

/-- WATCHPOINT_TRIGGER (R397, R398): an access of another agent meets its watchpoint at the point of this device. -/
def execWatchpointTrigger (acc : WatchAccess) (s : State) : Out := .next (watchAccess s.hart.ar.ctx acc (Config.freeWord s.tick) { s with tick := s.tick + 1 })

/-- WATCHPOINT_TRAP (R400): the accessor traps at its next boundary. -/
def execWatchpointTrap (s : State) : Out :=
  match s.hart.dbg.wpTrap with
  | some a =>
    if s.hart.thread = .running && s.hart.dbg.stop.isNone && !insideInstr s.hart then
      .next (trapImprecise .watchpoint a (onHart (fun h => { h with dbg := { h.dbg with wpTrap := none } }) s))
    else .next s
  | none => .next s

/-- Whether the instruction at the program counter is breakpointed and stops the core before it issues (R399).
DEDUCED: notes/assumptions/83.md. -/
def atBreakpoint (s : State) : Bool :=
  attached s && !s.hart.dbg.skipBp && s.hart.dbg.bps.toList.any fun b => b == some s.hart.pc

/-- BREAKPOINT_STOP (R399): when the core next runs, the instruction issues without stopping again. The record names the
breakpointed instruction by its ordinal (R407). -/
def execBreakpointStop (s : State) : Out :=
  if atBreakpoint s && s.hart.thread == .running && s.hart.dbg.stop.isNone then
    .next (onHart (fun h => { h with dbg := { h.dbg with skipBp := true } }) (breakStop (s.hart.tc.icount + 1) s))
  else .next s

end Sys2Proof.Machine
end

