-- ==== Sys2Proof/Machine/Barriers.lean ====
section
/-! DEFINITION. The barrier slots and the network around them (R225 to R233). The other members' arrivals come in as
BARRIER_ARRIVAL events, each with the quorum count that its core's slot holds (notes/assumptions/27.md). -/

namespace Sys2Proof.Machine

/-- A slot of the core. -/
def slotOf (s : State) (i : Nat) : Slot := s.hart.slots.getD i Slot.reset

/-- The release that an arrival waits for is complete (R228). -/
def arrivalReady (s : State) (a : Arrival) : Bool := released s a.scope a.seq

/-- An arrival of the core put on its way (R227, R228). -/
def sendArrival (slot : Nat) (mask : Word) (phase : BitVec 32) (sc : Scope) (s : State) : State :=
  onClu (fun c => { c with arrivals := c.arrivals ++ [{
    core := s.hart.ar.core, slot := slot, mask := mask, phase := phase, scope := sc, seq := s.hart.nextSeq + 1, sent := false
    time := 0, cyc := 0 }] }) s

/-- BARV's arrival: the slot becomes ARRIVED (R227). -/
def slotArrive (i : Nat) (s : State) : State :=
  let x := slotOf s i
  let sc := maskScope s x.bmem
  sendArrival i x.bmem x.phase sc (putSlot i (fun x => { x with st := .arrived, scope := sc }) s)

/-! ## The network's counts (R226, R232) -/

/-- Whether a core's arrival with a mask belongs to the group of the core's own cluster: at LEVEL 0 equal masks of two clusters name
two groups (R226). -/
def ownGroup (s : State) (mask : Word) (core : Nat) : Bool :=
  maskLevel mask != 0 || clusterOfCore core == s.hart.ar.cluster

/-- The arrivals of a group's phase that have entered the network with an equal mask, in their order (R226).
DESIGN CHOICE: notes/assumptions/11.md; DEDUCED: notes/assumptions/27.md. -/
def arrived (s : State) (slot : Nat) (mask : Word) (phase : BitVec 32) : List Arrival :=
  s.clu.arrivals.filter fun a =>
    a.slot == slot && a.mask == mask && a.phase == phase && a.sent && (slot == 8 || ownGroup s mask a.core)

/-- The quorum count of a slot's group: the one set by its lowest-numbered member (R232). That of another core is 0, as a launch and
its BSETM leave it (R76, R231), until the network tells one. DEDUCED: notes/assumptions/27.md. -/
def groupQuorum (s : State) (i : Nat) (x : Slot) : Nat :=
  match (maskMembers s x.bmem).min? with
  | none => x.quorum.toNat
  | some c =>
    if c = s.hart.ar.core then x.quorum.toNat
    else match s.clu.quorums.find? fun q => q.1 == c && q.2.1 == i && q.2.2.1 == x.bmem with
      | some q => q.2.2.2.toNat
      | none => 0

/-- The counted arrivals of a slot's phase: once the quorum is reached the phase is released, and no later arrival counts (R226,
R227). -/
def counted (s : State) (i : Nat) (x : Slot) : List Arrival :=
  let l := arrived s i x.bmem x.gphase
  let q := groupQuorum s i x
  if q = 0 then l else l.take q

/-- Whether every member of a group has arrived (R226). DEDUCED: notes/assumptions/27.md. -/
def allArrived (l : List Arrival) (members : List Nat) : Bool := members.all fun c => l.any fun a => a.core == c

/-- Whether a slot's group releases: every member has arrived, or its quorum is reached (R226). DEDUCED: notes/assumptions/27.md. -/
def slotMet (s : State) (i : Nat) : Bool :=
  let x := slotOf s i
  let l := counted s i x
  let q := groupQuorum s i x
  !l.isEmpty && (allArrived l (maskMembers s x.bmem) || (q != 0 && decide (q ≤ l.length)))

/-! ## BARV, BWAIT and the other instructions (R231, R232) -/

/-- A thread that holds at a slot: while its release is met and only a full scribe buffer keeps it back, PERTURB counts (R401), else
the barrier's counter (R405). -/
def slotHold (met : Bool) (s : State) : Out :=
  if met && traceStalls s.hart .slot then holdScribe s else holdCounted 5 s

/-- BARV (R227, R228, R231). -/
def execBarv (a : Reg) (s : State) : Out :=
  let v := xr s a
  afterChecks (slotCheck s v) s fun _ =>
    if (slotOf s v.toNat).st = .arrived then slotHold (slotMet s v.toNat) s else finishFx s [] (slotArrive v.toNat s)

/-- The status of BWAIT on a slot that does not hold it (R231). -/
def waitStatus (x : Slot) : Word :=
  match x.st with
  | .released => x.status.setWidth 64
  | _ => 2

/-- Whether BWAIT holds: the slot has arrived, or its acquire waits for an earlier load (R192, R231). -/
def waitHolds (s : State) (x : Slot) : Bool :=
  match x.st with
  | .arrived => true
  | .released => x.scope != .core && !loadsDone s (s.hart.nextSeq + 1)
  | .idle => false

/-- What BWAIT leaves: the acquire of R228 on a released slot, at the scope of its BARV, the state IDLE, the status. -/
def slotWait (i : Nat) (d : Reg) (s : State) : State :=
  let x := slotOf s i
  let s1 := if x.st = .released then acquireMoves x.scope s else s
  setX d (waitStatus x) (putSlot i (fun x => { x with st := .idle }) s1)

/-- BWAIT (R228, R231). -/
def execBwait (d a : Reg) (s : State) : Out :=
  let v := xr s a
  afterChecks (slotCheck s v) s fun _ =>
    if waitHolds s (slotOf s v.toNat) then slotHold (slotMet s v.toNat) s else finish s [d.toNat] (slotWait v.toNat d s)

/-- A BSYNC whose arrival stands from before a reverse step goes on from it (R393). DEDUCED: notes/assumptions/84.md. -/
def takeUp (s : State) : State :=
  if s.hart.dbg.stood = some s.hart.pc then onHart (fun h => { h with mid := .bsync, dbg := { h.dbg with stood := none } }) s else s

/-- BSYNC (R231): BARV, then BWAIT. -/
def execBsync (d a : Reg) (s : State) : Out :=
  let s := takeUp s
  let v := xr s a
  afterChecks (slotCheck s v) s fun _ =>
    if s.hart.mid = .bsync then
      if waitHolds s (slotOf s v.toNat) then slotHold (slotMet s v.toNat) s
      else finish s [d.toNat] (onHart (fun h => { h with mid := .none }) (slotWait v.toNat d s))
    else if (slotOf s v.toNat).st = .arrived then slotHold (slotMet s v.toNat) s
    else .next (markEffect (onHart (fun h => { h with mid := .bsync }) (slotArrive v.toNat s)))

/-- The code of a slot's state (R231). -/
def slotCode : SlotState → Nat
  | .idle => 0
  | .arrived => 1
  | .released => 2

/-- BTEST (R231). -/
def execBtest (d a : Reg) (s : State) : Out :=
  let v := xr s a
  afterChecks (slotCheck s v) s fun _ =>
    let x := slotOf s v.toNat
    finish s [d.toNat] (setX d (wordOf (x.phase.toNat * 2 ^ 32 + x.status.toNat * 4 + slotCode x.st)) s)

/-- Whether the unused fields of a mask are zero (R225, R232). -/
def maskFields (m : Word) : Bool :=
  match maskLevel m with
  | 0 => bits m 61 16 == 0
  | 1 => bits m 61 57 == 0 && decide (bits m 56 48 + (bitLen (bits m 47 0) - 1) ≤ 447)
  | 2 => bits m 61 56 == 0
  | _ => bits m 61 0 == 0

/-- Whether every cluster or bay that a mask names is in the partition (R232). -/
def maskInPartition (bays : BitVec 64) (m : Word) : Bool :=
  match maskLevel m with
  | 1 => (List.range 48).all fun j => !m.getLsbD j || bays.getLsbD ((bits m 56 48 + j) / 8)
  | 2 => (List.range 56).all fun b => !m.getLsbD b || bays.getLsbD b
  | _ => true

/-- The checks of BSETM on a mask (R232); no mask names a service core (R13). -/
def maskLegal (s : State) (m : Word) : Bool :=
  maskFields m && (match curCtx s with | some c => maskInPartition c.bays m | none => true) &&
  !isService s.hart && maskNames m s.hart.ar.cluster s.hart.ar.core && !maskEmpty m

/-- BSETM (R231, R232). -/
def execBsetm (a b : Reg) (s : State) : Out :=
  let v := xr s a
  let m := xr s b
  afterChecks (do
    slotCheck s v
    check ((slotOf s v.toNat).st == .idle) .protection v
    check (maskLegal s m) .protection m) s fun _ =>
    finishFx s [] (putSlot v.toNat (fun x => { x with bmem := m, quorum := 0, gphase := x.phase, past := [] }) s)

/-- BQUORUM (R231, R232). -/
def execBquorum (a b : Reg) (s : State) : Out :=
  let v := xr s a
  let n := xr s b
  afterChecks (do
    slotCheck s v
    check ((slotOf s v.toNat).st == .idle) .protection v
    check (decide (n.toNat ≤ (maskMembers s (slotMask s v.toNat)).length)) .protection n) s fun _ =>
    finishFx s [] (putSlot v.toNat (fun x => { x with quorum := n.setWidth 16 }) s)

/-- The 32 bytes of an imbalance record (R230). -/
def recordBytes (r : BarRecord) : List Byte :=
  natBytes 8 r.early.toNat ++ natBytes 8 r.late.toNat ++ natBytes 4 r.sumd.toNat ++ natBytes 2 r.last.toNat ++
  natBytes 2 r.count.toNat ++ natBytes 2 r.members.toNat ++ [r.flags, r.slot] ++ natBytes 4 r.phase.toNat

/-- The record that BRECORD writes: slot 8 is the superstep barrier's (R231, R244). -/
def recordOf (s : State) (i : Nat) : BarRecord := if i = 8 then s.hart.ss.record else (slotOf s i).record

/-- BRECORD (R231, R232): one store of 32 bytes. DEDUCED: notes/assumptions/21.md. -/
def execBrecord (a b : Reg) (s : State) : Out :=
  let p := xr s a
  let v := xr s b
  afterChecks (do
    check (v == 8 || (decide (v.toNat < 8) && decide (v.toNat < s.hart.nslots))) .protection v
    check (p.toNat % 32 == 0) .misaligned p
    check (decide (p.toNat + 31 < lsTop)) .protection p) s fun _ =>
    withLog s (storeNeed s (.store (List.replicate 32 0) .normal) (lsLoc s 0)) s fun s1 =>
      finishFx s [] (performWrite (originOf s) 1 p (lsLoc s p.toNat) (recordBytes (recordOf s v.toNat)) s1)

/-! ## The network (R226, R227, R230) -/

/-- An imbalance record of counted arrivals (R230). -/
def imbalance (l : List Arrival) (members slot : Nat) (phase : BitVec 32) (quorum : Bool) : BarRecord :=
  let first := (l.map fun a => a.cyc.toNat).min?.getD 0
  let sum := (l.map fun a => a.cyc.toNat - first).sum
  let late := (l.map fun a => a.time.toNat).max?.getD 0
  { early := wordOf ((l.map fun a => a.time.toNat).min?.getD 0), late := wordOf late
    sumd := BitVec.ofNat 32 (min sum (2 ^ 32 - 1))
    last := BitVec.ofNat 16 (match l.getLast? with | some a => a.core | none => 0)
    count := BitVec.ofNat 16 l.length, members := BitVec.ofNat 16 members
    flags := BitVec.ofNat 8 ((if quorum then 1 else 0) + if sum > 2 ^ 32 - 1 then 2 else 0)
    slot := BitVec.ofNat 8 slot, phase := phase }

/-- BLAST after a release (R225). -/
def blastOf (r : BarRecord) : Word :=
  wordOf (fieldAt (r.flags.getLsbD 0) 20 + r.slot.toNat % 8 * 2 ^ 16 + r.last.toNat % 2 ^ 13)

/-- The domain level at which the threads of the core's launch start: DOM of its record (R245). -/
def launchDom (s : State) : BitVec 3 :=
  match (curCtx s).bind fun c => c.launches.find? fun l => l.n == s.hart.tk.launch.toNat with
  | some l => BitVec.ofNat 3 (recByte l.record 22)
  | none => s.hart.ss.level

/-- The level of the core's own thread as its domain counts it: NEXT once its SSYNC is released (R246). -/
def ownLevel (s : State) : BitVec 3 := if s.hart.ss.released && s.hart.ss.ph then s.hart.ss.next else s.hart.ss.level

/-- The level of a thread of the launch (R242): that of the launch until a superstep barrier has released it to another.
DESIGN CHOICE: notes/assumptions/11.md. -/
def levelAt (s : State) (c : Nat) : BitVec 3 :=
  if c = s.hart.ar.core then ownLevel s else
  match s.clu.levels.find? fun p => p.1 == c with
  | some p => p.2.1
  | none => launchDom s

/-- The threads of the group of another core (R242): the places of its launch say which they are. -/
def groupOf (s : State) (c : Nat) : List Nat :=
  match curCtx s with
  | none => [c]
  | some x => match x.busy.find? fun b => b.1 == c with
    | some b => (x.busy.filter fun e => e.2.1 == b.2.1 && e.2.2 == b.2.2).map (·.1)
    | none => [c]

/-- The threads of the launch in the unit of a level in which a core lies (R242). -/
def unitCores (s : State) (level : BitVec 3) (core : Nat) : List Nat :=
  match level.toNat with
  | 0 => [core]
  | 1 => if core = s.hart.ar.core then s.clu.group else (groupOf s core).filter s.clu.members.contains
  | 2 => s.clu.members.filter fun c => clusterOfCore c == clusterOfCore core
  | 3 => s.clu.members.filter fun c => bayOfCore c == bayOfCore core
  | 4 => s.clu.members.filter fun c => dieOfCore c == dieOfCore core
  | _ => s.clu.members

/-- The threads of the domain instance of a core (R242): those of the launch in the unit of its level that stand at that level. -/
def instanceOf (s : State) (core : Nat) : List Nat :=
  (unitCores s (levelAt s core) core).filter fun c => levelAt s c == levelAt s core

/-- The threads of the core's domain instance (R242). -/
def domainCores (s : State) : List Nat := instanceOf s s.hart.ar.core

/-- The level at which another core's thread stands, and that at which it will stand once its superstep barrier has released it
(R242). -/
def setLevel (core : Nat) (l next : BitVec 3) (s : State) : State :=
  onClu (fun c => { c with levels := (core, l, next) :: c.levels.filter fun p => p.1 != core }) s

/-- What another core tells the network: the quorum count of its slot (R232), or its level (R242): that to which its superstep barrier
releases it with an arrival, its own where it arrives at none. -/
def learn (core slot : Nat) (mask : Word) (q : Nat) (told : Bool) (s : State) : State :=
  if slot = 8 then setLevel core (if told then BitVec.ofNat 3 q else levelAt s core) (BitVec.ofNat 3 q) s
  else
    let other := fun (p : Nat × Nat × Word × BitVec 16) => !(p.1 == core && p.2.1 == slot && p.2.2.1 == mask)
    onClu (fun c => { c with quorums := (core, slot, mask, BitVec.ofNat 16 q) :: c.quorums.filter other }) s

/-- BARRIER_ARRIVAL (R226, R228, R230): an arrival enters the network. The core's own enters when its release is complete;
another member's comes with the mask and the quorum count that its slot holds, for the phase its group has reached, or, for
slot 8, with the level to which its barrier releases it. One that its core owes to a phase released without it is late and does not
count (R227). One that only tells is that of another core's BSETM or BQUORUM, or of the level of a thread that was placed earlier
(R232, R242). -/
def execBarrierArrival (w : Arriver) (slot : Nat) (mask : Word) (s : State) : Out :=
  let core := w.core
  if core = s.hart.ar.core then
    match findIdxFrom (fun (a : Arrival) => a.core == core && a.slot == slot && !a.sent) s.clu.arrivals 0 with
    | none => .next s
    | some i =>
      match s.clu.arrivals[i]? with
      | none => .next s
      | some a =>
        if w.told || !arrivalReady s a then .next s else
        let s := passTime s
        .next (onClu (fun c => { c with
          arrivals := c.arrivals.eraseIdx i ++ [{ a with sent := true, time := s.dev.time, cyc := s.dev.cycle }] }) s)
  else
    let phase := if slot = 8 then s.hart.ss.phase else (slotOf s slot).gphase
    let mask := if slot = 8 then 0 else mask
    if slot > 8 || !s.clu.members.contains core || (slot == 8 && decide (5 < w.quorum)) then .next s
    else if w.told then .next (learn core slot mask w.quorum true s)
    else if s.clu.arrivals.any fun a => a.core == core && a.slot == slot && a.sent &&
        (slot == 8 || (a.mask == mask && a.phase == phase)) then .next s
    else if s.clu.behind.contains (core, slot, mask) then
      .next (onClu (fun c => { c with behind := c.behind.erase (core, slot, mask) }) s)
    else
      let s := passTime (learn core slot mask w.quorum false s)
      .next (onClu (fun c => { c with arrivals := c.arrivals ++ [{
        core := core, slot := slot, mask := mask, phase := phase, scope := .core, seq := 0, sent := true
        time := s.dev.time, cyc := s.dev.cycle }] }) s)

/-- Whether a slot's group releases now: its trace record has a place (R401). -/
def slotReleases (s : State) (i : Nat) : Bool := slotMet s i && !traceStalls s.hart .slot

/-- BARRIER_RELEASE (R226, R227, R230): every member receives the record; the core, if its arrival is counted, is released. The
members that are not counted owe a late arrival. -/
def execBarrierRelease (i : Nat) (s : State) : Out :=
  if i > 7 || !slotReleases s i then .next s else
  let x := slotOf s i
  let l := counted s i x
  let mem := maskMembers s x.bmem
  let full := allArrived l mem
  let r := imbalance l mem.length i x.gphase (!full)
  let me := s.hart.ar.core
  let mine := l.any fun a => a.core == me
  let all := arrived s i x.bmem x.gphase
  let owing := mem.filter fun c => c != me && !all.any fun a => a.core == c
  let s := onClu (fun c => { c with
    arrivals := c.arrivals.filter fun a => !(l.contains a || (all.contains a && a.core != me))
    behind := c.behind ++ owing.map fun k => (k, i, x.bmem) }) s
  let s := putSlot i (fun x => { x with
    record := r, gphase := x.gphase + 1, past := if mine then [] else x.past ++ [r]
    st := if mine then .released else x.st
    status := if mine then (if full then 0 else 1) else x.status
    phase := if mine then x.phase + 1 else x.phase }) s
  let s := if mine then onHart (fun h => { h with blast := blastOf r }) s else s
  .next (traceRecord .slot (recordBytes r) s)

/-- The core's arrival in a slot whose phase its group has released already (R227). -/
def lateOne (s : State) (i : Nat) (x : Slot) (a : Arrival) : Bool :=
  a.core == s.hart.ar.core && a.slot == i && a.phase != x.gphase

/-- LATE_ARRIVAL (R227): an arrival of the core whose phase its group has released already; BLAST is that phase's. -/
def execLateArrival (i : Nat) (s : State) : Out :=
  let x := slotOf s i
  match s.clu.arrivals.find? (lateOne s i x) with
  | none => .next s
  | some a =>
    if i > 7 || x.st != .arrived || !(a.sent || arrivalReady s a) then .next s else
    let r := (x.past.find? fun r => r.phase == a.phase).getD x.record
    let s := onClu (fun c => { c with arrivals := c.arrivals.filter fun a => !lateOne s i x a }) s
    let s := putSlot i (fun x => { x with
      st := .released, status := 3, phase := x.phase + 1, past := x.past.filter fun r => r.phase != a.phase }) s
    .next (onHart (fun h => { h with blast := blastOf r }) s)

/-- Whether the barrier network has something to deliver: a release that is met, or a late arrival that has been sent (R227,
R233). -/
def netPending (s : State) : Bool :=
  (List.range 8).any fun i => slotMet s i ||
    s.clu.arrivals.any fun a => lateOne s i (slotOf s i) a && a.sent && (slotOf s i).st == .arrived

end Sys2Proof.Machine
end

