-- ==== Sys2Proof/Machine/Hash.lean ====
section
/-! DEFINITION. SHA-384 (R18, R434), and the 384-bit Brainpool curve of RFC 5639 with its ECDSA (R18, R429, R434), as their own
standards define them (notes/assumptions/9.md). -/

namespace Sys2Proof.Machine

/-- The big-endian value of bytes. -/
def beNat (bs : List Byte) : Nat := bytesNat bs.reverse
/-- The `n` big-endian bytes of a value. -/
def beBytes (n v : Nat) : List Byte := (natBytes n v).reverse

/-! ## SHA-384

Its constants are the first 64 bits of the fractional parts of roots of the first primes: computed here, not listed. -/

/-- The first `n` primes, from those below 410. -/
def firstPrimes (n : Nat) : List Nat :=
  ((List.range 410).filter fun p => decide (2 ≤ p) && (List.range p).all fun d => d < 2 || p % d != 0).take n

/-- The largest `r` below `2 ^ bits` with `r ^ k ≤ v`, found from its top bit down. -/
def rootBits (k v : Nat) : Nat → Nat → Nat
  | 0, r => r
  | b + 1, r => rootBits k v b (if (r + 2 ^ b) ^ k ≤ v then r + 2 ^ b else r)

/-- The first 64 bits of the fractional part of the `k`th root of a number below 512. -/
def rootWord (k p : Nat) : Word := wordOf (rootBits k (p * 2 ^ (64 * k)) 69 0)

/-- The constants of the 80 rounds: from the cube roots of the first 80 primes. -/
def roundConsts : List Word := (firstPrimes 80).map (rootWord 3)

/-- The chaining value as two histories of four words, newest first: at the start, from the square roots of the 9th to the 16th
prime. -/
structure ShaState where
  hi : List Word
  lo : List Word
  deriving DecidableEq, Repr

/-- The chaining value that a message starts from. -/
def shaStart : ShaState :=
  let w := ((firstPrimes 16).drop 8).map (rootWord 2)
  ⟨w.take 4, w.drop 4⟩

/-- A word turned right by each of the first two counts, and by the third or, with `cut`, shifted by it; the three combined. -/
def stir (cut : Bool) (i j k : Nat) (x : Word) : Word :=
  (if cut then x >>> k else x.rotateRight k) ^^^ (x.rotateRight i ^^^ x.rotateRight j)

/-- Where the first word has a 1, the second; elsewhere the third. -/
def bitPick (x y z : Word) : Word := z ^^^ (x &&& (y ^^^ z))

/-- The bit that at least two of three words have. -/
def twoOf (x y z : Word) : Word := (x &&& y) ||| (z &&& (x ||| y))

/-- A round: each history gains a word and loses its oldest. -/
def shaStep (s : ShaState) (k : Word) : ShaState :=
  match s.hi, s.lo with
  | [p, q, r, u], [x, y, z, v] =>
    let t := k + v + bitPick x y z + stir false 14 18 41 x
    ⟨[t + twoOf p q r + stir false 28 34 39 p, p, q, r], [t + u, x, y, z]⟩
  | _, _ => s

/-- The words of the rounds that a block gives: its sixteen, then each from the sixteen before it (`l` is the last of them,
newest first). -/
def roundWords : Nat → List Word → List Word
  | 0, _ => []
  | n + 1, l =>
    let w := l.getD 15 0 + (l.getD 6 0 + (stir true 1 8 7 (l.getD 14 0) + stir true 19 61 6 (l.getD 1 0)))
    w :: roundWords n (w :: l.take 15)

/-- A block of 128 bytes mixed into the chaining value. -/
def mixBlock (s : ShaState) (b : List Byte) : ShaState :=
  let first := (List.range 16).map fun i => wordOf (beNat ((b.drop (8 * i)).take 8))
  let words := first ++ roundWords 64 first.reverse
  let t := (List.zipWith (· + ·) roundConsts words).foldl shaStep s
  ⟨List.zipWith (· + ·) s.hi t.hi, List.zipWith (· + ·) s.lo t.lo⟩

/-- A message filled up to whole blocks: a 1 bit, zeros, its length in bits. -/
def fillUp (m : List Byte) : List Byte :=
  m ++ (0x80 :: List.replicate ((239 - m.length % 128) % 128) 0) ++ beBytes 16 (m.length * 8)

/-- SHA-384: the first six words of the last chaining value. PRESUMED: notes/assumptions/9.md. -/
def sha384 (m : List Byte) : List Byte :=
  let p := fillUp m
  let s := (List.range (p.length / 128)).foldl (fun s i => mixBlock s ((p.drop (128 * i)).take 128)) shaStart
  (s.hi ++ s.lo.take 2).flatMap fun w => beBytes 8 w.toNat

/-- A measurement register's bytes: least significant byte first (R440). -/
def regBytes (r : BitVec 384) : List Byte := natBytes 48 r.toNat
/-- A measurement register of 48 bytes. -/
def regOf (bs : List Byte) : BitVec 384 := BitVec.ofNat 384 (bytesNat bs)

/-- R434: a measurement register extended with the digest of an image. -/
def extendReg (old : BitVec 384) (digest : List Byte) : BitVec 384 := regOf (sha384 (regBytes old ++ digest))

/-! ## The curve (R429) -/

/-- The field's prime. -/
def curveP : Nat := 0x8CB91E82A3386D280F5D6F7E50E641DF152F7109ED5456B412B1DA197FB71123ACD3A729901D1A71874700133107EC53
/-- The coefficient A. -/
def curveA : Nat := 0x7BC382C63D8C150C3C72080ACE05AFA0C2BEA28E4FB22787139165EFBA91F90F8AA5814A503AD4EB04A8C7DD22CE2826
/-- The coefficient B. -/
def curveB : Nat := 0x04A8C7DD22CE28268B39B55416F0447C2FB77DE107DCD2A62E880EA53EEB62D57CB4390295DBC9943AB78696FA504C11
/-- The order of the base point. -/
def curveQ : Nat := 0x8CB91E82A3386D280F5D6F7E50E641DF152F7109ED5456B31F166E6CAC0425A7CF3AB6AF6B7FC3103B883202E9046565

/-- Whether two coordinates are those of a point on the curve. -/
def pointOk (x y : Nat) : Bool :=
  decide (x < curveP) && decide (y < curveP) && y * y % curveP == (x * x % curveP * x + curveA * x + curveB) % curveP

/-- Whether 96 bytes are a point on the curve: x, then y, most significant byte first (R429).
PRESUMED: notes/assumptions/9.md. -/
def onCurve (bs : List Byte) : Bool := pointOk (beNat (bs.take 48)) (beNat ((bs.drop 48).take 48))

/-- A point: its coordinates are x / z² and y / z³; z = 0 is the point at infinity. -/
structure CurvePoint where
  x : Nat
  y : Nat
  z : Nat
  deriving DecidableEq, Repr

/-- The base point. -/
def curveG : CurvePoint :=
  { x := 0x1D1C64F068CF45FFA2A63A81B7C13F6B8847A3E77EF14FE3DB7FCAFE0CBD10E8E826E03436D646AAEF87B2E247D4AF1E
    y := 0x8ABE1D7520F9C2A45CB1EB8E95CFD55262B70B29FEEC5864E19C054FF99129280E4646217791811142820341263C5315
    z := 1 }

/-- A difference in the field. -/
def subP (a b : Nat) : Nat := (a + (curveP - b % curveP)) % curveP

/-- A point added to itself. -/
def pointTwice (p : CurvePoint) : CurvePoint :=
  let yy := p.y * p.y % curveP
  let zz := p.z * p.z % curveP
  let m := (3 * p.x * p.x + curveA * (zz * zz % curveP)) % curveP
  let u := 4 * p.x * yy % curveP
  let x := subP (m * m) (2 * u)
  ⟨x, subP (m * subP u x) (8 * yy * yy), 2 * p.y * p.z % curveP⟩

/-- The sum of two points. -/
def pointAdd (p q : CurvePoint) : CurvePoint :=
  if p.z = 0 then q
  else if q.z = 0 then p
  else
    let pp := p.z * p.z % curveP
    let qq := q.z * q.z % curveP
    let u := p.x * qq % curveP
    let s := p.y * qq % curveP * q.z % curveP
    let h := subP (q.x * pp) u
    let r := subP (q.y * pp % curveP * p.z) s
    if h = 0 then (if r = 0 then pointTwice p else ⟨1, 1, 0⟩)
    else
      let hh := h * h % curveP
      let c := hh * h % curveP
      let x := subP (r * r) (c + 2 * u * hh)
      ⟨x, subP (r * subP (u * hh) x) (s * c), h * p.z % curveP * q.z % curveP⟩

/-- A point added up `k` times, `k` below 2^384. -/
def pointMul (k : Nat) (p : CurvePoint) : CurvePoint :=
  (List.range 384).foldl (fun a i => if k.testBit (383 - i) then pointAdd (pointTwice a) p else pointTwice a) ⟨1, 1, 0⟩

/-- A power modulo `m`, the exponent below 2^384. -/
def powMod (b e m : Nat) : Nat :=
  (List.range 384).foldl (fun a i => if e.testBit (383 - i) then a * a % m * b % m else a * a % m) (1 % m)

/-- Whether a signature, r and s of 48 bytes each, is one of a message under a public key (R434).
PRESUMED: notes/assumptions/9.md. -/
def ecdsaOk (key sig msg : List Byte) : Bool :=
  let r := beNat (sig.take 48)
  let s := beNat ((sig.drop 48).take 48)
  let x := beNat (key.take 48)
  let y := beNat ((key.drop 48).take 48)
  let inv := powMod s (curveQ - 2) curveQ
  let sum := pointAdd (pointMul (beNat (sha384 msg) * inv % curveQ) curveG) (pointMul (r * inv % curveQ) ⟨x, y, 1⟩)
  let zInv := powMod sum.z (curveP - 2) curveP
  key.length == 96 && sig.length == 96 && pointOk x y && decide (0 < r) && decide (r < curveQ) && decide (0 < s) &&
    decide (s < curveQ) && sum.z != 0 && sum.x * zInv % curveP * zInv % curveP % curveQ == r

end Sys2Proof.Machine
end

