-- ==== Sys2Proof/Machine/Engine.lean ====
section
/-! DEFINITION. How engines and units reach memory (R200, R281, R291, R292): an address resolved for an engine, its reads and
its logged writes, and the elements of copies. -/

namespace Sys2Proof.Machine

/-! ## Where an engine's address leads (R130, R281, R291) -/

/-- The scratch location that an address of the CM windows names (R281). -/
def cmWindow (a : Nat) : Option Loc :=
  if 0x100000000 ≤ a && a < 0x170000000 then some ⟨.scr ((a - 0x100000000) / 2 ^ 22), (a - 0x100000000) % 2 ^ 22⟩ else none

/-- The location of an LS, scratch or CM-window address for a core; `remote` names the core of an end of kind 2 (R281). -/
def localLoc (core : Nat) (remote : Option Nat) (a : Nat) : Option Loc :=
  match remote with
  | some c => if a < lsTop then some ⟨.ls c, a⟩ else none
  | none =>
    if a < lsTop then some ⟨.ls core, a⟩
    else if 0x100000 ≤ a && a < 0x500000 then some ⟨.scr (clusterOfCore core), a - 0x100000⟩
    else cmWindow a

/-- An address of a cluster's engine or unit resolved: device virtual ends are translated while the command runs, through that
cluster's translation cache (R147, R291). -/
def engLocIn (clu core : Nat) (remote : Option Nat) (user : Bool) (n : Need) (va : Word) (s : State) : Chk (Loc × State) :=
  match localLoc core remote va.toNat with
  | some l => .ok (l, s)
  | none => do
    check (isDevVa va) .translation va
    let (l, s) ← translateIn clu s user false n va
    .ok (⟨.dev, l.pa⟩, s)

/-- An engine's address resolved in the issuer's cluster. -/
def engLoc (core : Nat) (remote : Option Nat) (user : Bool) (n : Need) (va : Word) (s : State) : Chk (Loc × State) :=
  engLocIn s.hart.ar.cluster core remote user n va s

/-- The scratch size of a cluster (R132, R239). DESIGN CHOICE: notes/assumptions/55.md. -/
def scratchOf (s : State) (c : Nat) : Nat :=
  if c = s.hart.ar.cluster then s.clu.scratch else (smGet s.dev.scratches c).toNat

/-- The exponent tables of a cluster (R287). DESIGN CHOICE: notes/assumptions/55.md. -/
def tablesOf (s : State) (c : Nat) : Vector (BitVec 1024) 8 :=
  if c = s.hart.ar.cluster then s.clu.etab else Vector.ofFn fun i : Fin 8 => smGet s.dev.etabs (8 * c + i)

/-- An exponent table of a cluster loaded (R288). DESIGN CHOICE: notes/assumptions/55.md. -/
def setTable (c i : Nat) (img : BitVec 1024) (s : State) : State :=
  if c = s.hart.ar.cluster then onClu (fun u => { u with etab := u.etab.setIfInBounds i img }) s
  else onDev (fun d => { d with etabs := smSet d.etabs (8 * c + i) img }) s

/-! ## Accesses (R200, R219, R386, R397) -/

/-- Bytes read at their point by a command of a core. -/
def engRead (o : Origin) (va : Word) (l : Loc) (n : Nat) (s : State) : Nat × State :=
  let s := recallAt l n s
  (bytesNat (rawBytes s.dev l n), watchAccess o.ctx ⟨l, n, false, some o.core, va⟩ o.icount s)

/-- Bytes written at their point by a command of a core. -/
def engPut (o : Origin) (va : Word) (l : Loc) (bs : List Byte) (s : State) : State :=
  watchAccess o.ctx ⟨l, bs.length, true, some o.core, va⟩ o.icount (homePut l bs (recallAt l bs.length s))

/-- The old bytes of a run that an engine will write, logged as one payload entry (R386). -/
def engLog (o : Origin) (kind : Nat) (va : Word) (l : Loc) (n : Nat) (s : State) : State :=
  let s := recallAt l n s
  logWrite o kind true va l (rawBytes s.dev l n) s

/-- Bytes logged in runs of at most 128 and written. -/
def engWrite (o : Origin) (va : Word) (l : Loc) (bs : List Byte) (s : State) : State :=
  (List.range ((bs.length + 127) / 128)).foldl (fun s i =>
    let part := (bs.drop (128 * i)).take 128
    let l := { l with off := l.off + 128 * i }
    let va := va + wordOf (128 * i)
    engPut o va l part (engLog o 5 va l part.length s)) s

/-- Whether the interval line entries that an engine's or unit's work has appended fit (R391): the context's log lies within what may
be used, the stop reserve included while the context is stopped. DEDUCED: notes/assumptions/91.md. -/
def engFits (n : Nat) (s0 s : State) : Bool :=
  match ctxOf s0.dev n, ctxOf s.dev n with
  | some a, some b =>
    b.lines.length == a.lines.length || logFits s b (if b.state = .running then logTop b else 2 ^ b.log2sz) 0
  | some _, none => false
  | none, _ => true

/-- What an engine or unit does in one step from `s0` to `s`. Where the interval line entries do not fit, its writes stall: nothing
has been done, and firmware is asked for a boundary (R391). DESIGN CHOICE: notes/assumptions/33.md. -/
def engStall (n : Nat) (s0 s : State) : State :=
  if engFits n s0 s then s else onCtx n (fun c => { c with armed := true }) s0

/-- The granules that a range touches poisoned (R291). -/
def poisonRange (l : Loc) (n : Nat) (s : State) : State :=
  let ks := ((List.range n).map fun i => granKey { l with off := l.off + i }).dedup
  onDev (fun d =>
    match l.space with
    | .ls _ => { d with lsPoison := (d.lsPoison ++ ks).dedup }
    | .scr _ => { d with scrPoison := (d.scrPoison ++ ks).dedup }
    | .dev => { d with devPoison := (d.devPoison ++ ks).dedup }
    | .ten h => { d with tensors := modWhere (fun t => t.h == h) (fun t => { t with poison := (t.poison ++ ks).dedup }) d.tensors }) s

/-- The lines written so far with those of a location: what an acquire of the operation drops (R203). -/
def noteWrote (l : Loc) (n : Nat) (w : List Loc) : List Loc :=
  (List.range ((l.off + n - 1) / 128 - l.off / 128 + 1)).foldl (fun w i =>
    let x := { l with off := (l.off / 128 + i) * 128 }
    if w.contains x then w else w ++ [x]) w

/-- The log space that `n` consecutive bytes of a command need (R386). -/
def engNeed (s : State) (o : Origin) (n : Nat) : Nat :=
  if logCovers s o.ctx o.cov then 160 * ((n + 127) / 128 + 1) else 0

/-! ## Runs of bytes at an address -/

/-- A run of `n` bytes at `a` cut at the 128-byte lines: the start and length of each part. -/
def lineParts (a n : Nat) : List (Nat × Nat) :=
  if n = 0 then [] else
  (List.range ((a + n - 1) / 128 - a / 128 + 1)).map fun i =>
    let lo := max a ((a / 128 + i) * 128)
    (lo, min (a + n) ((a / 128 + i + 1) * 128) - lo)

/-- The parts of a run read in order, with the lowest poisoned address, until one faults (R291). -/
def readParts (o : Origin) (remote : Option Nat) (user : Bool) : List (Nat × Nat) → State → Chk (List Byte × Option Word × State)
  | [], s => .ok ([], none, s)
  | (a, n) :: r, s => do
    let (l, s) ← engLoc o.core remote user ⟨true, false, 0⟩ (wordOf a) s
    let bad := (poisonAt s.dev l n).map fun i => wordOf (a + i)
    let (v, s) := engRead o (wordOf a) l n s
    let (bs, bad2, s) ← readParts o remote user r s
    .ok (natBytes n v ++ bs, bad.or bad2, s)

/-- The `n` bytes at an address as an engine reads them. -/
def engReadVa (o : Origin) (remote : Option Nat) (user : Bool) (va : Word) (n : Nat) (s : State) :
    Chk (List Byte × Option Word × State) := readParts o remote user (lineParts va.toNat n) s

/-- What a run of writes leaves: the state, the lines written, and the fault that stopped it. -/
structure Wrote where
  s : State
  wrote : List Loc
  fail : Option Refuse

/-- The parts of a run written in order, each logged first, until one faults. -/
def writeParts (o : Origin) (remote : Option Nat) (user : Bool) : List (Nat × Nat) → List Byte → Wrote → Wrote
  | [], _, w => w
  | (a, n) :: r, bs, w =>
    match engLoc o.core remote user ⟨false, true, 0⟩ (wordOf a) w.s with
    | .error e => { w with fail := some e }
    | .ok (l, s) =>
      writeParts o remote user r (bs.drop n)
        { w with s := engWrite o (wordOf a) l (bs.take n) s, wrote := noteWrote l n w.wrote }

/-- Bytes written at an address as an engine writes them. -/
def engWriteVa (o : Origin) (remote : Option Nat) (user : Bool) (va : Word) (bs : List Byte) (w : Wrote) : Wrote :=
  if w.fail.isSome then w else writeParts o remote user (lineParts va.toNat bs.length) bs w

/-! ## Ends of copies (R281, R283) -/

/-- An end of a copy: a tensor from an origin, or an address with the bytes from one row to the next. -/
inductive End where
  | ten (h row0 col0 : Nat)
  | addr (base : Word) (pitch : Nat) (remote : Option Nat)
  deriving DecidableEq, Repr

/-- The address that names element (i, j) of an end: an address, or the tensor's handle (R291). -/
def endVa (e : End) (size i j : Nat) : Word :=
  match e with
  | .ten h _ _ => wordOf h
  | .addr b p _ => b + wordOf (i * p + j * size)

/-- The location of element (i, j) of an end. -/
def endLoc (core : Nat) (user wr : Bool) (e : End) (size i j : Nat) (s : State) : Chk (Loc × State) :=
  match e with
  | .ten h r c => match tensorOf s.dev h with
    | some t => .ok (⟨.ten h, ((r + i) * tCols t + c + j) * size⟩, s)
    | none => .error (.protection, wordOf h, 0)
  | .addr _ _ r => engLoc core r user ⟨!wr, wr, 0⟩ (endVa e size i j) s

end Sys2Proof.Machine
end

