-- ==== Sys2Proof/Machine/Stream.lean ====
section
/-! DEFINITION. The stream operations (R121 to R126). A stream runs whole at its issue: the thread's earlier accesses to LS are
done (Machine/Issue.lean), and what a later instruction or a stop could see of its middle, R126 makes wait. -/

namespace Sys2Proof.Machine

/-- A stream record's fields (R121). -/
structure StreamRec where
  src : Word
  dst : Word
  n : Nat
  op : Nat
  tys : Nat
  tyd : Nat
  rnd : Nat
  sc : Nat
  deriving DecidableEq, Repr

/-- A stream record as it stands in LS (R121). -/
def streamRec (r : List Byte) : StreamRec :=
  ⟨wordOf (recNat r 0 8), wordOf (recNat r 8 8), recNat r 16 4, recNat r 20 1, recNat r 21 1, recNat r 22 1, recNat r 23 1, recNat r 24 8⟩

/-- A type by its code (R34). -/
def tyOf (c : Nat) : Option Ty := if c < 16 then Ty.ofCode (BitVec.ofNat 4 c) else none

/-- Whether a type code names a type with a property. -/
def tyIs (c : Nat) (p : Ty → Bool) : Bool := match tyOf c with | some t => p t | none => false

/-- R125: the address of an array of elements of `w` bits, aligned. -/
def streamAligned (a : Word) (w : Nat) : Chk Unit := check (a.toNat % (w / 8) == 0) .misaligned a

/-- The lowest address outside LS among `n` elements of `w` bits from `a` on. -/
def firstOutside (a : Word) (n w : Nat) : Option Nat :=
  if n = 0 then none
  else if a.toNat ≥ lsTop then some a.toNat
  else if a.toNat + n * (w / 8) > lsTop then some lsTop
  else none

/-- R125: every element lies within LS. -/
def streamInside (l : List (Option Nat)) : Chk Unit :=
  match (l.filterMap id).min? with
  | some a => .error (.protection, wordOf a, 0)
  | none => .ok ()

/-- One element of LS, or the poisoned address in it (R125). -/
def streamGet (s : State) (off w : Nat) : Nat × Option Nat :=
  let l := lsLoc s off
  (bytesNat (rawBytes s.dev l (w / 8)), (poisonAt s.dev l (w / 8)).map (off + ·))

/-- One element of LS written, as a store of the thread's own (R126): logged and watched. -/
def streamPut (off w v : Nat) (s : State) : State :=
  performWrite (originOf s) 1 (wordOf off) (lsLoc s off) (natBytes (w / 8) v) s

/-- One element of LS read, as a load of the thread's own (R126): watched. -/
def streamRead (off w : Nat) (s : State) : State :=
  watchAccess s.hart.ar.ctx ⟨lsLoc s off, w / 8, false, some s.hart.ar.core, wordOf off⟩ (s.hart.tc.icount + 1) s

/-- The space that the log entries of `n` elements may need (R126, R386, R391). -/
def streamNeed (s : State) (n : Nat) : Nat := if logCovers s s.hart.ar.ctx s.hart.tc.covered then 32 * n else 0

/-- What a stream threads through its elements: the state, the draws and flags, and the poisoned address it stopped at. -/
structure StreamAcc where
  s : State
  acc : Acc
  bad : Option Nat

/-- One element of a mapping stream: read, computed, written; nothing happens after a poisoned read. Where source and destination
are both poisoned, the lower address is reported. DESIGN CHOICE: notes/assumptions/102.md. -/
def streamElem (src dst ws wd i : Nat) (readsDst : Bool) (f : Nat → Nat → Acc → Nat × Acc) (c : StreamAcc) : StreamAcc :=
  if c.bad.isSome then c else
  let c := { c with s := streamRead (src + i * (ws / 8)) ws c.s }
  let c := if readsDst then { c with s := streamRead (dst + i * (wd / 8)) wd c.s } else c
  let (x, p) := streamGet c.s (src + i * (ws / 8)) ws
  let (y, q) := if readsDst then streamGet c.s (dst + i * (wd / 8)) wd else (0, none)
  match p, q with
  | none, none =>
    let (v, a) := f x y c.acc
    { c with s := streamPut (dst + i * (wd / 8)) wd v c.s, acc := a }
  | some a, some b => { c with bad := some (min a b) }
  | p, q => { c with bad := p <|> q }

/-- The end of a stream: its held write, or Poison with EPC at the stream, no result and no flags (R125). `fx` says that
it writes LS (R253). The LFSR keeps what the elements before a poisoned one drew; a reduction has drawn nothing then.
DESIGN CHOICE: notes/assumptions/102.md. -/
def streamEnd (s0 : State) (d : Reg) (l : BitVec 4) (v : Word) (fx : Bool) (c : StreamAcc) : Out :=
  let s := setLfsr c.acc.lfsr (if fx then markEffect c.s else c.s)
  match c.bad with
  | some a => .next (takeTrap (causeCode .poison) (wordOf a) s0.hart.pc 0 true s)
  | none => finish s0 [d.toNat] (openHeld (xDst d) l (v.setWidth 1024) 0 c.acc.flags s)

/-- What VSMAP does to an element: `x` of the source, `y` of the destination, `k` the scalar (R122). -/
def mapLane (s : State) (t : Ty) (op k x y : Nat) (c : Acc) : Nat × Acc :=
  match op with
  | 0 => arithLane s t (fun _ a b => a + b) (fun rm _ a b => faddCode t rm a b) 0 x k c
  | 1 => arithLane s t (fun _ a b => a * b) (fun rm _ a b => fmulCode t rm a b) 0 x k c
  | 2 => (minmaxLane t false x k, c)
  | 3 => (minmaxLane t true x k, c)
  | 4 => arithLane s t (fun z a b => z + a * b) (fun rm z a b => ffmaCode t rm false a b z) y x k c
  | 5 => (x &&& k, c)
  | 6 => (x ||| k, c)
  | _ => (x ^^^ k, c)

/-- VSMAP (R121, R122, R125). An operation and a type that are legal codes but not accepted together are refused at the type, the
later field; of SRC and DST, both misaligned, SRC is the offending address. DESIGN CHOICE: notes/assumptions/19, 102, 115. -/
def execVsmap (d a : Reg) (l : BitVec 4) (s : State) : Out :=
  let p := xr s a
  afterChecks (do
    let r := streamRec (← readRecord s p 32 32)
    recordRules p [
      (decide (r.n ≤ 65536), 16), (decide (r.op ≤ 7), 20),
      (tyIs r.tys fun t => t.isInt || (t.isFl && decide (r.op ≤ 4)), 21), (r.tyd == 0, 22), (r.rnd == 0, 23)]
    let t := (tyOf r.tys).getD .i8
    streamAligned r.src t.width
    streamAligned r.dst t.width
    streamInside [firstOutside r.src r.n t.width, firstOutside r.dst r.n t.width]
    .ok (r, t)) s fun (r, t) =>
  let w := t.width
  withLog s (streamNeed s r.n) s fun s1 =>
    streamEnd s d l (wordOf r.n) true
      ((List.range r.n).foldl (fun c i =>
        streamElem r.src.toNat r.dst.toNat w w i (r.op == 4) (fun x y c => mapLane s t r.op (r.sc % 2 ^ w) x y c) c)
        ⟨s1, accOf s, none⟩)

/-- The reduction of an op code (R114, R123). -/
def redOfCode : Nat → Red
  | 0 => .sum
  | 1 => .max
  | 2 => .min
  | 3 => .and
  | 4 => .or
  | 5 => .xor
  | _ => .amax

/-- Whether a reduction accepts a type (R114). -/
def redAccepts (op : Nat) (t : Ty) : Bool :=
  if op ≤ 2 then t.isInt || t.isFl else if op ≤ 5 then t.isInt else t.isFl

/-- Block `b` of a reduction: the elements at and beyond N are absent (R123). -/
def streamBlock (op : Red) (t : Ty) (l : List Nat) (n b : Nat) : List (Option Nat) :=
  (rangeFrom (b * t.lanes) t.lanes).map fun i =>
    if i < n then (l[i]?).map fun x => if op = .amax then x % signBit t else x else none

/-- The blocks combined in ascending order (R123). -/
def streamReduce (op : Red) (t : Ty) (m : Rnd) (l : List Nat) (n : Nat) : List Nat → Option Nat → Acc → Option Nat × Acc
  | [], r, c => (r, c)
  | b :: bs, r, c =>
    let (x, c) := reduceBlock op t m (streamBlock op t l n b) c
    let (r, c) := match r, x with
      | some u, some v => let (y, c) := combine op t m u v c; (some y, c)
      | none, x => (x, c)
      | r, none => (r, c)
    streamReduce op t m l n bs r c

/-- A reduced value in a scalar register: iN sign-extended, every other type zero-extended (R123). -/
def streamResult (t : Ty) (v : Nat) : Word := if t.isSigned then BitVec.ofInt 64 (toInt true t.width v) else wordOf v

/-- VSRED (R121, R123, R125). An operation and a type that are legal codes but not accepted together are refused at the type, the
later field. Every element is read, those above a poisoned one too. DESIGN CHOICE: notes/assumptions/19, 102, 115. -/
def execVsred (d a : Reg) (l : BitVec 4) (s : State) : Out :=
  let p := xr s a
  afterChecks (do
    let r := streamRec (← readRecord s p 32 32)
    recordRules p [
      (decide (r.n ≤ 65536), 16), (decide (r.op ≤ 6), 20), (tyIs r.tys (redAccepts r.op), 21), (r.tyd == 0, 22),
      (r.rnd == 0, 23), (r.sc == 0, 24)]
    let t := (tyOf r.tys).getD .i8
    streamAligned r.src t.width
    streamInside [firstOutside r.src r.n t.width]
    .ok (r, t)) s fun (r, t) =>
  let els := (List.range r.n).map fun i => streamGet s (r.src.toNat + i * (t.width / 8)) t.width
  let s1 := (List.range r.n).foldl (fun s i => streamRead (r.src.toNat + i * (t.width / 8)) t.width s) s
  match els.findSome? (·.2) with
  | some b => streamEnd s d l 0 false ⟨s1, accOf s, some b⟩
  | none =>
    let op := redOfCode r.op
    let (v, c) := streamReduce op t (frmOf s) (els.map (·.1)) r.n (List.range ((r.n + t.lanes - 1) / t.lanes)) none (accOf s)
    streamEnd s d l (streamResult t (v.getD (emptyRed op t))) false ⟨s1, c, none⟩

/-- The pairs of types VSCVT accepts: those of VCVT, at every width ratio (R110, R124). DEDUCED: notes/assumptions/20.md. -/
def streamPair (t ts : Ty) : Bool := t != ts && cvtPair t ts

/-- VSCVT (R121, R124, R125). A pair of types that is not accepted is refused at TYD, the later field.
DESIGN CHOICE: notes/assumptions/19, 102, 115; DEDUCED: notes/assumptions/20.md. -/
def execVscvt (d a : Reg) (l : BitVec 4) (s : State) : Out :=
  let p := xr s a
  afterChecks (do
    let r := streamRec (← readRecord s p 32 32)
    recordRules p [
      (decide (r.n ≤ 65536), 16), (r.op == 0, 20), (tyIs r.tys fun _ => true, 21),
      (tyIs r.tyd fun t => tyIs r.tys (streamPair t), 22), (decide (r.rnd ≤ 7), 23), (r.sc == 0, 24)]
    let ts := (tyOf r.tys).getD .i8
    let t := (tyOf r.tyd).getD .i8
    streamAligned r.src ts.width
    streamAligned r.dst t.width
    streamInside [firstOutside r.src r.n ts.width, firstOutside r.dst r.n t.width]
    .ok (r, t, ts)) s fun (r, t, ts) =>
  let m := rndOf s (Rnd.ofCode (BitVec.ofNat 3 r.rnd))
  withLog s (streamNeed s r.n) s fun s1 =>
    streamEnd s d l (wordOf r.n) true
      ((List.range r.n).foldl (fun c i =>
        streamElem r.src.toNat r.dst.toNat ts.width t.width i false (fun x _ c => convLane t ts m s.hart.ar.satf x c) c)
        ⟨s1, accOf s, none⟩)

end Sys2Proof.Machine
end

