-- ==== Sys2Proof/Machine/Inbox.lean ====
section
/-! DEFINITION. Completion messages, the inbox and its instructions, and user-level interrupts (R26, R201 to R208). -/

namespace Sys2Proof.Machine

/-! ## Messages (R201, R202) -/

/-- The messages that an inbox holds (R183). -/
def inboxSize : Nat := 64

/-- The kinds whose message carries a copy tag (R279, R326). -/
def tagKind (k : Byte) : Bool := decide (k.toNat ≤ 4) || k == 0x11

/-- A message put into the inbox with the device time of completion: that of its entry, since an operation is complete only once its
message is in the inbox (R202). DESIGN CHOICE: notes/assumptions/106.md. -/
def placeMsg (m : Msg) (s : State) : State :=
  let s := passTime s
  onHart (fun h => { h with inbox := h.inbox ++ [{ m with time := s.dev.time }] }) s

/-- A message for a core (R202, R371): it waits in the hold when the inbox is full, others wait, or the core is stopped. What another
core receives is not part of this machine; an error for a retired thread is in the context's error record (R240).
DESIGN CHOICE: notes/assumptions/109.md. -/
def postMsg (core : Nat) (m : Msg) (s : State) : State :=
  if core != s.hart.ar.core then s
  else if s.hart.thread = .idle then
    if m.kind = 0x80 then onDev (fun d => { d with errors := d.errors ++ [m.status] }) s else s
  else if s.hart.inbox.length ≥ inboxSize || !s.clu.hold.isEmpty || s.hart.dbg.stop.isSome then
    onClu (fun c => { c with hold := c.hold ++ [m] }) s
  else placeMsg m s

/-- An asynchronous error message (R201). -/
def errorMsg (c : Cause) (count : Nat) : Msg := ⟨0, causeCode c, 0x80, BitVec.ofNat 32 count, 0, [], 0⟩

/-- Whether the hold may send a message into the inbox. -/
def inboxOpen (s : State) : Bool := decide (s.hart.inbox.length < inboxSize) && !s.clu.hold.isEmpty && s.hart.dbg.stop.isNone

/-- MESSAGE_ENTER_INBOX (R202): the oldest held message enters. -/
def execMessageEnterInbox (s : State) : Out :=
  match s.clu.hold with
  | [] => .next s
  | m :: r => if inboxOpen s then .next (placeMsg m (onClu (fun c => { c with hold := r }) s)) else .next s

/-- The header of a message: bytes 0 to 7 (R26). -/
def msgHeader (m : Msg) : Word :=
  wordOf (m.tag.toNat + m.status.toNat * 2 ^ 8 + m.kind.toNat * 2 ^ 16 + m.count.toNat * 2 ^ 32)

/-- The 16 bytes of a message (R201). -/
def msgBytes (m : Msg) : List Byte := natBytes 8 (msgHeader m).toNat ++ natBytes 8 m.time.toNat

/-- The moves of R203 for one location an operation wrote: its line leaves the L1, and the cluster's line keeps only its
dirty bytes. -/
def acquireLine (s : State) (l : Loc) : State :=
  let s := onHart (l1Drop l 1) s
  match cmFind s.clu l with
  | some x =>
    if x.uo.isSome then s
    else if x.dirty = 0 then onClu (cmDrop l) s
    else onClu (cmPut { x with valid := x.dirty }) s
  | none => s

/-- R203: one operation's writes acquired; what it wrote to LS needs no move. -/
def acquireWrote (ls : List Loc) (s : State) : State := ls.foldl acquireLine s

/-! ## INBOX (R204, R205) -/

/-- The checks of INRECV (R204); with the xa field 0 there is none. -/
def inrecvCheck (s : State) (a : Reg) : Chk Unit :=
  if a = 0 then .ok () else do
    check ((xr s a).toNat % 16 == 0) .misaligned (xr s a)
    check (decide ((xr s a).toNat + 15 < 0x20000)) .protection (xr s a)

/-- A tag is free again when its message is removed (R279). -/
def freeTag (m : Msg) (h : Hart) : Hart := if tagKind m.kind then { h with tags := h.tags.erase m.tag } else h

/-- The message removed: acquired, written to LS as one store, its tag freed (R26, R203, R204, R368). -/
def takeMsg (m : Msg) (a : Reg) (s : State) : State :=
  let va := xr s a
  let s := acquireWrote m.wrote s
  let s := if a = 0 then s else performWrite (originOf s) 1 va (lsLoc s va.toNat) (msgBytes m) s
  onHart (fun h => freeTag m { h with inbox := h.inbox.tail, recv := h.recv + 1 }) s

/-- INRECV (R26, R203, R204): it blocks until a message is there. DEDUCED: notes/assumptions/21.md. -/
def execInrecv (d a : Reg) (s : State) : Out :=
  afterChecks (inrecvCheck s a) s fun _ =>
    match s.hart.inbox with
    | [] => hold s
    | m :: _ =>
      withLog s (if a = 0 then 0 else storeNeed s (.store (List.replicate 16 0) .normal) (lsLoc s 0)) s fun s1 =>
        finishFx s [d.toNat] (setX d (msgHeader m) (takeMsg m a s1))

/-- INPEEK (R205). -/
def execInpeek (d : Reg) (s : State) : Out :=
  finish s [d.toNat] (setX d (match s.hart.inbox with | [] => BitVec.allOnes 64 | m :: _ => msgHeader m) s)

/-- INCOUNT (R205). -/
def execIncount (d : Reg) (s : State) : Out := finish s [d.toNat] (setX d (wordOf s.hart.inbox.length) s)

/-! ## User-level interrupts (R206, R207) -/

/-- UIARM (R206). -/
def execUiarm (a : Reg) (s : State) : Out :=
  let n := xr s a
  if n.toNat < 1 || n.toNat > 64 then trap .protection n s
  else finish s [] (onHart (fun h => { h with ui := { h.ui with thr := n.setWidth 7, armed := true } }) s)

/-- UIDIS (R206). -/
def execUidis (s : State) : Out := finish s [] (onHart (fun h => { h with ui := { h.ui with armed := false } }) s)

/-- Whether the interrupt is taken at this boundary (R206): while a trap handler runs too, for the rule bars it only in a handler of its
own. DEDUCED: notes/assumptions/116.md. -/
def uiReady (s : State) : Bool :=
  s.hart.thread = .running && s.hart.dbg.stop.isNone && s.hart.ui.armed && !s.hart.ui.inh && !insideInstr s.hart &&
  decide (s.hart.ui.thr.toNat ≤ s.hart.inbox.length)

/-- UI_TAKE (R206): the handler's registers are the shadow bank, and what the thread held is saved.
DEDUCED: notes/assumptions/26.md. -/
def execUiTake (s : State) : Out :=
  if !uiReady s then .next s else
  .next (onHart (fun h => { h with
    ui := { h.ui with uiepc := h.pc, uicause := 1, inh := true, armed := false }
    saved := ⟨true, h.pc, h.frame, h.fences, h.mid⟩ :: h.saved
    frame := none, fences := [], mid := .none, spin := none, mfull := false, blocked := false
    pc := h.ui.uivec }) s)

/-- Whether the core runs a user-level interrupt handler, and not a trap handler inside it (R207). -/
def inUiHandler (h : Hart) : Bool := h.ui.inh && match h.saved.head? with | some t => t.ui | none => false

/-- UIRET (R39, R207): it waits for the values of the handler's windows, and takes the Poison of one in place of its landing. The
fences that it restores go on at once (R196). DEDUCED: notes/assumptions/12, 26. -/
def execUiret (s : State) : Out :=
  if !inUiHandler s.hart then illegal (encode .uiret) s
  else if returnWaits s.hart then hold s
  else match handlerPoison s.hart with
  | some (id, a) => .next (returnPoison id a s)
  | none =>
    let s1 := popSaved s.hart.ui.uiepc (tally s [] false s)
    .next (stepTrap s (settle
      (onHart (fun h => { h with ui := { h.ui with inh := false, armed := true, uicause := 0 } }) s1)))

end Sys2Proof.Machine
end

