-- ==== Sys2Proof/Machine/Tensors.lean ====
section
/-! DEFINITION. Tensors: the joiner's choice, the order point, and the TENS instructions (R155 to R182). -/

namespace Sys2Proof.Machine

/-! ## The joiner's choice (R159 to R164) -/

/-- The eight-bit types of square-scaled tensors (R159). -/
def tyFp8 (t : Ty) : Bool := t == .e4m3 || t == .e5m2

/-- Whether any of some operations is in a set. -/
def anyOp (ops : BitVec 16) (l : List TOp) : Bool := l.any fun o => ops.getLsbD o.code

/-- cluster_fits() of R159 for a footprint: what the tensor itself holds in the pool counts beside its new form (R164, R177).
DESIGN CHOICE: notes/assumptions/104.md. -/
def clusterFits (s : State) (c : Nat) (ops : BitVec 16) (foot : Nat) : Bool :=
  decide (foot ≤ 262144) && !anyOp ops [.red, .future, .near, .peer, .host] &&
  decide (pinnedChunks s.dev c + foot / 128 + 2048 ≤ poolChunks s)

/-- R159: the representation that the joiner chooses. -/
def chooseRep (s : State) (x : Shape) (ops : BitVec 16) : Rep :=
  let mixed := anyOp ops [.scatter, .atomic, .red, .near, .future]
  let base : Rep :=
    { tiles := anyOp ops [.mmaA, .mmaB, .tread] && decide (2 ≤ x.rank), place := .spread
      comp := ops.getLsbD 13 && (x.ty == .bf16 || tyFp8 x.ty) && !mixed, mirror := false, scaled := tyFp8 x.ty
      unc := anyOp ops [.near] }
  let die : Place := .die (dieOfCluster x.maker)
  let place : Place :=
    if anyOp ops [.near, .peer, .host] then .spread
    else if x.pref = 2 && clusterFits s x.maker ops (footprint x { base with place := .cluster x.maker }) then .cluster x.maker
    else if x.pref ≥ 1 then die else .spread
  let mirrored := ops.getLsbD 14 && (match place with | .cluster _ => false | _ => true) &&
    anyOp ops [.gather, .tread, .mmaA, .mmaB] && !mixed
  if mirrored then { base with place := die, mirror := true } else { base with place := place }

/-- The code of a representation (R160). -/
def repCode (r : Rep) : Nat :=
  let (place, die, clu) := match r.place with
    | .spread => (0, 0, 0)
    | .die d => (1, if r.mirror then 0 else d, 0)
    | .cluster c => (2, 0, c)
  clu * 2 ^ 12 + die * 2 ^ 8 + fieldBit r.unc 6 + fieldBit r.scaled 5 + fieldBit r.mirror 4 + fieldBit r.comp 3 + place * 2 +
    fieldBit r.tiles 0
where
  /-- A one-bit field. -/
  fieldBit (b : Bool) (i : Nat) : Nat := if b then 2 ^ i else 0

/-- The part of a representation's footprint that is charged against the quota (R164, R177). -/
def quotaPart (x : Shape) (r : Rep) : Nat := match r.place with | .cluster _ => 0 | _ => footprint x r

/-- The charge of a context (R164): every live tensor's forms, and what waits for the next interval boundary (R171). -/
def charge (s : State) (c : Context) : Nat :=
  c.deferred + (s.dev.tensors.filter (·.ctx == c.num)).foldl (fun n t =>
    n + ((tensorReps t).map (quotaPart t.shape)).sum) 0

/-- The latest representation queued or in force (R177). -/
def latestRep (t : Tensor) : Rep := (tensorReps t).getLast?.getD t.rep

/-- Whether a re-representation is queued or moving (R179). -/
def rerepPending (t : Tensor) : Bool := t.queue.any fun e => match e with | .rerep _ _ _ => true | _ => false

/-! ## Elements (R59, R162, R181) -/

/-- The block of an element of a square-scaled tensor (R59). -/
def blockOf (t : Tensor) (e : Nat) : Nat := e / tCols t / 32 * ceilDiv (tCols t) 32 + e % tCols t / 32

/-- The pattern of an element. -/
def elemCode (t : Tensor) (e : Nat) : Nat := memNat t.data (e * tySize t.ty) (tySize t.ty)

/-- The scale of an element: s × T (R59). -/
def elemScale (t : Tensor) (e : Nat) : FVal :=
  (scaleVal (fdec .e5m3 (blockScale t (blockOf t e)).toNat) (fdec .bf16 t.tscale.toNat)).1

/-- The value of an element (R59): exact. -/
def elemVal (t : Tensor) (e : Nat) : FVal :=
  let q := fdec t.ty (elemCode t e)
  if t.rep.scaled then (mulVal q (elemScale t e)).1 else q

/-- What TLDE reads (R181). -/
def tldeValue (t : Tensor) (e : Nat) : Word :=
  let c := elemCode t e
  if t.rep.scaled then wordOf (roundVal .f32 rmRne (elemVal t e)).1
  else if t.ty.isSigned then BitVec.ofInt 64 (toInt true t.ty.width c)
  else wordOf c

/-- A value over a scale, rounded (R181): no value is stated for a zero scale, so it is free there.
DESIGN CHOICE: notes/assumptions/24.md. -/
def quotient (ty : Ty) (rm : RMode) (free : Nat) (v d : FVal) : Nat :=
  match v, d with
  | .nan, _ => nanCode ty
  | _, .nan => nanCode ty
  | .inf _, .inf _ => nanCode ty
  | .inf a, .fin b n _ => if n = 0 then free else (roundVal ty rm (.inf (a != b))).1
  | .fin a _ _, .inf b => (roundVal ty rm (.fin (a != b) 0 0)).1
  | .fin a n e, .fin b m f =>
    if m = 0 then free % 2 ^ ty.width
    else if n = 0 then (roundVal ty rm (.fin (a != b) 0 0)).1
    else (roundMag ty rm (ratMag (a != b) n m (e - f))).1

/-- The pattern that TSTE stores (R181). DESIGN CHOICE: notes/assumptions/24.md. -/
def tsteCode (t : Tensor) (e : Nat) (v : Word) (sat : Bool) (free : Nat) : Nat :=
  if t.rep.scaled then quotient t.ty { rmRne with sat := sat } free (fdec .f32 (v.toNat % 2 ^ 32)) (elemScale t e)
  else v.toNat % 2 ^ t.ty.width

/-! ## Handles (R157, R158, R176) -/

/-- A handle never given in the context (R157): the joiner's opaque choice where it is fresh, else the least fresh value.
DESIGN CHOICE: notes/assumptions/5.md. -/
def freshHandle (s : State) (used : List Nat) : Nat :=
  let v := Config.handle s.tick % 2 ^ 64
  let taken := used ++ s.dev.tensors.map (·.h)
  if 256 ≤ v && !taken.contains v then v
  else ((rangeFrom 256 (taken.length + 1)).find? fun k => !taken.contains k).getD 256

/-- The tensor named by a handle, or Protection (R158). -/
def liveCheck (s : State) (h : Word) : Chk Tensor :=
  match liveTensor s h with
  | some t => .ok t
  | none => .error (.protection, h, 0)

/-- Extent `j` of a shape record. -/
def extOf (r : List Byte) (j : Nat) : Nat := recNat r (8 + 4 * j) 4

/-- The byte count of a shape with the extents taken up to `j` (R445). -/
def bytesUpTo (r : List Byte) (j : Nat) : Nat :=
  ((List.range (j + 1)).foldl (fun n i => n * max 1 (extOf r i)) 1) *
    tySize ((if recByte r 0 < 13 then Ty.ofCode (BitVec.ofNat 4 (recByte r 0)) else none).getD .i8)

/-- The rules of a shape record (R156, R176), in ascending order of the byte they name. -/
def shapeRules (r : List Byte) : List (Bool × Nat) :=
  let rank := recByte r 1
  [(decide (recByte r 0 < 13), 0), (decide (1 ≤ rank) && decide (rank ≤ 4), 1), (decide (recByte r 2 ≤ 2), 2)] ++
  zeroRules r 3 5 ++
  ((List.range 4).map fun j =>
    ((if j < rank then decide (1 ≤ extOf r j) && decide (extOf r j ≤ 2 ^ 24) && decide (bytesUpTo r j ≤ 2 ^ 39)
      else extOf r j == 0), 8 + 4 * j)) ++
  zeroRules r 24 40

/-- The shape of a legal record. -/
def shapeOf (s : State) (r : List Byte) : Shape :=
  let rank := recByte r 1
  ⟨(Ty.ofCode (BitVec.ofNat 4 (recByte r 0))).getD .i8, rank, recByte r 2, (List.range rank).map (extOf r), s.hart.ar.cluster⟩

/-- TNEW's checks (R176). -/
def tnewCheck (s : State) (p o : Word) : Chk Shape := do
  check (p.toNat % 64 == 0) .misaligned p
  check (decide (p.toNat + 63 < 0x20000)) .protection p
  check (decide (o.toNat < 2 ^ 15)) .protection o
  let r ← readRecord s p 64 64
  recordRules p (shapeRules r)
  .ok (shapeOf s r)

/-- A new tensor (R162). -/
def newTensor (h ctx : Nat) (x : Shape) (ops : BitVec 16) (r : Rep) : Tensor :=
  { h := h, ctx := ctx, ty := x.ty, rank := x.rank, pref := x.pref, maker := x.maker, ext := x.ext, ops := ops, rep := r
    data := [], bscale := [], tscale := 0x3F80, opt := [], poison := [], queue := [], freed := false }

/-- The value of TNEW, and the state with the tensor made (R176), for whose chunks lines leave the pool (R159). -/
def createTensor (x : Shape) (ops : BitVec 16) (s : State) : Word × State :=
  match curCtx s with
  | none => (1, s)
  | some c =>
    let r := chooseRep s x ops
    if (s.dev.tensors.filter (·.ctx == c.num)).length ≥ 65536 then (2, s)
    else if charge s c + quotaPart x r > c.quota then (1, s)
    else
      let h := freshHandle s c.used
      let s := { s with tick := s.tick + 1 }
      let s := onCtx c.num (fun c => { c with used := h :: c.used }) s
      (wordOf h, fitPool (onDev (fun d => { d with tensors := d.tensors ++ [newTensor h c.num x ops r] }) s))

/-- TNEW (R176). -/
def execTnew (d a b : Reg) (l : BitVec 4) (s : State) : Out :=
  let o := xr s b
  afterChecks (tnewCheck s (xr s a) o) s fun x =>
    let (v, s1) := createTensor x (o.setWidth 16) s
    finishHeldX s d l v (markEffect s1)

/-! ## TWIDEN, TFREE, TINFO, TVIEW (R177 to R180) -/

/-- The status of TWIDEN, and the state it leaves (R166, R177). -/
def widen (t : Tensor) (b : BitVec 16) (s : State) : Word × State :=
  let ops := t.ops ||| b
  let r := chooseRep s t.shape ops
  let tooBig := match curCtx s with | some c => decide (charge s c + quotaPart t.shape r > c.quota) | none => true
  if ops = t.ops || r = latestRep t then (0, onTensor t.h (fun t => { t with ops := ops }) s)
  else if tooBig then (2, s)
  else (1, fitPool (onTensor t.h (fun t => { t with ops := ops, queue := t.queue ++ [.rerep r false (some s.hart.nextSeq)] }) s))

/-- TWIDEN (R177). DEDUCED: notes/assumptions/23, 108. -/
def execTwiden (d a b : Reg) (l : BitVec 4) (s : State) : Out :=
  let x := xr s b
  afterChecks (do
    let t ← liveCheck s (xr s a)
    check (decide (x.toNat < 2 ^ 15)) .protection x
    .ok t) s fun t =>
    let (v, s1) := widen t (x.setWidth 16) s
    finishHeldX s d l v (markEffect s1)

/-- A free entry appended; the re-representations not yet moving are cancelled (R166, R169). -/
def freeTensor (t : Tensor) : Tensor :=
  { t with
    freed := true
    queue := (t.queue.filter fun e => match e with | .rerep _ moving _ => moving | _ => true) ++ [.free true] }

/-- TFREE (R178). -/
def execTfree (a : Reg) (s : State) : Out :=
  afterChecks (liveCheck s (xr s a)) s fun t => finishFx s [] (onTensor t.h freeTensor s)

/-- What TINFO reads of a tensor (R179). -/
def infoOf (t : Tensor) : Nat → Nat
  | 0 => t.ops.toNat + if rerepPending t then 2 ^ 16 else 0
  | 1 => repCode (latestRep t)
  | 2 => footprint t.shape (latestRep t)
  | 3 => tCount t
  | 4 => (Ty.code t.ty).toNat + t.rank * 2 ^ 8 + t.pref * 2 ^ 16
  | _ => 0

/-- What TINFO reads of the context (R179). -/
def infoCtx (s : State) (q : Nat) : Nat :=
  match curCtx s with
  | none => 0
  | some c => match q with
    | 5 => charge s c
    | 6 => c.quota
    | 7 => (s.dev.tensors.filter (·.ctx == c.num)).length
    | _ => 0

/-- TINFO (R179). DEDUCED: notes/assumptions/23.md. -/
def execTinfo (d a b : Reg) (l : BitVec 4) (s : State) : Out :=
  let q := (xr s b).toNat
  if 5 ≤ q && q ≤ 7 && a = 0 then finishHeldX s d l (wordOf (infoCtx s q)) s
  else afterChecks (liveCheck s (xr s a)) s fun t =>
    finishHeldX s d l (wordOf (if 5 ≤ q then infoCtx s q else infoOf t q)) s

/-- TVIEW's checks (R180): the binding it makes. -/
def tviewCheck (s : State) (h c : Word) : Chk (Option (Nat × Nat)) := do
  check (bits c 31 4 == 0) .protection c
  if h = 0 then .ok none else
  let t ← liveCheck s h
  check (!t.rep.scaled) .protection h
  check (decide (bits c 63 32 * 2 ^ 32 < tBytes t)) .protection c
  .ok (some (t.h, bits c 63 32))

/-- A binding put into the held write opened last. -/
def bindLast (i : Nat) (b : Option (Nat × Nat)) (s : State) : State :=
  onHart (fun h => { h with held := modAt h.held (h.held.length - 1) fun w => { w with bind := some (i, b) } }) s

/-- TVIEW (R180): the binding takes effect as the held write lands. DEDUCED: notes/assumptions/23.md. -/
def execTview (d a b : Reg) (l : BitVec 4) (s : State) : Out :=
  let c := xr s b
  afterChecks (tviewCheck s (xr s a) c) s fun v =>
    let i := bits c 3 0
    finish s [d.toNat] (bindLast i v (openHeld (xDst d) l ((wordOf (viewBase + i * 2 ^ 32)).setWidth 1024) 0 0 s))

/-! ## TLDE, TSTE, TWAIT (R181, R182) -/

/-- The checks of TLDE and TSTE. -/
def elemCheck (s : State) (h e : Word) : Chk Tensor := do
  let t ← liveCheck s h
  check (decide (e.toNat < tCount t)) .protection e
  needOp t TOp.elem.code
  .ok t

/-- The access of an element: at the home, never through CM (R181); its TVAL is the element's index. DEDUCED: notes/assumptions/89.md. -/
def elemAccess (t : Tensor) (e : Word) : Access := ⟨⟨.ten t.h, e.toNat * tySize t.ty⟩, .unc, e⟩

/-- The access entry of the request that enters the store queue next (R165). -/
def placeEntry (h : Nat) (s : State) : State :=
  onTensor h (fun t => { t with queue := t.queue ++ [.access (2 * (s.hart.nextSeq + 1))] }) s

/-- TLDE (R181). DEDUCED: notes/assumptions/89.md. -/
def execTlde (d a b : Reg) (l : BitVec 4) (s : State) : Out :=
  let e := xr s b
  afterChecks (elemCheck s (xr s a) e) s fun t =>
    if !sqRoom s 1 then hold s else
    let s1 := openHeld (xDst d) l 0 1 0 s
    finish s [d.toNat] (enqueue (.tlde e.toNat (tySize t.ty) s.hart.nextId) (elemAccess t e) none (placeEntry t.h s1))

/-- TSTE (R181): SATF is read at issue. -/
def execTste (d a b : Reg) (s : State) : Out :=
  let e := xr s b
  afterChecks (elemCheck s (xr s a) e) s fun t =>
    if !sqRoom s 1 then hold s else
    let q := StoreOp.tste e.toNat (tySize t.ty) (xr s d) s.hart.ar.satf
    withLog s (storeNeed s q (elemAccess t e).loc) s fun s1 =>
      finishFx s [] (enqueue q (elemAccess t e) none (placeEntry t.h s1))

/-- Whether an entry is this thread's (R182). -/
def myEntry (s : State) : OEntry → Bool
  | .access id =>
    if id % 2 = 0 then true
    else (s.dev.copies.any fun c => c.id == id / 2 && c.core == s.hart.ar.core) ||
      (s.dev.nmus.any fun c => c.id == id / 2 && c.core == s.hart.ar.core)
  | .rerep _ _ mine => mine.isSome
  | .free mine => mine

/-- Whether TWAIT waits: an entry of this thread has not completed. -/
def twaitWaits (s : State) (a : Reg) : Bool :=
  s.dev.tensors.any fun t => t.ctx == s.hart.ar.ctx && (a == 0 || wordOf t.h == xr s a) && t.queue.any (myEntry s)

/-- TWAIT (R182). -/
def execTwait (a : Reg) (s : State) : Out := if twaitWaits s a then hold s else finish s [] s

/-! ## The order point (R165 to R171) -/

/-- Whether an entry may be performed now: no re-representation stands before it (R166). -/
def entryReady (t : Tensor) (id : Nat) : Bool :=
  (t.queue.takeWhile fun e => e != .access id).all fun e => match e with | .rerep _ _ _ => false | _ => true

/-- Whether an entry stands behind a free entry, and is not performed (R169). -/
def entryDead (t : Tensor) (id : Nat) : Bool :=
  (t.queue.takeWhile fun e => e != .access id).any fun e => match e with | .free _ => true | _ => false

/-- An entry completed (R165). -/
def entryDone (h id : Nat) (s : State) : State :=
  onTensor h (fun t => { t with queue := t.queue.filter fun e => e != .access id }) s

/-- The lines of a tensor recalled from the cluster's CM: dirty bytes written back, partials combined, all dropped (R167). -/
def recallTensor (h : Nat) (s : State) : State :=
  let sp := Space.ten h
  let s := uoRecallAll (fun x => x.space == sp) s
  let s := (s.clu.cm.filter fun x => x.space == sp && x.dirty != 0).foldl (fun s x =>
    (List.range 128).foldl (fun s i => if x.dirty.getLsbD i then
      homePut ⟨sp, x.line * 128 + i⟩ [lineByte x.data i] s else s) s) s
  onClu (fun c => { c with cm := c.cm.filter fun x => x.space != sp, exp := c.exp.filter (·.1 != h) }) s

/-- Whether a request is no TLDE or TSTE: it came through a view (R165, R167). -/
def viewOp : StoreOp → Bool
  | .tlde _ _ _ | .tste _ _ _ _ => false
  | _ => true

/-- REREP_MOVE_BEGIN (R166, R167): every entry ahead is complete, the paths hold no request of the tensor's lines. -/
def execRerepMoveBegin (h : Nat) (s : State) : Out :=
  match tensorOf s.dev h with
  | none => .next s
  | some t => match t.queue with
    | .rerep r false mine :: q =>
      if (paths s).any fun p => p.loc.space == .ten h && viewOp p.op then .next s
      else .next (onTensor h (fun t => { t with queue := .rerep r true mine :: q }) (recallTensor h s))
    | _ => .next s

/-- REREP_MOVE_COMPLETE (R166, R170): the element values and poison are those of the old form. -/
def execRerepMoveComplete (h : Nat) (s : State) : Out :=
  match tensorOf s.dev h with
  | none => .next s
  | some t => match t.queue with
    | .rerep r true _ :: q => .next (onTensor h (fun t => { t with rep := r, queue := q }) s)
    | _ => .next s

/-- The state without a tensor: its views unbound, its lines gone (R166). -/
def dropTensor (t : Tensor) (s : State) : State :=
  let sp := Space.ten t.h
  let unbind := fun (v : Option (Nat × Nat)) => match v with | some p => if p.1 = t.h then none else v | none => none
  let s := onDev (fun d => { d with tensors := d.tensors.filter fun x => x.h != t.h }) s
  let s := onHart (fun h => { h with
    views := if h.ar.ctx = t.ctx then h.views.map unbind else h.views
    l1 := h.l1.filter fun x => x.space != sp }) s
  onClu (fun c => { c with cm := c.cm.filter fun x => x.space != sp, exp := c.exp.filter (·.1 != t.h) }) s

/-- FREE_ENTRY_HEAD (R166, R171, R178): storage and charge are released, in CHECKPOINT mode at the next boundary. -/
def execFreeEntryHead (h : Nat) (s : State) : Out :=
  match tensorOf s.dev h with
  | none => .next s
  | some t => match t.queue with
    | .free _ :: _ =>
      let part := ((tensorReps t).map (quotaPart t.shape)).sum
      .next (onCtx t.ctx (fun c => if c.mode = 3 then { c with deferred := c.deferred + part } else c) (dropTensor t s))
    | _ => .next s

end Sys2Proof.Machine
end

