-- ==== Sys2Proof/Machine/Copies.lean ====
section
/-! DEFINITION. Copies (R279 to R293): the record and its checks, what the engine does, the exponent-Huffman coding, and the
completion of a copy. -/

namespace Sys2Proof.Machine

/-! ## The record (R280) -/

/-- The fields of a copy record. -/
structure CopyRec where
  src : Word
  dst : Word
  sorg : Nat
  cols : Nat
  rows : Nat
  dpitch : Nat
  tag : Nat
  op : Nat
  sk : Nat
  dk : Nat
  ends : Nat
  flags : Nat
  rnd : Nat
  dty : Nat
  sty : Nat
  tbl : Nat
  core : Nat
  peer : Nat
  spitch : Nat
  dorg : Nat
  deriving DecidableEq, Repr

/-- The record of 64 bytes (R280, R281). -/
def copyRec (r : List Byte) : CopyRec :=
  { src := wordOf (recNat r 0 8), dst := wordOf (recNat r 8 8), sorg := recNat r 16 8, cols := recNat r 24 2
    rows := recNat r 26 2, dpitch := recNat r 28 4, tag := recByte r 32, op := recByte r 33, sk := recByte r 34 % 4
    dk := recByte r 34 / 4 % 4, ends := recByte r 34, flags := recByte r 35, rnd := recByte r 36, dty := recByte r 37
    sty := recByte r 38, tbl := recByte r 39, core := recNat r 40 2, peer := recNat r 42 2, spitch := recNat r 44 4
    dorg := recNat r 48 8 }

/-- CVT. -/
def CopyRec.cvt (r : CopyRec) : Bool := r.flags % 2 == 1
/-- COMP. -/
def CopyRec.comp (r : CopyRec) : Bool := r.flags / 2 % 2 == 1
/-- DECOMP. -/
def CopyRec.decomp (r : CopyRec) : Bool := r.flags / 4 % 2 == 1
/-- Whether a record loads an exponent table (R288). -/
def CopyRec.load (r : CopyRec) : Bool := r.dk == 3
/-- Whether the source is an address. -/
def CopyRec.srcAddr (r : CopyRec) : Bool := r.sk == 1 || r.sk == 2
/-- Whether the destination is an address. -/
def CopyRec.dstAddr (r : CopyRec) : Bool := r.dk == 0 || r.dk == 2
/-- Whether a record names an exponent table (R288). -/
def CopyRec.namesTable (r : CopyRec) : Bool := r.load || r.comp || r.decomp

/-- The type of a code, i8 where none is named. -/
def tyCode (c : Nat) : Ty := (tyOf c).getD .i8

/-- The memory that an address end names when it is another cluster's or that of core CORE (R281, R285). -/
def remoteEnd (me : Nat) (kind2 : Bool) (cn : Nat) (a : Word) : Option Space :=
  if kind2 then some (.ls cn)
  else match cmWindow a.toNat with
    | some l => if l.space = .scr (clusterOfCore me) then none else some l.space
    | none => none

/-- The remote source of a record. -/
def remoteSrc (me : Nat) (r : CopyRec) : Option Space := if r.srcAddr then remoteEnd me (r.sk == 2) r.core r.src else none
/-- The remote destination of a record; that of CPYPD lies at its peer (R286). -/
def remoteDst (me fn : Nat) (r : CopyRec) : Option Space :=
  if r.dstAddr && fn != 4 then remoteEnd me (r.dk == 2) r.core r.dst else none

/-- Whether an address is the issuer's LS or its scratch window (R285). -/
def localEnd (me : Nat) (a : Word) : Bool :=
  match localLoc me none a.toNat with
  | some l => l.space == .ls me || l.space == .scr (clusterOfCore me)
  | none => false

/-- Whether an address lies in the view range or above it (R281). -/
def viewVa (a : Word) : Bool := decide (viewBase ≤ a.toNat)

/-- Whether a core number is one of the context's partition (R11, R285). -/
def coreInPartition (s : State) (n : Nat) : Bool :=
  decide (n < 7168) && match curCtx s with | some c => c.bays.getLsbD (bayOfCore n) | none => false

/-- The rules of R285 for the two ends of an exchange copy: exactly one is remote, and the other is the issuer's own. R285 names no
field for a record that breaks them: an end that is not the issuer's own, or a second remote one, offends at its own address, and
with no remote end DST does. DESIGN CHOICE: notes/assumptions/103.md. -/
def exchangeRule (me : Nat) (r : CopyRec) : Bool × Bool :=
  match remoteSrc me r, remoteDst me 3 r with
  | some _, none => (true, r.dstAddr && localEnd me r.dst)
  | none, some _ => (r.srcAddr && localEnd me r.src, true)
  | some _, some _ => (true, false)
  | none, none => (true, false)

/-- Whether two types of a record may be joined (R282). -/
def copyPair (t ts : Ty) : Bool := t == ts || streamPair t ts

/-- The element types of exponent-Huffman streams (R289). -/
def ehTy (t : Ty) : Bool := t == .bf16 || t == .e4m3 || t == .e5m2

/-- The fields legal for a function, in ascending order of the byte they name (R280 to R289). A remote end of a function that allows
none offends at its address. Of a COMP with a handle as destination and a DECOMP with a handle as source, ENDS offends, and of either
with OP, OP. DEDUCED: notes/assumptions/32.md; DESIGN CHOICE: notes/assumptions/103.md. -/
def copyRules (s : State) (fn : Nat) (b : List Byte) : List (Bool × Nat) :=
  let r := copyRec b
  let me := s.hart.ar.core
  let load := fn == 0 && r.load
  let comp := fn == 0 && r.comp
  let decomp := fn == 0 && r.decomp
  let x := exchangeRule me r
  let dty : Option Ty := if r.cvt then tyOf r.dty else if r.srcAddr then tyOf r.sty else none
  let fp8Dst := r.dstAddr && match dty with | some t => t.isFp8 | none => false
  [ ((if fn = 3 then x.1 else (remoteSrc me r).isNone) && !(r.srcAddr && viewVa r.src), 0),
    ((if fn = 3 then x.2 else if fn = 4 then isDevVa r.dst else if load then r.dst == 0 else (remoteDst me fn r).isNone) &&
      !(r.dstAddr && viewVa r.dst), 8),
    (r.sorg == 0 || (r.sk == 0 && fn != 1), 16),
    (!load || (r.cols == 0 && r.rows == 0), 24),
    (r.dpitch == 0 || (r.dstAddr && !comp), 28),
    (decide (r.op ≤ 3) && (r.op == 0 || !(fn == 1 || fn == 4 || load || comp || decomp || fp8Dst)), 33),
    (r.ends / 16 == 0 && r.sk != 3 && (r.dk != 3 || fn == 0) && (fn != 4 || r.dk == 0) && (fn != 1 || r.dk == 1) &&
      (!load || r.srcAddr) && (!comp || r.dstAddr) && (!decomp || r.srcAddr), 34),
    (r.flags / 8 == 0 && (fn == 0 || r.flags / 2 == 0) && !(comp && decomp) && !((comp || decomp) && r.cvt) &&
      (!load || r.flags == 0) && (fn != 1 || r.flags == 0), 35),
    (decide (r.rnd ≤ 7) && (r.rnd == 0 || !(load || comp || decomp)), 36),
    (if r.cvt && r.dstAddr then decide (r.dty ≤ 12) else r.dty == 0, 37),
    (if r.srcAddr && !load then
        decide (r.sty ≤ 12) && (fn != 1 || tyIs r.sty Ty.isFl) && (!(comp || decomp) || tyIs r.sty ehTy) &&
        (!(r.cvt && r.dstAddr) || copyPair (tyCode r.dty) (tyCode r.sty))
      else r.sty == 0, 38),
    (if r.namesTable && fn == 0 then decide (r.tbl ≤ 7) else r.tbl == 0, 39),
    (if r.sk = 2 || r.dk = 2 then coreInPartition s r.core && r.core != me else r.core == 0, 40),
    (fn == 4 || r.peer == 0, 42),
    (r.spitch == 0 || (r.srcAddr && !load && !decomp), 44),
    (r.dorg == 0 || (r.dk == 1 && fn != 1), 48) ] ++ zeroRules b 56 8

/-! ## The checks of handles, operations and places (R290) -/

/-- The rows and columns that the destination receives: CPYT transposes them (R283). -/
def dstExtent (fn : Nat) (r : CopyRec) : Nat × Nat := if fn = 2 then (r.cols, r.rows) else (r.rows, r.cols)

/-- Whether an extent at an origin lies within a tensor. -/
def extentIn (t : Tensor) (org rows cols : Nat) : Bool :=
  decide (org / 2 ^ 32 + rows ≤ tRows t) && decide (org % 2 ^ 32 + cols ≤ tCols t)

/-- Whether a copy is the plain copy between square-scaled tensors (R282). DEDUCED: notes/assumptions/35.md. -/
def scaledCopy (fn : Nat) (r : CopyRec) (a b : Tensor) : Bool :=
  fn == 0 && r.op == 0 && r.flags == 0 && a.ty == b.ty && a.rank == b.rank && a.ext == b.ext && r.sorg == 0 && r.dorg == 0 &&
  r.rows == tRows a && r.cols == tCols a

/-- The live source tensor of a record, if its source is a handle. -/
def srcTensor (s : State) (r : CopyRec) : Chk (Option Tensor) := if r.sk = 0 then (liveCheck s r.src).map some else .ok none
/-- The live destination tensor of a record, if its destination is a handle. -/
def dstTensor (s : State) (r : CopyRec) : Chk (Option Tensor) := if r.dk = 1 then (liveCheck s r.dst).map some else .ok none

/-- The type of the source elements (R282). -/
def srcTy (r : CopyRec) (a : Option Tensor) : Ty := match a with | some t => t.ty | none => tyCode r.sty
/-- The type of the destination elements (R282). -/
def dstTy (r : CopyRec) (a b : Option Tensor) : Ty :=
  match b with
  | some t => t.ty
  | none => if r.cvt then tyCode r.dty else srcTy r a

/-- Whether the types, shapes and scaling of the source tensor meet the function's rules (R282 to R284, R289). -/
def srcOk (fn : Nat) (r : CopyRec) (a : Tensor) (b : Option Tensor) : Bool :=
  let td := dstTy r (some a) b
  if fn = 1 then a.ty.isFl && r.rows == tRows a && r.cols == tCols a
  else if a.rep.scaled then
    !r.comp && (td == .f16 || td == .bf16 || td == .f32 || match b with | some t => scaledCopy fn r a t | none => false)
  else if r.comp then ehTy a.ty
  else b.isSome || copyPair td a.ty

/-- Whether the types, shapes and scaling of the destination tensor meet the function's rules. -/
def dstOk (fn : Nat) (r : CopyRec) (a : Option Tensor) (b : Tensor) : Bool :=
  if fn = 1 then b.ty.isFp8 && r.rows == tRows b && r.cols == tCols b
  else if b.rep.scaled then (match a with | some t => scaledCopy fn r t b | none => false)
  else if r.decomp then b.ty == srcTy r a
  else match a with
    | some t => t.rep.scaled || copyPair b.ty t.ty
    | none => copyPair b.ty (srcTy r a)

/-- Step 6 of R290. -/
def copyHandles (s : State) (fn : Nat) (r : CopyRec) : Chk (Option Tensor × Option Tensor) := do
  let a ← srcTensor s r
  match a with
  | some t => check (extentIn t r.sorg r.rows r.cols) .protection r.src
  | none => .ok ()
  let b ← dstTensor s r
  match b with
  | some t => check (extentIn t r.dorg (dstExtent fn r).1 (dstExtent fn r).2) .protection r.dst
  | none => .ok ()
  match a with
  | some t => check (srcOk fn r t b) .protection r.src
  | none => .ok ()
  match b with
  | some t => check (dstOk fn r a t && !(r.op != 0 && t.ty.isFp8)) .protection r.dst
  | none => check (!(r.op != 0 && (dstTy r a b).isFp8)) .protection r.src
  .ok (a, b)

/-- The ring of a cluster's unit that holds a scratch location (R309). -/
def ringAt (s : State) (l : Loc) : Option Ring :=
  match l.space with
  | .scr c => match s.dev.units.find? fun u => u.cluster == c with
    | some u => (u.rings.toList.filterMap id).find? fun g =>
        decide (g.base ≤ l.off + 0x100000) && decide (l.off + 0x100000 < g.base + g.slot * g.cap)
    | none => none
  | _ => none

/-- The ring that a copy fills (R309). -/
def ringFill (s : State) (r : CopyRec) : Option Ring :=
  (if r.dk = 0 then localLoc s.hart.ar.core none r.dst.toNat else none).bind (ringAt s)

/-- The operations a copy's source needs, in ascending order (R155, R309): a transposing copy into a ring needs both bits of the
table. A combining copy's source needs what a plain one's does. DESIGN CHOICE: notes/assumptions/105.md. -/
def srcOps (s : State) (fn : Nat) (r : CopyRec) : List TOp :=
  if fn = 4 then [.peer]
  else match ringFill s r with
    | some g => (if g.roleB then .mmaB else .mmaA) :: if fn = 2 then [.tread] else []
    | none => [if fn = 2 then .tread else .elem]

/-- Step 7 of R290. -/
def copyOps (s : State) (fn : Nat) (r : CopyRec) (a b : Option Tensor) : Chk Unit := do
  match a with
  | some t => (srcOps s fn r).forM fun o => needOp t o.code
  | none => .ok ()
  match b with
  | some t => needOp t (if r.op = 0 then TOp.elem else TOp.reduce).code
  | none => .ok ()

/-- The bytes from one source row to the next (R283). -/
def srcPitch (r : CopyRec) (z : Nat) : Nat := if r.spitch = 0 then r.cols * z else r.spitch
/-- The bytes from one destination row to the next (R283). -/
def dstPitch (fn : Nat) (r : CopyRec) (z : Nat) : Nat := if r.dpitch = 0 then (dstExtent fn r).2 * z else r.dpitch

/-- Step 8 of R290 for one end. -/
def endAligned (a : Word) (pitch z : Nat) : Chk Unit := check (a.toNat % z == 0 && pitch % z == 0) .misaligned a

/-- The lowest byte at or above `top` of `rows` rows of `w` bytes, `pitch` apart, from `v` on. -/
def rowsOutside (v rows pitch w top : Nat) : Option Nat :=
  if rows = 0 || w = 0 || v + (rows - 1) * pitch + w ≤ top then none
  else some (max top (v + (if top < v + w then 0 else (top - (v + w)) / pitch + 1) * pitch))

/-- Step 9 of R290 for one end: the lowest address outside its region, of those of its rows. -/
def endOutside (s : State) (kind2 : Bool) (a : Word) (rows pitch w : Nat) : Option Nat :=
  let v := a.toNat
  if rows = 0 || w = 0 || (isDevVa a && !kind2) then none
  else if kind2 || v < lsTop then rowsOutside v rows pitch w lsTop
  else if 0x100000 ≤ v && v < 0x500000 then rowsOutside v rows pitch w (0x100000 + s.clu.scratch)
  else match cmWindow v with
    | some l => rowsOutside v rows pitch w (v - l.off + s.clu.scratch)
    | none => some v

/-- Whether an entry of the context's peer table is filled (R286, R431). -/
def peerFilled (s : State) (i : Nat) : Bool :=
  match curCtx s with | some c => c.peers.any fun p => p.idx == i | none => false

/-- Whether the memory of a remote end belongs to a thread of the issuer's domain instance (R243). -/
def inDomain (s : State) (sp : Space) : Bool :=
  (domainCores s).any fun c => match sp with
    | .ls k => c == k
    | .scr k => clusterOfCore c == k
    | _ => false

/-- Step 5 of R290: the phase rules (R243). -/
def copyPhase (s : State) (fn : Nat) (p : Word) (r : CopyRec) : Chk Unit := do
  check (fn != 4 || s.hart.ss.ph) .phase p
  match remoteSrc s.hart.ar.core r with
  | some m => check (s.hart.ss.ph && inDomain s m) .phase r.src
  | none => .ok ()
  match remoteDst s.hart.ar.core fn r with
  | some m => check (s.hart.ss.ph && inDomain s m) .phase r.dst
  | none => .ok ()

/-- Steps 8 and 9 of R290. DEDUCED: notes/assumptions/32.md. -/
def copyPlaces (s : State) (fn : Nat) (r : CopyRec) (a b : Option Tensor) : Chk Unit := do
  let zs := if r.load then 1 else tySize (srcTy r a)
  let zd := if r.load then 1 else tySize (dstTy r a b)
  let ps := srcPitch r zs
  let pd := dstPitch fn r zd
  let (dr, dc) := dstExtent fn r
  if r.srcAddr then endAligned r.src ps zs
  if r.dstAddr then endAligned r.dst pd zd
  let src := if !r.srcAddr then none
    else if r.load then endOutside s (r.sk == 2) r.src 1 0 128
    else if r.decomp then endOutside s (r.sk == 2) r.src 1 0 1
    else endOutside s (r.sk == 2) r.src r.rows ps (r.cols * zs)
  let dst := if !r.dstAddr || fn = 4 then none
    else if r.comp then endOutside s (r.dk == 2) r.dst 1 0 1
    else endOutside s (r.dk == 2) r.dst dr pd (dc * zd)
  match (src.toList ++ dst.toList).min? with
  | some a => .error (.protection, wordOf a, 0)
  | none => check (fn != 4 || peerFilled s r.peer) .protection (wordOf r.peer)

/-- R290: the checks of a copy at issue. DEDUCED: notes/assumptions/32.md. -/
def copyCheck (s : State) (fn : Nat) (p : Word) : Chk (List Byte) := do
  let b ← readRecord s p 64 64
  recordRules p (copyRules s fn b)
  let r := copyRec b
  check (!s.hart.tags.contains (BitVec.ofNat 8 r.tag)) .protection (wordOf r.tag)
  copyPhase s fn p r
  let (x, y) ← copyHandles s fn r
  copyOps s fn r x y
  copyPlaces s fn r x y
  .ok b

/-! ## Issue (R200, R279, R290, R446) -/

/-- The access entry of an engine command at a tensor's order point (R165). -/
def placeEngine (id h : Nat) (s : State) : State :=
  onTensor h (fun t => { t with queue := t.queue ++ [.access (2 * id + 1)] }) s

/-- The handles that a copy names. -/
def copyHandlesOf (r : CopyRec) : List Nat :=
  ((if r.sk = 0 then [r.src.toNat] else []) ++ if r.dk = 1 then [r.dst.toNat] else []).dedup

/-- Whether a load of a table that a record names is in flight (R288). DEDUCED: notes/assumptions/34.md. -/
def tableLoading (s : State) (r : CopyRec) : Bool :=
  r.namesTable && s.dev.copies.any fun c => clusterOfCore c.core == s.hart.ar.cluster && (copyRec c.record).load &&
    (copyRec c.record).tbl == r.tbl

/-- A command of the core counted as sent (R368). -/
def countSent (s : State) : State := onHart (fun h => { h with sent := h.sent + 1 }) s

/-- A copy put into the queue of an engine that the device chooses (R183, R279). COMP, DECOMP and table loads round nothing and do not
advance the LFSR (R280, R446). DEDUCED: notes/assumptions/113.md. -/
def queueCopy (fn : Nat) (b : List Byte) (s : State) : State :=
  let r := copyRec b
  let m := if r.rnd = 0 then frmOf s else Rnd.ofCode (BitVec.ofNat 3 r.rnd)
  let sto := m == .sto && !r.namesTable
  let s := if sto then setLfsr (lfsrAdvance s.hart.ar.lfsr) s else s
  let id := s.dev.nextEng
  let c : Copy :=
    { id := id, eng := Config.copyEngine s.tick % 4, seq := s.hart.nextSeq + 1, fn := fn, core := s.hart.ar.core, ctx := s.hart.ar.ctx, tag := BitVec.ofNat 8 r.tag
      record := b, rnd := m, sat := s.hart.ar.satf, gen := if sto then some s.hart.ar.lfsr else none
      user := s.hart.mode == .u, st := .queued, wrote := [], org := originOf s
      exch := fn == 4 || (remoteSrc s.hart.ar.core r).isSome || (remoteDst s.hart.ar.core fn r).isSome, sentAt := 0 }
  let s := (copyHandlesOf r).foldl (fun s h => placeEngine id h s) { s with tick := s.tick + 1 }
  let s := onDev (fun d => { d with copies := d.copies ++ [c], nextEng := d.nextEng + 1 }) s
  countSent (onHart (fun h => { h with
    nextSeq := h.nextSeq + 1, tags := BitVec.ofNat 8 r.tag :: h.tags
    tk := { h.tk with peered := h.tk.peered || (fn == 4 && h.tk.run) } }) s)

/-- A copy instruction (R290). -/
def copyIssue (fn : Nat) (a : Reg) (s : State) : Out :=
  afterChecks (copyCheck s fn (xr s a)) s fun b =>
    if tableLoading s (copyRec b) then hold s else finishFx s [] (queueCopy fn b s)

/-- CPY (R283, R287 to R290). -/
def execCpy (a : Reg) (s : State) : Out := copyIssue 0 a s
/-- CPYQ (R284). -/
def execCpyq (a : Reg) (s : State) : Out := copyIssue 1 a s
/-- CPYT (R283). -/
def execCpyt (a : Reg) (s : State) : Out := copyIssue 2 a s
/-- CPYXR (R285). -/
def execCpyxr (a : Reg) (s : State) : Out := copyIssue 3 a s
/-- CPYPD (R286). -/
def execCpypd (a : Reg) (s : State) : Out := copyIssue 4 a s

/-- The state of a tag (R293). -/
def tagState (s : State) (t : Byte) : Nat :=
  if !s.hart.tags.contains t then 0
  else if s.hart.inbox.any fun m => tagKind m.kind && m.tag == t then 2 else 1

/-- CPYST (R293). -/
def execCpyst (d a : Reg) (s : State) : Out :=
  finish s [d.toNat] (setX d (wordOf (tagState s ((xr s a).setWidth 8) + s.hart.tags.length % 512 * 2 ^ 16)) s)

/-! ## What a copy does (R282, R283, R291) -/

/-- What a copy at run time leaves: the state, its generator, the first poisoned address, the lines written, the packets for
its peer, and the status and count of the fault that stopped it; `run` is the destination row and line whose old bytes were logged
last. -/
structure Run where
  s : State
  run : Option (Nat × Loc)
  acc : Acc
  bad : Option Word
  wrote : List Loc
  sent : List (Word × List Byte)
  fail : Option (Byte × BitVec 32)

/-- A run stopped by a failed check (R291). -/
def runFail (x : Run) (e : Refuse) : Run := { x with fail := some (causeCode e.1, e.2.1.setWidth 32) }

/-- The first poisoned address kept. -/
def runBad (x : Run) (a : Option Word) : Run := { x with bad := x.bad.or a }

/-- What a copy uses at run time. -/
structure Plan where
  src : End
  dst : End
  rows : Nat
  cols : Nat
  tys : Ty
  tyd : Ty
  srcT : Option Tensor
  dstT : Option Tensor

/-- The ends and types of a queued copy. -/
def planOf (s : State) (c : Copy) : Plan :=
  let r := copyRec c.record
  let a := if r.sk = 0 then tensorOf s.dev r.src.toNat else none
  let b := if r.dk = 1 then tensorOf s.dev r.dst.toNat else none
  let ts := srcTy r a
  let td := dstTy r a b
  { src := if r.sk = 0 then .ten r.src.toNat (r.sorg / 2 ^ 32) (r.sorg % 2 ^ 32)
      else .addr r.src (srcPitch r (tySize ts)) (if r.sk = 2 then some r.core else none)
    dst := if r.dk = 1 then .ten r.dst.toNat (r.dorg / 2 ^ 32) (r.dorg % 2 ^ 32)
      else .addr r.dst (dstPitch c.fn r (tySize td)) (if r.dk = 2 then some r.core else none)
    rows := r.rows, cols := r.cols, tys := ts, tyd := td, srcT := a, dstT := b }

/-- A source element: its pattern, or its exact value where it is square-scaled, and the poisoned address it holds. -/
def srcElem (c : Copy) (p : Plan) (i j : Nat) (x : Run) : Except Run (Nat × Option FVal × Bool × Run) :=
  let z := tySize p.tys
  match endLoc c.core c.user false p.src z i j x.s with
  | .error e => .error (runFail x e)
  | .ok (l, s) =>
    let (v, s) := engRead c.org (endVa p.src z i j) l z s
    let bad := (poisonAt s.dev l z).isSome
    let x := runBad { x with s := s } (if bad then some (endVa p.src z i j) else none)
    let fv := match p.srcT with
      | some t => if t.rep.scaled then some (elemVal t (l.off / z)) else none
      | none => none
    .ok (v, fv, bad, x)

/-- An element converted to the destination's type (R282, R446). -/
def convElem (c : Copy) (p : Plan) (v : Nat) (fv : Option FVal) (a : Acc) : Nat × Acc :=
  match fv with
  | some f => rounding c.rnd c.sat (fun rm => roundVal p.tyd rm f) a
  | none => if p.tys = p.tyd then (v, a) else convLane p.tyd p.tys c.rnd c.sat v a

/-- combine (R283). -/
def combineElem (c : Copy) (op : Nat) (t : Ty) (d v : Nat) (a : Acc) : Nat × Acc :=
  match op with
  | 0 => (v, a)
  | 1 => if t.isInt then (laneWrap t (laneInt t d + laneInt t v), a) else rounding c.rnd c.sat (fun rm => faddCode t rm d v) a
  | 2 => (minmaxLane t false d v, a)
  | _ => (minmaxLane t true d v, a)

/-- The old bytes of the rest of a destination row in its line logged, at the first element that is written of the row or of the
line. DEDUCED: notes/assumptions/21.md. -/
def logRun (c : Copy) (va : Word) (l : Loc) (first : Bool) (rest : Nat) (s : State) : State :=
  if first then engLog c.org 5 va l (min (128 - l.off % 128) rest) s else s

/-- A combining copy passed over a poisoned destination element: its draw is still taken (R283, R446). -/
def skipElem (c : Copy) (op : Nat) (t : Ty) (a : Acc) : Acc :=
  if op = 1 && !t.isInt then (drawn c.rnd c.sat a).2 else a

/-- One destination element (i, j) written with a converted value (R283). -/
def putElem (c : Copy) (p : Plan) (op i j dc v : Nat) (bad : Bool) (x : Run) : Run :=
  let z := tySize p.tyd
  let va := endVa p.dst z i j
  if c.fn = 4 then { x with sent := x.sent ++ [(va, natBytes z v)] } else
  match endLoc c.core c.user true p.dst z i j x.s with
  | .error e => runFail x e
  | .ok (l, s) =>
    let key := some (i, lineLoc l)
    if op != 0 && (poisonAt s.dev l z).isSome then
      runBad { x with s := s, acc := skipElem c op p.tyd x.acc } (some va)
    else
      let s := logRun c va l (x.run != key) ((dc - j) * z) s
      let (old, s) := if op = 0 then (0, s) else engRead c.org va l z s
      let (w, a) := combineElem c op p.tyd old v x.acc
      let s := engPut c.org va l (natBytes z w) s
      let s := if bad then poisonRange l z s else s
      { x with s := s, acc := a, wrote := noteWrote l z x.wrote, run := key }

/-- The copy of one destination element (R283). -/
def copyElem (c : Copy) (p : Plan) (op dc : Nat) (x : Run) (ij : Nat × Nat) : Run :=
  if x.fail.isSome then x else
  let (si, sj) := if c.fn = 2 then (ij.2, ij.1) else ij
  match srcElem c p si sj x with
  | .error x => x
  | .ok (v, fv, bad, x) =>
    let (v, a) := convElem c p v fv x.acc
    putElem c p op ij.1 ij.2 dc v bad { x with acc := a }

/-- The elements of a matrix of `rows` by `cols`, row-major. -/
def rowMajor (rows cols : Nat) : List (Nat × Nat) := (List.range rows).flatMap fun i => (List.range cols).map fun j => (i, j)

/-- The end of a run: status and count (R291). -/
def runEnd (x : Run) (count : Nat) : Byte × BitVec 32 :=
  match x.fail, x.bad with
  | some e, _ => e
  | none, some a => (causeCode .poison, a.setWidth 32)
  | none, none => (0, BitVec.ofNat 32 count)

/-- The old scale bytes of a tensor logged (R386, R388): its block scales and its tensor scale stand behind its element array (R161).
DEDUCED: notes/assumptions/21.md. -/
def logScales (c : Copy) (t : Tensor) (s : State) : State :=
  let bs := scaleBytes t
  (List.range (ceilDiv bs.length 128)).foldl (fun s i =>
    logWrite c.org 5 true (wordOf t.h) ⟨.ten t.h, tBytes t + 128 * i⟩ ((bs.drop (128 * i)).take 128) s) s

/-- A plain copy between square-scaled tensors: elements and scales bit for bit (R282). DEDUCED: notes/assumptions/35.md. -/
def copyScaled (c : Copy) (p : Plan) (x : Run) : Run :=
  match p.srcT, p.dstT with
  | some a, some b =>
    if a.rep.scaled && b.rep.scaled && x.fail.isNone then
      { x with s := onTensor b.h (fun t => { t with bscale := a.bscale, tscale := a.tscale }) (logTail b.h 0 (scaleBlocks b + 2) (logScales c b x.s)) }
    else x
  | _, _ => x

/-- CPY, CPYT, CPYXR and CPYPD (R283, R285, R286). DEDUCED: notes/assumptions/35.md. -/
def runPlain (c : Copy) (p : Plan) (x : Run) : Run :=
  let r := copyRec c.record
  let (dr, dc) := dstExtent c.fn r
  let scaled := match p.srcT, p.dstT with | some a, some b => a.rep.scaled && b.rep.scaled | _, _ => false
  let p := if scaled then { p with srcT := p.srcT.map fun t => { t with rep := { t.rep with scaled := false } } } else p
  let x := (rowMajor dr dc).foldl (copyElem c p r.op dc) x
  if scaled then copyScaled c (planOf x.s c) x else x

/-! ## Quantising (R60, R284) -/

/-- The greatest finite magnitude of FP8 (R60). -/
def fp8Max (t : Ty) : Nat := if t = .e4m3 then 448 else 57344

/-- The greater of two magnitudes, the larger first argument kept. -/
def magMax (a : FVal) (b : FVal) : FVal := if cmpVal a (absVal b) = .lt then absVal b else a

/-- The largest magnitude among the finite values; +0 for none. -/
def finMax (l : List FVal) : FVal :=
  l.foldl (fun a v => match v with | .fin _ _ _ => magMax a v | _ => a) (.fin false 0 0)

/-- A magnitude over an integer and a value, rounded up into a type (R60). -/
def scaleUp (t : Ty) (a : FVal) (f : Nat) (d : FVal) : Rounded :=
  match a, d with
  | .fin _ n e, .fin _ m g => roundMag t ⟨.rup, true, 0⟩ (ratMag false n (f * m) (e - g))
  | _, _ => (0, 0)

/-- The elements of block (bi, bj) of a matrix, row-major. -/
def blockElems (rows cols bi bj : Nat) : List (Nat × Nat) :=
  (rowMajor (min 32 (rows - 32 * bi)) (min 32 (cols - 32 * bj))).map fun p => (32 * bi + p.1, 32 * bj + p.2)

/-- Whether a value is finite. -/
def isFin : FVal → Bool
  | .fin _ _ _ => true
  | _ => false

/-- The sign of a value. -/
def signOf : FVal → Bool
  | .fin s _ _ => s
  | .inf s => s
  | .nan => false

/-- The scale of a block from its values (R60): its code. -/
def blockScaleCode (t : Ty) (vs : List FVal) (ts : FVal) : Nat × Nat :=
  if vs.any fun v => !isFin v then (0xFF, 0)
  else match finMax vs with
    | .fin _ 0 _ => (0, 0)
    | a => scaleUp .e5m3 a (fp8Max t) ts

/-- One element under its block's scale (R60): 0 in an invalid block, a signed zero in a zero block. -/
def blockElem (t : Ty) (sc : Nat) (ts v : FVal) (rm : RMode) : Rounded :=
  if sc = 0xFF then (0, 0)
  else if sc = 0 then (if signOf v then signBit t else 0, 0)
  else match v, (mulVal (fdec .e5m3 sc) ts).1 with
    | .fin s n e, .fin _ k g => if n = 0 then (if s then signBit t else 0, 0) else roundMag t rm (ratMag s n k (e - g))
    | _, _ => (0, 0)

/-- The patterns of a block's elements under a scale (R60); every element takes its advance (R446). -/
def blockCodes (t : Ty) (m : Rnd) (sat : Bool) (sc : Nat) (ts : FVal) : List FVal → Acc → List Nat × Acc
  | [], a => ([], a)
  | v :: r, a =>
    let (q, a) := rounding m sat (blockElem t sc ts v) a
    let (l, a) := blockCodes t m sat sc ts r a
    (q :: l, a)

/-- The values of a matrix of source elements, or the run that failed. -/
def readVals (c : Copy) (p : Plan) : List (Nat × Nat) → Run → List FVal × Run
  | [], x => ([], x)
  | (i, j) :: r, x =>
    if x.fail.isSome then ([], x) else
    match srcElem c p i j x with
    | .error x => ([], x)
    | .ok (v, fv, _, x) =>
      let (l, x) := readVals c p r x
      (fv.getD (fdec p.tys v) :: l, x)

/-- One block quantised and written (R60, R284). -/
def quantBlock (c : Copy) (p : Plan) (ts : FVal) (x : Run) (b : Nat × Nat) : Run :=
  match p.dstT with
  | none => x
  | some t =>
    if x.fail.isSome then x else
    let els := blockElems p.rows p.cols b.1 b.2
    let (vs, x) := readVals c p els x
    let (sc, _) := blockScaleCode p.tyd vs ts
    let (qs, a) := blockCodes p.tyd c.rnd c.sat sc ts vs x.acc
    let k := b.1 * ceilDiv p.cols 32 + b.2
    let x := { x with acc := a, s := onTensor t.h (fun t => setBlockScale t k (BitVec.ofNat 8 sc)) (logTail t.h k 1 x.s) }
    (els.zip qs).foldl (fun x q =>
      let (ij, v) := q
      putElem c p 0 ij.1 ij.2 p.cols v
        (match endLoc c.core c.user false p.src (tySize p.tys) ij.1 ij.2 x.s with
          | .ok (l, s) => (poisonAt s.dev l (tySize p.tys)).isSome
          | .error _ => false) x) x

/-- CPYQ (R284). -/
def runQuant (c : Copy) (p : Plan) (x : Run) : Run :=
  let (vs, x) := readVals c p (rowMajor p.rows p.cols) x
  if x.fail.isSome then x else
  let tc := match finMax vs with
    | .fin _ 0 _ => 0x3F80
    | a => (scaleUp .bf16 a (fp8Max p.tyd * 61440) (.fin false 1 0)).1
  let x := match p.dstT with
    | some t =>
      let s := logTail t.h (scaleBlocks t) 2 (logScales c t x.s)
      { x with s := onTensor t.h (fun t => { t with tscale := BitVec.ofNat 16 tc }) s }
    | none => x
  (rowMajor (ceilDiv p.rows 32) (ceilDiv p.cols 32)).foldl (quantBlock c p (fdec .bf16 tc)) x

/-! ## Exponent-Huffman coding (R287 to R289) -/

/-- The code lengths of a table's image. -/
def ehLens (img : BitVec 1024) : List Nat := (List.range 256).map fun i => (img.extractLsb' (4 * i) 4).toNat

/-- Whether an image is a legal table: no length above 12, and the sum rule (R287). -/
def ehLegal (ls : List Nat) : Bool :=
  (ls.all fun l => decide (l ≤ 12)) && decide ((ls.map fun l => if l = 0 then 0 else 2 ^ (12 - l)).sum ≤ 2 ^ 12)

/-- The canonical codes of one length, in ascending value: (value, length, code), and the next code. -/
def ehLevel (len : Nat) : List Nat → Nat → Nat → List (Nat × Nat × Nat) × Nat
  | [], _, k => ([], k)
  | l :: r, v, k =>
    if l = len then
      let (t, k') := ehLevel len r (v + 1) (k + 1)
      ((v, len, k) :: t, k')
    else ehLevel len r (v + 1) k

/-- The canonical codes from a length on (R287). -/
def ehCodesFrom (ls : List Nat) : Nat → Nat → Nat → List (Nat × Nat × Nat)
  | 0, _, _ => []
  | n + 1, len, k =>
    let (t, k) := ehLevel len ls 0 k
    t ++ ehCodesFrom ls n (len + 1) (2 * k)

/-- Every code of a table: (value, length, code). -/
def ehCodes (img : BitVec 1024) : List (Nat × Nat × Nat) := ehCodesFrom (ehLens img) 12 1 0

/-- The mantissa bits of an element type. -/
def manBits (t : Ty) : Nat := (fmtOf t).m
/-- The exponent bits of an element type. -/
def expBits (t : Ty) : Nat := (fmtOf t).e

/-- The exponent field of a pattern. -/
def expOf (t : Ty) (c : Nat) : Nat := c / 2 ^ manBits t % 2 ^ expBits t
/-- The sign and mantissa of a pattern, the sign on top (R289). -/
def smOf (t : Ty) (c : Nat) : Nat := c / 2 ^ (manBits t + expBits t) * 2 ^ manBits t + c % 2 ^ manBits t
/-- The pattern of a sign and mantissa and an exponent. -/
def ofSm (t : Ty) (sm e : Nat) : Nat :=
  sm / 2 ^ manBits t * 2 ^ (manBits t + expBits t) + e * 2 ^ manBits t + sm % 2 ^ manBits t

/-- The bits of a code, the most significant first. -/
def codeBits (len k : Nat) : List Bool := (List.range len).map fun i => k / 2 ^ (len - 1 - i) % 2 == 1

/-- Bits packed into bytes, each filled from bit 0 upward. -/
def packBits (l : List Bool) : List Byte :=
  natBytes (ceilDiv l.length 8) (l.foldr (fun b n => 2 * n + (if b then 1 else 0)) 0)

/-- Bytes followed by zeros to a multiple of 8. -/
def pad8 (l : List Byte) : List Byte := l ++ List.replicate ((8 - l.length % 8) % 8) 0

/-- The header of a block (R289). -/
def ehHeader (len : Nat) (tbl : Nat) (t : Ty) (n : Nat) : List Byte :=
  natBytes 2 len ++ natBytes 1 tbl ++ natBytes 1 (Ty.code t).toNat ++ natBytes 2 n ++ natBytes 2 0

/-- The exponent codes of the elements of a block, if every exponent has one. -/
def expBitsOf (codes : List (Nat × Nat × Nat)) (t : Ty) : List Nat → Option (List Bool)
  | [] => some []
  | c :: r => match codes.find? fun k => k.1 == expOf t c, expBitsOf codes t r with
    | some k, some l => some (codeBits k.2.1 k.2.2 ++ l)
    | _, _ => none

/-- A block of elements coded, or raw where it must be (R289). -/
def ehBlock (img : BitVec 1024) (tbl : Nat) (t : Ty) (els : List Nat) : List Byte :=
  let n := els.length
  let b := 1 + manBits t
  let raw := ehHeader (8 + ceilDiv (n * tySize t) 8 * 8) 0xFF t n ++ pad8 (els.flatMap fun c => natBytes (tySize t) c)
  match expBitsOf (ehCodes img) t els with
  | none => raw
  | some bits =>
    let sm := natBytes (ceilDiv (n * b) 8) (lanesNat b (els.map (smOf t)))
    let body := pad8 (sm ++ packBits bits)
    if 8 + body.length > 8 + ceilDiv (n * tySize t) 8 * 8 then raw else ehHeader (8 + body.length) tbl t n ++ body

/-- The elements of 1 KiB of a type. -/
def ehCount (t : Ty) : Nat := 1024 / tySize t

/-- A list cut into blocks of `k`; `fuel` bounds their number. -/
def chunks {α : Type} (k : Nat) : Nat → List α → List (List α)
  | 0, _ => []
  | fuel + 1, l => if l.isEmpty then [] else l.take k :: chunks k fuel (l.drop k)

/-- The next value of a bit stream: the shortest prefix that is a code. -/
def nextCode (codes : List (Nat × Nat × Nat)) (l : List Bool) : Option (Nat × Nat) :=
  (rangeFrom 1 12).findSome? fun len =>
    if l.length < len then none else
    (codes.find? fun k => k.2.1 == len && codeBits len k.2.2 == l.take len).map fun k => (k.1, len)

/-- `n` exponents of a bit stream, and the bits used. -/
def nextCodes (codes : List (Nat × Nat × Nat)) : Nat → List Bool → Option (List Nat × Nat)
  | 0, _ => some ([], 0)
  | n + 1, l => match nextCode codes l with
    | none => none
    | some (e, k) => (nextCodes codes n (l.drop k)).map fun p => (e :: p.1, k + p.2)

/-- The bits of bytes, each from bit 0 upward. -/
def unpackBits (bs : List Byte) : List Bool := bs.flatMap fun b => (List.range 8).map fun i => b.getLsbD i

/-- The elements of a coded block of `n` elements, none where it is inconsistent (R289). -/
def ehDecode (tabs : Vector (BitVec 1024) 8) (t : Ty) (n : Nat) (bs : List Byte) : Option (List Nat) :=
  let z := tySize t
  let b := 1 + manBits t
  let tbl := recByte bs 2
  let ok := ehTy t && recByte bs 3 == (Ty.code t).toNat && recNat bs 4 2 == n && recNat bs 6 2 == 0 && recNat bs 0 2 == bs.length
  if !ok then none
  else if tbl = 0xFF then
    if bs.length = 8 + ceilDiv (n * z) 8 * 8 then some ((List.range n).map fun i => recNat bs (8 + z * i) z) else none
  else match tabs[tbl]? with
    | none => none
    | some img =>
      let k := ceilDiv (n * b) 8
      match nextCodes (ehCodes img) n (unpackBits (bs.drop (8 + k))) with
      | none => none
      | some (es, used) =>
        if bs.length != ceilDiv (8 + k + ceilDiv used 8) 8 * 8 then none else
        let sm := recNat bs 8 k
        some ((List.range n).map fun i => ofSm t (sm / 2 ^ (b * i) % 2 ^ b) (es.getD i 0))

/-- The core whose LS an address end of kind 2 names. -/
def endRemote (e : End) : Option Nat := match e with | .addr _ _ r => r | .ten _ _ _ => none

/-- Whether a run of a stream lies in one region (R290, step 9). -/
def streamFits (s : State) (e : End) (a : Word) (n : Nat) : Chk Unit :=
  match endOutside s (endRemote e).isSome a 1 0 n with
  | some x => .error (.protection, wordOf x, 0)
  | none => .ok ()

/-- The granules of an end's bytes from `a` on poisoned, where they resolve (R291). -/
def poisonVa (c : Copy) (e : End) (a : Word) (n : Nat) (s : State) : State :=
  (lineParts a.toNat n).foldl (fun s q =>
    match engLoc c.core (endRemote e) c.user ⟨false, true, 0⟩ (wordOf q.1) s with
    | .ok (l, s) => poisonRange l q.2 s
    | .error _ => s) s

/-- Blocks of elements, each with whether it was poisoned, written as a stream (R289): the bytes written. A block that codes a
poisoned element is poisoned (R291). -/
def compBlocks (c : Copy) (p : Plan) (img : BitVec 1024) (tbl : Nat) (base : Word) : List (List (Nat × Bool)) → Nat → Run → Nat × Run
  | [], n, x => (n, x)
  | els :: r, n, x =>
    if x.fail.isSome then (n, x) else
    let bs := ehBlock img tbl p.tys (els.map (·.1))
    let a := base + wordOf n
    match streamFits x.s p.dst a bs.length with
    | .error e => (n, runFail x e)
    | .ok () =>
      let w := engWriteVa c.org (endRemote p.dst) c.user a bs ⟨x.s, x.wrote, none⟩
      let bad := els.any (·.2)
      let x := { x with s := if bad then poisonVa c p.dst a bs.length w.s else w.s, wrote := w.wrote }
      match w.fail with
      | some e => (n, runFail x e)
      | none => compBlocks c p img tbl base r (n + bs.length) x

/-- The patterns of a matrix of source elements, each with whether it is poisoned, or the run that failed. -/
def readCodes (c : Copy) (p : Plan) : List (Nat × Nat) → Run → List (Nat × Bool) × Run
  | [], x => ([], x)
  | (i, j) :: r, x =>
    if x.fail.isSome then ([], x) else
    match srcElem c p i j x with
    | .error x => ([], x)
    | .ok (v, _, bad, x) =>
      let (l, x) := readCodes c p r x
      ((v, bad) :: l, x)

/-- A COMP copy (R289): the stream bytes written. -/
def runComp (c : Copy) (p : Plan) (x : Run) : Nat × Run :=
  let r := copyRec c.record
  let (els, x) := readCodes c p (rowMajor r.rows r.cols) x
  compBlocks c p ((tablesOf x.s (clusterOfCore c.core)).toArray.getD r.tbl 0) r.tbl r.dst (chunks (ehCount p.tys) els.length els) 0 x

/-- A stream's next block read: its bytes, and whether one is poisoned, or the run that failed. -/
def readBlock (c : Copy) (p : Plan) (a : Word) (x : Run) : Except Run (List Byte × Bool × Run) :=
  let rd := fun (n : Nat) (x : Run) => match streamFits x.s p.src a n with
    | .error e => Except.error (runFail x e)
    | .ok () => match engReadVa c.org (endRemote p.src) c.user a n x.s with
      | .error e => .error (runFail x e)
      | .ok (bs, bad, s) => .ok (bs, bad.isSome, runBad { x with s := s } bad)
  match rd 8 x with
  | .error x => .error x
  | .ok (h, _, x) => rd (max 8 (recNat h 0 2)) x

/-- The blocks of a stream decoded and written (R289): the elements written so far. The elements of a poisoned block are poisoned
(R291). -/
def decompBlocks (c : Copy) (p : Plan) (base : Word) : List (List (Nat × Nat)) → Nat → Nat → Run → Nat × Run
  | [], _, n, x => (n, x)
  | els :: r, off, n, x =>
    if x.fail.isSome then (n, x) else
    let a := base + wordOf off
    match readBlock c p a x with
    | .error x => (n, x)
    | .ok (bs, bad, x) =>
      match ehDecode (tablesOf x.s (clusterOfCore c.core)) p.tyd els.length bs with
      | none => (n, { x with fail := some (causeCode .protection, a.setWidth 32) })
      | some vs =>
        let x := (els.zip vs).foldl (fun x q =>
          if x.fail.isSome then x else putElem c p 0 q.1.1 q.1.2 p.cols q.2 bad x) x
        decompBlocks c p base r (off + bs.length) (n + els.length) x

/-- A DECOMP copy (R289): the elements written. -/
def runDecomp (c : Copy) (p : Plan) (x : Run) : Nat × Run :=
  let r := copyRec c.record
  decompBlocks c p r.src (chunks (ehCount p.tyd) (r.rows * r.cols) (rowMajor r.rows r.cols)) 0 0 x

/-! ## The moves of an engine -/

/-- A copy changed. -/
def onCopy (id : Nat) (f : Copy → Copy) (s : State) : State :=
  onDev (fun d => { d with copies := modWhere (fun c => c.id == id) f d.copies }) s

/-- Whether every entry of a copy may be performed (R166). -/
def copyReady (s : State) (id : Nat) (hs : List Nat) : Bool :=
  hs.all fun h => match tensorOf s.dev h with | some t => entryReady t (2 * id + 1) | none => true

/-- A handle of a copy whose entry stands behind a free (R169). -/
def copyDead (s : State) (id : Nat) (hs : List Nat) : Option Nat :=
  hs.find? fun h => match tensorOf s.dev h with | some t => entryDead t (2 * id + 1) | none => true

/-- The first byte of an LS pinned by a footprint among `n` bytes from `a` on (R251). -/
def pinnedAt (s : State) (core a n : Nat) : Option Nat :=
  ((s.clu.tasks.filter fun t => t.pin == some core && t.flen != 0 && decide (a < t.fdst + t.flen) && decide (t.fdst < a + n)).map
    fun t => max a t.fdst).min?

/-- The first byte of a pinned footprint of another core that a copy would write, row by row (R251). -/
def pinnedHit (s : State) (c : Copy) (p : Plan) : Option Nat :=
  let r := copyRec c.record
  let z := tySize p.tyd
  let (dr, dc) := dstExtent c.fn r
  if r.dk != 2 || r.core == c.core || dc = 0 then none
  else (List.range dr).findSome? fun i => pinnedAt s r.core (r.dst.toNat + i * dstPitch c.fn r z) (dc * z)

/-- The log space that a copy needs as it starts (R391). -/
def copyNeed (s : State) (c : Copy) (p : Plan) : Nat :=
  let (dr, dc) := dstExtent c.fn (copyRec c.record)
  let scales := match p.dstT with | some t => if t.rep.scaled then engNeed s c.org (scaleBlocks t + 2) else 0 | none => 0
  if c.fn = 4 then 0 else dr * engNeed s c.org (dc * tySize p.tyd) + scales

/-- What a copy does, with its success count. DESIGN CHOICE: notes/assumptions/33.md. -/
def runCopy (c : Copy) (s : State) : Nat × Run :=
  let p := planOf s c
  let r := copyRec c.record
  let x : Run := ⟨s, none, ⟨c.gen.getD 1, 0⟩, none, [], [], none⟩
  match pinnedHit s c p with
  | some a => (0, { x with fail := some (causeCode .protection, BitVec.ofNat 32 a) })
  | none =>
  if c.fn = 1 then
    (r.rows * r.cols + ceilDiv r.rows 32 * ceilDiv r.cols 32 + 2, runQuant c p x)
  else if r.comp then runComp c p x
  else if r.decomp then let (n, x) := runDecomp c p x; (n * tySize p.tyd, x)
  else (r.rows * r.cols * tySize p.tyd, runPlain c p x)

/-- An earlier copy of the same thread to the same peer that has not started (R286). -/
def peerBehind (s : State) (c : Copy) : Bool :=
  c.fn == 4 && s.dev.copies.any fun b => b.fn == 4 && b.core == c.core && decide (b.id < c.id) && b.st == .queued &&
    (copyRec b.record).peer == (copyRec c.record).peer

/-- New peer writes wait at the port while device time is unsynchronised (R433). -/
def peerHeld (s : State) (c : Copy) : Bool := c.fn == 4 && s.dev.unsync

/-- A peer entry of a context changed. -/
def onPeer (n i : Nat) (f : Peer → Peer) (s : State) : State :=
  onCtx n (fun x => { x with peers := modWhere (fun p => p.idx == i) f x.peers }) s

/-- A peer entry of a context. -/
def peerOf (s : State) (n i : Nat) : Option Peer :=
  match ctxOf s.dev n with
  | some x => x.peers.find? fun p => p.idx == i
  | none => none

/-- The device time at which a session key is 24 hours old (R432). -/
def keyEnd (p : Peer) : Nat := p.since.toNat + 86400 * 10 ^ 9

/-- The session key of an entry renewed at a time, with packets already sent under the new one (R432); the old key is still accepted.
DESIGN CHOICE: notes/assumptions/107.md. -/
def renewKey (n i t packets : Nat) (s : State) : State :=
  onPeer n i (fun p => { p with sess := Config.sessionKey s.tick, packets := packets, since := wordOf t, old := some p.sess })
    { s with tick := s.tick + 1 }

/-- A session key that is 24 hours old renewed before it is used (R432). -/
def ageKey (n i : Nat) (s : State) : State :=
  match peerOf s n i with
  | some p => if keyEnd p ≤ s.dev.time.toNat then renewKey n i (keyEnd p) 0 s else s
  | none => s

/-- Packets counted against the session key of an entry: after 2^32 there is a new one (R432). -/
def countPackets (n i k : Nat) (s : State) : State :=
  match peerOf s n i with
  | some p =>
    if 2 ^ 32 ≤ p.packets + k then renewKey n i s.dev.time.toNat (p.packets + k - 2 ^ 32) s
    else onPeer n i (fun p => { p with packets := p.packets + k }) s
  | none => s

/-- The packets of a peer copy sent on the ports (R286), counted against the session key (R432). -/
def sendPeer (c : Copy) (l : List (Word × List Byte)) (s : State) : State :=
  if l.isEmpty then s else
  let i := (copyRec c.record).peer
  let s := ageKey c.ctx i (passTime s)
  let ps := l.map fun p => Sent.peer c.ctx i p.1 p.2 (s.dev.time.toNat / 8000)
  onDev (fun d => { d with out := d.out ++ ps }) (countPackets c.ctx i l.length s)

/-- Whether the context of a command is running. -/
def ctxRuns (s : State) (n : Nat) : Bool :=
  match ctxOf s.dev n with | some c => c.state == .running | none => false

/-- A copy started and done (R283 to R286, R289, R291). DESIGN CHOICE: notes/assumptions/33.md. -/
def performCopy (c : Copy) (s : State) : State :=
  let hs := copyHandlesOf (copyRec c.record)
  match copyDead s c.id hs with
  | some h => onCopy c.id (fun c => { c with st := .done (causeCode .protection) (BitVec.ofNat 32 h) })
      (hs.foldl (fun s h => entryDone h (2 * c.id + 1) s) s)
  | none =>
    let (n, x) := runCopy c s
    let (st, cnt) := runEnd x n
    let s := hs.foldl (fun s h => entryDone h (2 * c.id + 1) s) x.s
    let peer := c.fn == 4 && (x.fail.isNone)
    let s := if peer then sendPeer c x.sent s else s
    onCopy c.id (fun c => { c with
      st := if peer then .await st cnt else .done st cnt, wrote := x.wrote, sentAt := s.dev.time }) s

/-- COPY_EXECUTE (R279 to R291): copy `k` runs to its end. DESIGN CHOICE: notes/assumptions/33.md. -/
def execCopyExecute (k : Nat) (s : State) : Out :=
  match s.dev.copies[k]? with
  | none => .next s
  | some c =>
    if c.st != .queued || (copyRec c.record).load || !copyReady s c.id (copyHandlesOf (copyRec c.record)) ||
      peerBehind s c || peerHeld s c || !ctxRuns s c.ctx then .next s
    else match reserveLog (copyNeed s c (planOf s c)) s with
      | none => .next (freeOldest (copyNeed s c (planOf s c)) s)
      | some w => .next (engStall c.ctx w (settle (performCopy c w)))

/-- EXPONENT_TABLE_LOAD (R287, R288): the image of load `k` enters its table, if it is legal; one with a poisoned byte does too, with
status 0x0C (R291). DEDUCED: notes/assumptions/34.md. -/
def execExponentTableLoad (k : Nat) (s : State) : Out :=
  match s.dev.copies[k]? with
  | none => .next s
  | some c =>
    let r := copyRec c.record
    if c.st != .queued || !r.load || !ctxRuns s c.ctx then .next s else
    let done := fun (st : Byte) (n : BitVec 32) (s : State) => onCopy c.id (fun c => { c with st := .done st n }) s
    match engReadVa c.org (if r.sk = 2 then some r.core else none) c.user r.src 128 s with
    | .error e => .next (done (causeCode e.1) (e.2.1.setWidth 32) s)
    | .ok (bs, bad, s) =>
      let img : BitVec 1024 := BitVec.ofNat 1024 (bytesNat bs)
      if ehLegal (ehLens img) then
        let s := setTable (clusterOfCore c.core) r.tbl img s
        match bad with
        | some a => .next (done (causeCode .poison) (a.setWidth 32) s)
        | none => .next (done 0 128 s)
      else .next (done (causeCode .protection) (r.src.setWidth 32) s)

/-- Whether a load's message must wait: a copy that names its table is in flight (R288). DEDUCED: notes/assumptions/34.md. -/
def loadHeld (s : State) (c : Copy) : Bool :=
  let r := copyRec c.record
  r.load && s.dev.copies.any fun b => b.id != c.id && clusterOfCore b.core == clusterOfCore c.core &&
    (copyRec b.record).namesTable && (copyRec b.record).tbl == r.tbl

/-- A copy's message placed, and the copy gone (R200 to R202). -/
def placeCopy (c : Copy) (st : Byte) (n : BitVec 32) (s : State) : State :=
  settle (postMsg c.core ⟨c.tag, st, BitVec.ofNat 8 c.fn, n, 0, c.wrote, c.org.icount⟩
    (onDev (fun d => { d with copies := d.copies.filter fun b => b.id != c.id }) s))

/-- Whether an earlier command of the copy's engine and core has yet to place its message: the messages of one engine enter in command
order (R202). -/
def engineBehind (s : State) (c : Copy) : Bool :=
  s.dev.copies.any fun b => b.core == c.core && decide (b.id < c.id) && b.eng == c.eng

/-- A peer copy that has ended: it places its message, behind those of its engine's earlier commands (R202). -/
def endPeer (c : Copy) (st : Byte) (n : BitVec 32) (s : State) : State :=
  if engineBehind s c then onCopy c.id (fun c => { c with st := .done st n }) s else placeCopy c st n s

/-- The device time at which a peer copy is orphaned: PTIME ms after it was sent (R286, R431). -/
def ackEnd (s : State) (c : Copy) : Nat :=
  c.sentAt.toNat + 1000000 * (match ctxOf s.dev c.ctx with | some x => x.ptime | none => 0)

/-- A peer copy without an acknowledgement within the peer timeout: it is orphaned (R286, R378). -/
def orphanCopy (c : Copy) (s : State) : State :=
  endPeer c (causeCode .protection) (BitVec.allOnes 32) (onCtx c.ctx (fun x => { x with orphaned := x.orphaned + 1 }) s)

/-- What a peer says of a copy: too late where the peer timeout has passed (R286). -/
def peerSays (c : Copy) (st : Byte) (n : BitVec 32) (s : State) : State :=
  if ackEnd s c < s.dev.time.toNat then orphanCopy c s else endPeer c st n s

/-- COPY_COMPLETE (R200, R202, R286, R291): a copy that is done places its message; one that its peer has acknowledged, or refused at
the address `refused`, ends. -/
def execCopyComplete (e : CopyEnd) (s : State) : Out :=
  match s.dev.copies[e.k]? with
  | none => .next s
  | some c =>
    match c.st with
    | .queued => .next s
    | .done st n => if engineBehind s c || loadHeld s c then .next s else .next (placeCopy c st n s)
    | .await st n => match e.refused with
      | none => .next (peerSays c st n s)
      | some a => .next (peerSays c (causeCode .protection) (a.setWidth 32) s)

/-- PEER_ACK_TIMEOUT (R286, R378, R431): the device time reaches PTIME after the copy was sent, and it is orphaned.
DESIGN CHOICE: notes/assumptions/3.md. -/
def execPeerAckTimeout (k : Nat) (s : State) : Out :=
  match s.dev.copies[k]? with
  | none => .next s
  | some c =>
    match c.st with
    | .await _ _ => .next (orphanCopy c (reachTime (ackEnd s c) s))
    | _ => .next s

end Sys2Proof.Machine
end

