-- ==== Sys2Proof/Machine/Issue.lean ====
section
/-! DEFINITION. When an instruction waits at issue before it does anything: for held writes (R38), for what fences and
acquires hold (R195 to R197, R223, R253), and for the thread's own earlier accesses (R150, R200). -/

namespace Sys2Proof.Machine

/-- The register a source names. -/
def srcDst : Src → Dst
  | .v r => .v r
  | .x r => .x r
  | _ => .none

/-- The registers that an instruction names: what it waits for past a window (R38). The writes of x4 and x5 that a dispatch makes
(R251) wait in `awaitsTask`. -/
def named : Instr → List Dst
  | .add d a b | .sub d a b | .mul d a b | .mulh d a b | .mulhn d a b | .div d a b _ | .divn d a b _ | .rem d a b _
  | .remn d a b _ | .and d a b | .or d a b | .xor d a b | .andn d a b | .shl d a b | .shr d a b | .sar d a b
  | .rol d a b | .ror d a b | .min d a b | .max d a b | .minn d a b | .maxn d a b | .slt d a b | .sltn d a b
  | .seq d a b | .bext d a b | .bins d a b | .fshl d a b | .fshr d a b | .tnew d a b _ | .twiden d a b _
  | .tinfo d a b _ | .tview d a b _ | .tlde d a b _ | .tste d a b | .ldaq d a b _ _ _ | .strl d a b _ _
  | .amoadd d a b _ _ _ | .amomin d a b _ _ _ | .amomax d a b _ _ _ | .amominn d a b _ _ _ | .amomaxn d a b _ _ _
  | .amoand d a b _ _ _ | .amoor d a b _ _ _ | .amoxor d a b _ _ _ | .amoswap d a b _ _ _ | .amocas d a b _ _ _
  | .tkdep d a b | .wqpush d a b | .wqfill d a b | .mqsend d a b | .mqrecv d a b | .mqbind d a b | .mradv d a b
  | .mrstat d a b | .proj d a b _ _ _ | .padj d a b _ | .ecall d a b | .wset d a b => [.x d, .x a, .x b]
  | .clz d a | .ctz d a | .popc d a | .addi d a _ | .andi d a _ | .ori d a _ | .xori d a _ | .slti d a _ | .shli d a _
  | .shri d a _ | .sari d a _ | .rori d a _ | .jr d a | .jrf d a | .cfstat d a | .csrw d a _ | .csrs d a _
  | .csrc d a _ | .csrx d a _ | .vsmap d a _ | .vsred d a _ | .vscvt d a _ | .vgrow d a | .vshrink d a | .inrecv d a
  | .fetake d a _ | .feread d a _ | .fepeek d a _ | .bwait d a | .bsync d a | .btest d a | .tkspawn d a | .tkstat d a
  | .qnew d a | .qarrive d a | .qstat d a | .wqpop d a | .wqcount d a | .cpyst d a | .mqpoll d a | .mcget d a
  | .mcap d a | .nmstat d a | .csave d a | .crest d a | .ckpt d a | .rback d a | .ulmark d a | .ulstat d a
  | .uldrain d a | .perfr d a => [.x d, .x a]
  | .pref a | .clean a | .discard a | .invl1 a | .zline a | .tfree a | .twait a | .fenceAcq a _ | .fenceRel a _
  | .fenceAr a _ | .fenceSc a _ | .fenceWin a _ | .fenceEng a _ | .uiarm a | .feclr a | .barv a | .sdom a | .qreset a
  | .cpy a | .cpyq a | .cpyt a | .cpyxr a | .cpypd a | .mzero _ a | .mfence a | .nmupd a | .spin a | .perfc a | .brk a
  | .wclr a => [.x a]
  | .beq a b _ | .bne a b _ | .blt a b _ | .bge a b _ | .bltn a b _ | .bgen a b _ | .cfetch a b | .mfromx _ a b
  | .redaddi a b _ | .redaddf32 a b | .redaddbf16 a b | .redmin a b _ | .redmax a b _ | .redminn a b _ | .redmaxn a b _
  | .redor a b _ | .feput a b | .bsetm a b | .bquorum a b | .brecord a b | .qcontrib a b | .mcset a b | .mrset a b
  | .mdrain _ a b _ _ _ _ | .mstat _ a b | .tinval a b | .fattr a b | .trec a b => [.x a, .x b]
  | .vadd d a b _ _ | .vsub d a b _ _ | .vmul d a b _ _ | .vfma d a b _ _ | .vfnma d a b _ _ | .vmin d a b _ _
  | .vmax d a b _ _ | .vadds d a b _ _ | .vsubs d a b _ _ | .vmulh d a b _ _ | .vand d a b _ _ | .vor d a b _ _
  | .vxor d a b _ _ | .vandn d a b _ _ | .vshl d a b _ _ | .vshr d a b _ _ | .vsar d a b _ _ | .vsel d a b _ _
  | .vfsh d a b _ _ | .vbext d a b _ _ | .vcell d a b _ | .vmorton d a b _ _ | .vhashk d a b _ _ =>
    [.v d, srcDst a, srcDst b]
  | .vcvt d a _ _ _ _ | .vabs d a _ _ | .vneg d a _ _ | .vnot d a _ _ | .vclz d a _ _ | .vpopc d a _ _ | .vmov d a _ _
  | .vrcp d a _ _ _ | .vsqrt d a _ _ _ | .vrsq d a _ _ _ | .vexp2 d a _ _ _ | .vlog2 d a _ _ _ | .vtanh d a _ _ _
  | .vsigm d a _ _ _ | .vfloor d a _ _ | .vceil d a _ _ | .vrndi d a _ _ => [.v d, srcDst a]
  | .li d _ | .lui d _ | .lhi d _ | .jal d _ | .jf d _ | .csrr d _ | .mpopc d _ | .mfirst d _ | .mtox d _ _
  | .vallotq d | .inpeek d | .incount d | .tknext d => [.x d]
  | .vredSum d a _ _ _ | .vredMax d a _ _ _ | .vredMin d a _ _ _ | .vredAnd d a _ _ _ | .vredOr d a _ _ _
  | .vredXor d a _ _ _ | .vredAmax d a _ _ _ | .vscanSadd d a _ _ _ | .vscanSmax d a _ _ _ | .vscanSmin d a _ _ _
  | .vcompact d a _ _ | .vexpand d a _ _ => [.v d, .v a]
  | .ldb d b _ _ _ | .ldh d b _ _ _ | .ldw d b _ _ _ | .ldd d b _ _ _ | .ldbn d b _ _ _ | .ldhn d b _ _ _
  | .ldwn d b _ _ _ | .stb d b _ _ | .sth d b _ _ | .stw d b _ _ | .std d b _ _ => [.x d, .x b]
  | .mma _ _ _ s _ | .mmab _ _ _ s _ | .mpass _ _ _ s _ => [.x s]
  | .vld d b _ _ _ | .vst d b _ _ => [.v d, .x b]
  | .vgath d b v _ _ _ | .vscat d b v _ _ => [.v d, .x b, .v v]
  | .vcmp _ _ a b _ _ => [srcDst a, srcDst b]
  | .vperm d a b _ _ => [.v d, .v a, srcDst b]
  | .vext d a b => [.x d, .v a, .x b]
  | .vins d a b => [.v d, .x a, .x b]
  | .rpt _ _ _ _ | .csrWrite _ _ | .lfsrWrite _ | .ulfullClear _ | .crootWrite _ | .mand _ _ _ | .mor _ _ _
  | .mxor _ _ _ | .mandn _ _ _ | .mnot _ _ | .uidis | .uiret | .uiTake | .uoFlush _ | .uoRecall _
  | .barrierArrival _ _ _ | .barrierRelease _ | .lateArrival _ | .tkend | .tkyield | .taskDispatch _ | .taskAging _
  | .sexch | .ssync | .superstepRelease | .kpoint | .killSignal _ _ | .retraction _ _ | .joinCombine _ | .joinFutPost _
  | .joinClose _ | .killTimeoutReset _ _ | .wqRefill | .copyExecute _ | .exponentTableLoad _ | .copyComplete _
  | .peerAckTimeout _ | .messageEnterInbox | .mcsetUnit _ | .mrsetUnit _ | .mmaUnit _ | .mmabUnit _ | .mpassUnit _
  | .mdrainUnit _ | .mzeroUnit _ | .nmuPieceUpdate _ _ | .nmuComplete _ | .ecallAnswer | .eret | .wfi | .endT
  | .heldWriteLand _ | .storePerform | .loadPerform _ | .homePerform _ | .cvpWriteback _ | .lineEvict _ | .l1Drop _
  | .cmCleanDrop _ | .codeFetchComplete _ | .rerepMoveBegin _ | .rerepMoveComplete _ | .freeEntryHead _ | .groupPlace
  | .threadRetireFree _ | .switchTimeReached | .timeBudgetStop _ | .budgetPeriod | .gangStop _ _ | .resumeStart _
  | .checkpointBoundary _ | .checkpointAbandon _ | .uncorrectableError _ _ | .contextRollback _ | .contextKill _ _ _ _
  | .contextRetire _ | .fatalError | .watchpointTrigger _ | .watchpointTrap | .breakpointStop | .scribeEmit | .ident _
  | .quote _ | .errread _ | .create _ | .destroy _ | .map _ | .unmap _ | .launch _ | .exportT _ | .importT _
  | .preempt _ | .resume _ | .safesave _ | .setpeer _ | .setlog _ | .trdrain _ | .unknownCommand _ | .debugAttach _
  | .debugStop _ | .debugContinue _ | .debugStep _ | .debugRstep _ | .debugRwindow _ | .debugRead _ | .debugWrite _
  | .debugBreak _ | .debugTrapstep _ | .debugRecords _ | .sessionKeyRenew _ _ | .oldKeyExpire _ _
  | .peerPacketAuthFail _ | .timeSyncUpdate _ | .portFail _ | .resetRelease _ _ | .recoveryImageLoad _
  | .thermalThrottle | .thermalFatal | .thermalShutdown | .powerLoss | .peerWriteArrival _ _ _ | .spinHoldEnd
  | .rbcntRaise _ _ => []

/-- What an instruction is to a fence (R195). -/
inductive MemClass where
  | none | load | store | atomic | engine | peer | codeFetch
  deriving DecidableEq, Repr

/-- The class of an instruction (R195): the stream operations, the writers of records and the join instructions count as
stores, the work queues as atomics. -/
def memClass : Instr → MemClass
  | .ldb _ _ _ _ _ | .ldh _ _ _ _ _ | .ldw _ _ _ _ _ | .ldd _ _ _ _ _ | .ldbn _ _ _ _ _ | .ldhn _ _ _ _ _
  | .ldwn _ _ _ _ _ | .vld _ _ _ _ _ | .vgath _ _ _ _ _ _ | .ldaq _ _ _ _ _ _ | .tlde _ _ _ _ | .pref _ | .invl1 _
  | .tnew _ _ _ _ | .qstat _ _ | .wqcount _ _ => .load
  | .stb _ _ _ _ | .sth _ _ _ _ | .stw _ _ _ _ | .std _ _ _ _ | .vst _ _ _ _ | .vscat _ _ _ _ _ | .clean _ | .discard _
  | .zline _ | .tste _ _ _ | .strl _ _ _ _ _ | .inrecv _ _ | .brecord _ _ | .mstat _ _ _ | .vsmap _ _ _ | .vsred _ _ _
  | .vscvt _ _ _ | .proj _ _ _ _ _ _ | .padj _ _ _ _ | .tkspawn _ _ | .qnew _ _ | .qcontrib _ _ | .qarrive _ _
  | .qreset _ | .mqsend _ _ _ | .mqrecv _ _ _ => .store
  | .amoadd _ _ _ _ _ _ | .amomin _ _ _ _ _ _ | .amomax _ _ _ _ _ _ | .amominn _ _ _ _ _ _ | .amomaxn _ _ _ _ _ _
  | .amoand _ _ _ _ _ _ | .amoor _ _ _ _ _ _ | .amoxor _ _ _ _ _ _ | .amoswap _ _ _ _ _ _ | .amocas _ _ _ _ _ _
  | .redaddi _ _ _ | .redaddf32 _ _ | .redaddbf16 _ _ | .redmin _ _ _ | .redmax _ _ _ | .redminn _ _ _ | .redmaxn _ _ _
  | .redor _ _ _ | .fetake _ _ _ | .feput _ _ | .feread _ _ _ | .fepeek _ _ _ | .feclr _ | .wqpop _ _ | .wqpush _ _ _
  | .wqfill _ _ _ => .atomic
  | .cpy _ | .cpyq _ | .cpyt _ | .cpyxr _ | .mcset _ _ | .mrset _ _ | .mma _ _ _ _ _ | .mmab _ _ _ _ _
  | .mpass _ _ _ _ _ | .mdrain _ _ _ _ _ _ _ | .mzero _ _ | .nmupd _ => .engine
  | .cpypd _ => .peer
  | .cfetch _ _ => .codeFetch
  | _ => .none

/-- The instructions that read the LS or the scratch window at issue: the thread's earlier stores to them come first (R150,
R200). -/
def readsAtIssue : Instr → Bool
  | .tnew _ _ _ _ | .tkspawn _ _ | .qcontrib _ _ | .qstat _ _ | .wqcount _ _ | .cpy _ | .cpyq _ | .cpyt _ | .cpyxr _
  | .cpypd _ | .nmupd _ | .mqsend _ _ _ | .mcset _ _ | .mrset _ _ | .mma _ _ _ _ _ | .mmab _ _ _ _ _ | .mpass _ _ _ _ _
  | .mdrain _ _ _ _ _ _ _ | .mzero _ _ | .vsmap _ _ _ | .vsred _ _ _ | .vscvt _ _ _ | .proj _ _ _ _ _ _ | .padj _ _ _ _
  | .inrecv _ _ | .brecord _ _ | .mstat _ _ _ | .mqrecv _ _ _ | .wqpop _ _ | .wqpush _ _ _ | .wqfill _ _ _ | .qnew _ _
  | .qarrive _ _ | .qreset _ => true
  | _ => false

/-- The instructions that write the LS or the scratch window at issue: the thread's earlier loads of them come first (R150). -/
def writesAtIssue : Instr → Bool
  | .vsmap _ _ _ | .vsred _ _ _ | .vscvt _ _ _ | .proj _ _ _ _ _ _ | .padj _ _ _ _ | .inrecv _ _ | .brecord _ _
  | .mstat _ _ _ | .mqrecv _ _ _ | .wqpop _ _ | .wqpush _ _ _ | .wqfill _ _ _ | .qnew _ _ | .qarrive _ _ | .qreset _ =>
    true
  | _ => false

/-- The effect instructions (R253), which wait for the value of an earlier FEREAD (R223). -/
def isEffect : Instr → Bool
  | .stb _ _ _ _ | .sth _ _ _ _ | .stw _ _ _ _ | .std _ _ _ _ | .vst _ _ _ _ | .vscat _ _ _ _ _ | .zline _ | .discard _
  | .strl _ _ _ _ _ | .amoadd _ _ _ _ _ _ | .amomin _ _ _ _ _ _ | .amomax _ _ _ _ _ _ | .amominn _ _ _ _ _ _
  | .amomaxn _ _ _ _ _ _ | .amoand _ _ _ _ _ _ | .amoor _ _ _ _ _ _ | .amoxor _ _ _ _ _ _ | .amoswap _ _ _ _ _ _
  | .amocas _ _ _ _ _ _ | .redaddi _ _ _ | .redaddf32 _ _ | .redaddbf16 _ _ | .redmin _ _ _ | .redmax _ _ _
  | .redminn _ _ _ | .redmaxn _ _ _ | .redor _ _ _ | .fetake _ _ _ | .feput _ _ | .feclr _ | .tste _ _ _ | .vsmap _ _ _
  | .vscvt _ _ _ | .proj _ _ _ _ _ _ | .padj _ _ _ _ | .inrecv _ _ | .mqrecv _ _ _ | .brecord _ _ | .mstat _ _ _
  | .tnew _ _ _ _ | .twiden _ _ _ _ | .tfree _ | .cfetch _ _ | .cpy _ | .cpyq _ | .cpyt _ | .cpyxr _ | .cpypd _
  | .mcset _ _ | .mrset _ _ | .mma _ _ _ _ _ | .mmab _ _ _ _ _ | .mpass _ _ _ _ _ | .mdrain _ _ _ _ _ _ _ | .mzero _ _
  | .nmupd _ | .mradv _ _ _ | .tkspawn _ _ | .tkdep _ _ _ | .qnew _ _ | .qcontrib _ _ | .qarrive _ _ | .qreset _ | .wqpop _ _
  | .wqpush _ _ _ | .wqfill _ _ _ | .mqbind _ _ _ | .barv _ | .bsync _ _ | .bsetm _ _ | .bquorum _ _ | .sexch | .ssync
  | .sdom _ | .trec _ _ => true
  | _ => false

/-- The long-latency instructions (R37, R38): those that open a held write. -/
def opensHeld : Instr → Bool
  | .div _ _ _ _ | .divn _ _ _ _ | .rem _ _ _ _ | .remn _ _ _ _ | .vrcp _ _ _ _ _ | .vsqrt _ _ _ _ _ | .vrsq _ _ _ _ _
  | .vexp2 _ _ _ _ _ | .vlog2 _ _ _ _ _ | .vtanh _ _ _ _ _ | .vsigm _ _ _ _ _ | .vredSum _ _ _ _ _ | .vredMax _ _ _ _ _
  | .vredMin _ _ _ _ _ | .vredAnd _ _ _ _ _ | .vredOr _ _ _ _ _ | .vredXor _ _ _ _ _ | .vredAmax _ _ _ _ _
  | .vscanSadd _ _ _ _ _ | .vscanSmax _ _ _ _ _ | .vscanSmin _ _ _ _ _ | .vsmap _ _ _ | .vsred _ _ _ | .vscvt _ _ _
  | .ldb _ _ _ _ _ | .ldh _ _ _ _ _ | .ldw _ _ _ _ _ | .ldd _ _ _ _ _ | .ldbn _ _ _ _ _ | .ldhn _ _ _ _ _
  | .ldwn _ _ _ _ _ | .vld _ _ _ _ _ | .vgath _ _ _ _ _ _ | .tnew _ _ _ _ | .twiden _ _ _ _ | .tinfo _ _ _ _
  | .tview _ _ _ _ | .tlde _ _ _ _ | .ldaq _ _ _ _ _ _ | .amoadd _ _ _ _ _ _ | .amomin _ _ _ _ _ _
  | .amomax _ _ _ _ _ _ | .amominn _ _ _ _ _ _ | .amomaxn _ _ _ _ _ _ | .amoand _ _ _ _ _ _ | .amoor _ _ _ _ _ _
  | .amoxor _ _ _ _ _ _ | .amoswap _ _ _ _ _ _ | .amocas _ _ _ _ _ _ | .fetake _ _ _ | .feread _ _ _ | .fepeek _ _ _ =>
    true
  | _ => false

/-- Whether a destination names the shadow bank now (R206). -/
def dstShadow (h : Hart) : Dst → Bool
  | .x r | .v r => inShadow h r
  | .none => false

/-- Whether a register waits for a held write whose window has closed (R38.3). DEDUCED: notes/assumptions/14.md. -/
def pastWindow (h : Hart) (r : Dst) : Bool :=
  r != .none && h.held.any fun w => w.left == 0 && w.dst == r && w.shadow == dstShadow h r

/-- Whether an instruction names FFLAGS while a write past its window still brings flags (R66). -/
def flagsPending (h : Hart) : Instr → Bool
  | .csrr _ c | .csrw _ _ c | .csrs _ _ c | .csrc _ _ c | .csrx _ _ c =>
    c == 0x012 && h.held.any fun w => w.left == 0 && w.flags != 0
  | _ => false

/-- The classes that the release of a fence holds (R195). -/
def releaseHolds (f : Fence) (c : MemClass) : Bool :=
  match f.kind with
  | .rel | .ar => c == .store || c == .atomic || c == .engine || c == .peer
  | .win =>
    if f.scope = .dev || f.scope = .sys then c == .store else c == .store || c == .atomic || c == .engine || c == .peer
  | .eng => c == .engine || c == .peer || c == .codeFetch
  | .sc => c != .none
  | .acq | .fut => false

/-- Whether a fence holds an instruction (R195, R223, R253). DEDUCED: notes/assumptions/15.md. -/
def fenceHolds (i : Instr) (f : Fence) : Bool :=
  let c := memClass i
  (f.needRel && releaseHolds f c) || (f.needPeer && c == .peer) ||
  ((f.needAcq || f.needSc) && c != .none && c != .codeFetch) ||
  (f.kind == .fut && f.needAcq && isEffect i)

/-- Whether a location is in the LS or a scratch window. -/
def isLocal (l : Loc) : Bool := match l.space with | .ls _ | .scr _ => true | _ => false

/-- The blocking instructions (R37). -/
def isBlocking : Instr → Bool
  | .inrecv _ _ | .bwait _ _ | .bsync _ _ | .sexch | .ssync | .tknext _ | .wqpop _ _ | .mqrecv _ _ _ | .twait _ | .mfence _ => true
  | _ => false

/-- Whether an instruction waits at issue before its own checks.
DEDUCED: notes/assumptions/14, 108; DESIGN CHOICE: notes/assumptions/19.md. -/
def mustHold (i : Instr) (s : State) : Bool :=
  let h := s.hart
  (named i).any (pastWindow h) || flagsPending h i ||
  (opensHeld i && decide (16 ≤ h.held.length)) ||
  h.fences.any (fenceHolds i) ||
  (readsAtIssue i && h.sq.any fun q => isLocal q.loc) ||
  (writesAtIssue i && h.loads.any fun r => isLocal r.loc)

end Sys2Proof.Machine
end

