-- ==== Sys2Proof/Machine/Tasks.lean ====
section
/-! DEFINITION. Range tasks (R247 to R261): the cluster's queue, retiring and dispatching, kill points and retractions
(R268, R270), squashes (R254), and the TASK instructions. -/

namespace Sys2Proof.Machine

/-! ## The queue (R248, R249, R260) -/

/-- Whether a task is in the queue: it does not run. -/
def queued (t : Task) : Bool := t.running.isNone

/-- A task changed. -/
def onTask (tid : Word) (f : Task → Task) (s : State) : State :=
  onClu (fun c => { c with tasks := modWhere (fun t => t.tid == tid) f c.tasks }) s

/-- A task by its identifier. -/
def taskById (s : State) (tid : Word) : Option Task := s.clu.tasks.find? fun t => t.tid == tid

/-- The task that runs on a core. -/
def runningOn (s : State) (core : Nat) : Option Task := s.clu.tasks.find? fun t => t.running == some core

/-- The launch of the core's thread. -/
def myLaunch (s : State) : Nat := s.hart.tk.launch.toNat

/-- A task put back into the queue as a new entry, at its PRIO (R249, R254, R258). -/
def requeue (t : Task) (s : State) : State :=
  onTask t.tid (fun x => { x with running := none, level := x.prio, waited := 0, order := s.clu.nextOrder })
    (onClu (fun c => { c with nextOrder := c.nextOrder + 1 }) s)

/-- A task's dependence counter lowered; at 0 it is requeued (R254, R255). -/
def lowerDep (tid : Word) (s : State) : State :=
  match taskById s tid with
  | none => s
  | some t =>
    let s := onTask tid (fun t => { t with dep := t.dep - 1 }) s
    if t.dep = 1 && queued t then requeue t s else s

/-- Whether a task may be given out (R249). -/
def runnable (launch : Nat) (t : Task) : Bool := queued t && t.dep == 0 && t.launch == launch

/-- The task the queue chooses: the lowest level, then the earliest entry (R249). -/
def chooseTask (l : List Task) : Option Task :=
  l.foldl (fun (b : Option Task) t => match b with
    | none => some t
    | some x => if t.level < x.level || (t.level = x.level && t.order < x.order) then some t else some x) none

/-- Whether no more work is to come (R252): the queue holds no task of the launch, and no other core of the cluster runs one. -/
def noWork (s : State) : Bool :=
  s.clu.tasks.all fun t => t.launch != myLaunch s || (!queued t && t.running == some s.hart.ar.core)

/-! ## Joins' records (R265) -/

/-- A live join by its identifier. -/
def joinOf (s : State) (jid : Word) : Option Join := s.clu.joins.find? fun j => j.jid == jid

/-- A join changed. -/
def onJoin (jid : Word) (f : Join → Join) (s : State) : State :=
  onClu (fun c => { c with joins := modWhere (fun j => j.jid == jid) f c.joins }) s

/-- The location of a join's record (R265). -/
def joinLoc (jid : Word) : Loc := ⟨.scr (jid.toNat / 2 ^ 32), jid.toNat % 2 ^ 32 - 0x100000⟩

/-- A field of a join's record. -/
def joinField (s : State) (jid : Word) (o n : Nat) : Nat :=
  bytesNat (rawBytes s.dev { joinLoc jid with off := (joinLoc jid).off + o } n)

/-- A field of a join's record set by the device. -/
def putJoin (jid : Word) (o n v : Nat) (s : State) : State :=
  onDev (fun d => rawPut d { joinLoc jid with off := (joinLoc jid).off + o } (natBytes n v)) s

/-- STATE of a join: 0 OPEN, 1 RELEASED, 2 CLOSED. -/
def joinState (s : State) (jid : Word) : Nat := joinField s jid 5 1

/-- The member task that the core runs: its join and member. -/
def myMember (s : State) : Option (Join × Nat) :=
  if s.hart.tk.run && s.hart.tk.qm then
    (runningOn s s.hart.ar.core).bind fun t => (joinOf s t.join).map fun j => (j, t.member)
  else none

/-- Whether a member is counted. -/
def isCounted (j : Join) (m : Nat) : Bool := j.counted.contains m

/-- Whether a task of an open join may not end yet (R257). -/
def mustArrive (s : State) : Option Word :=
  match myMember s with
  | some (j, m) => if joinState s j.jid = 0 && !isCounted j m then some j.jid else none
  | none => none

/-- Whether a kill is taken at a kill point (R268): one is pending, or the join has released without the member.
DEDUCED: notes/assumptions/39.md. -/
def mustDie (s : State) : Bool :=
  match myMember s with
  | some (j, m) => s.hart.tk.kpend || (joinState s j.jid != 0 && !isCounted j m)
  | none => false

/-! ## Retiring a task (R257, R261, R387, R402) -/

/-- Whether accesses of a core's windows are still under way: in its queue, on the paths, at homes, or in engines and units. -/
def windowBusy (s : State) (core : Nat) (lo hi : BitVec 16) : Bool :=
  let mine := fun (o : Origin) => o.core == core && inWindows lo hi o.win
  ((s.hart.sq ++ scatterRest s.hart ++ paths s).any fun r => mine r.org) || (s.hart.loads.any fun r => mine r.org) ||
  (s.hart.refills.any fun r => mine r.org) || (s.dev.copies.any fun c => mine c.org) || (s.dev.nmus.any fun c => mine c.org) ||
  (s.dev.units.any fun u => u.queue.any fun c => mine c.org) ||
  s.dev.futs.any fun w => match w with | .parked _ _ _ _ o => mine o | .reg _ _ => false

/-- The log entries of a core's windows freed, in TASK and CHECKPOINT modes; those that writes under way will append are freed as
they are (R387). -/
def freeWindows (ctx core : Nat) (lo hi : BitVec 16) (s : State) : State :=
  let busy := fun (r : Nat × BitVec 16 × BitVec 16) => windowBusy s r.1 r.2.1 r.2.2
  onCtx ctx (fun c =>
    if c.mode = 1 || c.mode = 3 then logAdvance { c with
      log := modWhere (fun e => e.core == core && e.kind != 8 && inWindows lo hi e.win) (fun e => { e with freed := true }) c.log
      retired := (c.retired ++ [(core, lo, hi)]).filter busy }
    else c) s

/-- The current task ended with HOW and CAUSE: TKLAST, its window closed, its footprint unpinned, its record (R402).
DEDUCED: notes/assumptions/38.md. -/
def endTask (how : BitVec 3) (cause : Byte) (s : State) : State :=
  if !s.hart.tk.run then s else
  let tid := s.hart.tk.tid
  let win := s.hart.tk.win
  let s := onHart (fun h => { h with
    tk := { h.tk with run := false, effect := false, kpend := false, qm := false, qmem := 0, peered := false
                      lastHow := how, lastCause := cause }
    tc := { h.tc with covered := false } }) s
  traceRecord .task (natBytes 8 tid.toNat ++ natBytes 8 (cause.toNat * 256 + how.toNat) ++ natBytes 2 win.toNat) s

/-- The current task retired (R257): it leaves the cluster, and with HOW = 1 its log entries are freed.
DEDUCED: notes/assumptions/38.md. -/
def retireTask (how : BitVec 3) (cause : Byte) (s : State) : State :=
  if !s.hart.tk.run then s else
  let me := s.hart.ar.core
  let s := if how = 1 then freeWindows s.hart.ar.ctx me s.hart.tk.win s.hart.tc.ulwin s else s
  endTask how cause (onClu (fun c => { c with tasks := c.tasks.filter fun t => t.running != some me }) s)

/-! ## Retractions (R270) -/

/-- Bytes written at a home by the device, whose clean copies the cluster drops: its other bytes of the line stay.
DEDUCED: notes/assumptions/92.md. -/
def homeWrite (l : Loc) (bs : List Byte) (s : State) : State :=
  let s := onHart (l1Drop l bs.length) (homePut l bs (recallAt l bs.length s))
  onClu (fun c => { c with cm := c.cm.map fun x =>
    if x.space == l.space && x.line == lineOf l then { x with valid := x.valid &&& (x.dirty ||| ~~~maskBits (l.off % 128) bs.length) }
    else x }) s

/-- A plain write of the device at a location's point (R184, R270): at the CVP for write-back lines, where it takes its chunks as a
store does (R136), else in its memory.
DEDUCED: notes/assumptions/92.md. -/
def plainWrite (l : Loc) (bs : List Byte) (s : State) : State :=
  let wb := match l.space with
    | .dev => !frameUnc s.dev l.off
    | .ten h => match tensorOf s.dev h with
      | some t => !t.rep.unc && (match t.rep.place with | .cluster _ => false | _ => true)
      | none => false
    | _ => false
  let s := onHart (l1Drop l bs.length) s
  if wb then cvpStore l bs (roomFor l true (recallAt l bs.length s)) else homePut l bs (recallAt l bs.length s)

/-- A log entry marked DONE, in the log area too (R388). -/
def markDone (ctx pos : Nat) (s : State) : State :=
  match ctxOf s.dev ctx with
  | none => s
  | some c =>
    let s := onCtx ctx (fun c => { c with log := modWhere (fun e => e.pos == pos) (fun e => { e with done := true }) c.log }) s
    match c.log.find? fun e => e.pos == pos with
    | some e => onDev (fun d => putVa d ctx (c.logBase.toNat + pos % 2 ^ c.log2sz) (logHeader { e with done := true })) s
    | none => s

/-- Optimiser state restored: its logged location lies behind the element array, eight bytes an element (R161, R388). -/
def restoreOpt (h off : Nat) (old : List Byte) (s : State) : State :=
  onTensor h (fun t => { t with
    opt := (List.range (old.length / 8)).foldl (fun m i =>
      smSet m ((off - tBytes t) / 8 + i) (wordOf (recNat old (8 * i) 8))) t.opt }) s

/-- Whether an entry holds optimiser state. -/
def optEntry (s : State) (e : LogEntry) : Option Nat :=
  match e.kind, e.loc.space with
  | 6, .ten h => match tensorOf s.dev h with
    | some t => if tBytes t ≤ e.loc.off then some h else none
    | none => none
  | _, _ => none

/-- Whether an entry holds scale bytes of a tensor, which stand behind its element array (R161). -/
def scaleEntry (s : State) (e : LogEntry) : Option Nat :=
  match e.kind, e.loc.space with
  | 4, .ten h => match tensorOf s.dev h with
    | some t => if tBytes t ≤ e.loc.off then some h else none
    | none => none
  | _, _ => none

/-- Scale bytes of a tensor restored. -/
def restoreScales (h off : Nat) (old : List Byte) (s : State) : State :=
  onTensor h (fun t => (List.range old.length).foldl (fun x i => setScaleByte x (off - tBytes t + i) (old.getD i 0)) t) s

/-- One logged location restored at the point at which its write was performed, in parts that stay within a line (R184, R270).
DEDUCED: notes/assumptions/92.md. -/
def restoreEntry (ctx : Nat) (s : State) (e : LogEntry) : State :=
  let put := if e.cvp then plainWrite else homeWrite
  let tail := fun (h : Nat) (s : State) => match tensorOf s.dev h with
    | some t => logTail h (e.loc.off - tBytes t) e.old.length s
    | none => s
  let s := match optEntry s e, scaleEntry s e with
    | some h, _ => restoreOpt h e.loc.off e.old (tail h s)
    | none, some h => restoreScales h e.loc.off e.old (tail h s)
    | none, none => (lineParts e.loc.off e.old.length).foldl (fun s p =>
        put { e.loc with off := p.1 } ((e.old.drop (p.1 - e.loc.off)).take p.2) s) s
  markDone ctx e.pos s

/-- The entries of a member, newest first (R270). -/
def memberEntries (c : Context) (core : Nat) (lo hi : BitVec 16) : List LogEntry :=
  (c.log.filter fun e => e.core == core && !e.freed && !e.done && e.kind != 0 && e.kind != 7 && e.kind != 8 &&
    inWindows lo hi e.win).reverse

/-- R270: every location logged for the member restored, newest first. -/
def retract (ctx core : Nat) (lo hi : BitVec 16) (s : State) : State :=
  match ctxOf s.dev ctx with
  | none => s
  | some c => (memberEntries c core lo hi).foldl (restoreEntry ctx) s

/-- Whether all that the core issued and no home has parked is performed (R269, R270): nothing in its queue, on the paths or in engines
and units, but for peer copies. -/
def writesOut (s : State) : Bool :=
  let me := s.hart.ar.core
  s.hart.sq.isEmpty && ((paths s).all fun r => r.org.core != me || r.seq == 0) &&
  (s.dev.copies.all fun c => c.core != me || c.fn == 4 || c.st != .queued) &&
  (s.dev.nmus.all fun c => c.core != me || c.st != .queued) &&
  s.dev.units.all fun u => u.queue.all fun c => c.core != me

/-- A FETAKE of a core that is parked at its home (R222). -/
def takeParked (core : Nat) : FutWait → Bool
  | .parked _ take _ _ o => take && o.core == core
  | .reg _ _ => false

/-- Whether everything the core issued is performed (R270), what a home has parked too: its FETAKE writes when it is served. -/
def writesDone (s : State) : Bool := writesOut s && !s.dev.futs.any (takeParked s.hart.ar.core)

/-- A bit of a 16-bit field of a join's record set. -/
def setJoinBit (jid : Word) (o m : Nat) (s : State) : State := putJoin jid o 2 (joinField s jid o 2 ||| 2 ^ m) s

/-- The core's member retracted and marked (R268, R270). DEDUCED: notes/assumptions/42.md. -/
def retractMine (s : State) : State :=
  match myMember s with
  | none => s
  | some (j, m) =>
    let s := retract s.hart.ar.ctx s.hart.ar.core s.hart.tk.win s.hart.tc.ulwin s
    let s := setJoinBit j.jid 30 m s
    let s := if s.hart.tk.peered then onCur (fun c => { c with unret := c.unret + 1 }) (setJoinBit j.jid 26 m s) else s
    onJoin j.jid (fun j => { j with toRetract := j.toRetract.filter (· != m) }) s

/-- A kill taken at a kill point (R268): retraction, retirement with HOW = 4, then TKNEXT x0, through the Kill trap where the
launch asks for it. -/
def killNow (s : State) : Out :=
  let jid := match myMember s with | some (j, _) => j.jid | none => 0
  let s := retireTask 4 0x10 (retractMine s)
  let s := onHart (fun h => { h with mid := .tknext (some 0) true }) s
  if s.hart.tk.ktrap then trap .kill jid s else .next s

/-- Whether the record of the task's end would find the scribe's buffer full, so that the core stalls (R401). -/
def taskStalls (h : Hart) : Bool := h.tk.run && traceStalls h .task

/-- A kill point (R268): a kill waits for the member's writes and for its record, is taken, or there is none.
DEDUCED: notes/assumptions/39.md. -/
def killPoint (s : State) (k : State → Out) : Out :=
  if mustDie s then (if taskStalls s.hart then holdScribe s else if writesDone s then killNow s else hold s) else k s

/-! ## Dispatch (R250 to R252) -/

/-- Whether a task is given whole (R250). -/
def givenWhole (t : Task) : Bool := t.join != 0 || decide ((t.hi - t.lo).toNat ≤ t.grain)

/-- The task given to a core, which pins its footprint (R251), and the queue it leaves (R250): the upper half of a wide range gets a
new identifier. DEDUCED: notes/assumptions/36.md. -/
def giveTask (t : Task) (core : Nat) (s : State) : Task × State :=
  if givenWhole t then
    let x := { t with running := some core, ret := none, pin := some core }
    (x, onTask t.tid (fun _ => x) s)
  else
    let mid := t.lo + wordOf ((t.hi - t.lo).toNat / 2)
    let x := { t with tid := wordOf s.clu.nextTid, lo := mid, running := some core, ret := none, pin := some core }
    (x, onClu (fun c => { c with nextTid := c.nextTid + 1, tasks := c.tasks ++ [x] })
      (onTask t.tid (fun t => { t with hi := mid }) s))

/-- Whether a task's footprint overlaps none that stays pinned on a core: a fetch may not (R251). -/
def footprintFits (s : State) (core : Nat) (t : Task) : Bool :=
  s.clu.tasks.all fun x => x.pin != some core || x.tid == t.tid || x.flen == 0 || t.flen == 0 ||
    decide (x.fdst + x.flen ≤ t.fdst) || decide (t.fdst + t.flen ≤ x.fdst)

/-- The task that the queue gives to a core next (R249, R251). DEDUCED: notes/assumptions/36.md. -/
def nextTask (s : State) (core : Nat) : Option Task :=
  chooseTask (s.clu.tasks.filter fun t => runnable (myLaunch s) t && footprintFits s core t)

/-- The footprint fetched at the homes into a core's LS (R251). DEDUCED: notes/assumptions/36.md. -/
def fetchFootprint (core : Nat) (t : Task) (s : State) : Chk State := do
  if t.flen = 0 then .ok s else
  let (bs, bad, s) ← engReadVa (originOf s) none (s.hart.mode == .u) t.fsrc t.flen s
  match bad with
  | some a => .error (.poison, a, 0)
  | none => .ok (homePut ⟨.ls core, t.fdst⟩ bs s)

/-- The task registers for a task that starts (R251, R261). -/
def startTask (t : Task) (s : State) : State :=
  let win := match curCtx s with | some c => c.winNext | none => 0
  -- a release may have passed while the task was queued (R354)
  let late := match joinOf s t.join with | some j => joinState s t.join != 0 && !isCounted j t.member | none => false
  let s := onHart (fun h => { h with tk := { h.tk with
    tid := t.tid, win := win, qmem := BitVec.ofNat 4 t.member, prio := BitVec.ofNat 2 t.prio, effect := false
    kpend := late, qm := t.join != 0, run := true, peered := false, heldFrom := h.nextId } }) s
  let s := openWindow false s
  if t.join = 0 then s
  else onJoin t.join (fun j => { j with markers := j.markers ++ [⟨t.member, s.hart.ar.core, win, win⟩] }) s

/-- A task dispatched to the core, which continues at its ENTRY (R251, R257). -/
def runTask (dst : Option Reg) (kill : Bool) (t : Task) (s0 s : State) : Out :=
  match fetchFootprint s.hart.ar.core t s with
  | .error r => trapOf r s0
  | .ok s =>
    let s := startTask t (acquireMoves .clu s)
    let s := setX 5 t.hi (setX 4 t.lo s)
    let d := dst.getD 0
    .next (retired s0 [d.toNat, 4, 5] kill
      (setPc t.entry (onHart (fun h => { h with mid := .none, frame := none }) (setX d t.tid s))))

/-- Whether the core waits in TKNEXT and may be given a task: what it writes has no earlier write to land (R38.4), and its earlier loads
are performed, so that the acquire may be made (R192, R251). -/
def awaitsTask (s : State) : Option (Option Reg × Bool) :=
  match s.hart.mid with
  | .tknext d kill =>
    if s.hart.thread = .running && s.hart.dbg.stop.isNone && !pastWindow s.hart (.x 4) && !pastWindow s.hart (.x 5) &&
      !pastWindow s.hart (xDst (d.getD 0)) && loadsDone s (s.hart.nextSeq + 1) then some (d, kill) else none
  | _ => none

/-- TASK_DISPATCH (R249 to R251): the queue gives its next task to a core that asks. Another core of the launch asks when its
task is done, unless the context is stopped (R278). DESIGN CHOICE: notes/assumptions/11.md; DEDUCED: notes/assumptions/92.md. -/
def execTaskDispatch (core : Nat) (s : State) : Out :=
  let me := s.hart.ar.core
  if core = me then
    match awaitsTask s, nextTask s me with
    | some (d, kill), some t => let (x, s1) := giveTask t me s; runTask d kill x s s1
    | _, _ => .next s
  else if !s.clu.members.contains core || clusterOfCore core != s.hart.ar.cluster || !ctxRuns s s.hart.ar.ctx then .next s
  else match runningOn s core with
    | some t =>
      let open_ := match joinOf s t.join with | some j => !isCounted j t.member | none => false
      if open_ then .next s
      else .next (onClu (fun c => { c with tasks := c.tasks.filter fun t => t.running != some core }) s)
    | none => match nextTask s core with
      | none => .next s
      | some t =>
        let (x, s1) := giveTask t core s
        match curCtx s, fetchFootprint core x s1 with
        | none, _ => .next s
        | _, .error _ => .next s   -- the other core's request raises the fault (R251)
        | some c, .ok s =>
          let s := onCur (fun c => { c with winNext := c.winNext + 1 }) s
          .next (if x.join = 0 then s
            else onJoin x.join (fun j => { j with markers := j.markers ++ [⟨x.member, core, c.winNext, c.winNext⟩] }) s)

/-- TASK_AGING (R249): the queued tasks wait `us` microseconds more, while the context runs (R278). -/
def execTaskAging (us : Nat) (s : State) : Out :=
  if !ctxRuns s s.hart.ar.ctx then .next s else
  .next (onClu (fun c => { c with tasks := modWhere queued (fun t =>
    let w := t.waited + us
    { t with waited := w, level := t.prio - w / 64 }) c.tasks }) s)

/-- Whether every thread of a launch has retired: all its groups are placed, and of its cores only this one, whose thread has ended,
still holds resources (R239, R240). -/
def launchOver (s : State) (n : Nat) : Bool :=
  match curCtx s with
  | none => true
  | some c =>
    (c.launches.all fun l => l.n != n || l.placed == recNat l.record 16 4) &&
    c.busy.all fun b => b.2.1 != n || (b.1 == s.hart.ar.core && s.hart.thread != .running)

/-- The joins of launches whose threads have all retired are no longer live (R265). -/
def endJoins (s : State) : State :=
  onClu (fun c => { c with joins := c.joins.filter fun j => !launchOver s j.launch }) s

/-- A thread that reaches its end (R226, R240, R265): it is no member any more. Its resources are freed later. -/
def endThread (s : State) : State :=
  let me := s.hart.ar.core
  endJoins (onClu (fun c => { c with members := c.members.filter (· != me), group := c.group.filter (· != me) })
    (onHart (fun h => { h with thread := .ended, mid := .none }) s))

/-- A thread that waits in TKNEXT (R252, R257): with no work left it goes on, with 0 in its register; after a reset it
retires (R269). DEDUCED: notes/assumptions/41.md. -/
def tknextWait (dst : Option Reg) (kill : Bool) (s : State) : Out :=
  match awaitsTask s with
  | none => hold s
  | some _ =>
    if noWork s then
      match dst with
      | some d => .next (retired s [d.toNat] kill (onHart advance (onHart (fun h => { h with mid := .none }) (setX d 0 s))))
      | none => .next (endThread s)
    else hold s

/-! ## The instructions (R256 to R260) -/

/-- TKNEXT (R257): it retires the current task, then waits for another. DEDUCED: notes/assumptions/41.md. -/
def execTknext (d : Reg) (s : State) : Out :=
  match s.hart.mid with
  | .tknext dst kill => tknextWait dst kill s
  | _ => match mustArrive s with
    | some j => trap .protection j s
    | none =>
      if taskStalls s.hart then holdScribe s else
      killPoint s fun s => .next (onHart (fun h => { h with mid := .tknext (some d) false }) (retireTask 1 0 s))

/-- TKEND (R257). -/
def execTkend (s : State) : Out :=
  match mustArrive s with
  | some j => trap .protection j s
  | none =>
    if taskStalls s.hart then holdScribe s else
    killPoint s fun s => finish s [] (retireTask 1 0 s)

/-- The current task put into its return entry, unchanged, its footprint still pinned (R251, R258). -/
def yieldTask (s : State) : State :=
  match runningOn s s.hart.ar.core with
  | none => endTask 3 0 s
  | some t => endTask 3 0 (requeue t (onTask t.tid (fun t => { t with ret := some s.hart.ar.core }) s))

/-- TKYIELD (R253, R258). DEDUCED: notes/assumptions/41.md. -/
def execTkyield (s : State) : Out :=
  match s.hart.mid with
  | .tknext dst kill => tknextWait dst kill s
  | _ =>
    if s.hart.tk.run && s.hart.tk.effect then trap .futureOrder s.hart.tk.tid s
    else if taskStalls s.hart then holdScribe s
    else killPoint s fun s => .next (onHart (fun h => { h with mid := .tknext (some 0) false }) (yieldTask s))

/-- R254: the task squashed at the FEREAD that found its future empty; its own held writes and loads are gone, and those from before its
dispatch stay. DEDUCED: notes/assumptions/37.md. -/
def squash (tid : Word) (pc : IAddr) (l : Loc) (s : State) : State :=
  let me := s.hart.ar.core
  let s := match taskById s tid with
    | some t => requeue t (onTask tid (fun t => { t with dep := t.dep + 1, ret := some me, pin := none }) s)
    | none => s
  let s := endTask 2 0 (onDev (fun d => { d with futs := d.futs ++ [.reg l tid] }) s)
  onHart (fun h => { h with
    held := h.held.filter fun w => decide (w.id < h.tk.heldFrom)
    loads := h.loads.filter fun r => decide (r.id < h.tk.heldFrom)
    frame := none, pc := pc, mid := .tknext (some 0) false
    fences := h.fences.filter fun f => f.after.all fun i => decide (i < h.tk.heldFrom)
    dbg := { h.dbg with stop := h.dbg.stop.map fun r => { r with pc := pc } } }) s

/-- The fields of a task record, in ascending order of the byte they name (R247, R256, R445). -/
def taskRules (r : List Byte) : List (Bool × Nat) :=
  let join := recNat r 40 8
  let fdst := recNat r 32 4
  let flen := recNat r 36 4
  [ (recNat r 0 2 % 4 == 0, 0), (decide (recByte r 2 ≤ 3), 2), (recByte r 3 / 2 == 0, 3),
    (join != 0 || recNat r 4 4 != 0, 4), (decide (recNat r 8 8 ≤ recNat r 16 8), 16),
    (fdst % 128 == 0 && decide (fdst < lsTop), 32),
    (flen % 128 == 0 && decide (flen ≤ 65536) && (flen == 0 || recNat r 24 8 != 0) && decide (fdst + flen ≤ lsTop), 36),
    (if join = 0 then recByte r 48 == 0 else decide (recByte r 48 ≤ 15), 48) ] ++ zeroRules r 49 15

/-- Whether JOIN names an OPEN join whose member is not yet bound (R256). -/
def joinFree (s : State) (jid : Word) (m : Nat) : Bool :=
  match joinOf s jid with
  | some j => joinState s jid == 0 && decide (m < joinField s jid 0 2) && !j.bound.any fun b => b.1 == m
  | none => false

/-- The task of a record (R247). -/
def taskOfRecord (s : State) (r : List Byte) : Task :=
  let hold := recByte r 3 % 2 == 1
  { tid := wordOf s.clu.nextTid, launch := myLaunch s, entry := BitVec.ofNat 16 (recNat r 0 2), prio := recByte r 2
    level := recByte r 2, waited := 0, order := s.clu.nextOrder, hold := hold, grain := recNat r 4 4
    lo := wordOf (recNat r 8 8), hi := wordOf (recNat r 16 8), fsrc := wordOf (recNat r 24 8), fdst := recNat r 32 4
    flen := recNat r 36 4, join := wordOf (recNat r 40 8), member := recByte r 48, dep := if hold then 1 else 0
    spawner := some s.hart.ar.core, ret := none, running := none, pin := none }

/-- TKSPAWN's checks (R256). -/
def tkspawnCheck (s : State) (p : Word) : Chk (List Byte) := do
  let r ← readRecord s p 64 64
  recordRules p (taskRules r)
  let j := wordOf (recNat r 40 8)
  check (j == 0 || joinFree s j (recByte r 48)) .protection j
  .ok r

/-- A task placed in the queue, and its member bound (R256, R266). DEDUCED: notes/assumptions/40.md. -/
def spawn (t : Task) (s : State) : State :=
  let s := onClu (fun c => { c with tasks := c.tasks ++ [t], nextTid := c.nextTid + 1, nextOrder := c.nextOrder + 1 }) s
  if t.join = 0 then s else onJoin t.join (fun j => { j with bound := j.bound ++ [(t.member, t.tid)] }) s

/-- The spawned entries of the queue (R248). -/
def spawned (s : State) : Nat := (s.clu.tasks.filter fun t => queued t && t.ret.isNone).length

/-- TKSPAWN (R256): it waits for its release at cluster scope. DEDUCED: notes/assumptions/40.md. -/
def execTkspawn (d a : Reg) (s : State) : Out :=
  afterChecks (tkspawnCheck s (xr s a)) s fun r =>
    if !released s .clu (s.hart.nextSeq + 1) then hold s
    else if spawned s ≥ 64 then finishFx s [d.toNat] (setX d 0 s)
    else
      let t := taskOfRecord s r
      finishFx s [d.toNat] (setX d t.tid (spawn t s))

/-- Whether an identifier names a task that the issuer spawned with HOLD and still holds (R259). -/
def heldTask (s : State) (tid : Word) : Bool :=
  match taskById s tid with
  | some t => t.hold && queued t && t.spawner == some s.hart.ar.core
  | none => false

/-- Whether a future word is full (R221). -/
def futFull (d : Device) (l : Loc) : Bool := bytesNat (rawBytes d { l with off := l.off + 8 } 1) % 2 == 1

/-- TKDEP's test of a future at its home (R255): what xd receives. -/
def tkdepTest (tid : Word) (l : Loc) (s : State) : Word × State :=
  if futFull s.dev l then (1, s)
  else (0, onDev (fun d => { d with futs := d.futs ++ [.reg l tid] }) (onTask tid (fun t => { t with dep := t.dep + 1 }) s))

/-- Whether an access at the home must wait for the thread's earlier requests (R188, R211). -/
def homeBehind (s : State) (l : Loc) (n : Nat) : Bool :=
  !pathClear s l || s.hart.sq.any fun q => overlaps q.loc (max 1 (reqSize q.op)) l n

/-- TKDEP (R255, R259): the line of the future is written back before the test. DEDUCED: notes/assumptions/40.md. -/
def execTkdep (d a b : Reg) (s : State) : Out :=
  let tid := xr s a
  afterChecks (do
    check (heldTask s tid) .protection tid
    if b = 0 then .ok (none, s) else (feCheck s (xr s b)).map fun p => (some p.1, p.2)) s fun (x, s1) =>
    match x with
    | none => finishFx s [d.toNat] (setX d 2 (lowerDep tid (onTask tid (fun t => { t with hold := false }) s1)))
    | some x =>
      if homeBehind s x.loc 16 then hold s
      else if (cmFind s.clu x.loc).isSome then .next (pushOut (originOf s) x.loc s)
      else
        let (v, s2) := tkdepTest tid x.loc s1
        finishFx s [d.toNat] (setX d v s2)

/-- What TKSTAT reads of a task (R260). -/
def taskCode (t : Task) : Nat :=
  (if t.running.isSome then 4 else if t.hold then 1 else if t.dep != 0 then 2 else 3) + t.level % 4 * 16 + t.dep % 2 ^ 16 * 2 ^ 16

/-- TKSTAT (R260). -/
def execTkstat (d a : Reg) (s : State) : Out :=
  let v := match taskById s (xr s a) with
    | some t => if t.launch = myLaunch s then taskCode t else 0
    | none => 0
  finish s [d.toNat] (setX d (wordOf v) s)

/-- KPOINT (R268, R275). -/
def execKpoint (s : State) : Out :=
  match s.hart.mid with
  | .tknext dst kill => tknextWait dst kill s
  | _ => killPoint s fun s => finish s [] s

end Sys2Proof.Machine
end

