-- ==== Sys2Proof/Machine/Homes.lean ====
section
/-! DEFINITION. The homes (R143, R187, R188): the requests of the paths performed, the future words (R222, R224, R254), the
elements of tensors at their order points (R165, R169, R181), flushes (R219) and writebacks (R189). -/

namespace Sys2Proof.Machine

/-! ## Future words (R221, R222, R254) -/

/-- VALUE of a future word. -/
def futValue (d : Device) (l : Loc) : Nat := bytesNat (rawBytes d l 8)
/-- STATE of a future word. -/
def futState (d : Device) (l : Loc) : Nat := bytesNat (rawBytes d { l with off := l.off + 8 } 8)

/-- Both doublewords of a future word written by an FE operation, logged as one entry (R222, R388).
DEDUCED: notes/assumptions/48.md. -/
def putFut (o : Origin) (va : Word) (l : Loc) (v st : Nat) (s : State) : State :=
  performWrite o 3 va l (natBytes 8 v ++ natBytes 8 st) s

/-- A value that an FE operation returns. -/
def feReturn (id : Nat) (v : Nat) (s : State) : State :=
  onHart (arrive id (BitVec.ofNat 1024 (v % 2 ^ 64)) (BitVec.ofNat 1024 (2 ^ 64 - 1)) none) s

/-- The parked requests of a word that an FEPUT serves, in arrival order, up to the first FETAKE; and what stays. -/
def splitServed (l : Loc) : List FutWait → List FutWait × List FutWait
  | [] => ([], [])
  | w :: r => match w with
    | .parked k take _ _ _ =>
      if k = l then (if take then ([w], r) else let (a, b) := splitServed l r; (w :: a, b))
      else let (a, b) := splitServed l r; (a, w :: b)
    | .reg _ _ => let (a, b) := splitServed l r; (a, w :: b)

/-- One parked request served with the value put (R222). -/
def serveOne (v : Nat) (s : State) : FutWait → State
  | .reg _ _ => s
  | .parked l take id va o =>
    let s := watchAccess o.ctx ⟨l, 16, false, some o.core, va⟩ o.icount (feReturn id v s)
    if take then putFut o va l v (futState s.dev l / 2 * 2) s else s

/-- The tasks registered on a word. -/
def registered (l : Loc) (w : List FutWait) : List Word :=
  w.filterMap fun x => match x with | .reg k t => if k = l then some t else none | .parked _ _ _ _ _ => none

/-- FEPUT at the home (R222, R254): the value, the parked requests it serves, the dependence counters it lowers. -/
def fePut (o : Origin) (va : Word) (l : Loc) (v : Nat) (s : State) : State :=
  let st := futState s.dev l
  let s := putFut o va l v (if st % 2 = 1 then st ||| 3 else st + 1) s
  let (served, rest) := splitServed l s.dev.futs
  let tids := registered l rest
  let s := onDev (fun d => { d with futs := rest.filter fun w => match w with | .reg k _ => k != l | .parked _ _ _ _ _ => true }) s
  tids.foldl (fun s t => lowerDep t s) (served.foldl (serveOne v) s)

/-- Whether a FEREAD's task is the one its thread still runs (R254). DEDUCED: notes/assumptions/37.md. -/
def stillRuns (s : State) (task : Option (Word × IAddr)) : Bool :=
  match task with
  | some (t, _) => s.hart.tk.run && s.hart.tk.tid == t
  | none => false

/-- A FETAKE or FEREAD of an empty word: parked, or its task squashed (R222, R254). DEDUCED: notes/assumptions/37.md. -/
def feEmpty (q : StoreReq) (take : Bool) (id : Nat) (task : Option (Word × IAddr)) (s : State) : State :=
  match task with
  | some (t, pc) =>
    if stillRuns s task then squash t pc q.loc s
    else onDev (fun d => { d with futs := d.futs ++ [.parked q.loc take id q.va q.org] }) s
  | none => onDev (fun d => { d with futs := d.futs ++ [.parked q.loc take id q.va q.org] }) s

/-- An FE operation performed at its home (R222). DEDUCED: notes/assumptions/43.md. -/
def performFe (q : StoreReq) (op : FeOp) (v : Word) (id : Option Nat) (task : Option (Word × IAddr)) (s : State) : State :=
  let l := q.loc
  match op, id with
  | .put, _ => fePut q.org q.va l v.toNat s
  | .clr, _ => putFut q.org q.va l 0 0 s
  | _, none => s
  | op, some i =>
    match poisonAt s.dev l 16 with
    | some p => onHart (arrive i 0 0 (some (q.va + wordOf p))) s
    | none =>
      let s := watchAccess q.org.ctx ⟨l, 16, false, some q.org.core, q.va⟩ q.org.icount s
      match op with
      | .peek => feReturn i (futState s.dev l) s
      | .take =>
        if futFull s.dev l then
          feReturn i (futValue s.dev l) (putFut q.org q.va l (futValue s.dev l) (futState s.dev l - 1) s)
        else feEmpty q true i task s
      | _ => if futFull s.dev l then feReturn i (futValue s.dev l) s else feEmpty q false i task s

/-! ## Elements at the order point (R165, R169, R181) -/

/-- A TLDE or TSTE behind a free (R169): not performed, and reported to the issuer. -/
def elemDead (q : StoreReq) (h : Nat) (id : Option Nat) (s : State) : State :=
  let s := match id with
    | some i => onHart (arrive i 0 0 none) s
    | none => s
  postMsg q.org.core (errorMsg .protection (h % 2 ^ 32)) s

/-- TLDE at the home (R181). DEDUCED: notes/assumptions/89.md. -/
def performTlde (q : StoreReq) (t : Tensor) (e id : Nat) (s : State) : State :=
  let n := tySize t.ty
  match poisonAt s.dev q.loc n with
  | some _ => onHart (arrive id 0 0 (some q.va)) s
  | none =>
    watchAccess q.org.ctx ⟨q.loc, n, false, some q.org.core, q.va⟩ q.org.icount
      (onHart (arrive id ((tldeValue t e).setWidth 1024) (BitVec.ofNat 1024 (2 ^ 64 - 1)) none) s)

/-- TSTE at the home (R181). -/
def performTste (q : StoreReq) (t : Tensor) (e : Nat) (v : Word) (sat : Bool) (s : State) : State :=
  performWrite q.org 1 q.va q.loc (natBytes (tySize t.ty) (tsteCode t e v sat (Config.freeElem s.tick))) { s with tick := s.tick + 1 }

/-- A TLDE or TSTE performed at its tensor's order point, and its entry complete (R165). -/
def performElem (q : StoreReq) (h : Nat) (s : State) : State :=
  let done := fun (s : State) => entryDone h (2 * q.seq) s
  match tensorOf s.dev h, q.op with
  | none, .tlde _ _ id => elemDead q h (some id) s
  | none, _ => elemDead q h none s
  | some t, .tlde e _ id => done (if entryDead t (2 * q.seq) then elemDead q h (some id) s else performTlde q t e id s)
  | some t, .tste e _ v sat => done (if entryDead t (2 * q.seq) then elemDead q h none s else performTste q t e v sat s)
  | _, _ => s

/-! ## Writebacks (R189) -/

/-- The runs of set bits of a byte mask from byte `i` on, `n` bytes left: start and length. -/
def maskRuns (m : BitVec 128) : Nat → Nat → Nat → List (Nat × Nat)
  | 0, i, k => if k = 0 then [] else [(i - k, k)]
  | n + 1, i, k =>
    if m.getLsbD i then maskRuns m n (i + 1) (k + 1)
    else (if k = 0 then [] else [(i - k, k)]) ++ maskRuns m n (i + 1) 0

/-- The dirty bytes of a line that could not be written back (R140, R201, R361): their granules are poisoned at the home, and an
error message names the first of them, or the tensor. DEDUCED: notes/assumptions/70.md. -/
def writebackLost (l : Loc) (m : BitVec 128) (s : State) : State :=
  match maskRuns m 128 0 0 with
  | [] => s
  | (i, k) :: r =>
    let s := ((i, k) :: r).foldl (fun s r => poisonRange { l with off := l.off + r.1 } r.2 s) s
    postMsg s.hart.ar.core (errorMsg .poison (match l.space with | .ten h => h | _ => l.off + i)) s

/-- Dirty bytes written at their home, but those that an error has taken. -/
def performWriteback (l : Loc) (m : BitVec 128) (d : BitVec 1024) (bad : BitVec 128) (s : State) : State :=
  writebackLost l bad
    ((maskRuns (m &&& ~~~bad) 128 0 0).foldl (fun s r => homePut { l with off := l.off + r.1 } (lineBytes d r.1 r.2) s) s)

/-- A line of the cluster's CM written back where it stands. -/
def flushLine (x : CmLine) (s : State) : State :=
  performWriteback ⟨x.space, x.line * 128⟩ x.dirty x.data (lostBytes s.dev x) s

/-! ## HOME_PERFORM (R188) -/

/-- A request of the paths performed at its home, the update-only lines it meets recalled first (R219). -/
def performAtHome (q : StoreReq) (s : State) : State :=
  let s := match q.op with | .flush _ _ _ => s | _ => recallAt q.loc (max 1 (reqSize q.op)) s
  match q.op with
  | .store bs _ => performWrite q.org 1 q.va q.loc bs s
  | .strl bs _ => performWrite q.org 1 q.va q.loc bs s
  | .zline => performWrite q.org 1 q.va q.loc (List.replicate 128 0) s
  | .rmw op size v cmp id _ => performRmw q op size v cmp id s
  | .fe op v id task => performFe q op v id task s
  | .tlde _ _ _ | .tste _ _ _ _ => match q.loc.space with
    | .ten h => performElem q h s
    | _ => s
  | .flush cells op size => combineAt q.org.ctx q.loc op size cells s
  | .writeback m d bad => performWriteback q.loc m d bad s
  | .clean | .discard => s



/-- Whether a request writes at its home. -/
def writesHome : StoreOp → Bool
  | .tlde _ _ _ | .fe .read _ _ _ | .fe .peek _ _ _ | .clean | .discard => false
  | _ => true

/-- Whether a request may be performed now: no re-representation stands before its element (R166), a squash has no handler to
pass (R254) and room for its record (R401), and the interval lines it may add fit (R391). DEDUCED: notes/assumptions/17.md. -/
def homeReady (s : State) (q : StoreReq) : Bool :=
  (match q.op with
   | .tlde _ _ _ | .tste _ _ _ _ => match q.loc.space with
     | .ten h => match tensorOf s.dev h with
       | some t => entryReady t (2 * q.seq) || entryDead t (2 * q.seq)
       | none => true
     | _ => true
   | .fe .read _ _ task => futFull s.dev q.loc || !stillRuns s task || (s.hart.saved.isEmpty && !taskStalls s.hart)
   | _ => true) && (!writesHome q.op || linesFit s q.loc (max 1 (reqSize q.op)))

/-- The first request of a queue that may be performed, of those with a property: one that waits at its home keeps back only what
touches its line. DEDUCED: notes/assumptions/17.md. -/
def homeNext (s : State) (p : StoreReq → Bool) : List StoreReq → List Loc → Nat → Option (Nat × StoreReq)
  | [], _, _ => none
  | q :: r, held, i =>
    if !p q then homeNext s p r held (i + 1)
    else if homeReady s q && !held.any (fun l => l.space == q.loc.space && lineOf l == lineOf q.loc) then some (i, q)
    else homeNext s p r (q.loc :: held) (i + 1)

/-- Whether a request goes to the home of a stack. -/
def toStack (s : State) (stack : Nat) (q : StoreReq) : Bool := stackOfLoc s.dev q.loc == stack

/-- The next request of a window gate, if it goes to a stack's home: a gate keeps its order for all of its die's homes (R187.1). -/
def gateTake (s : State) (stack : Nat) (g : Fin 12) : Option (StoreReq × State) :=
  match homeNext s (fun _ => true) s.clu.gates[g] [] 0 with
  | some (i, q) =>
    if toStack s stack q then some (q, onClu (fun c => { c with gates := c.gates.set g (c.gates[g].eraseIdx i) }) s) else none
  | none => none

/-- The next request that the home of a stack performs, taken from the path of its die or from a gate (R187, R188). -/
def homeTake (s : State) (stack : Nat) : Option (StoreReq × State) :=
  match homeNext s (toStack s stack) s.clu.path [] 0 with
  | some (i, q) => some (q, onClu (fun c => { c with path := c.path.eraseIdx i }) s)
  | none => (List.finRange 12).findSome? (gateTake s stack)

/-- HOME_PERFORM (R188): the home of a stack performs the next request of the cluster's paths, and the next stack has its turn (R138);
a request that waits for interval line entries asks for a boundary (R391). -/
def execHomePerform (stack : Nat) (s : State) : Out :=
  match homeTake s stack with
  | none =>
    match (paths s).find? fun q => toStack s stack q && writesHome q.op && !linesFit s q.loc (max 1 (reqSize q.op)) with
    | some q => .next (askBoundary q.loc s)
    | none => .next s
  | some (q, u) => .next (settle (performAtHome q (onClu (fun c => { c with turn := (stack + 1) % 12 }) u)))

end Sys2Proof.Machine
end

