-- ==== Sys2Proof/Machine/WorkQueues.lean ====
section
/-! DEFINITION. Work queues (R262 to R264): the per-core ring in LS, the cluster queue in the scratch window, and the refills
between them. -/

namespace Sys2Proof.Machine

/-! ## Descriptors (R262) -/

/-- A per-core descriptor. -/
structure WqDesc where
  ring : Nat
  cap : Nat
  low : Nat
  batch : Nat
  cq : Nat
  head : Nat
  tail : Nat
  deriving DecidableEq, Repr

/-- The fields of a per-core descriptor. -/
def wqDesc (b : List Byte) : WqDesc :=
  ⟨recNat b 0 4, recNat b 4 2, recNat b 6 2, recNat b 8 2, recNat b 12 4, recNat b 16 4, recNat b 20 4⟩

/-- A cluster descriptor. -/
structure CqDesc where
  base : Nat
  cap : Nat
  head : Nat
  tail : Nat
  deriving DecidableEq, Repr

/-- The fields of a cluster descriptor. -/
def cqDesc (b : List Byte) : CqDesc := ⟨recNat b 0 4, recNat b 4 4, recNat b 8 4, recNat b 12 4⟩

/-- The count of a ring: TAIL - HEAD modulo 2^32. -/
def ringCount (head tail : Nat) : Nat := (tail + 2 ^ 32 - head) % 2 ^ 32

/-- Whether a number is a power of two from 2 to `top`. -/
def powerIn (top n : Nat) : Bool := decide (2 ≤ n) && decide (n ≤ top) && 2 ^ n.log2 == n

/-- Whether 32 bytes lie in the scratch window below S. -/
def inScratch (s : State) (a n : Nat) : Bool := decide (0x100000 ≤ a) && decide (a + n ≤ 0x100000 + s.clu.scratch)

/-- The rules of a per-core descriptor's fields, in ascending order of the byte they name (R262, R445).
DEDUCED: notes/assumptions/44.md. -/
def wqRules (s : State) (b : List Byte) : List (Bool × Nat) :=
  let d := wqDesc b
  [(d.ring % 8 == 0, 0), (powerIn 4096 d.cap, 4), (decide (d.low < d.cap), 6),
    (decide (1 ≤ d.batch) && decide (d.batch ≤ d.cap), 8)] ++ zeroRules b 10 2 ++
  [(d.cq % 32 == 0 && inScratch s d.cq 32, 12)]

/-- The rules of a cluster descriptor's fields. DEDUCED: notes/assumptions/44.md. -/
def cqRules (b : List Byte) : List (Bool × Nat) :=
  let d := cqDesc b
  [(d.base % 8 == 0, 0), (powerIn 65536 d.cap, 4)] ++ zeroRules b 16 16

/-- The scratch location of an address. -/
def scrLoc (s : State) (a : Nat) : Loc := ⟨.scr s.hart.ar.cluster, a - 0x100000⟩

/-- Bytes of the scratch window read at issue; a poisoned one raises Poison precisely (R140). -/
def readScratch (s : State) (a n : Nat) : Chk (List Byte) :=
  match poisonAt s.dev (scrLoc s a) n with
  | some i => .error (.poison, wordOf (a + i), 0)
  | none => .ok (rawBytes s.dev (scrLoc s a) n)

/-- A per-core descriptor checked in order (R264): alignment, region, fields, ring. -/
def wqCheck (s : State) (a : Word) : Chk WqDesc := do
  let b ← readRecord s a 32 32
  recordRules a (wqRules s b)
  let d := wqDesc b
  check (decide (d.ring + 8 * d.cap ≤ lsTop)) .protection (wordOf (max d.ring lsTop))
  .ok d

/-- A cluster descriptor checked in order (R264). -/
def cqCheck (s : State) (a : Word) : Chk CqDesc := do
  check (a.toNat % 32 == 0) .misaligned a
  check (inScratch s a.toNat 32) .protection a
  let b ← readScratch s a.toNat 32
  recordRules a (cqRules b)
  let d := cqDesc b
  check (inScratch s d.base (8 * d.cap)) .protection
    (wordOf (if d.base < 0x100000 then d.base else max d.base (0x100000 + s.clu.scratch)))
  .ok d

/-- A field of a per-core descriptor set by the device. DEDUCED: notes/assumptions/44.md. -/
def putWq (a o n v : Nat) (s : State) : State := homePut (lsLoc s (a + o)) (natBytes n v) s

/-- A field of a cluster descriptor, or an entry of its ring, set at the CVP. -/
def putScratch (a n v : Nat) (s : State) : State :=
  homePut (scrLoc s a) (natBytes n v) (onHart (l1Drop (scrLoc s a) n) s)

/-- The address of entry `i` of a ring. -/
def ringAddr (base cap i : Nat) : Nat := base + 8 * (i % cap)

/-! ## Refills (R263) -/

/-- Whether a refill of a descriptor is in flight. -/
def refilling (s : State) (a : Nat) : Bool := s.hart.refills.any fun r => r.desc == a

/-- A refill started; the descriptor's last doubleword is the device's own while it is in flight (R262). -/
def startRefill (a : Nat) (s : State) : State :=
  let s := putWq a 24 8 (Config.freeWord s.tick).toNat { s with tick := s.tick + 1 }
  onHart (fun h => { h with refills := h.refills ++ [⟨a, originOf s⟩] }) s

/-- Entry `i` of a refill taken from the cluster queue and written to the ring, logged as an engine's write (R386). -/
def refillEntry (o : Origin) (d : WqDesc) (q : CqDesc) (s : State) (i : Nat) : State :=
  let src := scrLoc s (ringAddr q.base q.cap (q.head + i))
  let dst := lsLoc s (ringAddr d.ring d.cap (d.tail + i))
  let (v, s) := engRead o (wordOf (ringAddr q.base q.cap (q.head + i))) src 8 s
  let bad := (poisonAt s.dev src 8).isSome
  let s := engWrite o (wordOf (ringAddr d.ring d.cap (d.tail + i))) dst (natBytes 8 v) s
  if bad then poisonRange dst 8 s else s

/-- How many entries a refill takes (R263). -/
def refillCount (d : WqDesc) (q : CqDesc) : Nat :=
  min d.batch (min (d.cap - ringCount d.head d.tail) (ringCount q.head q.tail))

/-- A refill done: the entries taken and the heads and tails moved in one step. -/
def refill (r : Refill) (d : WqDesc) (q : CqDesc) (s : State) : State :=
  let n := refillCount d q
  let s := (List.range n).foldl (refillEntry r.org d q) s
  let s := putScratch (d.cq + 8) 4 (q.head + n) s
  let s := putWq r.desc 20 4 (d.tail + n) s
  onHart (fun h => { h with fromRefill := h.fromRefill ++ (List.range n).map fun i => (r.desc, (d.tail + i) % 2 ^ 32) }) s

/-- WQ_REFILL (R263): the oldest refill in flight is performed. -/
def execWqRefill (s : State) : Out :=
  match s.hart.refills with
  | [] => .next s
  | r :: rest =>
    let go := do
      let d ← wqCheck s (wordOf r.desc)
      let q ← cqCheck s (wordOf d.cq)
      .ok (d, q)
    let ended := fun (s : State) => putWq r.desc 24 8 0 (onHart (fun h => { h with refills := rest }) s)
    match (go : Chk (WqDesc × CqDesc)) with
    | .error _ => .next (ended s)
    | .ok (d, q) =>
      match reserveLog (160 * (if logCovers s r.org.ctx r.org.cov then refillCount d q else 0)) s with
      | none => .next (freeOldest (160 * (if logCovers s r.org.ctx r.org.cov then refillCount d q else 0)) s)
      | some s => .next (settle (refill r d q (ended s)))

/-! ## The instructions -/

/-- The entry at HEAD popped (R263): an entry that a refill brought is followed by an acquire at cluster scope. -/
def popEntry (d : Reg) (a : Nat) (x : WqDesc) (s : State) : Out :=
  let at_ := ringAddr x.ring x.cap x.head
  let brought := s.hart.fromRefill.contains (a, x.head)
  match poisonAt s.dev (lsLoc s at_) 8 with
  | some i => trap .poison (wordOf (at_ + i)) s
  | none =>
    if brought && !loadsDone s (s.hart.nextSeq + 1) then hold s else
    let v := wordOf (bytesNat (lsBytes s at_ 8))
    let s1 := putWq a 16 4 (x.head + 1) s
    let s1 := onHart (fun h => { h with fromRefill := h.fromRefill.filter (· != (a, x.head)), mid := .none }) s1
    let s1 := if ringCount x.head x.tail - 1 < x.low && !refilling s a then startRefill a s1 else s1
    finishFx s [d.toNat] (setX d v (if brought then acquireMoves .clu s1 else s1))

/-- WQPOP (R263): `mid` says that its own refill was started. -/
def execWqpop (d a : Reg) (s : State) : Out :=
  let p := xr s a
  afterChecks (do
    let x ← wqCheck s p
    let _ ← cqCheck s (wordOf x.cq)
    .ok x) s fun x =>
    if ringCount x.head x.tail != 0 then popEntry d p.toNat x s
    else if refilling s p.toNat then hold s
    else if s.hart.mid = .wq then
      finishFx s [d.toNat] (setX d (BitVec.allOnes 64) (onHart (fun h => { h with mid := .none }) s))
    else .next (markEffect (onHart (fun h => { h with mid := .wq }) (startRefill p.toNat s)))

/-- WQPUSH (R264). -/
def execWqpush (d a b : Reg) (s : State) : Out :=
  let p := xr s a
  let v := xr s b
  afterChecks (do
    let x ← wqCheck s p
    check (v != BitVec.allOnes 64) .protection v
    .ok x) s fun x =>
    if ringCount x.head x.tail ≥ x.cap then finishFx s [d.toNat] (setX d 1 s)
    else
      let s1 := homePut (lsLoc s (ringAddr x.ring x.cap x.tail)) (natBytes 8 v.toNat) s
      finishFx s [d.toNat] (setX d 0 (putWq p.toNat 20 4 (x.tail + 1) s1))

/-- WQFILL (R264): the release at cluster scope, then the entry and TAIL in one step at the CVP. -/
def execWqfill (d a b : Reg) (s : State) : Out :=
  let p := xr s a
  let v := xr s b
  afterChecks (do
    let q ← cqCheck s p
    check (v != BitVec.allOnes 64) .protection v
    .ok q) s fun q =>
    if !released s .clu (s.hart.nextSeq + 1) then hold s
    else if ringCount q.head q.tail ≥ q.cap then finishFx s [d.toNat] (setX d 1 s)
    else
      let s1 := putScratch (ringAddr q.base q.cap q.tail) 8 v.toNat s
      finishFx s [d.toNat] (setX d 0 (putScratch (p.toNat + 12) 4 (q.tail + 1) s1))

/-- WQCOUNT (R264). -/
def execWqcount (d a : Reg) (s : State) : Out :=
  let p := xr s a
  afterChecks (do
    let x ← wqCheck s p
    let q ← cqCheck s (wordOf x.cq)
    .ok (x, q)) s fun (x, q) =>
    let v := ringCount x.head x.tail % 2 ^ 16 + (if refilling s p.toNat then 2 ^ 16 else 0) +
      ringCount q.head q.tail % 2 ^ 17 * 2 ^ 32
    finish s [d.toNat] (setX d (wordOf v) s)

end Sys2Proof.Machine
end

