-- ==== Sys2Proof/Machine/Joins.lean ====
section
/-! DEFINITION. Quorum joins (R265 to R275): the record, contributions, arrivals, the release with its kills, the combination,
and the reset of a member that misses its kill point. -/

namespace Sys2Proof.Machine

/-! ## QNEW (R265, R272) -/

/-- Whether a handle names a live f32 tensor with an operation in its set. -/
def joinTensor (s : State) (h : Nat) (op : TOp) (p : Tensor → Bool) : Bool :=
  match liveTensor s (wordOf h) with
  | some t => t.ty == .f32 && hasOp t op.code && p t
  | none => false

/-- The elements of an accumulator. -/
def accCount (s : State) (h : Nat) : Nat := match tensorOf s.dev h with | some t => tCount t | none => 0

/-- Whether an address names a future word in device memory (R221). -/
def futureAt (s : State) (a : Word) : Bool :=
  a.toNat % 16 == 0 && isDevVa a && (translate s (s.hart.mode == .u) false (rmwNeed .future) a).isOk

/-- The rules of a join's record, in ascending order of the byte they name (R265, R445). DEDUCED: notes/assumptions/45.md. -/
def joinRules (s : State) (r : List Byte) : List (Bool × Nat) :=
  let n := recNat r 0 2
  let acc := recNat r 8 8
  [(decide (1 ≤ n) && decide (n ≤ 16), 0), (decide (1 ≤ recNat r 2 2) && decide (recNat r 2 2 ≤ n), 2),
    (decide (recByte r 4 ≤ 2), 4), (joinTensor s acc .red fun t => decide (tCount t ≤ 65536), 8),
    (joinTensor s (recNat r 16 8) .elem fun t => tRows t == n && tCols t == accCount s acc, 16),
    (recNat r 24 2 != 0, 24),
    ((List.range 16).all fun m => if m < n then recByte r (32 + m) != 0 else recByte r (32 + m) == 0, 32),
    (recNat r 48 8 == 0 || futureAt s (wordOf (recNat r 48 8)), 48)]

/-- The identifier of a join (R265). -/
def joinId (s : State) (a : Word) : Word := wordOf (s.hart.ar.cluster * 2 ^ 32 + a.toNat)

/-- QNEW's checks (R272). -/
def qnewCheck (s : State) (a : Word) : Chk Unit := do
  check (a.toNat % 64 == 0) .misaligned a
  check (inScratch s a.toNat 64) .protection a
  check ((match curCtx s with | some c => c.mode != 0 | none => false) && (joinOf s (joinId s a)).isNone) .protection a
  recordRules a (joinRules s (← readScratch s a.toNat 64))

/-- The fields that the device keeps set to 0 (R272). -/
def clearJoin (jid : Word) (s : State) : State :=
  let s := onHart (l1Drop (joinLoc jid) 64) s
  putJoin jid 56 8 0 (putJoin jid 26 6 0 (putJoin jid 5 3 0 s))

/-- A new join. -/
def newJoin (s : State) (jid : Word) : Join :=
  { jid := jid, ctx := s.hart.ar.ctx, launch := myLaunch s, bound := [], markers := [], counted := [], toRetract := []
    combined := false, posted := false, icount := 0, paused := 0 }

/-- QNEW (R272). -/
def execQnew (d a : Reg) (s : State) : Out :=
  let p := xr s a
  afterChecks (qnewCheck s p) s fun _ =>
    let jid := joinId s p
    finishFx s [d.toNat] (setX d jid (onClu (fun c => { c with joins := c.joins ++ [newJoin s jid] }) (clearJoin jid s)))

/-! ## QCONTRIB and QARRIVE (R267, R273, R274) -/

/-- The membership check of R273: the current task is an uncounted member of the join named. -/
def memberCheck (s : State) (jid : Word) : Chk (Join × Nat) :=
  match myMember s with
  | some (j, m) => if j.jid == jid && !isCounted j m then .ok (j, m) else .error (.protection, jid, 0)
  | none => .error (.protection, jid, 0)

/-- QCONTRIB's checks (R273): the join, the member, the bytes of the contribution. -/
def qcontribCheck (s : State) (jid b : Word) : Chk (Join × Nat × List Byte) := do
  let (j, m) ← memberCheck s jid
  let n := 4 * accCount s (joinField s jid 8 8)
  .ok (j, m, ← readRecord s b 4 n)

/-- The row of the shadow buffer of a member. -/
def shadowRow (s : State) (jid : Word) (m : Nat) : Loc :=
  ⟨.ten (joinField s jid 16 8), m * accCount s (joinField s jid 8 8) * 4⟩

/-- QCONTRIB (R266, R273): a kill point; the row is written at the shadow buffer's home as logged stores, which wait for the interval
line entries that they need (R391). DEDUCED: notes/assumptions/45.md. -/
def execQcontrib (a b : Reg) (s : State) : Out :=
  let jid := xr s a
  killPoint s fun s =>
    afterChecks (qcontribCheck s jid (xr s b)) s fun (_, m, bs) =>
      let o := originOf s
      let l := shadowRow s jid m
      let h := wordOf (joinField s jid 16 8)
      if tensorMoving s.dev l (s.hart.nextSeq + 1) then hold s else
      withLog s (engNeed s o bs.length) s fun s1 =>
        let s2 := if (liveTensor s1 h).isSome then engWrite o h l bs s1 else s1
        if engFits s.hart.ar.ctx s1 s2 then finishFx s [] s2 else .next (engStall s.hart.ar.ctx s1 s2)

/-- A kill that reaches a bound member (R268): a queued one is removed with its registrations; a running one on this core has
its kill pending. DEDUCED: notes/assumptions/39.md. -/
def killMember (jid : Word) (m : Nat) (s : State) : State :=
  match (joinOf s jid).bind fun j => j.bound.find? fun b => b.1 == m with
  | none => s
  | some (_, tid) =>
    match taskById s tid with
    | none => s
    | some t =>
      if queued t then
        let s := onClu (fun c => { c with tasks := c.tasks.filter fun x => x.tid != tid }) s
        let s := onDev (fun d => { d with futs := d.futs.filter fun w => match w with
          | .reg _ k => k != tid
          | .parked _ _ _ _ _ => true }) s
        onJoin jid (fun j => { j with toRetract := j.toRetract.filter (· != m) }) (setJoinBit jid 30 m s)
      else if t.running = some s.hart.ar.core then onHart (fun h => { h with tk := { h.tk with kpend := true } }) s
      else s

/-- The record of a join's release or close (R402). -/
def joinRecord (jid : Word) (s : State) : State :=
  traceRecord .join (natBytes 8 jid.toNat ++ natBytes 1 (joinState s jid) ++ natBytes 2 (joinField s jid 28 2) ++
    natBytes 2 (joinField s jid 30 2) ++ natBytes 2 (joinField s jid 26 2)) s

/-- The release (R267, steps 1 and 2): kills go to every bound member outside A, and unbound members are marked KILLED.
DEDUCED: notes/assumptions/39.md. -/
def releaseJoin (jid : Word) (s : State) : State :=
  match joinOf s jid with
  | none => s
  | some j =>
    let n := joinField s jid 0 2
    let s := passTime s
    let s := putJoin jid 56 8 s.dev.time.toNat (putJoin jid 5 1 1 s)
    let out := (List.range n).filter fun m => !isCounted j m
    let bound := out.filter fun m => j.bound.any fun b => b.1 == m
    let s := onJoin jid (fun j => { j with toRetract := bound, icount := s.hart.tc.icount + 1, paused := 0 }) s
    let s := out.foldl (fun s m => if bound.contains m then killMember jid m s else setJoinBit jid 30 m s) s
    joinRecord jid s

/-- A member counted (R267, R274): its status and the state it leaves. -/
def countMember (jid : Word) (m : Nat) (s : State) : Word × State :=
  let s := setJoinBit jid 28 m (onJoin jid (fun j => { j with counted := j.counted ++ [m] }) s)
  match joinOf s jid with
  | some j => if j.counted.length = joinField s jid 2 2 then (1, releaseJoin jid s) else (0, s)
  | none => (0, s)

/-- Whether this arrival would release its join and find no room for the record (R401). -/
def joinStalls (s : State) (j : Join) : Bool :=
  traceStalls s.hart .join && decide (j.counted.length + 1 = joinField s j.jid 2 2)

/-- QARRIVE (R267, R274): a kill point; a QARRIVE after the release finds its member outside A. -/
def execQarrive (d a : Reg) (s : State) : Out :=
  let jid := xr s a
  killPoint s fun s =>
    afterChecks (memberCheck s jid) s fun (j, m) =>
      if joinStalls s j then holdScribe s
      else
        let (v, s1) := countMember jid m s
        finishFx s [d.toNat] (setX d v s1)

/-! ## QSTAT and QRESET (R275) -/

/-- The number of set bits of a 16-bit field. -/
def bitsSet (n : Nat) : Nat := popN 16 n

/-- What QSTAT reads. -/
def qstatVal (s : State) (jid : Word) : Nat :=
  joinState s jid % 4 + bitsSet (joinField s jid 28 2) * 4 + joinField s jid 6 2 * 2 ^ 8 + joinField s jid 28 2 * 2 ^ 24 +
  joinField s jid 30 2 * 2 ^ 40 + joinField s jid 26 2 % 256 * 2 ^ 56

/-- A live join by its identifier, or Protection. -/
def joinCheck (s : State) (jid : Word) : Chk Join :=
  match joinOf s jid with
  | some j => .ok j
  | none => .error (.protection, jid, 0)

/-- QSTAT (R275). -/
def execQstat (d a : Reg) (s : State) : Out :=
  let jid := xr s a
  afterChecks (joinCheck s jid) s fun _ => finish s [d.toNat] (setX d (wordOf (qstatVal s jid)) s)

/-- A new round (R275). -/
def resetJoin (jid : Word) (s : State) : State :=
  let round := joinField s jid 6 2
  let s := onHart (l1Drop (joinLoc jid) 64) s
  let s := putJoin jid 26 6 0 (putJoin jid 6 2 (round + 1) (putJoin jid 5 1 0 s))
  onJoin jid (fun j => { j with
    bound := [], markers := [], counted := [], toRetract := [], combined := false, posted := false, icount := 0
    paused := 0 }) s

/-- QRESET (R275). -/
def execQreset (a : Reg) (s : State) : Out :=
  let jid := xr s a
  afterChecks (do
    let _ ← joinCheck s jid
    check (joinState s jid == 2) .protection jid) s fun _ => finishFx s [] (resetJoin jid s)

/-! ## The steps of a release (R267 to R271) -/

/-- KILL_SIGNAL (R268): a kill reaches a member outside A. -/
def execKillSignal (jid : Word) (m : Nat) (s : State) : Out :=
  match joinOf s jid with
  | none => .next s
  | some j => if joinState s jid = 1 && !isCounted j m then .next (killMember jid m s) else .next s

/-- The marker of a member. -/
def markerOf (j : Join) (m : Nat) : Option Marker := j.markers.reverse.find? fun k => k.member == m

/-- RETRACTION (R268, R270): a member that ran on another core of the cluster has met its kill point; its logged locations are
restored and its task is gone. `peered` says that it had issued a peer copy, which is not retracted (R270). This core's own member is
retracted in its kill point. DEDUCED: notes/assumptions/42.md. -/
def execRetraction (jid : Word) (r : Retracted) (s : State) : Out :=
  let m := r.member
  match joinOf s jid with
  | none => .next s
  | some j =>
    match (j.bound.find? fun b => b.1 == m).bind fun b => taskById s b.2, markerOf j m with
    | some t, some k =>
      if joinState s jid != 1 || isCounted j m || t.running != some k.core || k.core = s.hart.ar.core || !ctxRuns s j.ctx then .next s
      else
      let s := retract j.ctx k.core k.lo k.hi s
      let s := onClu (fun c => { c with tasks := c.tasks.filter fun x => x.tid != t.tid }) s
      let s := if r.peered then onCtx j.ctx (fun c => { c with unret := c.unret + 1 }) (setJoinBit jid 26 m s) else s
      .next (onJoin jid (fun j => { j with toRetract := j.toRetract.filter (· != m) }) (setJoinBit jid 30 m s))
    | _, _ => .next s

/-- The weight of a member (R265). -/
def weightOf (s : State) (jid : Word) (m : Nat) : Nat := joinField s jid (32 + m) 1

/-- The exact weighted sum of element `e` over members (R267). -/
def weightedSum (s : State) (jid : Word) (e : Nat) (ms : List Nat) : FVal :=
  (sumVal (ms.foldl (fun acc m =>
    let l := shadowRow s jid m
    let x := fdec .f32 (bytesNat (rawBytes s.dev { l with off := l.off + 4 * e } 4))
    sumAdd acc (mulVal (.fin false (weightOf s jid m) 0) x)) sumZero)).1

/-- A value times a fraction, rounded to f32 by RNE. -/
def scaledF32 (num den : Nat) (v : FVal) : Nat :=
  match v with
  | .fin neg n e => if n = 0 || den = 0 then (roundVal .f32 rmRne v).1 else (roundMag .f32 rmRne (ratMag neg (n * num) den e)).1
  | _ => (roundVal .f32 rmRne v).1

/-- t of R267 for one element. -/
def joinTerm (s : State) (jid : Word) (j : Join) (e : Nat) : Nat :=
  let n := joinField s jid 0 2
  let all := List.range n
  match joinField s jid 4 1 with
  | 1 => scaledF32 ((all.map (weightOf s jid)).sum) ((j.counted.map (weightOf s jid)).sum) (weightedSum s jid e j.counted)
  | 2 => scaledF32 1 1 (weightedSum s jid e all)
  | _ => scaledF32 1 1 (weightedSum s jid e j.counted)

/-- One element combined into the accumulator at its home, for the core whose QARRIVE released (R267, R386, R397).
DEDUCED: notes/assumptions/45.md. -/
def joinElem (jid : Word) (j : Join) (s : State) (e : Nat) : State :=
  let h := joinField s jid 8 8
  let l : Loc := ⟨.ten h, 4 * e⟩
  if (tensorOf s.dev h).isNone then s else
  let new := (faddCode .f32 rmRne (bytesNat (rawBytes s.dev l 4)) (joinTerm s jid j e)).1
  watchAccess j.ctx ⟨l, 4, true, some s.hart.ar.core, wordOf h⟩ j.icount (homePut l (natBytes 4 new) s)

/-- JOIN_COMBINE (R267, step 3): for SUBSTITUTE it waits for the retractions. -/
def execJoinCombine (jid : Word) (s : State) : Out :=
  match joinOf s jid with
  | none => .next s
  | some j =>
    if joinState s jid != 1 || j.combined || (joinField s jid 4 1 = 2 && !j.toRetract.isEmpty) || !ctxRuns s j.ctx then .next s
    else .next (engStall j.ctx s (onJoin jid (fun j => { j with combined := true })
      ((List.range (accCount s (joinField s jid 8 8))).foldl (joinElem jid j) s)))

/-- Whether every member is counted or killed (R271). DEDUCED: notes/assumptions/46.md. -/
def allResolved (s : State) (jid : Word) : Bool :=
  (List.range (joinField s jid 0 2)).all fun m => (joinField s jid 28 2 ||| joinField s jid 30 2) / 2 ^ m % 2 == 1

/-- Whether members, retractions, combination and FUT of a released join are done (R271). DEDUCED: notes/assumptions/46.md. -/
def joinDone (s : State) (j : Join) : Bool :=
  joinState s j.jid == 1 && allResolved s j.jid && j.toRetract.isEmpty && j.combined && j.posted

/-- The join closed, once it is done (R271, R387): the log entries of the killed members' windows are freed. A record that finds the
buffer full stalls the core (R401). DEDUCED: notes/assumptions/46.md. -/
def closeJoin (jid : Word) (s : State) : State :=
  match joinOf s jid with
  | none => s
  | some j =>
    if !joinDone s j then s
    else if traceStalls s.hart .join then scribeStall s else
    let s := putJoin jid 5 1 2 s
    let s := (j.markers.filter fun k => !isCounted j k.member).foldl (fun s k => freeWindows j.ctx k.core k.lo k.hi s) s
    joinRecord jid s

/-- JOIN_FUT_POST (R267, step 4): an FEPUT of ARRIVED and ROUND, where FUT names a word; where it is the last thing that the
join waits for, the join is CLOSED with it (R271). DEDUCED: notes/assumptions/46, 48. -/
def execJoinFutPost (jid : Word) (s : State) : Out :=
  match joinOf s jid with
  | none => .next s
  | some j =>
    if joinState s jid != 1 || !j.combined || j.posted || !ctxRuns s j.ctx then .next s else
    let fut := joinField s jid 48 8
    let v := joinField s jid 28 2 + joinField s jid 6 2 * 2 ^ 16
    let s0 := s
    let s := recallTables j.ctx fut (onJoin jid (fun j => { j with posted := true }) s)
    match walk s.dev j.ctx fut with
    | some l =>
      if fut = 0 then .next (closeJoin jid s)
      else .next (engStall j.ctx s0 (settle (closeJoin jid
        (fePut { originOf s with cov := false } (wordOf fut) ⟨.dev, l.pa⟩ v (recallAt ⟨.dev, l.pa⟩ 16 s)))))
    | none => .next (closeJoin jid s)

/-- JOIN_CLOSE (R271). -/
def execJoinClose (jid : Word) (s : State) : Out := .next (closeJoin jid s)

/-! ## The reset of a member (R269) -/

/-- The core after the reset: its registers other than x2 and x3 cleared, its slots IDLE, no handler, frame or held write.
DEDUCED: notes/assumptions/47.md. -/
def resetCore (h : Hart) : Hart :=
  { h with
    regs := { h.regs with
      x := ((Vector.replicate 32 (0 : Word)).set 2 h.regs.x[2]).set 3 h.regs.x[3], v := .replicate 32 0, k := .replicate 4 0
      xsh := .replicate 8 0, vsh := .replicate 8 0 }
    slots := h.slots.map fun x => { x with st := .idle }
    mode := .u, tr := { h.tr with tip := false }, ui := { h.ui with inh := false, armed := h.ui.armed || h.ui.inh }
    frame := none, held := [], loads := [], fences := [], saved := [], mid := .tknext none false, spin := none }

/-- KILL_TIMEOUT_RESET (R269): a running member of this core that has not met a kill point within TIMEOUT microseconds of the
release, stops not counted, is reset, once its writes are performed and its record has a place. A request of it that a home has parked
is never performed. DEDUCED: notes/assumptions/47.md. -/
def execKillTimeoutReset (jid : Word) (m : Nat) (s : State) : Out :=
  match myMember s with
  | none => .next s
  | some (j, k) =>
    if j.jid != jid || k != m || joinState s jid != 1 || isCounted j m || !writesOut s || s.hart.dbg.stop.isSome ||
      s.hart.dbg.stepping.isSome || !ctxRuns s j.ctx then .next s
    else if taskStalls s.hart then holdScribe s else
    let s := passTime s
    let due := wordOf (joinField s jid 56 8 + joinField s jid 24 2 * 1000 + j.paused)
    let s := onDev (fun d => { d with time := if d.time.toNat < due.toNat then due else d.time }) s
    let s := onDev (fun d => { d with futs := d.futs.filter fun w => match w with
      | .parked _ _ _ _ o => o.core != s.hart.ar.core
      | .reg _ _ => true }) s
    .next (onHart resetCore (retireTask 5 0x10 (retractMine s)))

end Sys2Proof.Machine
end

