-- ==== Sys2Proof/Machine/Nmu.lean ====
section
/-! DEFINITION. The near-memory optimiser (R326 to R328). -/

namespace Sys2Proof.Machine

/-! ## The record and its checks (R326) -/

/-- The fields of an update record. -/
structure NmuRec where
  wh : Word
  gh : Word
  row0 : Nat
  nrows : Nat
  rule : Nat
  tag : Nat
  lr : Nat
  b1 : Nat
  b2 : Nat
  eps : Nat
  deriving DecidableEq, Repr

/-- The record of 64 bytes (R326). -/
def nmuRec (r : List Byte) : NmuRec :=
  { wh := wordOf (recNat r 0 8), gh := wordOf (recNat r 8 8), row0 := recNat r 16 4, nrows := recNat r 20 4
    rule := recByte r 24, tag := recByte r 25, lr := recNat r 32 4, b1 := recNat r 36 4, b2 := recNat r 40 4
    eps := recNat r 44 4 }

/-- The legal fields (R326, R445). -/
def nmuRules (r : List Byte) : List (Bool × Nat) :=
  [(decide (1 ≤ recNat r 20 4), 20), (decide (recByte r 24 ≤ 2), 24)] ++ zeroRules r 26 6 ++ zeroRules r 48 16

/-- The types that an update takes. -/
def nmuTy (t : Ty) : Bool := t == .f32 || t == .bf16

/-- The checks of NMUPD: steps 1, 2, 3, 4, 6 and 7 of R290 (R326). -/
def nmupdCheck (s : State) (p : Word) : Chk (List Byte × Tensor × Tensor) := do
  let b ← readRecord s p 64 64
  recordRules p (nmuRules b)
  let r := nmuRec b
  check (!s.hart.tags.contains (BitVec.ofNat 8 r.tag)) .protection (wordOf r.tag)
  let w ← liveCheck s r.wh
  check (decide (r.row0 + r.nrows ≤ tRows w)) .protection r.wh
  let g ← liveCheck s r.gh
  check (nmuTy w.ty) .protection r.wh
  check (nmuTy g.ty && tRows g == tRows w && tCols g == tCols w) .protection r.gh
  needOp w TOp.near.code
  needOp g TOp.elem.code
  .ok (b, w, g)

/-- The pieces of the rows of an update: row, first column, columns; a row longer than 16 KiB is cut (R159, R327).
DEDUCED: notes/assumptions/61.md. -/
def nmuPieces (w : Tensor) (row0 nrows : Nat) : List (Nat × Nat × Nat) :=
  let per := 16384 / tySize w.ty
  (rangeFrom row0 nrows).flatMap fun i =>
    (List.range (ceilDiv (tCols w) per)).map fun k => (i, k * per, min per (tCols w - k * per))

/-- The handles of an update, each once. -/
def nmuHandles (r : NmuRec) : List Nat := [r.wh.toNat, r.gh.toNat].dedup

/-- NMUPD (R326): the update enters the units' queues and both tensors' order points. -/
def execNmupd (a : Reg) (s : State) : Out :=
  afterChecks (nmupdCheck s (xr s a)) s fun (b, w, _) =>
    let r := nmuRec b
    let id := s.dev.nextEng
    let j : NmuJob :=
      { id := id, seq := s.hart.nextSeq + 1, core := s.hart.ar.core, ctx := s.hart.ar.ctx, tag := BitVec.ofNat 8 r.tag
        record := b, todo := nmuPieces w r.row0 r.nrows, total := r.nrows * tCols w, st := .queued, org := originOf s }
    let s1 := (nmuHandles r).foldl (fun s h => placeEngine id h s) s
    let s1 := onDev (fun d => { d with nmus := d.nmus ++ [j], nextEng := d.nextEng + 1 }) s1
    finishFx s [] (countSent (onHart (fun h => { h with
      nextSeq := h.nextSeq + 1, tags := BitVec.ofNat 8 r.tag :: h.tags }) s1))

/-! ## The arithmetic of an element (R326) -/

/-- Addition in f32 by RNE. -/
def fAdd (a b : Nat) : Nat := (faddCode .f32 rmRne a b).1
/-- Subtraction. -/
def fSub (a b : Nat) : Nat := fAdd a (if b / 2 ^ 31 % 2 = 1 then b - 2 ^ 31 else b + 2 ^ 31)
/-- Multiplication. -/
def fMul (a b : Nat) : Nat := (fmulCode .f32 rmRne a b).1

/-- Division, rounded once. -/
def fDiv (a b : Nat) : Nat :=
  let neg := a / 2 ^ 31 % 2 != b / 2 ^ 31 % 2
  let signed := fun (c : Nat) => if neg then c + 2 ^ 31 else c
  match fdec .f32 a, fdec .f32 b with
  | .nan, _ => nanCode .f32
  | _, .nan => nanCode .f32
  | .inf _, .inf _ => nanCode .f32
  | .inf _, .fin _ _ _ => signed (0xFF * 2 ^ 23)
  | .fin _ _ _, .inf _ => signed 0
  | .fin _ n e, .fin _ k g =>
    if k = 0 then (if n = 0 then nanCode .f32 else signed (0xFF * 2 ^ 23))
    else if n = 0 then signed 0
    else (roundMag .f32 rmRne (ratMag neg n k (e - g))).1

/-- What an update makes of (w, m, v) and the gradient (R326). -/
def nmuStep (r : NmuRec) (w m v g : Nat) : Nat × Nat × Nat :=
  let one := 0x3F800000
  match r.rule with
  | 0 => (fSub w (fMul r.lr g), m, v)
  | 1 =>
    let m := fAdd (fMul r.b1 m) g
    (fSub w (fMul r.lr m), m, v)
  | _ =>
    let m := fAdd (fMul r.b1 m) (fMul (fSub one r.b1) g)
    let v := fAdd (fMul r.b2 v) (fMul (fSub one r.b2) (fMul g g))
    (fSub w (fMul r.lr (fDiv m (fAdd (transCode .sqrt .f32 rmRne v).1 r.eps))), m, v)

/-- An element's pattern as f32. -/
def toF32 (t : Ty) (c : Nat) : Nat := if t = .f32 then c else c * 2 ^ 16
/-- An f32 pattern in a weight's type. -/
def fromF32 (t : Ty) (c : Nat) : Nat := if t = .f32 then c else (roundVal t rmRne (fdec .f32 c)).1

/-! ## A piece (R327) -/

/-- An update changed. -/
def onNmu (id : Nat) (f : NmuJob → NmuJob) (s : State) : State :=
  onDev (fun d => { d with nmus := modWhere (fun j => j.id == id) f d.nmus }) s

/-- The location of an element of a tensor. -/
def elemLoc (t : Tensor) (e : Nat) : Loc := ⟨.ten t.h, e * tySize t.ty⟩

/-- The old bytes of a piece's weights and of its state logged, in entries of up to 128 bytes (R386, R388). The state lies
behind the element array (R161). DEDUCED: notes/assumptions/21.md. -/
def logPiece (j : NmuJob) (t : Tensor) (e n : Nat) (s : State) : State :=
  let z := tySize t.ty
  let entry := fun (l : Loc) (old : List Byte) (first : Nat) (s : State) =>
    if logCovers s j.org.ctx j.org.cov then
      countLog j.org.core (logAppend j.org.ctx
        { pos := 0, kind := 6, eng := true, pay := true, done := false, freed := false, win := j.org.win, core := j.org.core
          addr := wordOf t.h, loc := l, cvp := false, old := old, size := old.length, elem := first, icount := j.org.icount } s)
    else s
  let s := (List.range (ceilDiv (n * z) 128)).foldl (fun s i =>
    let k := min 128 (n * z - 128 * i)
    let l : Loc := { elemLoc t e with off := e * z + 128 * i }
    entry l (rawBytes s.dev l k) (e + 128 * i / z) s) s
  (List.range (ceilDiv n 16)).foldl (fun s i =>
    let k := min 16 (n - 16 * i)
    let old := (rangeFrom (e + 16 * i) k).flatMap fun x => natBytes 8 (smGet t.opt x).toNat
    entry ⟨.ten t.h, tBytes t + 8 * (e + 16 * i)⟩ old (e + 16 * i) s) s

/-- One element of a piece updated. -/
def updateElem (j : NmuJob) (r : NmuRec) (s : State) (e : Nat) : State :=
  match tensorOf s.dev r.wh.toNat, tensorOf s.dev r.gh.toNat with
  | some w, some g =>
    let st := (smGet w.opt e).toNat
    let (gc, s) := engRead j.org r.gh (elemLoc g e) (tySize g.ty) s
    let (wc, s) := engRead j.org r.wh (elemLoc w e) (tySize w.ty) s
    let (x, m, v) := nmuStep r (toF32 w.ty wc) (st % 2 ^ 32) (st / 2 ^ 32) (toF32 g.ty gc)
    onTensor w.h (fun t => { t with opt := smSet t.opt e (wordOf (v * 2 ^ 32 + m)) })
      (logTail w.h (8 * e) 8 (engPut j.org r.wh (elemLoc w e) (natBytes (tySize w.ty) (fromF32 w.ty x)) s))
  | _, _ => s

/-- A list without its entry at `i`. -/
def dropAt {α : Type} (l : List α) (i : Nat) : List α := l.take i ++ l.drop (i + 1)

/-- An update stopped by an error (R327): its entries are complete. -/
def endNmu (j : NmuJob) (st : Byte) (n : BitVec 32) (s : State) : State :=
  onNmu j.id (fun j => { j with st := .done st n })
    ((nmuHandles (nmuRec j.record)).foldl (fun s h => entryDone h (2 * j.id + 1) s) s)

/-- The log space of a piece (R391). -/
def pieceNeed (s : State) (j : NmuJob) (z n : Nat) : Nat :=
  if logCovers s j.org.ctx j.org.cov then 160 * (ceilDiv (n * z) 128 + ceilDiv n 16) else 0

/-- Piece `i` of an update, its log space reserved (R327); one with a gradient or a weight that is poisoned is left unchanged, and the
update stops (R377). DEDUCED: notes/assumptions/61.md. -/
def updatePiece (j : NmuJob) (i : Nat) (p : Nat × Nat × Nat) (w g : Tensor) (s : State) : State :=
  let r := nmuRec j.record
  let e := p.1 * tCols w + p.2.1
  match poisonAt s.dev (elemLoc g e) (p.2.2 * tySize g.ty), poisonAt s.dev (elemLoc w e) (p.2.2 * tySize w.ty) with
  | some _, _ => endNmu j (causeCode .poison) (r.gh.setWidth 32) s
  | none, some _ => endNmu j (causeCode .poison) (r.wh.setWidth 32) s
  | none, none =>
    let s := (rangeFrom e p.2.2).foldl (updateElem j r) (logPiece j w e p.2.2 s)
    let rest := dropAt j.todo i
    if rest.isEmpty then endNmu j 0 (BitVec.ofNat 32 j.total) (onNmu j.id (fun j => { j with todo := [] }) s)
    else onNmu j.id (fun j => { j with todo := rest }) s

/-- Whether an earlier update has the same piece still to do: they reach its home in the order of their issue (R14, R165, R327). -/
def pieceBehind (s : State) (j : NmuJob) (p : Nat × Nat × Nat) : Bool :=
  s.dev.nmus.any fun b => decide (b.id < j.id) && b.st == .queued && (nmuRec b.record).wh == (nmuRec j.record).wh && b.todo.contains p

/-- NMU_PIECE_UPDATE (R327): piece `piece` of update `k`. -/
def execNmuPieceUpdate (k piece : Nat) (s : State) : Out :=
  match s.dev.nmus[k]? with
  | none => .next s
  | some j =>
    let r := nmuRec j.record
    let hs := nmuHandles r
    if j.st != .queued || !ctxRuns s j.ctx then .next s
    else match copyDead s j.id hs with
      | some h => .next (endNmu j (causeCode .protection) (BitVec.ofNat 32 h) s)
      | none =>
        match j.todo[piece]?, tensorOf s.dev r.wh.toNat, tensorOf s.dev r.gh.toNat with
        | some p, some w, some g =>
          if !copyReady s j.id hs || pieceBehind s j p then .next s
          else match reserveLog (pieceNeed s j (tySize w.ty) p.2.2) s with
            | none => .next (freeOldest (pieceNeed s j (tySize w.ty) p.2.2) s)
            | some v => .next (engStall j.ctx v (settle (updatePiece j piece p w g v)))
        | _, _, _ => .next s

/-- The stack whose unit places an update's message: that of its first piece. DEDUCED: notes/assumptions/61.md. -/
def nmuUnit (j : NmuJob) : Nat :=
  let r := nmuRec j.record
  Config.pieceStack r.wh.toNat (r.row0 * 2 ^ 32) % 12

/-- Whether an earlier update of the same core and unit has not placed its message: messages of one engine enter in
command order for each issuing core (R202). -/
def nmuBehind (s : State) (j : NmuJob) : Bool :=
  s.dev.nmus.any fun b => b.core == j.core && decide (b.id < j.id) && nmuUnit b == nmuUnit j

/-- NMU_COMPLETE (R327): update `k` places its message of kind 0x11. -/
def execNmuComplete (k : Nat) (s : State) : Out :=
  match s.dev.nmus[k]? with
  | none => .next s
  | some j =>
    if nmuBehind s j then .next s else
    match j.st with
    | .queued => .next s
    | .done st n | .await st n =>
      .next (settle (postMsg j.core ⟨j.tag, st, 0x11, n, 0, [], j.org.icount⟩
        (onDev (fun d => { d with nmus := d.nmus.filter fun i => i.id != j.id }) s)))

/-! ## NMSTAT (R328) -/

/-- The pieces of updates queued at the unit of a stack. -/
def piecesAt (d : Device) (stack : Nat) (p : NmuJob → Bool) : Nat :=
  (d.nmus.map fun j => if p j && j.st == .queued then
    let h := (nmuRec j.record).wh.toNat
    (j.todo.filter fun q => Config.pieceStack h (q.1 * 2 ^ 32 + q.2.1) % 12 == stack).length else 0).sum

/-- NMSTAT (R328): whether a row lock is held at this moment is left open while any piece waits at the unit.
DEDUCED: notes/assumptions/61.md. -/
def execNmstat (d a : Reg) (s : State) : Out :=
  let k := (xr s a).toNat
  if 11 < k then trap .protection (xr s a) s
  else
    let mine := piecesAt s.dev k fun j => j.ctx == s.hart.ar.ctx
    let lock := piecesAt s.dev k (fun _ => true) != 0 && (Config.freeWord s.tick).getLsbD 0
    finish s [d.toNat] (setX d (wordOf (fieldAt lock 16 + mine % 2 ^ 16)) { s with tick := s.tick + 1 })

end Sys2Proof.Machine
end

