-- ==== Sys2Proof/Machine/Supersteps.lean ====
section
/-! DEFINITION. Supersteps and domains (R242 to R246): the exchange and compute phases and their barrier. -/

namespace Sys2Proof.Machine

/-- The scope of a domain level (R242). -/
def levelScope (l : BitVec 3) : Scope :=
  match l.toNat with
  | 0 => .core
  | 1 | 2 => .clu
  | 3 => .bay
  | 4 => .die
  | _ => .dev

/-- The phase that SEXCH, SSYNC and SDOM need (R246). -/
def phaseCheck (s : State) (ph : Bool) : Chk Unit := check (s.hart.ss.ph == ph) .phase (s.hart.ss.count.setWidth 64)

/-- Whether an exchange copy of the thread has not placed its message yet (R244). -/
def exchangePending (s : State) : Bool :=
  (s.dev.copies.any fun c => c.core == s.hart.ar.core && c.exch) || s.clu.hold.any fun m => m.kind == 3 || m.kind == 4

/-- Whether the core's arrival at its superstep barrier stands already. -/
def superArrived (s : State) : Bool :=
  s.hart.ss.released || s.clu.arrivals.any fun a => a.core == s.hart.ar.core && a.slot == 8

/-- The arrival at the superstep barrier, which waits for the release of the level's scope (R246). -/
def superArrive (s : State) : State :=
  let s := if superArrived s then s else sendArrival 8 0 s.hart.ss.phase (levelScope s.hart.ss.level) s
  markEffect (onHart (fun h => { h with mid := .sstep }) s)

/-- The windows that a release opens, one for each thread that it releases (R389): the core's own is the first of them.
DEDUCED: notes/assumptions/22.md. -/
def openWindows (n : Nat) (s : State) : State :=
  onCur (fun c => { c with winNext := c.winNext + BitVec.ofNat 16 (n - 1) }) (openWindow false s)

/-- The core past its superstep barrier: the windows open (R389), the acquire is made. -/
def superPass (sc : Scope) (f : Superstep → Superstep) (s : State) : Out :=
  if sc != .core && !loadsDone s (s.hart.nextSeq + 1) then holdCounted 5 s else
  finish s [] (openWindows s.hart.ss.record.count.toNat (acquireMoves sc
    (onHart (fun h => { h with mid := .none, ss := f { h.ss with released := false } }) s)))

/-- The wider of two scopes of domain levels (R246). -/
def widerLevel (a b : BitVec 3) : BitVec 3 := if a.toNat < b.toNat then b else a

/-- The arrivals that stand at the superstep barrier of the domain instance of a core: those of its members (R242, R244). A thread
arrives at no other before it is released. -/
def superArrivals (s : State) (core : Nat) : List Arrival :=
  s.clu.arrivals.filter fun a => a.slot == 8 && a.sent && (instanceOf s core).contains a.core

/-- The counted arrivals of the core's domain instance (R242, R244). -/
def superCounted (s : State) : List Arrival := superArrivals s s.hart.ar.core

/-- Whether the core is the member that records a superstep's release (R402). -/
def superRecorder (s : State) : Bool := (domainCores s).all fun c => decide (s.hart.ar.core ≤ c)

/-- Whether a checkpoint boundary is armed, so that superstep barriers hold their releases (R374). -/
def boundaryArmed (s : State) : Bool := match curCtx s with | some c => c.armed | none => false

/-- Whether the instance's barrier is met: every member has arrived (R244), and no boundary holds it (R374). -/
def superMet (s : State) : Bool :=
  !s.hart.ss.released && !boundaryArmed s && (superCounted s).any (·.core == s.hart.ar.core) &&
  allArrived (superCounted s) (domainCores s)

/-- Whether only the recorder's full scribe buffer keeps a met barrier back (R401, R402). -/
def superStalls (s : State) : Bool := superMet s && superRecorder s && traceStalls s.hart .superstep

/-- A thread that holds at its superstep barrier: at a full scribe buffer PERTURB counts (R401), else the barrier's counter
(R405). -/
def superHold (s : State) : Out := if superStalls s then holdScribe s else holdCounted 5 s

/-- SEXCH (R244, R246): past the release it holds until the scribe's buffer has entered the sink (R401). -/
def execSexch (s : State) : Out :=
  afterChecks (phaseCheck s false) s fun _ =>
    if s.hart.mid != .sstep then .next (superArrive s)
    else if !s.hart.ss.released then superHold s
    else if !s.hart.tc.scribe.isEmpty then holdScribe s
    else superPass (levelScope s.hart.ss.level) (fun x => { x with ph := true }) s

/-- SSYNC (R244, R246): it arrives once the thread's exchange copies have placed their messages. -/
def execSsync (s : State) : Out :=
  afterChecks (phaseCheck s true) s fun _ =>
    if s.hart.mid != .sstep then (if exchangePending s then holdCounted 5 s else .next (superArrive s))
    else if !s.hart.ss.released then superHold s
    else superPass (levelScope (widerLevel s.hart.ss.level s.hart.ss.next))
      (fun x => { x with level := x.next, ph := false, count := x.count + 1 }) s

/-- SDOM (R246). -/
def execSdom (a : Reg) (s : State) : Out :=
  let v := xr s a
  afterChecks (do
    phaseCheck s true
    check (decide (v.toNat ≤ 5)) .protection v) s fun _ =>
    finishFx s [] (onHart (fun h => { h with ss := { h.ss with next := v.setWidth 3 } }) s)

/-- Whether the instance's barrier releases now: the recorder's trace record has a place (R401). -/
def superReleases (s : State) : Bool := superMet s && !(superRecorder s && traceStalls s.hart .superstep)

/-- Threads released from their superstep barrier: their arrivals are gone, and they stand at the levels that they named (R242,
R246). -/
def releaseMembers (l : List Arrival) (c : Cluster) : Cluster :=
  { c with
    arrivals := c.arrivals.filter fun a => !l.contains a
    levels := modWhere (fun p => l.any fun a => a.core == p.1) (fun p => (p.1, p.2.2, p.2.2)) c.levels }

/-- A core that stands at the barrier of another domain instance of the launch, which is met (R244, R374). -/
def otherInstance (s : State) : Option Nat :=
  if boundaryArmed s then none else
  (s.clu.arrivals.find? fun a => a.slot == 8 && a.sent && !(domainCores s).contains a.core &&
    allArrived (superArrivals s a.core) (instanceOf s a.core)).map (·.core)

/-- SUPERSTEP_RELEASE (R244): each member receives the record with SLOT = 8. Where the core's own barrier is not met, that of another
instance of the launch releases its members. -/
def execSuperstepRelease (s : State) : Out :=
  if !superReleases s then .next (match otherInstance s with
    | some c => onClu (releaseMembers (superArrivals s c)) s
    | none => s)
  else
  let l := superCounted s
  let r := imbalance l (domainCores s).length 8 s.hart.ss.phase false
  let lvl := s.hart.ss.level
  let rec_ := superRecorder s
  let s := onClu (releaseMembers l) s
  let s := onHart (fun h => { h with ss := { h.ss with record := r, phase := h.ss.phase + 1, released := true } }) s
  .next (if rec_ then traceRecord .superstep (recordBytes r ++ [lvl.setWidth 8]) s else s)

end Sys2Proof.Machine
end

