-- ==== Sys2Proof/Machine/Contexts.lean ====
section
/-! DEFINITION. Whole contexts: switch times and budgets (R276, R369, R384), images (R372, R373), boundaries and rollbacks (R374
to R376), resuming (R370), errors (R377), kills and retirement (R378), and the fatal error (R379). -/

namespace Sys2Proof.Machine

/-! ## Switch times (R369) -/

/-- The first switch time at least 16 µs after a time (R369). -/
def switchTime (t : Word) : Nat := (t.toNat + 16000 + 4095) / 4096 * 4096

/-! ## The partition (R11, R16) -/

/-- Whether a key of the LS memory belongs to a context's partition. -/
def lsOf (c : Context) (k : Nat) : Bool := hasBay c (k / 0x20000 / 128)
/-- Whether a key of the scratch memory belongs to a context's partition. -/
def scrOf (c : Context) (k : Nat) : Bool := hasBay c (k / 0x400000 / 8)

/-- The part of a memory whose keys have a property. -/
def takePart {w : Nat} (p : Nat → Bool) (m : SMap w) : SMap w := m.filter fun e => p e.1

/-- That part of a memory replaced. -/
def putPart {w : Nat} (p : Nat → Bool) (part m : SMap w) : SMap w :=
  part.foldl (fun m e => smSet m e.1 e.2) (m.filter fun e => !p e.1)

/-! ## Images (R372, R373) -/

/-- Where an image of a context starts: the switch image is image 0, the boundary image image 1 (R372).
DESIGN CHOICE: notes/assumptions/65.md. -/
def imageBase (c : Context) (which : Nat) : Nat := c.save + which * imageSize c

/-- Whether an image fails its check: a block's tag does not match, because its bytes are not those written with the image, or a
block has an uncorrectable error (R373). DESIGN CHOICE: notes/assumptions/65.md. -/
def imageBad (s : State) (c : Context) (which : Nat) (img : Image) : Bool :=
  let b := imageBase c which
  !((s.dev.seals.find? (sealMeets b (imageSize c))) == some ⟨b, imageSize c, some (c.num, which, img.counter)⟩) ||
  (s.dev.dmem.any fun e => inSave c which 1 e.1) || s.dev.devPoison.any fun k => inSave c which 1 (64 * k)

/-- Whether what the cores of the context issued is performed, after a stop: requests, refills in flight, arrivals and releases in
the barrier network (R209, R233, R278, R367). DEDUCED: notes/assumptions/68.md. -/
def drained (s : State) : Bool :=
  s.hart.sq.isEmpty && (paths s).isEmpty && s.hart.loads.isEmpty && s.hart.refills.isEmpty && !netPending s

/-- Whether the cluster holds update-only lines. -/
def holdsUo (s : State) : Bool := s.clu.cm.any (·.uo.isSome)

/-- The dirty lines written back and every line dropped, update-only lines recalled first (R220, R367, R372). -/
def flushLines (s : State) : State :=
  let s := uoRecallAll (fun _ => true) s
  let s := s.clu.cm.foldl (fun s x => flushLine x s) s
  onHart (fun h => { h with l1 := [] }) (onClu (fun c => { c with cm := [] }) s)

/-- What an image of a context holds now (R372), and the save counter of its blocks (R373).
DESIGN CHOICE: notes/assumptions/65.md. -/
def imageOf (c : Context) (s : State) : Image where
  time := s.dev.time
  counter := s.dev.saves
  hart := s.hart
  clu := s.clu
  ls := takePart (lsOf c) s.dev.ls
  scr := takePart (scrOf c) s.dev.scr
  lsPoison := s.dev.lsPoison.filter fun k => lsOf c (8 * k)
  scrPoison := s.dev.scrPoison.filter fun k => scrOf c (8 * k)
  units := s.dev.units.filter fun u => hasBay c (u.cluster / 8)
  tensors := s.dev.tensors.filter fun t => t.ctx == c.num
  futs := s.dev.futs
  launches := c.launches
  busy := c.busy
  log := c.log
  logHead := c.logHead
  logTail := c.logTail
  winNext := c.winNext

/-- An image's blocks written, encrypted and tagged, under the next count of the save counter: their granules are whole (R140, R372,
R373). DESIGN CHOICE: notes/assumptions/65.md. -/
def wholeImage (c : Context) (which : Nat) (s : State) : State :=
  onDev (fun d => { wipe (some (c.num, which, d.saves)) (imageBase c which) (imageSize c) d with
    saves := d.saves + 1, devPoison := d.devPoison.filter fun k => !inSave c which 1 (64 * k) }) s

/-- The lines of the core's cluster written back, if it runs the context (R372). -/
def flushFor (n : Nat) (s : State) : State := if inContext s.hart n then flushLines s else s

/-- The switch image written (R372, R380). -/
def saveSwitch (n : Nat) (s : State) : State :=
  let s := flushFor n s
  match ctxOf s.dev n with
  | none => s
  | some c => onCtx n (fun k => { k with switchImg := some (imageOf c s), state := .saved }) (wholeImage c 0 s)

/-- The boundary image written (R374). -/
def saveBoundary (n : Nat) (s : State) : State :=
  let s := flushFor n s
  match ctxOf s.dev n with
  | none => s
  | some c => onCtx n (fun k => { k with boundImg := some (imageOf c s) }) (wholeImage c 1 s)

/-- The core as an image holds it: the debug service's breakpoints are not part of it (R399). -/
def restoredHart (old : Hart) (img : Image) : Hart :=
  { img.hart with dbg := { img.hart.dbg with bps := old.dbg.bps, trapStep := old.dbg.trapStep } }

/-- The cluster as an image holds it, with the messages that came to the hold since (R371). -/
def restoredClu (old : Cluster) (img : Image) : Cluster :=
  { img.clu with hold := img.clu.hold ++ old.hold.drop img.clu.hold.length }

/-- Cores, clusters and units restored from an image (R370, R373, R375). DEDUCED: notes/assumptions/66.md. -/
def restoreImage (c : Context) (img : Image) (s : State) : State :=
  let d := { s.dev with
    ls := putPart (lsOf c) img.ls s.dev.ls
    scr := putPart (scrOf c) img.scr s.dev.scr
    lsPoison := (s.dev.lsPoison.filter fun k => !lsOf c (8 * k)) ++ img.lsPoison
    scrPoison := (s.dev.scrPoison.filter fun k => !scrOf c (8 * k)) ++ img.scrPoison
    units := (s.dev.units.filter fun u => !hasBay c (u.cluster / 8)) ++ img.units }
  if inContext s.hart c.num then
    { s with
      dev := { d with futs := img.futs }
      hart := restoredHart s.hart img
      clu := restoredClu s.clu img }
  else { s with dev := d }

/-! ## Stops and resuming (R276, R367, R369, R370) -/

/-- GANG_STOP (R367, R368). -/
def execGangStop (n why : Nat) (s : State) : Out := .next (gangStop n why s)

/-- The contexts whose switch time is the earliest. DESIGN CHOICE: notes/assumptions/3.md. -/
def nextSwitch (l : List Context) : Option Nat :=
  (l.filterMap fun c => if c.state == .running then c.switchAt else none).min?

/-- SWITCH_TIME_REACHED (R369): the contexts whose switch time it is stop. -/
def execSwitchTimeReached (s : State) : Out :=
  match nextSwitch s.dev.ctxs with
  | none => .next s
  | some t =>
    let s := reachTime t s
    .next (s.dev.ctxs.foldl (fun s c =>
      match c.switchAt with
      | some u => if u ≤ t && c.state == .running then
          onCtx c.num (fun c => { c with switchAt := none }) (gangStop c.num 2 s) else s
      | none => s) s)

/-- The running time that a context may use in a period; none is unlimited (R383). -/
def timeBudget (c : Context) : Option Nat :=
  let b := c.cbudg.toNat % 1024
  if b = 0 || b ≥ 1000 then none else some b

/-- TIME_BUDGET_STOP (R276, R369): the context's running time reaches its budget, and it is stopped at the next switch time; the
event brings the device time to that moment. DEDUCED: notes/assumptions/69.md. -/
def execTimeBudgetStop (n : Nat) (s : State) : Out :=
  match ctxOf s.dev n with
  | none => .next s
  | some c => match timeBudget c with
    | none => .next s
    | some b =>
      if c.state != .running || c.spent then .next s
      else
        let s := reachTime (c.since.toNat + (b * 1000 - c.ran)) s
        .next (onCtx n (fun c => { c with spent := true, switchAt := some (switchTime s.dev.time) }) s)

/-- A context at the start of a period (R276): one stopped for its budget resumes, and a stop for it that is still to come is off, be
the context stopped meanwhile for another reason or not (R277).
DEDUCED: notes/assumptions/69.md; DESIGN CHOICE: notes/assumptions/3.md. -/
def newPeriod (t : Word) (c : Context) : Context :=
  let c1 := { c with spent := false, ran := 0, since := t }
  if !c.spent then c1
  else if c.state == .stopped 2 then { c1 with resumeAt := some (switchTime t) }
  else { c1 with switchAt := none }

/-- BUDGET_PERIOD (R276, R384): the device time reaches the start of the next millisecond. DEDUCED: notes/assumptions/69.md. -/
def execBudgetPeriod (s : State) : Out :=
  .next (onDev (fun d => { d with ctxs := d.ctxs.map fun c => if c.state == .dead then c else newPeriod d.time c })
    (reachTime ((s.dev.time.toNat / 1000000 + 1) * 1000000) s))

/-- The fences that held at a stop hold again, their acquires still to be made (R196, R209). -/
def resumeFences (s : State) : State := settle (onHart (fun h => { h with fences := h.fences.map remakeFence }) s)

/-- The core's restart (R370): a thread whose PRN is set takes a Pre-empt trap before its first instruction.
DEDUCED: notes/assumptions/67.md. -/
def restartHart (s : State) : State :=
  match s.hart.dbg.stop with
  | none => s
  | some r =>
    if r.why = 5 then s else
    let s := resumeFences (endStop s)
    if s.hart.tr.prn && s.hart.thread == .running then takeTrap (causeCode .preempt) r.tstop s.hart.pc 0 false s else s

/-- Whether the core's context is stopped. -/
def myCtxStops (s : State) : Bool :=
  match curCtx s with
  | some c => match c.state with
    | .stopped _ => true
    | _ => false
  | none => false

/-- The last part of a stop (R220, R367): once all else is performed, the update-only lines are recalled. -/
def stopRecall (s : State) : Out := if myCtxStops s && drained s then .next (uoRecallAll (fun _ => true) s) else .next s

/-- RESUME_START (R370): not before the stop is complete (R367). DEDUCED: notes/assumptions/67.md. -/
def execResumeStart (n : Nat) (s : State) : Out :=
  match ctxOf s.dev n with
  | none => .next s
  | some c => match c.resumeAt, c.state with
    | some t, .stopped _ =>
      if s.dev.fatal || (inContext s.hart n && !(drained s && !holdsUo s)) then .next s else
      let s := reachTime t s
      let s := onCtx n (ctxRunning s.dev.time) s
      .next (if inContext s.hart n then restartHart s else s)
    | _, _ => .next s

/-! ## Boundaries (R374) -/

/-- Whether the core's superstep barrier would release now but for an armed boundary (R374). -/
def atHeldBarrier (s : State) : Bool :=
  s.hart.mid == .sstep && !s.hart.ss.released && allArrived (superCounted s) (domainCores s)

/-- Whether the core waits in TKNEXT with no work left (R374). -/
def outOfWork (s : State) : Bool :=
  match s.hart.mid with
  | .tknext _ _ => (chooseTask (s.clu.tasks.filter (runnable (myLaunch s)))).isNone
  | _ => false

/-- Whether every thread of the context is held at a barrier, waits without work, or has retired, and its engine commands are
complete (R374). DEDUCED: notes/assumptions/68.md. -/
def boundaryReached (n : Nat) (s : State) : Bool :=
  (!inContext s.hart n || ((s.hart.thread != .running || atHeldBarrier s || outOfWork s) && drained s && s.clu.hold.isEmpty)) &&
  (s.dev.copies.all fun c => c.ctx != n) && (s.dev.nmus.all fun c => c.ctx != n) &&
  s.dev.units.all fun u => u.queue.all fun c => c.ctx != n

/-- The interval closed and the next opened (R171, R374, R387). -/
def nextInterval (c : Context) : Context :=
  logAdvance { c with
    interval := c.interval + 1, rolledBack := 0, lines := [], armed := false, deferred := 0
    log := modWhere (fun e => e.kind == 8) (fun e => { e with freed := true }) c.log }

/-- A boundary taken (R374). -/
def takeBoundary (n : Nat) (s : State) : State := saveBoundary n (onCtx n nextInterval (flushFor n s))

/-- CHECKPOINT_BOUNDARY (R374): the context stops, its boundary image is written, and it goes on at a switch time. -/
def execCheckpointBoundary (n : Nat) (s : State) : Out :=
  match ctxOf s.dev n with
  | none => .next s
  | some c =>
    if !c.armed || c.state != .running || !boundaryReached n s then .next s else
    let s := takeBoundary n (gangStop n 3 s)
    .next (onCtx n (fun c => { c with resumeAt := some (switchTime s.dev.time) }) s)

/-- CHECKPOINT_ABANDON (R374). -/
def execCheckpointAbandon (n : Nat) (s : State) : Out :=
  match ctxOf s.dev n with
  | none => .next s
  | some c => if c.armed then .next (onCtx n (fun c => { c with armed := false }) s) else .next s

/-! ## Rollback (R171, R321, R375, R376) -/

/-- Work that has not started is discarded, and its messages are never sent (R375). -/
def discardWork (n : Nat) (d : Device) : Device :=
  { d with
    copies := d.copies.filter fun c => c.ctx != n || c.st != .queued
    nmus := d.nmus.filter fun c => c.ctx != n || c.st != .queued }

/-- The interval's lines restored, newest first; each write is a whole granule (R375). -/
def restoreLines (l : List (Loc × BitVec 512)) (d : Device) : Device :=
  l.reverse.foldl (fun d p => rawPut d p.1 (natBytes 64 p.2.toNat)) d

/-- The launches after a rollback: the groups placed since the boundary are to be placed again.
DEDUCED: notes/assumptions/64.md. -/
def launchesBack (img : Image) (l : Launch) : Launch :=
  match img.launches.find? fun x => x.n == l.n with
  | some x => x
  | none => { l with placed := 0, lastCluster := none }

/-- The context's own part of a rollback (R171, R375, R387, R406). -/
def contextBack (img : Image) (c : Context) : Context :=
  { c with
    log := img.log, logHead := img.logHead, logTail := img.logTail, winNext := img.winNext, lines := [], deferred := 0
    watches := .replicate 16 none, launches := c.launches.map (launchesBack img), busy := img.busy, armed := false
    rolledBack := c.rolledBack + 1, switchAt := none, switchImg := none
    state := match c.state with
      | .saved => .stopped 4
      | st => st }

/-- Steps 2 and 3 of R375 on a context that is stopped, or the kill that ends it (R373, R375).
DEDUCED: notes/assumptions/64, 68. -/
def rollBack (n : Nat) (s : State) : State :=
  match ctxOf s.dev n with
  | none => s
  | some c => match c.boundImg with
    | none => killContext n 4 0x15 none 0 s
    | some img =>
      if c.rolledBack ≥ 1 then killContext n 6 0 none 0 s
      else if imageBad s c 1 img then killContext n 4 0x15 none 0 s
      else
        let d := restoreLines c.lines s.dev
        let d := { d with
          tensors := (d.tensors.filter fun t => t.ctx != n) ++ img.tensors
          out := d.out ++ [.rollback n c.interval img.time] }
        let s := restoreImage c img { s with dev := d }
        onCtx n (contextBack img) s

/-- A context rolled back (R375): it is stopped first, its work that has not started is discarded, and after the restore it resumes
at a switch time. DEDUCED: notes/assumptions/64.md. -/
def rollContext (n : Nat) (s : State) : State :=
  let s := rollBack n (onDev (discardWork n) (gangStop n 4 s))
  onCtx n (fun c => { c with resumeAt := some (switchTime s.dev.time) }) s

/-- CONTEXT_ROLLBACK (R375): of a context that logs in CHECKPOINT mode. -/
def execContextRollback (n : Nat) (s : State) : Out :=
  match ctxOf s.dev n with
  | none => .next s
  | some c => if c.mode = 3 then .next (rollContext n s) else .next s

/-! ## Kills and retirement (R378, R380) -/

/-- CONTEXT_KILL (R378): a kill that comes while a CTX instruction is in progress takes effect after it (R380).
DEDUCED: notes/assumptions/63.md. -/
def execContextKill (n reason cause : Nat) (addr : Word) (s : State) : Out :=
  match ctxOf s.dev n with
  | none => .next s
  | some c =>
    if c.armed then .next { s with waiting := s.waiting ++ [.kill n reason cause addr] }
    else .next (killContext n reason cause none addr s)

/-- Whether a context may retire (R378): its launches are done, and every CPYPD is acknowledged or timed out. -/
def mayRetire (s : State) (c : Context) : Bool :=
  c.busy.isEmpty && (!inContext s.hart c.num || s.hart.thread == .idle) &&
  (c.launches.all fun l => l.placed == recNat l.record 16 4) && s.dev.copies.all fun k => k.ctx != c.num || k.fn != 4

/-- CONTEXT_RETIRE (R378). DEDUCED: notes/assumptions/63.md. -/
def execContextRetire (n : Nat) (s : State) : Out :=
  match ctxOf s.dev n with
  | none => .next s
  | some c => if mayRetire s c && !c.armed then .next (killContext n 0 0 none 0 s) else .next s

/-! ## Errors (R140, R377, R379) -/

/-- A note in the error record; its layout is not stated (notes/assumptions/4.md). DEDUCED: notes/assumptions/70.md. -/
def noteError (s : State) : State :=
  { s with
    tick := s.tick + 1
    dev := { s.dev with errors := s.dev.errors ++ [(Config.freeWord s.tick).setWidth 8] } }

/-- A context that a fatal error finds stopped: it stands stopped for that (R368, R379). -/
def stopFatal (n : Nat) (s : State) : State :=
  let s := onCtx n (fun c => { c with resumeAt := none, switchAt := none, state := match c.state with | .stopped _ => .stopped 6 | x => x }) s
  if inContext s.hart n then
    onHart (fun h => { h with dbg := { h.dbg with stop := h.dbg.stop.map fun r => { r with why := 6 } } }) s
  else s

/-- A fatal error (R379): every context stops, and none resumes. DEDUCED: notes/assumptions/70.md. -/
def fatal (s : State) : State :=
  let s := s.dev.ctxs.foldl (fun s c => if c.state == .dead then s else stopFatal c.num (gangStop c.num 6 s)) s
  noteError (onDev (fun d => { d with fatal := true }) s)

/-- What follows a fatal error (R379), once what was issued before the stop is performed (R209): every context's switch image and
the error record are written to the dump region, and that region is sent over every working port.
DEDUCED: notes/assumptions/70.md. -/
def dumpAll (s : State) : Out :=
  if !s.dev.fatal || s.dev.dump.isSome || !drained s then .next s else
  let s := s.dev.ctxs.foldl (fun s c => if c.state == .dead || c.state == .saved then s else saveSwitch c.num s) s
  let images := s.dev.ctxs.filterMap fun c => if c.state == .dead then none else c.switchImg.map fun i => (c.num, i)
  .next (onDev (fun d => { d with
    dump := some (images, d.errors), out := d.out ++ [.dump d.ports images d.errors] }) s)

/-- FATAL_ERROR (R379). -/
def execFatalError (s : State) : Out := .next (fatal s)

/-- A lasting error in metadata (R377). -/
def metadataError (n : Nat) (s : State) : State :=
  match ctxOf s.dev n with
  | none => s
  | some c => if c.mode = 3 then rollContext n s else killContext n 5 0 none 0 s

/-- A lasting error in a bay (R17, R377). -/
def bayError (bay : Nat) (s : State) : State :=
  let s := onDev (fun d => { d with lostBays := d.lostBays ||| BitVec.ofNat 64 (2 ^ bay) }) s
  match s.dev.ctxs.find? fun c => c.state != .dead && hasBay c bay with
  | some c => killContext c.num 3 0 none 0 s
  | none => s

/-- The dirty bytes of a line that could not be written back (R140, R361, R377). DEDUCED: notes/assumptions/70.md. -/
def writebackError (k : Nat) (s : State) : State :=
  match s.clu.cm[k]? with
  | none => s
  | some x =>
    if x.dirty = 0 then s else
    let l : Loc := ⟨x.space, x.line * 128⟩
    writebackLost l x.dirty (onClu (cmDrop l) s)

/-- A granule of a line of the cluster's CM poisoned (R140). -/
def poisonLine (k g : Nat) (s : State) : State :=
  match s.clu.cm[k]? with
  | none => s
  | some x => onClu (fun c => { c with cm := c.cm.set k { x with poison := x.poison ||| BitVec.ofNat 16 (2 ^ (g % 16)) } }) s

/-- The compression metadata of a 1 KiB block fails: the block is poisoned, and its context rolled back (R135, R377). -/
def blockError (h off : Nat) (s : State) : State :=
  match tensorOf s.dev h with
  | none => s
  | some t => metadataError t.ctx (poisonRange ⟨.ten h, off / 1024 * 1024⟩ 1024 s)

/-- UNCORRECTABLE_ERROR (R140, R377). -/
def execUncorrectableError (site : ErrSite) (lasting : Bool) (s : State) : Out :=
  if !lasting then .next (noteError s) else
  match site with
  | .data l => .next (poisonRange l 1 s)
  | .writeback k => .next (writebackError k s)
  | .cached k g => .next (poisonLine k g s)
  | .blockMeta h off => .next (blockError h off s)
  | .metadata n => .next (metadataError n s)
  | .bayLogic b => .next (bayError b s)
  | .shared => .next (fatal s)

end Sys2Proof.Machine
end

