-- ==== Sys2Proof/Machine/System.lean ====
section
/-! DEFINITION. The system instructions: ECALL, ERET, WFI, SPIN and END (R362 to R366, R441), the CTX instructions (R380), and
TINVAL and FATTR (R381, R382). -/

namespace Sys2Proof.Machine

/-! ## SYS (R362 to R366) -/

/-- The word of a SYS, CTX or XLAT instruction (R29, R49). -/
def sysWord (major : BitVec 7) (d a b : Reg) (fn : BitVec 6) : IWord := encX major d a b 0#4 fn

/-- An S-mode call sent to a service core (R363, R368). DEDUCED: notes/assumptions/72.md. -/
def sendEcall (d a b : Reg) (s : State) : State :=
  countSent (onHart (fun h => { h with ecall := some (xr s a, xr s b, d), answer := none, mid := .ecall }) s)

/-- ECALL (R363): a trap in U mode, a firmware call in S mode, illegal in M mode. DEDUCED: notes/assumptions/72.md. -/
def execEcall (d a b : Reg) (s : State) : Out :=
  match s.hart.mode with
  | .u => trap .ecall (xr s a) s
  | .m => illegal (sysWord 0x76 d a b 0) s
  | .s =>
    if s.hart.mid != .ecall then .next (sendEcall d a b s)
    else match s.hart.answer with
      | none => hold s
      | some v => finish s [d.toNat] (onHart (fun h => { h with mid := .none, ecall := none, answer := none }) (setX d v s))

/-- What firmware answers (R441), and the event it posts. -/
def firmware (f v : Word) (s : State) : Word × State :=
  match f.toNat with
  | 0 => (s.dev.fwver.setWidth 64, s)
  | 1 => (s.dev.ports.setWidth 64, s)
  | 2 => (boolW s.dev.unsync, s)
  | 3 => (match curCtx s with | some c => c.bays | none => 0, s)
  | 4 => (0, onDev (fun d => { d with out := d.out ++ [.event s.hart.ar.ctx v] }) s)
  | _ => (BitVec.allOnes 64, s)

/-- ECALL_ANSWER (R363, R441). DEDUCED: notes/assumptions/72.md. -/
def execEcallAnswer (s : State) : Out :=
  match s.hart.ecall, s.hart.answer with
  | some (f, v, _), none =>
    let (w, s) := firmware f v s
    .next (onHart (fun h => { h with answer := some w }) s)
  | _, _ => .next s

/-- ERET (R39, R42, R362): it waits for the values of the handler's windows. -/
def execEret (s : State) : Out :=
  if s.hart.mode = .u then illegal (sysWord 0x76 0 0 0 1) s
  else if returnWaits s.hart then hold s
  else match handlerPoison s.hart with
  | some (id, a) => .next (returnPoison id a s)
  | none => .next (settle (returnFromTrap (tally s [] false s)))

/-- Whether WFI returns (R364). -/
def wfiReturns (h : Hart) : Bool :=
  !h.inbox.isEmpty || h.tk.kpend || (h.slots.toList.any fun x => x.st == .released) ||
  (h.ui.armed && decide (h.ui.thr.toNat ≤ h.inbox.length))

/-- WFI (R364). -/
def execWfi (s : State) : Out := if wfiReturns s.hart then finish s [] s else hold s

/-- SPIN (R365): the thread goes on once its hold has ended; a trap, interrupt or stop ends it after the instruction.
DEDUCED: notes/assumptions/71.md. -/
def execSpin (a : Reg) (s : State) : Out :=
  let n := min (xr s a).toNat 65535
  finish s [] (if n = 0 then s else onHart (fun h => { h with spin := some n }) s)

/-- SPIN_HOLD_END (R365, R443): `n` cycles have passed, at 2.25 GHz or the lowered clock. DEDUCED: notes/assumptions/71.md. -/
def execSpinHoldEnd (s : State) : Out :=
  match s.hart.spin with
  | none => .next s
  | some n =>
    let s := passTime (onDev (fun d => { d with
      cycle := d.cycle + wordOf n, time := d.time + wordOf (n * 64 / (9 * max 1 d.clock)) }) s)
    .next (onHart (fun h => { h with spin := none }) s)

/-- Whether a held write of the thread still has to land: its window has closed, so that the end does not discard it (R38).
DEDUCED: notes/assumptions/73.md. -/
def endWaits (h : Hart) : Bool := h.held.any fun w => w.left == 0

/-- The thread at its end (R366): its task retired, the held writes of its open windows gone. DEDUCED: notes/assumptions/73.md. -/
def endNow (s : State) : State :=
  endThread (onHart (fun h => { h with held := [], frame := none, fences := [], saved := [] }) (tally s [] false (retireTask 1 0 s)))

/-- END (R257, R268, R366). DEDUCED: notes/assumptions/73.md. -/
def execEndT (s : State) : Out :=
  match mustArrive s with
  | some j => trap .protection j s
  | none =>
    killPoint s fun s =>
      if endWaits s.hart then hold s
      else if taskStalls s.hart then holdScribe s
      else .next (endNow s)

/-! ## CTX (R380) -/

/-- The checks of a CTX instruction, and its context; one that another CTX instruction works on holds it.
DEDUCED: notes/assumptions/68.md. -/
def ctxInstr (fn : BitVec 6) (d a : Reg) (s : State) (k : Context → Out) : Out :=
  if s.hart.mode != .m then illegal (sysWord 0x77 d a 0 fn) s else
  let v := xr s a
  match if v.toNat ≤ 15 then ctxOf s.dev v.toNat else none with
  | none => trap .protection v s
  | some c => if c.armed then hold s else k c

/-- The end of a CTX instruction, with its status. -/
def ctxDone (d : Reg) (v : Nat) (s0 s : State) : Out := finish s0 [d.toNat] (setX d (wordOf v) s)

/-- CSAVE (R372, R380). -/
def execCsave (d a : Reg) (s : State) : Out :=
  ctxInstr 0 d a s fun c =>
    if c.state == .running then ctxDone d 3 s s
    else if inContext s.hart c.num && !drained s then hold s
    else ctxDone d 0 s (saveSwitch c.num s)

/-- The switch image loaded (R373), and the context set to resume under R370; a bad image kills it.
DEDUCED: notes/assumptions/66.md. -/
def loadSwitch (c : Context) (s : State) : Nat × State :=
  match c.switchImg with
  | some img =>
    if imageBad s c 0 img then (0x15, killContext c.num 4 0x15 none 0 s)
    else (0, onCtx c.num (fun c => { c with state := .stopped 2, resumeAt := some (switchTime s.dev.time) }) (restoreImage c img s))
  | none => (0x15, killContext c.num 4 0x15 none 0 s)

/-- CREST (R373, R380). DEDUCED: notes/assumptions/66.md. -/
def execCrest (d a : Reg) (s : State) : Out :=
  ctxInstr 1 d a s fun c =>
    if c.state != .saved then ctxDone d 3 s s
    else let (v, s1) := loadSwitch c s; ctxDone d v s s1

/-- What CKPT answers once its boundary is taken or abandoned; none while it waits (R374, R380).
DEDUCED: notes/assumptions/68.md. -/
def ckptAnswer (s : State) (n interval : Nat) : Option Nat :=
  match ctxOf s.dev n with
  | none => some 1
  | some c => if c.interval != interval then some 0 else if c.armed then none else some 1

/-- CKPT (R374, R380): it arms a boundary and waits. DEDUCED: notes/assumptions/68.md. -/
def execCkpt (d a : Reg) (s : State) : Out :=
  match s.hart.mid with
  | .ckpt n interval => match ckptAnswer s n interval with
    | none => hold s
    | some v => ctxDone d v s (onHart (fun h => { h with mid := .none }) s)
  | _ => ctxInstr 2 d a s fun c =>
    if c.state != .running then ctxDone d 3 s s
    else if c.mode != 3 then ctxDone d 2 s s
    else .next (onHart (fun h => { h with mid := .ckpt c.num c.interval }) (onCtx c.num (fun c => { c with armed := true }) s))

/-- RBACK (R375, R380): the context stays stopped. -/
def execRback (d a : Reg) (s : State) : Out :=
  ctxInstr 3 d a s fun c =>
    if c.state == .running then ctxDone d 3 s s
    else if c.mode != 3 then ctxDone d 2 s s
    else
      let bad := match c.boundImg with
        | none => true
        | some img => c.rolledBack == 0 && imageBad s c 1 img
      ctxDone d (if bad then 0x15 else 0) s (rollBack c.num s)

/-! ## XLAT (R381, R382) -/

/-- Whether requests to device memory wait that translated their address already, in frames with a property: those of the cores, on
the paths, and those parked at their homes (R222). -/
def frameBusy (s : State) (p : Nat → Bool) : Bool :=
  let at_ := fun (l : Loc) => l.space == .dev && p (l.off / 65536)
  (s.hart.loads.any fun r => at_ r.loc) || (s.hart.sq.any fun r => at_ r.loc) || ((paths s).any fun r => at_ r.loc) ||
  s.dev.futs.any fun w => match w with
    | .parked l _ _ _ _ => at_ l
    | .reg _ _ => false

/-- TINVAL (R381). -/
def execTinval (a b : Reg) (s : State) : Out :=
  if s.hart.mode = .u then illegal (sysWord 0x78 0 a b 0) s else
  let v := xr s b
  if v.toNat > 1 then trap .protection v s else
  let f := (xr s a).toNat / 65536
  let gone := fun (e : TlbEntry) => v == 1 || e.vframe == f
  let frames := (s.clu.tlb.filter gone).map (·.pframe)
  let mine := fun (cn : Nat) => match curCtx s with
    | some c => hasBay c (cn / 8)
    | none => false
  if frameBusy s frames.contains then hold s
  else finish s [] (onDev (fun d => { d with tlbs := d.tlbs.filter fun e => !(mine e.1 && gone e.2) })
    (onClu (fun c => { c with tlb := c.tlb.filter fun e => !gone e }) s))

/-- The lines of a frame written back and dropped (R382). -/
def flushFrame (f : Nat) (s : State) : State :=
  let inside := fun (x : CmLine) => x.space == .dev && x.line / 512 == f
  let s := uoRecallAll inside s
  let s := (s.clu.cm.filter inside).foldl (fun s x => flushLine x s) s
  onHart (fun h => { h with l1 := h.l1.filter fun y => !(y.space == .dev && y.line / 512 == f) })
    (onClu (fun c => { c with cm := c.cm.filter fun x => !inside x }) s)

/-- FATTR's work (R382). -/
def setAttr (f : Nat) (unc : Bool) (s : State) : State :=
  let s := flushFrame f (onClu (fun c => { c with tlb := c.tlb.filter fun e => e.pframe != f }) s)
  onDev (fun d => { d with
    tlbs := d.tlbs.filter fun e => e.2.pframe != f
    uncached := if unc then f :: d.uncached.filter (· != f) else d.uncached.filter (· != f) }) s

/-- FATTR (R382). -/
def execFattr (a b : Reg) (s : State) : Out :=
  if s.hart.mode != .m then illegal (sysWord 0x78 0 a b 1) s else
  let f := xr s a
  let v := xr s b
  if f.toNat % 65536 != 0 || f.toNat ≥ devEnd then trap .protection f s
  else if v.toNat > 1 then trap .protection v s
  else if frameBusy s (fun k => k == f.toNat / 65536) then hold s
  else finish s [] (setAttr (f.toNat / 65536) (v == 1) s)

end Sys2Proof.Machine
end

