-- ==== Sys2Proof/Machine/Host.lean ====
section
/-! DEFINITION. The remote command service (R426 to R430, R437, R439): how a command is answered, and every command but LAUNCH
and DEBUG. -/

namespace Sys2Proof.Machine

/-! ## Answers and who may command (R426, R427) -/

/-- A command's response sent (R426). -/
def respond (c : HostCmd) (status : Nat) (v : Word) (data : List Byte) (s : State) : State :=
  onDev (fun d => { d with out := d.out ++ [.response c.session c.seq status v data] }) s

/-- A command refused with status 0x05. DEDUCED: notes/assumptions/76.md. -/
def refuse (c : HostCmd) (s : State) : Out := .next (respond c 5 0 [] s)

/-- Whether a command carries no data: bytes +32 to +63 of its packet are zero, and none follow (R426, R428). -/
def noData (c : HostCmd) : Bool := c.data.all (· == 0)

/-- A device command (R427): recovery answers only the three of R435; a device that is not up answers none. -/
def deviceCmd (basic : Bool) (s : State) (k : Out) : Out :=
  if s.dev.booted || (basic && s.dev.recovery) then k else .next s

/-- The context that an owner command acts on: it must come on the context's owner session (R426). -/
def ownerCtxOf (c : HostCmd) (s : State) : Option Context :=
  match ctxOf s.dev c.ctx with
  | some x => if x.session = c.session then some x else none
  | none => none



/-- The page size of MAP and UNMAP and the level of its leaf (R428). -/
def pageSize (a2 : Word) : Option (Nat × Nat) :=
  match bits a2 7 6 with
  | 0 => some (2 ^ 16, 4)
  | 1 => some (2 ^ 21, 3)
  | 2 => some (2 ^ 30, 2)
  | _ => none

/-- The pages that MAP and UNMAP name. -/
def pageCount (a2 : Word) : Nat := bits a2 39 8

/-- Whether a frame of device virtual space lies in the pages of a command. -/
def inPages (c : HostCmd) (vframe : Nat) : Bool :=
  match pageSize c.arg2 with
  | some (sz, _) => decide (c.arg0.toNat / 65536 ≤ vframe) && decide (vframe * 65536 < c.arg0.toNat + pageCount c.arg2 * sz)
  | none => false

/-- The frames of memory that the translation cache reaches through the pages of an UNMAP. -/
def unmapFrames (c : HostCmd) (s : State) : List Nat := (s.clu.tlb.filter fun e => inPages c e.vframe).map (·.pframe)

/-- Whether a command waits: for a CTX instruction (R426), a DEBUG command for what the stopped core issued to be performed (R367),
or an UNMAP for the accesses that its TINVAL waits for (R381). DEDUCED: notes/assumptions/80.md. -/
def cmdBlocked (c : HostCmd) (s : State) : Bool :=
  match ownerCtxOf c s with
  | none => false
  | some x => x.armed || (c.code == 0x18 && inContext s.hart x.num && s.hart.dbg.stop.isSome && !drained s) ||
      (c.code == 0x12 && c.arg2.getLsbD 63 && inContext s.hart x.num && frameBusy s (unmapFrames c s).contains)

/-- The command that something waiting is, if it is one. -/
def waitingCmd : Waiting → Option HostCmd
  | .kill _ _ _ _ => none
  | .cmd c => some c
  | .xfer _ c => some c

/-- Whether another command of a session waits, or is a DEBUG STEP that has not responded (R426).
DEDUCED: notes/assumptions/80.md. -/
def sessionWaits (c : HostCmd) (s : State) : Bool :=
  (s.waiting.any fun w => match waitingCmd w with | some k => k.session == c.session | none => false) ||
  match s.hart.dbg.stepping with | some x => x.session == c.session | none => false

/-- A command as it arrives: it waits behind its session's earlier ones and for what holds it.
DEDUCED: notes/assumptions/80.md. -/
def arriveCmd (c : HostCmd) (k : HostCmd → State → Out) (s : State) : Out :=
  if sessionWaits c s || cmdBlocked c s then .next { s with waiting := s.waiting ++ [.cmd c] } else k c s

/-- A command under its code (R427). -/
def coded (n : Nat) (c : HostCmd) : HostCmd := { c with code := n }

/-- A command under a code that bit 63 of ARG2 divides (R427). -/
def chosen (n : Nat) (hi : Bool) (c : HostCmd) : HostCmd :=
  { c with code := n, arg2 := if hi then c.arg2 ||| 0x8000000000000000 else c.arg2 &&& 0x7FFFFFFFFFFFFFFF }

/-- An owner command (R426, R427): it is accepted only in encrypted packets (R424). DEDUCED: notes/assumptions/76.md. -/
def ownerCmd (c : HostCmd) (s : State) (k : Context → Out) : Out :=
  if !s.dev.booted || !c.enc then .next s else
  match ownerCtxOf c s with
  | none => refuse c s
  | some x => k x

/-! ## IDENT, QUOTE, ERRREAD (R427, R428, R436, R437) -/

/-- Measurement registers 0 to 2. -/
def stageRegs (d : Device) : List (BitVec 384) := d.meas.toList.take 3

/-- The certificate chain (R436): the manufacturer's certificate, that of the identity key, signed by the manufacturer, and that of
the alias key of this boot, signed by the identity key. DEDUCED: notes/assumptions/96.md. -/
def certChain (d : Device) : List Byte :=
  Config.makerCert ++ Config.certOf Config.identityKey none ++
    Config.certOf (Config.aliasKey (stageRegs d)) (some Config.identityKey)

/-- IDENT's effect (R436). DEDUCED: notes/assumptions/96.md. -/
def doIdent (c : HostCmd) (s : State) : Out :=
  deviceCmd true s (
    if c.arg0 != 0 || c.arg1 != 0 || c.arg2 != 0 || !noData c then refuse c s
    else .next (respond c 0 (s.dev.fwver.setWidth 64) (certChain s.dev) s))

/-- SECSTAT's low 16 bits (R440). -/
def secstatLow (d : Device) : Nat :=
  d.rbcnt.toNat * 256 + fieldAt d.dbgok 2 + fieldAt d.recovery 1 + fieldAt d.verif 0

/-- The hash of a context's owner key, or zero (R437). -/
def ownerHash (d : Device) (n : Nat) : List Byte :=
  match ctxOf d n with
  | some x => sha384 x.owner
  | none => List.replicate 48 0

/-- The signed bytes of a quote (R437). DEDUCED: notes/assumptions/96.md. -/
def quoteBody (c : HostCmd) (d : Device) : List Byte :=
  natBytes 8 c.arg0.toNat ++ natBytes 8 c.arg1.toNat ++ natBytes 8 c.arg2.toNat ++ (c.data ++ List.replicate 24 0).take 24 ++
  d.meas.toList.flatMap regBytes ++ natBytes 2 (secstatLow d) ++ natBytes 2 c.ctx ++ natBytes 4 0 ++
  natBytes 8 d.time.toNat ++ ownerHash d c.ctx

/-- QUOTE's effect (R437). DEDUCED: notes/assumptions/96.md. -/
def doQuote (c : HostCmd) (s : State) : Out :=
  deviceCmd true s (
    let s := passTime s
    let b := quoteBody c s.dev
    if (c.data.drop 24).any (· != 0) then refuse c s else
    .next (respond c 0 0 (b ++ natBytes 96 (Config.signature (stageRegs s.dev) b).toNat) s))

/-- ERRREAD's effect (R377, R428). -/
def doErrread (c : HostCmd) (s : State) : Out :=
  deviceCmd true s (
    if c.arg2 != 0 || !noData c then refuse c s
    else
      let r := (s.dev.errors.drop c.arg0.toNat).take c.arg1.toNat
      .next (respond c 0 (wordOf r.length) r s))

/-! ## CREATE and DESTROY (R429, R438) -/

/-- The bays that live contexts own. -/
def ownedBays (d : Device) : BitVec 64 := d.ctxs.foldl (fun b c => if c.state == .dead then b else b ||| c.bays) 0

/-- The lowest context number that is free (R429). -/
def freeNumber (d : Device) : Option Nat := (List.range 16).find? fun n => (ctxOf d n).isNone

/-- The context that a parameter block asks for (R429). DESIGN CHOICE: notes/assumptions/75.md. -/
def newContext (n session : Nat) (b : List Byte) : Context where
  num := n
  serial := 0
  key := none
  born := 0
  session := session
  bays := wordOf (recNat b 0 8)
  quota := recNat b 8 8
  root := recNat b 16 8
  logBase := wordOf (recNat b 24 8)
  save := recNat b 32 8
  sink := wordOf (recNat b 40 8)
  cbudg := wordOf (recNat b 48 8)
  mode := BitVec.ofNat 2 (recByte b 56)
  policy := BitVec.ofNat 2 (recByte b 56 / 4)
  log2sz := recByte b 57
  dbg := recByte b 58 == 1
  sink2sz := recByte b 59
  ptime := recNat b 60 4
  owner := (b.drop 64).take 96
  peers := []
  used := []
  winNext := 0
  log := []
  logHead := 0
  logTail := 0
  gone := []
  droppedN := 0
  ulDropped := false
  ulRsv := false
  lines := []
  retired := []
  deferred := 0
  interval := 0
  armed := false
  rolledBack := 0
  watches := .replicate 16 none
  attached := false
  trigger := none
  launches := []
  nextLaunch := 0
  busy := []
  state := .running
  switchAt := none
  resumeAt := none
  ran := 0
  since := 0
  spent := false
  sinkHead := 0
  sinkTail := 0
  orphaned := 0
  unret := 0
  switchImg := none
  boundImg := none

/-- Whether a range of physical memory overlaps a frame of the joiner or of a context (R429). -/
def overlapsOwned (d : Device) (a n : Nat) : Bool :=
  d.owners.any fun p => (match p.2 with | .pool => false | _ => true) &&
    decide (p.1 * 65536 < a + n) && decide (a < p.1 * 65536 + 65536)

/-- Whether a parameter block is accepted (R429). -/
def blockLegal (d : Device) (b : List Byte) : Bool :=
  let x := newContext 0 0 b
  b.length == 160 && x.bays != 0 && x.bays >>> 56 == 0 && x.bays &&& (ownedBays d ||| d.lostBays) == 0 &&
  x.quota % 65536 == 0 && x.root % 4096 == 0 && x.save % 65536 == 0 && x.logBase.toNat % 2 ^ 21 == 0 &&
  decide (21 ≤ x.log2sz) && decide (x.log2sz ≤ 39) && decide (16 ≤ x.sink2sz) && decide (x.sink2sz ≤ 36) &&
  x.sink.toNat % 2 ^ x.sink2sz == 0 && recByte b 56 < 16 && x.policy != 3 &&
  !overlapsOwned d x.root 4096 && !overlapsOwned d x.save (2 * imageSize x) &&
  bits x.cbudg 31 10 == 0 && decide (recByte b 58 ≤ 1) && (!x.dbg || d.dbgok) &&
  decide (1 ≤ x.ptime) && decide (x.ptime ≤ 60000) && onCurve x.owner

/-- The core's context after a creation: its bay may now belong to the new one. -/
def claimHart (x : Context) (h : Hart) : Hart :=
  if isService h then h
  else if hasBay x (bayOfCore h.ar.core) then { h with ar := { h.ar with ctx := x.num } }
  else if h.ar.ctx = x.num then { h with ar := { h.ar with ctx := noCtx } }
  else h

/-- A context created (R429), with a key drawn for its memory (R438); in CHECKPOINT mode its first interval has a boundary image
(R374). DEDUCED: notes/assumptions/112.md. -/
def createContext (x : Context) (s : State) : State :=
  let x := { x with serial := s.dev.nextSerial, key := some (Config.drawnKey s.tick), born := s.dev.cycle, since := s.dev.time }
  let s := { s with tick := s.tick + 1 }
  let s := onHart (claimHart x) (onDev (fun d => { d with
    ctxs := (d.ctxs.filter fun c => c.num != x.num) ++ [x], nextSerial := d.nextSerial + 1 }) s)
  if x.mode = 3 then saveBoundary x.num s else s

/-- CREATE's effect (R429): its session must be encrypted (R427). DEDUCED: notes/assumptions/76.md. -/
def doCreate (c : HostCmd) (s : State) : Out :=
  deviceCmd false s (
    if !c.enc || c.arg0 != 0 || c.arg1 != 0 || c.arg2 != 0 || !blockLegal s.dev c.data then refuse c s
    else match freeNumber s.dev with
      | none => refuse c s
      | some n => .next (respond c 0 (wordOf n) [] (createContext (newContext n c.session c.data) s)))

/-- DESTROY's effect (R378, R427, R438). -/
def doDestroy (c : HostCmd) (s : State) : Out :=
  ownerCmd c s fun x =>
    if c.arg0 != 0 || c.arg1 != 0 || c.arg2 != 0 || !noData c then refuse c s
    else .next (respond c 0 0 [] (killContext x.num 1 0 none 0 s))

/-! ## MAP and UNMAP (R143, R144, R428, R438) -/

/-- An entry of a table at the home. -/
def tableEntry (d : Device) (t va lvl : Nat) : Nat := bytesNat (rawBytes d ⟨.dev, t + 8 * walkIndex va lvl⟩ 8)

/-- An entry written. -/
def putEntry (t va lvl e : Nat) (d : Device) : Device := rawPut d ⟨.dev, t + 8 * walkIndex va lvl⟩ (natBytes 8 e)

/-- The next table page of the pool, if it gives one (R428): one that a dead context has left, or a new one. -/
def poolPage (d : Device) : Option Nat :=
  match d.tables.find? fun t => t.2.isNone with
  | some t => some t.1
  | none =>
    let p := Config.tablePage d.tables.length * 4096
    let free := match ownerOf d (p / 65536) with | none => true | some .pool => true | _ => false
    if p < devEnd && free && !d.tables.any fun t => t.1 == p then some p else none

/-- A table page taken from the pool for a context, empty (R438). -/
def takePage (n p : Nat) (d : Device) : Device :=
  { wipe none p 4096 d with
    tables := (p, some n) :: d.tables.filter fun t => t.1 != p
    owners := (d.owners.filter fun o => o.1 != p / 65536) ++ [(p / 65536, .pool)] }

/-- The table below an entry: the one it names, or a new one; none if a page is mapped there or the pool is exhausted. -/
def nextTable (n t va lvl : Nat) (d : Device) : Option (Nat × Device) :=
  let e := tableEntry d t va lvl
  if e % 2 = 1 then (if e / 32 % 2 = 1 then none else some (e / 2 ^ 12 % 2 ^ 28 * 2 ^ 12, d))
  else match poolPage d with
    | none => none
    | some p => some (p, putEntry t va lvl (p + 1) (takePage n p d))

/-- A leaf written at level `lvl`, `n` levels below table `t` of level `l` (R144, R428). DEDUCED: notes/assumptions/77.md. -/
def mapLeaf (ctx va lvl e : Nat) : Nat → Nat → Nat → Device → Option Device
  | 0, _, _, _ => none
  | n + 1, l, t, d =>
    if l = lvl then (if tableEntry d t va l % 2 = 1 then none else some (putEntry t va l e d))
    else match nextTable ctx t va l d with
      | none => none
      | some (t, d) => mapLeaf ctx va lvl e n (l + 1) t d

/-- A leaf cleared (R428); none if no page of that size is mapped there. -/
def unmapLeaf (va lvl : Nat) : Nat → Nat → Nat → Device → Option Device
  | 0, _, _, _ => none
  | n + 1, l, t, d =>
    let e := tableEntry d t va l
    if e % 2 = 0 then none
    else if l = lvl then (if e / 32 % 2 = 1 then some (putEntry t va l 0 d) else none)
    else if e / 32 % 2 = 1 then none
    else unmapLeaf va lvl n (l + 1) (e / 2 ^ 12 % 2 ^ 28 * 2 ^ 12) d

/-- Whether a frame may be mapped by a context with a policy (R143, R146, R428). -/
def frameMappable (d : Device) (n : Nat) (unc : Bool) (f : Nat) : Bool :=
  (match ownerOf d f with | none => true | some o => o == .ctx n) && d.uncached.contains f == unc

/-- Frames that become a context's, written with zeros (R143, R438). -/
def claimFrames (n a z : Nat) (d : Device) : Device :=
  let new := (rangeFrom (a / 65536) (z / 65536)).filter fun f => (ownerOf d f).isNone
  new.foldl (fun d f => wipe none (f * 65536) 65536 d)
    { d with
      owners := d.owners ++ new.map fun f => (f, .ctx n)
      devPoison := d.devPoison.filter fun k => !new.contains (k / 1024) }

/-- The leaf entry of a page (R144). -/
def leafEntry (a2 : Word) (pa : Nat) : Nat := bits a2 41 40 * 2 ^ 40 + pa + 32 + bits a2 4 1 * 2 + 1

/-- The pages of a MAP written, from the `i`th on, or none where one is refused (R428). -/
def mapPages (x : Context) (c : HostCmd) (sz lvl : Nat) : Nat → Nat → Device → Option Device
  | 0, _, d => some d
  | k + 1, i, d =>
    let pa := c.arg1.toNat + i * sz
    if !((List.range (sz / 65536)).all fun j => frameMappable d x.num (bits c.arg2 41 40 == 1) (pa / 65536 + j)) then none
    else match mapLeaf x.num (c.arg0.toNat + i * sz) lvl (leafEntry c.arg2 pa) 4 1 x.root (claimFrames x.num pa sz d) with
      | none => none
      | some d => mapPages x c sz lvl k (i + 1) d

/-- The bits of ARG2 that MAP and UNMAP use (R428). -/
def mapBits : Word := 0x800003FFFFFFFFDE

/-- The page size and level of a command whose arguments are legal (R428). -/
def mapArgs (c : HostCmd) : Option (Nat × Nat) :=
  match pageSize c.arg2 with
  | none => none
  | some (sz, lvl) =>
    if c.arg2 &&& ~~~mapBits == 0 && pageCount c.arg2 != 0 && c.arg0.toNat % sz == 0 && c.arg1.toNat % sz == 0 &&
        decide (devBase ≤ c.arg0.toNat) && decide (c.arg0.toNat + pageCount c.arg2 * sz ≤ devTop) &&
        decide (c.arg1.toNat + pageCount c.arg2 * sz ≤ devEnd) then some (sz, lvl) else none

/-- MAP's effect (R428): nothing is written where it is refused. DEDUCED: notes/assumptions/77.md. -/
def doMap (c : HostCmd) (s : State) : Out :=
  ownerCmd c s fun x =>
    match mapArgs c with
    | none => refuse c s
    | some (sz, lvl) =>
      if c.arg2.getLsbD 63 || bits c.arg2 41 40 > 1 || !noData c then refuse c s
      else match mapPages x c sz lvl (pageCount c.arg2) 0 s.dev with
        | none => refuse c s
        | some d => .next (respond c 0 (wordOf (pageCount c.arg2)) [] { s with dev := d })

/-- The leaves of an UNMAP cleared, from the `i`th on, and how many there were. -/
def unmapPages (x : Context) (c : HostCmd) (sz lvl : Nat) : Nat → Nat → Nat → Device → Nat × Device
  | 0, _, n, d => (n, d)
  | k + 1, i, n, d => match unmapLeaf (c.arg0.toNat + i * sz) lvl 4 1 x.root d with
    | none => unmapPages x c sz lvl k (i + 1) n d
    | some d => unmapPages x c sz lvl k (i + 1) (n + 1) d

/-- The translation-cache entries of the pages dropped (R381). -/
def dropPages (x : Context) (c : HostCmd) (s : State) : State :=
  let s := onDev (fun d => { d with tlbs := d.tlbs.filter fun e => !(hasBay x (e.1 / 8) && inPages c e.2.vframe) }) s
  if inContext s.hart x.num then onClu (fun u => { u with tlb := u.tlb.filter fun e => !inPages c e.vframe }) s else s

/-- UNMAP's effect (R381, R428). DEDUCED: notes/assumptions/77.md. -/
def doUnmap (c : HostCmd) (s : State) : Out :=
  ownerCmd c s fun x =>
    match mapArgs c with
    | none => refuse c s
    | some (sz, lvl) =>
      if !c.arg2.getLsbD 63 || c.arg1 != 0 || !noData c then refuse c s
      else
        let (n, d) := unmapPages x c sz lvl (pageCount c.arg2) 0 0 s.dev
        .next (respond c 0 (wordOf n) [] (dropPages x c { s with dev := d }))

/-! ## EXPORT and IMPORT (R155, R439) -/

/-- The tensor that a transfer names, or the status that refuses it. -/
def hostTensor (c : HostCmd) (x : Context) (s : State) : Except Nat Tensor :=
  match tensorOf s.dev c.arg0.toNat with
  | none => .error 5
  | some t =>
    if t.ctx != x.num || t.freed || bits c.arg2 62 40 != 0 then .error 5
    else if !hasOp t 12 then .error 8
    else if c.arg1.toNat + bits c.arg2 39 0 > tBytes t then .error 5
    else .ok t

/-- A transfer at the homes: an export reads, as an engine does (R200), an import writes. DEDUCED: notes/assumptions/76.md. -/
def moveBytes (c : HostCmd) (s : State) : State :=
  let n := bits c.arg2 39 0
  let l : Loc := ⟨.ten c.arg0.toNat, c.arg1.toNat⟩
  let s := recallAt l n s
  if c.arg2.getLsbD 63 then respond c 0 (wordOf n) [] (homePut l c.data s)
  else if (poisonAt s.dev l n).isSome then respond c 0x0C 0 [] s
  else respond c 0 (wordOf n) (rawBytes s.dev l n) s

/-- Whether a transfer's turn at its tensor's order point has come (R165, R439). -/
def xferReady (id : Nat) (c : HostCmd) (s : State) : Bool := copyReady s id [c.arg0.toNat]

/-- A transfer whose turn has come: one that stands behind a free is refused (R169). -/
def runXfer (id : Nat) (c : HostCmd) (s : State) : State :=
  match copyDead s id [c.arg0.toNat] with
  | some h => entryDone h (2 * id + 1) (respond c 5 0 [] s)
  | none => entryDone c.arg0.toNat (2 * id + 1) (moveBytes c s)

/-- A transfer placed at its tensor's order point (R439); it waits there behind re-representations and frees. -/
def placeXfer (c : HostCmd) (t : Tensor) (s : State) : State :=
  let id := s.dev.nextEng
  let s := onDev (fun d => { d with nextEng := d.nextEng + 1 }) (placeEngine id t.h s)
  if xferReady id c s then runXfer id c s else { s with waiting := s.waiting ++ [.xfer id c] }

/-- EXPORT's effect (R439): it reads at the homes. DEDUCED: notes/assumptions/76.md. -/
def doExport (c : HostCmd) (s : State) : Out :=
  ownerCmd c s fun x =>
    if !noData c then refuse c s else
    match hostTensor c x s with
    | .error e => .next (respond c e 0 [] s)
    | .ok t => .next (placeXfer c t s)

/-- IMPORT's effect (R439): it writes at the homes. -/
def doImport (c : HostCmd) (s : State) : Out :=
  ownerCmd c s fun x => match hostTensor c x s with
    | .error e => .next (respond c e 0 [] s)
    | .ok t => if c.data.length = bits c.arg2 39 0 then .next (placeXfer c t s) else refuse c s

/-! ## PREEMPT, RESUME, SAFESAVE (R18, R369, R370) -/

/-- PREEMPT's effect (R369): a context that its budget stopped stays stopped. DEDUCED: notes/assumptions/78.md. -/
def doPreempt (c : HostCmd) (s : State) : Out :=
  ownerCmd c s fun x =>
    if c.arg0 != 0 || c.arg1 != 0 || c.arg2 != 0 || !noData c then refuse c s else
    let s := passTime s
    match x.state with
    | .running =>
      let t := x.switchAt.getD (switchTime s.dev.time)
      .next (respond c 0 (wordOf t) [] (onCtx x.num (fun x => { x with switchAt := some t, spent := false }) s))
    | .stopped 2 =>
      .next (respond c 0 (wordOf (switchTime s.dev.time)) []
        (onCtx x.num (fun x => { x with resumeAt := none, spent := false }) s))
    | _ => refuse c s

/-- STATUS.PRN set on every thread of a context (R370). DEDUCED: notes/assumptions/67.md. -/
def setPrn (x : Context) (on : Bool) (s : State) : State :=
  if on && inContext s.hart x.num then onHart (fun h => { h with tr := { h.tr with prn := true } }) s else s

/-- RESUME's effect (R370, R373): a context that was saved is restored first. DEDUCED: notes/assumptions/78.md. -/
def doResume (c : HostCmd) (s : State) : Out :=
  ownerCmd c s fun x =>
    if c.arg0 != 0 || c.arg1.toNat > 1 || bits c.arg2 62 0 != 0 || !noData c || s.dev.fatal then refuse c s else
    let s := passTime s
    let t := switchTime s.dev.time
    match x.state with
    | .saved =>
      let (v, s) := loadSwitch x s
      if v = 0 then .next (respond c 0 (wordOf t) [] (setPrn x (c.arg1 == 1) s)) else .next (respond c v 0 [] s)
    | .stopped 5 => refuse c s
    | .stopped _ =>
      .next (respond c 0 (wordOf t) [] (setPrn x (c.arg1 == 1) (onCtx x.num (fun x => { x with resumeAt := some t }) s)))
    | _ => refuse c s

/-- The frames of a context. -/
def framesOf (d : Device) (n : Nat) : List Nat := d.owners.filterMap fun p => if p.2 == .ctx n then some p.1 else none

/-- The pages of a context's translation tables: those that the pool gave it, and its root table (R144, R428). -/
def tablePagesOf (d : Device) (x : Context) : List Nat :=
  x.root / 4096 :: d.tables.filterMap fun t => if t.2 == some x.num then some (t.1 / 4096) else none

/-- A context's memory: the bytes of its frames and of its translation tables (R18, R438). -/
def contextMem (d : Device) (x : Context) : Mem :=
  d.dmem.filter fun e => (framesOf d x.num).contains (e.1 / 65536) || (tablePagesOf d x).contains (e.1 / 4096)

/-- The tensors of a context, which are its memory too (R164). -/
def tensorsOf (d : Device) (x : Context) : List Tensor := d.tensors.filter fun t => t.ctx == x.num

/-- The bytes that SAFESAVE sends. DEDUCED: notes/assumptions/76.md. -/
def safeSize (d : Device) (x : Context) : Nat :=
  65536 * (framesOf d x.num).length + 4096 * ((tablePagesOf d x).filter fun p => !(framesOf d x.num).contains (p / 16)).length +
  ((tensorsOf d x).map tBytes).sum + if x.boundImg.isSome then imageSize x else 0

/-- SAFESAVE's effect (R18, R427): the boundary image and the context's memory, its tensors and tables among it, go to the target.
DEDUCED: notes/assumptions/76.md. -/
def doSafesave (c : HostCmd) (s : State) : Out :=
  ownerCmd c s fun x =>
    if c.arg1 != 0 || c.arg2 != 0 || !noData c then refuse c s else
    .next (respond c 0 (wordOf (safeSize s.dev x)) [] (onDev (fun d => { d with
      out := d.out ++ [.safe x.num c.arg0 x.boundImg (contextMem d x) (tensorsOf d x)] }) s))

/-! ## SETPEER, SETLOG, TRDRAIN (R385, R428, R430, R431) -/

/-- SETPEER's effect (R431, R432): a new entry has its session key from the exchange that it starts.
DESIGN CHOICE: notes/assumptions/107.md. -/
def doSetpeer (c : HostCmd) (s : State) : Out :=
  ownerCmd c s fun x =>
    let i := bits c.arg0 5 0
    let clear := c.arg0.getLsbD 8
    if c.arg0 &&& ~~~0x13F#64 != 0 || c.arg2 != 0 || (if clear then !noData c else c.data.length != 96) then refuse c s else
    let new : List Peer := if clear then [] else
      [{ idx := i, ctx := c.arg1, key := c.data, sess := Config.sessionKey s.tick, packets := 0, since := s.dev.time, old := none }]
    .next (respond c 0 0 [] (onCtx x.num (fun x => { x with peers := (x.peers.filter fun p => p.idx != i) ++ new })
      { s with tick := s.tick + 1 }))

/-- Whether a context has a thread or a live join (R428). -/
def contextBusy (s : State) (x : Context) : Bool :=
  (x.busy.any fun b => b.1 != s.hart.ar.core) ||
  (inContext s.hart x.num && (s.hart.thread == .running || !s.clu.joins.isEmpty))

/-- The interval's log closed as CHECKPOINT mode is left (R428). -/
def leaveCheckpoint (x : Context) : Context :=
  logAdvance { x with
    lines := [], deferred := 0, boundImg := none
    log := modWhere (fun e => e.kind == 8) (fun e => { e with freed := true }) x.log }

/-- SETLOG's effect (R374, R385, R428). -/
def doSetlog (c : HostCmd) (s : State) : Out :=
  ownerCmd c s fun x =>
    let m : BitVec 2 := c.arg0.setWidth 2
    if c.arg0.toNat ≥ 12 || c.arg1 != 0 || c.arg2 != 0 || !noData c || contextBusy s x then refuse c s else
    let s := onCtx x.num (fun k =>
      let k := if k.mode = 3 && m != 3 then leaveCheckpoint k else k
      { k with mode := m, policy := BitVec.ofNat 2 (c.arg0.toNat / 4) }) s
    .next (respond c 0 0 [] (if m = 3 && x.mode != 3 then takeBoundary x.num s else s))

/-- TRDRAIN's effect (R430). -/
def doTrdrain (c : HostCmd) (s : State) : Out :=
  ownerCmd c s fun x =>
    if c.arg0.toNat % 64 != 0 || c.arg1 != 0 || c.arg2 != 0 || !noData c then refuse c s else
    let n := min c.arg0.toNat (x.sinkTail - x.sinkHead)
    let bs := (List.range (n / 64)).flatMap fun i =>
      getVa s.dev x.num (x.sink.toNat + (x.sinkHead + 64 * i) % 2 ^ x.sink2sz) 64
    .next (onCtx x.num (fun x => { x with sinkHead := x.sinkHead + n }) (respond c 0 (wordOf n) bs s))

/-! ## The commands as they arrive (R426, R427) -/

/-- IDENT (R427). -/
def execIdent (c : HostCmd) (s : State) : Out := arriveCmd (coded 0x01 c) doIdent s
/-- QUOTE (R427). -/
def execQuote (c : HostCmd) (s : State) : Out := arriveCmd (coded 0x02 c) doQuote s
/-- ERRREAD (R427). -/
def execErrread (c : HostCmd) (s : State) : Out := arriveCmd (coded 0x03 c) doErrread s
/-- CREATE (R427). -/
def execCreate (c : HostCmd) (s : State) : Out := arriveCmd (coded 0x10 c) doCreate s
/-- DESTROY (R427). -/
def execDestroy (c : HostCmd) (s : State) : Out := arriveCmd (coded 0x11 c) doDestroy s
/-- MAP (R427). -/
def execMap (c : HostCmd) (s : State) : Out := arriveCmd (chosen 0x12 false c) doMap s
/-- UNMAP (R427). -/
def execUnmap (c : HostCmd) (s : State) : Out := arriveCmd (chosen 0x12 true c) doUnmap s
/-- EXPORT (R427). -/
def execExportT (c : HostCmd) (s : State) : Out := arriveCmd (chosen 0x14 false c) doExport s
/-- IMPORT (R427). -/
def execImportT (c : HostCmd) (s : State) : Out := arriveCmd (chosen 0x14 true c) doImport s
/-- PREEMPT (R427). -/
def execPreempt (c : HostCmd) (s : State) : Out := arriveCmd (chosen 0x15 false c) doPreempt s
/-- RESUME (R427). -/
def execResume (c : HostCmd) (s : State) : Out := arriveCmd (chosen 0x15 true c) doResume s
/-- SAFESAVE (R427). -/
def execSafesave (c : HostCmd) (s : State) : Out := arriveCmd (coded 0x16 c) doSafesave s
/-- SETPEER (R427). -/
def execSetpeer (c : HostCmd) (s : State) : Out := arriveCmd (coded 0x17 c) doSetpeer s
/-- SETLOG (R427). -/
def execSetlog (c : HostCmd) (s : State) : Out := arriveCmd (coded 0x19 c) doSetlog s
/-- TRDRAIN (R427). -/
def execTrdrain (c : HostCmd) (s : State) : Out := arriveCmd (coded 0x1A c) doTrdrain s

/-- A code that the table does not have (R426). -/
def doUnknown (c : HostCmd) (s : State) : Out := if s.dev.booted then .next (respond c 0xFF 0 [] s) else .next s

/-- The codes of R427. -/
def knownCode (n : Nat) : Bool := (decide (1 ≤ n) && decide (n ≤ 3)) || (decide (0x10 ≤ n) && decide (n ≤ 0x1A))

/-- UNKNOWN_COMMAND (R426). -/
def execUnknownCommand (c : HostCmd) (s : State) : Out :=
  arriveCmd (if knownCode c.code then coded 0xFFFF c else c) doUnknown s

end Sys2Proof.Machine
end

