-- ==== Sys2Proof/Machine/Control.lean ====
section
/-! DEFINITION. Branches, jumps, the repeat frame, and instruction memory with its code fetches (R40 to R42, R86 to R97). -/

namespace Sys2Proof.Machine

/-! ## Instruction memory (R90, R91) -/

/-- The segment of an address. -/
def segOf (h : Hart) (a : IAddr) : Seg := h.segs[a.toNat / 4096]'(by omega)

/-- The word at an address, assembled little-endian (R28). -/
def imemWord (h : Hart) (a : IAddr) : IWord := BitVec.ofNat 32 (memNat h.imem a.toNat 4)

/-- R91: what is wrong with a fetch at an address: the cause's code and TVAL. -/
def fetchFault (h : Hart) (a : IAddr) : Option (Byte × Word) :=
  let g := segOf h a
  if g.st = .empty || g.st = .fetching then some (causeCode .codeNotLanded, a.setWidth 64)
  else if h.mode = .u && decide (a.toNat < 4096) then some (causeCode .protection, a.setWidth 64)
  else if g.st = .failed then some (g.cause, g.addr)
  else none

/-! ## Branches and jumps (R86 to R89) -/

/-- A branch: taken it goes to its target, else to the next word. -/
def branch (taken : Bool) (o : BitVec 12) (s : State) : Out :=
  finishAt s [] (if taken then target12 s.hart.pc o else s.hart.pc + 4) s

/-- BEQ (R86). -/
def execBeq (a b : Reg) (o : BitVec 12) (s : State) : Out := branch (xr s a == xr s b) o s
/-- BNE (R86). -/
def execBne (a b : Reg) (o : BitVec 12) (s : State) : Out := branch (xr s a != xr s b) o s
/-- BLT (R86). -/
def execBlt (a b : Reg) (o : BitVec 12) (s : State) : Out := branch (sltW (xr s a) (xr s b)) o s
/-- BGE (R86). -/
def execBge (a b : Reg) (o : BitVec 12) (s : State) : Out := branch (!sltW (xr s a) (xr s b)) o s
/-- BLTN (R86). -/
def execBltn (a b : Reg) (o : BitVec 12) (s : State) : Out := branch (ultW (xr s a) (xr s b)) o s
/-- BGEN (R86). -/
def execBgen (a b : Reg) (o : BitVec 12) (s : State) : Out := branch (!ultW (xr s a) (xr s b)) o s

/-- A jump with its link. -/
def jump (d : Reg) (t : IAddr) (s : State) : Out := finishAt s [d.toNat] t (setX d (linkOf s) s)

/-- Whether a fenced jump waits: its segment is being fetched (R89). -/
def jumpWaits (h : Hart) (t : IAddr) : Bool := (segOf h t).st == .fetching

/-- JAL (R87). -/
def execJal (d : Reg) (o : BitVec 20) (s : State) : Out := jump d (target20 s.hart.pc o) s

/-- JR (R88). -/
def execJr (d a : Reg) (s : State) : Out :=
  let t := xr s a
  if t.toNat % 4 != 0 then trap .misaligned t s else jump d (t.setWidth 16) s

/-- JRF (R88, R89): the alignment is checked before the wait. -/
def execJrf (d a : Reg) (s : State) : Out :=
  let t := xr s a
  if t.toNat % 4 != 0 then trap .misaligned t s
  else if jumpWaits s.hart (t.setWidth 16) then hold s else jump d (t.setWidth 16) s

/-- JF (R89). -/
def execJf (d : Reg) (o : BitVec 20) (s : State) : Out :=
  let t := target20 s.hart.pc o
  if jumpWaits s.hart t then hold s else jump d t s

/-! ## RPT (R25, R40 to R42, R96) -/

/-- The addresses of the captured words, modulo 2^16 (R96). -/
def frameAddrs (pc : IAddr) (len : Nat) : List IAddr := (List.range len).map fun i => pc + BitVec.ofNat 16 (4 * (i + 1))

/-- RPT: the words are fetched and checked before any executes, then decoded, and the frame begins (R40). -/
def execRpt (r n : BitVec 4) (d k : BitVec 5) (s : State) : Out :=
  let len := n.toNat + 1
  let addrs := frameAddrs s.hart.pc len
  match addrs.findSome? (fetchFault s.hart) with
  | some (c, v) => .next (takeTrap c v s.hart.pc 0 false s)
  | none =>
    let ws := addrs.map (imemWord s.hart)
    match ws.find? fun w => !capturable w || ((decodeLow w).filter wf).isNone with
    | some w => illegal w s
    | none =>
      let f : Frame := ⟨s.hart.pc, r.toNat + 1, len, d.toNat, k.toNat, 0, 0, ws⟩
      .next (retired s [] false (onHart (fun h => { h with pc := h.pc + 4, frame := some f }) s))

/-! ## CFETCH and CFSTAT (R92 to R94) -/

/-- A segment set. -/
def setSeg (k : Nat) (g : Seg) (s : State) : State := onHart (fun h => { h with segs := h.segs.setIfInBounds k g }) s

/-- CFETCH (R92): the segment enters FETCHING, and a fetch in flight into it is cancelled (R94.2). -/
def execCfetch (a b : Reg) (s : State) : Out :=
  let v := xr s a
  let k := xr s b
  if v.toNat % 4096 != 0 then trap .misaligned v s
  else if k.toNat > 15 then trap .protection k s
  else if k = 0 && s.hart.mode == .u then trap .protection k s
  else finishFx s [] (setSeg k.toNat ⟨.fetching, 0, v, s.hart.mode == .u⟩ s)

/-- The code of a segment's state (R90). -/
def segCode : SegState → Nat
  | .landed => 0
  | .fetching => 1
  | .empty => 2
  | .failed => 3

/-- CFSTAT (R93). -/
def execCfstat (d a : Reg) (s : State) : Out :=
  let k := xr s a
  if k.toNat > 15 then trap .protection k s
  else
    let g := s.hart.segs.getD k.toNat Seg.reset
    aluWrite d (wordOf ((if g.st = .failed then g.cause.toNat * 256 else 0) + segCode g.st)) s

/-- The reads of a code fetch: those of .BY loads of the image's 32 lines (R94.1). -/
def fetchLines (s : State) (g : Seg) (l : Leaf) : List LoadReq :=
  (List.range 32).map fun i =>
    { id := 0, seq := s.hart.nextSeq + 1, pos := 0, size := 128, signed := false, loc := ⟨.dev, l.pa + 128 * i⟩
      region := if l.unc then .unc else .wb, va := g.addr + wordOf (128 * i), point := .cvp, org := originOf s }

/-- A line that a code fetch reads allocates on a miss, as for a .BY load, where the pool has room (R136, R139). -/
def fetchFill (s : State) (r : LoadReq) : State :=
  if !willFill s r then s else
  let s := roomFor r.loc false s
  if cmRoom s r.loc false then cmFill r.loc s else s

/-- CODE_FETCH_COMPLETE (R90, R92, R94): after the core's earlier stores have reached the CVP, the image is read as a .BY load reads,
and the segment is LANDED whole, or FAILED with the cause and the address of the fault. An address that is none of device virtual memory
fails with Translation. DESIGN CHOICE: notes/assumptions/110.md. -/
def execCodeFetchComplete (k : Nat) (s : State) : Out :=
  let g := s.hart.segs.getD k Seg.reset
  if g.st != .fetching || k > 15 || !s.hart.sq.isEmpty then .next s else
  let fail := fun (c : Byte) (a : Word) (s : State) => setSeg k { g with st := .failed, cause := c, addr := a } s
  if !isDevVa g.addr then .next (fail (causeCode .translation) g.addr s) else
  match translate s g.user true ⟨false, false, 0⟩ g.addr with
  | .error (c, v, _) => .next (fail (causeCode c) v s)
  | .ok (l, s1) =>
    let rs := fetchLines s1 g l
    if !rs.all (canPerform s1) then .next s else
    match rs.findSome? fun r => (loadPoison s1 r).map fun i => r.va + wordOf i with
    | some a => .next (fail (causeCode .poison) a s1)
    | none =>
      .next (setSeg k { g with st := .landed } (onHart (fun h => { h with
        imem := memPut h.imem (4096 * k) (rs.flatMap (loadBytes s1)) }) (rs.foldl fetchFill s1)))

end Sys2Proof.Machine
end

