-- ==== Sys2Proof/Machine/Launch.lean ====
section
/-! DEFINITION. Launches: the LAUNCH command (R237, R238), the placing of groups and the start of a thread (R76, R239, R241),
and the freeing of a retired thread's resources (R240). -/

namespace Sys2Proof.Machine

/-! ## The launch record (R237) -/

/-- The fields of a launch record (R237). -/
structure LaunchRec where
  image : Nat
  entry : Nat
  nseg : Nat
  flags : Nat
  gsize : Nat
  groups : Nat
  allot : Nat
  slots : Nat
  dom : Nat
  prio : Nat
  lsfoot : Nat
  stack : Nat
  scratch : Nat
  grain : Nat
  rlo : Nat
  rhi : Nat
  rstep : Nat
  const : Nat
  lsimg : Nat
  lslen : Nat
  deriving DecidableEq, Repr

/-- A record's fields from its 128 bytes (R237). -/
def launchRec (r : List Byte) : LaunchRec where
  image := recNat r 0 8
  entry := recNat r 8 2
  nseg := recByte r 10
  flags := recByte r 11
  gsize := recNat r 12 2
  groups := recNat r 16 4
  allot := recByte r 20
  slots := recByte r 21
  dom := recByte r 22
  prio := recByte r 23
  lsfoot := recNat r 24 4
  stack := recNat r 28 4
  scratch := recNat r 32 4
  grain := recNat r 36 4
  rlo := recNat r 40 8
  rhi := recNat r 48 8
  rstep := recNat r 56 8
  const := recNat r 64 8
  lsimg := recNat r 72 8
  lslen := recNat r 80 4

/-- A virtual address of a context checked as an access of the host service or of a U-mode code fetch (R145, R146). -/
def ctxLeaf (d : Device) (n : Nat) (fetch : Bool) (need : Need) (va : Nat) : Chk Leaf := do
  check (isDevVa (wordOf va)) .translation (wordOf va)
  match walk d n va with
  | none => .error (.translation, wordOf va, 0)
  | some l =>
    leafChecks d n fetch fetch need (wordOf va) l
    .ok l

/-- Whether every byte of a range, and its address in any case, may be reached (R238, R429). -/
def rangeOk (d : Device) (n : Nat) (fetch : Bool) (need : Need) (va len : Nat) : Bool :=
  (rangeFrom (va / 65536) ((va + max 1 len - 1) / 65536 - va / 65536 + 1)).all fun f =>
    (ctxLeaf d n fetch need (max va (f * 65536))).isOk

/-- A byte of a context read for the host service or a placed core at the CVP, or the fault (R238). -/
def readByte (s : State) (n va : Nat) : Except (Cause × Word) Byte :=
  match ctxLeaf s.dev n false ⟨true, false, 0⟩ va with
  | .error (c, a, _) => .error (c, a)
  | .ok l =>
    if (poisonAt s.dev ⟨.dev, l.pa⟩ 1).isSome then .error (.poison, wordOf va)
    else .ok ((cvpBytes s ⟨.dev, l.pa⟩ 1).getD 0 0)

/-- Bytes of a context, or the first fault. -/
def readVa (s : State) (n va len : Nat) : Except (Cause × Word) (List Byte) := (rangeFrom va len).mapM (readByte s n)

/-- The rules of a launch record, in ascending order of the field's offset (R237, R238). -/
def launchRules (d : Device) (n : Nat) (r : List Byte) : List (Bool × Nat) :=
  let x := launchRec r
  let rd : Need := ⟨true, false, 0⟩
  [ (x.image % 4096 == 0 && rangeOk d n true ⟨false, false, 0⟩ x.image (min x.nseg 15 * 4096), 0),
    (x.entry % 4 == 0 && decide (4096 ≤ x.entry) && decide (x.entry < (x.nseg + 1) * 4096), 8),
    (decide (1 ≤ x.nseg) && decide (x.nseg ≤ 15), 10), (x.flags / 4 == 0, 11),
    (decide (1 ≤ x.gsize) && decide (x.gsize ≤ 16), 12) ] ++ zeroRules r 14 2 ++
  [ (decide (1 ≤ x.groups) && decide (x.groups ≤ 7168), 16),
    (x.allot == 8 || x.allot == 16 || x.allot == 24 || x.allot == 32, 20), (decide (x.slots ≤ 8), 21),
    (decide (x.dom ≤ 5), 22), (decide (x.prio ≤ 3), 23),
    (x.lsfoot % 4096 == 0 && decide (4096 ≤ x.lsfoot) && decide (x.lsfoot ≤ 131072), 24),
    (x.stack % 16 == 0 && decide (x.stack ≤ x.lsfoot), 28),
    (x.scratch % 65536 == 0 && decide (x.scratch ≤ 3840 * 1024), 32), (decide (1 ≤ x.grain), 36),
    (decide (x.rlo ≤ x.rhi), 48), (decide (1 ≤ x.rstep), 56),
    (x.const == 0 || rangeOk d n false rd x.const 256, 64),
    (x.lsimg == 0 || rangeOk d n false rd x.lsimg x.lslen, 72),
    (x.lslen % 128 == 0 && decide (x.lslen ≤ x.lsfoot), 80) ] ++ zeroRules r 84 44

/-- Whether the log area and the trace sink are mapped for reading and writing (R429). -/
def areasMapped (d : Device) (x : Context) : Bool :=
  let rw : Need := ⟨true, true, 0⟩
  rangeOk d x.num false rw x.logBase.toNat (2 ^ x.log2sz) && rangeOk d x.num false rw x.sink.toNat (2 ^ x.sink2sz)

/-- LAUNCH's effect (R237, R238, R429); on a refusal VALUE is the offset of the first failing field.
DEDUCED: notes/assumptions/76.md. -/
def doLaunch (c : HostCmd) (s : State) : Out :=
  ownerCmd c s fun x =>
    if c.arg1 != 0 || c.arg2 != 0 || !noData c || !areasMapped s.dev x then refuse c s else
    let s := uoRecallAll (fun _ => true) s
    match readVa s x.num c.arg0.toNat 128 with
    | .error e => .next (respond c (causeCode e.1).toNat 0 [] s)
    | .ok r =>
      match firstBroken (launchRules s.dev x.num r) with
      | some o => .next (respond c 5 (wordOf o) [] s)
      | none => .next (respond c 0 (wordOf x.nextLaunch) [] (onCtx x.num (fun x => { x with
          nextLaunch := x.nextLaunch + 1, launches := x.launches ++ [⟨x.nextLaunch, r, 0, none⟩] }) s))

/-- LAUNCH (R427). -/
def execLaunch (c : HostCmd) (s : State) : Out := arriveCmd (coded 0x13 c) doLaunch s

/-! ## Placement (R239) -/

/-- The clusters of a partition, in ascending order. -/
def partClusters (x : Context) : List Nat := (List.range 448).filter fun k => hasBay x (k / 8)

/-- The clusters in the order in which a group visits them. -/
def visitOrder (x : Context) (last : Option Nat) : List Nat :=
  let l := partClusters x
  match last with
  | none => l
  | some k => (l.filter fun c => decide (k < c)) ++ l.filter fun c => decide (c ≤ k)

/-- Whether a core's resources are free: a thread holds all it uses until they are freed (R239, R240). No launch names a
service core: its number is past theirs (R13). -/
def coreFree (s : State) (x : Context) (core : Nat) : Bool :=
  (x.busy.all fun b => b.1 != core) && (core != s.hart.ar.core || s.hart.thread == .idle)

/-- The record of a launch by its number. -/
def launchOf (x : Context) (n : Nat) : Option Launch := x.launches.find? fun l => l.n == n

/-- Whether the other launches with threads on a cluster state the same scratch size (R239). -/
def scratchFits (x : Context) (l : Launch) (k : Nat) : Bool :=
  x.busy.all fun b => clusterOfCore b.1 != k || match launchOf x b.2.1 with
    | some y => (launchRec y.record).scratch == (launchRec l.record).scratch
    | none => true

/-- The cores that a group takes on a cluster, if it fits (R239). -/
def groupCores (s : State) (x : Context) (l : Launch) (k : Nat) : Option (List Nat) :=
  let cs := (rangeFrom (16 * k) 16).filter (coreFree s x)
  let n := (launchRec l.record).gsize
  if n ≤ cs.length && scratchFits x l k then some (cs.take n) else none

/-- The cluster and the cores that the next group of a launch takes (R239). DEDUCED: notes/assumptions/79.md. -/
def groupPlace (s : State) (x : Context) (l : Launch) : Option (Nat × List Nat) :=
  (visitOrder x l.lastCluster).findSome? fun k => (groupCores s x l k).map fun cs => (k, cs)

/-! ## The start of a thread (R24, R76, R90, R241) -/

/-- A segment of the code image fetched (R90, R92, R238), read as a CFETCH reads. DESIGN CHOICE: notes/assumptions/110.md. -/
def placeSeg (n base k : Nat) (s : State) : State :=
  let va := base + (k - 1) * 4096
  match ctxLeaf s.dev n true ⟨false, false, 0⟩ va with
  | .error (c, a, _) => setSeg k ⟨.failed, causeCode c, a, true⟩ s
  | .ok l =>
    let rs := fetchLines s ⟨.fetching, 0, wordOf va, true⟩ l
    match rs.findSome? fun r => (loadPoison s r).map fun i => r.va + wordOf i with
    | some a => setSeg k ⟨.failed, causeCode .poison, a, true⟩ s
    | none => setSeg k ⟨.landed, 0, 0, true⟩ (onHart (fun h => { h with
        imem := memPut h.imem (4096 * k) (rs.flatMap (loadBytes s)) }) s)

/-- The code image in segments 1 to NSEG; segment 0 keeps the runtime's code (R90, R241).
DESIGN CHOICE: notes/assumptions/74.md. -/
def placeCode (n : Nat) (r : LaunchRec) (s : State) : State :=
  let s := onHart (fun h => { h with
    segs := (Vector.replicate 16 Seg.reset).set 0 { Seg.reset with st := .landed }
    imem := h.imem.filter fun e => decide (e.1 < 4096) }) s
  (rangeFrom 1 r.nseg).foldl (fun s k => placeSeg n r.image k s) s

/-- Eight bytes of the LS image: where one cannot be read, the LS granule is poisoned (R238, R241). -/
def placeLsPart (n : Nat) (r : LaunchRec) (core i : Nat) (s : State) : State :=
  let l : Loc := ⟨.ls core, 8 * i⟩
  match readVa s n (r.lsimg + 8 * i) 8 with
  | .error _ => poisonRange l 8 s
  | .ok bs => onDev (fun d => rawPut d l bs) s

/-- The LS: the image from address 0, and every other byte zero (R241). -/
def placeLs (n : Nat) (r : LaunchRec) (core : Nat) (s : State) : State :=
  let mine := fun (k : Nat) => decide (lsKey core 0 ≤ k) && decide (k < lsKey (core + 1) 0)
  let s := onDev (fun d => { d with
    ls := d.ls.filter fun e => !mine e.1
    lsPoison := d.lsPoison.filter fun k => !mine (8 * k) }) s
  if r.lsimg = 0 then s else (List.range (r.lslen / 8)).foldl (fun s i => placeLsPart n r core i s) s

/-- The constant bank's 32 entries, or the fault met while it is read (R24, R238). -/
def readBank (n : Nat) (r : LaunchRec) (s : State) : Except (Cause × Word) (List Word) :=
  if r.const = 0 then .ok (List.replicate 32 0) else
  (readVa s n r.const 256).map fun bs => (List.range 32).map fun i => wordOf (recNat bs (8 * i) 8)

/-- The first task's range of thread `t` (R241). -/
def firstRange (r : LaunchRec) (t : Nat) : Nat × Nat :=
  let lo := min (r.rlo + t * r.rstep) r.rhi
  (lo, min (lo + r.rstep) r.rhi)

/-- The barrier slots of a thread: its group's mask (R76, R225). -/
def groupMask (cores : List Nat) : Word := wordOf (cores.foldl (fun m c => m + 2 ^ (c % 16)) 0)

/-- Lists of words as a register file. -/
def bankOf (l : List Word) : Vector Word 32 := Vector.ofFn fun i => l.getD i.val 0

/-- The registers of a thread that starts (R76, R99, R240, R241, R245, R261): `m` is its index in group `g` of launch `l`.
DESIGN CHOICE: notes/assumptions/74.md. -/
def startHart (x : Context) (l : Launch) (g m : Nat) (cores : List Nat) (bank : List Word) (h : Hart) : Hart :=
  let r := launchRec l.record
  let t := firstRange r (g * r.gsize + m)
  let e : Hart := emptyHart h
  let mask := groupMask cores
  { e with
    thread := .running
    mode := .u
    pc := BitVec.ofNat 16 r.entry
    imem := h.imem, segs := h.segs
    regs := { e.regs with
      x := (((Vector.replicate 32 (0 : Word)).set 2 (wordOf r.stack)).set 4 (wordOf t.1)).set 5 (wordOf t.2)
      cbank := bankOf bank, allot := r.allot }
    ar := { e.ar with ctx := x.num, nbv := r.flags % 2 == 1, lfsr := wordOf (h.ar.core + 1) }
    tr := { e.tr with tvec := h.tr.tvec }
    ss := { e.ss with level := BitVec.ofNat 3 r.dom, next := BitVec.ofNat 3 r.dom }
    tk := { e.tk with
      launch := BitVec.ofNat 16 l.n, member := BitVec.ofNat 4 m, gsize := BitVec.ofNat 5 r.gsize
      gidx := BitVec.ofNat 13 g, prio := BitVec.ofNat 2 r.prio, run := true, ktrap := r.flags / 2 % 2 == 1 }
    dbg := { e.dbg with bps := h.dbg.bps, trapStep := h.dbg.trapStep }
    slots := .replicate 8 { Slot.reset with bmem := mask }
    nslots := r.slots }

/-- A thread's first task as the cluster keeps it: it runs at once, with an identifier of its own (R241, R248). -/
def firstTask (l : Launch) (m core tid : Nat) : Task :=
  let r := launchRec l.record
  let t := firstRange r (l.placed * r.gsize + m)
  { tid := wordOf tid, launch := l.n, entry := BitVec.ofNat 16 r.entry, prio := r.prio, level := r.prio, waited := 0, order := 0
    hold := false, grain := r.grain, lo := wordOf t.1, hi := wordOf t.2, fsrc := 0, fdst := 0, flen := 0, join := 0, member := 0
    dep := 0, spawner := some core, ret := none, running := some core, pin := none }

/-- The first tasks of a group on the core's cluster, and the cluster's scratch size (R132, R241).
DEDUCED: notes/assumptions/79.md. -/
def placeTasks (l : Launch) (cores : List Nat) (u : Cluster) : Cluster :=
  let r := launchRec l.record
  { u with
    scratch := r.scratch, lsfoot := r.lsfoot, nextTid := u.nextTid + cores.length
    tasks := u.tasks ++ cores.mapIdx fun m c => firstTask l m c (u.nextTid + m) }

/-- The core's first task becomes its thread's, and the thread's first window opens (R261, R390).
DESIGN CHOICE: notes/assumptions/75.md. -/
def beginTask (core : Nat) (s : State) : State :=
  let tid := match runningOn s core with | some t => t.tid | none => 0
  let s := openWindow false s
  onHart (fun h => { h with tk := { h.tk with tid := tid, win := h.tc.ulwin } }) s

/-- The core set up for its thread (R241), which takes a fault of the constant bank as a trap before its first instruction
(R238). DESIGN CHOICE: notes/assumptions/10.md. -/
def startThread (x : Context) (l : Launch) (m : Nat) (cores : List Nat) (s : State) : State :=
  let r := launchRec l.record
  let core := s.hart.ar.core
  let s := placeLs x.num r core (placeCode x.num r (uoRecallAll (fun _ => true) s))
  let (bank, fault) := match readBank x.num r s with
    | .ok b => (b, none)
    | .error e => (List.replicate 32 0, some e)
  let s := onClu (fun u => { u with group := cores }) (onHart (startHart x l l.placed m cores bank) s)
  let s := beginTask core s
  match fault with
  | none => s
  | some (c, a) => takeTrap (causeCode c) a s.hart.pc 0 false s

/-- The cores on which a launch has threads. DESIGN CHOICE: notes/assumptions/75.md. -/
def launchCores (x : Context) (n : Nat) : List Nat := x.busy.filterMap fun b => if b.2.1 = n then some b.1 else none

/-- The members of the core's own launch brought up to date (R226). -/
def refreshMembers (n : Nat) (s : State) : State :=
  match ctxOf s.dev n with
  | none => s
  | some x =>
    if inContext s.hart n && s.hart.thread == .running then
      onClu (fun u => { u with members := launchCores x s.hart.tk.launch.toNat }) s
    else s

/-- A group placed on its cores (R239, R241): each of its other threads opens its first window too (R390).
DESIGN CHOICE: notes/assumptions/10.md. -/
def placeGroup (x : Context) (l : Launch) (k : Nat) (cores : List Nat) (s : State) : State :=
  let mine := cores.contains s.hart.ar.core
  let s := onCtx x.num (fun x => { x with
    busy := x.busy ++ cores.map fun c => (c, l.n, l.placed)
    winNext := x.winNext + BitVec.ofNat 16 (cores.length - if mine then 1 else 0)
    launches := modWhere (fun y => y.n == l.n) (fun y => { y with placed := y.placed + 1, lastCluster := some k }) x.launches }) s
  let s := if k = s.hart.ar.cluster then fitPool (onClu (placeTasks l cores) s)
    else onDev (fun d => { d with scratches := smSet d.scratches k (BitVec.ofNat 32 (launchRec l.record).scratch) }) s
  let s := if mine then startThread x l (cores.idxOf s.hart.ar.core) cores s else s
  refreshMembers x.num s

/-- The next group to place and where: of the running contexts' oldest launches, the first that fits (R239).
DEDUCED: notes/assumptions/79.md. -/
def nextGroup (s : State) : Option (Context × Launch × Nat × List Nat) :=
  s.dev.ctxs.findSome? fun x =>
    if x.state != .running then none else
    match x.launches.find? fun l => decide (l.placed < (launchRec l.record).groups) with
    | none => none
    | some l => (groupPlace s x l).map fun p => (x, l, p.1, p.2)

/-- GROUP_PLACE (R239, R241): the dispatchers wait where no cluster fits. -/
def execGroupPlace (s : State) : Out :=
  match nextGroup s with
  | none => .next s
  | some (x, l, k, cores) => .next (placeGroup x l k cores s)

/-! ## Retired threads (R240) -/

/-- Whether a parked request is the core's. -/
def parkedBy (core : Nat) (w : FutWait) : Bool := match w with | .parked _ _ _ _ o => o.core == core | .reg _ _ => false

/-- Whether the core's resources may be freed: its copies have placed their messages, its values have arrived, no message for
it waits, and its records have left the scribe (R240, R401). -/
def retireReady (s : State) : Bool :=
  let me := s.hart.ar.core
  s.hart.thread == .ended && (s.dev.copies.all fun c => c.core != me) && (s.dev.nmus.all fun c => c.core != me) &&
  s.hart.loads.isEmpty && (s.dev.futs.all fun w => !parkedBy me w) && s.hart.sq.isEmpty && s.clu.hold.isEmpty &&
  s.hart.tc.scribe.isEmpty

/-- A core taken from the threads of its context. -/
def freeCore (n core : Nat) (s : State) : State :=
  onCtx n (fun x => { x with busy := x.busy.filter fun b => b.1 != core }) s

/-- A tensor that a retired thread has freed, widened or reached: to a later thread on the core it is as another thread's (R167, R169,
R182). -/
def forgetThread (t : Tensor) : Tensor :=
  { t with
    freed := false
    queue := t.queue.map fun e => match e with
      | .rerep r m _ => .rerep r m none
      | .free _ => .free false
      | e => e }

/-- The core cleared (R240, R294, R303): segment 0 and TVEC stay with the runtime. No later thread on it is the one that freed or
widened a tensor, or spawned a held task (R167, R169, R259). -/
def clearCore (s : State) : State :=
  let me := s.hart.ar.core
  let errs := (s.hart.inbox.filter fun m => m.kind == 0x80).flatMap msgBytes
  let s := onDev (fun d => { d with
    errors := d.errors ++ errs
    tensors := d.tensors.map forgetThread
    units := d.units.map fun u => { u with fctx := u.fctx.filter fun f => f.1 != me } }) s
  let s := onClu (fun u => { u with
    mqs := u.mqs.filter fun q => q.recv != some me, group := []
    tasks := u.tasks.map fun t => { t with spawner := if t.spawner = some me then none else t.spawner } }) s
  onHart (fun h => { emptyHart h with
    imem := h.imem.filter fun e => decide (e.1 < 4096)
    segs := (Vector.replicate 16 Seg.reset).set 0 h.segs[0]
    tr := { (emptyHart h).tr with tvec := h.tr.tvec }
    dbg := { (emptyHart h).dbg with bps := h.dbg.bps, trapStep := h.dbg.trapStep } }) s

/-- Another core's thread gone: it is no member, its task has ended, its format contexts and its part in the barrier network are
gone, and a launch whose threads have all retired has no live join (R226, R240, R265, R303).
DESIGN CHOICE: notes/assumptions/11.md. -/
def otherRetired (core : Nat) (s : State) : State :=
  let s := onClu (fun u => { u with
    members := u.members.filter (· != core), group := u.group.filter (· != core)
    tasks := u.tasks.filter fun t => t.running != some core
    levels := u.levels.filter (·.1 != core), quorums := u.quorums.filter (·.1 != core), behind := u.behind.filter (·.1 != core)
    mqs := u.mqs.filter fun q => q.recv != some core }) (freeCore s.hart.ar.ctx core s)
  endJoins (onDev (fun d => { d with
    units := d.units.map fun u => { u with fctx := u.fctx.filter fun f => f.1 != core } }) s)

/-- Whether another core's thread may retire: it runs no task of a join that has not counted it. Before the release END would
trap (R257); after it END is a kill point, and the member is killed first (R268). -/
def otherMayRetire (s : State) (core : Nat) : Bool :=
  match runningOn s core with
  | none => true
  | some t => match joinOf s t.join with
    | some j => isCounted j t.member
    | none => true

/-- THREAD_RETIRE_FREE (R240). -/
def execThreadRetireFree (core : Nat) (s : State) : Out :=
  if core = s.hart.ar.core then
    if retireReady s then .next (clearCore (freeCore s.hart.ar.ctx core s)) else .next s
  else if otherMayRetire s core && inContext s.hart s.hart.ar.ctx then .next (otherRetired core s)
  else .next s

end Sys2Proof.Machine
end

