-- ==== Sys2Proof/Machine/Debug.lean ====
section
/-! DEFINITION. The debug service (R393 to R400, R428): the sub-commands of DEBUG, single steps and reverse steps. What another
core's registers hold is not part of this machine: an answer about them is left open (notes/assumptions/81.md). -/

namespace Sys2Proof.Machine

/-! ## Who may command (R427, R428) -/

/-- A DEBUG command under its sub-command. -/
def debugCmd (n : Nat) (c : HostCmd) : HostCmd := { c with code := 0x18, arg0 := wordOf n }

/-- A sub-command on a context created with DBG = 1 (R427); only WRITE carries data (R428). -/
def onDebug (c : HostCmd) (s : State) (k : Context → Out) : Out :=
  ownerCmd c s fun x => if x.dbg && (c.arg0 == 8 || noData c) then k x else refuse c s

/-- Whether a core of the context is this machine's, and stopped with WHY = 5. -/
def debugStopped (s : State) (x : Context) (core : Nat) : Bool :=
  core == s.hart.ar.core && inContext s.hart x.num && match s.hart.dbg.stop with
  | some r => r.why == 5
  | none => false

/-- Whether another core of the context is stopped with WHY = 5: the partition is, or the cluster with this core (R398).
DESIGN CHOICE: notes/assumptions/81.md. -/
def otherStopped (s : State) (x : Context) (core : Nat) : Bool :=
  core != s.hart.ar.core && decide (core < 7168) && hasBay x (bayOfCore core) &&
  (x.state == .stopped 5 || (clusterOfCore core == s.hart.ar.cluster && debugStopped s x s.hart.ar.core))

/-- A sub-command on the core that ARG1 names, which must be stopped with WHY = 5 (R428); `other` is its effect on another core. -/
def onStopped (c : HostCmd) (s : State) (k : Context → Out) (other : Out) : Out :=
  onDebug c s fun x =>
    if debugStopped s x c.arg1.toNat then k x
    else if otherStopped s x c.arg1.toNat then other
    else refuse c s

/-- `n` doublewords about another core, which this machine does not hold. DESIGN CHOICE: notes/assumptions/81.md. -/
def freeData (n : Nat) (s : State) : List Byte × State :=
  ((rangeFrom s.tick n).flatMap fun i => natBytes 8 (Config.freeWord i).toNat, { s with tick := s.tick + n })

/-- A count about another core, from 0 to `n`. DESIGN CHOICE: notes/assumptions/81.md. -/
def freeCount (s : State) (n : Nat) : Nat := (Config.freeWord s.tick).toNat % (n + 1)

/-- An answer with a VALUE about another core, and what follows it. DESIGN CHOICE: notes/assumptions/81.md. -/
def freeAnswer (c : HostCmd) (v : Word) (data : List Byte) (s : State) : Out :=
  .next (respond c 0 v data { s with tick := s.tick + 1 })

/-- The steps of another core and what it reports of them: all that were asked for, or fewer and then the reason of the refusal
(R394, R395, R428). DESIGN CHOICE: notes/assumptions/81.md. -/
def freeSteps (s : State) (n : Nat) : Nat × List Byte :=
  let k := freeCount s n
  (k, Config.freeReport s.tick ++ if k < n then [Config.reversalReason (1 + (Config.freeWord (s.tick + 1)).toNat % 4)] else [])

/-! ## Records (R368, R398) -/

/-- The 32 bytes of a stop record (R368). -/
def stopBytes (r : StopRecord) : List Byte :=
  natBytes 8 r.icount.toNat ++ natBytes 8 r.tstop.toNat ++ natBytes 4 r.sent.toNat ++ natBytes 4 r.recv.toNat ++
  natBytes 2 r.pc.toNat ++ natBytes 1 r.why ++ natBytes 1 r.flags.toNat ++ natBytes 4 0

/-- The 32 bytes of a trigger record (R398). -/
def triggerBytes (t : Trigger) : List Byte :=
  natBytes 8 t.addr.toNat ++ natBytes 8 t.time.toNat ++ natBytes 4 t.cyc.toNat ++ natBytes 2 (t.core.getD 0xFFFF) ++
  natBytes 1 t.wp.toNat ++ natBytes 1 t.kind.toNat ++ natBytes 8 t.icount.toNat

/-- The 16 bytes of the core's skid record (R398). -/
def skidBytes (h : Hart) (r : StopRecord) : List Byte :=
  natBytes 4 h.dbg.skid.toNat ++ natBytes 2 h.ar.core ++ natBytes 1 h.dbg.role ++ natBytes 1 0 ++ natBytes 8 r.icount.toNat

/-- The stop record of this core, if it is stopped. -/
def ownStop (s : State) (x : Context) : Option StopRecord := if inContext s.hart x.num then s.hart.dbg.stop else none

/-- The records of the stopped cores that have a thread, in ascending order: this core's, and of each other one as many
doublewords as they take. DESIGN CHOICE: notes/assumptions/81.md. -/
def stopRecords (own : StopRecord → List Byte) (n : Nat) (x : Context) (s : State) : List Byte × State :=
  ((x.busy.map (·.1)).mergeSort).foldl (fun (l, s) k =>
    if k = s.hart.ar.core then (match ownStop s x with | some r => (l ++ own r, s) | none => (l, s))
    else if otherStopped s x k then
      let (b, s) := freeData n s
      (l ++ b, s)
    else (l, s)) ([], s)

/-- RECORDS' effect (R428). -/
def doDebugRecords (c : HostCmd) (s : State) : Out :=
  onDebug c s fun x =>
    if c.arg1 != 0 || c.arg2 != 0 then refuse c s else
    let t := match x.trigger with | some t => triggerBytes t | none => List.replicate 32 0
    let (r, s) := stopRecords (fun r => stopBytes r ++ skidBytes s.hart r) 6 x s
    .next (respond c 0 0 (t ++ r) s)

/-! ## ATTACH, STOP, CONTINUE (R399, R428) -/

/-- ATTACH's effect. -/
def doDebugAttach (c : HostCmd) (s : State) : Out :=
  onDebug c s fun x =>
    if c.arg1.toNat > 1 || c.arg2 != 0 then refuse c s
    else .next (respond c 0 0 [] (onCtx x.num (fun x => { x with attached := c.arg1 == 1 }) s))

/-- STOP's effect. -/
def doDebugStop (c : HostCmd) (s : State) : Out :=
  onDebug c s fun x =>
    if c.arg1 != 0 || c.arg2 != 0 then refuse c s else
    let s := gangStop x.num 5 s
    let (r, s) := stopRecords stopBytes 4 ((ctxOf s.dev x.num).getD x) s
    .next (respond c 0 0 r s)

/-- The DONE entries that reverse steps left at positions not yet retired are discarded (R393). -/
def dropDone (core : Nat) (icount : Word) (x : Context) : Context :=
  logAdvance { x with
    log := modWhere (fun e => e.done && e.core == core && decide (icount.toNat < e.icount.toNat)) (fun e => { e with freed := true })
      x.log }

/-- The core released from a debug stop, its fences as after a resume (R209). -/
def releaseCore (s : State) : State := onCur (dropDone s.hart.ar.core s.hart.tc.icount) (resumeFences (endStop s))

/-- A context runs again after a debug stop. -/
def wakeCtx (x : Context) (s : State) : State :=
  onCtx x.num (fun x => if x.state = .stopped 5 then ctxRunning s.dev.time x else x) s

/-- CONTINUE's effect: the cores stopped with WHY = 5 run again; after a fatal error none does (R379). -/
def doDebugContinue (c : HostCmd) (s : State) : Out :=
  onDebug c s fun x =>
    if s.dev.fatal || c.arg1 != 0 || c.arg2 != 0 || !(x.state == .stopped 5 || debugStopped s x s.hart.ar.core) then refuse c s else
    let s := wakeCtx x s
    let s := if debugStopped s x s.hart.ar.core then
        onHart (fun h => { h with dbg := { h.dbg with role := 0 } }) (releaseCore s) else s
    .next (respond c 0 0 [] s)

/-! ## STEP (R399) -/

/-- STEP's effect: the core is released, and the response follows at its end. DEDUCED: notes/assumptions/85.md. -/
def doDebugStep (c : HostCmd) (s : State) : Out :=
  onStopped c s (fun x =>
    if s.dev.fatal || c.arg2 = 0 || c.arg2.toNat > 65535 then refuse c s else
    let k : Stepping := ⟨c.session, c.seq, c.arg2.toNat, 0, x.state == .stopped 5, s.dev.time⟩
    .next (onHart (fun h => { h with dbg := { h.dbg with stepping := some k } }) (releaseCore (wakeCtx x s))))
    (if s.dev.fatal || c.arg2 = 0 || c.arg2.toNat > 65535 then refuse c s
      else freeAnswer c (wordOf (freeCount s c.arg2.toNat)) [] s)

/-- The end of a STEP: the core is frozen again, its time is not counted against a kill timeout (R269), and the instructions retired
are the response.
DEDUCED: notes/assumptions/85.md. -/
def endStep (s : State) : State :=
  match s.hart.dbg.stepping with
  | none => s
  | some k =>
    let n := s.hart.ar.ctx
    let t := (s.dev.time - k.since).toNat
    let s := onHart (fun h => { h with dbg := { h.dbg with stepping := none } }) (stopHart 5 s)
    let s := onClu (fun c => { c with joins := c.joins.map fun j => { j with paused := j.paused + t } }) s
    let s := if k.gang then onCtx n (fun x => if x.state = .running then ctxStopped s.dev.time 5 x else x) s else s
    onDev (fun d => { d with out := d.out ++ [.response k.session k.seq 0 (wordOf k.made) []] }) s

/-- Whether a STEP is at its end before the next instruction: its count is done, or the core stopped or has no thread.
DEDUCED: notes/assumptions/85.md. -/
def stepOver (h : Hart) : Bool :=
  match h.dbg.stepping with
  | some k => k.left == 0 || h.dbg.stop.isSome || h.thread != .running
  | none => false

/-! ## Reverse steps (R393 to R395) -/

/-- FRM, FFLAGS, LFSR and SATF: a reverse step passes over a write of them (R394). -/
def plainCsr (c : BitVec 12) : Bool := decide (0x11 ≤ c.toNat) && decide (c.toNat ≤ 0x14)

/-- Whether no reverse step passes over the instruction of a word (R394), by its major opcode and, in form X, its function. -/
def irreversible (w : IWord) : Bool :=
  let fn := (w.extractLsb' 0 6).toNat
  match (w.extractLsb' 25 7).toNat with
  | 0x10 => fn == 0                                     -- CFETCH
  | 0x11 =>                                             -- CSRW; CSRS, CSRC and CSRX write unless xa is x0
    !plainCsr (w.extractLsb' 3 12) && (w.extractLsb' 0 3 == (1 : BitVec 3) ||
      (w.extractLsb' 0 3 != (0 : BitVec 3) && w.extractLsb' 15 5 != (0 : BitVec 5)))
  | 0x3C => fn == 0 || fn == 1                          -- VGROW, VSHRINK
  | 0x50 => fn == 0 || fn == 1 || fn == 2 || fn == 4    -- TNEW, TWIDEN, TFREE, TVIEW
  | 0x57 => fn == 0 || fn == 3 || fn == 4 || fn == 5    -- INRECV, UIARM, UIDIS, UIRET
  | 0x5B => fn == 0 || fn == 1 || fn == 2               -- FETAKE, FEPUT, FEREAD
  | 0x5C => fn == 0 || fn == 1 || fn == 2               -- BARV, BWAIT, BSYNC
  | 0x60 => decide (fn ≤ 4)                             -- TKSPAWN, TKNEXT, TKEND, TKYIELD, TKDEP
  | 0x61 => fn == 0 || fn == 1                          -- SEXCH, SSYNC
  | 0x62 => fn == 0 || fn == 2 || fn == 5               -- QNEW, QARRIVE, QRESET
  | 0x63 => fn == 0 || fn == 1 || fn == 2               -- WQPOP, WQPUSH, WQFILL
  | 0x69 => fn == 0 || fn == 1 || fn == 3               -- MQSEND, MQRECV, MQBIND
  | 0x76 => fn == 0 || fn == 1 || fn == 3               -- ECALL, ERET, END
  | _ => false

/-- The ring's entries by instruction, newest first, each instruction's entries newest first; one whose first entry was
overwritten is not there. -/
def ringGroups : List RingEntry → List RingEntry → List (List RingEntry) → List (List RingEntry)
  | [], cur, done => if cur.isEmpty then done else cur :: done
  | e :: r, cur, done =>
    if e.first then ringGroups r [e] (if cur.isEmpty then done else cur :: done)
    else if cur.isEmpty then ringGroups r [] done
    else ringGroups r (e :: cur) done

/-- The first entry of an instruction. -/
def firstOf (g : List RingEntry) : Option RingEntry := g.getLast?

/-- Whether an instruction issued in a frame. -/
def groupFramed (g : List RingEntry) : Bool := match firstOf g with | some e => e.framed | none => false

/-- The instructions that one step undoes, newest first (R393): `taken` grows back to the start of every window and frame
that it reaches into; `d` counts the instructions passed over since. -/
def undoSpan : List (List RingEntry) → Nat → List (List RingEntry) → List (List RingEntry) → List (List RingEntry)
  | [], _, _, taken => taken
  | g :: r, d, pend, taken =>
    let span := match firstOf g with | some e => e.span | none => 0
    let inFrame := pend.isEmpty && match taken.getLast? with | some t => groupFramed t | none => false
    if inFrame || d + 1 ≤ span then undoSpan r 0 [] (taken ++ pend ++ [g]) else undoSpan r (d + 1) (pend ++ [g]) taken

/-- The log entries that undoing an instruction of the core restores (R393), oldest first. -/
def undoEntries (c : Context) (core : Nat) (icount : Word) : List LogEntry :=
  c.log.filter fun e => e.core == core && e.icount == icount && !e.done && e.kind != 0 && e.kind != 7 && e.kind != 8

/-- The ICOUNT of an instruction in the ring. -/
def groupIcount (g : List RingEntry) : Word := match firstOf g with | some e => e.icount | none => 0

/-- Whether a later write of another core stands over an entry (R394). -/
def overtaken (c : Context) (core : Nat) (e : LogEntry) : Bool :=
  c.log.any fun f => decide (e.pos < f.pos) && f.core != core && !f.done && !f.freed && f.kind != 0 && f.kind != 7 && f.kind != 8 &&
    overlaps e.loc e.old.length f.loc f.old.length

/-- Whether a log entry that an instruction needs has been freed (R394): of its writes, or of its ring entries' payloads. -/
def undoFreed (c : Context) (core : Nat) (g : List RingEntry) : Bool :=
  c.gone.contains (core, groupIcount g) || (undoEntries c core (groupIcount g)).any (·.freed) ||
  g.any fun e => match e.pay with
    | some p => !(c.log.any fun l => l.pos == p && !l.freed)
    | none => false

/-- Whether an instruction of the ring is of those that no step passes, or took a kill (R394). -/
def barredGroup (h : Hart) (g : List RingEntry) : Bool :=
  match firstOf g with
  | none => true
  | some e => e.kill || irreversible (imemWord h e.pc)

/-- Why a reverse step of these instructions is refused (R394): 1 no entry, 2 freed, 3 the instruction, 4 overtaken.
DEDUCED: notes/assumptions/84.md. -/
def undoRefusal (s : State) (x : Context) (gs : List (List RingEntry)) : Option Nat :=
  let me := s.hart.ar.core
  let startFramed := match gs.getLast? with | some g => groupFramed g | none => true
  if x.mode != 2 || startFramed then some 1
  else if gs.any (barredGroup s.hart) || (match s.hart.mid with | .none | .bsync | .sstep => false | _ => true) then some 3
  else if gs.any (undoFreed x me) then some 2
  else if gs.any fun g => (undoEntries x me (groupIcount g)).any (overtaken x me) then some 4
  else none

/-- The old value of a ring entry, from the log if it is a payload. -/
def ringOld (c : Context) (e : RingEntry) : VWord :=
  match e.pay with
  | none => e.old.setWidth 1024
  | some p => match c.log.find? fun l => l.pos == p with
    | some l => BitVec.ofNat 1024 (bytesNat l.old)
    | none => 0

/-- A register set by its REG code (R392). -/
def putReg (code : Nat) (v : VWord) (s : State) : State :=
  if code < 32 then setX (BitVec.ofNat 5 code) (v.setWidth 64) s
  else if code < 64 then setV (BitVec.ofNat 5 code) v s
  else if code < 68 then setK (BitVec.ofNat 2 code) (v.setWidth 128) s
  else if code = 68 then csrPut 0x012 (v.setWidth 64) s
  else if code = 69 then csrPut 0x013 (v.setWidth 64) s
  else if code = 71 then csrPut 0x011 (v.setWidth 64) s
  else if code = 72 then csrPut 0x014 (v.setWidth 64) s
  else s

/-- A message of a command of the core that the instruction at `icount` sent. -/
def msgOf (icount : Word) (m : Msg) : Bool := m.icount == icount && tagKind m.kind

/-- The engine commands of an instruction withdrawn (R393): those queued, with their entries at the tensors' order points, those
whose message is not placed, and the messages still in the inbox; their tags are free. -/
def withdrawCommands (icount : Word) (s : State) : State :=
  let me := s.hart.ar.core
  let mineC := fun (k : Copy) => k.core == me && k.org.icount == icount && (match k.st with | .await _ _ => false | _ => true)
  let mineN := fun (k : NmuJob) => k.core == me && k.org.icount == icount
  let tags := ((s.dev.copies.filter mineC).map (·.tag)) ++ ((s.dev.nmus.filter mineN).map (·.tag)) ++
    ((s.hart.inbox.filter (msgOf icount)).map (·.tag)) ++ ((s.clu.hold.filter (msgOf icount)).map (·.tag))
  let ids := ((s.dev.copies.filter mineC).map (·.id)) ++ (s.dev.nmus.filter mineN).map (·.id)
  let s := onDev (fun d => { d with
    copies := d.copies.filter fun k => !mineC k, nmus := d.nmus.filter fun k => !mineN k
    tensors := d.tensors.map fun t => { t with queue := t.queue.filter fun e => !(ids.any fun i => e == .access (2 * i + 1)) } }) s
  let s := onClu (fun u => { u with hold := u.hold.filter fun m => !msgOf icount m }) s
  onHart (fun h => { h with
    inbox := h.inbox.filter fun m => !msgOf icount m
    tags := tags.foldl (fun l t => l.erase t) h.tags }) s

/-- One instruction undone (R393): its held write, its registers, its writes and its commands.
DEDUCED: notes/assumptions/84.md. -/
def undoGroup (x : Context) (s : State) (g : List RingEntry) : State :=
  let n := groupIcount g
  let held := s.hart.held.filter fun w => w.icount + 1 != n
  let s := onHart (fun h => { h with held := held, loads := h.loads.filter fun r => held.any fun w => w.id == r.id }) s
  let s := g.foldl (fun s e => putReg e.reg (ringOld x e) s) s
  let s := (undoEntries x s.hart.ar.core n).reverse.foldl (restoreEntry x.num) s
  let s := withdrawCommands n s
  onHart (fun h => { h with
    pc := match firstOf g with | some e => e.pc | none => h.pc
    tc := { h.tc with icount := h.tc.icount - 1, ring := h.tc.ring.take (h.tc.ring.length - g.length) } }) s

/-- A held BSYNC, SEXCH or SSYNC left by a reverse step: its arrival stands, and when the thread re-runs it, it holds only until the
release (R246). DEDUCED: notes/assumptions/84.md. -/
def leaveHeld (s : State) : State :=
  onHart (fun h => { h with
    mid := .none, dbg := { h.dbg with stood := if h.mid = .bsync then some h.pc else h.dbg.stood } }) s

/-- The stop record after the thread has been moved. DEDUCED: notes/assumptions/83.md. -/
def restop (s : State) : State :=
  onHart (fun h => { h with dbg := { h.dbg with
    skipBp := false
    stop := h.dbg.stop.map fun r => { stopRecord s r.why with tstop := r.tstop } } }) s

/-- What a reverse step leaves as it stands and an instruction's word shows that it touched (R395): 5 what a peer holds, 7 windows,
8 matrix-unit state. DEDUCED: notes/assumptions/84.md. -/
def touchedBy (w : IWord) : List Nat :=
  let fn := (w.extractLsb' 0 6).toNat
  match (w.extractLsb' 25 7).toNat with
  | 0x68 => if fn = 4 then [5] else []                      -- CPYPD
  | 0x7C => if fn = 0 then [7] else []                      -- ULMARK
  | 0x6C | 0x72 => if fn = 0 then [8] else []               -- MCSET, MZERO
  | 0x6D => if fn = 0 || fn = 1 then [8] else []            -- MRSET, MRADV
  | 0x6E | 0x6F | 0x70 | 0x71 => [8]                        -- MMA, MMAB, MPASS, MDRAIN
  | _ => []

/-- All that an instruction of the ring touched and a reverse step leaves: beside what its word shows, 6 a trace record that it made,
9 PERTURB that it advanced. DEDUCED: notes/assumptions/84.md. -/
def touched (h : Hart) (e : RingEntry) : List Nat :=
  touchedBy (imemWord h e.pc) ++ (if e.traced then [6] else []) ++ if e.stalled then [9] else []

/-- A line of a report: the core, the instruction, and the reason or what it touched (R394 to R396).
DESIGN CHOICE: notes/assumptions/82.md. -/
def reportLine (s : State) (pc : IAddr) (r : Nat) : List Byte :=
  natBytes 2 s.hart.ar.core ++ natBytes 2 pc.toNat ++ [Config.reversalReason r]

/-- The report of the instructions that a step has undone (R395). -/
def touchReport (s : State) (gs : List (List RingEntry)) : List Byte :=
  gs.flatMap fun g => match firstOf g with
    | none => []
    | some e => (touched s.hart e).flatMap (reportLine s e.pc)

/-- One reverse step of the core with its report (R393, R395), or the reason for which it is refused (R394). -/
def reverseStep (n : Nat) (s : State) : Except Nat (State × List Byte) :=
  match ctxOf s.dev n with
  | none => .error 1
  | some x => match ringGroups s.hart.tc.ring [] [] with
    | [] => .error 1
    | top :: older =>
      let gs := undoSpan older 0 [] [top]
      match undoRefusal s x gs with
      | some r => .error r
      | none =>
        let t := gs.foldl (undoGroup x) (leaveHeld s)
        .ok (restop (onHart (fun h => { h with frame := none, blocked := false }) t), touchReport s gs)

/-- Reverse steps repeated while a condition on the next instruction to pop holds: how many were made, their reports, the reason of
a refusal, and the state. -/
def reverseSteps (n : Nat) (go : RingEntry → Bool) : Nat → Nat → List Byte → State → Nat × List Byte × Option Nat × State
  | 0, made, rep, s => (made, rep, none, s)
  | k + 1, made, rep, s =>
    if (match s.hart.tc.ring.getLast? with | some e => go e | none => true) then
      match reverseStep n s with
      | .error r => (made, rep, some r, s)
      | .ok (t, l) => reverseSteps n go k (made + 1) (rep ++ l) t
    else (made, rep, none, s)

/-- RSTEP's effect (R393 to R395, R428): the reports of what the steps touched, and on a refusal the reason. -/
def doDebugRstep (c : HostCmd) (s : State) : Out :=
  onStopped c s (fun x =>
    let (made, rep, r, t) := reverseSteps x.num (fun _ => true) c.arg2.toNat 0 [] s
    .next (respond c 0 (wordOf made) (rep ++ match r with | some r => [Config.reversalReason r] | none => []) t))
    (let r := freeSteps s c.arg2.toNat
     freeAnswer c (wordOf r.1) r.2 { s with tick := s.tick + 1 })

/-- The report of an early stop of RWINDOW (R396). -/
def windowReport (s : State) (r : Option Nat) : List Byte :=
  match r with
  | none => []
  | some r => reportLine s (match s.hart.tc.ring.getLast? with | some e => e.pc | none => 0) r

/-- RWINDOW's effect (R396, R428): on this core, back to the first instruction of window `w` or of a younger one. The steps of the
set's other cores are left open. DESIGN CHOICE: notes/assumptions/81.md. -/
def doDebugRwindow (c : HostCmd) (s : State) : Out :=
  onDebug c s fun x =>
    let w : BitVec 16 := c.arg1.setWidth 16
    let set := rangeFrom (bits c.arg2 12 0) (bits c.arg2 28 16)
    let me := s.hart.ar.core
    if bits c.arg1 63 16 != 0 || bits c.arg2 63 29 != 0 || bits c.arg2 15 13 != 0 ||
        !(set.all fun k => debugStopped s x k || otherStopped s x k) then refuse c s else
    let (made, rep, r, t) := if set.contains me then
        reverseSteps x.num (fun e => !windowOlder e.win w) (s.hart.tc.ring.length + 1) 0 [] s else (0, [], none, s)
    let others := set.any (· != me)
    .next (respond c 0 (wordOf made + if others then Config.freeWord s.tick else 0)
      (rep ++ windowReport t r ++ if others then Config.freeReport s.tick else [])
      { t with tick := if others then t.tick + 1 else t.tick })

/-! ## READ and WRITE (R428) -/

/-- What the address of READ and WRITE names. -/
inductive DebugAt where
  | reg (code : Nat) | csr (a : Nat) | mem (l : Loc) | va (a : Nat)
  | away                                 -- a register of another core
  deriving DecidableEq, Repr

/-- The address decoded; none is refused. -/
def debugAt (s : State) (c : HostCmd) (x : Context) : Option DebugAt :=
  let a := c.arg2
  if c.arg1 = 0xFFFF then (if a.toNat < devTop then some (.va a.toNat) else none)
  else
    let k := c.arg1.toNat
    let own := debugStopped s x k
    if !own && !otherStopped s x k then none
    else if a.getLsbD 63 then
      if a.getLsbD 62 then (if bits a 61 12 = 0 then some (if own then .csr (bits a 11 0) else .away) else none)
      else
        let r := bits a 7 0
        if bits a 61 8 = 0 && decide (1 ≤ r) && decide (r ≤ 72) && r != 70 then some (if own then .reg r else .away) else none
    else if a.toNat + 128 ≤ lsTop then some (.mem ⟨.ls k, a.toNat⟩)
    else if decide (0x100000 ≤ a.toNat) && decide (a.toNat + 128 ≤ 0x100000 + scratchOf s (clusterOfCore k)) then
      some (.mem ⟨.scr (clusterOfCore k), a.toNat - 0x100000⟩)
    else none

/-- A register's value as 128 bytes. DESIGN CHOICE: notes/assumptions/82.md. -/
def regData (v : VWord) : List Byte := natBytes 128 v.toNat

/-- READ's effect. DESIGN CHOICE: notes/assumptions/82.md. -/
def doDebugRead (c : HostCmd) (s : State) : Out :=
  onDebug c s fun x => match debugAt s c x with
    | none => refuse c s
    | some (.reg r) => .next (respond c 0 0 (regData (regOld s r).1) s)
    | some (.csr a) =>
      if csrAllowed .m a false then
        let (v, s) := csrRead a s
        .next (respond c 0 0 (regData (v.setWidth 1024)) s)
      else refuse c s
    | some .away =>
      let (b, s) := freeData 16 s
      .next (respond c 0 0 b s)
    | some (.mem l) =>
      match poisonAt s.dev l 128 with
      | some _ => .next (respond c (causeCode .poison).toNat 0 [] s)
      | none => .next (respond c 0 0 (rawBytes s.dev l 128) s)
    | some (.va a) => match readVa s x.num a 128 with
      | .ok bs => .next (respond c 0 0 bs s)
      | .error (e, _) => .next (respond c (causeCode e).toNat 0 [] s)

/-- The parts of 128 bytes of a context, each in one line, with their locations, or the first fault. -/
def debugParts (s : State) (x : Context) (a : Nat) : Except Refuse (List (Loc × Nat × Nat)) :=
  (lineParts a 128).mapM fun p => match ctxLeaf s.dev x.num false ⟨false, true, 0⟩ p.1 with
    | .ok l => .ok (⟨.dev, l.pa⟩, p.1 - a, p.2)
    | .error e => .error e

/-- WRITE's effect: a plain write at its point. -/
def doDebugWrite (c : HostCmd) (s : State) : Out :=
  onDebug c s fun x =>
    if c.data.length != 128 then refuse c s else
    match debugAt s c x with
    | none => refuse c s
    | some (.reg r) => .next (respond c 0 0 [] (putReg r (BitVec.ofNat 1024 (bytesNat c.data)) s))
    | some (.csr a) =>
      if csrAllowed .m a true then .next (respond c 0 0 [] (csrPut a (wordOf (recNat c.data 0 8)) s)) else refuse c s
    | some .away => .next (respond c 0 0 [] s)
    | some (.mem l) => .next (respond c 0 0 [] (plainWrite l c.data s))
    | some (.va a) => match debugParts s x a with
      | .ok ps => .next (respond c 0 0 [] (ps.foldl (fun s p => plainWrite p.1 ((c.data.drop p.2.1).take p.2.2) s) s))
      | .error (e, _) => .next (respond c (causeCode e).toNat 0 [] s)

/-! ## BREAK and TRAPSTEP (R399, R400, R428) -/

/-- The first breakpoint of the core with a property. -/
def bpFind (s : State) (p : Option IAddr → Bool) : Option Nat := findIdxFrom p s.hart.dbg.bps.toList 0

/-- A breakpoint of the core written. DEDUCED: notes/assumptions/83.md. -/
def bpPut (i : Nat) (b : Option IAddr) (s : State) : State :=
  onHart (fun h => { h with dbg := { h.dbg with bps := h.dbg.bps.setIfInBounds i b } }) s

/-- BREAK's effect. -/
def doDebugBreak (c : HostCmd) (s : State) : Out :=
  let bad := bits c.arg2 63 16 != 0 || c.arg2.getLsbD 1
  onStopped c s (fun _ =>
    if bad then refuse c s else
    let a : IAddr := c.arg2.setWidth 16 &&& 0xFFFC
    let set := c.arg2.getLsbD 0
    match bpFind s fun b => if set then b == none else b == some a with
    | some i => .next (respond c 0 (wordOf i) [] (bpPut i (if set then some a else none) s))
    | none => .next (respond c 0 (BitVec.allOnes 64) [] s))
    (if bad then refuse c s
      else freeAnswer c (let k := freeCount s 8; if k = 8 then BitVec.allOnes 64 else wordOf k) [] s)

/-- TRAPSTEP's effect. -/
def doDebugTrapstep (c : HostCmd) (s : State) : Out :=
  let bad := decide (1 < c.arg2.toNat)
  onStopped c s (fun _ =>
    if bad then refuse c s
    else .next (respond c 0 0 [] (onHart (fun h => { h with dbg := { h.dbg with trapStep := c.arg2 == 1 } }) s)))
    (if bad then refuse c s else .next (respond c 0 0 [] s))

/-! ## The sub-commands as they arrive -/

/-- DEBUG_ATTACH (R428). -/
def execDebugAttach (c : HostCmd) (s : State) : Out := arriveCmd (debugCmd 1 c) doDebugAttach s
/-- DEBUG_STOP (R428). -/
def execDebugStop (c : HostCmd) (s : State) : Out := arriveCmd (debugCmd 2 c) doDebugStop s
/-- DEBUG_CONTINUE (R428). -/
def execDebugContinue (c : HostCmd) (s : State) : Out := arriveCmd (debugCmd 3 c) doDebugContinue s
/-- DEBUG_STEP (R399, R428). -/
def execDebugStep (c : HostCmd) (s : State) : Out := arriveCmd (debugCmd 4 c) doDebugStep s
/-- DEBUG_RSTEP (R393, R428). -/
def execDebugRstep (c : HostCmd) (s : State) : Out := arriveCmd (debugCmd 5 c) doDebugRstep s
/-- DEBUG_RWINDOW (R396, R428). -/
def execDebugRwindow (c : HostCmd) (s : State) : Out := arriveCmd (debugCmd 6 c) doDebugRwindow s
/-- DEBUG_READ (R428). -/
def execDebugRead (c : HostCmd) (s : State) : Out := arriveCmd (debugCmd 7 c) doDebugRead s
/-- DEBUG_WRITE (R428). -/
def execDebugWrite (c : HostCmd) (s : State) : Out := arriveCmd (debugCmd 8 c) doDebugWrite s
/-- DEBUG_BREAK (R399, R428). -/
def execDebugBreak (c : HostCmd) (s : State) : Out := arriveCmd (debugCmd 9 c) doDebugBreak s
/-- DEBUG_TRAPSTEP (R400, R428). -/
def execDebugTrapstep (c : HostCmd) (s : State) : Out := arriveCmd (debugCmd 10 c) doDebugTrapstep s
/-- DEBUG_RECORDS (R398, R428). -/
def execDebugRecords (c : HostCmd) (s : State) : Out := arriveCmd (debugCmd 11 c) doDebugRecords s

/-- A DEBUG command performed by its sub-command; any other is refused. -/
def doDebug (c : HostCmd) (s : State) : Out :=
  match c.arg0.toNat with
  | 1 => doDebugAttach c s
  | 2 => doDebugStop c s
  | 3 => doDebugContinue c s
  | 4 => doDebugStep c s
  | 5 => doDebugRstep c s
  | 6 => doDebugRwindow c s
  | 7 => doDebugRead c s
  | 8 => doDebugWrite c s
  | 9 => doDebugBreak c s
  | 10 => doDebugTrapstep c s
  | 11 => doDebugRecords c s
  | _ => refuse c s

end Sys2Proof.Machine
end

