-- ==== Sys2Proof/Machine/Board.lean ====
section
/-! DEFINITION. The board, the ports and the peers: boot (R434, R435, R442), time (R433), ports (R425), peer sessions and writes
(R431, R432), and power and cooling (R442, R443); and the host's waiting commands (R426). -/

namespace Sys2Proof.Machine

/-! ## Boot (R434, R435, R440, R442) -/

/-- Whether a stage is accepted: its public key is the fused one, its signature verifies (R434), and its rollback level is not below
RBCNT (R435). DESIGN CHOICE: notes/assumptions/86.md. -/
def stageOk (d : Device) (b : BootImage) : Bool :=
  regOf (sha384 b.key) == Config.fusedKeyHash && ecdsaOk b.key b.sig b.bytes && decide (d.rbcnt.toNat ≤ b.level)

/-- The measurement register that the `i`th stage's loader extends (R434). -/
def stageReg (i : Nat) : Nat := min i 2

/-- The stages verified and measured in order; the number of the first that is refused, if one is.
DESIGN CHOICE: notes/assumptions/86.md. -/
def runStages : List BootImage → Nat → Device → Bool × Device
  | [], i, d => (decide (0 < i), d)
  | b :: r, i, d =>
    if stageOk d b then
      let m := d.meas
      let k := stageReg i
      runStages r (i + 1)
        { d with
          meas := m.setIfInBounds k (extendReg (m.getD k 0) (sha384 b.bytes))
          fwver := Config.firmwareVersion (regOf (sha384 b.bytes)) }
    else (false, d)

/-- Registers 3 to 7 as firmware extends them for its configuration (R434). -/
def measureConfig (d : Device) : Device :=
  { d with meas := (rangeFrom 3 5).foldl (fun m i => m.setIfInBounds i (extendReg 0 (regBytes (Config.configMeasure i)))) d.meas }

/-- A device whose stages are accepted is up (R442); one refused is in recovery (R435).
DESIGN CHOICE: notes/assumptions/86.md. -/
def bootDevice (images : List BootImage) (bad : BitVec 64) (d : Device) : Device :=
  let (ok, d) := runStages images 0 d
  if ok then
    let d := measureConfig d
    { d with booted := true, recovery := false, verif := true, unsync := false, lostBays := bad }
  else { d with recovery := true, lostBays := bad }

/-- The device after its state is lost: the fuses and what has left its ports stay. -/
def blankDevice (d : Device) : Device := { Device.reset with rbcnt := d.rbcnt, dbgok := d.dbgok, out := d.out }

/-- The core as reset leaves it: its number is where it stands (R11). -/
def blankHart (h : Hart) : Hart :=
  { Hart.reset with ar := { Arith.reset with core := h.ar.core, cluster := h.ar.cluster, lfsr := wordOf (h.ar.core + 1) } }

/-- Everything of the machine lost but for the fuses (R442). -/
def blank (s : State) : State :=
  { State.reset with hart := blankHart s.hart, dev := blankDevice s.dev, agenda := s.agenda, tick := s.tick }

/-- The key of this boot's images derived (R373). DEDUCED: notes/assumptions/112.md. -/
def bootKey (s : State) : State :=
  { s with tick := s.tick + 1, dev := { s.dev with imageKey := Config.drawnKey s.tick } }

/-- RESET_RELEASE (R442): bring-up with the firmware images it finds; `badBays` names the bays that fail their self-test. -/
def execResetRelease (images : List BootImage) (badBays : Nat) (s : State) : Out :=
  .next (passTime (bootKey (onDev (bootDevice images (BitVec.ofNat 64 badBays &&& (2 ^ 56 - 1 : Nat))) (blank s))))

/-- RECOVERY_IMAGE_LOAD (R435): a new first stage over port 0. DESIGN CHOICE: notes/assumptions/86.md. -/
def execRecoveryImageLoad (image : BootImage) (s : State) : Out :=
  if s.dev.recovery && s.dev.ports.getLsbD 0 then
    .next (onDev (fun d => bootDevice [image] d.lostBays { d with meas := .replicate 8 0, verif := false, fwver := 0 }) s)
  else .next s

/-- RBCNT_RAISE (R435): only on a signed request. -/
def execRbcntRaise (level : Nat) (signed : Bool) (s : State) : Out :=
  if s.dev.booted && signed && decide (s.dev.rbcnt.toNat < level) && decide (level ≤ 255) then
    .next (onDev (fun d => { d with rbcnt := BitVec.ofNat 8 level }) s)
  else .next s

/-! ## Power and cooling (R442, R443) -/

/-- THERMAL_THROTTLE (R443): the clock goes down a step of 1/16. DEDUCED: notes/assumptions/87.md. -/
def execThermalThrottle (s : State) : Out := .next (onDev (fun d => { d with clock := max 1 (d.clock - 1) }) s)

/-- THERMAL_FATAL (R443): a fatal error at 110 °C. -/
def execThermalFatal (s : State) : Out := .next (fatal s)

/-- The supply gone: all state is lost. -/
def powerOff (s : State) : State := onDev (fun d => { d with powered := false }) (blank s)

/-- THERMAL_SHUTDOWN (R443): the package removes its own supply at 120 °C. -/
def execThermalShutdown (s : State) : Out := .next (powerOff s)

/-- POWER_LOSS (R442). -/
def execPowerLoss (s : State) : Out := .next (powerOff s)

/-! ## Time and ports (R425, R433) -/

/-- TIME_SYNC_UPDATE (R433): the offset from the grandmaster in ns; past 2 µs the device is unsynchronised, and the event is
in the error record, until the offset is below 1 µs. DEDUCED: notes/assumptions/87.md. -/
def execTimeSyncUpdate (offset : Int) (s : State) : Out :=
  let s := passTime (onDev (fun d => { d with offset := offset }) s)
  if 2000 < offset.natAbs && !s.dev.unsync then .next (noteError (onDev (fun d => { d with unsync := true }) s))
  else if offset.natAbs < 1000 then .next (onDev (fun d => { d with unsync := false }) s)
  else .next s

/-- PORT_FAIL (R425). -/
def execPortFail (port : Nat) (s : State) : Out :=
  .next (onDev (fun d => { d with ports := d.ports &&& ~~~(if port < 8 then BitVec.ofNat 8 (2 ^ port) else 0) }) s)

/-! ## Peers (R431, R432) -/

/-- SESSION_KEY_RENEW (R432): the device time reaches 24 hours of the key, and there is a new one; the old key is still accepted.
DESIGN CHOICE: notes/assumptions/107.md. -/
def execSessionKeyRenew (n i : Nat) (s : State) : Out :=
  match peerOf s n i with
  | none => .next s
  | some p => .next (ageKey n i (reachTime (keyEnd p) s))

/-- OLD_KEY_EXPIRE (R432): the device time reaches 1 s after the renewal. -/
def execOldKeyExpire (n i : Nat) (s : State) : Out :=
  match peerOf s n i with
  | none => .next s
  | some p => if p.old.isNone then .next s else
    .next (onPeer n i (fun p => { p with old := none }) (reachTime (p.since.toNat + 10 ^ 9) s))

/-- PEER_PACKET_AUTH_FAIL (R291, R432): the packet is dropped, and the copy that sent it completes with status 0x15. -/
def execPeerPacketAuthFail (k : Nat) (s : State) : Out :=
  match s.dev.copies[k]? with
  | none => .next s
  | some c => match c.st with
    | .await _ _ => .next (peerSays c 0x15 0 s)
    | _ => .next s

/-- The parts of a peer's write, each in one line, with their locations. DEDUCED: notes/assumptions/88.md. -/
def peerParts (s : State) (n : Nat) (va : Word) (bytes : List Byte) : Option (List (Loc × List Byte)) :=
  (lineParts va.toNat bytes.length).mapM fun p => match ctxLeaf s.dev n false ⟨false, true, 0⟩ p.1 with
    | .ok l => some (⟨.dev, l.pa⟩, (bytes.drop (p.1 - va.toNat)).take p.2)
    | .error _ => none

/-- Whether a packet under a key is accepted from a peer at a device time: under the session key, or within 1 s of its renewal under
the one before it (R432). DESIGN CHOICE: notes/assumptions/107.md. -/
def keyAccepted (t : Word) (key : BitVec 256) (p : Peer) : Bool :=
  p.sess == key || (p.old == some key && decide (t.toNat ≤ p.since.toNat + 10 ^ 9))

/-- PEER_WRITE_ARRIVAL (R431): a packet of an entry's peer under a key that is accepted is performed at the homes as a write arriving
on a path (R188), and acknowledged; one that fails authentication is dropped (R432), and what the receiving context does not permit
is not performed. DEDUCED: notes/assumptions/88.md. -/
def execPeerWriteArrival (w : PeerRoute) (va : Word) (bytes : List Byte) (s : State) : Out :=
  let s := ageKey w.ctx w.idx s
  if !((peerOf s w.ctx w.idx).any (keyAccepted s.dev.time w.key)) then .next s else
  let s := (lineParts va.toNat bytes.length).foldl (fun s p => recallTables w.ctx p.1 s) s
  match peerParts s w.ctx va bytes with
  | none => .next s
  | some ps =>
    let s := ps.foldl (fun s p => homePut p.1 p.2 (recallAt p.1 p.2.length s)) s
    .next (onDev (fun d => { d with out := d.out ++ [.ack w.ctx va] }) s)

/-! ## What waited for a CTX instruction (R380, R426) -/

/-- A command that waited, performed under its code (R427). -/
def doCommand (c : HostCmd) (s : State) : Out :=
  let hi := c.arg2.getLsbD 63
  match c.code with
  | 0x01 => doIdent c s
  | 0x02 => doQuote c s
  | 0x03 => doErrread c s
  | 0x10 => doCreate c s
  | 0x11 => doDestroy c s
  | 0x12 => if hi then doUnmap c s else doMap c s
  | 0x13 => doLaunch c s
  | 0x14 => if hi then doImport c s else doExport c s
  | 0x15 => if hi then doResume c s else doPreempt c s
  | 0x16 => doSafesave c s
  | 0x17 => doSetpeer c s
  | 0x18 => doDebug c s
  | 0x19 => doSetlog c s
  | 0x1A => doTrdrain c s
  | _ => doUnknown c s

/-- Whether what waits may go on: no CTX instruction works on its context, and a command's own wait is over. -/
def waitOver (s : State) : Waiting → Bool
  | .kill n _ _ _ => match ctxOf s.dev n with | some x => !x.armed | none => true
  | .cmd c => !cmdBlocked c s && match s.hart.dbg.stepping with | some x => x.session != c.session | none => true
  | .xfer id c => xferReady id c s && match ownerCtxOf c s with | some x => !x.armed | none => true

/-- Whether a command comes before another of its session: one that is under way, or has the lower SEQ, or the same and came first
(R426). DEDUCED: notes/assumptions/80.md. -/
def before (a : Waiting × Nat) (c : HostCmd) (i : Nat) : Bool :=
  match a.1 with
  | .kill _ _ _ _ => false
  | .xfer _ k => k.session == c.session
  | .cmd k => k.session == c.session && (decide (k.seq < c.seq) || (k.seq == c.seq && decide (a.2 < i)))

/-- Whether what waits at a place is the first of its session; what waits for no session is always first (R426). -/
def inTurn (s : State) (i : Nat) : Waiting → Bool
  | .kill _ _ _ _ | .xfer _ _ => true
  | .cmd c => s.waiting.zipIdx.all fun a => !before a c i

/-- The first of what waits that may go on; commands of one session are performed in SEQ order (R426).
DEDUCED: notes/assumptions/80.md. -/
def nextWaiting (s : State) : Option (Nat × Waiting) :=
  s.waiting.zipIdx.findSome? fun a => if waitOver s a.1 && inTurn s a.2 a.1 then some (a.2, a.1) else none

/-- What waited, performed. DEDUCED: notes/assumptions/80.md. -/
def runWaiting (w : Waiting) (s : State) : Out :=
  match w with
  | .kill n reason cause addr => .next (killContext n reason cause none addr s)
  | .cmd c => doCommand c s
  | .xfer id c => .next (runXfer id c s)

end Sys2Proof.Machine
end

