-- ==== Sys2Proof/Machine/Fetch.lean ====
section
/-! DEFINITION. Fetching an instruction's word, from instruction memory or from the repeat frame (R28, R40 to R42, R91), and
the placing of a word for the next fetch. -/

namespace Sys2Proof.Machine

/-- The word that issues next: the frame's captured word, strided, or the word at the program counter; or the cause and TVAL
of a failed fetch (R91). -/
def fetch (h : Hart) : Except (Byte × Word) IWord :=
  match h.frame with
  | some f => .ok (strideWord (f.words.getD f.i 0) f.ds f.ss f.j)
  | none => match fetchFault h h.pc with
    | some e => .error e
    | none => .ok (imemWord h h.pc)

/-- The core placed to fetch a word at an address next: a thread runs there, nothing holds it, the segment is LANDED.
DESIGN CHOICE: notes/assumptions/10.md. -/
def placeWord (w : Nat) (h : Hart) : Hart :=
  let a : IAddr := if h.pc.toNat < 4096 then 0x1000 else h.pc &&& 0xFFFC
  { h with
    thread := .running, pc := a, frame := none, mid := .none, spin := none
    ui := { h.ui with armed := false }, dbg := { h.dbg with
      wpTrap := none, wpStop := none, stop := none, bps := .replicate 8 none, stepping := none }
    segs := h.segs.setIfInBounds (a.toNat / 4096) { Seg.reset with st := .landed }
    imem := memPut h.imem a.toNat (natBytes 4 w) }

end Sys2Proof.Machine
end

