-- ==== Sys2Proof/Machine/Projection.lean ====
section
/-! DEFINITION. The projection engine (R329 to R348): the projections, their saved records and adjoints, PROJ and PADJ. Every
value is an f32 pattern and every step rounds by RNE. -/

namespace Sys2Proof.Machine

/-- An f32 pattern's exact value. -/
def val32 (c : Nat) : FVal := fdec .f32 c

/-- The canonical f32 NaN (R57). -/
def nan32 : Nat := nanCode .f32

/-- A pattern with the other sign. -/
def neg32 (c : Nat) : Nat := if c / 2 ^ 31 % 2 = 1 then c - 2 ^ 31 else c + 2 ^ 31

/-- Whether a value is NaN. -/
def isNan : FVal → Bool
  | .nan => true
  | _ => false

/-- The exact sum of R330; a NaN sets NV. -/
def exactSum (l : List FVal) : FVal × Nat :=
  let v := (sumVal (l.foldl (fun a x => sumAdd a (x, 0)) sumZero)).1
  (v, if isNan v then 1 else 0)

/-- A value over a positive value, rounded once. -/
def divRound (v d : FVal) : Rounded :=
  match v, d with
  | .fin neg n e, .fin _ m g => if n = 0 || m = 0 then roundVal .f32 rmRne v else roundMag .f32 rmRne (ratMag neg n m (e - g))
  | _, _ => roundVal .f32 rmRne v

/-- A value over a count, rounded once. -/
def meanRound (v : FVal) (k : Nat) : Rounded := divRound v (.fin false k 0)

/-- A result and what a row's record holds (R338, R339). -/
structure Projected where
  y : List Nat
  sup : Nat
  mask : List Bool
  sign : List Bool
  nan : Bool
  proj : Bool
  c : Nat
  flags : Nat
  deriving DecidableEq, Repr

/-! ## Sets and parameters (R331, R332) -/

/-- Whether parameters are legal for a set. -/
def paramsLegal (set p0 p1 : Nat) : Bool :=
  match set, val32 p0, val32 p1 with
  | 1, .fin false n _, _ => n != 0
  | 1, _, _ => false
  | 2, .fin neg n _, _ | 3, .fin neg n _, _ => !neg || n == 0
  | 2, _, _ | 3, _, _ => false
  | 4, .nan, _ | 4, _, .nan => false
  | 4, a, b => cmpVal a b != .gt
  | _, _, _ => true

/-- Whether a row is a NaN row (R332). -/
def nanRow (set p0 p1 : Nat) (v : List Nat) : Bool :=
  set != 0 && (!paramsLegal set p0 p1 || v.any fun x => match val32 x with
    | .nan => true
    | .inf _ => set != 4
    | _ => false)

/-- The output of a NaN row. -/
def nanOut (v : List Nat) : Projected := ⟨v.map fun _ => nan32, 0, [], [], true, false, 0, 1⟩

/-! ## The projections (R333 to R337) -/

/-- A value put before the first smaller one: equal values keep their order. -/
def insertDesc (x : FVal × Nat) : List (FVal × Nat) → List (FVal × Nat)
  | [] => [x]
  | y :: r => if cmpVal y.1 x.1 = .lt then x :: y :: r else y :: insertDesc x r

/-- A row's patterns in descending order (R333). -/
def sortDesc (v : List Nat) : List Nat := (v.foldl (fun l x => insertDesc (val32 x, x) l) []).map (·.2)

/-- The prefix sums S(1), S(2), … from S(k - 1) on, with their flags. -/
def prefixSums : Nat → List Nat → List Nat × Nat
  | _, [] => ([], 0)
  | s, u :: r =>
    let (t, f) := faddCode .f32 rmRne s u
    let (l, g) := prefixSums t r
    (t :: l, f ||| g)

/-- Whether k * u > S - z, compared exactly (R333). -/
def inSupport (k u sk z : Nat) : Bool :=
  cmpVal (mulVal (.fin false k 0) (val32 u)).1 (addVal false (val32 sk) (negVal (val32 z))).1 = .gt

/-- The largest k of the test, with its S(k): a later k takes the place of an earlier one. -/
def lastK (z : Nat) : List (Nat × Nat) → Nat → Nat × Nat → Nat × Nat
  | [], _, b => b
  | (u, sk) :: r, k, b => lastK z r (k + 1) (if inSupport k u sk z then (k, sk) else b)

/-- One output of the simplex projection: the element less tau where it is positive. -/
def spxElem (tau x : Nat) : Rounded :=
  let (d, f) := faddCode .f32 rmRne x (neg32 tau)
  (if belowZero (negVal (val32 d)) then d else 0, f)

/-- The simplex projection: y, tau and the flags (R333). -/
def simplex (v : List Nat) (z : Nat) : List Nat × Nat × Nat :=
  let u := sortDesc v
  let (ss, f) := prefixSums 0 u
  let (k, sk) := lastK z (u.zip ss) 1 (1, v.headD 0)
  let (tau, g) := meanRound (addVal false (val32 sk) (negVal (val32 z))).1 k
  let ys := v.map (spxElem tau)
  (ys.map (·.1), tau, ys.foldl (fun a y => a ||| y.2) (f ||| g))

/-- Whether a pattern is not a zero. -/
def nonzero32 (c : Nat) : Bool := c % 2 ^ 31 != 0

/-- Set 1. -/
def projSimplex (v : List Nat) (z : Nat) : Projected :=
  let (y, tau, f) := simplex v z
  ⟨y, y.countP nonzero32, y.map nonzero32, [], false, true, tau, f⟩

/-- Set 2 (R334). -/
def projL1 (v : List Nat) (rho : Nat) : Projected :=
  let sign := v.map fun x => x / 2 ^ 31 % 2 == 1
  let out := fun (y : List Nat) (proj : Bool) (c f : Nat) =>
    Projected.mk y (y.countP nonzero32) (y.map nonzero32) sign false proj c f
  if cmpVal (exactSum (v.map fun x => absVal (val32 x))).1 (absVal (val32 rho)) != .gt then out v false 0 0
  else if !nonzero32 rho then out (v.map fun _ => 0) true 0 0
  else
    let (w, tau, f) := simplex (v.map (· % 2 ^ 31)) rho
    out ((w.zip v).map fun p => if p.1 = 0 then 0 else p.1 + p.2 / 2 ^ 31 * 2 ^ 31) true tau f

/-- The exact quotient rho / sqrt(s), rounded once (R335); s is positive. -/
def overSqrt (r s : FVal) : Rounded :=
  match r, s with
  | .fin _ n e, .fin _ m g =>
    if n = 0 then (0, 0) else
    -- (n 2^e)^2 / (m 2^g) = (n^2 / m) 2^(2e - g), scaled so that the exponent is even and the root has 80 bits and more
    let k := 2 * (bitLen m + 80) + (2 * e - g).natAbs % 2
    let q := n * n * 2 ^ k
    let root := isqrt (q / m)
    roundMag .f32 rmRne ⟨false, root, (2 * e - g - k) / 2, !(q % m == 0 && root * root == q / m)⟩
  | _, _ => (0, 0)

/-- Set 3 (R335). -/
def projL2 (v : List Nat) (rho : Nat) : Projected :=
  let s := (exactSum (v.map fun x => (mulVal (val32 x) (val32 x)).1)).1
  let r := absVal (val32 rho)
  if cmpVal s (mulVal r r).1 != .gt then ⟨v, v.countP nonzero32, [], [], false, false, 0x3F800000, 0⟩
  else
    let (c, f) := overSqrt r s
    let ys := v.map fun x => fmulCode .f32 rmRne x c
    let y := ys.map (·.1)
    ⟨y, y.countP nonzero32, [], [], false, true, c, ys.foldl (fun a y => a ||| y.2) f⟩

/-- Whether an element is inside the box (R336). -/
def insideBox (lo hi x : Nat) : Bool := cmpVal (val32 lo) (val32 x) = .lt && cmpVal (val32 x) (val32 hi) = .lt

/-- Set 4 (R336). -/
def projBox (v : List Nat) (lo hi : Nat) : Projected :=
  let m := v.map (insideBox lo hi)
  ⟨v.map fun x => minmaxCode .f32 false (minmaxCode .f32 true x lo) hi, m.countP id, m, [], false, false, 0, 0⟩

/-- A block of the cones' projection (R337). -/
structure Block where
  start : Nat
  count : Nat
  sum : FVal
  val : Nat
  deriving DecidableEq, Repr

/-- Whether a block and the one above it violate the order: `inc` is the increasing cone. -/
def violates (inc : Bool) (p q : Nat) : Bool :=
  let o := cmpVal (val32 p) (val32 q)
  if inc then o != .lt else o != .gt

/-- A block pushed on the stack, its top first, and merged while it violates; with the flags. -/
def pool (inc : Bool) (b : Block) : List Block → Nat → List Block × Nat
  | [], f => ([b], f)
  | a :: r, f =>
    if violates inc a.val b.val then
      let s := (addVal false a.sum b.sum).1
      let (v, g) := meanRound s (a.count + b.count)
      pool inc ⟨a.start, a.count + b.count, s, v⟩ r (f ||| g)
    else (b :: a :: r, f)

/-- The blocks of a row, the last first. -/
def poolAll (inc : Bool) : List Nat → Nat → List Block × Nat → List Block × Nat
  | [], _, st => st
  | x :: r, i, (l, f) => poolAll inc r (i + 1) (pool inc ⟨i, 1, val32 x, x⟩ l f)

/-- Sets 5 and 6 (R337). -/
def projCone (inc : Bool) (v : List Nat) : Projected :=
  let (l, f) := poolAll inc v 0 ([], 0)
  let l := l.reverse
  ⟨l.flatMap fun b => List.replicate b.count b.val, l.length,
    l.flatMap fun b => true :: List.replicate (b.count - 1) false, [], false, false, 0, f⟩

/-- project(c, row, P0, P1) (R332 to R337). -/
def project (set p0 p1 : Nat) (v : List Nat) : Projected :=
  if nanRow set p0 p1 v then nanOut v
  else match set with
    | 1 => projSimplex v p0
    | 2 => projL1 v p0
    | 3 => projL2 v p0
    | 4 => projBox v p0 p1
    | 5 => projCone true v
    | 6 => projCone false v
    | _ => ⟨v, v.length, [], [], false, false, 0, 0⟩

/-! ## Saved records (R339) -/

/-- The bytes of one bit mask of a record. -/
def maskSize (n : Nat) : Nat := 16 * ((n + 127) / 128)
/-- The size of a record. -/
def recordSize (n : Nat) : Nat := 16 + 2 * maskSize n

/-- Bits as a number, the first lowest. -/
def bitsNat (l : List Bool) : Nat := l.foldr (fun b n => 2 * n + if b then 1 else 0) 0

/-- The saved record of a row. -/
def savedRecord (set n : Nat) (p : Projected) : List Byte :=
  let flags := (if p.nan then 1 else 0) + if p.proj then 2 else 0
  let k := maskSize n
  natBytes 4 n ++ natBytes 4 p.sup ++ [BitVec.ofNat 8 set, BitVec.ofNat 8 flags, 0, 0] ++
  natBytes 4 (if set = 3 || p.proj then p.c else 0) ++ natBytes k (bitsNat p.mask) ++ natBytes k (bitsNat p.sign)

/-! ## Adjoints (R340, R341) -/

/-- What the adjoint of a row needs: a saved record, or what R341 derives. -/
structure Saved where
  nan : Bool
  proj : Bool
  c : Nat
  mask : List Bool
  sign : List Bool
  deriving DecidableEq, Repr

/-- `n` bits of a number. -/
def natBits (n v : Nat) : List Bool := (List.range n).map fun i => v / 2 ^ i % 2 == 1

/-- A saved record read (R339). -/
def readSaved (n : Nat) (r : List Byte) : Saved :=
  ⟨recByte r 9 % 2 == 1, recByte r 9 / 2 % 2 == 1, recNat r 12 4, natBits n (recNat r 16 (maskSize n)),
    natBits n (recNat r (16 + maskSize n) (maskSize n))⟩

/-- The mask derived from an output (R341). -/
def derivedMask (set p0 p1 : Nat) (y : List Nat) : List Bool :=
  match set with
  | 1 => y.map fun x => belowZero (negVal (val32 x))
  | 4 => y.map (insideBox p0 p1)
  | _ => true :: (y.zip y.tail).map fun p => cmpVal (val32 p.2) (val32 p.1) != .eq

/-- What R341 derives from an output. -/
def derived (set p0 p1 : Nat) (y : List Nat) : Saved :=
  if y.any fun x => isNan (val32 x) then ⟨true, false, 0, [], []⟩
  else ⟨false, true, 0, derivedMask set p0 p1 y, []⟩

/-- The flags with NV where a result is NaN (R330, R348). -/
def nvOf (r : Rounded) : Rounded := (r.1, r.2 ||| if isNan (val32 r.1) then 1 else 0)

/-- The adjoint on a support with signs: the signed mean taken off (R340). -/
def adjMean (g : List Nat) (mask sign : List Bool) : List Nat × Nat :=
  let l := g.zip (mask.zip sign)
  let s := l.filter (·.2.1)
  if s.isEmpty then (g.map fun _ => 0, 0) else
  let (sum, f) := exactSum (s.map fun p => if p.2.2 then negVal (val32 p.1) else val32 p.1)
  let (m, e) := meanRound sum s.length
  let out := l.map fun p =>
    if p.2.1 then nvOf (faddCode .f32 rmRne p.1 (if p.2.2 then m else neg32 m)) else (0, 0)
  (out.map (·.1), out.foldl (fun a x => a ||| x.2) (f ||| e))

/-- One element of the L2 ball's adjoint: c (g - y p / rho^2), rounded once (R340). -/
def adjL2Elem (c : FVal) (r2 p : FVal) (g y : Nat) : Rounded :=
  match p with
  | .fin _ _ _ =>
    -- (g rho^2 - y p) c / rho^2
    let x := (addVal false (mulVal (val32 g) r2).1 (negVal (mulVal (val32 y) p).1)).1
    nvOf (divRound (mulVal x c).1 r2)
  | _ =>
    let x := (addVal false (val32 g) (negVal (mulVal (val32 y) p).1)).1
    nvOf (roundVal .f32 rmRne (mulVal x c).1)

/-- The L2 ball's adjoint (R340). -/
def adjL2 (g y : List Nat) (c rho : Nat) : List Nat × Nat :=
  if !nonzero32 rho || c = 0 then (g.map fun _ => 0, 0) else
  let r := absVal (val32 rho)
  let (p, f) := exactSum ((y.zip g).map fun q => (mulVal (val32 q.1) (val32 q.2)).1)
  let out := (g.zip y).map fun q => adjL2Elem (val32 c) (mulVal r r).1 p q.1 q.2
  (out.map (·.1), out.foldl (fun a x => a ||| x.2) f)

/-- The blocks of a mask: the elements up to the next start. -/
def maskBlocks : List (Nat × Bool) → List (List Nat)
  | [] => []
  | (x, _) :: r => match maskBlocks r, r with
    | b :: bs, (_, false) :: _ => (x :: b) :: bs
    | bs, _ => [x] :: bs

/-- The cones' adjoint (R340). DEDUCED: notes/assumptions/50.md. -/
def adjCone (g : List Nat) (mask : List Bool) : List Nat × Nat :=
  let out := (maskBlocks (g.zip mask)).map fun b =>
    let (s, f) := exactSum (b.map val32)
    let (v, e) := meanRound s b.length
    (List.replicate b.length v, f ||| e)
  (out.flatMap (·.1), out.foldl (fun a x => a ||| x.2) 0)

/-- The adjoint of a row (R340). -/
def adjoint (set p0 : Nat) (g y : List Nat) (r : Saved) : List Nat × Nat :=
  if r.nan then (g.map fun _ => nan32, 1)
  else match set with
    | 1 => adjMean g r.mask (g.map fun _ => false)
    | 2 => if r.proj then adjMean g r.mask r.sign else (g, 0)
    | 3 => if r.proj then adjL2 g y r.c p0 else (g, 0)
    | 4 => ((g.zip r.mask).map fun p => if p.2 then p.1 else 0, 0)
    | 5 | 6 => adjCone g r.mask
    | _ => (g, 0)

/-! ## PROJ (R343 to R346) -/

/-- The set codes (R47). -/
def setCode : PSet → Nat
  | .none => 0
  | .spx => 1
  | .l1b => 2
  | .l2b => 3
  | .box => 4
  | .inc => 5
  | .dec => 6

/-- The fields of a PROJ record, and of a PADJ record under its own names (R343, R347). -/
structure ProjRec where
  src : Nat
  dst : Nat
  n : Nat
  rows : Nat
  pitch : Nat
  f16 : Nat
  f20 : Nat
  deriving DecidableEq, Repr

/-- The record of 32 bytes. -/
def projRec (b : List Byte) : ProjRec :=
  ⟨recNat b 0 4, recNat b 4 4, recNat b 8 2, recNat b 10 2, recNat b 12 4, recNat b 16 4, recNat b 20 4⟩

/-- The rules common to both records (R343). -/
def projCommon (r : ProjRec) : List (Bool × Nat) :=
  [(r.src % 4 == 0, 0), (r.dst % 4 == 0, 4), (decide (1 ≤ r.n) && decide (r.n ≤ 4096), 8),
    (decide (1 ≤ r.rows) && decide (r.rows ≤ 1024), 10), (r.pitch % 4 == 0 && decide (4 * r.n ≤ r.pitch), 12)]

/-- The lowest address outside LS among `k` pieces of `n` bytes at a stride from `a` on. -/
def outsideLs (a stride n k : Nat) : Option Nat :=
  ((List.range k).find? fun i => decide (a + i * stride + n > lsTop)).map fun i => max (a + i * stride) lsTop

/-- Step 4 of R344. -/
def insideLs (l : List (Option Nat)) : Chk Unit :=
  match (l.filterMap id).min? with
  | some a => .error (.protection, wordOf a, 0)
  | none => .ok ()

/-- The checks of PROJ (R344). -/
def projCheck (s : State) (p : Word) (sup sav : Bool) (set : Nat) (b : Word) : Chk ProjRec := do
  let rb ← readRecord s p 32 32
  let r := projRec rb
  recordRules p (projCommon r ++
    [(if sup then r.f16 % 4 == 0 else r.f16 == 0, 16), (if sav then r.f20 % 16 == 0 else r.f20 == 0, 20)] ++ zeroRules rb 24 8)
  let rs := recordSize r.n
  insideLs [outsideLs r.src r.pitch (4 * r.n) r.rows, outsideLs r.dst r.pitch (4 * r.n) r.rows,
    if sup then outsideLs r.f16 4 4 r.rows else none, if sav then outsideLs r.f20 rs rs r.rows else none]
  check (paramsLegal set (bits b 31 0) (bits b 63 32)) .protection b
  .ok r

/-- `n` f32 patterns of the core's LS. -/
def rowCodes (s : State) (a n : Nat) : List Nat := (List.range n).map fun i => bytesNat (lsBytes s (a + 4 * i) 4)

/-- A row read, with the watchpoints its reads meet; or the poisoned address in it. -/
def readRow (a n : Nat) (s : State) : Except Nat (List Nat × State) :=
  match poisonAt s.dev (lsLoc s a) (4 * n) with
  | some i => .error (a + i)
  | none =>
    let o := originOf s
    .ok (rowCodes s a n, (List.range n).foldl (fun s i =>
      watchAccess o.ctx ⟨lsLoc s (a + 4 * i), 4, false, some o.core, wordOf (a + 4 * i)⟩ o.icount s) s)

/-- Words of 4 bytes written from `a` on, each as a store (R346). -/
def writeWords (a : Nat) : List Nat → State → State
  | [], s => s
  | x :: r, s => writeWords (a + 4) r (performWrite (originOf s) 1 (wordOf a) (lsLoc s a) (natBytes 4 x) s)

/-- The words of bytes. -/
def wordsOf (k : Nat) (bs : List Byte) : List Nat := (List.range k).map fun i => recNat bs (4 * i) 4

/-- What a run of rows leaves: the state, the status, the poisoned address that stopped it. -/
structure Rows where
  s : State
  nans : Nat
  flags : Nat
  bad : Option Nat

/-- One row of PROJ (R345). -/
def projRow (r : ProjRec) (sup sav : Bool) (set p0 p1 : Nat) (x : Rows) (i : Nat) : Rows :=
  if x.bad.isSome then x else
  match readRow (r.src + i * r.pitch) r.n x.s with
  | .error a => { x with bad := some a }
  | .ok (v, s) =>
    let p := project set p0 p1 v
    let s := writeWords (r.dst + i * r.pitch) p.y s
    let s := if sup then writeWords (r.f16 + 4 * i) [p.sup] s else s
    let rs := recordSize r.n
    let s := if sav then writeWords (r.f20 + i * rs) (wordsOf (rs / 4) (savedRecord set r.n p)) s else s
    { x with s := s, nans := x.nans + (if p.nan then 1 else 0), flags := x.flags ||| p.flags }

/-- The status word (R345). -/
def statusWord (x : Rows) : Word := wordOf (min x.nans 65535 * 2 ^ 16 + x.flags % 32)

/-- The end of PROJ or PADJ: the status, or Poison with the rows before it standing (R346), after which it starts anew. -/
def endRows (s0 : State) (d : Reg) (x : Rows) : Out :=
  match x.bad with
  | some a => .next (takeTrap (causeCode .poison) (wordOf a) s0.hart.pc 0 true (markEffect x.s))
  | none => finishFx s0 [d.toNat] (setX d (statusWord x) x.s)

/-- The log space that `k` writes of 4 bytes need (R346). -/
def wordNeed (s : State) (k : Nat) : Nat := k * storeNeed s (.store (List.replicate 4 0) .normal) (lsLoc s 0)

/-- One row of PROJ or PADJ, which needs log space for `words` writes in each row left. After the last the instruction ends; after
another the number of completed rows is kept, and a stop may come there (R346). -/
def rowStep (d : Reg) (rb : List Byte) (v : Word) (i nans flags words : Nat) (row : Rows → Rows) (s : State) : Out :=
  let rows := (projRec rb).rows
  withLog s (wordNeed s ((rows - i) * words)) s fun s1 =>
    let x := row ⟨onHart (fun h => { h with mid := .none }) s1, nans, flags, none⟩
    if x.bad.isNone && decide (i + 1 < rows) then
      .next (markEffect (onHart (fun h => { h with mid := .rows rb v (i + 1) x.nans x.flags }) x.s))
    else endRows s d x

/-- Row `i` of PROJ. -/
def projFrom (d : Reg) (sup sav : Bool) (set : Nat) (rb : List Byte) (v : Word) (i nans flags : Nat) (s : State) : Out :=
  let r := projRec rb
  let words := r.n + (if sup then 1 else 0) + (if sav then recordSize r.n / 4 else 0)
  rowStep d rb v i nans flags words (fun x => projRow r sup sav set (bits v 31 0) (bits v 63 32) x i) s

/-- PROJ (R343 to R346): its checks, and row after row. DEDUCED: notes/assumptions/50.md. -/
def execProj (d a b : Reg) (sup sav : Bool) (e : PSet) (s : State) : Out :=
  let set := setCode e
  match s.hart.mid with
  | .rows rb v i nans flags => projFrom d sup sav set rb v i nans flags s
  | _ => afterChecks (projCheck s (xr s a) sup sav set (xr s b)) s fun _ =>
      projFrom d sup sav set (lsBytes s (xr s a).toNat 32) (xr s b) 0 0 0 s

/-! ## PADJ (R347, R348) -/

/-- Whether a set needs or allows SAVE and Y as given (R347). -/
def padjFields (set save y : Nat) : Bool × Bool :=
  match set with
  | 0 => (save == 0, y == 0)
  | 2 => (save != 0, y == 0)
  | 3 => (save != 0, y != 0)
  | _ => (true, (save == 0) != (y == 0))

/-- The saved records that do not fit the instruction, the first of them (R347). -/
def badSaved (s : State) (r : ProjRec) (set : Nat) : Option Nat :=
  if r.f16 = 0 then none else
  ((List.range r.rows).map fun i => r.f16 + i * recordSize r.n).find? fun a =>
    let h := lsBytes s a 16
    recNat h 0 4 != r.n || recByte h 8 != set

/-- The checks of PADJ (R347). -/
def padjCheck (s : State) (p : Word) (set : Nat) (b : Word) : Chk ProjRec := do
  let rb ← readRecord s p 32 32
  let r := projRec rb
  let (okSave, okY) := padjFields set r.f16 r.f20
  recordRules p (projCommon r ++ [(r.f16 % 16 == 0 && okSave, 16), (r.f20 % 4 == 0 && okY, 20)] ++ zeroRules rb 24 8)
  let rs := recordSize r.n
  insideLs [outsideLs r.src r.pitch (4 * r.n) r.rows, outsideLs r.dst r.pitch (4 * r.n) r.rows,
    if r.f16 = 0 then none else outsideLs r.f16 rs rs r.rows, if r.f20 = 0 then none else outsideLs r.f20 r.pitch (4 * r.n) r.rows]
  check (!(set == 3 || (set == 4 && r.f16 == 0)) || paramsLegal set (bits b 31 0) (bits b 63 32)) .protection b
  match badSaved s r set with
  | some a => .error (.protection, wordOf a, 0)
  | none => .ok r

/-- What the adjoint of row `i` needs, or the poisoned address in it. -/
def rowSaved (r : ProjRec) (set p0 p1 i : Nat) (s : State) : Except Nat (Saved × List Nat × State) := do
  let (y, s) ← if r.f20 = 0 then .ok ([], s) else readRow (r.f20 + i * r.pitch) r.n s
  if r.f16 = 0 then
    .ok (if set = 0 then ⟨false, false, 0, [], []⟩ else derived set p0 p1 y, y, s)
  else
    let a := r.f16 + i * recordSize r.n
    let (_, s) ← readRow a (recordSize r.n / 4) s
    .ok (readSaved r.n (lsBytes s a (recordSize r.n)), y, s)

/-- One row of PADJ (R348). -/
def padjRow (r : ProjRec) (set p0 p1 : Nat) (x : Rows) (i : Nat) : Rows :=
  if x.bad.isSome then x else
  let got := do
    let (g, s) ← readRow (r.src + i * r.pitch) r.n x.s
    let (sv, y, s) ← rowSaved r set p0 p1 i s
    .ok (g, sv, y, s)
  match (got : Except Nat (List Nat × Saved × List Nat × State)) with
  | .error a => { x with bad := some a }
  | .ok (g, sv, y, s) =>
    let (dx, f) := adjoint set p0 g y sv
    { x with
      s := writeWords (r.dst + i * r.pitch) dx s, nans := x.nans + (if sv.nan then 1 else 0), flags := x.flags ||| f }

/-- Row `i` of PADJ. -/
def padjFrom (d : Reg) (set : Nat) (rb : List Byte) (v : Word) (i nans flags : Nat) (s : State) : Out :=
  let r := projRec rb
  rowStep d rb v i nans flags r.n (fun x => padjRow r set (bits v 31 0) (bits v 63 32) x i) s

/-- PADJ (R347, R348): its checks, and row after row. DEDUCED: notes/assumptions/50.md. -/
def execPadj (d a b : Reg) (e : PSet) (s : State) : Out :=
  let set := setCode e
  match s.hart.mid with
  | .rows rb v i nans flags => padjFrom d set rb v i nans flags s
  | _ => afterChecks (padjCheck s (xr s a) set (xr s b)) s fun _ =>
      padjFrom d set (lsBytes s (xr s a).toNat 32) (xr s b) 0 0 0 s

end Sys2Proof.Machine
end

