-- ==== Sys2Proof/Machine/Matrix.lean ====
section
/-! DEFINITION. The matrix instructions (R301 to R325): pegs, format contexts, rings, the commands of a unit and what they do.
A command runs whole when it starts (notes/assumptions/8.md). -/

namespace Sys2Proof.Machine

/-! ## Pegs (R301, R302) -/

/-- The bay of a cluster. -/
def bayOfCluster (c : Nat) : Nat := c / 8

/-- Whether a cluster lies in the context's partition. -/
def clusterInPartition (s : State) (c : Nat) : Bool := coreInPartition s (16 * c)

/-- What a peg stands for: the serial number of its context, a cluster, and the kind of the peg. -/
def pegCode (serial c : Nat) (bay : Bool) : Nat := serial % 2 ^ 53 * 1024 + c % 512 * 2 + if bay then 1 else 0

/-- The peg of a context's cluster (R301): nonzero, and hidden under the device's key. DESIGN CHOICE: notes/assumptions/5.md. -/
def pegOf (serial c : Nat) (bay : Bool) : Word := wordOf ((Config.pegKey % 2 ^ 63 ^^^ pegCode serial c bay) * 2 + 1)

/-- The serial number of the core's context. -/
def ctxSerial (s : State) : Nat := match curCtx s with | some x => x.serial | none => 0

/-- What a peg names: the lead cluster, and whether it is a bay peg; none for a value that is not one of the context's.
DESIGN CHOICE: notes/assumptions/5.md. -/
def unpeg (s : State) (v : Word) : Option (Nat × Bool) :=
  let k := v.toNat / 2 ^^^ Config.pegKey % 2 ^ 63
  let c := k / 2 % 512
  let bay := k % 2 == 1
  if clusterInPartition s c && v == pegOf (ctxSerial s) c bay then some (c, bay) else none

/-- R302: the peg check, before every other value check. -/
def pegCheck (s : State) (v : Word) : Chk (Nat × Bool) :=
  match unpeg s v with
  | some p => .ok p
  | none => .error (.protection, v, 0)

/-- The clusters of the units that a peg names. -/
def pegUnits (c : Nat) (bay : Bool) : List Nat := if bay then rangeFrom (8 * bayOfCluster c) 8 else [c]

/-- MCAP (R301). -/
def execMcap (d a : Reg) (s : State) : Out :=
  let v := xr s a
  let c := v.toNat % 512
  let bay := v.toNat / 2 ^ 16 % 2 == 1
  if v.toNat == c + (if bay then 2 ^ 16 else 0) && clusterInPartition s c then
    finish s [d.toNat] (setX d (pegOf (ctxSerial s) c bay) s)
  else trap .protection v s

/-! ## Units -/

/-- The unit of a cluster. -/
def unitOf (s : State) (c : Nat) : MUnit := (s.dev.units.find? fun u => u.cluster == c).getD (.reset c)

/-- A unit changed; one that no command has reached before joins the list. -/
def onUnit (c : Nat) (f : MUnit → MUnit) (s : State) : State :=
  onDev (fun d =>
    let us := if d.units.any (fun u => u.cluster == c) then modWhere (fun u => u.cluster == c) f d.units
      else d.units ++ [f (.reset c)]
    { d with units := us }) s

/-- Several units changed. -/
def onUnits (cs : List Nat) (f : MUnit → MUnit) (s : State) : State := cs.foldl (fun s c => onUnit c f s) s

/-- The format word of a core in a unit (R303). -/
def formatOf (u : MUnit) (core : Nat) : Option Word := (u.fctx.find? fun p => p.1 == core).map (·.2)

/-- A field of a format word. -/
def fmtField (w : Word) (o n : Nat) : Nat := w.toNat / 2 ^ o % 2 ^ n
/-- ATY. -/
def fmtA (w : Word) : Ty := tyCode (fmtField w 0 4)
/-- BTY. -/
def fmtB (w : Word) : Ty := tyCode (fmtField w 4 4)
/-- OTY. -/
def fmtO (w : Word) : Ty := tyCode (fmtField w 8 4)
/-- ASC. -/
def fmtAsc (w : Word) : Bool := w.getLsbD 12
/-- BSC. -/
def fmtBsc (w : Word) : Bool := w.getLsbD 13
/-- OSC. -/
def fmtOsc (w : Word) : Bool := w.getLsbD 14
/-- ORND. -/
def fmtRnd (w : Word) : Nat := fmtField w 16 3
/-- The drained rows. -/
def fmtM (w : Word) : Nat := 128 / 2 ^ fmtField w 20 2
/-- The drained columns of a unit. -/
def fmtN (w : Word) : Nat := 128 / 2 ^ fmtField w 22 2
/-- P0, widened to f32 (R314). -/
def fmtP0 (w : Word) : Nat := fmtField w 32 16 * 2 ^ 16
/-- P1, widened to f32. -/
def fmtP1 (w : Word) : Nat := fmtField w 48 16 * 2 ^ 16

/-- Whether a format word keeps the rules of R303. -/
def fmtLegal (w : Word) : Bool :=
  let op := fun o => decide (8 ≤ fmtField w o 4) && decide (fmtField w o 4 ≤ 11)
  op 0 && op 4 && decide (8 ≤ fmtField w 8 4) && decide (fmtField w 8 4 ≤ 12) &&
  (!fmtAsc w || (fmtA w).isFp8) && (!fmtBsc w || (fmtB w).isFp8) && (!fmtOsc w || (fmtO w).isFp8) &&
  !w.getLsbD 15 && fmtRnd w != 6 && !w.getLsbD 19 && fmtField w 24 8 == 0

/-! ## Sending a command (R302) -/

/-- A command put into the queues of its units. -/
def sendCmd (us : List Nat) (bay : Bool) (lead : Nat) (op : MOp) (gen : Word) (s : State) : State :=
  let c : MCmd :=
    { id := s.dev.nextEng, seq := s.hart.nextSeq + 1, core := s.hart.ar.core, ctx := s.hart.ar.ctx, bay := bay, lead := lead
      op := op, nbv := s.hart.ar.nbv, rnd := frmOf s, sat := s.hart.ar.satf, gen := gen, user := s.hart.mode == .u
      org := originOf s }
  countSent (onHart (fun h => { h with nextSeq := h.nextSeq + 1, mfull := false })
    (onDev (fun d => { d with nextEng := d.nextEng + 1 })
      (onUnits us (fun u => { u with queue := u.queue ++ [c] }) s)))

/-- Whether a queue of the units is full. -/
def queuesFull (s : State) (us : List Nat) : Bool := us.any fun c => decide (32 ≤ (unitOf s c).queue.length)

/-- A checked command: it waits for a place in every queue, or enters them. DEDUCED: notes/assumptions/60.md. -/
def sendOrWait (us : List Nat) (bay : Bool) (lead : Nat) (op : MOp) (s : State) : Out :=
  if queuesFull s us then .next (onHart (fun h => { h with mfull := true }) s)
  else finishFx s [] (sendCmd us bay lead op 0 s)

/-- The format word that a core's next command will find in a unit: the last one queued, or the one that stands.
DEDUCED: notes/assumptions/52.md. -/
def nextFormat (u : MUnit) (core : Nat) : Word :=
  ((u.queue.filterMap fun c => match c.op with
    | .mcset w => if c.core == core then some w else none
    | _ => none).getLast?).getD ((formatOf u core).getD 0)

/-- The cores that hold or will hold a format context in a unit (R303). -/
def formatHolders (u : MUnit) : List Nat :=
  (u.fctx.map (·.1) ++ u.queue.filterMap fun c => match c.op with
    | .mcset w => if w = 0 then none else some c.core
    | _ => none).dedup

/-- Whether a unit has no place left for a core's context. DEDUCED: notes/assumptions/52.md. -/
def formatsFull (s : State) (c : Nat) : Bool :=
  let l := formatHolders (unitOf s c)
  !l.contains s.hart.ar.core && decide (16 ≤ l.length)

/-- The checks of MCSET (R302, R303). DEDUCED: notes/assumptions/52.md. -/
def mcsetCheck (s : State) (p w : Word) : Chk (Nat × Bool) := do
  let (c, bay) ← pegCheck s p
  check (w == 0 || fmtLegal w) .protection w
  check (w == 0 || !(pegUnits c bay).any (formatsFull s)) .protection p
  .ok (c, bay)

/-- MCSET (R303). -/
def execMcset (a b : Reg) (s : State) : Out :=
  afterChecks (mcsetCheck s (xr s a) (xr s b)) s fun (c, bay) => sendOrWait (pegUnits c bay) bay c (.mcset (xr s b)) s

/-- MCGET (R304). -/
def execMcget (d a : Reg) (s : State) : Out :=
  afterChecks (pegCheck s (xr s a)) s fun (c, _) =>
    finish s [d.toNat] (setX d ((formatOf (unitOf s c) s.hart.ar.core).getD 0) s)

/-! ## Rings (R305 to R307) -/

/-- The ring that a record describes (R305). -/
def ringOf (r : List Byte) : Ring :=
  { base := recNat r 0 8, slot := recNat r 8 4, cap := recNat r 12 2, roleB := recByte r 15 == 1, coded := recByte r 16 == 1
    head := 0, tail := 0 }

/-- The legal fields of a ring record (R305, R445). -/
def ringRules (r : List Byte) : List (Bool × Nat) :=
  let g := ringOf r
  [ (g.base % 128 == 0 && decide (0x100000 ≤ g.base) && decide (g.base + 128 ≤ 0x500000), 0),
    (g.slot % 128 == 0 && decide (128 ≤ g.slot) && decide (g.slot ≤ 262144) && decide (g.base + g.slot ≤ 0x500000), 8),
    (decide (1 ≤ g.cap) && decide (g.cap ≤ 64) && decide (g.base + g.slot * g.cap ≤ 0x500000), 12),
    (decide (recByte r 14 ≤ 7), 14), (decide (recByte r 15 ≤ 1), 15), (decide (recByte r 16 ≤ 1), 16) ] ++ zeroRules r 17 15

/-- The checks of MRSET (R302, R305). -/
def mrsetCheck (s : State) (p a : Word) : Chk (Nat × Bool × List Byte) := do
  let (c, bay) ← pegCheck s p
  let r ← readRecord s a 32 32
  recordRules a (ringRules r)
  .ok (c, bay, r)

/-- MRSET (R305). -/
def execMrset (a b : Reg) (s : State) : Out :=
  afterChecks (mrsetCheck s (xr s a) (xr s b)) s fun (c, bay, r) =>
    sendOrWait (pegUnits c bay) bay c (.mrset (recByte r 14) (ringOf r)) s

/-- A ring of a unit. -/
def unitRing (u : MUnit) (r : Nat) : Option Ring := (u.rings[r]?).join

/-- MRADV's answer (R306). -/
def advAnswer (gs : List (Option Ring)) (n : Nat) : Nat :=
  if gs.any Option.isNone then 2
  else if gs.any fun g => match g with | some g => decide (g.cap < g.tail - g.head + n) | none => false then 1
  else 0

/-- TAIL of a ring advanced. -/
def advRing (r n : Nat) (u : MUnit) : MUnit :=
  match unitRing u r with
  | some g => { u with rings := u.rings.setIfInBounds r (some { g with tail := g.tail + n }) }
  | none => u

/-- The checks of MRADV (R302, R306). DEDUCED: notes/assumptions/53.md. -/
def mradvCheck (s : State) (p v : Word) : Chk (Nat × Bool) := do
  let q ← pegCheck s p
  check (v &&& ~~~0xFF07 == 0 && decide (1 ≤ fmtField v 8 8) && decide (fmtField v 8 8 ≤ 64)) .protection v
  .ok q

/-- MRADV (R306): it releases first, then asks the units. DEDUCED: notes/assumptions/53.md. -/
def execMradv (d a b : Reg) (s : State) : Out :=
  afterChecks (mradvCheck s (xr s a) (xr s b)) s fun (c, bay) =>
    let r := fmtField (xr s b) 0 3
    let n := fmtField (xr s b) 8 8
    let us := pegUnits c bay
    let sc : Scope := if us = [s.hart.ar.cluster] then .clu else .dev
    if !released s sc (s.hart.nextSeq + 1) then hold s
    else
      let x := advAnswer (us.map fun c => unitRing (unitOf s c) r) n
      finishFx s [d.toNat] (setX d (wordOf x) (if x = 0 then onUnits us (advRing r n) s else s))

/-- The state of a ring (R307). -/
def ringState (g : Option Ring) : Nat :=
  match g with
  | none => 0
  | some g => fieldAt true 42 + fieldAt g.coded 41 + fieldAt g.roleB 40 + g.cap % 256 * 2 ^ 32 + g.tail % 2 ^ 16 * 2 ^ 16 +
      g.head % 2 ^ 16

/-- The checks of MRSTAT (R302, R307). -/
def mrstatCheck (s : State) (p v : Word) : Chk (Nat × Bool) := do
  let q ← pegCheck s p
  check (v &&& ~~~7 == 0) .protection v
  .ok q

/-- MRSTAT (R307). -/
def execMrstat (d a b : Reg) (s : State) : Out :=
  afterChecks (mrstatCheck s (xr s a) (xr s b)) s fun (c, _) =>
    finish s [d.toNat] (setX d (wordOf (ringState (unitRing (unitOf s c) (fmtField (xr s b) 0 3)))) s)

/-! ## MMA, MMAB, MPASS, MZERO, MDRAIN, MFENCE, MSTAT at issue (R319, R322 to R324) -/

/-- MMA (R311, R322): a bay peg names the lead unit only. -/
def execMma (n : BitVec 2) (ra rb : BitVec 3) (p : Reg) (code : BitVec 6) (s : State) : Out :=
  afterChecks (pegCheck s (xr s p)) s fun (c, _) => sendOrWait [c] false c (.mma n.toNat ra.toNat rb.toNat code) s

/-- MMAB (R312, R322): it needs a bay peg. -/
def execMmab (n : BitVec 2) (ra rb : BitVec 3) (p : Reg) (code : BitVec 6) (s : State) : Out :=
  afterChecks (pegCheck s (xr s p)) s fun (c, bay) =>
    if bay then sendOrWait (pegUnits c true) true c (.mmab n.toNat ra.toNat rb.toNat code) s else trap .protection (xr s p) s

/-- MPASS (R313, R322). -/
def execMpass (n : BitVec 2) (ra rb : BitVec 3) (p : Reg) (code : BitVec 6) (s : State) : Out :=
  afterChecks (pegCheck s (xr s p)) s fun (c, _) => sendOrWait [c] false c (.mpass n.toNat ra.toNat rb.toNat code) s

/-- MZERO (R324). -/
def execMzero (n : BitVec 2) (a : Reg) (s : State) : Out :=
  afterChecks (pegCheck s (xr s a)) s fun (c, bay) => sendOrWait (pegUnits c bay) bay c (.mzero n.toNat) s

/-- The bytes from D to the end of a drain's last part (R315), by its format, columns and options: at least one. -/
def drainBytes (w : Word) (units : Nat) (tr sup : Bool) : Nat :=
  let rows := fmtM w
  let nt := fmtN w * units
  let len := rows * nt * tySize (fmtO w) + if fmtOsc w then rows / 32 * (nt / 32) + 2 else 0
  let fin := if tr then ceilDiv len 128 * 128 + len else len
  max 1 (if sup then ceilDiv fin 128 * 128 + 4 * rows else fin)

/-- The view slot that an address names, resolved (R173, R315): steps 5, 5a for the `n` bytes of the drain, and 6 with ELEM. -/
def drainView (s : State) (a : Word) (n : Nat) : Chk (Option (Nat × Nat)) :=
  let o := a.toNat - viewBase
  if viewBase ≤ a.toNat && a.toNat < viewTop then
    match (s.hart.views[o / 2 ^ 32]?).join with
    | none => .error (.translation, a, 0)
    | some (h, w) => match liveTensor s (wordOf h) with
      | none => .error (.translation, a, 0)
      | some t => do
        check (decide (o % 2 ^ 32 + n ≤ min (2 ^ 32) (tBytes t - w * 2 ^ 32))) .protection a
        needOp t TOp.elem.code
        .ok (some (h, w))
  else .ok none

/-- The bytes of a drain under the format that it will find in its lead unit; one where it will find none. -/
def drainSpan (s : State) (c : Nat) (bay tr sup : Bool) : Nat :=
  let w := nextFormat (unitOf s c) s.hart.ar.core
  if w = 0 then 1 else drainBytes w (if bay then 8 else 1) tr sup

/-- The checks of MDRAIN (R323). DEDUCED: notes/assumptions/57.md. -/
def mdrainCheck (s : State) (p a : Word) (tr sup : Bool) : Chk (Nat × Bool × Option (Nat × Nat)) := do
  let (c, bay) ← pegCheck s p
  let scr := decide (0x100000 ≤ a.toNat) && decide (a.toNat < 0x500000)
  check (a.toNat % 128 == 0) .misaligned a
  check (scr || isDevVa a || (decide (viewBase ≤ a.toNat) && decide (a.toNat < viewTop))) .protection a
  check (!(bay && scr)) .protection a
  let v ← drainView s a (drainSpan s c bay tr sup)
  .ok (c, bay, v)

/-- Whether a drain will round stochastically (R446): ORND is 0 in the format it will find, and FRM holds 6. -/
def drainSto (s : State) (c : Nat) : Bool := fmtRnd (nextFormat (unitOf s c) s.hart.ar.core) == 0 && frmOf s == .sto

/-- MDRAIN (R314, R323, R446). -/
def execMdrain (n : BitVec 2) (a b : Reg) (sup clr tr : Bool) (set : PSet) (s : State) : Out :=
  afterChecks (mdrainCheck s (xr s a) (xr s b) tr sup) s fun (c, bay, v) =>
    let us := pegUnits c bay
    let op : MOp := .mdrain n.toNat set tr clr sup (xr s b) v
    if queuesFull s us then sendOrWait us bay c op s
    else
      let s1 := if drainSto s c then setLfsr (lfsrAdvance s.hart.ar.lfsr) s else s
      finishFx s [] (sendCmd us bay c op s1.hart.ar.lfsr s1)

/-- Whether a unit's queue holds a command of the core. -/
def mineQueued (s : State) (c : Nat) : Bool := (unitOf s c).queue.any fun k => k.core == s.hart.ar.core

/-- The lines that the core's drains from a unit have written and no MFENCE has acquired. DEDUCED: notes/assumptions/60.md. -/
def drainLines (s : State) (c : Nat) : List Loc :=
  ((unitOf s c).wrote.filter fun p => p.1 == s.hart.ar.core).flatMap (·.2)

/-- The lines of a core's drains acquired. DEDUCED: notes/assumptions/60.md. -/
def forgetLines (core : Nat) (u : MUnit) : MUnit := { u with wrote := u.wrote.filter fun p => p.1 != core }

/-- MFENCE (R319). -/
def execMfence (a : Reg) (s : State) : Out :=
  afterChecks (pegCheck s (xr s a)) s fun (c, bay) =>
    let us := pegUnits c bay
    if us.any (mineQueued s) then hold s
    else
      let me := s.hart.ar.core
      finish s [] (onUnits us (forgetLines me) (acquireWrote (us.flatMap (drainLines s)) s))

/-- The 32 bytes of MSTAT (R324). -/
def mstatBytes (s : State) (c n : Nat) : List Byte :=
  let u := unitOf s c
  natBytes 4 (u.status.getD n 0).toNat ++ natBytes 2 (u.queue.filter fun k => k.core == s.hart.ar.core).length ++
  natBytes 2 u.queue.length ++ natBytes 8 (u.changed.getD n 0).toNat ++ natBytes 4 (u.drainAddr.getD n 0).toNat ++
  natBytes 1 (u.drainCause.getD n 0).toNat ++ List.replicate 11 0

/-- The checks of MSTAT (R302, R324). -/
def mstatCheck (s : State) (p a : Word) : Chk (Nat × Bool) := do
  let q ← pegCheck s p
  check (a.toNat % 32 == 0) .misaligned a
  check (decide (a.toNat + 31 < lsTop)) .protection a
  .ok q

/-- MSTAT (R324): it waits until the core's earlier commands to the lead unit have started. -/
def execMstat (n : BitVec 2) (a b : Reg) (s : State) : Out :=
  afterChecks (mstatCheck s (xr s a) (xr s b)) s fun (c, _) =>
    if mineQueued s c then hold s
    else
      let l := lsLoc s (xr s b).toNat
      let bs := mstatBytes s c n.toNat
      withLog s (storeNeed s (.store bs .normal) l) s fun s1 => finishFx s [] (performWrite (originOf s) 1 (xr s b) l bs s1)

/-! ## Commands at a unit (R316, R318) -/

/-- The units that a queued command names. -/
def cmdUnits (c : MCmd) : List Nat := pegUnits c.lead c.bay

/-- The command at the head of a unit's queue. -/
def headCmd (s : State) (c : Nat) : Option MCmd := (unitOf s c).queue.head?

/-- Whether a command stands at the head of every unit it names: all ahead of it have started (R312, R318). -/
def allHeads (s : State) (c : MCmd) : Bool := (cmdUnits c).all fun u => (headCmd s u).map (·.id) == some c.id

/-- A command retired: it leaves the queues of some units. -/
def popCmd (us : List Nat) (id : Nat) (s : State) : State :=
  onUnits us (fun u => { u with queue := u.queue.filter fun k => k.id != id }) s

/-- Flags set in an accumulator's status word (R317). -/
def orStatus (n b : Nat) (u : MUnit) : MUnit :=
  { u with status := u.status.setIfInBounds n (u.status.getD n 0 ||| BitVec.ofNat 32 b) }

/-- The time of an accumulator's last change (R324). -/
def stamp (n : Nat) (t : Word) (u : MUnit) : MUnit := { u with changed := u.changed.setIfInBounds n t }

/-- The flags of FFLAGS in the places of the status word (R64, R317). -/
def statusFlags (f : Nat) : Nat := (f % 2) + f / 4 % 8 * 2

/-- ECODE. -/
def mEcode : Nat := 2 ^ 12
/-- EDRAIN. -/
def mEdrain : Nat := 2 ^ 11
/-- PASSBAD. -/
def mPassbad : Nat := 2 ^ 10
/-- EMODE. -/
def mEmode : Nat := 2 ^ 9
/-- ERING, which ESHAPE also sets. -/
def mEring : Nat := 2 ^ 8
/-- RAW. -/
def mRaw : Nat := 2 ^ 4

/-- Whether an accumulator holds bit patterns. -/
def isRaw (u : MUnit) (n : Nat) : Bool := (u.status.getD n 0).getLsbD 4

/-- An element of an accumulator. -/
def accGet (u : MUnit) (n i j : Nat) : Nat := (smGet u.acc (n * 16384 + i * 128 + j)).toNat

/-- Part of a row of an accumulator written. -/
def accPut (n i : Nat) : Nat → List Nat → SMap 32 → SMap 32
  | _, [], m => m
  | j, v :: r, m => accPut n i (j + 1) r (smSet m (n * 16384 + i * 128 + j) (BitVec.ofNat 32 v))

/-- Rows of an accumulator written from row `i` on, each from column 0. -/
def accPutRows (n : Nat) : Nat → List (List Nat) → SMap 32 → SMap 32
  | _, [], m => m
  | i, r :: rs, m => accPutRows n (i + 1) rs (accPut n i 0 r m)

/-- The shape of a code: M, N and K (R310). -/
def shapeM (c : BitVec 6) : Nat := 128 / 2 ^ (c.toNat % 4)
/-- N. -/
def shapeN (c : BitVec 6) : Nat := 128 / 2 ^ (c.toNat / 4 % 4)
/-- K. -/
def shapeK (c : BitVec 6) : Nat := 32 * 2 ^ (c.toNat / 16)

/-! ## Tiles (R308, R320) -/

/-- An operand tile: where its ring lies, its element type, whether it is scaled, and its rows and columns. -/
structure Operand where
  cluster : Nat
  ring : Nat
  roleB : Bool
  ty : Ty
  scaled : Bool
  rows : Nat
  cols : Nat
  deriving DecidableEq, Repr

/-- The bytes of a tile's scales. -/
def operandScales (o : Operand) : Nat := if o.scaled then (o.rows / 32) * (o.cols / 32) + 2 else 0

/-- The ring of an operand. -/
def operandRing (s : State) (o : Operand) : Option Ring := unitRing (unitOf s o.cluster) o.ring

/-- The flag of the first of R316's checks of a ring and its shape that fails; 0 if none does.
DEDUCED: notes/assumptions/54.md. -/
def operandFlag (s : State) (o : Operand) : Nat :=
  match operandRing s o with
  | none => mEring
  | some g =>
    if g.roleB != o.roleB || decide (scratchOf s o.cluster < g.base - 0x100000 + g.slot * g.cap) ||
      (!g.coded && decide (g.slot < o.rows * o.cols * tySize o.ty + operandScales o)) then mEring
    else if o.scaled && (o.rows % 32 != 0 || o.cols % 32 != 0) then mEring
    else 0

/-- Whether an operand's head tile is published (R316, R320). -/
def published (s : State) (o : Operand) : Bool :=
  match operandRing s o with
  | some g => decide (g.head < g.tail)
  | none => false

/-- A tile read: its patterns, its block scales and tensor scale as codes, and the first poisoned address. -/
structure Tile where
  els : List Nat
  scales : List Nat
  tscale : Nat
  bad : Option Nat
  deriving DecidableEq, Repr



/-- The blocks of a coded tile decoded from `pos` on (R289, R308): the patterns and the end, or the flag set. -/
def decodeBlocks (tabs : Vector (BitVec 1024) 8) (t : Ty) (bs : List Byte) : List Nat → Nat → Except Nat (List Nat × Nat)
  | [], pos => .ok ([], pos)
  | n :: r, pos =>
    let len := recNat bs pos 2
    if bs.length < pos + max 8 len then .error mEring
    else match ehDecode tabs t n ((bs.drop pos).take (max 8 len)) with
      | none => .error mEcode
      | some els => do
        let (l, p) ← decodeBlocks tabs t bs r (pos + max 8 len)
        .ok (els ++ l, p)

/-- The elements of each block of a stream of `n` elements. -/
def blockCounts (t : Ty) (n : Nat) : List Nat := (chunks (ehCount t) n (List.range n)).map List.length

/-- The scales of a tile from offset `pos` of its slot. -/
def tileScales (o : Operand) (bs : List Byte) (pos : Nat) : List Nat × Nat :=
  if o.scaled then
    let k := (o.rows / 32) * (o.cols / 32)
    ((List.range k).map fun i => recByte bs (pos + i), recNat bs (pos + k) 2)
  else ([], 0)

/-- The head tile of an operand, or the flag of a stream that R289 refuses. -/
def readTile (s : State) (o : Operand) (g : Ring) : Except Nat Tile :=
  let off := g.base - 0x100000 + g.slot * (g.head % g.cap)
  let l : Loc := ⟨.scr o.cluster, off⟩
  let z := tySize o.ty
  let n := o.rows * o.cols
  let bad := fun (k : Nat) => (poisonAt s.dev l k).map fun i => 0x100000 + off + i
  if g.coded then
    let bs := rawBytes s.dev l g.slot
    match decodeBlocks (tablesOf s o.cluster) o.ty bs (blockCounts o.ty n) 0 with
    | .ok (els, p) =>
      let p := ceilDiv p 8 * 8
      if g.slot < p + operandScales o then .error mEring
      else .ok ⟨els, (tileScales o bs p).1, (tileScales o bs p).2, bad (p + operandScales o)⟩
    | .error f => match bad g.slot with
      | some a => .ok ⟨[], [], 0, some a⟩
      | none => .error f
  else
    let bs := rawBytes s.dev l (n * z + operandScales o)
    .ok ⟨(chunks z n (bs.take (n * z))).map bytesNat, (tileScales o bs (n * z)).1, (tileScales o bs (n * z)).2,
      bad (n * z + operandScales o)⟩

/-- The scale of a block of a tile: the product of its block and tensor scales, with the flags of an invalid one (R59). -/
def tileScale (o : Operand) (t : Tile) (bi bj : Nat) : FVal × Nat :=
  if o.scaled then scaleVal (fdec .e5m3 (t.scales.getD (bi * (o.cols / 32) + bj) 0)) (fdec .bf16 t.tscale)
  else (.fin false 1 0, 0)

/-! ## Products (R74, R311, R312) -/

/-- The two operands of a command in unit `u` whose A tile lies in `lead`, under a format word. -/
def operands (w : Word) (lead u ra rb : Nat) (code : BitVec 6) : Operand × Operand :=
  (⟨lead, ra, false, fmtA w, fmtAsc w, shapeM code, shapeK code⟩, ⟨u, rb, true, fmtB w, fmtBsc w, shapeK code, shapeN code⟩)

/-- One chunk's exact sum under its scales, rounded to f32 (R74): the term and its flags. -/
def chunkTerm (nbv scaled : Bool) (ps : List (FVal × Nat)) (sc : FVal × Nat) : Rounded :=
  let (v, f) := sumVal (ps.foldl sumAdd sumZero)
  let (v, f) := if scaled then let (x, g) := mulVal v sc.1; (x, f ||| g ||| sc.2) else (v, f)
  let (t, g) := roundVal .f32 ⟨if nbv then .rtz else .rne, true, 0⟩ v
  (t, f ||| g)

/-- One accumulator element with a whole product added, chunk after chunk (R74). -/
def productElem (nbv : Bool) (oa ob : Operand) (ta tb : Tile) (va vb : Array FVal) (i j acc : Nat) : Rounded :=
  let g := if nbv then 8 else 16
  (List.range (oa.cols / g)).foldl (fun (p : Rounded) c =>
    let ps := (rangeFrom (c * g) g).map fun k => mulVal (va.getD (i * oa.cols + k) .nan) (vb.getD (k * ob.cols + j) .nan)
    let (x, fx) := tileScale oa ta (i / 32) (c * g / 32)
    let (y, fy) := tileScale ob tb (c * g / 32) (j / 32)
    let (z, fz) := mulVal x y
    let (t, f) := chunkTerm nbv (oa.scaled || ob.scaled) ps (z, fx ||| fy ||| fz)
    let (a, h) := faddCode .f32 rmRne p.1 t
    (a, p.2 ||| f ||| h)) (acc, 0)

/-- A unit with the product of two tiles added to its accumulator (R74, R311), or the canonical NaN where a tile holds
poison (R316). DEDUCED: notes/assumptions/59.md. -/
def addProduct (nbv : Bool) (n : Nat) (oa ob : Operand) (ta tb : Tile) (u : MUnit) : MUnit :=
  if ta.bad.isSome || tb.bad.isSome then
    { u with acc := accPutRows n 0 (List.replicate oa.rows (List.replicate ob.cols (nanCode .f32))) u.acc }
  else
    let va := (ta.els.map (fdec oa.ty)).toArray
    let vb := (tb.els.map (fdec ob.ty)).toArray
    let rows := (List.range oa.rows).map fun i => (List.range ob.cols).map fun j =>
      productElem nbv oa ob ta tb va vb i j (accGet u n i j)
    orStatus n (statusFlags (rows.foldl (fun f r => r.foldl (fun f p => f ||| p.2) f) 0))
      { u with acc := accPutRows n 0 (rows.map fun r => r.map (·.1)) u.acc }

/-- HEAD of a ring advanced. -/
def popRing (r : Nat) (u : MUnit) : MUnit :=
  match unitRing u r with
  | some g => { u with rings := u.rings.setIfInBounds r (some { g with head := g.head + 1 }) }
  | none => u

/-- The message of a poisoned tile (R316). DEDUCED: notes/assumptions/56.md. -/
def poisonMsg (core n : Nat) (t : Tile) (s : State) : State :=
  match t.bad with
  | some a => postMsg core ⟨BitVec.ofNat 8 n, causeCode .poison, 0x10, BitVec.ofNat 32 a, 0, [], 0⟩ s
  | none => s

/-- The flag that R316's checks set for one unit of a command: no format context, an accumulator of bit patterns where
`raw` forbids it, and the operands. DEDUCED: notes/assumptions/54.md. -/
def productFlag (s : State) (c : MCmd) (u n ra rb : Nat) (code : BitVec 6) (raw : Bool) : Nat :=
  match formatOf (unitOf s u) c.core with
  | none => mEmode
  | some w =>
    if raw && isRaw (unitOf s u) n then mEmode
    else
      let (oa, ob) := operands w c.lead u ra rb code
      let f := operandFlag s oa
      if f != 0 then f else operandFlag s ob

/-- Whether both head tiles of a unit's command are published. -/
def productReady (s : State) (c : MCmd) (u ra rb : Nat) (code : BitVec 6) : Bool :=
  let (oa, ob) := operands ((formatOf (unitOf s u) c.core).getD 0) c.lead u ra rb code
  published s oa && published s ob

/-- The operands and tiles of a unit's command. -/
def productTiles (s : State) (c : MCmd) (u ra rb : Nat) (code : BitVec 6) :
    Except Nat (Operand × Operand × Tile × Tile) :=
  let (oa, ob) := operands ((formatOf (unitOf s u) c.core).getD 0) c.lead u ra rb code
  match operandRing s oa, operandRing s ob with
  | some ga, some gb => do
    let ta ← readTile s oa ga
    let tb ← readTile s ob gb
    .ok (oa, ob, ta, tb)
  | _, _ => .error mEring

/-- What the tiles of several units give: the flag of every stream refused, or all of them. -/
def tilesOf (s : State) (c : MCmd) (us : List Nat) (ra rb : Nat) (code : BitVec 6) :
    Except Nat (List (Nat × Operand × Operand × Tile × Tile)) :=
  let l := us.map fun u => (u, productTiles s c u ra rb code)
  let f := l.foldl (fun f p => match p.2 with | .error g => f ||| g | .ok _ => f) 0
  if f != 0 then .error f
  else .ok (l.filterMap fun p => match p.2 with | .ok t => some (p.1, t) | .error _ => none)

/-- A product command refused: its flag in every unit it names, and it counts as retired (R312, R316).
DEDUCED: notes/assumptions/54.md. -/
def refuseCmd (c : MCmd) (n f : Nat) (s : State) : State := popCmd (cmdUnits c) c.id (onUnits (cmdUnits c) (orStatus n f) s)

/-- A command with two rings started (R311 to R313, R316): `work` is what one unit does with its tiles.
DEDUCED: notes/assumptions/56.md. -/
def runProduct (c : MCmd) (n ra rb : Nat) (code : BitVec 6) (raw : Bool)
    (work : Operand → Operand → Tile → Tile → MUnit → MUnit) (s : State) : Out :=
  let us := cmdUnits c
  let f := us.foldl (fun f u => f ||| productFlag s c u n ra rb code raw) 0
  if f != 0 then .next (refuseCmd c n f s)
  else if !us.all fun u => productReady s c u ra rb code then .next s
  else match tilesOf s c us ra rb code with
    | .error f => .next (refuseCmd c n f s)
    | .ok l =>
      let s := passTime s
      let s := l.foldl (fun s p => onUnit p.1 (fun u => stamp n s.dev.time (work p.2.1 p.2.2.1 p.2.2.2.1 p.2.2.2.2 u)) s) s
      let s := match l.head? with | some p => poisonMsg c.core n p.2.2.2.1 s | none => s
      let s := l.foldl (fun s p => poisonMsg c.core n p.2.2.2.2 s) s
      .next (settle (popCmd us c.id (onUnits us (popRing rb) (onUnit c.lead (popRing ra) s))))

/-- A command at the head of a unit's queue that may start there (R318): its context runs and it is first everywhere. -/
def startable (s : State) (u : Nat) : Option MCmd :=
  match headCmd s u with
  | some c => if c.lead == u && allHeads s c && ctxRuns s c.ctx then some c else none
  | none => none

/-- MMA_UNIT (R311). DESIGN CHOICE: notes/assumptions/8.md. -/
def execMmaUnit (unit : Nat) (s : State) : Out :=
  match startable s unit with
  | some c => match c.op with
    | .mma n ra rb code => runProduct c n ra rb code true (addProduct c.nbv n) s
    | _ => .next s
  | none => .next s

/-- MMAB_UNIT (R312): all eight units at once. DESIGN CHOICE: notes/assumptions/8.md. -/
def execMmabUnit (unit : Nat) (s : State) : Out :=
  match startable s unit with
  | some c => match c.op with
    | .mmab n ra rb code => runProduct c n ra rb code true (addProduct c.nbv n) s
    | _ => .next s
  | none => .next s

/-! ## MPASS (R313) -/

/-- Whether a value is 1.0. -/
def isOne (v : FVal) : Bool := !isNan v && cmpVal v (.fin false 1 0) == .eq
/-- Whether a value is +0 or -0. -/
def isZeroVal (v : FVal) : Bool := match v with | .fin _ 0 _ => true | _ => false

/-- The values of column `j` of a B tile under its scales. -/
def passColumn (ob : Operand) (tb : Tile) (vb : Array FVal) (j : Nat) : List FVal :=
  (List.range ob.rows).map fun k =>
    let v := vb.getD (k * ob.cols + j) .nan
    if ob.scaled then (mulVal v (tileScale ob tb (k / 32) (j / 32)).1).1 else v

/-- The row of A that a column selects, and whether the column is bad or names two rows (R313). -/
def passSelect (col : List FVal) : Option Nat × Bool :=
  let ones := (List.range col.length).filter fun k => isOne (col.getD k .nan)
  let bad := col.any fun v => !isOne v && !isZeroVal v
  (if !bad && ones.length == 1 then ones.head? else none, bad || decide (2 ≤ ones.length))

/-- A unit with bit patterns moved into its accumulator (R313); a poisoned tile gives NaN patterns of ATY (R316). -/
def passTile (n : Nat) (oa ob : Operand) (ta tb : Tile) (u : MUnit) : MUnit :=
  let vb := (tb.els.map (fdec ob.ty)).toArray
  let sel := (List.range ob.cols).map fun j => passSelect (passColumn ob tb vb j)
  let ea := ta.els.toArray
  let rows := (List.range oa.rows).map fun i => sel.map fun p =>
    if ta.bad.isSome || tb.bad.isSome then nanCode oa.ty
    else match p.1 with
      | some k => ea.getD (i * oa.cols + k) 0
      | none => 0
  let bad := tb.bad.isNone && sel.any (·.2)
  orStatus n (mRaw + if bad then mPassbad else 0) { u with acc := accPutRows n 0 rows u.acc }

/-- MPASS_UNIT (R313). DESIGN CHOICE: notes/assumptions/8.md; DEDUCED: notes/assumptions/56.md. -/
def execMpassUnit (unit : Nat) (s : State) : Out :=
  match startable s unit with
  | some c => match c.op with
    | .mpass n ra rb code => runProduct c n ra rb code false (passTile n) s
    | _ => .next s
  | none => .next s

/-! ## MCSET, MRSET and MZERO at a unit (R303, R305, R318, R324) -/

/-- A format context set, or removed by the word 0 (R303). -/
def setFormat (core : Nat) (w : Word) (u : MUnit) : MUnit :=
  let rest := u.fctx.filter fun p => p.1 != core
  { u with fctx := if w = 0 then rest else rest ++ [(core, w)] }

/-- The head command of a unit whose context runs. -/
def runningHead (s : State) (u : Nat) : Option MCmd :=
  match headCmd s u with
  | some c => if ctxRuns s c.ctx then some c else none
  | none => none

/-- MCSET_UNIT (R303). -/
def execMcsetUnit (unit : Nat) (s : State) : Out :=
  match runningHead s unit with
  | some c => match c.op with
    | .mcset w => .next (popCmd [unit] c.id (onUnit unit (setFormat c.core w) s))
    | _ => .next s
  | none => .next s

/-- MRSET_UNIT (R305). -/
def execMrsetUnit (unit : Nat) (s : State) : Out :=
  match runningHead s unit with
  | some c => match c.op with
    | .mrset r g => .next (popCmd [unit] c.id (onUnit unit (fun u => { u with rings := u.rings.setIfInBounds r (some g) }) s))
    | _ => .next s
  | none => .next s

/-- An accumulator cleared with its status word (R324). -/
def zeroAcc (n : Nat) (u : MUnit) : MUnit :=
  { u with
    acc := u.acc.filter fun p => p.1 / 16384 != n
    status := u.status.setIfInBounds n 0 }

/-- MZERO_UNIT (R316, R324). -/
def execMzeroUnit (unit : Nat) (s : State) : Out :=
  match runningHead s unit with
  | some c => match c.op with
    | .mzero n =>
      if (cmdUnits c).any fun u => (formatOf (unitOf s u) c.core).isNone then
        .next (popCmd [unit] c.id (onUnit unit (orStatus n mEmode) s))
      else
        let s := passTime s
        .next (popCmd [unit] c.id (onUnit unit (fun u => stamp n s.dev.time (zeroAcc n u)) s))
    | _ => .next s
  | none => .next s

/-! ## Drains (R314 to R316) -/

/-- What a drain that runs leaves: the state, the lines written, the generator and flags, and the fault that stopped it. -/
structure DRun where
  s : State
  wrote : List Loc
  acc : Acc
  fail : Option Refuse

/-- The location of a drain write at `off` bytes from D, with the bytes that may be written there (R315, R316).
DEDUCED: notes/assumptions/57.md. -/
def drainLoc (c : MCmd) (va : Word) (view : Option (Nat × Nat)) (off : Nat) (s : State) : Chk (Loc × Nat × State) :=
  let a := va + wordOf off
  match view with
  | some (h, w) => match tensorOf s.dev h with
    | none => .error (.translation, a, 0)
    | some t =>
      let o := (va.toNat - viewBase) % 2 ^ 32 + off
      let len := min (2 ^ 32) (tBytes t - w * 2 ^ 32)
      if o < len then .ok (⟨.ten h, w * 2 ^ 32 + o⟩, len - o, s) else .error (.protection, a, 0)
  | none =>
    if va.toNat < 0x500000 then
      let o := va.toNat - 0x100000 + off
      let size := scratchOf s c.lead
      if o < size then .ok (⟨.scr c.lead, o⟩, size - o, s) else .error (.protection, a, 0)
    else do
      let (l, s) ← engLocIn c.lead c.core none c.user ⟨false, true, 0⟩ a s
      .ok (l, 128, s)

/-- The parts of a run of drain writes at offsets from D, until one faults. DEDUCED: notes/assumptions/57.md. -/
def drainParts (c : MCmd) (va : Word) (view : Option (Nat × Nat)) : List (Nat × Nat) → List Byte → DRun → DRun
  | [], _, x => x
  | (off, n) :: r, bs, x =>
    match drainLoc c va view off x.s with
    | .error e => { x with fail := some e }
    | .ok (l, room, s) =>
      let k := min n room
      let x := { x with s := engWrite c.org (va + wordOf off) l (bs.take k) s, wrote := noteWrote l k x.wrote }
      if k < n then { x with fail := some (.protection, va + wordOf (off + k), 0) }
      else drainParts c va view r (bs.drop n) x

/-- Bytes written by a drain at an offset from D. -/
def drainPut (c : MCmd) (va : Word) (view : Option (Nat × Nat)) (off : Nat) (bs : List Byte) (x : DRun) : DRun :=
  if x.fail.isSome then x else drainParts c va view (lineParts off bs.length) bs x

/-- What a drain does, fixed as it starts. -/
structure DPlan where
  n : Nat
  set : Nat
  tr : Bool
  clr : Bool
  sup : Bool
  va : Word
  view : Option (Nat × Nat)
  w : Word
  units : List Nat
  raws : List Bool
  m : Rnd

/-- Drained columns: Nt (R314). -/
def DPlan.nt (p : DPlan) : Nat := fmtN p.w * p.units.length
/-- The bytes of an output element. -/
def DPlan.z (p : DPlan) : Nat := tySize (fmtO p.w)
/-- Whether a unit's part of a row holds bit patterns. -/
def DPlan.rawAt (p : DPlan) (j : Nat) : Bool := p.raws.getD (j / fmtN p.w) false

/-- Row `i` gathered from the units. -/
def gatherRow (p : DPlan) (s : State) (i : Nat) : List Nat :=
  p.units.flatMap fun u => (List.range (fmtN p.w)).map fun j => accGet (unitOf s u) p.n i j

/-- A row cleared after it is read (.CLR). -/
def clearRow (p : DPlan) (i : Nat) (s : State) : State :=
  if p.clr then
    onUnits p.units (fun u => stamp p.n s.dev.time
      { u with acc := accPut p.n i 0 (List.replicate (fmtN p.w) 0) u.acc }) s
  else s

/-- One row's elements in the output type (R314). -/
def outRow (p : DPlan) (sat : Bool) : List Nat → Nat → Acc → List Nat × Acc
  | [], _, a => ([], a)
  | v :: r, j, a =>
    let (o, a) :=
      if p.rawAt j then (v % 2 ^ (8 * p.z), a)
      else if fmtO p.w = .f32 then (v, a)
      else rounding p.m sat (fun rm => roundVal (fmtO p.w) rm (fdec .f32 v)) a
    let (l, a) := outRow p sat r (j + 1) a
    (o :: l, a)

/-- A row projected (R314, R342): its elements and its support size, with the flags. -/
def projectRow (p : DPlan) (i : Nat) (s : State) : Projected := project p.set (fmtP0 p.w) (fmtP1 p.w) (gatherRow p s i)

/-- One row of a drain without OSC: read, projected, rounded, cleared and written. -/
def drainRow (c : MCmd) (p : DPlan) (x : DRun × List (List Nat) × List Nat) (i : Nat) : DRun × List (List Nat) × List Nat :=
  let (x, out, sups) := x
  if x.fail.isSome then (x, out, sups) else
  let y := projectRow p i x.s
  let (o, a) := outRow p c.sat y.y 0 { x.acc with flags := x.acc.flags ||| y.flags }
  let x := { x with acc := a, s := clearRow p i x.s }
  (drainPut c p.va p.view (i * p.nt * p.z) (o.flatMap (natBytes p.z)) x, out ++ [o], sups ++ [y.sup])

/-- The scale of block `bj` of 32 rows of f32 values, with the flags of R314. DEDUCED: notes/assumptions/58.md. -/
def oscScale (t : Ty) (band : List (List Nat)) (bj : Nat) : Nat × Nat :=
  let vs := band.flatMap fun r => ((r.drop (32 * bj)).take 32).map (fdec .f32)
  if vs.any fun v => !isFin v then (0xFF, 1) else blockScaleCode t vs (.fin false 1 0)

/-- One row's elements under the scales of its blocks (R314). DEDUCED: notes/assumptions/58.md. -/
def oscRow (t : Ty) (m : Rnd) (sat : Bool) (scs : List Nat) : List Nat → Nat → Acc → List Nat × Acc
  | [], _, a => ([], a)
  | v :: r, j, a =>
    let (o, a) := rounding m sat (blockElem t (scs.getD (j / 32) 0) (.fin false 1 0) (fdec .f32 v)) a
    let (l, a) := oscRow t m sat scs r (j + 1) a
    (o :: l, a)

/-- The rows of a band in the output type. DEDUCED: notes/assumptions/58.md. -/
def oscRows (t : Ty) (m : Rnd) (sat : Bool) (scs : List Nat) : List (List Nat) → Acc → List (List Nat) × Acc
  | [], a => ([], a)
  | y :: r, a =>
    let (o, a) := oscRow t m sat scs y 0 a
    let (l, a) := oscRows t m sat scs r a
    (o :: l, a)

/-- What the bands of an OSC drain leave: the run, the output rows, the support sizes and the block scales. -/
structure OscRun where
  x : DRun
  out : List (List Nat)
  sups : List Nat
  scales : List (List Nat)

/-- 32 rows of a drain with OSC, buffered, scaled and written (R314). -/
def drainBand (c : MCmd) (p : DPlan) (q : OscRun) (b : Nat) : OscRun :=
  if q.x.fail.isSome then q else
  let t := fmtO p.w
  let is := rangeFrom (32 * b) 32
  let ys := is.map fun i => projectRow p i q.x.s
  let fl := ys.foldl (fun f y => f ||| y.flags) 0
  let band := ys.map (·.y)
  let sc := (List.range (p.nt / 32)).map (oscScale t band)
  let fl := sc.foldl (fun f k => f ||| k.2) fl
  let scs := sc.map (·.1)
  let (rows, a) := oscRows t p.m c.sat scs band { q.x.acc with flags := q.x.acc.flags ||| fl }
  let x := { q.x with acc := a, s := is.foldl (fun s i => clearRow p i s) q.x.s }
  let x := (is.zip rows).foldl (fun x r => drainPut c p.va p.view (r.1 * p.nt * p.z) (r.2.flatMap (natBytes p.z)) x) x
  { x := x, out := q.out ++ rows, sups := q.sups ++ ys.map (·.sup), scales := q.scales ++ [scs] }

/-- Rows and columns exchanged: `n` columns. -/
def transposeRows (n : Nat) (m : List (List Nat)) : List (List Nat) :=
  let a := (m.map List.toArray).toArray
  (List.range n).map fun j => (List.range m.length).map fun i => (a.getD i #[]).getD j 0

/-- The offset rounded up to 128. -/
def up128 (n : Nat) : Nat := ceilDiv n 128 * 128

/-- The parts after the tile's elements (R315): scales, transposed copy and support sizes. -/
def drainRest (c : MCmd) (p : DPlan) (out : List (List Nat)) (sups : List Nat) (scales : List (List Nat)) (x : DRun) : DRun :=
  let mrows := fmtM p.w
  let osc := fmtOsc p.w
  let tail := fun (l : List (List Nat)) => l.flatten.flatMap (natBytes 1) ++ natBytes 2 0x3F80
  let e := mrows * p.nt * p.z
  let x := if osc then drainPut c p.va p.view e (tail scales) x else x
  let len := e + if osc then scales.flatten.length + 2 else 0
  let t0 := up128 len
  let x := if p.tr then
      (List.range p.nt).zip (transposeRows p.nt out) |>.foldl (fun x r =>
        drainPut c p.va p.view (t0 + r.1 * mrows * p.z) (r.2.flatMap (natBytes p.z)) x) x
    else x
  let x := if p.tr && osc then drainPut c p.va p.view (t0 + e) (tail (transposeRows (p.nt / 32) scales)) x else x
  let fin := if p.tr then t0 + len else len
  if p.sup then drainPut c p.va p.view (up128 fin) (sups.flatMap (natBytes 4)) x else x

/-- A drain from its first row to its last part. DEDUCED: notes/assumptions/57.md. -/
def runDrain (c : MCmd) (p : DPlan) (s : State) : DRun :=
  let x : DRun := ⟨s, [], ⟨c.gen, 0⟩, none⟩
  if fmtOsc p.w then
    let q := (List.range (fmtM p.w / 32)).foldl (drainBand c p) ⟨x, [], [], []⟩
    drainRest c p q.out q.sups q.scales q.x
  else
    let (x, out, sups) := (List.range (fmtM p.w)).foldl (drainRow c p) (x, [], [])
    drainRest c p out sups [] x

/-- The log space that a drain may need (R386, R391). -/
def drainNeed (s : State) (c : MCmd) (p : DPlan) : Nat :=
  let mrows := fmtM p.w
  mrows * engNeed s c.org (p.nt * p.z) + (if p.tr then p.nt * engNeed s c.org (mrows * p.z) else 0) +
  (if p.sup then engNeed s c.org (4 * mrows) else 0) +
  (if fmtOsc p.w then 2 * engNeed s c.org (mrows / 32 * (p.nt / 32) + 2) else 0)

/-- The flag of a drain that R314 and R316 refuse, or 0. -/
def drainFlag (s : State) (c : MCmd) (n : Nat) (set : PSet) : Nat :=
  let us := cmdUnits c
  match formatOf (unitOf s c.lead) c.core with
  | none => mEmode
  | some w =>
    if us.any fun u => (formatOf (unitOf s u) c.core).isNone then mEmode
    else if (us.any fun u => isRaw (unitOf s u) n) && (set != .none || fmtO w != fmtA w || fmtOsc w) then mEmode
    else if fmtOsc w && (fmtM w % 32 != 0 || fmtN w * us.length % 32 != 0) then mEring
    else 0

/-- EDRAIN (R316): the flag, what MSTAT reports, and the message. -/
def drainFault (c : MCmd) (n : Nat) (e : Refuse) (s : State) : State :=
  postMsg c.core ⟨BitVec.ofNat 8 n, causeCode e.1, 0x10, e.2.1.setWidth 32, 0, [], 0⟩
    (onUnit c.lead (fun u => orStatus n mEdrain { u with
      drainAddr := u.drainAddr.setIfInBounds n (e.2.1.setWidth 32)
      drainCause := u.drainCause.setIfInBounds n (causeCode e.1) }) s)

/-- A drain that has run: flags in the lead unit's status word, RAW cleared by .CLR, and the lines for MFENCE. -/
def endDrain (c : MCmd) (p : DPlan) (x : DRun) : State :=
  let s := onUnit c.lead (orStatus p.n (statusFlags x.acc.flags)) x.s
  let s := match x.fail with
    | some e => drainFault c p.n e s
    | none => if p.clr then onUnits p.units (fun u => { u with
        status := u.status.setIfInBounds p.n (u.status.getD p.n 0 &&& ~~~16) }) s else s
  popCmd p.units c.id (if x.wrote.isEmpty then s else
    onUnits p.units (fun u => { u with wrote := u.wrote ++ [(c.core, x.wrote)] }) s)

/-- Whether a drain into a view waits for a move of its tensor (R167). -/
def drainMoving (s : State) (c : MCmd) (view : Option (Nat × Nat)) : Bool :=
  match view with
  | some (h, _) => tensorMoving s.dev ⟨.ten h, 0⟩ c.seq
  | none => false

/-- MDRAIN_UNIT (R314 to R316). -/
def execMdrainUnit (unit : Nat) (s : State) : Out :=
  match startable s unit with
  | none => .next s
  | some c => match c.op with
    | .mdrain n set tr clr sup va view =>
      let f := drainFlag s c n set
      let w := (formatOf (unitOf s c.lead) c.core).getD 0
      let us := cmdUnits c
      let p : DPlan :=
        { n := n, set := setCode set, tr := tr, clr := clr, sup := sup, va := va, view := view, w := w, units := us
          raws := us.map fun u => isRaw (unitOf s u) n
          m := if fmtRnd w = 0 then c.rnd else Rnd.ofCode (BitVec.ofNat 3 (fmtRnd w)) }
      if f != 0 then .next (refuseCmd c n f s)
      else if drainMoving s c view then .next s
      else match reserveLog (drainNeed s c p) s with
        | none => .next (freeOldest (drainNeed s c p) s)
        | some w => .next (engStall c.ctx w (settle (endDrain c p (runDrain c p (passTime w)))))
    | _ => .next s

end Sys2Proof.Machine
end

