-- ==== Sys2Proof/Machine/Queues.lean ====
section
/-! DEFINITION. Message queues (R294 to R296). -/

namespace Sys2Proof.Machine

/-- The messages that a queue holds (R294). -/
def mqSize : Nat := 32

/-- A queue by its name Q; one that nothing has bound is empty. DEDUCED: notes/assumptions/49.md. -/
def mqOf (s : State) (q : Nat) : MQueue := (s.clu.mqs.find? fun x => x.q == q).getD ⟨q, none, []⟩

/-- A queue put in place of the one of its name. -/
def putMq (x : MQueue) (s : State) : State := onClu (fun c => { c with mqs := c.mqs.filter (fun y => y.q != x.q) ++ [x] }) s

/-- Whether Q names a queue of a cluster of the context's partition (R295). -/
def mqNamed (s : State) (q : Word) : Bool :=
  decide (q.toNat < 448 * 8) && match curCtx s with | some c => c.bays.getLsbD (q.toNat / 8 / 8) | none => false

/-- Whether a queue lies in the core's own cluster. -/
def mqOwn (s : State) (q : Nat) : Bool := q / 8 == s.hart.ar.cluster

/-- The send scope (R296). -/
def mqScope (s : State) (q : Nat) : Scope := if mqOwn s q then .clu else .dev

/-- A buffer of 64 bytes in LS (R295). -/
def mqBuffer (p : Word) : Chk Unit := do
  check (p.toNat % 64 == 0) .misaligned p
  check (decide (p.toNat + 63 < lsTop)) .protection p

/-- MQSEND to a queue of another cluster (R296): what the queue answers is a free choice of the three.
DEDUCED: notes/assumptions/49.md. -/
def sendAway (d : Reg) (s : State) : Out :=
  let v := Config.queueAnswer s.tick % 3
  let s1 := { s with tick := s.tick + 1 }
  finish s [d.toNat] (setX d (wordOf v) (if v = 0 then countSent s1 else s1))

/-- MQSEND (R295, R296): it waits for the release at the send scope. DEDUCED: notes/assumptions/49.md. -/
def execMqsend (d a b : Reg) (s : State) : Out :=
  let q := xr s a
  let p := xr s b
  afterChecks (do
    check (mqNamed s q) .protection q
    mqBuffer p
    readRecord s p 64 64) s fun bs =>
    let x := mqOf s q.toNat
    let sc := mqScope s q.toNat
    if !released s sc (s.hart.nextSeq + 1) then hold s
    else if !mqOwn s q.toNat then sendAway d s
    else if x.recv.isNone then finish s [d.toNat] (setX d 2 s)
    else if x.msgs.length ≥ mqSize then finish s [d.toNat] (setX d 1 s)
    else
      let m := (s.hart.ar.core, BitVec.ofNat 512 (bytesNat bs), sc)
      finish s [d.toNat] (setX d 0 (countSent (putMq { x with msgs := x.msgs ++ [m] } s)))

/-- A message taken: written to LS as one store, acquired at its send scope (R296). -/
def takeMq (x : MQueue) (m : Nat × BitVec 512 × Scope) (p : Word) (s : State) : State :=
  let s := putMq { x with msgs := x.msgs.tail } s
  let s := performWrite (originOf s) 1 p (lsLoc s p.toNat) (natBytes 64 m.2.1.toNat) s
  acquireMoves m.2.2 (onHart (fun h => { h with recv := h.recv + 1 }) s)

/-- MQRECV (R295, R296): it blocks until a message is there, and until the earlier loads are performed that its acquire
follows. -/
def execMqrecv (d a b : Reg) (s : State) : Out :=
  let q := xr s b
  let p := xr s a
  let x := mqOf s q.toNat
  afterChecks (do
    check (x.recv == some s.hart.ar.core) .protection q
    mqBuffer p) s fun _ =>
    match x.msgs with
    | [] => hold s
    | m :: r =>
      if !loadsDone s (s.hart.nextSeq + 1) then hold s else
      withLog s (storeNeed s (.store (List.replicate 64 0) .normal) (lsLoc s 0)) s fun s1 =>
        finishFx s [d.toNat] (setX d (wordOf (m.1 % 2 ^ 13 + r.length * 2 ^ 16)) (takeMq x m p s1))

/-- MQPOLL (R295, R296); what a queue of another cluster holds is a free value, and one that is not bound holds nothing (R294).
DEDUCED: notes/assumptions/49.md. -/
def execMqpoll (d a : Reg) (s : State) : Out :=
  let q := xr s a
  afterChecks (check (mqNamed s q) .protection q) s fun _ =>
    if mqOwn s q.toNat then
      let x := mqOf s q.toNat
      finish s [d.toNat] (setX d (wordOf (x.msgs.length + if x.recv.isSome then 2 ^ 63 else 0)) s)
    else
      let f := Config.queueState s.tick
      let v := if f.getLsbD 6 then f.toNat % 64 % 33 + 2 ^ 63 else 0
      finish s [d.toNat] (setX d (wordOf v) { s with tick := s.tick + 1 })

/-- What MQBIND answers, and the state it leaves (R296). -/
def mqBind (q : Nat) (off : Bool) (s : State) : Word × State :=
  let me := s.hart.ar.core
  let x := mqOf s q
  if off then
    if x.msgs.isEmpty && x.recv == some me then (0, putMq { x with recv := none } s) else (1, s)
  else
    match x.recv with
    | none => (0, putMq { x with recv := some me } s)
    | some c => (if c = me then 0 else 1, s)

/-- MQBIND (R295, R296). -/
def execMqbind (d a b : Reg) (s : State) : Out :=
  let q := xr s a
  let v := xr s b
  afterChecks (do
    check (mqNamed s q && mqOwn s q.toNat) .protection q
    check (decide (v.toNat ≤ 1)) .protection v) s fun _ =>
    let (w, s1) := mqBind q.toNat (v == 1) s
    finishFx s [d.toNat] (setX d w s1)

end Sys2Proof.Machine
end

