-- ==== Sys2Proof/Machine/Dispatch.lean ====
section
/-! DEFINITION. What each instruction does: one arm for every constructor of `Instr`. -/

namespace Sys2Proof.Machine

/-- The meaning of an instruction. -/
def exec (i : Instr) (s : State) : Host.Outcome State Fault Refusal :=
  match i with
  | .add d a b => Sys2Proof.Machine.execAdd d a b s
  | .sub d a b => Sys2Proof.Machine.execSub d a b s
  | .mul d a b => Sys2Proof.Machine.execMul d a b s
  | .mulh d a b => Sys2Proof.Machine.execMulh d a b s
  | .mulhn d a b => Sys2Proof.Machine.execMulhn d a b s
  | .div d a b l => Sys2Proof.Machine.execDiv d a b l s
  | .divn d a b l => Sys2Proof.Machine.execDivn d a b l s
  | .rem d a b l => Sys2Proof.Machine.execRem d a b l s
  | .remn d a b l => Sys2Proof.Machine.execRemn d a b l s
  | .and d a b => Sys2Proof.Machine.execAnd d a b s
  | .or d a b => Sys2Proof.Machine.execOr d a b s
  | .xor d a b => Sys2Proof.Machine.execXor d a b s
  | .andn d a b => Sys2Proof.Machine.execAndn d a b s
  | .shl d a b => Sys2Proof.Machine.execShl d a b s
  | .shr d a b => Sys2Proof.Machine.execShr d a b s
  | .sar d a b => Sys2Proof.Machine.execSar d a b s
  | .rol d a b => Sys2Proof.Machine.execRol d a b s
  | .ror d a b => Sys2Proof.Machine.execRor d a b s
  | .min d a b => Sys2Proof.Machine.execMin d a b s
  | .max d a b => Sys2Proof.Machine.execMax d a b s
  | .minn d a b => Sys2Proof.Machine.execMinn d a b s
  | .maxn d a b => Sys2Proof.Machine.execMaxn d a b s
  | .clz d a => Sys2Proof.Machine.execClz d a s
  | .ctz d a => Sys2Proof.Machine.execCtz d a s
  | .popc d a => Sys2Proof.Machine.execPopc d a s
  | .slt d a b => Sys2Proof.Machine.execSlt d a b s
  | .sltn d a b => Sys2Proof.Machine.execSltn d a b s
  | .seq d a b => Sys2Proof.Machine.execSeq d a b s
  | .bext d a b => Sys2Proof.Machine.execBext d a b s
  | .bins d a b => Sys2Proof.Machine.execBins d a b s
  | .fshl d a b => Sys2Proof.Machine.execFshl d a b s
  | .fshr d a b => Sys2Proof.Machine.execFshr d a b s
  | .addi d a im => Sys2Proof.Machine.execAddi d a im s
  | .andi d a im => Sys2Proof.Machine.execAndi d a im s
  | .ori d a im => Sys2Proof.Machine.execOri d a im s
  | .xori d a im => Sys2Proof.Machine.execXori d a im s
  | .slti d a im => Sys2Proof.Machine.execSlti d a im s
  | .shli d a sc => Sys2Proof.Machine.execShli d a sc s
  | .shri d a sc => Sys2Proof.Machine.execShri d a sc s
  | .sari d a sc => Sys2Proof.Machine.execSari d a sc s
  | .rori d a sc => Sys2Proof.Machine.execRori d a sc s
  | .li d im => Sys2Proof.Machine.execLi d im s
  | .lui d im => Sys2Proof.Machine.execLui d im s
  | .lhi d im => Sys2Proof.Machine.execLhi d im s
  | .beq a b o => Sys2Proof.Machine.execBeq a b o s
  | .bne a b o => Sys2Proof.Machine.execBne a b o s
  | .blt a b o => Sys2Proof.Machine.execBlt a b o s
  | .bge a b o => Sys2Proof.Machine.execBge a b o s
  | .bltn a b o => Sys2Proof.Machine.execBltn a b o s
  | .bgen a b o => Sys2Proof.Machine.execBgen a b o s
  | .jal d o => Sys2Proof.Machine.execJal d o s
  | .jr d a => Sys2Proof.Machine.execJr d a s
  | .jrf d a => Sys2Proof.Machine.execJrf d a s
  | .jf d o => Sys2Proof.Machine.execJf d o s
  | .rpt r n d sc => Sys2Proof.Machine.execRpt r n d sc s
  | .cfetch a b => Sys2Proof.Machine.execCfetch a b s
  | .cfstat d a => Sys2Proof.Machine.execCfstat d a s
  | .csrr d c => Sys2Proof.Machine.execCsrr d c s
  | .csrw d a c => Sys2Proof.Machine.execCsrw d a c s
  | .csrs d a c => Sys2Proof.Machine.execCsrs d a c s
  | .csrc d a c => Sys2Proof.Machine.execCsrc d a c s
  | .csrx d a c => Sys2Proof.Machine.execCsrx d a c s
  | .csrWrite csr v => Sys2Proof.Machine.execCsrWrite csr v s
  | .lfsrWrite v => Sys2Proof.Machine.execLfsrWrite v s
  | .ulfullClear v => Sys2Proof.Machine.execUlfullClear v s
  | .crootWrite v => Sys2Proof.Machine.execCrootWrite v s
  | .vadd d a b t q => Sys2Proof.Machine.execVadd d a b t q s
  | .vsub d a b t q => Sys2Proof.Machine.execVsub d a b t q s
  | .vmul d a b t q => Sys2Proof.Machine.execVmul d a b t q s
  | .vfma d a b t q => Sys2Proof.Machine.execVfma d a b t q s
  | .vfnma d a b t q => Sys2Proof.Machine.execVfnma d a b t q s
  | .vmin d a b t q => Sys2Proof.Machine.execVmin d a b t q s
  | .vmax d a b t q => Sys2Proof.Machine.execVmax d a b t q s
  | .vadds d a b t q => Sys2Proof.Machine.execVadds d a b t q s
  | .vsubs d a b t q => Sys2Proof.Machine.execVsubs d a b t q s
  | .vmulh d a b t q => Sys2Proof.Machine.execVmulh d a b t q s
  | .vand d a b t q => Sys2Proof.Machine.execVand d a b t q s
  | .vor d a b t q => Sys2Proof.Machine.execVor d a b t q s
  | .vxor d a b t q => Sys2Proof.Machine.execVxor d a b t q s
  | .vandn d a b t q => Sys2Proof.Machine.execVandn d a b t q s
  | .vshl d a b t q => Sys2Proof.Machine.execVshl d a b t q s
  | .vshr d a b t q => Sys2Proof.Machine.execVshr d a b t q s
  | .vsar d a b t q => Sys2Proof.Machine.execVsar d a b t q s
  | .vcmp c kd a b t q => Sys2Proof.Machine.execVcmp c kd a b t q s
  | .vsel d a b t q => Sys2Proof.Machine.execVsel d a b t q s
  | .vfsh d a b t q => Sys2Proof.Machine.execVfsh d a b t q s
  | .vbext d a b t q => Sys2Proof.Machine.execVbext d a b t q s
  | .vperm d a b t q => Sys2Proof.Machine.execVperm d a b t q s
  | .vcvt d a t ts p r => Sys2Proof.Machine.execVcvt d a t ts p r s
  | .vabs d a t q => Sys2Proof.Machine.execVabs d a t q s
  | .vneg d a t q => Sys2Proof.Machine.execVneg d a t q s
  | .vnot d a t q => Sys2Proof.Machine.execVnot d a t q s
  | .vclz d a t q => Sys2Proof.Machine.execVclz d a t q s
  | .vpopc d a t q => Sys2Proof.Machine.execVpopc d a t q s
  | .vmov d a t q => Sys2Proof.Machine.execVmov d a t q s
  | .vrcp d a t q l => Sys2Proof.Machine.execVrcp d a t q l s
  | .vsqrt d a t q l => Sys2Proof.Machine.execVsqrt d a t q l s
  | .vrsq d a t q l => Sys2Proof.Machine.execVrsq d a t q l s
  | .vexp2 d a t q l => Sys2Proof.Machine.execVexp2 d a t q l s
  | .vlog2 d a t q l => Sys2Proof.Machine.execVlog2 d a t q l s
  | .vtanh d a t q l => Sys2Proof.Machine.execVtanh d a t q l s
  | .vsigm d a t q l => Sys2Proof.Machine.execVsigm d a t q l s
  | .vfloor d a t q => Sys2Proof.Machine.execVfloor d a t q s
  | .vceil d a t q => Sys2Proof.Machine.execVceil d a t q s
  | .vrndi d a t q => Sys2Proof.Machine.execVrndi d a t q s
  | .vredSum d a t q l => Sys2Proof.Machine.execVredSum d a t q l s
  | .vredMax d a t q l => Sys2Proof.Machine.execVredMax d a t q l s
  | .vredMin d a t q l => Sys2Proof.Machine.execVredMin d a t q l s
  | .vredAnd d a t q l => Sys2Proof.Machine.execVredAnd d a t q l s
  | .vredOr d a t q l => Sys2Proof.Machine.execVredOr d a t q l s
  | .vredXor d a t q l => Sys2Proof.Machine.execVredXor d a t q l s
  | .vredAmax d a t q l => Sys2Proof.Machine.execVredAmax d a t q l s
  | .vscanSadd d a t q l => Sys2Proof.Machine.execVscanSadd d a t q l s
  | .vscanSmax d a t q l => Sys2Proof.Machine.execVscanSmax d a t q l s
  | .vscanSmin d a t q l => Sys2Proof.Machine.execVscanSmin d a t q l s
  | .vcompact d a t q => Sys2Proof.Machine.execVcompact d a t q s
  | .vexpand d a t q => Sys2Proof.Machine.execVexpand d a t q s
  | .vcell d a b q => Sys2Proof.Machine.execVcell d a b q s
  | .vmorton d a b t q => Sys2Proof.Machine.execVmorton d a b t q s
  | .vhashk d a b t q => Sys2Proof.Machine.execVhashk d a b t q s
  | .mand d a b => Sys2Proof.Machine.execMand d a b s
  | .mor d a b => Sys2Proof.Machine.execMor d a b s
  | .mxor d a b => Sys2Proof.Machine.execMxor d a b s
  | .mandn d a b => Sys2Proof.Machine.execMandn d a b s
  | .mnot d a => Sys2Proof.Machine.execMnot d a s
  | .mpopc d a => Sys2Proof.Machine.execMpopc d a s
  | .mfirst d a => Sys2Proof.Machine.execMfirst d a s
  | .mfromx d a b => Sys2Proof.Machine.execMfromx d a b s
  | .mtox d a h => Sys2Proof.Machine.execMtox d a h s
  | .vsmap d a l => Sys2Proof.Machine.execVsmap d a l s
  | .vsred d a l => Sys2Proof.Machine.execVsred d a l s
  | .vscvt d a l => Sys2Proof.Machine.execVscvt d a l s
  | .vgrow d a => Sys2Proof.Machine.execVgrow d a s
  | .vshrink d a => Sys2Proof.Machine.execVshrink d a s
  | .vallotq d => Sys2Proof.Machine.execVallotq d s
  | .vext d a b => Sys2Proof.Machine.execVext d a b s
  | .vins d a b => Sys2Proof.Machine.execVins d a b s
  | .ldb d b l h o => Sys2Proof.Machine.execLdb d b l h o s
  | .ldh d b l h o => Sys2Proof.Machine.execLdh d b l h o s
  | .ldw d b l h o => Sys2Proof.Machine.execLdw d b l h o s
  | .ldd d b l h o => Sys2Proof.Machine.execLdd d b l h o s
  | .ldbn d b l h o => Sys2Proof.Machine.execLdbn d b l h o s
  | .ldhn d b l h o => Sys2Proof.Machine.execLdhn d b l h o s
  | .ldwn d b l h o => Sys2Proof.Machine.execLdwn d b l h o s
  | .stb d b h o => Sys2Proof.Machine.execStb d b h o s
  | .sth d b h o => Sys2Proof.Machine.execSth d b h o s
  | .stw d b h o => Sys2Proof.Machine.execStw d b h o s
  | .std d b h o => Sys2Proof.Machine.execStd d b h o s
  | .vld d b l h o => Sys2Proof.Machine.execVld d b l h o s
  | .vst d b h o => Sys2Proof.Machine.execVst d b h o s
  | .vgath d b v l t q => Sys2Proof.Machine.execVgath d b v l t q s
  | .vscat d b v t q => Sys2Proof.Machine.execVscat d b v t q s
  | .pref a => Sys2Proof.Machine.execPref a s
  | .clean a => Sys2Proof.Machine.execClean a s
  | .discard a => Sys2Proof.Machine.execDiscard a s
  | .invl1 a => Sys2Proof.Machine.execInvl1 a s
  | .zline a => Sys2Proof.Machine.execZline a s
  | .tnew d a b l => Sys2Proof.Machine.execTnew d a b l s
  | .twiden d a b l => Sys2Proof.Machine.execTwiden d a b l s
  | .tfree a => Sys2Proof.Machine.execTfree a s
  | .tinfo d a b l => Sys2Proof.Machine.execTinfo d a b l s
  | .tview d a b l => Sys2Proof.Machine.execTview d a b l s
  | .tlde d a b l => Sys2Proof.Machine.execTlde d a b l s
  | .tste d a b => Sys2Proof.Machine.execTste d a b s
  | .twait a => Sys2Proof.Machine.execTwait a s
  | .fenceAcq a sc => Sys2Proof.Machine.execFenceAcq a sc s
  | .fenceRel a sc => Sys2Proof.Machine.execFenceRel a sc s
  | .fenceAr a sc => Sys2Proof.Machine.execFenceAr a sc s
  | .fenceSc a sc => Sys2Proof.Machine.execFenceSc a sc s
  | .fenceWin a sc => Sys2Proof.Machine.execFenceWin a sc s
  | .fenceEng a sc => Sys2Proof.Machine.execFenceEng a sc s
  | .ldaq d a b l sc z => Sys2Proof.Machine.execLdaq d a b l sc z s
  | .strl d a b sc z => Sys2Proof.Machine.execStrl d a b sc z s
  | .inrecv d a => Sys2Proof.Machine.execInrecv d a s
  | .inpeek d => Sys2Proof.Machine.execInpeek d s
  | .incount d => Sys2Proof.Machine.execIncount d s
  | .uiarm a => Sys2Proof.Machine.execUiarm a s
  | .uidis => Sys2Proof.Machine.execUidis s
  | .uiret => Sys2Proof.Machine.execUiret s
  | .uiTake => Sys2Proof.Machine.execUiTake s
  | .amoadd d a b l z o => Sys2Proof.Machine.execAmoadd d a b l z o s
  | .amomin d a b l z o => Sys2Proof.Machine.execAmomin d a b l z o s
  | .amomax d a b l z o => Sys2Proof.Machine.execAmomax d a b l z o s
  | .amominn d a b l z o => Sys2Proof.Machine.execAmominn d a b l z o s
  | .amomaxn d a b l z o => Sys2Proof.Machine.execAmomaxn d a b l z o s
  | .amoand d a b l z o => Sys2Proof.Machine.execAmoand d a b l z o s
  | .amoor d a b l z o => Sys2Proof.Machine.execAmoor d a b l z o s
  | .amoxor d a b l z o => Sys2Proof.Machine.execAmoxor d a b l z o s
  | .amoswap d a b l z o => Sys2Proof.Machine.execAmoswap d a b l z o s
  | .amocas d a b l z o => Sys2Proof.Machine.execAmocas d a b l z o s
  | .redaddi a b z => Sys2Proof.Machine.execRedaddi a b z s
  | .redaddf32 a b => Sys2Proof.Machine.execRedaddf32 a b s
  | .redaddbf16 a b => Sys2Proof.Machine.execRedaddbf16 a b s
  | .redmin a b z => Sys2Proof.Machine.execRedmin a b z s
  | .redmax a b z => Sys2Proof.Machine.execRedmax a b z s
  | .redminn a b z => Sys2Proof.Machine.execRedminn a b z s
  | .redmaxn a b z => Sys2Proof.Machine.execRedmaxn a b z s
  | .redor a b z => Sys2Proof.Machine.execRedor a b z s
  | .uoFlush k => Sys2Proof.Machine.execUoFlush k s
  | .uoRecall k => Sys2Proof.Machine.execUoRecall k s
  | .fetake d a l => Sys2Proof.Machine.execFetake d a l s
  | .feput a b => Sys2Proof.Machine.execFeput a b s
  | .feread d a l => Sys2Proof.Machine.execFeread d a l s
  | .fepeek d a l => Sys2Proof.Machine.execFepeek d a l s
  | .feclr a => Sys2Proof.Machine.execFeclr a s
  | .barv a => Sys2Proof.Machine.execBarv a s
  | .bwait d a => Sys2Proof.Machine.execBwait d a s
  | .bsync d a => Sys2Proof.Machine.execBsync d a s
  | .btest d a => Sys2Proof.Machine.execBtest d a s
  | .bsetm a b => Sys2Proof.Machine.execBsetm a b s
  | .bquorum a b => Sys2Proof.Machine.execBquorum a b s
  | .brecord a b => Sys2Proof.Machine.execBrecord a b s
  | .barrierArrival core slot mask => Sys2Proof.Machine.execBarrierArrival core slot mask s
  | .barrierRelease slot => Sys2Proof.Machine.execBarrierRelease slot s
  | .lateArrival slot => Sys2Proof.Machine.execLateArrival slot s
  | .tkspawn d a => Sys2Proof.Machine.execTkspawn d a s
  | .tknext d => Sys2Proof.Machine.execTknext d s
  | .tkend => Sys2Proof.Machine.execTkend s
  | .tkyield => Sys2Proof.Machine.execTkyield s
  | .tkdep d a b => Sys2Proof.Machine.execTkdep d a b s
  | .tkstat d a => Sys2Proof.Machine.execTkstat d a s
  | .taskDispatch core => Sys2Proof.Machine.execTaskDispatch core s
  | .taskAging us => Sys2Proof.Machine.execTaskAging us s
  | .sexch => Sys2Proof.Machine.execSexch s
  | .ssync => Sys2Proof.Machine.execSsync s
  | .sdom a => Sys2Proof.Machine.execSdom a s
  | .superstepRelease => Sys2Proof.Machine.execSuperstepRelease s
  | .qnew d a => Sys2Proof.Machine.execQnew d a s
  | .qcontrib a b => Sys2Proof.Machine.execQcontrib a b s
  | .qarrive d a => Sys2Proof.Machine.execQarrive d a s
  | .kpoint => Sys2Proof.Machine.execKpoint s
  | .qstat d a => Sys2Proof.Machine.execQstat d a s
  | .qreset a => Sys2Proof.Machine.execQreset a s
  | .killSignal join member => Sys2Proof.Machine.execKillSignal join member s
  | .retraction join member => Sys2Proof.Machine.execRetraction join member s
  | .joinCombine join => Sys2Proof.Machine.execJoinCombine join s
  | .joinFutPost join => Sys2Proof.Machine.execJoinFutPost join s
  | .joinClose join => Sys2Proof.Machine.execJoinClose join s
  | .killTimeoutReset join member => Sys2Proof.Machine.execKillTimeoutReset join member s
  | .wqpop d a => Sys2Proof.Machine.execWqpop d a s
  | .wqpush d a b => Sys2Proof.Machine.execWqpush d a b s
  | .wqfill d a b => Sys2Proof.Machine.execWqfill d a b s
  | .wqcount d a => Sys2Proof.Machine.execWqcount d a s
  | .wqRefill => Sys2Proof.Machine.execWqRefill s
  | .cpy a => Sys2Proof.Machine.execCpy a s
  | .cpyq a => Sys2Proof.Machine.execCpyq a s
  | .cpyt a => Sys2Proof.Machine.execCpyt a s
  | .cpyxr a => Sys2Proof.Machine.execCpyxr a s
  | .cpypd a => Sys2Proof.Machine.execCpypd a s
  | .cpyst d a => Sys2Proof.Machine.execCpyst d a s
  | .copyExecute k => Sys2Proof.Machine.execCopyExecute k s
  | .exponentTableLoad k => Sys2Proof.Machine.execExponentTableLoad k s
  | .copyComplete k => Sys2Proof.Machine.execCopyComplete k s
  | .peerAckTimeout k => Sys2Proof.Machine.execPeerAckTimeout k s
  | .messageEnterInbox => Sys2Proof.Machine.execMessageEnterInbox s
  | .mqsend d a b => Sys2Proof.Machine.execMqsend d a b s
  | .mqrecv d a b => Sys2Proof.Machine.execMqrecv d a b s
  | .mqpoll d a => Sys2Proof.Machine.execMqpoll d a s
  | .mqbind d a b => Sys2Proof.Machine.execMqbind d a b s
  | .mcset a b => Sys2Proof.Machine.execMcset a b s
  | .mcget d a => Sys2Proof.Machine.execMcget d a s
  | .mcap d a => Sys2Proof.Machine.execMcap d a s
  | .mrset a b => Sys2Proof.Machine.execMrset a b s
  | .mradv d a b => Sys2Proof.Machine.execMradv d a b s
  | .mrstat d a b => Sys2Proof.Machine.execMrstat d a b s
  | .mma c a b sc f => Sys2Proof.Machine.execMma c a b sc f s
  | .mmab c a b sc f => Sys2Proof.Machine.execMmab c a b sc f s
  | .mpass c a b sc f => Sys2Proof.Machine.execMpass c a b sc f s
  | .mdrain c a b u v w e => Sys2Proof.Machine.execMdrain c a b u v w e s
  | .mzero c a => Sys2Proof.Machine.execMzero c a s
  | .mfence a => Sys2Proof.Machine.execMfence a s
  | .mstat c a b => Sys2Proof.Machine.execMstat c a b s
  | .mcsetUnit unit => Sys2Proof.Machine.execMcsetUnit unit s
  | .mrsetUnit unit => Sys2Proof.Machine.execMrsetUnit unit s
  | .mmaUnit unit => Sys2Proof.Machine.execMmaUnit unit s
  | .mmabUnit unit => Sys2Proof.Machine.execMmabUnit unit s
  | .mpassUnit unit => Sys2Proof.Machine.execMpassUnit unit s
  | .mdrainUnit unit => Sys2Proof.Machine.execMdrainUnit unit s
  | .mzeroUnit unit => Sys2Proof.Machine.execMzeroUnit unit s
  | .nmupd a => Sys2Proof.Machine.execNmupd a s
  | .nmstat d a => Sys2Proof.Machine.execNmstat d a s
  | .nmuPieceUpdate k piece => Sys2Proof.Machine.execNmuPieceUpdate k piece s
  | .nmuComplete k => Sys2Proof.Machine.execNmuComplete k s
  | .proj d a b u v e => Sys2Proof.Machine.execProj d a b u v e s
  | .padj d a b e => Sys2Proof.Machine.execPadj d a b e s
  | .ecall d a b => Sys2Proof.Machine.execEcall d a b s
  | .ecallAnswer => Sys2Proof.Machine.execEcallAnswer s
  | .eret => Sys2Proof.Machine.execEret s
  | .wfi => Sys2Proof.Machine.execWfi s
  | .endT => Sys2Proof.Machine.execEndT s
  | .spin a => Sys2Proof.Machine.execSpin a s
  | .csave d a => Sys2Proof.Machine.execCsave d a s
  | .crest d a => Sys2Proof.Machine.execCrest d a s
  | .ckpt d a => Sys2Proof.Machine.execCkpt d a s
  | .rback d a => Sys2Proof.Machine.execRback d a s
  | .tinval a b => Sys2Proof.Machine.execTinval a b s
  | .fattr a b => Sys2Proof.Machine.execFattr a b s
  | .ulmark d a => Sys2Proof.Machine.execUlmark d a s
  | .ulstat d a => Sys2Proof.Machine.execUlstat d a s
  | .uldrain d a => Sys2Proof.Machine.execUldrain d a s
  | .trec a b => Sys2Proof.Machine.execTrec a b s
  | .perfr d a => Sys2Proof.Machine.execPerfr d a s
  | .perfc a => Sys2Proof.Machine.execPerfc a s
  | .brk a => Sys2Proof.Machine.execBrk a s
  | .wset d a b => Sys2Proof.Machine.execWset d a b s
  | .wclr a => Sys2Proof.Machine.execWclr a s
  | .heldWriteLand k => Sys2Proof.Machine.execHeldWriteLand k s
  | .storePerform => Sys2Proof.Machine.execStorePerform s
  | .loadPerform k => Sys2Proof.Machine.execLoadPerform k s
  | .homePerform stack => Sys2Proof.Machine.execHomePerform stack s
  | .cvpWriteback k => Sys2Proof.Machine.execCvpWriteback k s
  | .lineEvict k => Sys2Proof.Machine.execLineEvict k s
  | .l1Drop k => Sys2Proof.Machine.execL1Drop k s
  | .cmCleanDrop k => Sys2Proof.Machine.execCmCleanDrop k s
  | .codeFetchComplete seg => Sys2Proof.Machine.execCodeFetchComplete seg s
  | .rerepMoveBegin h => Sys2Proof.Machine.execRerepMoveBegin h s
  | .rerepMoveComplete h => Sys2Proof.Machine.execRerepMoveComplete h s
  | .freeEntryHead h => Sys2Proof.Machine.execFreeEntryHead h s
  | .groupPlace => Sys2Proof.Machine.execGroupPlace s
  | .threadRetireFree core => Sys2Proof.Machine.execThreadRetireFree core s
  | .switchTimeReached => Sys2Proof.Machine.execSwitchTimeReached s
  | .timeBudgetStop ctx => Sys2Proof.Machine.execTimeBudgetStop ctx s
  | .budgetPeriod => Sys2Proof.Machine.execBudgetPeriod s
  | .gangStop ctx why => Sys2Proof.Machine.execGangStop ctx why s
  | .resumeStart ctx => Sys2Proof.Machine.execResumeStart ctx s
  | .checkpointBoundary ctx => Sys2Proof.Machine.execCheckpointBoundary ctx s
  | .checkpointAbandon ctx => Sys2Proof.Machine.execCheckpointAbandon ctx s
  | .uncorrectableError site lasting => Sys2Proof.Machine.execUncorrectableError site lasting s
  | .contextRollback ctx => Sys2Proof.Machine.execContextRollback ctx s
  | .contextKill ctx reason cause addr => Sys2Proof.Machine.execContextKill ctx reason cause addr s
  | .contextRetire ctx => Sys2Proof.Machine.execContextRetire ctx s
  | .fatalError => Sys2Proof.Machine.execFatalError s
  | .watchpointTrigger acc => Sys2Proof.Machine.execWatchpointTrigger acc s
  | .watchpointTrap => Sys2Proof.Machine.execWatchpointTrap s
  | .breakpointStop => Sys2Proof.Machine.execBreakpointStop s
  | .scribeEmit => Sys2Proof.Machine.execScribeEmit s
  | .ident c => Sys2Proof.Machine.execIdent c s
  | .quote c => Sys2Proof.Machine.execQuote c s
  | .errread c => Sys2Proof.Machine.execErrread c s
  | .create c => Sys2Proof.Machine.execCreate c s
  | .destroy c => Sys2Proof.Machine.execDestroy c s
  | .map c => Sys2Proof.Machine.execMap c s
  | .unmap c => Sys2Proof.Machine.execUnmap c s
  | .launch c => Sys2Proof.Machine.execLaunch c s
  | .exportT c => Sys2Proof.Machine.execExportT c s
  | .importT c => Sys2Proof.Machine.execImportT c s
  | .preempt c => Sys2Proof.Machine.execPreempt c s
  | .resume c => Sys2Proof.Machine.execResume c s
  | .safesave c => Sys2Proof.Machine.execSafesave c s
  | .setpeer c => Sys2Proof.Machine.execSetpeer c s
  | .setlog c => Sys2Proof.Machine.execSetlog c s
  | .trdrain c => Sys2Proof.Machine.execTrdrain c s
  | .unknownCommand c => Sys2Proof.Machine.execUnknownCommand c s
  | .debugAttach c => Sys2Proof.Machine.execDebugAttach c s
  | .debugStop c => Sys2Proof.Machine.execDebugStop c s
  | .debugContinue c => Sys2Proof.Machine.execDebugContinue c s
  | .debugStep c => Sys2Proof.Machine.execDebugStep c s
  | .debugRstep c => Sys2Proof.Machine.execDebugRstep c s
  | .debugRwindow c => Sys2Proof.Machine.execDebugRwindow c s
  | .debugRead c => Sys2Proof.Machine.execDebugRead c s
  | .debugWrite c => Sys2Proof.Machine.execDebugWrite c s
  | .debugBreak c => Sys2Proof.Machine.execDebugBreak c s
  | .debugTrapstep c => Sys2Proof.Machine.execDebugTrapstep c s
  | .debugRecords c => Sys2Proof.Machine.execDebugRecords c s
  | .sessionKeyRenew ctx peer => Sys2Proof.Machine.execSessionKeyRenew ctx peer s
  | .oldKeyExpire ctx peer => Sys2Proof.Machine.execOldKeyExpire ctx peer s
  | .peerPacketAuthFail k => Sys2Proof.Machine.execPeerPacketAuthFail k s
  | .timeSyncUpdate offset => Sys2Proof.Machine.execTimeSyncUpdate offset s
  | .portFail port => Sys2Proof.Machine.execPortFail port s
  | .resetRelease images badBays => Sys2Proof.Machine.execResetRelease images badBays s
  | .recoveryImageLoad image => Sys2Proof.Machine.execRecoveryImageLoad image s
  | .thermalThrottle => Sys2Proof.Machine.execThermalThrottle s
  | .thermalFatal => Sys2Proof.Machine.execThermalFatal s
  | .thermalShutdown => Sys2Proof.Machine.execThermalShutdown s
  | .powerLoss => Sys2Proof.Machine.execPowerLoss s
  | .peerWriteArrival ctx va bytes => Sys2Proof.Machine.execPeerWriteArrival ctx va bytes s
  | .spinHoldEnd => Sys2Proof.Machine.execSpinHoldEnd s
  | .rbcntRaise level signed => Sys2Proof.Machine.execRbcntRaise level signed s

end Sys2Proof.Machine
end

