-- ==== Sys2Proof/Machine/Moves.lean ====
section
/-! DEFINITION. The moves that the machine's own queues and firmware make (R183 to R189). Which move is made when is left open:
State.agenda may hold any order; with nothing on it the core waits for the first move of the order below
(notes/assumptions/1.md). -/

namespace Sys2Proof.Machine

/-- A move for each index of a list. -/
def forEach {α : Type} (l : List α) (f : Nat → State → Out) : List (State → Out) := (List.range l.length).map f

/-- Moves that only a state with `b` can make. -/
def movesIf (b : Bool) (l : List (State → Out)) : List (State → Out) := if b then l else []

/-- The thread's memory requests, oldest first, and what lands. -/
def requestMoves (s : State) : List (State → Out) :=
  forEach s.hart.held execHeldWriteLand ++ movesIf (!s.hart.sq.isEmpty) [execStorePerform] ++ forEach s.hart.loads execLoadPerform

/-- The homes' moves (R188), from the stack on whose turn it is, so that every request is performed in the end (R138). -/
def homeMoves (s : State) : List (State → Out) :=
  movesIf (!(paths s).isEmpty) ((rangeFrom s.clu.turn 12).map fun k => execHomePerform (k % 12))

/-- What enters the core: messages, refills, answers, code. -/
def arrivalMoves (s : State) : List (State → Out) :=
  movesIf (!s.clu.hold.isEmpty) [execMessageEnterInbox] ++ movesIf (!s.hart.refills.isEmpty) [execWqRefill] ++
  movesIf s.hart.ecall.isSome [execEcallAnswer] ++ movesIf s.hart.spin.isSome [execSpinHoldEnd] ++
  movesIf (s.hart.segs.toList.any fun x => x.st == .fetching) ((List.range 16).map execCodeFetchComplete)

/-- The moves of the barrier network (R226 to R228, R244). -/
def barrierMoves (s : State) : List (State → Out) :=
  movesIf (!s.clu.arrivals.isEmpty) ((rangeFrom 0 9).map (fun i => execBarrierArrival ⟨s.hart.ar.core, 0, false⟩ i 0) ++
    (List.range 8).map execBarrierRelease ++ (List.range 8).map execLateArrival) ++
  [execSuperstepRelease, execTaskDispatch s.hart.ar.core]

/-- The moves of a join after its release (R265 to R271). -/
def joinMoves (j : Join) : List (State → Out) :=
  (List.range 16).map (execKillSignal j.jid) ++ (List.range 16).map (fun m => execRetraction j.jid ⟨m, false⟩) ++
  [execJoinCombine j.jid, execJoinFutPost j.jid, execJoinClose j.jid]

/-- The moves of the tensors' order points. -/
def tensorMoves (s : State) : List (State → Out) :=
  s.dev.tensors.flatMap fun t => movesIf (!t.queue.isEmpty) [execRerepMoveBegin t.h, execRerepMoveComplete t.h, execFreeEntryHead t.h]

/-- The moves of a matrix unit. -/
def unitMoves (u : MUnit) : List (State → Out) :=
  movesIf (!u.queue.isEmpty) ([execMcsetUnit, execMrsetUnit, execMmaUnit, execMmabUnit, execMpassUnit, execMdrainUnit, execMzeroUnit].map
    fun f => f u.cluster)

/-- The moves of the copy engines and of the near-memory units. -/
def engineMoves (s : State) : List (State → Out) :=
  forEach s.dev.copies execCopyExecute ++ forEach s.dev.copies execExponentTableLoad ++ forEach s.dev.copies (execCopyComplete ⟨·, none⟩) ++
  ((List.range s.dev.nmus.length).flatMap fun k =>
    match s.dev.nmus[k]? with
    | some j => forEach j.todo (execNmuPieceUpdate k)
    | none => []) ++
  forEach s.dev.nmus execNmuComplete

/-- The cluster's lines that leave without being asked, and the scribe. -/
def lineMoves (s : State) : List (State → Out) :=
  forEach s.clu.cm execCvpWriteback ++ forEach s.clu.cm execUoFlush ++ movesIf (!s.hart.tc.scribe.isEmpty) [execScribeEmit]

/-- The moves of the firmware: a retired core freed, groups placed, stops completed, the dump after a fatal error, switch times,
boundaries, contexts resumed and retired. -/
def contextMoves (s : State) : List (State → Out) :=
  movesIf (s.hart.thread == .ended) [execThreadRetireFree s.hart.ar.core] ++ movesIf (holdsUo s) [stopRecall] ++
  movesIf s.dev.fatal [dumpAll] ++ movesIf (!s.dev.ctxs.isEmpty) ([execGroupPlace] ++
  s.dev.ctxs.flatMap (fun c => [execResumeStart c.num, execCheckpointBoundary c.num]) ++ [execSwitchTimeReached] ++
  s.dev.ctxs.map fun c => execContextRetire c.num)

/-- The moves by what makes them, in the order in which a core that waits looks for one that can be made.
DESIGN CHOICE: notes/assumptions/1.md. -/
def moveClasses (s : State) : List (List (State → Out)) :=
  [requestMoves s, homeMoves s, arrivalMoves s, barrierMoves s, s.clu.joins.flatMap joinMoves, tensorMoves s,
   s.dev.units.flatMap unitMoves, engineMoves s, lineMoves s, contextMoves s]

/-- Every move, the classes from the `k`th on first. DESIGN CHOICE: notes/assumptions/1.md. -/
def allMoves (k : Nat) (s : State) : List (State → Out) :=
  let l := moveClasses s
  (l.drop (k % 10) ++ l.take (k % 10)).flatten

/-! ## Whether a move can be made

A move that cannot be made leaves the state as it is. What every move changes when it is made is the machine's control state:
the lengths of its queues and the states of its requests, compared here. (Whole states are not compared: a time or a count that
the manual leaves free cannot be.) -/

/-- The control state of two cores agrees. -/
def sameHart (a b : Hart) : Bool :=
  a.held.length == b.held.length && a.sq.length == b.sq.length && a.loads.length == b.loads.length && a.thread == b.thread &&
  a.mid == b.mid && a.inbox.length == b.inbox.length && a.spin == b.spin && a.answer.isSome == b.answer.isSome &&
  a.refills.length == b.refills.length && a.tc.scribe.length == b.tc.scribe.length && a.ss.released == b.ss.released &&
  a.tk.kpend == b.tk.kpend && a.saved.length == b.saved.length && a.dbg.stop.isSome == b.dbg.stop.isSome &&
  a.segs.toList.map (·.st) == b.segs.toList.map (·.st) && a.slots.toList.map (·.st) == b.slots.toList.map (·.st)

/-- The control state of two clusters agrees. -/
def sameCluster (a b : Cluster) : Bool :=
  a.path.length == b.path.length && a.gates.map List.length == b.gates.map List.length && a.hold.length == b.hold.length && a.cm.length == b.cm.length &&
  (a.cm.map fun x => x.dirty == 0) == (b.cm.map fun x => x.dirty == 0) && (a.cm.map (·.uo.isSome)) == (b.cm.map (·.uo.isSome)) &&
  (a.arrivals.map (·.sent)) == (b.arrivals.map (·.sent)) && (a.tasks.map fun x => (x.tid, x.running)) == (b.tasks.map fun x => (x.tid, x.running)) &&
  (a.joins.map fun j => (j.jid, j.combined, j.posted)) == (b.joins.map fun j => (j.jid, j.combined, j.posted)) &&
  (a.joins.map fun j => (j.bound.length, j.counted.length, j.toRetract.length)) ==
    (b.joins.map fun j => (j.bound.length, j.counted.length, j.toRetract.length))

/-- The control state of two devices agrees. -/
def sameDevice (a b : Device) : Bool :=
  (a.tensors.map fun x => (x.h, x.queue, x.freed)) == (b.tensors.map fun x => (x.h, x.queue, x.freed)) &&
  (a.copies.map fun x => (x.id, x.st)) == (b.copies.map fun x => (x.id, x.st)) &&
  (a.nmus.map fun x => (x.id, x.todo.length, x.st)) == (b.nmus.map fun x => (x.id, x.todo.length, x.st)) &&
  (a.units.map fun x => x.queue.length) == (b.units.map fun x => x.queue.length) && a.futs.length == b.futs.length &&
  a.dump.isSome == b.dump.isSome &&
  (a.ctxs.map fun c => (c.num, c.state, c.armed, c.interval)) == (b.ctxs.map fun c => (c.num, c.state, c.armed, c.interval)) &&
  (a.ctxs.map fun c => (c.switchAt.isSome, c.resumeAt.isSome, c.sinkTail, c.busy.length)) ==
    (b.ctxs.map fun c => (c.switchAt.isSome, c.resumeAt.isSome, c.sinkTail, c.busy.length))

/-- The first move of a list that can be made, made. DESIGN CHOICE: notes/assumptions/1.md. -/
def firstMove (s : State) : List (State → Out) → Option State
  | [] => none
  | f :: r =>
    match f s with
    | .next t =>
      if sameHart s.hart t.hart && sameCluster s.clu t.clu && sameDevice s.dev t.dev then firstMove s r else some t
    | _ => firstMove s r

/-- A move that waits for the scribe, whose stall is counted (R401). -/
def stalled (s : State) (f : State → Out) : Option State :=
  match f s with
  | .next t => if t.tick = s.tick then none else some t
  | _ => none

/-- A step in which the thread waits: a move that can be made is made; with none, a DEBUG STEP ends (R399), or a stall is counted
(R401). DESIGN CHOICE: notes/assumptions/1.md. -/
def idle (s : State) : Out :=
  match firstMove s (allMoves 0 s) with
  | some t => .next t
  | none =>
    if s.hart.dbg.stepping.isSome then .next (endStep s) else .next (((allMoves 0 s).findSome? (stalled s)).getD s)

/-- Whether a move is due although the thread could go on: so that a loop that only polls or stores makes progress (R138, R277), one
is made for every 16 instructions retired, each time from another class of moves on. -/
def moveDue (s : State) : Bool := s.hart.tc.icount.toNat % 16 == 0 && s.hart.tc.icount != s.moved

/-- That move, if one can be made. -/
def background (s : State) : State :=
  { (firstMove s (allMoves (s.hart.tc.icount.toNat / 16) s)).getD s with moved := s.hart.tc.icount }

end Sys2Proof.Machine
end

