-- ==== Sys2Proof/Machine/Step.lean ====
section
/-! DEFINITION. One step of the machine: the next entry of the agenda, or what waited for a context, or the next instruction of
the thread, or, while the thread waits, a move of the machine's own queues (notes/assumptions/1.md). -/

namespace Sys2Proof.Machine

/-- Whether the core made no progress: the instruction holds, and its own record of what it has done is as before. -/
def waits (s t : State) : Bool :=
  s.hart.thread == t.hart.thread && s.hart.pc == t.hart.pc && s.hart.tc.icount == t.hart.tc.icount &&
  s.hart.mid == t.hart.mid && s.hart.saved.length == t.hart.saved.length && s.hart.spin == t.hart.spin &&
  s.hart.dbg.stop == t.hart.dbg.stop

/-- What a thread's instruction leaves: it went on, or it waits and a queue moves. -/
def orIdle (s : State) (blocking : Bool) (o : Out) : Out :=
  match o with
  | .next t => if waits s t then idle (onHart (fun h => { h with blocked := blocking }) t) else .next t
  | o => o

/-- An instruction issued: it executes, or it waits and a queue moves. -/
noncomputable def issue (i : Instr) (s : State) : Out :=
  if mustHold i s then idle s else orIdle s (isBlocking i) (exec i s)

/-- The thread's next instruction. -/
noncomputable def stepThread (s : State) : Out :=
  match fetch s.hart with
  | .error (c, v) => .next (takeTrap c v s.hart.pc 0 false s)
  | .ok w => match decode w with
    | none => illegal w s
    | some i => issue i s

/-- Whether the thread runs and is not stopped (R367). -/
def running (h : Hart) : Bool := h.thread == .running && h.dbg.stop.isNone

/-- The first held write that may land: it lands before the next instruction (R38.2, R38.3).
DEDUCED: notes/assumptions/13.md. -/
def landsNow (h : Hart) : Option Nat := (List.range h.held.length).find? (canLand h)

/-- The stop that an access has triggered of the instruction just retired, or of a row of PROJ or PADJ, which abandons the later rows
(R346, R348, R398, R407): of the partition, or of the cluster. -/
def stopDue (s : State) : Option Bool :=
  match s.hart.mid with
  | .scatter _ => none
  | _ => s.hart.dbg.wpStop

/-- That stop made. -/
def wpHalt (all : Bool) (s : State) : State :=
  onHart (fun h => { h with dbg := { h.dbg with wpStop := none } }) (stopSet s.hart.ar.ctx all s)

/-- What happens at a boundary before the next instruction (R38, R206, R365, R398 to R400), if anything does.
DEDUCED: notes/assumptions/13, 71. -/
def boundary (s : State) : Option Out :=
  if stepOver s.hart then some (.next (endStep s))
  else if !running s.hart then some (idle s)
  else if let some all := stopDue s then some (.next (wpHalt all s))
  else if s.hart.spin.isSome then some (idle s)
  else if let some k := landsNow s.hart then some (execHeldWriteLand k s)
  else if uiReady s then some (execUiTake s)
  else if s.hart.dbg.wpTrap.isSome && !insideInstr s.hart then some (execWatchpointTrap s)
  else if s.hart.mid == .none && atBreakpoint s then some (execBreakpointStop s)
  else if moveDue s then some (.next (background s))
  else match s.hart.mid with
    | .tknext dst kill => some (orIdle s true (tknextWait dst kill s))
    | _ => none

/-- A step of a powered machine that nothing else acts on. -/
noncomputable def stepCore (s : State) : Out :=
  match boundary s with
  | some o => o
  | none => stepThread s

/-- What a powered machine does of itself: what waited and may go on; else the core. DESIGN CHOICE: notes/assumptions/1.md. -/
noncomputable def ownTurn (s : State) : Out :=
  match nextWaiting s with
  | some (i, w) => runWaiting w { s with waiting := s.waiting.eraseIdx i }
  | none => stepCore s

/-- One step: what the agenda brings next; with none, the machine's own turn. An event of the agenda happens; an instruction
word on it stands for one turn of the machine's own, so that an agenda can place its events between any two instructions.
DESIGN CHOICE: notes/assumptions/1.md. -/
noncomputable def step (s : State) : Host.Outcome State Fault Refusal :=
  match s.agenda with
  | e :: r =>
    if encode e = 0 then exec e { s with agenda := r }
    else if s.dev.powered then ownTurn { s with agenda := r } else .next { s with agenda := r }
  | [] => if !s.dev.powered then .fault .unpowered else ownTurn s

/-- The state with an instruction's word stored where the next step fetches. DESIGN CHOICE: notes/assumptions/10.md. -/
def State.withFetchWord (s : State) (_nbits w : Nat) : State :=
  { s with
    agenda := [], waiting := [], dev := { s.dev with powered := true }, hart := placeWord w s.hart
    moved := (placeWord w s.hart).tc.icount }

end Sys2Proof.Machine
end

