-- ==== Sys2Proof/Safety.lean ====
section
/-! DEFINITION. What a safe run is, in the terms that claims use: the canonical form of the memories, a state in which an
instruction does nothing beside its own effect, and what an instruction leaves as it was. -/

namespace Sys2Proof.Machine

/-- Every memory of a core's share of the machine is in its canonical form. -/
def MemoriesOk (s : State) : Prop :=
  Memory.wf s.hart.imem = true ∧ Memory.wf s.dev.ls = true ∧ Memory.wf s.dev.scr = true ∧ Memory.wf s.dev.dmem = true

/-- The memories are in canonical form, those in the images of contexts too (R372, R374). -/
def MemoriesKept (s : State) : Prop :=
  MemoriesOk s ∧ ∀ c ∈ s.dev.ctxs, ∀ g, (c.switchImg = some g ∨ c.boundImg = some g) →
    Memory.wf g.hart.imem = true ∧ Memory.wf g.ls = true ∧ Memory.wf g.scr = true

/-- No instruction does anything beside its own effect: the context is not in DEBUG mode, so that the reverse ring records
nothing (R392), and no Step trap follows it (R400). -/
def Quiet (s : State) : Prop :=
  (s.hart.dbg.trapStep && s.hart.mode == .u) = false ∧ ∀ c, curCtx s = some c → c.mode ≠ 2

/-- The core's context keeps no interval lines, so that no write at a home can exhaust its undo log and kill it (R375, R391). -/
def LogHolds (s : State) : Prop := ∀ c, curCtx s = some c → c.mode ≠ 3

/-- What retiring adds to the state `u` that an instruction issued in `s` leaves, in a quiet state: ICOUNT, the windows of
`s` counted down, and the debug service's count of a DEBUG STEP (R38, R392, R399). -/
def ended (s u : State) : State :=
  onHart (fun h => { countWindows h s.hart.nextId with
    tc := { h.tc with icount := h.tc.icount + 1, perturb0 := h.tc.perturb }, dbg := countStep h.dbg, blocked := false }) u

/-- The same for an instruction that does not change the flow: the program counter and the repeat frame go on (R42, R75). -/
def wentOn (s u : State) : State := ended s (onHart advance u)

/-- One byte of memory as the cluster visibility point holds it, over its home (R134, R184). -/
def byteAt (s : State) (l : Loc) : Byte := (cvpBytes s l 1).getD 0 0

/-- `t` is `s` after one retired instruction that touches the core's registers and held writes only: everything else of the
core, the cluster and the device is as before, and so is every byte of memory. -/
def CoreFrame (s t : State) : Prop :=
  t = { s with hart := { s.hart with
    regs := t.hart.regs, ar := t.hart.ar, pc := t.hart.pc, frame := t.hart.frame, held := t.hart.held
    nextId := t.hart.nextId, tc := { s.hart.tc with icount := s.hart.tc.icount + 1, perturb0 := s.hart.tc.perturb }
    dbg := countStep s.hart.dbg, blocked := false } } ∧
  ∀ l, byteAt t l = byteAt s l

/-- The held writes of `s` after one more instruction, and no new one (R38). -/
def OldHeld (s t : State) : Prop := t.hart.held = (countWindows s.hart s.hart.nextId).held ∧ t.hart.nextId = s.hart.nextId

/-- `t` goes on after `s` without a change of the flow (R42, R75). -/
def FlowsOn (s t : State) : Prop := t.hart.pc = (advance s.hart).pc ∧ t.hart.frame = (advance s.hart).frame

/-- `t` is `s` after an instruction that writes scalar registers only: vector, mask and constant registers, the flags, the
rounding mode and the LFSR are as before. -/
def ScalarFrame (s t : State) : Prop :=
  CoreFrame s t ∧ OldHeld s t ∧ t.hart.ar = s.hart.ar ∧
  t.hart.regs = { s.hart.regs with x := t.hart.regs.x, xsh := t.hart.regs.xsh }

/-- The scalar registers of `t` are those of `s`, but `d`, which holds `v`; x0 is discarded (R75). -/
def WritesX (s t : State) (d : Reg) (v : Word) : Prop := ∀ r, xr t r = if r = d ∧ r ≠ 0 then v else xr s r

end Sys2Proof.Machine
end

