-- ==== Sys2Proof/Certificates/Slice0/Obligations.lean ====
section
/-! DEFINITION. The statements about the machine, each in the terms of Safety.lean; what several of them share stands first. -/

open Sys2Proof Sys2Proof.Machine

/-! ## The machine as a whole -/

namespace Sys2Proof.Machine

/-- The thread issues its next instruction in this step: nothing else is due first (R206, R365, R399, R400). -/
def Issues (s : State) : Prop :=
  s.agenda = [] ∧ s.dev.powered = true ∧ nextWaiting s = none ∧ boundary s = none

/-- `t` is `s` inside the handler of a trap with this cause, TVAL, return address and OP (R358, R359). -/
def InHandler (s t : State) (code : Byte) (tval : Word) (epc : IAddr) (op : Nat) (imp : Bool) : Prop :=
  t.hart.tr = { s.hart.tr with
    code := code, op := BitVec.ofNat 4 op, imp := imp, epc := epc &&& 0xFFFC, tval := tval, ppm := t.hart.tr.ppm, uih := s.hart.ui.inh
    tip := true, frm := s.hart.frame.isSome, hwp := s.hart.held.any fun w => w.depth == depthOf s.hart } ∧
  (s.hart.mode ≠ .m → t.hart.tr.ppm = s.hart.mode) ∧ t.hart.mode = .s ∧ t.hart.pc = s.hart.tr.tvec &&& 0xFFC ∧ t.hart.frame = none ∧ t.hart.fences = [] ∧
  (∃ p, t.hart.saved = p :: s.hart.saved ∧ p.epc = epc ∧ p.frame = s.hart.frame ∧ p.fences = s.hart.fences) ∧
  t.hart.held = s.hart.held ∧ t.hart.regs = s.hart.regs ∧ t.hart.ar = s.hart.ar ∧ t.hart.ui = s.hart.ui ∧
  t.hart.tc = s.hart.tc ∧ t.dev = s.dev ∧ t.clu = s.clu

end Sys2Proof.Machine

/-- The Reset columns of R63, R64, R67, R208, R227, R230, R245, R261, R359, R383, R403 and R434; log 2. -/
def Obligations.ResetState : Prop :=
  State.reset.hart.ar.frm = 1 ∧ State.reset.hart.ar.fflags = 0 ∧ State.reset.hart.ar.satf = true ∧
  State.reset.hart.ui.uivec = 0 ∧ State.reset.hart.ui.uicause = 0 ∧ State.reset.hart.ui.uiepc = 0 ∧ State.reset.hart.ui.thr = 0 ∧
  State.reset.hart.ui.armed = false ∧ State.reset.hart.ui.inh = false ∧
  (∀ x ∈ State.reset.hart.slots.toList, x.quorum = 0) ∧ State.reset.hart.blast = 0 ∧
  State.reset.hart.ss.ph = false ∧ State.reset.hart.ss.count = 0 ∧
  State.reset.hart.tk.qmem = 0 ∧ State.reset.hart.tk.effect = false ∧ State.reset.hart.tk.kpend = false ∧
  State.reset.hart.tk.qm = false ∧ State.reset.hart.tk.lastCause = 0 ∧ State.reset.hart.tk.lastHow = 0 ∧
  State.reset.hart.tr.code = 0 ∧ State.reset.hart.tr.op = 0 ∧ State.reset.hart.tr.imp = false ∧ State.reset.hart.tr.epc = 0 ∧
  State.reset.hart.tr.tval = 0 ∧ State.reset.hart.tr.ppm = .u ∧ State.reset.hart.tr.tip = false ∧ State.reset.hart.tr.prn = false ∧
  State.reset.hart.tr.uih = false ∧ State.reset.hart.tr.frm = false ∧ State.reset.hart.tr.hwp = false ∧
  State.reset.hart.tr.sscratch = 0 ∧ State.reset.hart.tc.trcctl = 0 ∧ State.reset.hart.tc.perturb = 0 ∧
  State.reset.dev.csel = 0 ∧ State.reset.dev.msel = 0 ∧ MemoriesKept State.reset

/-- R28, R43, R49, R75, R91; the agenda and the moves are the model's (log 1, log 13). -/
def Obligations.StepRunsDecoded : Prop :=
  (∀ (i : Instr) (w : IWord) (s : State), Issues s → fetch s.hart = .ok w → decode w = some i →
    (mustHold i s = true → step s = idle s) ∧
    (∀ t, mustHold i s = false → exec i s = .next t → waits s t = false → step s = .next t) ∧
    (∀ t, mustHold i s = false → exec i s = .next t → waits s t = true →
      step s = idle { t with hart := { t.hart with blocked := isBlocking i } })) ∧
  (∀ (w : IWord) (s : State), Issues s → fetch s.hart = .ok w → decode w = none →
    step s = .next (takeTrap 0x01 (w.setWidth 64) s.hart.pc 0 false s)) ∧
  (∀ (c : Byte) (v : Word) (s : State), Issues s → fetch s.hart = .error (c, v) →
    step s = .next (takeTrap c v s.hart.pc 0 false s)) ∧
  (∀ (e : Instr) (r : List Instr) (s : State), s.agenda = e :: r → encode e = 0 → step s = exec e { s with agenda := r }) ∧
  (∀ s : State, s.agenda = [] → s.dev.powered = false → step s = .fault .unpowered)

/-- The example words of 03 to 20. -/
def Obligations.ExampleWordsDecode : Prop :=
  ∀ p ∈ ([(0x22500088#32, .csrr 5 0x011), (0x0EB20004#32, .shli 11 4 4), (0x86931000#32, .ldd 9 6 2 .normal 0),
    (0x96130402#32, .vld 1 6 0 .na 2), (0x62605890#32, .vredSum 6 2 .f32 1 2), (0x5C101781#32, .vcvt 1 (.v 0) .bf16 .f32 0 .rne),
    (0xA1455404#32, .tview 20 10 21 0), (0xB0931C0C#32, .amomin 9 6 7 0 .d .rlx), (0xB4031C08#32, .redaddf32 6 7),
    (0xA808000B#32, .fenceSc 16 .grp), (0xB8034006#32, .brecord 6 16), (0xC0000002#32, .tkend), (0xC49A0002#32, .qarrive 9 20),
    (0xC6930000#32, .wqpop 9 6), (0xD0950005#32, .cpyst 9 10), (0xDC025C17#32, .mma 0 0 1 23 0x17),
    (0xE21A5C10#32, .mdrain 1 20 23 false true false .none), (0xE6070000#32, .nmupd 14),
    (0xE8531C19#32, .proj 5 6 7 true true .spx), (0xEC931C00#32, .ecall 9 6 7), (0xF8930000#32, .ulmark 9 6),
    (0xFC030000#32, .brk 6)] : List (IWord × Instr)), decode p.1 = some p.2

/-- R28 to R49: decode and encode are inverse on well-formed instructions and decodable words. -/
def Obligations.DecodeEncodeAgree : Prop :=
  (∀ i : Instr, wf i = true → encode i ≠ 0 → decode (encode i) = some i) ∧
  (∀ (w : IWord) (i : Instr), decode w = some i → encode i = w ∧ wf i = true ∧ encode i ≠ 0)

/-- The memories' canonical form, kept by every step (log 2). -/
def Obligations.StepKeepsMemories : Prop :=
  ∀ s t : State, MemoriesKept s → step s = .next t → MemoriesKept t

/-- R75, R358, R442: the machine never stops on an instruction. -/
def Obligations.EveryInstructionAnswers : Prop :=
  (∀ (i : Instr) (s : State), ∃ t, exec i s = .next t) ∧
  (∀ s : State, (s.dev.powered = true ∨ s.agenda ≠ []) → ∃ t, step s = .next t)

/-- R358, R359, R378. -/
def Obligations.TrapEntry : Prop :=
  (∀ (code : Byte) (tval : Word) (epc : IAddr) (op : Nat) (imp : Bool) (s : State), s.hart.tr.tip = false →
    InHandler s (takeTrap code tval epc op imp s) code tval epc op imp) ∧
  (∀ (code : Byte) (tval : Word) (epc : IAddr) (op : Nat) (imp : Bool) (c : Context) (s : State), s.hart.tr.tip = true →
    curCtx s = some c →
    ctxOf (takeTrap code tval epc op imp s).dev c.num = none ∧ (takeTrap code tval epc op imp s).hart.thread = .idle ∧
    (takeTrap code tval epc op imp s).dev.out = s.dev.out ++
      [.kill c.num (killRecord 2 code.toNat s.hart.ar.core c.interval s.dev.time tval c.orphaned c.unret)])

namespace Sys2Proof.Machine

/-! ## Scalar arithmetic -/

/-- The number of bits of a value in a list of positions. -/
def bitsOn (a : Word) (l : List Nat) : Nat := (l.filter fun i => a.getLsbD i).length

/-- The destination and the result of each instruction of R81 to R85 that completes at issue, in the words of the spec's
tables: a 64-bit value. -/
def scalarResult (s : State) : Instr → Option (Reg × Word)
  | .add d a b => some (d, xr s a + xr s b)
  | .sub d a b => some (d, xr s a - xr s b)
  | .mul d a b => some (d, xr s a * xr s b)
  | .mulh d a b => some (d, BitVec.ofInt 64 ((xr s a).toInt * (xr s b).toInt / 2 ^ 64))
  | .mulhn d a b => some (d, BitVec.ofNat 64 ((xr s a).toNat * (xr s b).toNat / 2 ^ 64))
  | .and d a b => some (d, xr s a &&& xr s b)
  | .or d a b => some (d, xr s a ||| xr s b)
  | .xor d a b => some (d, xr s a ^^^ xr s b)
  | .andn d a b => some (d, xr s a &&& ~~~(xr s b))
  | .shl d a b => some (d, xr s a <<< ((xr s b).toNat % 256))
  | .shr d a b => some (d, xr s a >>> ((xr s b).toNat % 256))
  | .sar d a b => some (d, (xr s a).sshiftRight ((xr s b).toNat % 256))
  | .rol d a b => some (d, (xr s a).rotateLeft ((xr s b).toNat % 256))
  | .ror d a b => some (d, (xr s a).rotateRight ((xr s b).toNat % 256))
  | .min d a b => some (d, if (xr s a).toInt ≤ (xr s b).toInt then xr s a else xr s b)
  | .max d a b => some (d, if (xr s a).toInt ≤ (xr s b).toInt then xr s b else xr s a)
  | .minn d a b => some (d, if (xr s a).toNat ≤ (xr s b).toNat then xr s a else xr s b)
  | .maxn d a b => some (d, if (xr s a).toNat ≤ (xr s b).toNat then xr s b else xr s a)
  | .clz d a => some (d, BitVec.ofNat 64 ((List.range 64).takeWhile fun i => !(xr s a).getMsbD i).length)
  | .ctz d a => some (d, BitVec.ofNat 64 ((List.range 64).takeWhile fun i => !(xr s a).getLsbD i).length)
  | .popc d a => some (d, BitVec.ofNat 64 (bitsOn (xr s a) (List.range 64)))
  | .slt d a b => some (d, if (xr s a).toInt < (xr s b).toInt then 1 else 0)
  | .sltn d a b => some (d, if (xr s a).toNat < (xr s b).toNat then 1 else 0)
  | .seq d a b => some (d, if xr s a = xr s b then 1 else 0)
  | .bext d a b => some (d, (xr s a >>> ((xr s b).toNat % 256)) &&& BitVec.ofNat 64 (2 ^ min (bits (xr s b) 15 8) 64 - 1))
  | .bins d a b =>
    let m : Word := BitVec.ofNat 64 (2 ^ min (bits (xr s b) 15 8) 64 - 1) <<< ((xr s b).toNat % 256)
    some (d, (xr s d &&& ~~~m) ||| ((xr s a <<< ((xr s b).toNat % 256)) &&& m))
  | .fshl d a b => some (d, ((xr s d ++ xr s a) <<< ((xr s b).toNat % 64)).extractLsb' 64 64)
  | .fshr d a b => some (d, ((xr s a ++ xr s d) >>> ((xr s b).toNat % 64)).extractLsb' 0 64)
  | .addi d a i => some (d, xr s a + i.signExtend 64)
  | .andi d a i => some (d, xr s a &&& i.signExtend 64)
  | .ori d a i => some (d, xr s a ||| i.signExtend 64)
  | .xori d a i => some (d, xr s a ^^^ i.signExtend 64)
  | .slti d a i => some (d, if (xr s a).toInt < i.toInt then 1 else 0)
  | .shli d a n => some (d, xr s a <<< n.toNat)
  | .shri d a n => some (d, xr s a >>> n.toNat)
  | .sari d a n => some (d, (xr s a).sshiftRight n.toNat)
  | .rori d a n => some (d, (xr s a).rotateRight n.toNat)
  | .li d i => some (d, i.signExtend 64)
  | .lui d i => some (d, (i.signExtend 44 ++ (xr s d).extractLsb' 0 20 : Word))
  | .lhi d i => some (d, (i.signExtend 24 ++ (xr s d).extractLsb' 0 40 : Word))
  | _ => none

end Sys2Proof.Machine

/-- R81 to R85: the result, the frame and the completion of the scalar instructions that complete at issue. -/
def Obligations.ScalarInstructionsComplete : Prop :=
  ∀ (i : Instr) (d : Reg) (v : Word) (s : State), scalarResult s i = some (d, v) → Quiet s →
    ∃ t, exec i s = .next t ∧ WritesX s t d v ∧ ScalarFrame s t ∧ FlowsOn s t

namespace Sys2Proof.Machine

/-- The destination, the lookahead and the quotient or remainder of the DIV group (R53). -/
def divResult (s : State) : Instr → Option (Reg × BitVec 4 × Word)
  | .div d a b l => some (d, l, if xr s b = 0 then BitVec.allOnes 64 else (xr s a).sdiv (xr s b))
  | .divn d a b l => some (d, l, if xr s b = 0 then BitVec.allOnes 64 else xr s a / xr s b)
  | .rem d a b l => some (d, l, if xr s b = 0 then xr s a else (xr s a).srem (xr s b))
  | .remn d a b l => some (d, l, if xr s b = 0 then xr s a else xr s a % xr s b)
  | _ => none

/-- `t` holds one more write than `s`: `w`, which opened last; the older ones have counted one instruction (R38). -/
def OpensHeld (s t : State) (w : Held) : Prop :=
  t.hart.held = (countWindows s.hart s.hart.nextId).held ++ [w] ∧ t.hart.nextId = s.hart.nextId + 1

end Sys2Proof.Machine

/-- R53, R81: the DIV group opens a held write of the quotient or remainder. -/
def Obligations.DivisionOpensHeldWrite : Prop :=
  ∀ (i : Instr) (d : Reg) (l : BitVec 4) (v : Word) (s : State), divResult s i = some (d, l, v) → Quiet s →
    ∃ t w, exec i s = .next t ∧ OpensHeld s t w ∧ w.dst = xDst d ∧ w.left = l.toNat ∧ w.val.setWidth 64 = v ∧
      w.missing = 0 ∧ w.flags = 0 ∧ w.poison = none ∧ w.bind = none ∧ w.depth = depthOf s.hart ∧ w.shadow = inShadow s.hart d ∧
      t.hart.regs = s.hart.regs ∧ t.hart.ar = s.hart.ar ∧ CoreFrame s t ∧ FlowsOn s t

namespace Sys2Proof.Machine

/-- Whether a branch is taken, and its offset in words (R86). -/
def branchOf (s : State) : Instr → Option (Prop × BitVec 12)
  | .beq a b o => some (xr s a = xr s b, o)
  | .bne a b o => some (xr s a ≠ xr s b, o)
  | .blt a b o => some ((xr s a).toInt < (xr s b).toInt, o)
  | .bge a b o => some ((xr s b).toInt ≤ (xr s a).toInt, o)
  | .bltn a b o => some ((xr s a).toNat < (xr s b).toNat, o)
  | .bgen a b o => some ((xr s b).toNat ≤ (xr s a).toNat, o)
  | _ => none

/-- The address that is `n` words after `pc`, modulo 2^16 (R31). -/
def wordsFrom (pc : IAddr) (n : Int) : IAddr := pc + BitVec.ofInt 16 (4 * n)

/-- `t` is `s` after a branch or jump to `a`: no frame begins or ends, and the held writes count one instruction. -/
def FlowsTo (s t : State) (a : IAddr) : Prop := t.hart.pc = a ∧ t.hart.frame = s.hart.frame ∧ OldHeld s t

end Sys2Proof.Machine

/-- R86. -/
def Obligations.BranchesCompleteAndWriteNothing : Prop :=
  ∀ (i : Instr) (c : Prop) (o : BitVec 12) (s : State), branchOf s i = some (c, o) → Quiet s →
    ∃ t, exec i s = .next t ∧ (c → FlowsTo s t (wordsFrom s.hart.pc o.toInt)) ∧ (¬ c → FlowsTo s t (s.hart.pc + 4)) ∧
      t.hart.regs = s.hart.regs ∧ t.hart.ar = s.hart.ar ∧ CoreFrame s t

namespace Sys2Proof.Machine

/-- The link register and the target of a jump (R31, R87 to R89), whether it waits for its segment (R89), and whether its target
comes from a register and is checked (R88). -/
def jumpOf (s : State) : Instr → Option (Reg × Word × Bool × Bool)
  | .jal d o => some (d, (wordsFrom s.hart.pc o.toInt).setWidth 64, false, false)
  | .jf d o => some (d, (wordsFrom s.hart.pc o.toInt).setWidth 64, true, false)
  | .jr d a => some (d, xr s a, false, true)
  | .jrf d a => some (d, xr s a, true, true)
  | _ => none

/-- The state of the segment of an instruction address (R90). -/
def segState (s : State) (a : IAddr) : SegState := (s.hart.segs[a.toNat / 4096]'(by omega)).st

end Sys2Proof.Machine

/-- R87 to R89. -/
def Obligations.JumpsLinkAndGo : Prop :=
  ∀ (i : Instr) (d : Reg) (a : Word) (f r : Bool) (s : State), jumpOf s i = some (d, a, f, r) →
    ((r = true → a.toNat % 4 = 0) → (f = true → segState s (a.setWidth 16) ≠ .fetching) → Quiet s →
      ∃ t, exec i s = .next t ∧ FlowsTo s t (a.setWidth 16) ∧ WritesX s t d ((s.hart.pc + 4).setWidth 64) ∧ ScalarFrame s t) ∧
    (r = true → a.toNat % 4 ≠ 0 → exec i s = .next (takeTrap 0x03 a s.hart.pc 0 false s)) ∧
    ((r = true → a.toNat % 4 = 0) → f = true → segState s (a.setWidth 16) = .fetching → exec i s = .next s)

namespace Sys2Proof.Machine

/-- The addresses of the words that a frame captures (R40, R96). -/
def captured (pc : IAddr) (n : BitVec 4) : List IAddr := (List.range (n.toNat + 1)).map fun i => pc + BitVec.ofNat 16 (4 * (i + 1))

end Sys2Proof.Machine

/-- R40: the frame begins. -/
def Obligations.RptBeginsFrame : Prop :=
  ∀ (r n : BitVec 4) (d k : BitVec 5) (s : State), Quiet s →
    (∀ a ∈ captured s.hart.pc n, fetchFault s.hart a = none ∧ capturable (imemWord s.hart a) = true ∧
      ∃ i, decodeLow (imemWord s.hart a) = some i ∧ wf i = true) →
    ∃ t, exec (.rpt r n d k) s = .next t ∧ t.hart.pc = s.hart.pc + 4 ∧
      t.hart.frame = some ⟨s.hart.pc, r.toNat + 1, n.toNat + 1, d.toNat, k.toNat, 0, 0, (captured s.hart.pc n).map (imemWord s.hart)⟩ ∧
      t.hart.regs = s.hart.regs ∧ t.hart.ar = s.hart.ar ∧ OldHeld s t ∧ CoreFrame s t

/-- R42, R75: the flow. -/
def Obligations.FlowFollowsFrame : Prop :=
  ∀ h : Hart, (advance h = { h with pc := (advance h).pc, frame := (advance h).frame }) ∧
    (h.frame = none → (advance h).pc = h.pc + 4 ∧ (advance h).frame = none) ∧
    ∀ f, h.frame = some f →
      (f.i + 1 < f.len → (advance h).pc = h.pc + 4 ∧ (advance h).frame = some { f with i := f.i + 1 }) ∧
      (f.len ≤ f.i + 1 → f.j + 1 < f.reps → (advance h).pc = f.addr + 4 ∧ (advance h).frame = some { f with i := 0, j := f.j + 1 }) ∧
      (f.len ≤ f.i + 1 → f.reps ≤ f.j + 1 → (advance h).pc = f.addr + BitVec.ofNat 16 (4 * (f.len + 1)) ∧ (advance h).frame = none)

namespace Sys2Proof.Machine

/-- The segment k of the core (R90). -/
def segAt (s : State) (k : Nat) : Seg := s.hart.segs.getD k Seg.reset

end Sys2Proof.Machine

/-- R92 to R94. -/
def Obligations.CodeFetchInstructions : Prop :=
  (∀ (a b : Reg) (s : State), (xr s a).toNat % 4096 ≠ 0 → exec (.cfetch a b) s = .next (takeTrap 0x03 (xr s a) s.hart.pc 0 false s)) ∧
  (∀ (a b : Reg) (s : State), (xr s a).toNat % 4096 = 0 → (15 < (xr s b).toNat ∨ (xr s b = 0 ∧ s.hart.mode = .u)) →
    exec (.cfetch a b) s = .next (takeTrap 0x05 (xr s b) s.hart.pc 0 false s)) ∧
  (∀ (a b : Reg) (s : State), (xr s a).toNat % 4096 = 0 → (xr s b).toNat ≤ 15 → (xr s b = 0 → s.hart.mode ≠ .u) → Quiet s →
    exec (.cfetch a b) s = .next (wentOn s (markEffect (onHart (fun h => { h with
      segs := h.segs.setIfInBounds (xr s b).toNat ⟨.fetching, 0, xr s a, s.hart.mode == .u⟩ }) s)))) ∧
  (∀ (d a : Reg) (s : State), 15 < (xr s a).toNat → exec (.cfstat d a) s = .next (takeTrap 0x05 (xr s a) s.hart.pc 0 false s)) ∧
  (∀ (d a : Reg) (s : State), (xr s a).toNat ≤ 15 → Quiet s → ∃ t, exec (.cfstat d a) s = .next t ∧ ScalarFrame s t ∧ FlowsOn s t ∧
    WritesX s t d (match (segAt s (xr s a).toNat).st with
      | .landed => 0
      | .fetching => 1
      | .empty => 2
      | .failed => (segAt s (xr s a).toNat).cause.setWidth 64 <<< 8 ||| 3)) ∧
  (∀ (k : Nat) (s : State), k ≤ 15 → (segAt s k).st = .fetching → s.hart.sq = [] →
    (isDevVa (segAt s k).addr = false → ∃ t, exec (.codeFetchComplete k) s = .next t ∧
      segAt t k = { segAt s k with st := .failed, cause := 0x04 } ∧ t = { s with hart := { s.hart with segs := t.hart.segs } }) ∧
    (isDevVa (segAt s k).addr = true → ∀ c v o, translate s (segAt s k).user true ⟨false, false, 0⟩ (segAt s k).addr = .error (c, v, o) →
      ∃ t, exec (.codeFetchComplete k) s = .next t ∧ segAt t k = { segAt s k with st := .failed, cause := causeCode c, addr := v } ∧
        t = { s with hart := { s.hart with segs := t.hart.segs } }) ∧
    (isDevVa (segAt s k).addr = true → ∀ l u, translate s (segAt s k).user true ⟨false, false, 0⟩ (segAt s k).addr = .ok (l, u) →
      (fetchLines u (segAt s k) l).all (canPerform u) = true →
      (∀ a, (fetchLines u (segAt s k) l).findSome? (fun r => (loadPoison u r).map fun i => r.va + wordOf i) = some a →
        ∃ t, exec (.codeFetchComplete k) s = .next t ∧ segAt t k = { segAt s k with st := .failed, cause := 0x0C, addr := a }) ∧
      ((∀ r ∈ fetchLines u (segAt s k) l, loadPoison u r = none) →
        ∃ t, exec (.codeFetchComplete k) s = .next t ∧ segAt t k = { segAt s k with st := .landed } ∧ t.dev = u.dev ∧
          t.hart = { u.hart with segs := t.hart.segs, imem := t.hart.imem } ∧
          t.hart.imem = memPut u.hart.imem (4096 * k) ((fetchLines u (segAt s k) l).flatMap (loadBytes u)))))

namespace Sys2Proof.Machine

/-! ## Control and status registers -/

/-- A CSR instruction: its destination, its register, whether it writes, and what it writes from the old value (R79). -/
def csrInstr (s : State) : Instr → Option (Reg × BitVec 12 × Option (Word → Word))
  | .csrr d c => some (d, c, none)
  | .csrw d a c => some (d, c, some fun _ => xr s a)
  | .csrs d a c => some (d, c, if a = 0 then none else some fun old => old ||| xr s a)
  | .csrc d a c => some (d, c, if a = 0 then none else some fun old => old &&& ~~~(xr s a))
  | .csrx d a c => some (d, c, if a = 0 then none else some fun old => old ^^^ xr s a)
  | _ => none

/-- The state in which a CSR is read: TIME and WINDOW observe device time, which passes by a free amount (R15, R245). -/
def readState (c : BitVec 12) (s : State) : State := if c = 0x030 ∨ c = 0x031 then passTime s else s

/-- What a CSR instruction writes, if it writes (R79, R80). -/
def csrAfter (c : BitVec 12) (w : Option (Word → Word)) (s : State) : State :=
  match w with
  | some f => csrPut c.toNat (f (csrVal s c.toNat)) s
  | none => s

end Sys2Proof.Machine

/-- R77, R79. -/
def Obligations.CsrInstructionsReadThenWrite : Prop :=
  ∀ (i : Instr) (d : Reg) (c : BitVec 12) (w : Option (Word → Word)) (s : State), csrInstr s i = some (d, c, w) →
    (csrAllowed s.hart.mode c.toNat w.isSome = true → Quiet s → exec i s = .next (wentOn s
        (setX d (csrVal (readState c s) c.toNat) (csrAfter c w (readState c s))))) ∧
    (csrAllowed s.hart.mode c.toNat w.isSome = false →
      exec i s = .next (takeTrap 0x01 ((encode i).setWidth 64) s.hart.pc 0 false s))

/-- R6, R63 to R80, R359, R383, R390: the field rules of CSR_WRITE, LFSR_WRITE, ULFULL_CLEAR and CROOT_WRITE. -/
def Obligations.CsrWriteFieldRules : Prop :=
  (∀ (v : Word) (s : State), ∃ a b c e f g h,
    (exec (.csrWrite 0x011 v) s = .next a ∧ a.hart.ar.frm = if v.setWidth 3 = (0 : BitVec 3) then s.hart.ar.frm else v.setWidth 3) ∧
    (exec (.csrWrite 0x012 v) s = .next b ∧ b.hart.ar.fflags = v.setWidth 6) ∧
    (exec (.csrWrite 0x013 v) s = .next c ∧ c.hart.ar.lfsr = if v = 0 then 1 else v) ∧
    (exec (.csrWrite 0x014 v) s = .next e ∧ e.hart.ar.satf = v.getLsbD 0) ∧
    (exec (.csrWrite 0x051 v) s = .next f ∧ f.hart.tr.epc = v.setWidth 16 &&& 0xFFFC) ∧
    (exec (.csrWrite 0x054 v) s = .next g ∧ g.hart.tr.tvec = v.setWidth 16 &&& 0xFFC) ∧
    (exec (.csrWrite 0x053 v) s = .next h ∧ h.hart.tr.tip = v.getLsbD 2 ∧ h.hart.tr.prn = v.getLsbD 4 ∧
      h.hart.tr.ppm = if v.toNat % 4 = 0 then .u else if v.toNat % 4 = 1 then .s else s.hart.tr.ppm) ∧
    (∀ k : BitVec 12, k.toNat < 0x10 → exec (.csrWrite k v) s = .next s)) ∧
  (∀ v s, exec (.lfsrWrite v) s = .next { s with hart := { s.hart with ar := { s.hart.ar with lfsr := if v = 0 then 1 else v } } }) ∧
  (∀ v s c, curCtx s = some c → ∃ t k, exec (.ulfullClear v) s = .next t ∧ t.hart = s.hart ∧ t.clu = s.clu ∧ curCtx t = some k ∧
    k = { c with ulRsv := c.ulRsv && !v.getLsbD 9, ulDropped := c.ulDropped && !v.getLsbD 8 } ∧
    t.dev = { s.dev with ctxs := t.dev.ctxs }) ∧
  (∀ v s c, ctxOf s.dev s.dev.csel.toNat = some c → ∃ t k, exec (.crootWrite v) s = .next t ∧ t.hart = s.hart ∧ t.clu = s.clu ∧
    ctxOf t.dev t.dev.csel.toNat = some k ∧ k = { c with root := v.toNat % 2 ^ 40 / 4096 * 4096 } ∧
    t.dev = { s.dev with ctxs := t.dev.ctxs })

namespace Sys2Proof.Machine

/-! ## Vector instructions -/

/-- `t` is `s` after one retired vector instruction: vd, FFLAGS and the LFSR may change, nothing else. -/
def VectorFrame (s t : State) (d : VReg) : Prop :=
  CoreFrame s t ∧ OldHeld s t ∧ FlowsOn s t ∧ (∀ r, r ≠ d → vr t r = vr s r) ∧
  t.hart.ar = { s.hart.ar with fflags := t.hart.ar.fflags, lfsr := t.hart.ar.lfsr } ∧
  t.hart.regs = { s.hart.regs with v := t.hart.regs.v, vsh := t.hart.regs.vsh }

/-- A lane-wise instruction whose lanes set no flag and draw no random value: its destination, type and mask, the sources it
reads, and the value of lane `i` from the old lane and the two source lanes (R103 to R109, R113, R117 to R119). The integer
arithmetic wraps (R52). -/
def laneInstr (s : State) : Instr → Option (VReg × Ty × MSel × Src × Src × (Nat → Nat → Nat → Nat))
  | .vadd d a b t q => if t.isInt then some (d, t, q, a, b, fun _ x y => laneWrap t (laneInt t x + laneInt t y)) else none
  | .vsub d a b t q => if t.isInt then some (d, t, q, a, b, fun _ x y => laneWrap t (laneInt t x - laneInt t y)) else none
  | .vmul d a b t q => if t.isInt then some (d, t, q, a, b, fun _ x y => laneWrap t (laneInt t x * laneInt t y)) else none
  | .vfma d a b t q => if t.isInt then some (d, t, q, a, b, fun z x y => laneWrap t (laneInt t z + laneInt t x * laneInt t y)) else none
  | .vfnma d a b t q => if t.isInt then some (d, t, q, a, b, fun z x y => laneWrap t (laneInt t z - laneInt t x * laneInt t y)) else none
  | .vmin d a b t q => some (d, t, q, a, b, fun _ x y => minmaxLane t false x y)
  | .vmax d a b t q => some (d, t, q, a, b, fun _ x y => minmaxLane t true x y)
  | .vmulh d a b t q => some (d, t, q, a, b, fun _ x y => laneWrap t (laneInt t x * laneInt t y / 2 ^ t.width))
  | .vand d a b t q => some (d, t, q, a, b, fun _ x y => x &&& y)
  | .vor d a b t q => some (d, t, q, a, b, fun _ x y => x ||| y)
  | .vxor d a b t q => some (d, t, q, a, b, fun _ x y => x ^^^ y)
  | .vandn d a b t q => some (d, t, q, a, b, fun _ x y => x &&& (2 ^ t.width - 1 - y))
  | .vshl d a b t q => some (d, t, q, a, b, fun _ x y => if y % 256 < t.width then x * 2 ^ (y % 256) % 2 ^ t.width else 0)
  | .vshr d a b t q => some (d, t, q, a, b, fun _ x y => if y % 256 < t.width then x % 2 ^ t.width / 2 ^ (y % 256) else 0)
  | .vsar d a b t q => some (d, t, q, a, b, fun _ x y => wrapInt t.width (toInt true t.width x / 2 ^ min (y % 256) (t.width - 1)))
  | .vfsh d a b t q => some (d, t, q, a, b, fun z x y =>
      (z * 2 ^ t.width + x) * 2 ^ (y % 256 % t.width) / 2 ^ t.width % 2 ^ t.width)
  | .vbext d a b t q => some (d, t, q, a, b, fun _ x y => vbextLane t x y)
  | .vperm d a b t q => some (d, t, q, .v a, b, fun _ _ y => if y % 256 < t.lanes then lane (vr s a) t.width (y % 256) else 0)
  | .vhashk d a b t q => some (d, t, q, a, b, fun _ x y => hashLane t x y)
  | .vabs d a t q => some (d, t, q, a, .lit 0, fun _ x _ =>
      if t.isInt then laneWrap t (laneInt t x).natAbs else if fdec t x = .nan then nanCode t else x % signBit t)
  | .vneg d a t q => some (d, t, q, a, .lit 0, fun _ x _ =>
      if t.isInt then laneWrap t (-(laneInt t x)) else if fdec t x = .nan then nanCode t else x ^^^ signBit t)
  | .vnot d a t q => some (d, t, q, a, .lit 0, fun _ x _ => 2 ^ t.width - 1 - x)
  | .vclz d a t q => some (d, t, q, a, .lit 0, fun _ x _ => t.width - bitLen x)
  | .vpopc d a t q => some (d, t, q, a, .lit 0, fun _ x _ => popN t.width x)
  | .vmov d a t q => some (d, t, q, a, .lit 0, fun _ x _ => x)
  | .vfloor d a t q => some (d, t, q, a, .lit 0, fun _ x _ => (roundIntegral t ⟨.rdn, true, 0⟩ x).1)
  | .vceil d a t q => some (d, t, q, a, .lit 0, fun _ x _ => (roundIntegral t ⟨.rup, true, 0⟩ x).1)
  | _ => none

/-- No name of a list lies at or above the allotment (R100). -/
def Allotted (s : State) (l : List VReg) : Prop := ∀ r ∈ l, refused s r = false

end Sys2Proof.Machine

/-- R103: governed lanes are computed, the others keep their value. The model's choices in it: log 99. -/
def Obligations.LaneInstructionsComplete : Prop :=
  ∀ (i : Instr) (d : VReg) (ty : Ty) (q : MSel) (a b : Src) (f : Nat → Nat → Nat → Nat) (s : State),
    laneInstr s i = some (d, ty, q, a, b, f) → Allotted s (d :: srcRegs [a, b]) → Quiet s →
    ∃ t, exec i s = .next t ∧ VectorFrame s t d ∧ t.hart.ar = s.hart.ar ∧
      ∀ n, n < 1024 / ty.width → lane (vr t d) ty.width n =
        if (kr s q).getLsbD n then
          f (lane (vr s d) ty.width n) ((srcLanes s ty a).getD n 0) ((srcLanes s ty b).getD n 0) % 2 ^ ty.width
        else lane (vr s d) ty.width n

namespace Sys2Proof.Machine

/-- A lane-wise instruction whose governed lanes, in ascending order, may set flags and draw from the LFSR: its destination,
type, mask, sources, and lane function (R69, R103, R104, R113, R117, R118). -/
def drawInstr (s : State) : Instr → Option (VReg × Ty × MSel × Src × Src × (Nat → Nat → Nat → Acc → Nat × Acc))
  | .vadd d a b t q => some (d, t, q, a, b, arithLane s t (fun _ x y => x + y) fun rm _ x y => faddCode t rm x y)
  | .vsub d a b t q => some (d, t, q, a, b, arithLane s t (fun _ x y => x - y) fun rm _ x y => faddCode t rm x (flipSign t y))
  | .vmul d a b t q => some (d, t, q, a, b, arithLane s t (fun _ x y => x * y) fun rm _ x y => fmulCode t rm x y)
  | .vfma d a b t q => some (d, t, q, a, b, arithLane s t (fun z x y => z + x * y) fun rm z x y => ffmaCode t rm false x y z)
  | .vfnma d a b t q => some (d, t, q, a, b, arithLane s t (fun z x y => z - x * y) fun rm z x y => ffmaCode t rm true x y z)
  | .vadds d a b t q => some (d, t, q, a, b, satLane t fun x y => x + y)
  | .vsubs d a b t q => some (d, t, q, a, b, satLane t fun x y => x - y)
  | .vrndi d a t q => some (d, t, q, a, .lit 0, fun _ x _ c => rounding (frmOf s) true (fun rm => roundIntegral t rm x) c)
  | .vcell d a b q => some (d, .f32, q, a, b, fun _ x y c => ((cellLane x y).1, { c with flags := c.flags ||| (cellLane x y).2 }))
  | .vmorton d a b t q => some (d, t, q, a, b, fun z x y c =>
      ((mortonLane t z x y).1, { c with flags := c.flags ||| (mortonLane t z x y).2 }))
  | _ => none

/-- The lanes of a lane-wise instruction in ascending order, with the flags and the LFSR that they leave (R69, R103). -/
def lanesDrawn (s : State) (d : VReg) (ty : Ty) (q : MSel) (a b : Src) (f : Nat → Nat → Nat → Acc → Nat × Acc) : List Nat × Acc :=
  laneLoop (kr s q) (fun i c => f ((lanesOf (vr s d) ty.width).getD i 0) ((srcLanes s ty a).getD i 0) ((srcLanes s ty b).getD i 0) c)
    (lanesOf (vr s d) ty.width) 0 ⟨s.hart.ar.lfsr, 0⟩

end Sys2Proof.Machine

/-- R69, R103, R104: lanes in ascending order, their flags gathered, their draws made. The model's choices in it: log 99. -/
def Obligations.RoundingLaneInstructionsComplete : Prop :=
  ∀ (i : Instr) (d : VReg) (ty : Ty) (q : MSel) (a b : Src) (f : Nat → Nat → Nat → Acc → Nat × Acc) (s : State),
    drawInstr s i = some (d, ty, q, a, b, f) → Allotted s (d :: srcRegs [a, b]) → Quiet s →
    ∃ t, exec i s = .next t ∧ VectorFrame s t d ∧
      vr t d = ofLanes ty.width (lanesDrawn s d ty q a b f).1 ∧
      t.hart.ar.fflags = s.hart.ar.fflags ||| BitVec.ofNat 6 (lanesDrawn s d ty q a b f).2.flags ∧
      t.hart.ar.lfsr = (lanesDrawn s d ty q a b f).2.lfsr

/-- R69: one advance for each stochastic rounding. -/
def Obligations.RoundingDrawsOnlyWhenStochastic : Prop :=
  ∀ (m : Rnd) (sat : Bool) (f : RMode → Rounded) (a : Acc),
    (m = .sto → rounding m sat f a = ((f ⟨.sto, sat, (lfsrAdvance a.lfsr).toNat % 2 ^ 32⟩).1,
      ⟨lfsrAdvance a.lfsr, a.flags ||| (f ⟨.sto, sat, (lfsrAdvance a.lfsr).toNat % 2 ^ 32⟩).2⟩)) ∧
    (m ≠ .sto → rounding m sat f a = ((f ⟨m, sat, 0⟩).1, ⟨a.lfsr, a.flags ||| (f ⟨m, sat, 0⟩).2⟩))

namespace Sys2Proof.Machine

/-- A long-latency vector instruction: its destination, its sources' names, its lookahead, the value, the flags and the
LFSR known at issue, and which bits of vd it writes: VRED all, the others those of governed lanes (R23, R71 to R73, R113 to R115). -/
def vectorHeld (s : State) : Instr → Option (VReg × List VReg × BitVec 4 × VWord × Acc × (Nat → Bool))
  | .vrcp d a t q l => trans .rcp d a t q l
  | .vsqrt d a t q l => trans .sqrt d a t q l
  | .vrsq d a t q l => trans .rsq d a t q l
  | .vexp2 d a t q l => trans .exp2 d a t q l
  | .vlog2 d a t q l => trans .log2 d a t q l
  | .vtanh d a t q l => trans .tanh d a t q l
  | .vsigm d a t q l => trans .sigm d a t q l
  | .vredSum d a t q l => red .sum d a t q l
  | .vredMax d a t q l => red .max d a t q l
  | .vredMin d a t q l => red .min d a t q l
  | .vredAnd d a t q l => red .and d a t q l
  | .vredOr d a t q l => red .or d a t q l
  | .vredXor d a t q l => red .xor d a t q l
  | .vredAmax d a t q l => red .amax d a t q l
  | .vscanSadd d a t q l => scan .sum d a t q l
  | .vscanSmax d a t q l => scan .max d a t q l
  | .vscanSmin d a t q l => scan .min d a t q l
  | _ => none
where
  trans (op : Trans) (d : VReg) (a : Src) (t : Ty) (q : MSel) (l : BitVec 4) :
      Option (VReg × List VReg × BitVec 4 × VWord × Acc × (Nat → Bool)) :=
    let r := laneLoop (kr s q) (fun i c => rounding (frmOf s) true (fun rm => transCode op t rm ((srcLanes s t a).getD i 0)) c)
      (lanesOf (vr s d) t.width) 0 ⟨s.hart.ar.lfsr, 0⟩
    some (d, d :: srcRegs [a], l, ofLanes t.width r.1, r.2, fun n => (kr s q).getLsbD (n / t.width))
  red (op : Red) (d a : VReg) (t : Ty) (q : MSel) (l : BitVec 4) :
      Option (VReg × List VReg × BitVec 4 × VWord × Acc × (Nat → Bool)) :=
    let r := reduceBlock op t (frmOf s) (present op t (kr s q) (lanesOf (vr s a) t.width)) ⟨s.hart.ar.lfsr, 0⟩
    some (d, [d, a], l, BitVec.ofNat 1024 (r.1.getD (emptyRed op t)), r.2, fun _ => true)
  scan (op : Red) (d a : VReg) (t : Ty) (q : MSel) (l : BitVec 4) :
      Option (VReg × List VReg × BitVec 4 × VWord × Acc × (Nat → Bool)) :=
    let r := scanLoop op t (frmOf s) (kr s q) (scanDraws s) t.lanes.log2 1 (present op t (kr s q) (lanesOf (vr s a) t.width)) ⟨s.hart.ar.lfsr, 0⟩
    some (d, [d, a], l, ofLanes t.width (maskLanes (kr s q) (lanesOf (vr s d) t.width)
      (r.1.map fun x => if !t.isInt && fdec t (x.getD 0) == .nan then nanCode t else x.getD 0)), r.2,
      fun n => (kr s q).getLsbD (n / t.width))

end Sys2Proof.Machine

/-- R66, R113 to R115: the held writes of the vector unit. The model's choices in it: log 99, 100. -/
def Obligations.VectorLongLatencyOpensHeldWrite : Prop :=
  ∀ (i : Instr) (d : VReg) (names : List VReg) (l : BitVec 4) (v : VWord) (acc : Acc) (k : Nat → Bool) (s : State),
    vectorHeld s i = some (d, names, l, v, acc, k) → Allotted s names → Quiet s →
    ∃ t w, exec i s = .next t ∧ OpensHeld s t w ∧ w.dst = .v d ∧ w.left = l.toNat ∧ w.val = v ∧ w.missing = 0 ∧
      (∀ n, n < 1024 → w.lanes.getLsbD n = k n) ∧
      w.flags = BitVec.ofNat 6 acc.flags ∧ w.poison = none ∧ w.depth = depthOf s.hart ∧ t.hart.regs = s.hart.regs ∧
      t.hart.ar = { s.hart.ar with lfsr := acc.lfsr } ∧ CoreFrame s t ∧ FlowsOn s t

namespace Sys2Proof.Machine

/-- The vector instructions that rearrange, compare or convert: the names they need, and the effect they have (R106, R107,
R110 to R112, R116, R128). -/
def vectorMove (s : State) : Instr → Option (List VReg × State)
  | .vcmp c kd a b t q => some (srcRegs [a, b], setK kd (BitVec.ofNat 128 ((List.range t.lanes).foldl (fun acc i =>
      acc + if (if governs (kr s q) i then condHolds c t ((srcLanes s t a).getD i 0) ((srcLanes s t b).getD i 0)
        else (kr s kd).getLsbD i) then 2 ^ i else 0) 0)) s)
  | .vsel d a b t q => some (d :: srcRegs [a, b], setV d (ofLanes t.width (maskLanes (kr s q) (srcLanes s t b) (srcLanes s t a))) s)
  | .vcvt d a t ts p r =>
    let narrow := decide (t.width < ts.width)
    let src := if narrow then srcLanes s ts a else ((srcLanes s ts a).drop (p.toNat * t.lanes)).take t.lanes
    let o := lanesOf (vr s d) t.width
    let c := convList t ts (rndOf s r) s.hart.ar.satf src ⟨s.hart.ar.lfsr, 0⟩
    let new := if narrow then o.take (p.toNat * ts.lanes) ++ c.1 ++ o.drop ((p.toNat + 1) * ts.lanes) else c.1
    some (d :: srcRegs [a], setFlags c.2.flags (setLfsr c.2.lfsr (setV d (ofLanes t.width new) s)))
  | .vcompact d a t q => some ([d, a], setV d (ofLanes t.width (((lanesOf (vr s a) t.width).mapIdx fun i x => (i, x)).filterMap
      fun p => if governs (kr s q) p.1 then some p.2 else none)) s)
  | .vexpand d a t q => some ([d, a], setV d (ofLanes t.width
      (expandLanes (kr s q) (lanesOf (vr s d) t.width) (lanesOf (vr s a) t.width) 0)) s)
  | .vext d a b =>
    let c := laneControl (xr s b)
    let v := lane (vr s a) c.1 c.2
    some ([a], setX d (if (xr s b).getLsbD 10 then BitVec.ofInt 64 (toInt true c.1 v) else wordOf v) s)
  | .vins d a b =>
    let c := laneControl (xr s b)
    some ([d], setV d (ofLanes c.1 ((lanesOf (vr s d) c.1).set c.2 ((xr s a).toNat % 2 ^ c.1))) s)
  | _ => none

/-- The vector names of an instruction whose allotment is checked, in the order destination, a, b (R43, R100). -/
def allotNames : Instr → List VReg
  | .vadd d a b _ _ | .vsub d a b _ _ | .vmul d a b _ _ | .vfma d a b _ _ | .vfnma d a b _ _ | .vmin d a b _ _
  | .vmax d a b _ _ | .vadds d a b _ _ | .vsubs d a b _ _ | .vmulh d a b _ _ | .vand d a b _ _ | .vor d a b _ _
  | .vxor d a b _ _ | .vandn d a b _ _ | .vshl d a b _ _ | .vshr d a b _ _ | .vsar d a b _ _ | .vsel d a b _ _
  | .vfsh d a b _ _ | .vbext d a b _ _ | .vcell d a b _ | .vmorton d a b _ _ | .vhashk d a b _ _ => d :: srcRegs [a, b]
  | .vcmp _ _ a b _ _ => srcRegs [a, b]
  | .vperm d a b _ _ => d :: a :: srcRegs [b]
  | .vcvt d a _ _ _ _ | .vabs d a _ _ | .vneg d a _ _ | .vnot d a _ _ | .vclz d a _ _ | .vpopc d a _ _ | .vmov d a _ _
  | .vrcp d a _ _ _ | .vsqrt d a _ _ _ | .vrsq d a _ _ _ | .vexp2 d a _ _ _ | .vlog2 d a _ _ _ | .vtanh d a _ _ _
  | .vsigm d a _ _ _ | .vfloor d a _ _ | .vceil d a _ _ | .vrndi d a _ _ => d :: srcRegs [a]
  | .vredSum d a _ _ _ | .vredMax d a _ _ _ | .vredMin d a _ _ _ | .vredAnd d a _ _ _ | .vredOr d a _ _ _
  | .vredXor d a _ _ _ | .vredAmax d a _ _ _ | .vscanSadd d a _ _ _ | .vscanSmax d a _ _ _ | .vscanSmin d a _ _ _
  | .vcompact d a _ _ | .vexpand d a _ _ => [d, a]
  | .vext _ a _ => [a]
  | .vins d _ _ | .vld d _ _ _ _ | .vst d _ _ _ => [d]
  | .vgath d _ v _ _ _ | .vscat d _ v _ _ => [d, v]
  | _ => []

end Sys2Proof.Machine

/-- R106 to R128: the instructions that rearrange, compare and convert. -/
def Obligations.VectorMovesComplete : Prop :=
  ∀ (i : Instr) (names : List VReg) (u s : State), vectorMove s i = some (names, u) → Allotted s names → Quiet s →
    exec i s = .next (wentOn s u) ∧ u.clu = s.clu ∧ u.dev = s.dev ∧ u.hart.sq = s.hart.sq ∧ u.hart.l1 = s.hart.l1 ∧
      u.hart.held = s.hart.held ∧ ∀ l, byteAt (wentOn s u) l = byteAt s l

/-- R43, R100: Illegal Register. -/
def Obligations.RefusedVectorNameTraps : Prop :=
  (∀ (i : Instr) (pre post : List VReg) (r : VReg) (s : State), insideInstr s.hart = false → allotNames i = pre ++ r :: post →
    (∀ p ∈ pre, refused s p = false) → refused s r = true →
    exec i s = .next (takeTrap 0x02 ((r.setWidth 64 <<< 32) ||| (encode i).setWidth 64) s.hart.pc 0 false s)) ∧
  (∀ (r : VReg) (s : State), s.hart.ui.inh = true → 24 ≤ r.toNat → refused s r = false)

namespace Sys2Proof.Machine

/-- The mask instructions: the mask they write (R120). -/
def maskResult (s : State) : Instr → Option (MSel × MWord)
  | .mand d a b => some (d, kr s a &&& kr s b)
  | .mor d a b => some (d, kr s a ||| kr s b)
  | .mxor d a b => some (d, kr s a ^^^ kr s b)
  | .mandn d a b => some (d, kr s a &&& ~~~(kr s b))
  | .mnot d a => some (d, ~~~(kr s a))
  | .mfromx d a b => some (d, xr s b ++ xr s a)
  | _ => none

/-- The scalar results from masks and the allotment (R120, R127). -/
def maskScalar (s : State) : Instr → Option (Reg × Word)
  | .mpopc d a => some (d, BitVec.ofNat 64 ((List.range 128).filter fun i => (kr s a).getLsbD i).length)
  | .mfirst d a => some (d, BitVec.ofNat 64 ((List.range 128).takeWhile fun i => !(kr s a).getLsbD i).length)
  | .mtox d a h => some (d, if h then (kr s a).extractLsb' 64 64 else (kr s a).extractLsb' 0 64)
  | .vallotq d => some (d, BitVec.ofNat 64 s.hart.regs.allot)
  | _ => none

end Sys2Proof.Machine

/-- R120, R127. -/
def Obligations.MaskInstructionsComplete : Prop :=
  (∀ (i : Instr) (d : MSel) (v : MWord) (s : State), maskResult s i = some (d, v) → d ≠ 0 → Quiet s →
    ∃ t, exec i s = .next t ∧ (∀ q, kr t q = if q = d then v else kr s q) ∧ CoreFrame s t ∧ OldHeld s t ∧ FlowsOn s t ∧
      t.hart.ar = s.hart.ar ∧ t.hart.regs = { s.hart.regs with k := t.hart.regs.k }) ∧
  (∀ (i : Instr) (d : Reg) (v : Word) (s : State), maskScalar s i = some (d, v) → Quiet s →
    ∃ t, exec i s = .next t ∧ WritesX s t d v ∧ ScalarFrame s t ∧ FlowsOn s t)

namespace Sys2Proof.Machine

/-- The four allotments (R99). -/
def isAllotment (q : Word) : Prop := q = 8 ∨ q = 16 ∨ q = 24 ∨ q = 32

end Sys2Proof.Machine

/-- R127. The model's choices in it: log 101. -/
def Obligations.AllotmentInstructions : Prop :=
  (∀ (d a : Reg) (s : State), isAllotment (xr s a) → s.hart.regs.allot ≤ (xr s a).toNat → Quiet s →
    ∃ t, exec (.vgrow d a) s = .next t ∧ WritesX s t d (xr s a) ∧ t.hart.regs.allot = (xr s a).toNat ∧ CoreFrame s t ∧
      OldHeld s t ∧ t.hart.ar = s.hart.ar ∧ FlowsOn s t ∧
      ∀ n (h : n < 32), t.hart.regs.v[n] = if s.hart.regs.allot ≤ n ∧ n < (xr s a).toNat then 0 else s.hart.regs.v[n]) ∧
  (∀ (d a : Reg) (s : State), isAllotment (xr s a) → (xr s a).toNat ≤ s.hart.regs.allot → Quiet s →
    (∀ w ∈ s.hart.held, releasedBy (xr s a).toNat s.hart.regs.allot w = true → w.missing = 0) →
    ∃ t, exec (.vshrink d a) s = .next t ∧ WritesX s t d (xr s a) ∧ t.hart.regs.allot = (xr s a).toNat ∧ CoreFrame s t ∧
      FlowsOn s t ∧ (∀ w ∈ t.hart.held, releasedBy (xr s a).toNat s.hart.regs.allot w = false) ∧
      ∀ n (h : n < 32), t.hart.regs.v[n] = if (xr s a).toNat ≤ n ∧ n < s.hart.regs.allot then 0 else s.hart.regs.v[n]) ∧
  (∀ (d a : Reg) (s : State), (¬ isAllotment (xr s a) ∨ (xr s a).toNat < s.hart.regs.allot) → Quiet s →
    ∃ t, exec (.vgrow d a) s = .next t ∧ WritesX s t d (BitVec.ofNat 64 s.hart.regs.allot) ∧ ScalarFrame s t) ∧
  (∀ (d a : Reg) (s : State), (¬ isAllotment (xr s a) ∨ s.hart.regs.allot < (xr s a).toNat) → Quiet s →
    ∃ t, exec (.vshrink d a) s = .next t ∧ WritesX s t d (BitVec.ofNat 64 s.hart.regs.allot) ∧ ScalarFrame s t)

namespace Sys2Proof.Machine

/-! ## Memory instructions -/

/-- A load: its destination, lookahead, hint, address, size, and whether it extends the sign (R149, R151). -/
def loadOf (s : State) : Instr → Option (Dst × BitVec 4 × Hint × Word × Nat × Bool)
  | .ldb d b l h o => some (xDst d, l, h, xr s b + BitVec.ofInt 64 o.toInt, 1, true)
  | .ldh d b l h o => some (xDst d, l, h, xr s b + BitVec.ofInt 64 (2 * o.toInt), 2, true)
  | .ldw d b l h o => some (xDst d, l, h, xr s b + BitVec.ofInt 64 (4 * o.toInt), 4, true)
  | .ldd d b l h o => some (xDst d, l, h, xr s b + BitVec.ofInt 64 (8 * o.toInt), 8, false)
  | .ldbn d b l h o => some (xDst d, l, h, xr s b + BitVec.ofInt 64 o.toInt, 1, false)
  | .ldhn d b l h o => some (xDst d, l, h, xr s b + BitVec.ofInt 64 (2 * o.toInt), 2, false)
  | .ldwn d b l h o => some (xDst d, l, h, xr s b + BitVec.ofInt 64 (4 * o.toInt), 4, false)
  | .vld d b l h o => some (.v d, l, h, xr s b + BitVec.ofInt 64 (128 * o.toInt), 128, false)
  | _ => none

/-- What every access that only begins leaves: the registers and the flags, and every byte of memory. -/
def AccessFrame (s t : State) : Prop :=
  t.hart.regs = s.hart.regs ∧ t.hart.ar = s.hart.ar ∧ t.hart.tr = s.hart.tr ∧ t.hart.ss = s.hart.ss ∧ t.hart.slots = s.hart.slots ∧
  t.clu.cm = s.clu.cm ∧ ∀ l, byteAt t l = byteAt s l

/-- A walk for this address finds no entry of its tables in an update-only line of the cluster: its homes recall none (R145, R219). -/
def TablesHome (s : State) (a : Word) : Prop := isDevVa a = true → recallTables s.hart.ar.ctx a.toNat s = s

/-- The trap that a failed check raises: its cause, TVAL and OP, at the instruction (R148, R358). -/
def checkTrap (r : Refuse) (s : State) : State := takeTrap (causeCode r.1) r.2.1 s.hart.pc r.2.2 false s

end Sys2Proof.Machine

/-- R149, R151: a load opens its held write and sends its request. -/
def Obligations.LoadsOpenHeldWrite : Prop :=
  ∀ (i : Instr) (dst : Dst) (l : BitVec 4) (h : Hint) (a : Word) (n : Nat) (sg : Bool) (s : State),
    loadOf s i = some (dst, l, h, a, n, sg) → Allotted s (allotNames i) →
    (∀ x u w, checkAccess s a n ⟨true, false, 0⟩ = .ok (x, u) → reserveLog (loadNeed u h x) u = some w → Quiet s → Quiet u →
      exec i s = .next (wentOn s (request w.hart.nextId 0 n sg x (hintPoint h) (openHeld dst l 0 1 0 w))) ∧
      (TablesHome s a → AccessFrame s (wentOn s (request w.hart.nextId 0 n sg x (hintPoint h) (openHeld dst l 0 1 0 w))))) ∧
    (∀ r, checkAccess s a n ⟨true, false, 0⟩ = .error r → exec i s = .next (checkTrap r s))

namespace Sys2Proof.Machine

/-- A store: what it does when it leaves the queue, its address, its size, the operation bit it needs (R149, R151, R154,
R217). -/
def storeOf (s : State) : Instr → Option (StoreOp × Word × Nat × Nat)
  | .stb d b h o => some (.store (natBytes 1 (xr s d).toNat) h, xr s b + BitVec.ofInt 64 o.toInt, 1, 0)
  | .sth d b h o => some (.store (natBytes 2 (xr s d).toNat) h, xr s b + BitVec.ofInt 64 (2 * o.toInt), 2, 0)
  | .stw d b h o => some (.store (natBytes 4 (xr s d).toNat) h, xr s b + BitVec.ofInt 64 (4 * o.toInt), 4, 0)
  | .std d b h o => some (.store (natBytes 8 (xr s d).toNat) h, xr s b + BitVec.ofInt 64 (8 * o.toInt), 8, 0)
  | .vst d b h o => some (.store (natBytes 128 (vr s d).toNat) h, xr s b + BitVec.ofInt 64 (128 * o.toInt), 128, 0)
  | .zline a => some (.zline, xr s a, 128, 0)
  | .redaddi a b z => red .add a b z
  | .redaddf32 a b => red .addf32 a b .w
  | .redaddbf16 a b => red .addbf16 a b .w
  | .redmin a b z => red .min a b z
  | .redmax a b z => red .max a b z
  | .redminn a b z => red .minn a b z
  | .redmaxn a b z => red .maxn a b z
  | .redor a b z => red .or a b z
  | _ => none
where
  red (op : RmwOp) (a b : Reg) (z : Size) : Option (StoreOp × Word × Nat × Nat) :=
    some (.rmw op (sizeBytes z) (xr s b) 0 none true, xr s a, sizeBytes z, 8)

/-- `t` has one more entry in its store queue than `s`, for this access (R149). -/
def Queued (s t : State) (op : StoreOp) (x : Access) (rel : Option Scope) : Prop :=
  ∃ q, t.hart.sq = s.hart.sq ++ [q] ∧ q.op = op ∧ q.loc = x.loc ∧ q.region = x.region ∧ q.va = x.va ∧ q.rel = rel ∧
    q.seq = s.hart.nextSeq + 1 ∧ t.hart.nextSeq = s.hart.nextSeq + 1

end Sys2Proof.Machine

/-- R149: a store enters the queue; memory changes when it leaves. -/
def Obligations.StoresEnterQueue : Prop :=
  ∀ (i : Instr) (op : StoreOp) (a : Word) (n b : Nat) (s : State), storeOf s i = some (op, a, n, b) → Allotted s (allotNames i) →
    (∀ x u w, checkAccess s a n ⟨false, true, b⟩ = .ok (x, u) → sqRoom u 1 = true →
      reserveLog (storeNeed u op x.loc) (markEffect u) = some w → Quiet s → Quiet u →
      exec i s = .next (wentOn s (enqueue op x none w)) ∧
      (TablesHome s a → Queued s (wentOn s (enqueue op x none w)) op x none ∧ AccessFrame s (wentOn s (enqueue op x none w)))) ∧
    (∀ x u, checkAccess s a n ⟨false, true, b⟩ = .ok (x, u) → sqRoom u 1 = false → exec i s = .next s) ∧
    (∀ r, checkAccess s a n ⟨false, true, b⟩ = .error r → exec i s = .next (checkTrap r s))

/-- R130, R148: regions and the order of the checks. The model's choices in it: log 62. -/
def Obligations.AccessChecksInOrder : Prop :=
  ∀ (s : State) (a : Word) (n : Nat) (d : Need), 0 < n →
    (a.toNat % n ≠ 0 → checkAccess s a n d = .error (.misaligned, a, 0)) ∧
    (a.toNat % n = 0 → a.toNat < 0x20000 → checkAccess s a n d = .ok (⟨⟨.ls s.hart.ar.core, a.toNat⟩, .ls, a⟩, s)) ∧
    (a.toNat % n = 0 → 0x100000 ≤ a.toNat → a.toNat < 0x500000 →
      checkAccess s a n d = if a.toNat - 0x100000 < s.clu.scratch ∧ ¬ (d.wr = true ∧ joinRecordAt s a.toNat n = true)
        then .ok (⟨⟨.scr s.hart.ar.cluster, a.toNat - 0x100000⟩, .scr, a⟩, s) else .error (.protection, a, 0)) ∧
    (a.toNat % n = 0 → 0x100000000 ≤ a.toNat → a.toNat < 0x170000000 → checkAccess s a n d = .error (.phase, a, 0)) ∧
    (a.toNat % n = 0 → (0x20000 ≤ a.toNat ∧ a.toNat < 0x100000) ∨ (0x500000 ≤ a.toNat ∧ a.toNat < 0x100000000) ∨
      (0x170000000 ≤ a.toNat ∧ a.toNat < devBase) ∨ devTop ≤ a.toNat → checkAccess s a n d = .error (.translation, a, 0)) ∧
    (∀ x u, checkAccess s a n d = .ok (x, u) →
      let r := if isDevVa a then recallTables s.hart.ar.ctx a.toNat s else s
      u = { r with clu := { r.clu with tlb := u.clu.tlb }, tick := u.tick })

/-- R152, R153. The model's choices in it: log 95, 108. -/
def Obligations.GatherAndScatterComplete : Prop :=
  (∀ (d : VReg) (b : Reg) (v : VReg) (l : BitVec 4) (t : Ty) (q : MSel) (s : State), Allotted s [d, v] →
    insideInstr s.hart = false →
    (∀ as u, checkLanes (t.width / 8) ⟨true, false, 5⟩ (laneAddrs s b v t q) s = .ok (as, u) → Quiet s → Quiet u →
      exec (.vgath d b v l t q) s =
        .next (wentOn s (gatherAll u.hart.nextId t.width as
          (openHeldLanes (.v d) l (vr s d) (laneBits (kr s q) t.width) as.length 0 u)))) ∧
    (∀ as u w, checkLanes (t.width / 8) ⟨false, true, 6⟩ (laneAddrs s b v t q) s = .ok (as, u) →
      reserveLog ((as.map fun p => storeNeed s (.store (natBytes (t.width / 8) 0) .normal) p.2.loc).sum) u = some w → Quiet s → Quiet u →
      (u.hart.sq.length + as.length ≤ 32 →
        exec (.vscat d b v t q) s = .next (wentOn s (markEffect (onHart (fun h => { h with mid := .none })
          (scatterAll (scatterReqs s (vr s d) t.width as) w))))) ∧
      (u.hart.sq.length ≤ 32 → 32 < u.hart.sq.length + as.length →
        exec (.vscat d b v t q) s = .next (onHart (fun h => { h with
            mid := .scatter ((scatterReqs s (vr s d) t.width as).drop (32 - u.hart.sq.length)) })
          (scatterAll ((scatterReqs s (vr s d) t.width as).take (32 - u.hart.sq.length)) w)))) ∧
    (∀ r, checkLanes (t.width / 8) ⟨true, false, 5⟩ (laneAddrs s b v t q) s = .error r →
      exec (.vgath d b v l t q) s = .next (checkTrap r s)) ∧
    (∀ r, checkLanes (t.width / 8) ⟨false, true, 6⟩ (laneAddrs s b v t q) s = .error r →
      exec (.vscat d b v t q) s = .next (checkTrap r s))) ∧
  (∀ (d : VReg) (b : Reg) (v : VReg) (t : Ty) (q : MSel) (l : List StoreReq) (s : State), s.hart.mid = .scatter l → Quiet s →
    s.hart.sq.length + l.length ≤ 32 →
    exec (.vscat d b v t q) s = .next (wentOn s (markEffect (onHart (fun h => { h with mid := .none }) (scatterAll l s)))))

namespace Sys2Proof.Machine

/-- The line of an access. -/
def lineAccess (x : Access) : Access := { x with loc := { x.loc with off := x.loc.off / 128 * 128 } }

end Sys2Proof.Machine

/-- R154: line maintenance. The model's choices in it: log 30, 98. -/
def Obligations.LineMaintenanceCompletes : Prop :=
  (∀ (a : Reg) (s u w : State) (x : Access), checkRegion s (xr s a) 1 ⟨true, false, 0⟩ = .ok (x, u) → Quiet s → Quiet u →
    (x.region ≠ .wb → exec (.clean a) s = .next (wentOn s u)) ∧
    (x.region = .wb → sqRoom u 1 = true → reserveLog (storeNeed u .clean (lineAccess x).loc) u = some w →
      exec (.clean a) s = .next (wentOn s (enqueue .clean (lineAccess x) none w)))) ∧
  (∀ (a : Reg) (s u w : State) (x : Access), checkRegion s (xr s a) 1 ⟨false, true, 0⟩ = .ok (x, u) → Quiet s → Quiet u →
    (x.region ≠ .wb → exec (.discard a) s = .next (wentOn s (markEffect u))) ∧
    (x.region = .wb → sqRoom u 1 = true → reserveLog (storeNeed u .discard (lineAccess x).loc) (markEffect u) = some w →
      exec (.discard a) s = .next (wentOn s (enqueue .discard (lineAccess x) none w)))) ∧
  (∀ s, Quiet s → exec (.invl1 0) s = .next (wentOn s (onHart (fun h => { h with l1 := [] }) s))) ∧
  (∀ (a : Reg) (s : State), a ≠ 0 → Quiet s → exec (.invl1 a) s = .next (wentOn s (match locOfVa s (xr s a) with
    | some l => onHart (l1Drop l 1) s
    | none => s))) ∧
  (∀ (a : Reg) (s : State), Quiet s → isDevVa (xr s a) = false → exec (.pref a) s = .next (wentOn s s)) ∧
  (∀ (a : Reg) (s : State) (r : Refuse), Quiet s → isDevVa (xr s a) = true →
    checkRegion s (xr s a) 1 ⟨true, false, 0⟩ = .error r → exec (.pref a) s = .next (wentOn s s)) ∧
  (∀ (a : Reg) (s u : State) (x : Access), Quiet s → Quiet u → isDevVa (xr s a) = true →
    checkRegion s (xr s a) 1 ⟨true, false, 0⟩ = .ok (x, u) → x.region = .wb → isUo s.clu x.loc = false → pathClear s x.loc = true →
    cmRoom u x.loc false = true →
    exec (.pref a) s = .next (wentOn s (l1Fill x.loc (if cmHit u.clu (lineLoc x.loc) 128 then u else cmFill x.loc u)))) ∧
  (∀ (a : Reg) (s u : State) (x : Access), Quiet s → Quiet u → isDevVa (xr s a) = true →
    checkRegion s (xr s a) 1 ⟨true, false, 0⟩ = .ok (x, u) →
    (x.region ≠ .wb ∨ isUo s.clu x.loc = true ∨ pathClear s x.loc = false ∨ cmRoom u x.loc false = false) →
    exec (.pref a) s = .next (wentOn s u))

namespace Sys2Proof.Machine

/-! ## Atomics -/

/-- AMO and AMOX: the operation, registers, lookahead, size and order (R210 to R216). -/
def amoOf : Instr → Option (RmwOp × Reg × Reg × Reg × BitVec 4 × Size × AOrder)
  | .amoadd d a b l z o => some (.add, d, a, b, l, z, o)
  | .amomin d a b l z o => some (.min, d, a, b, l, z, o)
  | .amomax d a b l z o => some (.max, d, a, b, l, z, o)
  | .amominn d a b l z o => some (.minn, d, a, b, l, z, o)
  | .amomaxn d a b l z o => some (.maxn, d, a, b, l, z, o)
  | .amoand d a b l z o => some (.and, d, a, b, l, z, o)
  | .amoor d a b l z o => some (.or, d, a, b, l, z, o)
  | .amoxor d a b l z o => some (.xor, d, a, b, l, z, o)
  | .amoswap d a b l z o => some (.swap, d, a, b, l, z, o)
  | .amocas d a b l z o => some (.cas, d, a, b, l, z, o)
  | _ => none

end Sys2Proof.Machine

/-- R210 to R216. -/
def Obligations.AtomicsEnterQueue : Prop :=
  ∀ (i : Instr) (op : RmwOp) (d a b : Reg) (l : BitVec 4) (z : Size) (o : AOrder) (s : State), amoOf i = some (op, d, a, b, l, z, o) →
    (∀ x u w, checkAccess s (xr s a) (sizeBytes z) ⟨true, true, 7⟩ = .ok (x, u) → sqRoom s 1 = true → Quiet s → TablesHome s (xr s a) →
      reserveLog (storeNeed s (.rmw op (sizeBytes z) (xr s b) (xr s d) (some s.hart.nextId) false) x.loc) u = some w →
      ∃ t, exec i s = .next t ∧ AccessFrame s t ∧
        Queued s t (.rmw op (sizeBytes z) (xr s b) (xr s d) (some s.hart.nextId) false) x
          (if o = .rel ∨ o = .ar then some (regionScope x.region) else none) ∧
        (∃ v, OpensHeld s t v ∧ v.dst = xDst d ∧ v.left = l.toNat ∧ v.missing = 1 ∧ v.poison = none ∧ v.flags = 0) ∧
        (o = .acq ∨ o = .ar → ∃ f, t.hart.fences = s.hart.fences ++ [f] ∧ f.needAcq = true ∧ f.needRel = false ∧
          f.scope = regionScope x.region ∧ f.after = some s.hart.nextId) ∧
        (o = .rlx ∨ o = .rel → t.hart.fences = s.hart.fences)) ∧
    (∀ r, checkAccess s (xr s a) (sizeBytes z) ⟨true, true, 7⟩ = .error r → exec i s = .next (checkTrap r s))

/-- R213, R216, R217: what an atomic computes. -/
def Obligations.AtomicOperationsCompute : Prop :=
  ∀ (old v cmp : Word),
    (∀ n, n = 4 ∨ n = 8 →
      let m := 2 ^ (8 * n)
      (∃ r, rmwNew .add n old v cmp = some r ∧ r.toNat = (old.toNat + v.toNat) % m) ∧
      (∃ r, rmwNew .and n old v cmp = some r ∧ r.toNat = (old &&& v).toNat % m) ∧
      (∃ r, rmwNew .or n old v cmp = some r ∧ r.toNat = (old ||| v).toNat % m) ∧
      (∃ r, rmwNew .xor n old v cmp = some r ∧ r.toNat = (old ^^^ v).toNat % m) ∧
      (∃ r, rmwNew .swap n old v cmp = some r ∧ r.toNat = v.toNat % m) ∧
      (∃ r, rmwNew .min n old v cmp = some r ∧ r.toNat < m ∧
        (r.setWidth (8 * n)).toInt = min (old.setWidth (8 * n)).toInt (v.setWidth (8 * n)).toInt) ∧
      (∃ r, rmwNew .max n old v cmp = some r ∧ r.toNat < m ∧
        (r.setWidth (8 * n)).toInt = max (old.setWidth (8 * n)).toInt (v.setWidth (8 * n)).toInt) ∧
      (∃ r, rmwNew .minn n old v cmp = some r ∧ r.toNat = min (old.toNat % m) (v.toNat % m)) ∧
      (∃ r, rmwNew .maxn n old v cmp = some r ∧ r.toNat = max (old.toNat % m) (v.toNat % m)) ∧
      (old.toNat % m = cmp.toNat % m → ∃ r, rmwNew .cas n old v cmp = some r ∧ r.toNat = v.toNat % m) ∧
      (old.toNat % m ≠ cmp.toNat % m → rmwNew .cas n old v cmp = none) ∧
      (∀ op, op = .minn ∨ op = .maxn → (rmwResult op n old).toNat = old.toNat % m) ∧
      (∀ op, op ≠ .minn → op ≠ .maxn → rmwResult op n old = (old.setWidth (8 * n)).signExtend 64)) ∧
    (∃ r, rmwNew .addf32 4 old v cmp = some r ∧
      r.toNat = (faddCode .f32 ⟨.rne, true, 0⟩ (old.toNat % 2 ^ 32) (v.toNat % 2 ^ 32)).1 % 2 ^ 64) ∧
    (∃ r, rmwNew .addbf16 4 old v cmp = some r ∧
      r.toNat = ((faddCode .bf16 ⟨.rne, true, 0⟩ (old.toNat % 2 ^ 16) (v.toNat % 2 ^ 16)).1 +
        2 ^ 16 * (faddCode .bf16 ⟨.rne, true, 0⟩ (old.toNat / 2 ^ 16 % 2 ^ 16) (v.toNat / 2 ^ 16 % 2 ^ 16)).1) % 2 ^ 64)

/-- R197 to R199. The model's choices in it: log 15. -/
def Obligations.AcquireLoadReleaseStore : Prop :=
  ∀ (d a b : Reg) (l : BitVec 4) (sc k : Scope) (z : Size) (s : State),
    (resolveScope s sc (xr s b) = .ok k → ∀ x u, checkAccess s (xr s a) (sizeBytes z) ⟨true, false, 0⟩ = .ok (x, u) → Quiet s → Quiet u →
      exec (.ldaq d a b l sc z) s = .next (wentOn s (settle (request u.hart.nextId 0 (sizeBytes z) (z == .w) x (aqPoint k)
        (acquireLast .acq k (openHeld (xDst d) l 0 1 0 u)))))) ∧
    (resolveScope s sc (xr s b) = .ok k → ∀ x u w, checkAccess s (xr s a) (sizeBytes z) ⟨false, true, 0⟩ = .ok (x, u) →
      sqRoom u 1 = true →
      reserveLog (storeNeed u (.strl (natBytes (sizeBytes z) (xr s d).toNat) k) x.loc) (markEffect u) = some w → Quiet s → Quiet u →
      exec (.strl d a b sc z) s =
        .next (wentOn s (enqueue (.strl (natBytes (sizeBytes z) (xr s d).toNat) k) x (some k) w))) ∧
    (sc = .grp → (8 ≤ (xr s b).toNat ∨ s.hart.nslots ≤ (xr s b).toNat) →
      exec (.ldaq d a b l sc z) s = .next (takeTrap 0x05 (xr s b) s.hart.pc 0 false s) ∧
      exec (.strl d a b sc z) s = .next (takeTrap 0x05 (xr s b) s.hart.pc 0 false s))

namespace Sys2Proof.Machine

/-- A FENCE: its kind, slot register and scope (R195). -/
def fenceInstr : Instr → Option (FenceKind × Reg × Scope)
  | .fenceAcq a sc => some (.acq, a, sc)
  | .fenceRel a sc => some (.rel, a, sc)
  | .fenceAr a sc => some (.ar, a, sc)
  | .fenceSc a sc => some (.sc, a, sc)
  | .fenceWin a sc => some (.win, a, sc)
  | .fenceEng a sc => some (.eng, a, sc)
  | _ => none

end Sys2Proof.Machine

/-- R195, R196. The model's choices in it: log 16. -/
def Obligations.FencesComplete : Prop :=
  ∀ (i : Instr) (k : FenceKind) (a : Reg) (sc r : Scope) (s : State), fenceInstr i = some (k, a, sc) →
    (resolveScope s sc (xr s a) = .ok r → Quiet s → ∃ t, exec i s = .next t ∧
      t = wentOn s (settle (onHart (fun h => { h with fences := h.fences ++
        [⟨k, r, h.nextSeq + 1, k != .acq, k == .win && r == .sys, k == .sc, k == .acq || k == .ar || k == .sc || k == .fut, none,
          windowOf s.dev.time⟩] }) s)) ∧
      t.hart.regs = s.hart.regs ∧ t.hart.ar = s.hart.ar ∧ t.dev = s.dev ∧ t.hart.sq = s.hart.sq ∧ t.clu.path = s.clu.path ∧ t.clu.gates = s.clu.gates) ∧
    (sc = .grp → (8 ≤ (xr s a).toNat ∨ s.hart.nslots ≤ (xr s a).toNat) →
      exec i s = .next (takeTrap 0x05 (xr s a) s.hart.pc 0 false s))

/-- R222 to R224. The model's choices in it: log 15, 43. -/
def Obligations.FutureInstructionsEnterQueue : Prop :=
  (∀ (d a : Reg) (l : BitVec 4) (s : State) (x : Access) (u : State), feCheck s (xr s a) = .ok (x, u) → sqRoom s 1 = true → Quiet s → Quiet u →
    (∀ w, reserveLog (storeNeed s (.fe .take 0 (some s.hart.nextId) none) x.loc) u = some w →
      exec (.fetake d a l) s = .next (wentOn s (enqueue (.fe .take 0 (some s.hart.nextId) none) x none
        (markEffect (acquireLast .acq .dev (openHeld (xDst d) l 0 1 0 w)))))) ∧
    ((s.hart.tk.run && s.hart.tk.effect) = false →
      exec (.feread d a l) s = .next (wentOn s (enqueue
        (.fe .read 0 (some s.hart.nextId) (if s.hart.tk.run then some (s.hart.tk.tid, s.hart.pc) else none)) x none
        (acquireLast .fut .dev (openHeld (xDst d) l 0 1 0 u))))) ∧
    exec (.fepeek d a l) s = .next (wentOn s (enqueue (.fe .peek 0 (some s.hart.nextId) none) x none
      (openHeld (xDst d) l 0 1 0 u)))) ∧
  (∀ (d a : Reg) (l : BitVec 4) (s : State), (s.hart.tk.run && s.hart.tk.effect) = true →
    exec (.feread d a l) s = .next (takeTrap 0x0B s.hart.tk.tid s.hart.pc 0 false s)) ∧
  (∀ (a b : Reg) (s : State) (x : Access) (u w : State), feCheck s (xr s a) = .ok (x, u) → sqRoom u 1 = true → Quiet s → Quiet u →
    reserveLog (storeNeed u (.fe .put (xr s b) none none) x.loc) (markEffect u) = some w →
    exec (.feput a b) s = .next (wentOn s (enqueue (.fe .put (xr s b) none none) x (some .dev) w))) ∧
  (∀ (a : Reg) (s : State) (x : Access) (u w : State), feCheck s (xr s a) = .ok (x, u) → sqRoom u 1 = true → Quiet s → Quiet u →
    reserveLog (storeNeed u (.fe .clr 0 none none) x.loc) (markEffect u) = some w →
    exec (.feclr a) s = .next (wentOn s (enqueue (.fe .clr 0 none none) x none w)))

namespace Sys2Proof.Machine

/-! ## The machine's own moves on memory -/

/-- The register files after a held write lands: x0 and a write without destination change none, a vector name that VSHRINK
has released meanwhile is not written, a vector register keeps the lanes that the write does not name, and a write that opened in a
handler's shadow bank lands there (R23, R38, R101, R127, R206). -/
def landedRegs (w : Held) (r : Regs) : Regs :=
  match w.dst with
  | .none => r
  | .x d => if d = 0 then r else if w.shadow then { r with xsh := r.xsh.set (d.toNat % 8) (w.val.setWidth 64) (by omega) }
    else { r with x := r.x.set d.toNat (w.val.setWidth 64) (by omega) }
  | .v d => if w.shadow then { r with
        vsh := r.vsh.set (d.toNat % 8) ((r.vsh[d.toNat % 8] &&& ~~~w.lanes) ||| (w.val &&& w.lanes)) (by omega) }
    else if d.toNat < r.allot then { r with
        v := r.v.set d.toNat ((r.v[d.toNat] &&& ~~~w.lanes) ||| (w.val &&& w.lanes)) (by omega) } else r

/-- Byte `i` of a list written at a location, seen from another location: the byte, or what stood there. -/
def writtenAt (l : Loc) (bs : List Byte) (old : Byte) (p : Loc) : Byte :=
  if p.space = l.space ∧ l.off ≤ p.off ∧ p.off < l.off + bs.length then bs.getD (p.off - l.off) 0 else old

end Sys2Proof.Machine

/-- R38, R66: HELD_WRITE_LAND. The model's choices in it: log 12, 13. -/
def Obligations.HeldWriteLands : Prop :=
  (∀ (k : Nat) (w : Held) (s : State), s.hart.held[k]? = some w → canLand s.hart k = true → w.poison = none → w.bind = none →
    s.hart.fences = [] → ∃ t, exec (.heldWriteLand k) s = .next t ∧ t.hart.held = s.hart.held.eraseIdx k ∧
      t.hart.regs = landedRegs w s.hart.regs ∧ t.hart.ar = { s.hart.ar with fflags := s.hart.ar.fflags ||| w.flags } ∧
      t.clu = s.clu ∧ t.dev = s.dev ∧ t.hart.pc = s.hart.pc ∧ t.hart.sq = s.hart.sq) ∧
  (∀ (k : Nat) (s : State), canLand s.hart k = false → exec (.heldWriteLand k) s = .next s)

/-- R186: STORE_PERFORM. The model's choices in it: log 17, 21, 98. -/
def Obligations.StorePerformWritesItsBytes : Prop :=
  (∀ (q : StoreReq) (r : List StoreReq) (bs : List Byte) (h : Hint) (s : State), s.hart.sq = q :: r → storeNow s q = q →
    canLeave s q = true → q.op = .store bs h → s.hart.fences = [] → logCovers s q.org.ctx q.org.cov = false → MemoriesOk s →
    ((q.region = .ls ∨ q.region = .scr) → (∃ c, (q.loc.space = .ls c ∧ q.loc.off + bs.length ≤ 0x20000) ∨
        (q.loc.space = .scr c ∧ q.loc.off + bs.length ≤ 0x400000)) →
      ∃ t, exec .storePerform s = .next t ∧ t.hart.sq = r ∧ t.hart.regs = s.hart.regs ∧ t.hart.ar = s.hart.ar ∧ t.clu = s.clu ∧
        ∀ p : Loc, (∀ c, p.space = .ls c → p.off < 0x20000) → (∀ c, p.space = .scr c → p.off < 0x400000) →
          (rawBytes t.dev p 1).getD 0 0 = writtenAt q.loc bs ((rawBytes s.dev p 1).getD 0 0) p) ∧
    (q.region = .wb → h = .normal → q.loc.off % 128 + bs.length ≤ 128 → cmRoom s q.loc true = true →
      ∃ t, exec .storePerform s = .next t ∧ t.hart.sq = r ∧ t.hart.regs = s.hart.regs ∧ t.hart.ar = s.hart.ar ∧
        ∀ p : Loc, byteAt t p = writtenAt q.loc bs (byteAt s p) p)) ∧
  (∀ (q : StoreReq) (r : List StoreReq) (s : State), s.hart.sq = q :: r → canLeave s (storeNow s q) = false →
    exec .storePerform s = .next s)

namespace Sys2Proof.Machine

/-- The bytes that a load takes: the latest earlier store of the thread's queue to each byte, else what its visibility point holds
of it, else what a gate on its way holds, else its home's (R150, R185, R187). -/
def loadedBytes (s : State) (r : LoadReq) : List Byte :=
  (List.range r.size).map fun i =>
    match forwardByte s.hart.sq r.seq { r.loc with off := r.loc.off + i }, cvpByte s r i, gateByte s r i with
    | some b, _, _ => b
    | none, some b, _ => b
    | none, none, some b => b
    | none, none, none => (rawBytes s.dev { r.loc with off := r.loc.off + i } 1).getD 0 0

end Sys2Proof.Machine

/-- R150, R185: LOAD_PERFORM. The model's choices in it: log 17. -/
def Obligations.LoadPerformBringsItsBytes : Prop :=
  (∀ (k : Nat) (r : LoadReq) (s : State), s.hart.loads[k]? = some r → loadNow s r = r → canPerform s r = true → loadPoison s r = none →
    s.hart.fences = [] → (∀ c ∈ s.dev.ctxs, c.watches = .replicate 16 none) →
    (r.region = .ls ∨ r.point = .home ∨ r.point = .homeDev ∨ r.point = .noAlloc) →
    ∃ t, exec (.loadPerform k) s = .next t ∧ t.hart.loads = s.hart.loads.eraseIdx k ∧ t.dev = s.dev ∧
      t.clu = (if r.region = .wb ∧ r.point = .noAlloc ∧ (cmFind s.clu r.loc).isSome then
        (expTouch r.loc (onClu (cmTouch r.loc) s)).clu else s.clu) ∧
      t.hart.regs = s.hart.regs ∧ t.hart.held = s.hart.held.map fun w => if w.id = r.id then { w with
        missing := w.missing - 1
        val := (w.val &&& ~~~(loadPiece r (loadedBytes s r)).2) ||| (loadPiece r (loadedBytes s r)).1 } else w) ∧
  (∀ (k : Nat) (r : LoadReq) (s : State), s.hart.loads[k]? = some r → canPerform s (loadNow s r) = false → s.hart.fences = [] →
    exec (.loadPerform k) s = .next s)

namespace Sys2Proof.Machine

/-- `t` holds one more request on its way home than `s`: at the end of the path to its own die's homes, or of the window gate to
another die (R183, R187). -/
def SentHome (s t : State) (q : StoreReq) : Prop :=
  match gateOf s q.loc with
  | none => t.clu.path = s.clu.path ++ [q] ∧ t.clu.gates = s.clu.gates
  | some g => t.clu.path = s.clu.path ∧ t.clu.gates = s.clu.gates.set g (s.clu.gates[g] ++ [q])

end Sys2Proof.Machine

/-- R134, R188, R189: the moves of lines and homes. The model's choices in it: log 17, 98. -/
def Obligations.LineAndHomeMovesComplete : Prop :=
  (∀ (k i : Nat) (q : StoreReq) (s : State), homeNext s (toStack s k) s.clu.path [] 0 = some (i, q) →
    exec (.homePerform k) s = .next (settle (performAtHome q (onClu (fun c => { c with
      path := c.path.eraseIdx i, turn := (k + 1) % 12 }) s)))) ∧
  (∀ (k i : Nat) (g : Fin 12) (q : StoreReq) (s : State), homeNext s (toStack s k) s.clu.path [] 0 = none →
    (∀ f : Fin 12, f < g → gateTake s k f = none) → homeNext s (fun _ => true) s.clu.gates[g] [] 0 = some (i, q) → toStack s k q = true →
    exec (.homePerform k) s = .next (settle (performAtHome q (onClu (fun c => { c with
      gates := c.gates.set g (c.gates[g].eraseIdx i), turn := (k + 1) % 12 }) s)))) ∧
  (∀ (q : StoreReq) (bs : List Byte) (h : Hint) (s : State), q.op = .store bs h → q.loc.space = .dev →
    logCovers s q.org.ctx q.org.cov = false → s.clu.cm = [] → homeOwner s.dev q.loc = none → MemoriesOk s →
    ∀ a, (rawBytes (performAtHome q s).dev ⟨.dev, a⟩ 1).getD 0 0 =
      writtenAt q.loc bs ((rawBytes s.dev ⟨.dev, a⟩ 1).getD 0 0) ⟨.dev, a⟩) ∧
  (∀ (k : Nat) (x : CmLine) (s : State), s.clu.cm[k]? = some x → x.uo = none → x.dirty ≠ 0 → s.hart.fences = [] →
    (∀ y ∈ s.clu.cm, y.space = x.space → y.line = x.line → y = x) →
    ∃ t q, exec (.cvpWriteback k) s = .next t ∧ SentHome s t q ∧ q.op = .writeback x.dirty x.data (lostBytes s.dev x) ∧
      q.loc = ⟨x.space, x.line * 128⟩ ∧ { x with dirty := 0 } ∈ t.clu.cm ∧ t.dev = s.dev ∧ t.hart = s.hart ∧
      ∀ l, byteAt t l = byteAt s l) ∧
  (∀ (k : Nat) (x : CmLine) (s : State), s.clu.cm[k]? = some x → x.uo = none → x.dirty ≠ 0 → s.hart.fences = [] →
    leavers s x = [x] →
    ∃ t q, exec (.lineEvict k) s = .next t ∧ SentHome s t q ∧ q.op = .writeback x.dirty x.data (lostBytes s.dev x) ∧
      q.loc = ⟨x.space, x.line * 128⟩ ∧ (∀ y ∈ t.clu.cm, ¬ (y.space = x.space ∧ y.line = x.line)) ∧ t.dev = s.dev ∧ t.hart = s.hart) ∧
  (∀ (k : Nat) (s : State), exec (.l1Drop k) s = .next { s with hart := { s.hart with l1 := s.hart.l1.eraseIdx k } }) ∧
  (∀ (k : Nat) (x : CmLine) (s : State), s.clu.cm[k]? = some x → isClean s x = true →
    ∃ t, exec (.cmCleanDrop k) s = .next t ∧ (∀ y, y ∈ t.clu.cm ↔ y ∈ s.clu.cm ∧ withBlock s.dev x y = false) ∧
      t.dev = s.dev ∧ t.hart = s.hart ∧ t.clu.path = s.clu.path ∧ t.clu.gates = s.clu.gates)

/-- R218, R219. The model's choices in it: log 18. -/
def Obligations.UpdateOnlyLinesLeave : Prop :=
  ∀ (k : Nat) (x : CmLine) (p : Partials) (s : State), s.clu.cm[k]? = some x → x.uo = some p → s.hart.fences = [] →
    (∃ t, exec (.uoFlush k) s = .next t ∧ (∀ y ∈ t.clu.cm, ¬ (y.space = x.space ∧ y.line = x.line)) ∧ t.dev = s.dev ∧ t.hart = s.hart ∧
      (uoSent p = [] → t.clu.path = s.clu.path ∧ t.clu.gates = s.clu.gates) ∧
      (uoSent p ≠ [] → ∃ q, SentHome s t q ∧ q.op = .flush (uoSent p) p.op p.size ∧
        q.loc = ⟨x.space, x.line * 128⟩)) ∧
    exec (.uoRecall k) s = .next (settle (combineAt s.hart.ar.ctx ⟨x.space, x.line * 128⟩ p.op p.size (uoSent p)
      (onClu (cmDrop ⟨x.space, x.line * 128⟩) s)))

namespace Sys2Proof.Machine

/-! ## Inbox and user-level interrupts -/

/-- The first 8 bytes of a message as a little-endian value: tag, status, kind and count (R201). -/
def headerOf (m : Msg) : Word := m.tag.setWidth 64 ||| (m.status.setWidth 64 <<< 8) ||| (m.kind.setWidth 64 <<< 16) ||| (m.count.setWidth 64 <<< 32)

end Sys2Proof.Machine

/-- R201 to R205. The model's choices in it: log 21, 106. -/
def Obligations.InboxInstructionsComplete : Prop :=
  (∀ (d : Reg) (m : Msg) (r : List Msg) (s : State), s.hart.inbox = m :: r → m.wrote = [] → Quiet s →
    ∃ t, exec (.inrecv d 0) s = .next t ∧ WritesX s t d (headerOf m) ∧ t.hart.inbox = r ∧ t.hart.recv = s.hart.recv + 1 ∧
      t.hart.ar = s.hart.ar ∧ t.dev = s.dev ∧ t.clu = s.clu ∧ FlowsOn s t ∧
      t.hart.tags = if tagKind m.kind then s.hart.tags.erase m.tag else s.hart.tags) ∧
  (∀ (d a : Reg) (m : Msg) (r : List Msg) (s w : State), s.hart.inbox = m :: r → a ≠ 0 → (xr s a).toNat % 16 = 0 →
    (xr s a).toNat + 15 < 0x20000 →
    reserveLog (storeNeed s (.store (List.replicate 16 0) .normal) (lsLoc s 0)) s = some w → Quiet s →
    exec (.inrecv d a) s = .next (wentOn s (markEffect (setX d (headerOf m) (takeMsg m a w))))) ∧
  (∀ (d a : Reg) (s : State), s.hart.inbox = [] → inrecvCheck s a = .ok () → exec (.inrecv d a) s = .next s) ∧
  (∀ (d a : Reg) (s : State), a ≠ 0 → (xr s a).toNat % 16 ≠ 0 →
    exec (.inrecv d a) s = .next (takeTrap 0x03 (xr s a) s.hart.pc 0 false s)) ∧
  (∀ (d a : Reg) (s : State), a ≠ 0 → (xr s a).toNat % 16 = 0 → 0x20000 ≤ (xr s a).toNat + 15 →
    exec (.inrecv d a) s = .next (takeTrap 0x05 (xr s a) s.hart.pc 0 false s)) ∧
  (∀ (d : Reg) (s : State), Quiet s → ∃ t, exec (.inpeek d) s = .next t ∧ ScalarFrame s t ∧ FlowsOn s t ∧
    WritesX s t d (match s.hart.inbox with | [] => BitVec.allOnes 64 | m :: _ => headerOf m)) ∧
  (∀ (d : Reg) (s : State), Quiet s → ∃ t, exec (.incount d) s = .next t ∧ ScalarFrame s t ∧ FlowsOn s t ∧
    WritesX s t d (BitVec.ofNat 64 s.hart.inbox.length)) ∧
  (∀ (m : Msg) (r : List Msg) (s : State), s.clu.hold = m :: r → s.hart.inbox.length < 64 → s.hart.dbg.stop = none →
    ∃ t, exec .messageEnterInbox s = .next t ∧ t.clu.hold = r ∧ t.hart.inbox = s.hart.inbox ++ [{ m with time := t.dev.time }] ∧
      t.hart.regs = s.hart.regs ∧ t.hart.pc = s.hart.pc)

/-- R206 to R208. The model's choices in it: log 12, 26. -/
def Obligations.UserInterruptsTakenAndReturned : Prop :=
  (∀ (a : Reg) (s : State), 1 ≤ (xr s a).toNat → (xr s a).toNat ≤ 64 → Quiet s → exec (.uiarm a) s =
    .next (wentOn s { s with hart := { s.hart with ui := { s.hart.ui with thr := (xr s a).setWidth 7, armed := true } } })) ∧
  (∀ (a : Reg) (s : State), ((xr s a).toNat < 1 ∨ 64 < (xr s a).toNat) →
    exec (.uiarm a) s = .next (takeTrap 0x05 (xr s a) s.hart.pc 0 false s)) ∧
  (∀ s, Quiet s → exec .uidis s = .next (wentOn s { s with hart := { s.hart with ui := { s.hart.ui with armed := false } } })) ∧
  (∀ s, s.hart.thread = .running → s.hart.dbg.stop = none → s.hart.ui.armed = true → s.hart.ui.inh = false →
    insideInstr s.hart = false → s.hart.ui.thr.toNat ≤ s.hart.inbox.length →
    ∃ t, exec .uiTake s = .next t ∧ t.hart.pc = s.hart.ui.uivec ∧ t.hart.ui.uiepc = s.hart.pc ∧ t.hart.ui.inh = true ∧
      t.hart.ui.armed = false ∧ t.hart.ui.uicause = 1 ∧ t.hart.regs = s.hart.regs ∧ t.hart.ar = s.hart.ar ∧ t.hart.tr = s.hart.tr ∧
      t.hart.frame = none ∧ t.hart.saved = ⟨true, s.hart.pc, s.hart.frame, s.hart.fences, s.hart.mid⟩ :: s.hart.saved ∧
      t.hart.mode = s.hart.mode ∧ t.clu = s.clu ∧ t.dev = s.dev) ∧
  (∀ (p : SavedTrap) (r : List SavedTrap) (s : State), s.hart.ui.inh = true → s.hart.saved = p :: r → p.ui = true →
    s.hart.held = [] → s.hart.ui.uiepc = p.epc → Quiet s →
    ∃ t u, exec .uiret s = .next t ∧ t = settle u ∧ u.hart.fences = p.fences.map remakeFence ++ s.hart.fences ∧ u.clu = s.clu ∧
      t.hart.pc = p.epc ∧ t.hart.frame = p.frame ∧ t.hart.mid = p.mid ∧ t.hart.saved = r ∧
      t.hart.ui.inh = false ∧ t.hart.ui.armed = true ∧ t.hart.ui.uicause = 0 ∧
      t.hart.regs = s.hart.regs ∧ t.hart.ar = s.hart.ar ∧ t.hart.tc.icount = s.hart.tc.icount + 1 ∧ t.dev = s.dev) ∧
  (∀ s, s.hart.ui.inh = false → exec .uiret s = .next (takeTrap 0x01 ((encode .uiret).setWidth 64) s.hart.pc 0 false s))

namespace Sys2Proof.Machine

/-! ## Barriers and supersteps -/

/-- Slot `i` of the core (R225). -/
def slotAt (s : State) (i : Nat) : Slot := s.hart.slots.getD i Slot.reset

/-- A slot that the launch gave the thread (R231, R241). -/
def SlotGiven (s : State) (v : Word) : Prop := v.toNat < 8 ∧ v.toNat < s.hart.nslots

end Sys2Proof.Machine

/-- R225 to R232: the slot instructions. The model's choices in it: log 21, 84. -/
def Obligations.BarrierSlotInstructions : Prop :=
  (∀ (a : Reg) (s : State), SlotGiven s (xr s a) → (slotAt s (xr s a).toNat).st ≠ .arrived → Quiet s →
    ∃ t v, exec (.barv a) s = .next t ∧ (slotAt t (xr s a).toNat).st = .arrived ∧ t.clu.arrivals = s.clu.arrivals ++ [v] ∧
      v.core = s.hart.ar.core ∧ v.slot = (xr s a).toNat ∧ v.mask = (slotAt s (xr s a).toNat).bmem ∧
      v.phase = (slotAt s (xr s a).toNat).phase ∧ v.sent = false ∧ v.scope = maskScope s (slotAt s (xr s a).toNat).bmem ∧
      t.hart.regs = s.hart.regs ∧ t.hart.ar = s.hart.ar ∧ t.dev = s.dev ∧ FlowsOn s t) ∧
  (∀ (d a : Reg) (s : State), SlotGiven s (xr s a) → (slotAt s (xr s a).toNat).st = .released →
    loadsDone s (s.hart.nextSeq + 1) = true → Quiet s →
    ∃ t, exec (.bwait d a) s = .next t ∧ WritesX s t d ((slotAt s (xr s a).toNat).status.setWidth 64) ∧
      slotAt t (xr s a).toNat = { slotAt s (xr s a).toNat with st := .idle } ∧ t.dev = s.dev ∧ t.hart.ar = s.hart.ar ∧ FlowsOn s t) ∧
  (∀ (d a : Reg) (s : State), SlotGiven s (xr s a) → (slotAt s (xr s a).toNat).st = .idle → Quiet s →
    ∃ t, exec (.bwait d a) s = .next t ∧ WritesX s t d 2 ∧ t.dev = s.dev ∧ t.clu = s.clu ∧ t.hart.ar = s.hart.ar ∧ FlowsOn s t) ∧
  (∀ (d a : Reg) (s : State), SlotGiven s (xr s a) → (slotAt s (xr s a).toNat).st ≠ .arrived → s.hart.mid ≠ .bsync →
    s.hart.dbg.stood ≠ some s.hart.pc →
    ∃ t v, exec (.bsync d a) s = .next t ∧ (slotAt t (xr s a).toNat).st = .arrived ∧ t.hart.mid = .bsync ∧ t.hart.pc = s.hart.pc ∧
      t.clu.arrivals = s.clu.arrivals ++ [v] ∧ v.slot = (xr s a).toNat ∧ v.core = s.hart.ar.core ∧ t.hart.regs = s.hart.regs) ∧
  (∀ (d a : Reg) (s : State), SlotGiven s (xr s a) → (slotAt s (xr s a).toNat).st = .released → s.hart.mid = .bsync →
    loadsDone s (s.hart.nextSeq + 1) = true → Quiet s →
    ∃ t, exec (.bsync d a) s = .next t ∧ WritesX s t d ((slotAt s (xr s a).toNat).status.setWidth 64) ∧ t.hart.mid = .none ∧
      (slotAt t (xr s a).toNat).st = .idle ∧ FlowsOn s t) ∧
  (∀ (d a : Reg) (s : State), s.hart.dbg.stood = some s.hart.pc →
    exec (.bsync d a) s = exec (.bsync d a) { s with hart := { s.hart with mid := .bsync, dbg := { s.hart.dbg with stood := none } } }) ∧
  (∀ (d a : Reg) (s : State), SlotGiven s (xr s a) → Quiet s → ∃ t, exec (.btest d a) s = .next t ∧ ScalarFrame s t ∧ FlowsOn s t ∧
    WritesX s t d (((slotAt s (xr s a).toNat).phase.setWidth 64 <<< 32) ||| ((slotAt s (xr s a).toNat).status.setWidth 64 <<< 2) |||
      match (slotAt s (xr s a).toNat).st with | .idle => 0 | .arrived => 1 | .released => 2)) ∧
  (∀ (a b : Reg) (s : State), SlotGiven s (xr s a) → (slotAt s (xr s a).toNat).st = .idle → maskLegal s (xr s b) = true → Quiet s →
    ∃ t, exec (.bsetm a b) s = .next t ∧ (slotAt t (xr s a).toNat).bmem = xr s b ∧ (slotAt t (xr s a).toNat).quorum = 0 ∧
      t.hart.regs = s.hart.regs ∧ t.hart.ar = s.hart.ar ∧ t.dev = s.dev ∧ t.clu = s.clu ∧ FlowsOn s t) ∧
  (∀ (a b : Reg) (s : State), SlotGiven s (xr s a) → (slotAt s (xr s a).toNat).st = .idle →
    (xr s b).toNat ≤ (maskMembers s (slotAt s (xr s a).toNat).bmem).length → Quiet s →
    ∃ t, exec (.bquorum a b) s = .next t ∧ (slotAt t (xr s a).toNat).quorum = (xr s b).setWidth 16 ∧
      (slotAt t (xr s a).toNat).bmem = (slotAt s (xr s a).toNat).bmem ∧
      t.hart.regs = s.hart.regs ∧ t.hart.ar = s.hart.ar ∧ t.dev = s.dev ∧ t.clu = s.clu ∧ FlowsOn s t) ∧
  (∀ (a b : Reg) (s w : State), (xr s b = 8 ∨ SlotGiven s (xr s b)) → (xr s a).toNat % 32 = 0 → (xr s a).toNat + 31 < 0x20000 →
    reserveLog (storeNeed s (.store (List.replicate 32 0) .normal) (lsLoc s 0)) s = some w → Quiet s →
    exec (.brecord a b) s = .next (wentOn s (markEffect (performWrite (originOf s) 1 (xr s a) (lsLoc s (xr s a).toNat)
      (recordBytes (if xr s b = 8 then s.hart.ss.record else (slotAt s (xr s b).toNat).record)) w)))) ∧
  (∀ (d a : Reg) (s : State), ¬ SlotGiven s (xr s a) → ∀ i ∈ [Instr.barv a, .bwait d a, .btest d a, .bsetm a d, .bquorum a d],
    exec i s = .next (takeTrap 0x05 (xr s a) s.hart.pc 0 false s)) ∧
  (∀ (d a : Reg) (s : State), ¬ SlotGiven s (xr s a) → s.hart.dbg.stood ≠ some s.hart.pc →
    exec (.bsync d a) s = .next (takeTrap 0x05 (xr s a) s.hart.pc 0 false s)) ∧
  (∀ (a b : Reg) (s : State), xr s b ≠ 8 → ¬ SlotGiven s (xr s b) →
    exec (.brecord a b) s = .next (takeTrap 0x05 (xr s b) s.hart.pc 0 false s))

/-- R226 to R230. The model's choices in it: log 11, 27. -/
def Obligations.BarrierNetworkMoves : Prop :=
  (∀ (i slot q : Nat) (m : Word) (a : Arrival) (s : State),
    findIdxFrom (fun (x : Arrival) => x.core == s.hart.ar.core && x.slot == slot && !x.sent) s.clu.arrivals 0 = some i →
    s.clu.arrivals[i]? = some a → released s a.scope a.seq = true →
    ∃ t, exec (.barrierArrival ⟨s.hart.ar.core, q, false⟩ slot m) s = .next t ∧ t.hart = s.hart ∧
      t.clu.arrivals = s.clu.arrivals.eraseIdx i ++ [{ a with sent := true, time := t.dev.time, cyc := t.dev.cycle }]) ∧
  (∀ (c slot q : Nat) (m : Word) (s : State), c ≠ s.hart.ar.core → slot ≤ 7 → c ∈ s.clu.members →
    (∀ a ∈ s.clu.arrivals, ¬ (a.core = c ∧ a.slot = slot ∧ a.sent = true ∧ a.mask = m ∧ a.phase = (slotAt s slot).gphase)) →
    ((c, slot, m) ∉ s.clu.behind →
      ∃ t v, exec (.barrierArrival ⟨c, q, false⟩ slot m) s = .next t ∧ t.hart = s.hart ∧ t.clu.arrivals = s.clu.arrivals ++ [v] ∧
        v.core = c ∧ v.slot = slot ∧ v.mask = m ∧ v.phase = (slotAt s slot).gphase ∧ v.sent = true ∧ v.time = t.dev.time ∧
        t.clu.quorums.head? = some (c, slot, m, BitVec.ofNat 16 q)) ∧
    ((c, slot, m) ∈ s.clu.behind → exec (.barrierArrival ⟨c, q, false⟩ slot m) s = .next { s with clu := { s.clu with
      behind := s.clu.behind.erase (c, slot, m) } })) ∧
  (∀ (c slot q : Nat) (m : Word) (s : State), c ≠ s.hart.ar.core → slot ≤ 7 → c ∈ s.clu.members →
    ∃ t, exec (.barrierArrival ⟨c, q, true⟩ slot m) s = .next t ∧ t = { s with clu := { s.clu with quorums := t.clu.quorums } } ∧
      t.clu.quorums.head? = some (c, slot, m, BitVec.ofNat 16 q)) ∧
  (∀ (c q : Nat) (m : Word) (s : State), c ≠ s.hart.ar.core → q ≤ 5 → c ∈ s.clu.members →
    (∃ t, exec (.barrierArrival ⟨c, q, true⟩ 8 m) s = .next t ∧ t = { s with clu := { s.clu with levels := t.clu.levels } } ∧
      t.clu.levels.head? = some (c, BitVec.ofNat 3 q, BitVec.ofNat 3 q)) ∧
    ((∀ a ∈ s.clu.arrivals, ¬ (a.core = c ∧ a.slot = 8 ∧ a.sent = true)) → (c, 8, 0) ∉ s.clu.behind →
      ∃ t v, exec (.barrierArrival ⟨c, q, false⟩ 8 m) s = .next t ∧ t.hart = s.hart ∧ t.clu.arrivals = s.clu.arrivals ++ [v] ∧
        v.core = c ∧ v.slot = 8 ∧ v.sent = true ∧ t.clu.levels.head? = some (c, levelAt s c, BitVec.ofNat 3 q))) ∧
  (∀ (i : Nat) (s : State), i ≤ 7 → slotReleases s i = true → (∃ a ∈ counted s i (slotAt s i), a.core = s.hart.ar.core) →
    ∃ t, exec (.barrierRelease i) s = .next t ∧ (slotAt t i).st = .released ∧ (slotAt t i).phase = (slotAt s i).phase + 1 ∧
      (slotAt t i).status = (if allArrived (counted s i (slotAt s i)) (maskMembers s (slotAt s i).bmem)
        then 0 else 1) ∧ (slotAt t i).record.phase = (slotAt s i).gphase ∧ (slotAt t i).gphase = (slotAt s i).gphase + 1 ∧
      t.hart.regs = s.hart.regs ∧ t.hart.pc = s.hart.pc) ∧
  (∀ (i : Nat) (a : Arrival) (s : State), i ≤ 7 → (slotAt s i).st = .arrived →
    s.clu.arrivals.find? (fun x => x.core == s.hart.ar.core && x.slot == i && x.phase != (slotAt s i).gphase) = some a → a.sent = true →
    ∃ t, exec (.lateArrival i) s = .next t ∧ (slotAt t i).st = .released ∧ (slotAt t i).status = 3 ∧
      (slotAt t i).phase = (slotAt s i).phase + 1 ∧ t.hart.regs = s.hart.regs ∧ t.dev = s.dev ∧
      t.hart.blast = blastOf (((slotAt s i).past.find? fun r => r.phase == a.phase).getD (slotAt s i).record))

/-- R242 to R246. The model's choices in it: log 11, 27. -/
def Obligations.SuperstepInstructions : Prop :=
  (∀ s, s.hart.ss.ph = false → s.hart.mid ≠ .sstep → superArrived s = false →
    ∃ t v, exec .sexch s = .next t ∧ t.hart.mid = .sstep ∧ t.hart.pc = s.hart.pc ∧ t.clu.arrivals = s.clu.arrivals ++ [v] ∧ v.slot = 8 ∧
      v.phase = s.hart.ss.phase ∧ v.scope = levelScope s.hart.ss.level) ∧
  (∀ s, s.hart.ss.ph = false → s.hart.mid = .sstep → s.hart.ss.released = true → s.hart.tc.scribe = [] →
    loadsDone s (s.hart.nextSeq + 1) = true → Quiet s →
    ∃ t, exec .sexch s = .next t ∧ t.hart.ss = { s.hart.ss with ph := true, released := false } ∧ t.hart.mid = .none ∧
      t.hart.regs = s.hart.regs ∧ t.hart.ar = s.hart.ar ∧ FlowsOn s t) ∧
  (∀ s, s.hart.ss.ph = true → s.hart.mid ≠ .sstep → exchangePending s = false → superArrived s = false →
    ∃ t v, exec .ssync s = .next t ∧ t.hart.mid = .sstep ∧ t.hart.pc = s.hart.pc ∧ t.clu.arrivals = s.clu.arrivals ++ [v] ∧ v.slot = 8) ∧
  (∀ s, s.hart.ss.ph = true → s.hart.mid = .sstep → s.hart.ss.released = true → loadsDone s (s.hart.nextSeq + 1) = true → Quiet s →
    ∃ t, exec .ssync s = .next t ∧ t.hart.ss = { s.hart.ss with
      ph := false, count := s.hart.ss.count + 1, level := s.hart.ss.next, released := false } ∧ t.hart.mid = .none ∧
      t.hart.regs = s.hart.regs ∧ t.hart.ar = s.hart.ar ∧ FlowsOn s t) ∧
  (∀ s, s.hart.ss.ph = true → exec .sexch s = .next (takeTrap 0x07 (s.hart.ss.count.setWidth 64) s.hart.pc 0 false s)) ∧
  (∀ s, s.hart.ss.ph = false → exec .ssync s = .next (takeTrap 0x07 (s.hart.ss.count.setWidth 64) s.hart.pc 0 false s)) ∧
  (∀ (a : Reg) (s : State), s.hart.ss.ph = true → (xr s a).toNat ≤ 5 → Quiet s →
    exec (.sdom a) s = .next (wentOn s (markEffect { s with hart := { s.hart with ss := { s.hart.ss with next := (xr s a).setWidth 3 } } }))) ∧
  (∀ (a : Reg) (s : State), s.hart.ss.ph = true → 5 < (xr s a).toNat →
    exec (.sdom a) s = .next (takeTrap 0x05 (xr s a) s.hart.pc 0 false s)) ∧
  (∀ (a : Reg) (s : State), s.hart.ss.ph = false →
    exec (.sdom a) s = .next (takeTrap 0x07 (s.hart.ss.count.setWidth 64) s.hart.pc 0 false s)) ∧
  (∀ s, superReleases s = true → ∃ t, exec .superstepRelease s = .next t ∧ t.hart.ss.released = true ∧
    t.clu.arrivals = s.clu.arrivals.filter (fun a => !(superCounted s).contains a) ∧
    t.clu.levels = s.clu.levels.map (fun p => if (superCounted s).any (fun a => a.core == p.1) then (p.1, p.2.2, p.2.2) else p) ∧
    t.hart.ss.phase = s.hart.ss.phase + 1 ∧ t.hart.ss.record.slot = 8 ∧ t.hart.regs = s.hart.regs ∧ t.hart.pc = s.hart.pc)

/-! ## Tasks -/

/-- R247 to R260: the task instructions. The model's choices in it: log 38, 40, 41. -/
def Obligations.TaskInstructionsComplete : Prop :=
  (∀ (d a : Reg) (r : List Byte) (s : State), tkspawnCheck s (xr s a) = .ok r → released s .clu (s.hart.nextSeq + 1) = true → Quiet s →
    (64 ≤ spawned s → exec (.tkspawn d a) s = .next (wentOn s (markEffect (setX d 0 s)))) ∧
    (spawned s < 64 → exec (.tkspawn d a) s =
      .next (wentOn s (markEffect (setX d (taskOfRecord s r).tid (spawn (taskOfRecord s r) s)))))) ∧
  (∀ (d : Reg) (s : State), (∀ x k, s.hart.mid ≠ .tknext x k) → mustArrive s = none → mustDie s = false →
    taskStalls s.hart = false →
    ∃ t, exec (.tknext d) s = .next t ∧ t = onHart (fun h => { h with mid := .tknext (some d) false }) (retireTask 1 0 s) ∧
      t.hart.pc = s.hart.pc ∧ t.hart.regs = s.hart.regs ∧ t.hart.tk.run = false) ∧
  (∀ (d r : Reg) (k : Bool) (s : State), awaitsTask s = some (some r, k) → noWork s = true → Quiet s →
    exec (.tknext d) s = .next (wentOn s (onHart (fun h => { h with mid := .none }) (setX r 0 s))) ∧
    exec .tkyield s = .next (wentOn s (onHart (fun h => { h with mid := .none }) (setX r 0 s)))) ∧
  (∀ s, mustArrive s = none → mustDie s = false → taskStalls s.hart = false → Quiet s →
    ∃ t, exec .tkend s = .next t ∧ t = wentOn s (retireTask 1 0 s) ∧ t.hart.tk.run = false ∧ t.hart.regs = s.hart.regs) ∧
  (∀ s, (∀ x k, s.hart.mid ≠ .tknext x k) → (s.hart.tk.run && s.hart.tk.effect) = false → mustDie s = false →
    taskStalls s.hart = false →
    exec .tkyield s = .next (onHart (fun h => { h with mid := .tknext (some 0) false }) (yieldTask s))) ∧
  (∀ (d a : Reg) (s : State), heldTask s (xr s a) = true → Quiet s → exec (.tkdep d a 0) s = .next (wentOn s (markEffect
    (setX d 2 (lowerDep (xr s a) (onTask (xr s a) (fun t => { t with hold := false }) s)))))) ∧
  (∀ (d a b : Reg) (x : Access) (s u : State), heldTask s (xr s a) = true → b ≠ 0 → feCheck s (xr s b) = .ok (x, u) →
    homeBehind s x.loc 16 = false → cmFind s.clu x.loc = none → Quiet s → Quiet u →
    (futFull u.dev x.loc = true → exec (.tkdep d a b) s = .next (wentOn s (markEffect (setX d 1 u)))) ∧
    (futFull u.dev x.loc = false → exec (.tkdep d a b) s = .next (wentOn s (markEffect (setX d 0 (onDev
      (fun e => { e with futs := e.futs ++ [.reg x.loc (xr s a)] })
      (onTask (xr s a) (fun t => { t with dep := t.dep + 1 }) u))))))) ∧
  (∀ (d a b : Reg) (s : State), heldTask s (xr s a) = false →
    exec (.tkdep d a b) s = .next (takeTrap 0x05 (xr s a) s.hart.pc 0 false s)) ∧
  (∀ (d a : Reg) (s : State), Quiet s → ∃ t, exec (.tkstat d a) s = .next t ∧ ScalarFrame s t ∧ FlowsOn s t ∧ WritesX s t d
    (match taskById s (xr s a) with | some k => if k.launch = myLaunch s then BitVec.ofNat 64 (taskCode k) else 0 | none => 0))

/-- R249 to R252. The model's choices in it: log 36, 92. -/
def Obligations.TaskQueueMoves : Prop :=
  (∀ (d : Option Reg) (k : Bool) (x : Task) (s u : State), awaitsTask s = some (d, k) → nextTask s s.hart.ar.core = some x →
    fetchFootprint s.hart.ar.core (giveTask x s.hart.ar.core s).1 (giveTask x s.hart.ar.core s).2 = .ok u → Quiet s →
    (∀ c, curCtx u = some c → c.mode ≠ 2) → u.hart = s.hart →
    ∃ t, exec (.taskDispatch s.hart.ar.core) s = .next t ∧ t.hart.pc = (giveTask x s.hart.ar.core s).1.entry ∧ t.hart.mid = .none ∧
      t.hart.tk.run = true ∧ t.hart.tk.tid = (giveTask x s.hart.ar.core s).1.tid ∧
      ∀ r, xr t r = if r ≠ 0 ∧ some r = d then (giveTask x s.hart.ar.core s).1.tid
        else if r = 4 then (giveTask x s.hart.ar.core s).1.lo else if r = 5 then (giveTask x s.hart.ar.core s).1.hi
        else xr s r) ∧
  (∀ (c : Nat) (x : Task) (k : Context) (s u : State), c ≠ s.hart.ar.core → c ∈ s.clu.members → clusterOfCore c = s.hart.ar.cluster →
    runningOn s c = none → nextTask s c = some x → curCtx s = some k → ctxRuns s s.hart.ar.ctx = true →
    fetchFootprint c (giveTask x c s).1 (giveTask x c s).2 = .ok u →
    ∃ t, exec (.taskDispatch c) s = .next t ∧ t.hart = u.hart ∧ ((giveTask x c s).1.join = 0 → t.clu = u.clu)) ∧
  (∀ (us : Nat) (s : State), ctxRuns s s.hart.ar.ctx = true → exec (.taskAging us) s = .next { s with clu := { s.clu with
    tasks := s.clu.tasks.map fun t => if queued t then
      { t with waited := t.waited + us, level := t.prio - (t.waited + us) / 64 } else t } })

namespace Sys2Proof.Machine

/-! ## Quorum joins -/

/-- A context keeps no interval lines (R375, R385). -/
def NoLines (s : State) (n : Nat) : Prop := ∀ c, ctxOf s.dev n = some c → c.mode ≠ 3

/-- Bit `m` of a 16-bit field of a join's record (R265). -/
def joinBit (s : State) (jid : Word) (o m : Nat) : Prop := (joinField s jid o 2).testBit m = true

end Sys2Proof.Machine

/-- R272 to R275: the join instructions. The model's choices in it: log 45. -/
def Obligations.JoinInstructionsComplete : Prop :=
  (∀ (d a : Reg) (s : State), qnewCheck s (xr s a) = .ok () → Quiet s → MemoriesOk s →
    ∃ t j, exec (.qnew d a) s = .next t ∧ WritesX s t d (BitVec.ofNat 64 (s.hart.ar.cluster * 2 ^ 32 + (xr s a).toNat)) ∧
      t.clu.joins = s.clu.joins ++ [j] ∧ j.jid = joinId s (xr s a) ∧ j.ctx = s.hart.ar.ctx ∧ j.launch = myLaunch s ∧
      j.bound = [] ∧ j.counted = [] ∧ j.markers = [] ∧ joinField t j.jid 5 3 = 0 ∧ joinField t j.jid 26 6 = 0 ∧
      joinField t j.jid 56 8 = 0 ∧ t.hart.ar = s.hart.ar ∧ FlowsOn s t) ∧
  (∀ (a b : Reg) (j : Join) (m : Nat) (bs : List Byte) (s w : State), mustDie s = false →
    qcontribCheck s (xr s a) (xr s b) = .ok (j, m, bs) →
    tensorMoving s.dev (shadowRow s (xr s a) m) (s.hart.nextSeq + 1) = false →
    reserveLog (engNeed s (originOf s) bs.length) s = some w →
    (liveTensor w (wordOf (joinField s (xr s a) 16 8))).isSome = true →
    engFits s.hart.ar.ctx w (engWrite (originOf s) (wordOf (joinField s (xr s a) 16 8)) (shadowRow s (xr s a) m) bs w) = true →
    Quiet s → exec (.qcontrib a b) s = .next (wentOn s (markEffect
      (engWrite (originOf s) (wordOf (joinField s (xr s a) 16 8)) (shadowRow s (xr s a) m) bs w)))) ∧
  (∀ (d a : Reg) (j : Join) (m : Nat) (s : State), mustDie s = false → memberCheck s (xr s a) = .ok (j, m) → m < 16 →
    joinStalls s j = false → Quiet s → MemoriesOk s →
    ∃ t, exec (.qarrive d a) s = .next t ∧ joinBit t (xr s a) 28 m ∧ FlowsOn s t ∧
      (j.counted.length + 1 = joinField s (xr s a) 2 2 → WritesX s t d 1 ∧ joinState t (xr s a) = 1) ∧
      (j.counted.length + 1 ≠ joinField s (xr s a) 2 2 → WritesX s t d 0 ∧ joinState t (xr s a) = joinState s (xr s a))) ∧
  (∀ (d a : Reg) (s : State), mustDie s = false → (∀ p, memberCheck s (xr s a) ≠ .ok p) →
    exec (.qarrive d a) s = .next (takeTrap 0x05 (xr s a) s.hart.pc 0 false s)) ∧
  (∀ s, (∀ x k, s.hart.mid ≠ .tknext x k) → mustDie s = false → Quiet s → exec .kpoint s = .next (wentOn s s)) ∧
  (∀ s, (∀ x k, s.hart.mid ≠ .tknext x k) → mustDie s = true → taskStalls s.hart = false → writesDone s = true →
    s.hart.tk.ktrap = false → LogHolds s →
    ∃ t, exec .kpoint s = .next t ∧ t.hart.mid = .tknext (some 0) true ∧ t.hart.tk.run = false ∧ t.hart.tk.lastHow = 4 ∧
      t.hart.tk.lastCause = 0x10 ∧ t.hart.regs = s.hart.regs ∧ t.hart.pc = s.hart.pc) ∧
  (∀ (d a : Reg) (j : Join) (s : State), joinOf s (xr s a) = some j → Quiet s →
    ∃ t, exec (.qstat d a) s = .next t ∧ ScalarFrame s t ∧ FlowsOn s t ∧ WritesX s t d (BitVec.ofNat 64 (qstatVal s (xr s a)))) ∧
  (∀ (a : Reg) (j : Join) (s : State), joinOf s (xr s a) = some j → joinState s (xr s a) = 2 → Quiet s → MemoriesOk s →
    ∃ t, exec (.qreset a) s = .next t ∧ joinState t (xr s a) = 0 ∧
      joinField t (xr s a) 6 2 = (joinField s (xr s a) 6 2 + 1) % 65536 ∧ joinField t (xr s a) 26 6 = 0 ∧
      joinOf t (xr s a) = some { j with bound := [], markers := [], counted := [], toRetract := [], combined := false,
                                        posted := false, icount := 0, paused := 0 } ∧ t.hart.regs = s.hart.regs ∧ FlowsOn s t) ∧
  (∀ (d a : Reg) (s : State), joinOf s (xr s a) = none → ∀ i ∈ [Instr.qstat d a, .qreset a],
    exec i s = .next (takeTrap 0x05 (xr s a) s.hart.pc 0 false s)) ∧
  (∀ (a : Reg) (j : Join) (s : State), joinOf s (xr s a) = some j → joinState s (xr s a) ≠ 2 →
    exec (.qreset a) s = .next (takeTrap 0x05 (xr s a) s.hart.pc 0 false s))

/-- R267 to R271: the moves of a join. The model's choices in it: log 39, 45, 46, 47. -/
def Obligations.JoinReleaseMoves : Prop :=
  (∀ (jid tid : Word) (m : Nat) (j : Join) (k : Task) (s : State), joinOf s jid = some j → joinState s jid = 1 →
    isCounted j m = false → j.bound.find? (fun b => b.1 == m) = some (m, tid) → taskById s tid = some k → m < 16 → MemoriesOk s →
    (k.running = some s.hart.ar.core → exec (.killSignal jid m) s =
      .next { s with hart := { s.hart with tk := { s.hart.tk with kpend := true } } }) ∧
    (k.running = none → ∃ t, exec (.killSignal jid m) s = .next t ∧ taskById t tid = none ∧ joinBit t jid 30 m ∧
      t.hart = s.hart)) ∧
  (∀ (jid tid : Word) (m : Nat) (p : Bool) (j : Join) (k : Task) (w : Marker) (s : State), joinOf s jid = some j → joinState s jid = 1 →
    isCounted j m = false → j.bound.find? (fun b => b.1 == m) = some (m, tid) → taskById s tid = some k → markerOf j m = some w →
    k.running = some w.core → w.core ≠ s.hart.ar.core → m < 16 → MemoriesOk s → LogHolds s → NoLines s j.ctx →
    ctxRuns s j.ctx = true →
    ∃ t, exec (.retraction jid ⟨m, p⟩) s = .next t ∧ taskById t k.tid = none ∧ joinBit t jid 30 m ∧ (p = true → joinBit t jid 26 m) ∧
      t.hart.regs = s.hart.regs ∧ t.hart.pc = s.hart.pc) ∧
  (∀ (jid : Word) (j : Join) (s : State), joinOf s jid = some j → joinState s jid = 1 → j.combined = false →
    (joinField s jid 4 1 ≠ 2 ∨ j.toRetract = []) → ctxRuns s j.ctx = true → LogHolds s → NoLines s j.ctx →
    ∃ t k, exec (.joinCombine jid) s = .next t ∧ joinOf t jid = some k ∧ k.combined = true ∧ t.hart.regs = s.hart.regs ∧
      t.hart.pc = s.hart.pc) ∧
  (∀ (jid : Word) (j : Join) (x : Tensor) (s : State), joinOf s jid = some j → joinState s jid = 1 → j.combined = false →
    (joinField s jid 4 1 ≠ 2 ∨ j.toRetract = []) → ctxRuns s j.ctx = true → LogHolds s → NoLines s j.ctx →
    tensorOf s.dev (joinField s jid 8 8) = some x → Memory.wf x.data = true → NoLines s x.ctx →
    (joinField s jid 16 8 ≠ joinField s jid 8 8 ∨ (joinField s jid 0 2 = 1 ∧ ∀ m ∈ j.counted, m = 0)) →
    ∃ t, exec (.joinCombine jid) s = .next t ∧ ∀ e, e < tCount x →
      bytesNat (rawBytes t.dev ⟨.ten (joinField s jid 8 8), 4 * e⟩ 4) =
        (faddCode .f32 rmRne (bytesNat (rawBytes s.dev ⟨.ten (joinField s jid 8 8), 4 * e⟩ 4)) (joinTerm s jid j e)).1 % 2 ^ 32) ∧
  (∀ (jid : Word) (j : Join) (s : State), joinOf s jid = some j → joinState s jid = 1 → j.combined = true → j.posted = false →
    ctxRuns s j.ctx = true → LogHolds s → NoLines s j.ctx →
    ∃ t k, exec (.joinFutPost jid) s = .next t ∧ joinOf t jid = some k ∧ k.posted = true ∧ t.hart.pc = s.hart.pc) ∧
  (∀ (jid : Word) (j : Join) (l : Leaf) (s : State), joinOf s jid = some j → joinState s jid = 1 → j.combined = true →
    j.posted = false → ctxRuns s j.ctx = true → LogHolds s → NoLines s j.ctx → MemoriesOk s → (∀ y ∈ s.clu.cm, y.uo = none) →
    joinField s jid 48 8 ≠ 0 → walk s.dev j.ctx (joinField s jid 48 8) = some l →
    ∃ t, exec (.joinFutPost jid) s = .next t ∧
      futValue t.dev ⟨.dev, l.pa⟩ = joinField s jid 28 2 + joinField s jid 6 2 * 2 ^ 16 ∧
      ((∀ w ∈ s.dev.futs, ∀ k take id va o, w = .parked k take id va o → k ≠ ⟨.dev, l.pa⟩) →
        futState t.dev ⟨.dev, l.pa⟩ = (if futState s.dev ⟨.dev, l.pa⟩ % 2 = 1 then futState s.dev ⟨.dev, l.pa⟩ ||| 3
          else futState s.dev ⟨.dev, l.pa⟩ + 1))) ∧
  (∀ (jid : Word) (j : Join) (s : State), joinOf s jid = some j → joinState s jid = 1 → allResolved s jid = true →
    j.toRetract = [] → j.combined = true → j.posted = true → traceStalls s.hart .join = false → MemoriesOk s →
    ∃ t, exec (.joinClose jid) s = .next t ∧ joinState t jid = 2 ∧ t.hart.regs = s.hart.regs ∧ t.hart.pc = s.hart.pc) ∧
  (∀ (jid : Word) (m : Nat) (j : Join) (s : State), myMember s = some (j, m) → j.jid = jid → joinState s jid = 1 →
    isCounted j m = false → writesOut s = true → taskStalls s.hart = false → s.hart.dbg.stop = none → s.hart.dbg.stepping = none → ctxRuns s j.ctx = true →
    LogHolds s →
    ∃ t, exec (.killTimeoutReset jid m) s = .next t ∧ t.hart.mid = .tknext none false ∧ t.hart.tk.lastHow = 5 ∧
      t.hart.tk.lastCause = 0x10 ∧ t.hart.tk.run = false ∧ t.hart.mode = .u ∧ t.hart.frame = none ∧ t.hart.held = [] ∧
      (∀ r, xr t r = if r = 2 then s.hart.regs.x[2] else if r = 3 then s.hart.regs.x[3] else 0) ∧ (∀ r, vr t r = 0) ∧
      (∀ q, q ≠ 0 → kr t q = 0) ∧ (∀ i, i < 8 → (slotAt t i).st = .idle) ∧
      ∀ w ∈ t.dev.futs, ∀ l take id va o, w = .parked l take id va o → o.core ≠ s.hart.ar.core)

namespace Sys2Proof.Machine

/-! ## Work queues and message queues -/

/-- A per-core descriptor and the cluster queue it names, both legal (R264). -/
def WqOk (s : State) (p : Word) (x : WqDesc) (q : CqDesc) : Prop := wqCheck s p = .ok x ∧ cqCheck s (wordOf x.cq) = .ok q

end Sys2Proof.Machine

/-- R262 to R264, R294 to R296: the queues. The model's choices in it: log 44, 49. -/
def Obligations.QueueInstructionsComplete : Prop :=
  (∀ (d a : Reg) (x : WqDesc) (q : CqDesc) (s : State), WqOk s (xr s a) x q → Quiet s →
    (ringCount x.head x.tail ≠ 0 → poisonAt s.dev (lsLoc s (ringAddr x.ring x.cap x.head)) 8 = none →
      (s.hart.fromRefill.contains ((xr s a).toNat, x.head) = true → loadsDone s (s.hart.nextSeq + 1) = true →
        ∃ t, exec (.wqpop d a) s = .next t ∧ FlowsOn s t ∧
          WritesX s t d (BitVec.ofNat 64 (bytesNat (lsBytes s (ringAddr x.ring x.cap x.head) 8)))) ∧
      (s.hart.fromRefill.contains ((xr s a).toNat, x.head) = false →
      (x.low ≤ ringCount x.head x.tail - 1 ∨ refilling s (xr s a).toNat = true) →
      ∃ t, exec (.wqpop d a) s = .next t ∧ FlowsOn s t ∧ t.dev = (putWq (xr s a).toNat 16 4 (x.head + 1) s).dev ∧ t.clu = s.clu ∧
        WritesX s t d (BitVec.ofNat 64 (bytesNat (lsBytes s (ringAddr x.ring x.cap x.head) 8))) ∧ t.hart.ar = s.hart.ar)) ∧
    (ringCount x.head x.tail = 0 → refilling s (xr s a).toNat = false → s.hart.mid ≠ .wq →
      ∃ t o, exec (.wqpop d a) s = .next t ∧ t.hart.mid = .wq ∧ t.hart.refills = s.hart.refills ++ [⟨(xr s a).toNat, o⟩] ∧
        t.hart.pc = s.hart.pc ∧ t.hart.regs = s.hart.regs) ∧
    (ringCount x.head x.tail = 0 → refilling s (xr s a).toNat = false → s.hart.mid = .wq →
      ∃ t, exec (.wqpop d a) s = .next t ∧ FlowsOn s t ∧ WritesX s t d (BitVec.allOnes 64) ∧ t.hart.mid = .none ∧ t.dev = s.dev) ∧
    (∃ t, exec (.wqcount d a) s = .next t ∧ ScalarFrame s t ∧ FlowsOn s t ∧ WritesX s t d (BitVec.ofNat 64
      (ringCount x.head x.tail % 2 ^ 16 + (if refilling s (xr s a).toNat then 2 ^ 16 else 0) +
        ringCount q.head q.tail % 2 ^ 17 * 2 ^ 32)))) ∧
  (∀ (d a b : Reg) (x : WqDesc) (s : State), wqCheck s (xr s a) = .ok x → Quiet s →
    (xr s b = BitVec.allOnes 64 → exec (.wqpush d a b) s = .next (takeTrap 0x05 (xr s b) s.hart.pc 0 false s)) ∧
    (xr s b ≠ BitVec.allOnes 64 → x.cap ≤ ringCount x.head x.tail →
      exec (.wqpush d a b) s = .next (wentOn s (markEffect (setX d 1 s)))) ∧
    (xr s b ≠ BitVec.allOnes 64 → ringCount x.head x.tail < x.cap →
      exec (.wqpush d a b) s = .next (wentOn s (markEffect (setX d 0 (putWq (xr s a).toNat 20 4 (x.tail + 1)
        (homePut (lsLoc s (ringAddr x.ring x.cap x.tail)) (natBytes 8 (xr s b).toNat) s))))))) ∧
  (∀ (d a b : Reg) (q : CqDesc) (s : State), cqCheck s (xr s a) = .ok q → xr s b ≠ BitVec.allOnes 64 →
    released s .clu (s.hart.nextSeq + 1) = true → Quiet s →
    (q.cap ≤ ringCount q.head q.tail → exec (.wqfill d a b) s = .next (wentOn s (markEffect (setX d 1 s)))) ∧
    (ringCount q.head q.tail < q.cap → exec (.wqfill d a b) s = .next (wentOn s (markEffect (setX d 0
      (putScratch ((xr s a).toNat + 12) 4 (q.tail + 1) (putScratch (ringAddr q.base q.cap q.tail) 8 (xr s b).toNat s))))))) ∧
  (∀ (d a b : Reg) (q : CqDesc) (s : State), cqCheck s (xr s a) = .ok q → xr s b = BitVec.allOnes 64 →
    exec (.wqfill d a b) s = .next (takeTrap 0x05 (xr s b) s.hart.pc 0 false s)) ∧
  (∀ (r : Refill) (rest : List Refill) (x : WqDesc) (q : CqDesc) (s w : State), s.hart.refills = r :: rest →
    WqOk s (wordOf r.desc) x q → reserveLog (160 * (if logCovers s r.org.ctx r.org.cov then refillCount x q else 0)) s = some w →
    exec .wqRefill s = .next (settle (refill r x q (putWq r.desc 24 8 0 { w with hart := { w.hart with refills := rest } })))) ∧
  (∀ x q, refillCount x q ≤ x.batch ∧ refillCount x q ≤ x.cap - ringCount x.head x.tail ∧ refillCount x q ≤ ringCount q.head q.tail) ∧
  (∀ (d a b : Reg) (bs : List Byte) (s : State), mqNamed s (xr s a) = true → readRecord s (xr s b) 64 64 = .ok bs →
    released s (mqScope s (xr s a).toNat) (s.hart.nextSeq + 1) = true → Quiet s →
    (mqOwn s (xr s a).toNat = false → ∃ t, exec (.mqsend d a b) s = .next t ∧ FlowsOn s t ∧ t.clu = s.clu ∧ t.dev = s.dev ∧
      WritesX s t d (BitVec.ofNat 64 (Config.queueAnswer s.tick % 3))) ∧
    (mqOwn s (xr s a).toNat = true → (mqOf s (xr s a).toNat).recv = none → exec (.mqsend d a b) s = .next (wentOn s (setX d 2 s))) ∧
    (mqOwn s (xr s a).toNat = true → (mqOf s (xr s a).toNat).recv ≠ none → 32 ≤ (mqOf s (xr s a).toNat).msgs.length →
      exec (.mqsend d a b) s = .next (wentOn s (setX d 1 s))) ∧
    (mqOwn s (xr s a).toNat = true → (mqOf s (xr s a).toNat).recv ≠ none → (mqOf s (xr s a).toNat).msgs.length < 32 →
      ∃ t, exec (.mqsend d a b) s = .next t ∧ WritesX s t d 0 ∧ FlowsOn s t ∧ t.hart.sent = s.hart.sent + 1 ∧ t.dev = s.dev ∧
        (mqOf t (xr s a).toNat).recv = (mqOf s (xr s a).toNat).recv ∧ (mqOf t (xr s a).toNat).msgs =
          (mqOf s (xr s a).toNat).msgs ++ [(s.hart.ar.core, BitVec.ofNat 512 (bytesNat bs), mqScope s (xr s a).toNat)])) ∧
  (∀ (d a b : Reg) (s : State), (mqOf s (xr s b).toNat).recv = some s.hart.ar.core → mqBuffer (xr s a) = .ok () →
    ((mqOf s (xr s b).toNat).msgs = [] → exec (.mqrecv d a b) s = .next s) ∧
    (∀ m r w, (mqOf s (xr s b).toNat).msgs = m :: r → loadsDone s (s.hart.nextSeq + 1) = true → Quiet s →
      reserveLog (storeNeed s (.store (List.replicate 64 0) .normal) (lsLoc s 0)) s = some w →
      exec (.mqrecv d a b) s = .next (wentOn s (markEffect (setX d (BitVec.ofNat 64 (m.1 % 2 ^ 13 + r.length * 2 ^ 16))
        (takeMq (mqOf s (xr s b).toNat) m (xr s a) w)))))) ∧
  (∀ (d a b : Reg) (s : State), (mqOf s (xr s b).toNat).recv ≠ some s.hart.ar.core →
    exec (.mqrecv d a b) s = .next (takeTrap 0x05 (xr s b) s.hart.pc 0 false s)) ∧
  (∀ (d a : Reg) (s : State), mqNamed s (xr s a) = true → Quiet s →
    (mqOwn s (xr s a).toNat = true → ∃ t, exec (.mqpoll d a) s = .next t ∧ ScalarFrame s t ∧
      FlowsOn s t ∧ WritesX s t d (BitVec.ofNat 64 ((mqOf s (xr s a).toNat).msgs.length +
        if (mqOf s (xr s a).toNat).recv = none then 0 else 2 ^ 63))) ∧
    (mqOwn s (xr s a).toNat = false → ∃ t v, exec (.mqpoll d a) s = .next t ∧ FlowsOn s t ∧ t.dev = s.dev ∧ t.clu = s.clu ∧
      WritesX s t d v ∧ (v = 0 ∨ (2 ^ 63 ≤ v.toNat ∧ v.toNat ≤ 2 ^ 63 + 32)))) ∧
  (∀ (d a b : Reg) (s : State), mqNamed s (xr s a) = true → mqOwn s (xr s a).toNat = true → Quiet s →
    (xr s b = 0 → (mqOf s (xr s a).toNat).recv = none → ∃ t, exec (.mqbind d a b) s = .next t ∧ WritesX s t d 0 ∧ FlowsOn s t ∧
      (mqOf t (xr s a).toNat).recv = some s.hart.ar.core ∧ (mqOf t (xr s a).toNat).msgs = (mqOf s (xr s a).toNat).msgs) ∧
    (xr s b = 0 → (mqOf s (xr s a).toNat).recv ≠ none → (mqOf s (xr s a).toNat).recv ≠ some s.hart.ar.core →
      exec (.mqbind d a b) s = .next (wentOn s (markEffect (setX d 1 s)))) ∧
    (xr s b = 1 → (mqOf s (xr s a).toNat).recv = some s.hart.ar.core → (mqOf s (xr s a).toNat).msgs = [] →
      ∃ t, exec (.mqbind d a b) s = .next t ∧ WritesX s t d 0 ∧ FlowsOn s t ∧ (mqOf t (xr s a).toNat).recv = none) ∧
    (xr s b = 1 → ((mqOf s (xr s a).toNat).recv ≠ some s.hart.ar.core ∨ (mqOf s (xr s a).toNat).msgs ≠ []) →
      exec (.mqbind d a b) s = .next (wentOn s (markEffect (setX d 1 s)))) ∧
    (1 < (xr s b).toNat → exec (.mqbind d a b) s = .next (takeTrap 0x05 (xr s b) s.hart.pc 0 false s)))

namespace Sys2Proof.Machine

/-! ## Tensors -/

/-- `s` with the held write of a scalar result that a TENS instruction returns (R176 to R180). -/
def tensResult (d : Reg) (l : BitVec 4) (v : Word) (s : State) : State := openHeld (xDst d) l (v.setWidth 1024) 0 0 s

/-- The context-wide queries of TINFO (R179). -/
def isCtxQuery (q : Word) : Prop := 5 ≤ q.toNat ∧ q.toNat ≤ 7

end Sys2Proof.Machine

/-- R176 to R182: the TENS instructions. The model's choices in it: log 5, 23, 24, 89, 104. -/
def Obligations.TensorInstructionsComplete : Prop :=
  (∀ (d a b : Reg) (l : BitVec 4) (x : Shape) (s : State), tnewCheck s (xr s a) (xr s b) = .ok x → Quiet s →
    exec (.tnew d a b l) s = .next (wentOn s (tensResult d l (createTensor x ((xr s b).setWidth 16) s).1
      (markEffect (createTensor x ((xr s b).setWidth 16) s).2)))) ∧
  (∀ (x : Shape) (ops : BitVec 16) (c : Context) (s : State), curCtx s = some c →
    (65536 ≤ (s.dev.tensors.filter (·.ctx == c.num)).length → createTensor x ops s = (2, s)) ∧
    ((s.dev.tensors.filter (·.ctx == c.num)).length < 65536 → c.quota < charge s c + quotaPart x (chooseRep s x ops) →
      createTensor x ops s = (1, s)) ∧
    ((s.dev.tensors.filter (·.ctx == c.num)).length < 65536 → charge s c + quotaPart x (chooseRep s x ops) ≤ c.quota →
      ∃ h, (createTensor x ops s).1 = BitVec.ofNat 64 h ∧ 256 ≤ h ∧ h ∉ c.used ∧ (∀ t ∈ s.dev.tensors, t.h ≠ h) ∧
        (createTensor x ops s).2.dev.tensors = s.dev.tensors ++ [newTensor h c.num x ops (chooseRep s x ops)] ∧
        (createTensor x ops s).2.hart = s.hart)) ∧
  (∀ (d a b : Reg) (l : BitVec 4) (t : Tensor) (s : State), liveCheck s (xr s a) = .ok t → (xr s b).toNat < 2 ^ 15 → Quiet s →
    exec (.twiden d a b l) s = .next (wentOn s (tensResult d l (widen t ((xr s b).setWidth 16) s).1
      (markEffect (widen t ((xr s b).setWidth 16) s).2)))) ∧
  (∀ (a : Reg) (t : Tensor) (s : State), liveCheck s (xr s a) = .ok t → Quiet s →
    exec (.tfree a) s = .next (wentOn s (markEffect (onTensor t.h freeTensor s)))) ∧
  (∀ t, (freeTensor t).freed = true ∧ (freeTensor t).queue.getLast? = some (.free true) ∧
    ∀ r m, OEntry.rerep r false m ∉ (freeTensor t).queue) ∧
  (∀ (d a b : Reg) (l : BitVec 4) (s : State), Quiet s →
    (isCtxQuery (xr s b) → a = 0 → exec (.tinfo d a b l) s =
      .next (wentOn s (tensResult d l (BitVec.ofNat 64 (infoCtx s (xr s b).toNat)) s))) ∧
    (∀ t, liveCheck s (xr s a) = .ok t → ¬ (isCtxQuery (xr s b) ∧ a = 0) → exec (.tinfo d a b l) s =
      .next (wentOn s (tensResult d l
        (BitVec.ofNat 64 (if 5 ≤ (xr s b).toNat then infoCtx s (xr s b).toNat else infoOf t (xr s b).toNat)) s)))) ∧
  (∀ (d a b : Reg) (l : BitVec 4) (v : Option (Nat × Nat)) (s : State), tviewCheck s (xr s a) (xr s b) = .ok v → Quiet s →
    ∃ t w, exec (.tview d a b l) s = .next t ∧ OpensHeld s t w ∧ w.dst = xDst d ∧ w.left = l.toNat ∧ w.missing = 0 ∧
      w.val.setWidth 64 = BitVec.ofNat 64 (viewBase + (xr s b).toNat % 16 * 2 ^ 32) ∧ w.bind = some ((xr s b).toNat % 16, v) ∧
      t.hart.regs = s.hart.regs ∧ t.hart.ar = s.hart.ar ∧ t.hart.views = s.hart.views ∧ t.dev = s.dev ∧ FlowsOn s t) ∧
  (∀ (d a b : Reg) (l : BitVec 4) (t : Tensor) (s : State), elemCheck s (xr s a) (xr s b) = .ok t → sqRoom s 1 = true → Quiet s →
    exec (.tlde d a b l) s = .next (wentOn s (enqueue (.tlde (xr s b).toNat (tySize t.ty) s.hart.nextId) (elemAccess t (xr s b)) none
      (placeEntry t.h (openHeld (xDst d) l 0 1 0 s))))) ∧
  (∀ (d a b : Reg) (t : Tensor) (s w : State), elemCheck s (xr s a) (xr s b) = .ok t → sqRoom s 1 = true → Quiet s →
    reserveLog (storeNeed s (.tste (xr s b).toNat (tySize t.ty) (xr s d) s.hart.ar.satf) (elemAccess t (xr s b)).loc) s = some w →
    exec (.tste d a b) s = .next (wentOn s (markEffect (enqueue (.tste (xr s b).toNat (tySize t.ty) (xr s d) s.hart.ar.satf)
      (elemAccess t (xr s b)) none (placeEntry t.h w))))) ∧
  (∀ (a : Reg) (s : State), Quiet s → twaitWaits s a = false → exec (.twait a) s = .next (wentOn s s)) ∧
  (∀ (a : Reg) (s : State), twaitWaits s a = true → exec (.twait a) s = .next s) ∧
  (∀ (d a b : Reg) (l : BitVec 4) (s : State), (∀ t, liveTensor s (xr s a) ≠ some t) →
    ∀ i ∈ [Instr.twiden d a b l, .tfree a, .tlde d a b l, .tste d a b],
      exec i s = .next (takeTrap 0x05 (xr s a) s.hart.pc 0 false s))

/-- R166 to R170: the moves of the order point. The model's choices in it: log 24. -/
def Obligations.OrderPointMoves : Prop :=
  (∀ (h : Nat) (t : Tensor) (r : Rep) (m : Option Nat) (q : List OEntry) (s : State), tensorOf s.dev h = some t →
    t.queue = .rerep r false m :: q → (∀ p ∈ paths s, ¬ (p.loc.space = .ten h ∧ viewOp p.op = true)) → NoLines s t.ctx →
    ∃ u x, exec (.rerepMoveBegin h) s = .next u ∧ tensorOf u.dev h = some x ∧ x.queue = .rerep r true m :: q ∧ x.rep = t.rep ∧
      (∀ y ∈ u.clu.cm, y.space ≠ .ten h) ∧ u.hart.regs = s.hart.regs ∧ u.hart.pc = s.hart.pc) ∧
  (∀ (h : Nat) (t : Tensor) (r : Rep) (m : Option Nat) (q : List OEntry) (s : State), tensorOf s.dev h = some t →
    t.queue = .rerep r true m :: q → ∃ u, exec (.rerepMoveComplete h) s = .next u ∧ u.hart = s.hart ∧ u.clu = s.clu ∧
      tensorOf u.dev h = some { t with rep := r, queue := q }) ∧
  (∀ (h : Nat) (t : Tensor) (m : Bool) (q : List OEntry) (s : State), tensorOf s.dev h = some t → t.queue = .free m :: q →
    ∃ u, exec (.freeEntryHead h) s = .next u ∧ tensorOf u.dev h = none ∧ (∀ y ∈ u.clu.cm, y.space ≠ .ten h) ∧
      (∀ y ∈ u.hart.l1, y.space ≠ .ten h) ∧ (s.hart.ar.ctx = t.ctx → ∀ (i : Nat) (b : Nat × Nat), u.hart.views[i]? = some (some b) → b.1 ≠ h) ∧
      (∀ g, g ≠ h → tensorOf u.dev g = tensorOf s.dev g) ∧ u.hart.regs = s.hart.regs ∧ u.hart.pc = s.hart.pc) ∧
  (∀ (t : Tensor) (r : Rep) (b : Bool) (m : Option Nat) (pre post : List OEntry) (id : Nat),
    t.queue = pre ++ .rerep r b m :: post → OEntry.access id ∉ pre → entryReady t id = false) ∧
  (∀ (t : Tensor) (m : Bool) (pre post : List OEntry) (id : Nat), t.queue = pre ++ .free m :: post → OEntry.access id ∉ pre →
    entryDead t id = true)

namespace Sys2Proof.Machine

/-! ## Streams, projections and adjoints -/

/-- The 32 bytes of a stream record at xa, aligned, in LS and free of poison (R121, R125). -/
def streamAt (s : State) (a : Reg) : Chk StreamRec := (readRecord s (xr s a) 32 32).map streamRec

/-- The elements of an array in LS, lowest first (R121). -/
def lsElems (s : State) (a : Word) (w n : Nat) : List Nat := (List.range n).map fun i => (streamGet s (a.toNat + i * (w / 8)) w).1

/-- Whether an array in LS is aligned, inside LS and free of poison (R125). -/
def CleanArray (s : State) (a : Word) (w n : Nat) : Prop :=
  a.toNat % (w / 8) = 0 ∧ firstOutside a n w = none ∧ ∀ i < n, (streamGet s (a.toNat + i * (w / 8)) w).2 = none

/-- What a mapping stream of `s` leaves in LS, element after element, from a state with its log space (R122, R124). -/
def streamMapped (r : StreamRec) (ws wd : Nat) (rd : Bool) (f : Nat → Nat → Acc → Nat × Acc) (s w : State) : StreamAcc :=
  (List.range r.n).foldl (fun c i => streamElem r.src.toNat r.dst.toNat ws wd i rd f c) ⟨w, accOf s, none⟩

/-- Where PROJ or PADJ stands: at row `i` of a record and parameters, or at the first with its checks passed (R344, R346). -/
def RowStands (s : State) (a b : Reg) (ok : Prop) (rb : List Byte) (v : Word) (i n f : Nat) : Prop :=
  s.hart.mid = .rows rb v i n f ∨
  ((∀ rb v i n f, s.hart.mid ≠ .rows rb v i n f) ∧ ok ∧ rb = lsBytes s (xr s a).toNat 32 ∧ v = xr s b ∧ i = 0 ∧ n = 0 ∧ f = 0)

/-- The state from which a row is done: it keeps no count of rows (R346). -/
def rowStart (w : State) (n f : Nat) : Rows := ⟨onHart (fun h => { h with mid := .none }) w, n, f, none⟩

/-- The state after row `i`: the next row, or the status in `d` (R345, R346). -/
def afterRow (s : State) (d : Reg) (rb : List Byte) (v : Word) (i : Nat) (x : Rows) : State :=
  if i + 1 < (projRec rb).rows then markEffect (onHart (fun h => { h with mid := .rows rb v (i + 1) x.nans x.flags }) x.s)
  else wentOn s (markEffect (setX d (BitVec.ofNat 64 (min x.nans 65535 * 65536 + x.flags % 32)) x.s))

end Sys2Proof.Machine

/-- R121 to R125, R343 to R348: the stream and projection instructions. The model's choices in it: log 19, 20, 50, 102. -/
def Obligations.StreamsAndProjectionsComplete : Prop :=
  (∀ (d a : Reg) (l : BitVec 4) (r : StreamRec) (t : Ty) (s w1 : State), streamAt s a = .ok r → r.n ≤ 65536 → r.op ≤ 7 →
    tyOf r.tys = some t → (t.isInt = true ∨ (t.isFl = true ∧ r.op ≤ 4)) → r.tyd = 0 → r.rnd = 0 →
    CleanArray s r.src t.width r.n → r.dst.toNat % (t.width / 8) = 0 → firstOutside r.dst r.n t.width = none →
    reserveLog (streamNeed s r.n) s = some w1 →
    (streamMapped r t.width t.width (r.op == 4) (fun x y c => mapLane s t r.op (r.sc % 2 ^ t.width) x y c) s w1).bad = none → Quiet s →
    ∃ u w, exec (.vsmap d a l) s = .next u ∧ OpensHeld s u w ∧ w.dst = xDst d ∧ w.left = l.toNat ∧
      w.val.setWidth 64 = BitVec.ofNat 64 r.n ∧ w.missing = 0 ∧ u.hart.regs = s.hart.regs ∧ FlowsOn s u ∧
      u.dev = (streamMapped r t.width t.width (r.op == 4) (fun x y c => mapLane s t r.op (r.sc % 2 ^ t.width) x y c) s w1).s.dev) ∧
  (∀ (d a : Reg) (l : BitVec 4) (r : StreamRec) (t : Ty) (s : State), streamAt s a = .ok r → r.n ≤ 65536 → r.op ≤ 6 →
    tyOf r.tys = some t → redAccepts r.op t = true → r.tyd = 0 → r.rnd = 0 → r.sc = 0 → CleanArray s r.src t.width r.n → Quiet s →
    ∃ u w, exec (.vsred d a l) s = .next u ∧ OpensHeld s u w ∧ w.dst = xDst d ∧ w.left = l.toNat ∧ w.missing = 0 ∧
      w.val.setWidth 64 = streamResult t ((streamReduce (redOfCode r.op) t (frmOf s) (lsElems s r.src t.width r.n) r.n
        (List.range ((r.n + t.lanes - 1) / t.lanes)) none (accOf s)).1.getD (emptyRed (redOfCode r.op) t)) ∧
      u.hart.regs = s.hart.regs ∧ u.dev.ls = s.dev.ls ∧ u.dev.scr = s.dev.scr ∧ u.dev.dmem = s.dev.dmem ∧ FlowsOn s u) ∧
  (∀ (d a : Reg) (l : BitVec 4) (r : StreamRec) (t ts : Ty) (m : Rnd) (s w1 : State), streamAt s a = .ok r → r.n ≤ 65536 → r.op = 0 →
    tyOf r.tys = some ts → tyOf r.tyd = some t → streamPair t ts = true → r.rnd ≤ 7 → r.sc = 0 →
    m = rndOf s (Rnd.ofCode (BitVec.ofNat 3 r.rnd)) → CleanArray s r.src ts.width r.n → r.dst.toNat % (t.width / 8) = 0 →
    firstOutside r.dst r.n t.width = none → reserveLog (streamNeed s r.n) s = some w1 →
    (streamMapped r ts.width t.width false (fun x _ c => convLane t ts m s.hart.ar.satf x c) s w1).bad = none → Quiet s →
    ∃ u w, exec (.vscvt d a l) s = .next u ∧ OpensHeld s u w ∧ w.dst = xDst d ∧ w.left = l.toNat ∧
      w.val.setWidth 64 = BitVec.ofNat 64 r.n ∧ w.missing = 0 ∧ u.hart.regs = s.hart.regs ∧ FlowsOn s u ∧
      u.dev = (streamMapped r ts.width t.width false (fun x _ c => convLane t ts m s.hart.ar.satf x c) s w1).s.dev) ∧
  (∀ (r : StreamRec) (ws wd : Nat) (rd : Bool) (f : Nat → Nat → Acc → Nat × Acc) (s w : State), r.n = 0 →
    (streamMapped r ws wd rd f s w).s = w) ∧
  (∀ (d a b : Reg) (sup sav : Bool) (e : Sys2Proof.PSet) (rb : List Byte) (v : Word) (i n f : Nat) (s w : State) (x : Rows),
    RowStands s a b (∃ r, projCheck s (xr s a) sup sav (setCode e) (xr s b) = .ok r) rb v i n f →
    reserveLog (wordNeed s (((projRec rb).rows - i) * ((projRec rb).n + (if sup then 1 else 0) +
      (if sav then recordSize (projRec rb).n / 4 else 0)))) s = some w →
    x = projRow (projRec rb) sup sav (setCode e) (bits v 31 0) (bits v 63 32) (rowStart w n f) i → x.bad = none → Quiet s →
    exec (.proj d a b sup sav e) s = .next (afterRow s d rb v i x)) ∧
  (∀ (d a b : Reg) (e : Sys2Proof.PSet) (rb : List Byte) (v : Word) (i n f : Nat) (s w : State) (x : Rows),
    RowStands s a b (∃ r, padjCheck s (xr s a) (setCode e) (xr s b) = .ok r) rb v i n f →
    reserveLog (wordNeed s (((projRec rb).rows - i) * (projRec rb).n)) s = some w →
    x = padjRow (projRec rb) (setCode e) (bits v 31 0) (bits v 63 32) (rowStart w n f) i → x.bad = none → Quiet s →
    exec (.padj d a b e) s = .next (afterRow s d rb v i x))

namespace Sys2Proof.Machine

/-! ## Copies and near-memory updates -/

/-- The number of a copy function's instruction (R279). -/
def copyFn : Instr → Option (Nat × Reg)
  | .cpy a => some (0, a)
  | .cpyq a => some (1, a)
  | .cpyt a => some (2, a)
  | .cpyxr a => some (3, a)
  | .cpypd a => some (4, a)
  | _ => none

/-- The rounding mode that a copy's record names: RND, or FRM for 0 (R280). -/
def copyRounding (s : State) (r : CopyRec) : Rnd := if r.rnd = 0 then frmOf s else Rnd.ofCode (BitVec.ofNat 3 r.rnd)

/-- The order-point entry of an engine command (R165). -/
def engineEntry (k : Nat) : OEntry := .access (2 * k + 1)

end Sys2Proof.Machine

/-- R279, R290, R293, R326, R328. The model's choices in it: log 32, 33, 61, 103, 105. -/
def Obligations.EngineInstructionsComplete : Prop :=
  (∀ (i : Instr) (fn : Nat) (a : Reg) (s : State), copyFn i = some (fn, a) →
    (∀ b, copyCheck s fn (xr s a) = .ok b → tableLoading s (copyRec b) = false → Quiet s →
      ∃ t c, exec i s = .next t ∧ t.dev.copies = s.dev.copies ++ [c] ∧ c.fn = fn ∧ c.record = b ∧ c.core = s.hart.ar.core ∧
        c.ctx = s.hart.ar.ctx ∧ c.tag = BitVec.ofNat 8 (copyRec b).tag ∧ c.st = .queued ∧ c.id = s.dev.nextEng ∧
        c.rnd = copyRounding s (copyRec b) ∧ c.sat = s.hart.ar.satf ∧ t.dev.nextEng = s.dev.nextEng + 1 ∧
        t.hart.tags = c.tag :: s.hart.tags ∧ t.hart.sent = s.hart.sent + 1 ∧ t.hart.regs = s.hart.regs ∧
        t.hart.ar = { s.hart.ar with lfsr := t.hart.ar.lfsr } ∧
        (copyRounding s (copyRec b) ≠ .sto → t.hart.ar.lfsr = s.hart.ar.lfsr) ∧
        (∀ h ∈ copyHandlesOf (copyRec b), ∀ x, tensorOf s.dev h = some x →
          tensorOf t.dev h = some { x with queue := x.queue ++ [engineEntry c.id] }) ∧
        t.clu = s.clu ∧ t.dev.ls = s.dev.ls ∧ t.dev.scr = s.dev.scr ∧ t.dev.dmem = s.dev.dmem ∧ FlowsOn s t) ∧
    (∀ b, copyCheck s fn (xr s a) = .ok b → tableLoading s (copyRec b) = true → exec i s = .next s) ∧
    (∀ r, copyCheck s fn (xr s a) = .error r → exec i s = .next (checkTrap r s))) ∧
  (∀ (d a : Reg) (s : State), Quiet s → ∃ t, exec (.cpyst d a) s = .next t ∧ ScalarFrame s t ∧ FlowsOn s t ∧
    WritesX s t d (BitVec.ofNat 64 (tagState s ((xr s a).setWidth 8) + s.hart.tags.length % 512 * 65536))) ∧
  (∀ (a : Reg) (b : List Byte) (w g : Tensor) (s : State), nmupdCheck s (xr s a) = .ok (b, w, g) → Quiet s →
    ∃ t j, exec (.nmupd a) s = .next t ∧ t.dev.nmus = s.dev.nmus ++ [j] ∧ j.record = b ∧ j.core = s.hart.ar.core ∧
      j.ctx = s.hart.ar.ctx ∧ j.tag = BitVec.ofNat 8 (nmuRec b).tag ∧ j.st = .queued ∧ j.id = s.dev.nextEng ∧
      j.todo = nmuPieces w (nmuRec b).row0 (nmuRec b).nrows ∧ t.hart.tags = j.tag :: s.hart.tags ∧
      t.hart.sent = s.hart.sent + 1 ∧ t.hart.regs = s.hart.regs ∧ t.hart.ar = s.hart.ar ∧ t.clu = s.clu ∧
      t.dev.ls = s.dev.ls ∧ t.dev.scr = s.dev.scr ∧ t.dev.dmem = s.dev.dmem ∧ FlowsOn s t) ∧
  (∀ (a : Reg) (r : Refuse) (s : State), nmupdCheck s (xr s a) = .error r → exec (.nmupd a) s = .next (checkTrap r s)) ∧
  (∀ (d a : Reg) (s : State), (xr s a).toNat ≤ 11 → Quiet s → ∃ t lock, exec (.nmstat d a) s = .next t ∧
    WritesX s t d (BitVec.ofNat 64 ((if lock = true then 65536 else 0) +
      piecesAt s.dev (xr s a).toNat (fun j => j.ctx == s.hart.ar.ctx) % 65536)) ∧ t.dev = s.dev ∧ t.clu = s.clu ∧
    (piecesAt s.dev (xr s a).toNat (fun _ => true) = 0 → lock = false) ∧ FlowsOn s t) ∧
  (∀ (d a : Reg) (s : State), 11 < (xr s a).toNat → exec (.nmstat d a) s = .next (takeTrap 0x05 (xr s a) s.hart.pc 0 false s))

namespace Sys2Proof.Machine

/-- A copy of the machine's list that may start: it is queued, loads no table, its entries are ready and its context runs
(R166, R286, R433). -/
def CopyStarts (s : State) (c : Copy) : Prop :=
  c.st = .queued ∧ (copyRec c.record).load = false ∧ copyReady s c.id (copyHandlesOf (copyRec c.record)) = true ∧
  peerBehind s c = false ∧ peerHeld s c = false ∧ ctxRuns s c.ctx = true

/-- The message of an engine command as its inbox receives it (R201). -/
def engineMsg (tag st kind : Byte) (n : BitVec 32) (m : Msg) : Prop := m.tag = tag ∧ m.status = st ∧ m.kind = kind ∧ m.count = n

end Sys2Proof.Machine

/-- R286 to R291, R327: the moves of engines. The model's choices in it: log 33, 34, 35, 61, 106. -/
def Obligations.EngineMoves : Prop :=
  (∀ (k : Nat) (c : Copy) (s w : State), s.dev.copies[k]? = some c → CopyStarts s c →
    reserveLog (copyNeed s c (planOf s c)) s = some w →
    (engFits c.ctx w (settle (performCopy c w)) = true → exec (.copyExecute k) s = .next (settle (performCopy c w))) ∧
    (engFits c.ctx w (settle (performCopy c w)) = false →
      exec (.copyExecute k) s = .next (onCtx c.ctx (fun x => { x with armed := true }) w))) ∧
  (∀ (k : Nat) (c : Copy) (s : State), s.dev.copies[k]? = some c → ¬ CopyStarts s c → exec (.copyExecute k) s = .next s) ∧
  (∀ (k : Nat) (c : Copy) (bs : List Byte) (bad : Option Word) (s u : State), s.dev.copies[k]? = some c → c.st = .queued →
    (copyRec c.record).load = true → ctxRuns s c.ctx = true → (copyRec c.record).tbl < 8 →
    engReadVa c.org (if (copyRec c.record).sk = 2 then some (copyRec c.record).core else none) c.user (copyRec c.record).src 128 s
      = .ok (bs, bad, u) →
    (ehLegal (ehLens (BitVec.ofNat 1024 (bytesNat bs))) = true → ∃ t, exec (.exponentTableLoad k) s = .next t ∧
      (tablesOf t (clusterOfCore c.core))[(copyRec c.record).tbl]? = some (BitVec.ofNat 1024 (bytesNat bs)) ∧
      (∀ x ∈ t.dev.copies, x.id = c.id → x.st = match bad with
        | none => .done 0 128
        | some a => .done 0x0C (a.setWidth 32)) ∧ t.hart.regs = u.hart.regs) ∧
    (ehLegal (ehLens (BitVec.ofNat 1024 (bytesNat bs))) = false → ∃ t, exec (.exponentTableLoad k) s = .next t ∧
      t.clu.etab = u.clu.etab ∧ t.dev.etabs = u.dev.etabs ∧ ∀ x ∈ t.dev.copies, x.id = c.id → x.st = .done 0x05 ((copyRec c.record).src.setWidth 32))) ∧
  (∀ (k : Nat) (c : Copy) (st : Byte) (n : BitVec 32) (f : Option Word) (s : State), s.dev.copies[k]? = some c →
    (c.st = .done st n ∧ loadHeld s c = false ∨ s.dev.time.toNat ≤ ackEnd s c ∧ (c.st = .await st n ∧ f = none ∨
      (∃ x y a, c.st = .await x y ∧ f = some a ∧ st = 0x05 ∧ n = a.setWidth 32))) →
    engineBehind s c = false → c.core = s.hart.ar.core → s.hart.thread ≠ .idle →
    s.hart.inbox.length < 64 → s.clu.hold = [] → s.hart.dbg.stop = none → s.hart.fences = [] →
    ∃ t m, exec (.copyComplete ⟨k, f⟩) s = .next t ∧ t.hart.inbox = s.hart.inbox ++ [m] ∧ engineMsg c.tag st (BitVec.ofNat 8 c.fn) n m ∧
      m.wrote = c.wrote ∧ m.time = t.dev.time ∧ (∀ x ∈ t.dev.copies, x.id ≠ c.id) ∧ t.hart.regs = s.hart.regs ∧ t.clu = s.clu) ∧
  (∀ (k : Nat) (c : Copy) (st : Byte) (n : BitVec 32) (s : State), s.dev.copies[k]? = some c → c.st = .await st n →
    engineBehind s c = false → c.core = s.hart.ar.core → s.hart.thread ≠ .idle → s.hart.inbox.length < 64 → s.clu.hold = [] → s.hart.dbg.stop = none →
    s.hart.fences = [] → ∃ t m, exec (.peerAckTimeout k) s = .next t ∧ t.hart.inbox = s.hart.inbox ++ [m] ∧
      engineMsg c.tag 0x05 (BitVec.ofNat 8 c.fn) (BitVec.allOnes 32) m ∧ (∀ x ∈ t.dev.copies, x.id ≠ c.id) ∧
      (∀ x, ctxOf s.dev c.ctx = some x → ctxOf t.dev c.ctx = some { x with orphaned := x.orphaned + 1 })) ∧
  (∀ (k : Nat) (c : Copy) (st : Byte) (n : BitVec 32) (s : State), s.dev.copies[k]? = some c → c.st = .await st n →
    engineBehind s c = true → s.dev.time.toNat ≤ ackEnd s c →
    exec (.copyComplete ⟨k, none⟩) s = .next (onCopy c.id (fun x => { x with st := .done st n }) s)) ∧
  (∀ (k i : Nat) (j : NmuJob) (p : Nat × Nat × Nat) (w g : Tensor) (s u : State), s.dev.nmus[k]? = some j → j.st = .queued →
    ctxRuns s j.ctx = true → copyDead s j.id (nmuHandles (nmuRec j.record)) = none → j.todo[i]? = some p →
    tensorOf s.dev (nmuRec j.record).wh.toNat = some w → tensorOf s.dev (nmuRec j.record).gh.toNat = some g →
    copyReady s j.id (nmuHandles (nmuRec j.record)) = true → pieceBehind s j p = false →
    reserveLog (pieceNeed s j (tySize w.ty) p.2.2) s = some u →
    engFits j.ctx u (settle (updatePiece j i p w g u)) = true →
    exec (.nmuPieceUpdate k i) s = .next (settle (updatePiece j i p w g u))) ∧
  (∀ (k : Nat) (j : NmuJob) (st : Byte) (n : BitVec 32) (s : State), s.dev.nmus[k]? = some j → j.st = .done st n →
    nmuBehind s j = false → j.core = s.hart.ar.core → s.hart.thread ≠ .idle → s.hart.inbox.length < 64 → s.clu.hold = [] → s.hart.dbg.stop = none →
    s.hart.fences = [] → ∃ t m, exec (.nmuComplete k) s = .next t ∧ t.hart.inbox = s.hart.inbox ++ [m] ∧
      engineMsg j.tag st 0x11 n m ∧ (∀ x ∈ t.dev.nmus, x.id ≠ j.id) ∧ t.hart.regs = s.hart.regs ∧ t.clu = s.clu)

namespace Sys2Proof.Machine

/-! ## Matrix instructions -/

/-- The command that a matrix instruction sends, with the units, whether it is a bay's, and the lead unit, once its checks
pass (R302 to R305, R311 to R314, R322 to R324). -/
def matrixSend (s : State) : Instr → Option (Chk (List Nat × Bool × Nat × MOp))
  | .mcset a b => some ((mcsetCheck s (xr s a) (xr s b)).map fun p => (pegUnits p.1 p.2, p.2, p.1, .mcset (xr s b)))
  | .mrset a b => some ((mrsetCheck s (xr s a) (xr s b)).map fun p =>
      (pegUnits p.1 p.2.1, p.2.1, p.1, .mrset (recByte p.2.2 14) (ringOf p.2.2)))
  | .mma n ra rb p code => some ((pegCheck s (xr s p)).map fun q => ([q.1], false, q.1, .mma n.toNat ra.toNat rb.toNat code))
  | .mmab n ra rb p code => some ((pegCheck s (xr s p)).bind fun q =>
      if q.2 then .ok (pegUnits q.1 true, true, q.1, .mmab n.toNat ra.toNat rb.toNat code) else .error (.protection, xr s p, 0))
  | .mpass n ra rb p code => some ((pegCheck s (xr s p)).map fun q => ([q.1], false, q.1, .mpass n.toNat ra.toNat rb.toNat code))
  | .mzero n a => some ((pegCheck s (xr s a)).map fun q => (pegUnits q.1 q.2, q.2, q.1, .mzero n.toNat))
  | .mdrain n a b sup clr tr set => some ((mdrainCheck s (xr s a) (xr s b) tr sup).map fun q =>
      (pegUnits q.1 q.2.1, q.2.1, q.1, .mdrain n.toNat set tr clr sup (xr s b) q.2.2))
  | _ => none

end Sys2Proof.Machine

/-- R301 to R307, R319, R322 to R325: the matrix instructions at issue. The model's choices in it: log 5, 52, 53, 57, 60. -/
def Obligations.MatrixInstructionsComplete : Prop :=
  (∀ (i : Instr) (k : Chk (List Nat × Bool × Nat × MOp)) (s : State), matrixSend s i = some k →
    (∀ us bay lead op, k = .ok (us, bay, lead, op) → queuesFull s us = false → Quiet s →
      ∃ t c, exec i s = .next t ∧ c.op = op ∧ c.bay = bay ∧ c.lead = lead ∧ c.core = s.hart.ar.core ∧ c.ctx = s.hart.ar.ctx ∧
        c.id = s.dev.nextEng ∧ c.nbv = s.hart.ar.nbv ∧ (∀ u ∈ us, (unitOf t u).queue = (unitOf s u).queue ++ [c]) ∧
        (∀ u, u ∉ us → unitOf t u = unitOf s u) ∧ t.hart.sent = s.hart.sent + 1 ∧ t.hart.regs = s.hart.regs ∧
        t.hart.ar = { s.hart.ar with lfsr := t.hart.ar.lfsr } ∧
        ((∀ n a b sup clr tr set, i = .mdrain n a b sup clr tr set → drainSto s lead = false) →
          t.hart.ar.lfsr = s.hart.ar.lfsr) ∧ t.clu = s.clu ∧ t.dev = { s.dev with units := t.dev.units, nextEng := s.dev.nextEng + 1 } ∧
        FlowsOn s t) ∧
    (∀ us bay lead op, k = .ok (us, bay, lead, op) → queuesFull s us = true →
      exec i s = .next { s with hart := { s.hart with mfull := true } }) ∧
    (∀ r, k = .error r → exec i s = .next (checkTrap r s))) ∧
  (∀ (d a : Reg) (c : Nat) (bay : Bool) (s : State), xr s a = BitVec.ofNat 64 (c + if bay then 65536 else 0) → c < 512 →
    clusterInPartition s c = true → Quiet s → ∃ t, exec (.mcap d a) s = .next t ∧ ScalarFrame s t ∧ FlowsOn s t ∧
      WritesX s t d (pegOf (ctxSerial s) c bay) ∧ unpeg s (pegOf (ctxSerial s) c bay) = some (c, bay)) ∧
  (∀ (d a : Reg) (c : Nat) (bay : Bool) (s : State), unpeg s (xr s a) = some (c, bay) → Quiet s →
    ∃ t, exec (.mcget d a) s = .next t ∧ ScalarFrame s t ∧ FlowsOn s t ∧
      WritesX s t d ((formatOf (unitOf s c) s.hart.ar.core).getD 0)) ∧
  (∀ (d a b : Reg) (c : Nat) (bay : Bool) (s : State), mradvCheck s (xr s a) (xr s b) = .ok (c, bay) →
    released s (if pegUnits c bay = [s.hart.ar.cluster] then .clu else .dev) (s.hart.nextSeq + 1) = true → Quiet s →
    (advAnswer ((pegUnits c bay).map fun u => unitRing (unitOf s u) (fmtField (xr s b) 0 3)) (fmtField (xr s b) 8 8) = 0 →
      exec (.mradv d a b) s = .next (wentOn s (markEffect (setX d 0
        (onUnits (pegUnits c bay) (advRing (fmtField (xr s b) 0 3) (fmtField (xr s b) 8 8)) s))))) ∧
    (∀ x, x ≠ 0 → advAnswer ((pegUnits c bay).map fun u => unitRing (unitOf s u) (fmtField (xr s b) 0 3)) (fmtField (xr s b) 8 8) = x →
      exec (.mradv d a b) s = .next (wentOn s (markEffect (setX d (BitVec.ofNat 64 x) s))))) ∧
  (∀ (d a b : Reg) (c : Nat) (bay : Bool) (s : State), mrstatCheck s (xr s a) (xr s b) = .ok (c, bay) → Quiet s →
    ∃ t, exec (.mrstat d a b) s = .next t ∧ ScalarFrame s t ∧ FlowsOn s t ∧
      WritesX s t d (BitVec.ofNat 64 (ringState (unitRing (unitOf s c) (fmtField (xr s b) 0 3))))) ∧
  (∀ (a : Reg) (c : Nat) (bay : Bool) (s : State), unpeg s (xr s a) = some (c, bay) →
    ((pegUnits c bay).any (mineQueued s) = true → exec (.mfence a) s = .next s) ∧
    ((pegUnits c bay).any (mineQueued s) = false → Quiet s → exec (.mfence a) s =
      .next (wentOn s (onUnits (pegUnits c bay) (forgetLines s.hart.ar.core)
        (acquireWrote ((pegUnits c bay).flatMap (drainLines s)) s))))) ∧
  (∀ (n : BitVec 2) (a b : Reg) (c : Nat) (bay : Bool) (s w : State), mstatCheck s (xr s a) (xr s b) = .ok (c, bay) →
    mineQueued s c = false →
    reserveLog (storeNeed s (.store (mstatBytes s c n.toNat) .normal) (lsLoc s (xr s b).toNat)) s = some w → Quiet s →
    exec (.mstat n a b) s = .next (wentOn s (markEffect
      (performWrite (originOf s) 1 (xr s b) (lsLoc s (xr s b).toNat) (mstatBytes s c n.toNat) w)))) ∧
  (∀ (d a b : Reg) (n : BitVec 2) (s : State), unpeg s (xr s a) = none →
    ∀ i ∈ [Instr.mcget d a, .mradv d a b, .mrstat d a b, .mfence a, .mstat n a b],
      exec i s = .next (takeTrap 0x05 (xr s a) s.hart.pc 0 false s))

namespace Sys2Proof.Machine

/-- A product command that a unit may run: its flags are clear, its tiles are published, and what they read as (R316). -/
def ProductRuns (s : State) (c : MCmd) (n ra rb : Nat) (code : BitVec 6) (raw : Bool)
    (l : List (Nat × Operand × Operand × Tile × Tile)) : Prop :=
  (∀ u ∈ cmdUnits c, productFlag s c u n ra rb code raw = 0 ∧ productReady s c u ra rb code = true) ∧
  tilesOf s c (cmdUnits c) ra rb code = .ok l

/-- A product command with the move of a unit that runs it, and whether its accumulator must be FP32: MMA, MMAB and MPASS
(R311 to R313, R316). -/
def Product (op : MOp) (n ra rb : Nat) (code : BitVec 6) (u : Nat) (i : Instr) (raw : Bool) : Prop :=
  (op = .mma n ra rb code ∧ i = .mmaUnit u ∧ raw = true) ∨ (op = .mmab n ra rb code ∧ i = .mmabUnit u ∧ raw = true) ∨
  (op = .mpass n ra rb code ∧ i = .mpassUnit u ∧ raw = false)

/-- The command has left the queues of its units, and the core's registers and flow are as before. -/
def CmdGone (s t : State) (c : MCmd) : Prop :=
  (∀ u ∈ cmdUnits c, ∀ k ∈ (unitOf t u).queue, k.id ≠ c.id) ∧ t.hart.regs = s.hart.regs ∧ t.hart.ar = s.hart.ar ∧
  t.hart.pc = s.hart.pc

/-- The pattern that MPASS puts at (i, j): the element of A that column j of B selects, 0 where it selects none (R313). -/
def passed (oa ob : Operand) (ta tb : Tile) (i j : Nat) : Nat :=
  match (passSelect (passColumn ob tb ((tb.els.map (fdec ob.ty)).toArray) j)).1 with
  | some k => ta.els.toArray.getD (i * oa.cols + k) 0
  | none => 0

end Sys2Proof.Machine

/-- R303 to R324: the commands at a unit. The model's choices in it: log 8, 54, 55, 56, 57, 58, 59. -/
def Obligations.MatrixUnitMoves : Prop :=
  (∀ (u : Nat) (c : MCmd) (w : Word) (s : State), runningHead s u = some c → c.op = .mcset w →
    ∃ t, exec (.mcsetUnit u) s = .next t ∧ (∀ k ∈ (unitOf t u).queue, k.id ≠ c.id) ∧ t.hart = s.hart ∧
      formatOf (unitOf t u) c.core = (if w = 0 then none else some w) ∧
      ∀ k, k ≠ c.core → formatOf (unitOf t u) k = formatOf (unitOf s u) k) ∧
  (∀ (u r : Nat) (c : MCmd) (g : Ring) (s : State), runningHead s u = some c → c.op = .mrset r g → r < 8 →
    ∃ t, exec (.mrsetUnit u) s = .next t ∧ (∀ k ∈ (unitOf t u).queue, k.id ≠ c.id) ∧ t.hart = s.hart ∧
      unitRing (unitOf t u) r = some g ∧ ∀ k, k ≠ r → unitRing (unitOf t u) k = unitRing (unitOf s u) k) ∧
  (∀ (u n : Nat) (c : MCmd) (s : State), runningHead s u = some c → c.op = .mzero n → n < 4 →
    (∀ k ∈ cmdUnits c, formatOf (unitOf s k) c.core ≠ none) → Memory.wf (unitOf s u).acc = true →
    ∃ t, exec (.mzeroUnit u) s = .next t ∧ (∀ k ∈ (unitOf t u).queue, k.id ≠ c.id) ∧ t.hart = s.hart ∧
      (unitOf t u).status[n]? = some 0 ∧ ∀ m i j, i < 128 → j < 128 →
        accGet (unitOf t u) m i j = if m = n then 0 else accGet (unitOf s u) m i j) ∧
  (∀ (u n ra rb : Nat) (code : BitVec 6) (c : MCmd) (l : List (Nat × Operand × Operand × Tile × Tile)) (s : State),
    startable s u = some c →
    (c.op = .mma n ra rb code → ProductRuns s c n ra rb code true l → ∃ t, exec (.mmaUnit u) s = .next t ∧ CmdGone s t c) ∧
    (c.op = .mmab n ra rb code → ProductRuns s c n ra rb code true l → ∃ t, exec (.mmabUnit u) s = .next t ∧ CmdGone s t c) ∧
    (c.op = .mpass n ra rb code → ProductRuns s c n ra rb code false l → ∃ t, exec (.mpassUnit u) s = .next t ∧ CmdGone s t c)) ∧
  (∀ (u n ra rb : Nat) (code : BitVec 6) (c : MCmd) (oa ob : Operand) (ta tb : Tile) (s : State), startable s u = some c →
    cmdUnits c = [u] → ta.bad = none → tb.bad = none → Memory.wf (unitOf s u).acc = true →
    oa.rows ≤ 128 → ob.cols ≤ 128 →
    (c.op = .mma n ra rb code → ProductRuns s c n ra rb code true [(u, oa, ob, ta, tb)] →
      ∃ t, exec (.mmaUnit u) s = .next t ∧ ∀ i j, i < oa.rows → j < ob.cols → accGet (unitOf t u) n i j =
        (productElem c.nbv oa ob ta tb ((ta.els.map (fdec oa.ty)).toArray) ((tb.els.map (fdec ob.ty)).toArray) i j
          (accGet (unitOf s u) n i j)).1 % 2 ^ 32) ∧
    (c.op = .mpass n ra rb code → ProductRuns s c n ra rb code false [(u, oa, ob, ta, tb)] →
      ∃ t, exec (.mpassUnit u) s = .next t ∧ ∀ i j, i < oa.rows → j < ob.cols →
        accGet (unitOf t u) n i j = passed oa ob ta tb i j % 2 ^ 32)) ∧
  (∀ (u n ra rb : Nat) (code : BitVec 6) (c : MCmd) (l : List (Nat × Operand × Operand × Tile × Tile)) (s : State),
    startable s u = some c → c.op = .mmab n ra rb code → ProductRuns s c n ra rb code true l → (cmdUnits c).Nodup →
    ∃ t, exec (.mmabUnit u) s = .next t ∧ ∀ k oa ob ta tb, (k, oa, ob, ta, tb) ∈ l → ta.bad = none → tb.bad = none →
      Memory.wf (unitOf s k).acc = true → oa.rows ≤ 128 → ob.cols ≤ 128 → ∀ i j, i < oa.rows → j < ob.cols →
      accGet (unitOf t k) n i j =
        (productElem c.nbv oa ob ta tb ((ta.els.map (fdec oa.ty)).toArray) ((tb.els.map (fdec ob.ty)).toArray) i j
          (accGet (unitOf s k) n i j)).1 % 2 ^ 32) ∧
  (∀ (u n ra rb f : Nat) (code : BitVec 6) (c : MCmd) (i : Instr) (raw : Bool) (s : State), startable s u = some c →
    Product c.op n ra rb code u i raw → (cmdUnits c).foldl (fun f k => f ||| productFlag s c k n ra rb code raw) 0 = f →
    f ≠ 0 → exec i s = .next (refuseCmd c n f s)) ∧
  (∀ (u n ra rb : Nat) (code : BitVec 6) (c : MCmd) (i : Instr) (raw : Bool) (s : State), startable s u = some c →
    Product c.op n ra rb code u i raw → (∀ k ∈ cmdUnits c, productFlag s c k n ra rb code raw = 0) →
    (∃ k ∈ cmdUnits c, productReady s c k ra rb code = false) → exec i s = .next s) ∧
  (∀ (u n : Nat) (set : Sys2Proof.PSet) (tr clr sup : Bool) (va : Word) (v : Option (Nat × Nat)) (c : MCmd) (p : DPlan) (s w : State),
    startable s u = some c → c.op = .mdrain n set tr clr sup va v →
    p = { n := n, set := setCode set, tr := tr, clr := clr, sup := sup, va := va, view := v,
          w := (formatOf (unitOf s c.lead) c.core).getD 0, units := cmdUnits c,
          raws := (cmdUnits c).map fun k => isRaw (unitOf s k) n,
          m := if fmtRnd ((formatOf (unitOf s c.lead) c.core).getD 0) = 0 then c.rnd
            else Rnd.ofCode (BitVec.ofNat 3 (fmtRnd ((formatOf (unitOf s c.lead) c.core).getD 0))) } →
    (∀ f, drainFlag s c n set = f → f ≠ 0 → exec (.mdrainUnit u) s = .next (refuseCmd c n f s)) ∧
    (drainFlag s c n set = 0 → drainMoving s c v = false → reserveLog (drainNeed s c p) s = some w →
      engFits c.ctx w (settle (endDrain c p (runDrain c p (passTime w)))) = true →
      exec (.mdrainUnit u) s = .next (settle (endDrain c p (runDrain c p (passTime w))))))

namespace Sys2Proof.Machine

/-! ## System instructions -/

/-- The Illegal Instruction trap of an instruction that its mode forbids: TVAL is its word (R43, R358, R360). -/
def illegalTrap (i : Instr) (s : State) : State := takeTrap 0x01 ((encode i).setWidth 64) s.hart.pc 0 false s

/-- A context that a CTX instruction in M mode names, and that no CTX instruction works on (R380). -/
def CtxNamed (s : State) (v : Word) (c : Context) : Prop :=
  s.hart.mode = .m ∧ v.toNat ≤ 15 ∧ ctxOf s.dev v.toNat = some c ∧ c.armed = false

end Sys2Proof.Machine

/-- R362 to R366, R380 to R382, R441. The model's choices in it: log 68, 71, 72, 73. -/
def Obligations.SystemInstructionsComplete : Prop :=
  (∀ (d a b : Reg) (s : State),
    (s.hart.mode = .u → exec (.ecall d a b) s = .next (takeTrap 0x13 (xr s a) s.hart.pc 0 false s)) ∧
    (s.hart.mode = .m → exec (.ecall d a b) s = .next (illegalTrap (.ecall d a b) s)) ∧
    (s.hart.mode = .s → s.hart.mid ≠ .ecall → ∃ t, exec (.ecall d a b) s = .next t ∧ t.hart.ecall = some (xr s a, xr s b, d) ∧
      t.hart.mid = .ecall ∧ t.hart.sent = s.hart.sent + 1 ∧ t.hart.pc = s.hart.pc ∧ t.hart.regs = s.hart.regs ∧ t.dev = s.dev) ∧
    (∀ v, s.hart.mode = .s → s.hart.mid = .ecall → s.hart.answer = some v → Quiet s → ∃ t, exec (.ecall d a b) s = .next t ∧
      WritesX s t d v ∧ t.hart.mid = .none ∧ t.hart.ecall = none ∧ t.hart.answer = none ∧ t.hart.ar = s.hart.ar ∧ t.dev = s.dev ∧
      t.clu = s.clu ∧ FlowsOn s t)) ∧
  (∀ (f v : Word) (d : Reg) (s : State), s.hart.ecall = some (f, v, d) → s.hart.answer = none →
    ∃ t, exec .ecallAnswer s = .next t ∧ t.hart = { s.hart with answer := t.hart.answer } ∧ t.clu = s.clu ∧
      (f = 0 → t.hart.answer = some (s.dev.fwver.setWidth 64)) ∧ (f = 1 → t.hart.answer = some (s.dev.ports.setWidth 64)) ∧
      (f = 2 → t.hart.answer = some (if s.dev.unsync = true then 1 else 0)) ∧
      (∀ c, f = 3 → curCtx s = some c → t.hart.answer = some c.bays) ∧
      (f = 4 → t.hart.answer = some 0 ∧ t.dev.out = s.dev.out ++ [.event s.hart.ar.ctx v]) ∧
      (4 < f.toNat → t.hart.answer = some (BitVec.allOnes 64)) ∧ (f ≠ 4 → t.dev = s.dev)) ∧
  (∀ (p : SavedTrap) (r : List SavedTrap) (s : State), s.hart.mode ≠ .u → s.hart.saved = p :: r → s.hart.held = [] → Quiet s →
    ∃ t u, exec .eret s = .next t ∧ t = settle u ∧ u.hart.fences = p.fences.map remakeFence ++ s.hart.fences ∧ t.dev = s.dev ∧
      u.clu = s.clu ∧ t.hart.pc = s.hart.tr.epc ∧ t.hart.mode = s.hart.tr.ppm ∧ t.hart.tr = { s.hart.tr with tip := false } ∧
      t.hart.saved = r ∧ t.hart.regs = s.hart.regs ∧ t.hart.ar = s.hart.ar ∧ t.hart.tc.icount = s.hart.tc.icount + 1 ∧
      (s.hart.tr.epc = p.epc → t.hart.frame = p.frame ∧ t.hart.mid = p.mid) ∧
      (s.hart.tr.epc ≠ p.epc → t.hart.frame = none ∧ t.hart.mid = .none)) ∧
  (∀ (id : Nat) (a : Word) (s : State), s.hart.mode ≠ .u → returnWaits s.hart = false → handlerPoison s.hart = some (id, a) →
    exec .eret s = .next (takeTrap 0x0C a s.hart.pc 0 true { s with hart := { s.hart with
      held := s.hart.held.filter fun w => w.id != id } })) ∧
  (∀ s, s.hart.mode = .u → exec .eret s = .next (illegalTrap .eret s)) ∧
  (∀ s, (wfiReturns s.hart = true → Quiet s → exec .wfi s = .next (wentOn s s)) ∧
    (wfiReturns s.hart = false → exec .wfi s = .next s)) ∧
  (∀ (a : Reg) (s : State), Quiet s → exec (.spin a) s = .next (wentOn s { s with hart := { s.hart with
    spin := if (xr s a).toNat = 0 then s.hart.spin else some (min (xr s a).toNat 65535) } })) ∧
  (∀ (n : Nat) (s : State), s.hart.spin = some n → ∃ t, exec .spinHoldEnd s = .next t ∧
    t.hart = { s.hart with spin := none } ∧ t.clu = s.clu ∧ t.dev = { s.dev with time := t.dev.time, cycle := t.dev.cycle }) ∧
  (∀ s, mustArrive s = none → mustDie s = false → endWaits s.hart = true → exec .endT s = .next s) ∧
  (∀ s, mustArrive s = none → taskStalls s.hart = false → mustDie s = false → endWaits s.hart = false → Quiet s →
    ∃ t, exec .endT s = .next t ∧ t.hart.thread = .ended ∧ t.hart.tk.run = false ∧ t.hart.held = [] ∧
      s.hart.ar.core ∉ t.clu.members ∧ s.hart.ar.core ∉ t.clu.group ∧ t.hart.regs = s.hart.regs ∧
      t.hart.tc.icount = s.hart.tc.icount + 1) ∧
  (∀ (d a : Reg) (c : Context) (s : State), CtxNamed s (xr s a) c → Quiet s →
    (c.state = .running → ∀ i ∈ [Instr.csave d a, .rback d a], exec i s = .next (wentOn s (setX d 3 s))) ∧
    (c.state ≠ .running → exec (.csave d a) s = .next (wentOn s (setX d 0 (saveSwitch c.num s)))) ∧
    (c.state ≠ .saved → exec (.crest d a) s = .next (wentOn s (setX d 3 s))) ∧
    (c.state = .saved → exec (.crest d a) s = .next (wentOn s (setX d (BitVec.ofNat 64 (loadSwitch c s).1) (loadSwitch c s).2))) ∧
    (c.state ≠ .running → c.mode ≠ 3 → exec (.rback d a) s = .next (wentOn s (setX d 2 s))) ∧
    (c.state ≠ .running → c.mode = 3 → c.boundImg = none → exec (.rback d a) s = .next (wentOn s (setX d 0x15 (rollBack c.num s)))) ∧
    (∀ g, c.state ≠ .running → c.mode = 3 → c.boundImg = some g → exec (.rback d a) s = .next (wentOn s (setX d
      (if c.rolledBack = 0 ∧ imageBad s c 1 g = true then 0x15 else 0) (rollBack c.num s)))) ∧
    ((∀ n k, s.hart.mid ≠ .ckpt n k) → (c.state ≠ .running → exec (.ckpt d a) s = .next (wentOn s (setX d 3 s))) ∧
      (c.state = .running → c.mode ≠ 3 → exec (.ckpt d a) s = .next (wentOn s (setX d 2 s))) ∧
      (c.state = .running → c.mode = 3 → ∃ t, exec (.ckpt d a) s = .next t ∧ t.hart = { s.hart with mid := .ckpt c.num c.interval } ∧
        ctxOf t.dev c.num = some { c with armed := true }))) ∧
  (∀ (d a : Reg) (n k v : Nat) (s : State), s.hart.mid = .ckpt n k → ckptAnswer s n k = some v → Quiet s →
    exec (.ckpt d a) s = .next (wentOn s { setX d (BitVec.ofNat 64 v) s with
      hart := { (setX d (BitVec.ofNat 64 v) s).hart with mid := .none } })) ∧
  (∀ (d a : Reg) (s : State), (∀ n k, s.hart.mid ≠ .ckpt n k) → ∀ i ∈ [Instr.csave d a, .crest d a, .ckpt d a, .rback d a],
    (s.hart.mode ≠ .m → exec i s = .next (illegalTrap i s)) ∧
    (s.hart.mode = .m → (15 < (xr s a).toNat ∨ ctxOf s.dev (xr s a).toNat = none) →
      exec i s = .next (takeTrap 0x05 (xr s a) s.hart.pc 0 false s))) ∧
  (∀ (a b : Reg) (s : State), s.hart.mode ≠ .u → (xr s b).toNat ≤ 1 →
    frameBusy s ((s.clu.tlb.filter fun e => xr s b == 1 || e.vframe == (xr s a).toNat / 65536).map (·.pframe)).contains = false →
    Quiet s → exec (.tinval a b) s = .next (wentOn s { s with
      clu := { s.clu with tlb := s.clu.tlb.filter fun e => !(xr s b == 1 || e.vframe == (xr s a).toNat / 65536) }
      dev := { s.dev with tlbs := s.dev.tlbs.filter fun e =>
        !((match curCtx s with | some c => hasBay c (e.1 / 8) | none => false) &&
          (xr s b == 1 || e.2.vframe == (xr s a).toNat / 65536)) } })) ∧
  (∀ (a b : Reg) (s : State), s.hart.mode = .u → exec (.tinval a b) s = .next (illegalTrap (.tinval a b) s)) ∧
  (∀ (a b : Reg) (s : State), s.hart.mode ≠ .m → exec (.fattr a b) s = .next (illegalTrap (.fattr a b) s)) ∧
  (∀ (a b : Reg) (s : State), s.hart.mode = .m → (xr s a).toNat % 65536 = 0 → (xr s a).toNat < devEnd → (xr s b).toNat ≤ 1 →
    frameBusy s (fun k => k == (xr s a).toNat / 65536) = false → Quiet s → ∃ t, exec (.fattr a b) s = .next t ∧
    (t.dev.uncached.contains ((xr s a).toNat / 65536) = (xr s b == 1)) ∧ (∀ e ∈ t.clu.tlb, e.pframe ≠ (xr s a).toNat / 65536) ∧
    (∀ e ∈ t.dev.tlbs, e.2.pframe ≠ (xr s a).toNat / 65536) ∧
    (∀ x ∈ t.clu.cm, ¬ (x.space = .dev ∧ x.line / 512 = (xr s a).toNat / 65536)) ∧ t.hart.regs = s.hart.regs ∧ FlowsOn s t)

/-! ## Undo log, trace and debug instructions -/

/-- R389, R397 to R406: the UL, TRC and DBG instructions, and their moves. The model's choices in it: log 28, 29, 94, 97. -/
def Obligations.TraceAndDebugInstructionsComplete : Prop :=
  (∀ (d a : Reg) (c : Context) (s : State), (xr s a).toNat ≤ 1 → curCtx s = some c → Quiet s →
    ∃ t, exec (.ulmark d a) s = .next t ∧ WritesX s t d (c.winNext.setWidth 64) ∧ t.hart.tc.ulwin = c.winNext ∧
      t.hart.tc.covered = (xr s a == 1 || (s.hart.tk.run && s.hart.tk.qm)) ∧ t.hart.ar = s.hart.ar ∧ FlowsOn s t ∧
      curCtx t = some { c with winNext := c.winNext + 1 }) ∧
  (∀ (d a : Reg) (s : State), Quiet s → ∃ t, exec (.ulstat d a) s = .next t ∧ ScalarFrame s t ∧ FlowsOn s t ∧
    WritesX s t d (BitVec.ofNat 64 (ulstatVal s (xr s a).toNat))) ∧
  (∀ (d a : Reg) (s : State), (xr s a).toNat < 65536 → Quiet s → exec (.uldrain d a) s = .next (wentOn s (setX d 0 s))) ∧
  (∀ (d a : Reg) (c : Context) (s : State), (xr s a).toNat < 65536 → curCtx s = some c → c.mode = 2 →
    s.hart.dbg.trapStep = false → ∃ t x, exec (.uldrain d a) s = .next t ∧ FlowsOn s t ∧ curCtx t = some x ∧
      (∀ e ∈ x.log, drainable s ((xr s a).setWidth 16) e = false)) ∧
  (∀ (d a : Reg) (s : State), 65536 ≤ (xr s a).toNat → exec (.uldrain d a) s = .next (takeTrap 0x05 (xr s a) s.hart.pc 0 false s)) ∧
  (∀ (d a : Reg) (s : State), 1 < (xr s a).toNat → exec (.ulmark d a) s = .next (takeTrap 0x05 (xr s a) s.hart.pc 0 false s)) ∧
  (∀ (a b : Reg) (s : State), traceStalls s.hart .user = false → Quiet s → ∃ t, exec (.trec a b) s = .next t ∧
    t.hart.regs = s.hart.regs ∧ t.hart.ar = s.hart.ar ∧ t.clu = s.clu ∧ FlowsOn s t ∧
    (traceOn s.hart .user = false → t.hart.tc.scribe = s.hart.tc.scribe ∧ t.dev = s.dev) ∧
    (traceOn s.hart .user = true → ∃ r, t.hart.tc.scribe = s.hart.tc.scribe ++ [r] ∧
      r.extractLsb' 128 64 = xr s a ∧ r.extractLsb' 192 64 = xr s b ∧ r.extractLsb' 256 16 = s.hart.pc)) ∧
  (∀ (d a : Reg) (s : State), (xr s a).toNat ≤ 8 → Quiet s → ∃ t, exec (.perfr d a) s = .next t ∧ FlowsOn s t ∧
    t.hart.ar = s.hart.ar ∧ t.clu = s.clu ∧ (xr s a = 0 → WritesX s t d t.dev.cycle) ∧
    (xr s a ≠ 0 → t.dev = s.dev ∧ WritesX s t d (counterVal s (xr s a).toNat))) ∧
  (∀ (a : Reg) (s : State), (xr s a).toNat ≤ 8 → Quiet s → ∃ t, exec (.perfc a) s = .next t ∧ FlowsOn s t ∧
    t.hart.regs = s.hart.regs ∧ t.hart.ar = s.hart.ar ∧ t.dev = s.dev ∧ t.clu = s.clu ∧
    ∀ i, 2 ≤ i → i ≤ 8 → i ≠ 6 → counterVal t i = if i = (xr s a).toNat then 0 else counterVal s i) ∧
  (∀ (d a : Reg) (s : State), 8 < (xr s a).toNat →
    exec (.perfr d a) s = .next (takeTrap 0x05 (xr s a) s.hart.pc 0 false s) ∧
    (xr s a ≠ 0xFF → exec (.perfc a) s = .next (takeTrap 0x05 (xr s a) s.hart.pc 0 false s))) ∧
  (∀ (a : Reg) (s : State), attached s = false → exec (.brk a) s = .next (takeTrap 0x0E (xr s a) s.hart.pc 0 false s)) ∧
  (∀ (a : Reg) (s : State), attached s = true → s.hart.thread = .running → s.hart.dbg.stop = none → Quiet s →
    ∃ t r, exec (.brk a) s = .next t ∧ t.hart.dbg.stop = some r ∧ r.why = 5 ∧ r.icount = s.hart.tc.icount + 1 ∧
      t.hart.dbg.role = 2 ∧ FlowsOn s t ∧ t.hart.regs = s.hart.regs) ∧
  (∀ (d a b : Reg) (l : Loc) (c : Context) (s u : State), wsetCheck s (xr s a) (xr s b) = .ok (l, u) → curCtx u = some c → Quiet u →
    (∀ i, findIdxFrom (fun (o : Option Watch) => o.isNone) c.watches.toList 0 = some i → ∃ t w x, exec (.wset d a b) s = .next t ∧
      WritesX s t d (BitVec.ofNat 64 i) ∧ curCtx t = some x ∧ x.watches[i]? = some (some w) ∧ w.va = xr s a ∧ w.loc = l ∧
      w.armed = true ∧ w.act = (xr s b).getLsbD 6 ∧ FlowsOn s t) ∧
    (findIdxFrom (fun (o : Option Watch) => o.isNone) c.watches.toList 0 = none →
      exec (.wset d a b) s = .next (wentOn s (setX d (BitVec.allOnes 64) u)))) ∧
  (∀ (a : Reg) (c : Context) (s : State), (xr s a).toNat ≤ 15 → curCtx s = some c → Quiet s → ∃ t x, exec (.wclr a) s = .next t ∧
    curCtx t = some x ∧ x.watches[(xr s a).toNat]? = some none ∧ t.hart.regs = s.hart.regs ∧ FlowsOn s t) ∧
  (∀ (a : Reg) (s : State), 15 < (xr s a).toNat → exec (.wclr a) s = .next (takeTrap 0x05 (xr s a) s.hart.pc 0 false s)) ∧
  (∀ (acc : WatchAccess) (s : State), exec (.watchpointTrigger acc) s =
    .next (watchAccess s.hart.ar.ctx acc (Config.freeWord s.tick) { s with tick := s.tick + 1 })) ∧
  (∀ (acc : WatchAccess) (c : Context) (w : Watch) (i : Nat) (s : State), curCtx s = some c →
    findIdxFrom (fun (o : Option Watch) => match o with | some w => watchMatches w acc | none => false) c.watches.toList 0 = some i →
    c.watches[i]? = some (some w) → ∃ t x r, exec (.watchpointTrigger acc) s = .next t ∧ ctxOf t.dev s.hart.ar.ctx = some x ∧
      x.trigger = some r ∧ r.wp = BitVec.ofNat 8 i ∧ r.core = acc.core ∧ ∀ y ∈ x.watches.toList, ∀ z, y = some z → watchMatches z acc = false) ∧
  (∀ (v : Word) (s : State), s.hart.dbg.wpTrap = some v → s.hart.thread = .running → s.hart.dbg.stop = none → insideInstr s.hart = false →
    exec .watchpointTrap s = .next (takeTrap 0x0D v s.hart.pc 0 true { s with hart := { s.hart with
      dbg := { s.hart.dbg with wpTrap := none } } })) ∧
  (∀ s, atBreakpoint s = true → s.hart.thread = .running → s.hart.dbg.stop = none → ∃ t r, exec .breakpointStop s = .next t ∧
    t.hart.dbg.stop = some r ∧ r.why = 5 ∧ r.pc = s.hart.pc ∧ t.hart.pc = s.hart.pc ∧ t.hart.dbg.skipBp = true ∧
    t.hart.regs = s.hart.regs) ∧
  (∀ (r : BitVec 512) (rest : List (BitVec 512)) (c : Context) (s : State), s.hart.tc.scribe = r :: rest → curCtx s = some c →
    mayEmit s = true → c.sinkTail - c.sinkHead + 64 ≤ 2 ^ c.sink2sz → ∃ t x, exec .scribeEmit s = .next t ∧
      t.hart = { s.hart with tc := { s.hart.tc with scribe := rest } } ∧ curCtx t = some x ∧ x.sinkTail = c.sinkTail + 64 ∧ t.clu = s.clu)

namespace Sys2Proof.Machine

/-! ## Contexts, the board and the peers -/

/-- `t` has killed context `c` of `s`: it is gone, its frames and tensors are released, and the host has its record (R378). -/
def Killed (s t : State) (c : Context) (reason cause : Nat) (addr : Word) : Prop :=
  ctxOf t.dev c.num = none ∧ (∀ p ∈ t.dev.owners, p.2 ≠ .ctx c.num) ∧ (∀ x ∈ t.dev.tensors, x.ctx ≠ c.num) ∧
  t.dev.out = s.dev.out ++ [.kill c.num (killRecord reason cause 0xFFFF c.interval s.dev.time addr c.orphaned c.unret)]

/-- The core runs a thread of context `n` and is not stopped. -/
def RunsFor (s : State) (n : Nat) : Prop := inContext s.hart n = true ∧ s.hart.thread = .running ∧ s.hart.dbg.stop = none

/-- The core's stop record in `t`, after a stop with reason `why` (R367, R368). -/
def StoppedFor (s t : State) (why : Nat) : Prop :=
  t.hart.regs = s.hart.regs ∧ t.hart.pc = s.hart.pc ∧
  ∃ r, t.hart.dbg.stop = some r ∧ r.why = why ∧ r.pc = s.hart.pc ∧ r.icount = s.hart.tc.icount ∧ r.sent = s.hart.sent ∧
    r.recv = s.hart.recv

/-- What a thread's start sets (R76, R241, R245, R261). -/
def Started (t : State) (l : Launch) (g m core : Nat) : Prop :=
  let r := launchRec l.record
  let f := firstRange r (g * r.gsize + m)
  t.hart.thread = .running ∧
  t.hart.regs.x = (((Vector.replicate 32 (0 : Word)).set 2 (BitVec.ofNat 64 r.stack)).set 4 (BitVec.ofNat 64 f.1)).set 5
    (BitVec.ofNat 64 f.2) ∧
  t.hart.regs.allot = r.allot ∧ t.hart.nslots = r.slots ∧ t.hart.ar.lfsr = BitVec.ofNat 64 (core + 1) ∧ t.hart.ar.fflags = 0 ∧
  t.hart.ar.frm = 1 ∧ t.hart.ss.level = BitVec.ofNat 3 r.dom ∧ t.hart.tk.run = true ∧ t.hart.tk.launch = BitVec.ofNat 16 l.n ∧
  t.hart.tk.member = BitVec.ofNat 4 m ∧ t.hart.tk.gidx = BitVec.ofNat 13 g ∧
  (t.hart.tr.tip = false → t.hart.pc = BitVec.ofNat 16 r.entry ∧ t.hart.mode = .u)

end Sys2Proof.Machine

/-- R239 to R241, R276, R367 to R370, R374 to R379, R425, R431 to R435, R442, R443. The model's choices in it: log 63 to 67, 69, 70, 74, 75, 79, 86, 87, 88, 107. -/
def Obligations.ContextAndBoardMovesComplete : Prop :=
  (∀ (x : Context) (l : Launch) (k : Nat) (cores : List Nat) (s : State), nextGroup s = some (x, l, k, cores) →
    ctxOf s.dev x.num = some x → (x.mode ≠ 3 ∨ ∀ e ∈ s.clu.cm, e.uo = none) → ∃ t y, exec .groupPlace s = .next t ∧ ctxOf t.dev x.num = some y ∧
      y.busy = x.busy ++ cores.map (fun c => (c, l.n, l.placed)) ∧
      y.launches = x.launches.map (fun z => if z.n = l.n then { z with placed := z.placed + 1, lastCluster := some k } else z) ∧
      (s.hart.ar.core ∈ cores → Started t l l.placed (cores.idxOf s.hart.ar.core) s.hart.ar.core)) ∧
  (∀ (c : Nat) (s : State),
    (c = s.hart.ar.core → retireReady s = true → ∃ t, exec (.threadRetireFree c) s = .next t ∧ t.hart.thread = .idle ∧
      t.hart.inbox = [] ∧ t.hart.regs = Regs.reset ∧ t.hart.tags = [] ∧
      ∀ x, curCtx t = some x → ∀ b ∈ x.busy, b.1 ≠ c) ∧
    (c ≠ s.hart.ar.core → otherMayRetire s c = true → inContext s.hart s.hart.ar.ctx = true → ∃ t,
      exec (.threadRetireFree c) s = .next t ∧ t.hart = s.hart ∧ c ∉ t.clu.members ∧ c ∉ t.clu.group ∧
      ∀ x, curCtx t = some x → ∀ b ∈ x.busy, b.1 ≠ c)) ∧
  (∀ (at_ : Nat) (s : State), nextSwitch s.dev.ctxs = some at_ → ∃ t, exec .switchTimeReached s = .next t ∧
    ∀ n c u, ctxOf s.dev n = some c → c.state = .running → c.switchAt = some u → u ≤ at_ →
      (∃ x, ctxOf t.dev n = some x ∧ x.state = .stopped 2 ∧ x.switchAt = none) ∧ (RunsFor s n → StoppedFor s t 2)) ∧
  (∀ (n b : Nat) (c : Context) (s : State), ctxOf s.dev n = some c → timeBudget c = some b → c.state = .running → c.spent = false →
    ∃ t, exec (.timeBudgetStop n) s = .next t ∧ t.hart = s.hart ∧ t.clu = s.clu ∧
      t.dev.time = (reachTime (c.since.toNat + (b * 1000 - c.ran)) s).dev.time ∧
      ctxOf t.dev n = some { c with spent := true, switchAt := some (switchTime t.dev.time) }) ∧
  (∀ s, ∃ t, exec .budgetPeriod s = .next t ∧ t.hart = s.hart ∧ t.clu = s.clu ∧
    ∀ n c, ctxOf s.dev n = some c → ctxOf t.dev n = some (newPeriod t.dev.time c)) ∧
  (∀ (n why : Nat) (c : Context) (s : State), ctxOf s.dev n = some c → c.state = .running → ∃ t,
    exec (.gangStop n why) s = .next t ∧ ctxOf t.dev n = some (ctxStopped s.dev.time why c) ∧ (RunsFor s n → StoppedFor s t why)) ∧
  (∀ (n w at_ : Nat) (c : Context) (s : State), ctxOf s.dev n = some c → c.resumeAt = some at_ → c.state = .stopped w →
    s.dev.fatal = false → s.hart.tr.tip = false → (inContext s.hart n = true → drained s = true ∧ holdsUo s = false) →
    ∃ t, exec (.resumeStart n) s = .next t ∧ ctxOf t.dev n = some (ctxRunning t.dev.time c) ∧
      (∀ r, inContext s.hart n = true → s.hart.thread = .running → s.hart.dbg.stop = some r → r.why ≠ 5 →
        t.hart.dbg.stop = none ∧ (s.hart.tr.prn = false → t.hart.pc = s.hart.pc ∧ t.hart.mode = s.hart.mode) ∧
        (s.hart.tr.prn = true → t.hart.tr.code = 0x14 ∧ t.hart.tr.tval = r.tstop ∧ t.hart.tr.epc = s.hart.pc &&& 0xFFFC ∧
          t.hart.mode = .s ∧ t.hart.pc = s.hart.tr.tvec &&& 0xFFC))) ∧
  (∀ (n : Nat) (c : Context) (s : State), ctxOf s.dev n = some c → c.armed = true →
    (c.state = .running → boundaryReached n s = true → ctxOf (flushFor n (gangStop n 3 s)).dev n ≠ none → ∃ t x, exec (.checkpointBoundary n) s = .next t ∧ ctxOf t.dev n = some x ∧
      x.interval = c.interval + 1 ∧ x.armed = false ∧ x.rolledBack = 0 ∧ x.lines = [] ∧ x.state = .stopped 3 ∧
      x.boundImg.isSome = true ∧ x.resumeAt.isSome = true) ∧
    (∃ t, exec (.checkpointAbandon n) s = .next t ∧ t.hart = s.hart ∧ t.clu = s.clu ∧ ctxOf t.dev n = some { c with armed := false })) ∧
  (∀ (n at_ : Nat) (c : Context) (s : State), ctxOf s.dev n = some c → c.resumeAt = some at_ → inContext s.hart n = true →
    (drained s = false ∨ holdsUo s = true) → exec (.resumeStart n) s = .next s) ∧
  (∀ (n : Nat) (c : Context) (s : State), ctxOf s.dev n = some c → c.mode = 3 →
    (∀ img, c.boundImg = some img → c.rolledBack = 0 → imageBad s c 1 img = false → ∃ t x, exec (.contextRollback n) s = .next t ∧
      ctxOf t.dev n = some x ∧ (c.state = .running ∨ c.state = .saved → x.state = .stopped 4) ∧ x.rolledBack = 1 ∧ x.lines = [] ∧ x.log = img.log ∧ x.winNext = img.winNext ∧
      x.interval = c.interval ∧ x.resumeAt.isSome = true ∧ t.dev.out = s.dev.out ++ [.rollback n c.interval img.time] ∧
      (inContext s.hart n = true → t.hart.regs = img.hart.regs ∧ t.hart.pc = img.hart.pc)) ∧
    ((c.boundImg = none ∨ 1 ≤ c.rolledBack ∨ ∃ g, c.boundImg = some g ∧ imageBad s c 1 g = true) → ∃ t, exec (.contextRollback n) s = .next t ∧
      ctxOf t.dev n = none)) ∧
  (∀ (n reason cause : Nat) (addr : Word) (c : Context) (s : State), ctxOf s.dev n = some c →
    (c.armed = false → ∃ t, exec (.contextKill n reason cause addr) s = .next t ∧ Killed s t c reason cause addr ∧
      (inContext s.hart n = true → t.hart.thread = .idle)) ∧
    (c.armed = true → exec (.contextKill n reason cause addr) s =
      .next { s with waiting := s.waiting ++ [.kill n reason cause addr] }) ∧
    (c.armed = false → mayRetire s c = true → ∃ t, exec (.contextRetire n) s = .next t ∧ Killed s t c 0 0 0)) ∧
  (∀ s, ∃ t, exec .fatalError s = .next t ∧ exec .thermalFatal s = .next t ∧ t.dev.fatal = true ∧
    t.dev.errors.length = s.dev.errors.length + 1 ∧ ∀ n c, ctxOf s.dev n = some c →
      (c.state = .running → (∃ x, ctxOf t.dev n = some x ∧ x.state = .stopped 6) ∧ (RunsFor s n → StoppedFor s t 6)) ∧
      (∀ w, c.state = .stopped w → ∃ x, ctxOf t.dev n = some x ∧ x.state = .stopped 6 ∧ x.resumeAt = none)) ∧
  (∀ s, s.dev.fatal = true → s.dev.dump = none → drained s = true → ∃ t images pre, dumpAll s = .next t ∧
    t.dev.dump = some (images, t.dev.errors) ∧ t.dev.out = pre ++ [.dump t.dev.ports images t.dev.errors]) ∧
  (∀ (e : ErrSite) (s : State), ∃ t, exec (.uncorrectableError e false) s = .next t ∧ t.hart = s.hart ∧ t.clu = s.clu ∧
    t.dev = { s.dev with errors := t.dev.errors } ∧ t.dev.errors.length = s.dev.errors.length + 1) ∧
  (∀ (l : Loc) (s : State), (∀ h, l.space = .ten h → tensorOf s.dev h ≠ none) → ∃ t,
    exec (.uncorrectableError (.data l) true) s = .next t ∧ poisonAt t.dev l 1 = some 0 ∧ t.hart.regs = s.hart.regs) ∧
  (∀ (k : Nat) (x : CmLine) (s : State), s.clu.cm[k]? = some x → x.dirty ≠ 0 → ∃ t,
    exec (.uncorrectableError (.writeback k) true) s = .next t ∧ t.hart.regs = s.hart.regs ∧
      ∀ y ∈ t.clu.cm, ¬ (y.space = x.space ∧ y.line = x.line)) ∧
  (∀ (k g : Nat) (x : CmLine) (s : State), s.clu.cm[k]? = some x → g < 16 → ∃ t,
    exec (.uncorrectableError (.cached k g) true) s = .next t ∧ t.hart = s.hart ∧ t.dev = s.dev ∧
      t.clu.cm[k]? = some { x with poison := x.poison ||| BitVec.ofNat 16 (2 ^ g) }) ∧
  (∀ (h o : Nat) (y : Tensor) (s : State), tensorOf s.dev h = some y →
    exec (.uncorrectableError (.blockMeta h o) true) s =
      exec (.uncorrectableError (.metadata y.ctx) true) (poisonRange ⟨.ten h, o / 1024 * 1024⟩ 1024 s)) ∧
  (∀ (n : Nat) (c : Context) (s : State), ctxOf s.dev n = some c →
    (c.mode = 3 → exec (.uncorrectableError (.metadata n) true) s = exec (.contextRollback n) s) ∧
    (c.mode ≠ 3 → ∃ t, exec (.uncorrectableError (.metadata n) true) s = .next t ∧ Killed s t c 5 0 0)) ∧
  (∀ (b : Nat) (s : State), b < 56 → ∃ t, exec (.uncorrectableError (.bayLogic b) true) s = .next t ∧
    t.dev.lostBays.getLsbD b = true) ∧
  (∀ s, ∃ t, exec (.uncorrectableError .shared true) s = .next t ∧ t.dev.fatal = true) ∧
  (∀ (images : List BootImage) (bad : Nat) (s : State), ∃ t, exec (.resetRelease images bad) s = .next t ∧
    t.dev.ctxs = [] ∧ t.dev.dmem = [] ∧ t.hart.thread = .idle ∧ t.hart.ar.core = s.hart.ar.core ∧ t.dev.powered = true ∧
    t.dev.rbcnt = s.dev.rbcnt ∧ t.dev.dbgok = s.dev.dbgok ∧
    t.dev.booted = (!images.isEmpty && images.all (stageOk s.dev)) ∧ t.dev.verif = t.dev.booted ∧
    t.dev.recovery = !t.dev.booted) ∧
  (∀ (b : BootImage) (s : State), s.dev.recovery = true → s.dev.ports.getLsbD 0 = true → s.dev.booted = false → ∃ t,
    exec (.recoveryImageLoad b) s = .next t ∧ t.hart = s.hart ∧ t.clu = s.clu ∧
    t.dev.booted = stageOk s.dev b ∧ t.dev.recovery = !stageOk s.dev b) ∧
  (∀ (v : Nat) (s : State), s.dev.booted = true → s.dev.rbcnt.toNat < v → v ≤ 255 →
    exec (.rbcntRaise v true) s = .next { s with dev := { s.dev with rbcnt := BitVec.ofNat 8 v } } ∧
    exec (.rbcntRaise v false) s = .next s) ∧
  (∀ (n i : Nat) (c : Context) (p : Peer) (s : State), ctxOf s.dev n = some c → peerOf s n i = some p →
    (keyEnd p < 2 ^ 64 → ∃ t, exec (.sessionKeyRenew n i) s = .next t ∧ t.hart = s.hart ∧ t.clu = s.clu ∧ ctxOf t.dev n = some { c with
      peers := c.peers.map fun q => if q.idx = i then
        { q with sess := Config.sessionKey s.tick, packets := 0, since := BitVec.ofNat 64 (keyEnd p), old := some q.sess } else q }) ∧
    (p.old.isSome = true → ∃ u, exec (.oldKeyExpire n i) s = .next u ∧ u.hart = s.hart ∧ u.clu = s.clu ∧
      ctxOf u.dev n = some { c with peers := c.peers.map fun q => if q.idx = i then { q with old := none } else q })) ∧
  (∀ (k : Nat) (c : Copy) (st : Byte) (n : BitVec 32) (s : State), s.dev.copies[k]? = some c → c.st = .await st n →
    (s.dev.time.toNat ≤ ackEnd s c →
      (engineBehind s c = false → exec (.peerPacketAuthFail k) s = .next (placeCopy c 0x15 0 s)) ∧
      (engineBehind s c = true → exec (.peerPacketAuthFail k) s =
        .next (onCopy c.id (fun c => { c with st := .done 0x15 0 }) s))) ∧
    (ackEnd s c < s.dev.time.toNat → exec (.peerPacketAuthFail k) s = .next (orphanCopy c s))) ∧
  (∀ (d : Int) (s : State), ∃ t, exec (.timeSyncUpdate d) s = .next t ∧ t.hart = s.hart ∧ t.clu = s.clu ∧ t.dev.offset = d ∧
    t.dev.unsync = (if 2000 < d.natAbs then true else if d.natAbs < 1000 then false else s.dev.unsync)) ∧
  (∀ (p : Nat) (s : State), ∃ t, exec (.portFail p) s = .next t ∧ t.hart = s.hart ∧ t.clu = s.clu ∧
    ∀ j, t.dev.ports.getLsbD j = (s.dev.ports.getLsbD j && decide (j ≠ p))) ∧
  (∀ s, exec .thermalThrottle s = .next { s with dev := { s.dev with clock := max 1 (s.dev.clock - 1) } }) ∧
  (∀ s, ∃ t, exec .powerLoss s = .next t ∧ exec .thermalShutdown s = .next t ∧ t.dev.powered = false ∧ t.dev.ctxs = [] ∧
    t.dev.dmem = [] ∧ t.dev.ls = [] ∧ t.dev.scr = [] ∧ t.hart.thread = .idle ∧ t.waiting = [] ∧ t.dev.rbcnt = s.dev.rbcnt) ∧
  (∀ (n i : Nat) (key : BitVec 256) (va : Word) (bytes : List Byte) (s u : State), u = ageKey n i s →
    ((∀ p, peerOf u n i = some p → keyAccepted u.dev.time key p = false) →
      exec (.peerWriteArrival ⟨n, i, key⟩ va bytes) s = .next u) ∧
    ((∀ p ∈ lineParts va.toNat bytes.length, recallTables n p.1 u = u) →
      (peerParts u n va bytes = none → exec (.peerWriteArrival ⟨n, i, key⟩ va bytes) s = .next u) ∧
      (∀ p l, peerOf u n i = some p → keyAccepted u.dev.time key p = true → peerParts u n va bytes = some [(l, bytes)] →
        MemoriesOk u → (∀ k, homeOwner u.dev l = some k → NoLines u k) → ∃ t,
        exec (.peerWriteArrival ⟨n, i, key⟩ va bytes) s = .next t ∧ rawBytes t.dev l bytes.length = bytes ∧
        t.dev.out = u.dev.out ++ [.ack n va] ∧ t.hart.regs = u.hart.regs)))

namespace Sys2Proof.Machine

/-! ## The remote command service -/

/-- The sub-commands of DEBUG, each with the command that it is (R428). -/
noncomputable def debugRows (c : HostCmd) : List (Instr × HostCmd) :=
  [(.debugAttach c, debugCmd 1 c), (.debugStop c, debugCmd 2 c), (.debugContinue c, debugCmd 3 c), (.debugStep c, debugCmd 4 c),
    (.debugRstep c, debugCmd 5 c), (.debugRwindow c, debugCmd 6 c), (.debugRead c, debugCmd 7 c), (.debugWrite c, debugCmd 8 c),
    (.debugBreak c, debugCmd 9 c), (.debugTrapstep c, debugCmd 10 c), (.debugRecords c, debugCmd 11 c)]

/-- The commands that the owner of a context gives, each under its own code (R427). -/
noncomputable def ownerRows (c : HostCmd) : List (Instr × HostCmd) :=
  [(.destroy c, coded 0x11 c), (.map c, chosen 0x12 false c), (.unmap c, chosen 0x12 true c), (.launch c, coded 0x13 c),
    (.exportT c, chosen 0x14 false c), (.importT c, chosen 0x14 true c), (.preempt c, chosen 0x15 false c),
    (.resume c, chosen 0x15 true c), (.safesave c, coded 0x16 c), (.setpeer c, coded 0x17 c), (.setlog c, coded 0x19 c),
    (.trdrain c, coded 0x1A c)] ++ debugRows c

/-- Every command of the table. -/
noncomputable def commandRows (c : HostCmd) : List (Instr × HostCmd) :=
  [(.ident c, coded 0x01 c), (.quote c, coded 0x02 c), (.errread c, coded 0x03 c), (.create c, coded 0x10 c)] ++ ownerRows c

/-- A command that waits for nothing (R426). -/
def Arrives (k : HostCmd) (s : State) : Prop := sessionWaits k s = false ∧ cmdBlocked k s = false

/-- A command that arrives, encrypted, on the owner's session of a context of a booted device (R424, R426). -/
def Owned (k : HostCmd) (s : State) (x : Context) : Prop :=
  Arrives k s ∧ s.dev.booted = true ∧ k.enc = true ∧ ownerCtxOf k s = some x

/-- A sub-command of DEBUG on this core, stopped with WHY = 5, of a context created with DBG (R427, R428). -/
def OnStopped (k : HostCmd) (s : State) (x : Context) : Prop :=
  Owned k s x ∧ x.dbg = true ∧ (k.arg0 = 8 ∨ noData k = true) ∧ debugStopped s x k.arg1.toNat = true

/-- `t` is `s` with one answer sent (R426): the response is the last thing that has left the ports. -/
def Answers (s t : State) (c : HostCmd) (status : Nat) (v : Word) (data : List Byte) : Prop :=
  t.dev.out = s.dev.out ++ [.response c.session c.seq status v data]

end Sys2Proof.Machine

/-- R369, R370, R378, R393 to R400, R426 to R431, R436 to R439. The model's choices in it: log 76, 77, 78, 80 to 85, 107. -/
def Obligations.HostCommandsComplete : Prop :=
  (∀ (c : HostCmd) (s : State), ∀ p ∈ commandRows c, (sessionWaits p.2 s = true ∨ cmdBlocked p.2 s = true) →
    exec p.1 s = .next { s with waiting := s.waiting ++ [.cmd p.2] }) ∧
  (∀ (c : HostCmd) (s : State), s.dev.booted = true → c.enc = true → ∀ p ∈ ownerRows c, Arrives p.2 s → ownerCtxOf p.2 s = none →
    exec p.1 s = .next (respond c 5 0 [] s)) ∧
  (∀ (c : HostCmd) (s : State), (s.dev.booted = false ∨ c.enc = false) → ∀ p ∈ ownerRows c, Arrives p.2 s → exec p.1 s = .next s) ∧
  (∀ (c : HostCmd) (x : Context) (s : State), x.dbg = false → ∀ p ∈ debugRows c, Owned p.2 s x →
    exec p.1 s = .next (respond c 5 0 [] s)) ∧
  (∀ (c : HostCmd) (s : State), (s.dev.booted = true ∨ s.dev.recovery = true) →
    (Arrives (coded 0x01 c) s → exec (.ident c) s = .next (if c.arg0 = 0 ∧ c.arg1 = 0 ∧ c.arg2 = 0 ∧ noData c = true then
      respond c 0 (s.dev.fwver.setWidth 64) (certChain s.dev) s else respond c 5 0 [] s)) ∧
    (Arrives (coded 0x02 c) s → (∀ b ∈ c.data.drop 24, b = 0) → ∃ t, exec (.quote c) s = .next t ∧ t.hart = s.hart ∧ t.clu = s.clu ∧
      Answers s t c 0 0 (quoteBody c t.dev ++
        natBytes 96 (Config.signature (stageRegs t.dev) (quoteBody c t.dev)).toNat)) ∧
    (Arrives (coded 0x03 c) s → exec (.errread c) s = .next (if c.arg2 = 0 ∧ noData c = true then respond c 0
      (BitVec.ofNat 64 ((s.dev.errors.drop c.arg0.toNat).take c.arg1.toNat).length)
      ((s.dev.errors.drop c.arg0.toNat).take c.arg1.toNat) s else respond c 5 0 [] s))) ∧
  (∀ (c : HostCmd) (s : State), Arrives (coded 0x10 c) s → s.dev.booted = true →
    (∀ n, c.enc = true → c.arg0 = 0 → c.arg1 = 0 → c.arg2 = 0 → blockLegal s.dev c.data = true → freeNumber s.dev = some n →
      ∃ t, exec (.create c) s = .next t ∧
        ((newContext n c.session c.data).mode ≠ 3 → Answers s t c 0 (BitVec.ofNat 64 n) [] ∧
          ctxOf t.dev n = some { newContext n c.session c.data with
            serial := s.dev.nextSerial, key := some (Config.drawnKey s.tick), born := s.dev.cycle, since := s.dev.time }) ∧
        (∀ x, ctxOf t.dev n = some x → x.mode = 3 → x.boundImg.isSome = true)) ∧
    ((c.enc = false ∨ ¬ (c.arg0 = 0 ∧ c.arg1 = 0 ∧ c.arg2 = 0) ∨ blockLegal s.dev c.data = false ∨ freeNumber s.dev = none) →
      exec (.create c) s = .next (respond c 5 0 [] s))) ∧
  (∀ (c : HostCmd) (x : Context) (s : State), Owned (coded 0x11 c) s x → c.arg0 = 0 → c.arg1 = 0 → c.arg2 = 0 →
    noData c = true → ∃ t, exec (.destroy c) s = .next t ∧ ctxOf t.dev c.ctx = none ∧ t.dev.out = s.dev.out ++
      [.kill c.ctx (killRecord 1 0 0xFFFF x.interval s.dev.time 0 x.orphaned x.unret), .response c.session c.seq 0 0 []]) ∧
  (∀ (c : HostCmd) (x : Context) (sz lvl : Nat) (s : State), Owned (chosen 0x12 false c) s x →
    mapArgs (chosen 0x12 false c) = some (sz, lvl) → bits c.arg2 41 40 ≤ 1 → noData c = true → exec (.map c) s =
      .next (match mapPages x (chosen 0x12 false c) sz lvl (pageCount c.arg2) 0 s.dev with
        | some d => respond c 0 (BitVec.ofNat 64 (pageCount c.arg2)) [] { s with dev := d }
        | none => respond c 5 0 [] s)) ∧
  (∀ (c : HostCmd) (x : Context) (sz lvl : Nat) (s : State), Owned (chosen 0x12 true c) s x →
    mapArgs (chosen 0x12 true c) = some (sz, lvl) → c.arg1 = 0 → noData c = true → ∃ t n, exec (.unmap c) s = .next t ∧
      Answers s t c 0 (BitVec.ofNat 64 n) [] ∧
      n = (unmapPages x (chosen 0x12 true c) sz lvl (pageCount c.arg2) 0 0 s.dev).1 ∧
      (inContext s.hart x.num = true → ∀ e ∈ t.clu.tlb, inPages (chosen 0x12 true c) e.vframe = false) ∧ t.hart = s.hart) ∧
  (∀ (c : HostCmd) (x : Context) (s u : State), Owned (coded 0x13 c) s x → c.arg1 = 0 → c.arg2 = 0 → noData c = true →
    areasMapped s.dev x = true → u = uoRecallAll (fun _ => true) s →
    (∀ e, readVa u x.num c.arg0.toNat 128 = .error e → exec (.launch c) s = .next (respond c (causeCode e.1).toNat 0 [] u)) ∧
    (∀ r, readVa u x.num c.arg0.toNat 128 = .ok r →
      (∀ o, firstBroken (launchRules u.dev x.num r) = some o → exec (.launch c) s = .next (respond c 5 (BitVec.ofNat 64 o) [] u)) ∧
      (firstBroken (launchRules u.dev x.num r) = none → ∃ t, exec (.launch c) s = .next t ∧
        Answers u t c 0 (BitVec.ofNat 64 x.nextLaunch) [] ∧ t.hart = u.hart ∧ t.clu = u.clu ∧
        ∀ y, ctxOf u.dev c.ctx = some y → ctxOf t.dev c.ctx = some { y with
          nextLaunch := y.nextLaunch + 1, launches := y.launches ++ [⟨y.nextLaunch, r, 0, none⟩] }))) ∧
  (∀ (c : HostCmd) (x : Context) (y : Tensor) (s : State), let n := bits c.arg2 39 0
    let l : Loc := ⟨.ten y.h, c.arg1.toNat⟩
    let id := s.dev.nextEng
    let u := onDev (fun d => { d with nextEng := id + 1 }) (placeEngine id y.h s)
    (Owned (chosen 0x14 false c) s x → hostTensor (chosen 0x14 false c) x s = .ok y → noData c = true →
      (xferReady id (chosen 0x14 false c) u = false → exec (.exportT c) s =
        .next { u with waiting := u.waiting ++ [.xfer id (chosen 0x14 false c)] }) ∧
      (xferReady id (chosen 0x14 false c) u = true → copyDead u id [y.h] = none → (∀ e ∈ s.clu.cm, e.uo = none) →
        ∃ t, exec (.exportT c) s = .next t ∧ ((poisonAt t.dev l n).isSome = true → Answers s t c 0x0C 0 []) ∧
          (poisonAt t.dev l n = none → Answers s t c 0 (BitVec.ofNat 64 n) (rawBytes t.dev l n)))) ∧
    (Owned (chosen 0x14 true c) s x → hostTensor (chosen 0x14 true c) x s = .ok y → c.data.length = n →
      (xferReady id (chosen 0x14 true c) u = false → exec (.importT c) s =
        .next { u with waiting := u.waiting ++ [.xfer id (chosen 0x14 true c)] }) ∧
      (xferReady id (chosen 0x14 true c) u = true → copyDead u id [y.h] = none → (∀ e ∈ s.clu.cm, e.uo = none) → NoLines s y.ctx →
        ∃ t, exec (.importT c) s = .next t ∧ Answers s t c 0 (BitVec.ofNat 64 n) [] ∧
          (Memory.wf y.data = true → rawBytes t.dev l n = c.data))) ∧
    (∀ e, Owned (chosen 0x14 false c) s x → noData c = true → hostTensor (chosen 0x14 false c) x s = .error e →
      exec (.exportT c) s = .next (respond c e 0 [] s))) ∧
  (∀ (c : HostCmd) (x : Context) (s : State), Owned (chosen 0x15 false c) s x → c.arg0 = 0 → c.arg1 = 0 → bits c.arg2 62 0 = 0 →
    noData c = true → ∃ t, exec (.preempt c) s = .next t ∧ t.hart = s.hart ∧ t.clu = s.clu ∧
    (x.state = .running → ∃ u, u = x.switchAt.getD (switchTime t.dev.time) ∧ Answers s t c 0 (BitVec.ofNat 64 u) [] ∧
      ctxOf t.dev c.ctx = some { x with switchAt := some u, spent := false }) ∧
    (x.state = .stopped 2 → Answers s t c 0 (BitVec.ofNat 64 (switchTime t.dev.time)) [] ∧
      ctxOf t.dev c.ctx = some { x with resumeAt := none, spent := false })) ∧
  (∀ (c : HostCmd) (x : Context) (s : State), Owned (chosen 0x15 true c) s x → c.arg0 = 0 → c.arg1.toNat ≤ 1 →
    bits c.arg2 62 0 = 0 → noData c = true → s.dev.fatal = false → ∃ t, exec (.resume c) s = .next t ∧
    (∀ w, x.state = .stopped w → w ≠ 5 → Answers s t c 0 (BitVec.ofNat 64 (switchTime t.dev.time)) [] ∧
      ctxOf t.dev c.ctx = some { x with resumeAt := some (switchTime t.dev.time) } ∧
      t.hart.tr.prn = (s.hart.tr.prn || (c.arg1 == 1 && inContext s.hart x.num))) ∧
    (∀ g, x.state = .saved → x.switchImg = some g → imageBad s x 0 g = false →
      Answers s t c 0 (BitVec.ofNat 64 (switchTime t.dev.time)) [] ∧
      ctxOf t.dev c.ctx = some { x with state := .stopped 2, resumeAt := some (switchTime t.dev.time) } ∧
      (inContext s.hart x.num = true → t.hart.regs = g.hart.regs ∧ t.hart.pc = g.hart.pc)) ∧
    (x.state = .saved → (x.switchImg = none ∨ ∃ g, x.switchImg = some g ∧ imageBad s x 0 g = true) → ctxOf t.dev c.ctx = none) ∧
    (x.state = .running → Answers s t c 5 0 [] ∧ t.dev.ctxs = s.dev.ctxs)) ∧
  (∀ (c : HostCmd) (x : Context) (s : State), Owned (coded 0x16 c) s x → c.arg1 = 0 → c.arg2 = 0 → noData c = true →
    exec (.safesave c) s = .next { s with dev := { s.dev with out := s.dev.out ++
      [.safe x.num c.arg0 x.boundImg (contextMem s.dev x) (tensorsOf s.dev x),
        .response c.session c.seq 0 (BitVec.ofNat 64 (safeSize s.dev x)) []] } }) ∧
  (∀ (d : Device) (x : Context), (∀ y, y ∈ tensorsOf d x ↔ y ∈ d.tensors ∧ y.ctx = x.num) ∧
    ∀ e, e ∈ contextMem d x ↔ e ∈ d.dmem ∧ ((e.1 / 65536, Owner.ctx x.num) ∈ d.owners ∨ e.1 / 4096 = x.root / 4096 ∨
      ∃ p, (p, some x.num) ∈ d.tables ∧ p / 4096 = e.1 / 4096)) ∧
  (∀ (c : HostCmd) (x : Context) (s : State), Owned (coded 0x17 c) s x → c.arg0 &&& ~~~0x13F#64 = 0 → c.arg2 = 0 →
    (if c.arg0.getLsbD 8 = true then noData c = true else c.data.length = 96) → ∃ t, exec (.setpeer c) s = .next t ∧ Answers s t c 0 0 [] ∧
      t.hart = s.hart ∧ t.clu = s.clu ∧ ctxOf t.dev c.ctx = some { x with
        peers := (x.peers.filter fun p => p.idx != bits c.arg0 5 0) ++
          if c.arg0.getLsbD 8 then [] else [⟨bits c.arg0 5 0, c.arg1, c.data, Config.sessionKey s.tick, 0, s.dev.time, none⟩] }) ∧
  (∀ (c : HostCmd) (x : Context) (s : State), Owned (coded 0x19 c) s x → c.arg0.toNat < 12 → c.arg1 = 0 → c.arg2 = 0 →
    noData c = true → contextBusy s x = false → ∃ t, exec (.setlog c) s = .next t ∧
      (c.arg0.setWidth 2 ≠ (3 : BitVec 2) → Answers s t c 0 0 [] ∧ ∃ y, ctxOf t.dev c.ctx = some y ∧
        y.mode = c.arg0.setWidth 2 ∧ y.policy = BitVec.ofNat 2 (c.arg0.toNat / 4) ∧
        (x.mode = 3 → y.lines = [] ∧ y.boundImg = none)) ∧
      (c.arg0.setWidth 2 = (3 : BitVec 2) → x.mode ≠ 3 → ∀ y, ctxOf t.dev c.ctx = some y →
        y.mode = 3 ∧ y.interval = x.interval + 1 ∧ y.boundImg.isSome = true)) ∧
  (∀ (c : HostCmd) (x : Context) (s : State), Owned (coded 0x1A c) s x → c.arg0.toNat % 64 = 0 → c.arg1 = 0 → c.arg2 = 0 →
    noData c = true → ∃ t bs n, exec (.trdrain c) s = .next t ∧ n = min c.arg0.toNat (x.sinkTail - x.sinkHead) ∧
      Answers s t c 0 (BitVec.ofNat 64 n) bs ∧ bs.length = n / 64 * 64 ∧ t.hart = s.hart ∧ t.clu = s.clu ∧
      ctxOf t.dev c.ctx = some { x with sinkHead := x.sinkHead + n }) ∧
  (∀ (c : HostCmd) (s : State), knownCode c.code = false → Arrives c s → s.dev.booted = true →
    exec (.unknownCommand c) s = .next (respond c 0xFF 0 [] s)) ∧
  (∀ (c : HostCmd) (x : Context) (s : State), Owned (debugCmd 1 c) s x → x.dbg = true → c.arg1.toNat ≤ 1 → c.arg2 = 0 →
    noData c = true → ∃ t, exec (.debugAttach c) s = .next t ∧ Answers s t c 0 0 [] ∧ t.hart = s.hart ∧
      ctxOf t.dev c.ctx = some { x with attached := c.arg1 == 1 }) ∧
  (∀ (c : HostCmd) (x : Context) (s : State), Owned (debugCmd 2 c) s x → x.dbg = true → c.arg1 = 0 → c.arg2 = 0 →
    noData c = true → x.state = .running → ∃ t bs, exec (.debugStop c) s = .next t ∧ Answers s t c 0 0 bs ∧
      ctxOf t.dev c.ctx = some (ctxStopped s.dev.time 5 x) ∧ (RunsFor s x.num → StoppedFor s t 5 ∧
        ∀ r g, t.hart.dbg.stop = some r → x.busy = [(s.hart.ar.core, g)] → bs = stopBytes r)) ∧
  (∀ (c : HostCmd) (x : Context) (s : State), Owned (debugCmd 3 c) s x → x.dbg = true → c.arg1 = 0 → c.arg2 = 0 →
    noData c = true → x.state = .stopped 5 → s.dev.fatal = false → ∃ t y, exec (.debugContinue c) s = .next t ∧ Answers s t c 0 0 [] ∧
      ctxOf t.dev c.ctx = some y ∧ y.state = .running ∧
      (debugStopped s x s.hart.ar.core = true → t.hart.dbg.stop = none ∧ t.hart.pc = s.hart.pc ∧ t.hart.regs = s.hart.regs)) ∧
  (∀ (c : HostCmd) (x : Context) (s : State), OnStopped (debugCmd 4 c) s x → c.arg2 ≠ 0 → c.arg2.toNat ≤ 65535 → s.dev.fatal = false →
    ∃ t, exec (.debugStep c) s = .next t ∧ t.hart.dbg.stop = none ∧ t.hart.pc = s.hart.pc ∧ t.dev.out = s.dev.out ∧
      t.hart.dbg.stepping = some ⟨c.session, c.seq, c.arg2.toNat, 0, x.state == .stopped 5, s.dev.time⟩) ∧
  (∀ (c : HostCmd) (x : Context) (s : State), OnStopped (debugCmd 5 c) s x → c.arg2 = 1 →
    (∀ t l, reverseStep x.num s = .ok (t, l) → exec (.debugRstep c) s = .next (respond c 0 1 l t)) ∧
    (∀ r, reverseStep x.num s = .error r → exec (.debugRstep c) s = .next (respond c 0 0 [Config.reversalReason r] s))) ∧
  (∀ (top g : List RingEntry) (older : List (List RingEntry)) (e : RingEntry) (rep : List Byte) (s t : State), reverseStep s.hart.ar.ctx s = .ok (t, rep) → LogHolds s →
    ringGroups s.hart.tc.ring [] [] = top :: older → (undoSpan older 0 [] [top]).getLast? = some g → firstOf g = some e →
    t.hart.pc = e.pc ∧ t.hart.tc.icount = s.hart.tc.icount - BitVec.ofNat 64 (undoSpan older 0 [] [top]).length ∧
    t.hart.frame = none) ∧
  (∀ (c : HostCmd) (x : Context) (s : State), Owned (debugCmd 6 c) s x → x.dbg = true → noData c = true → bits c.arg1 63 16 = 0 →
    bits c.arg2 63 29 = 0 → bits c.arg2 15 13 = 0 → bits c.arg2 28 16 = 1 → debugStopped s x (bits c.arg2 12 0) = true →
    ∀ m l r t, reverseSteps x.num (fun e => !windowOlder e.win (c.arg1.setWidth 16)) (s.hart.tc.ring.length + 1) 0 [] s = (m, l, r, t) →
      exec (.debugRwindow c) s = .next (respond c 0 (BitVec.ofNat 64 m) (l ++ windowReport t r) t)) ∧
  (∀ (c : HostCmd) (x : Context) (k : Nat) (s : State), (OnStopped (debugCmd 7 c) s x → debugAt s (debugCmd 7 c) x = some (.reg k) →
      exec (.debugRead c) s = .next (respond c 0 0 (natBytes 128 (regOld s k).1.toNat) s)) ∧
    (∀ l, OnStopped (debugCmd 7 c) s x → debugAt s (debugCmd 7 c) x = some (.mem l) → exec (.debugRead c) s = .next
      (if poisonAt s.dev l 128 = none then respond c 0 0 (rawBytes s.dev l 128) s else respond c 0x0C 0 [] s)) ∧
    (∀ a bs, Owned (debugCmd 7 c) s x → x.dbg = true → noData c = true → debugAt s (debugCmd 7 c) x = some (.va a) → readVa s x.num a 128 = .ok bs →
      exec (.debugRead c) s = .next (respond c 0 0 bs s)) ∧
    (∀ a, OnStopped (debugCmd 7 c) s x → debugAt s (debugCmd 7 c) x = some (.csr a) → csrAllowed .m a false = true →
      exec (.debugRead c) s = .next (respond c 0 0 (natBytes 128 (csrRead a s).1.toNat) (csrRead a s).2)) ∧
    (∀ l, OnStopped (debugCmd 8 c) s x → c.data.length = 128 → debugAt s (debugCmd 8 c) x = some (.mem l) →
      exec (.debugWrite c) s = .next (respond c 0 0 [] (plainWrite l c.data s))) ∧
    (OnStopped (debugCmd 8 c) s x → c.data.length = 128 → debugAt s (debugCmd 8 c) x = some (.reg k) →
      exec (.debugWrite c) s = .next (respond c 0 0 [] (putReg k (BitVec.ofNat 1024 (bytesNat c.data)) s)))) ∧
  (∀ (c : HostCmd) (x : Context) (i : Nat) (s : State), OnStopped (debugCmd 9 c) s x → bits c.arg2 63 16 = 0 →
    c.arg2.getLsbD 1 = false → c.arg2.getLsbD 0 = true → bpFind s (· == none) = some i → ∃ t, exec (.debugBreak c) s = .next t ∧
      Answers s t c 0 (BitVec.ofNat 64 i) [] ∧ t.hart.dbg.bps[i]? = some (some (c.arg2.setWidth 16 &&& 0xFFFC)) ∧
      t.hart.regs = s.hart.regs ∧ t.hart.pc = s.hart.pc) ∧
  (∀ (c : HostCmd) (x : Context) (s : State), OnStopped (debugCmd 10 c) s x → c.arg2.toNat ≤ 1 → exec (.debugTrapstep c) s =
    .next (respond c 0 0 [] { s with hart := { s.hart with dbg := { s.hart.dbg with trapStep := c.arg2 == 1 } } })) ∧
  (∀ (c : HostCmd) (x : Context) (s : State), Owned (debugCmd 11 c) s x → x.dbg = true → c.arg1 = 0 → c.arg2 = 0 →
    noData c = true → (∃ t bs, exec (.debugRecords c) s = .next t ∧ Answers s t c 0 0 bs ∧ t.hart = s.hart) ∧
    ∀ g, x.busy = [(s.hart.ar.core, g)] → exec (.debugRecords c) s = .next (respond c 0 0
      ((match x.trigger with | some t => triggerBytes t | none => List.replicate 32 0) ++
        match ownStop s x with | some r => stopBytes r ++ skidBytes s.hart r | none => []) s)) ∧
  (∀ (c : HostCmd) (x : Context) (s : State), Owned (debugCmd 10 c) s x → x.dbg = true → noData c = true → c.arg2.toNat ≤ 1 →
    otherStopped s x c.arg1.toNat = true → exec (.debugTrapstep c) s = .next (respond c 0 0 [] s)) ∧
  (∀ (c : HostCmd) (x : Context) (s : State), s.dev.fatal = true →
    (Owned (debugCmd 3 c) s x → x.dbg = true → noData c = true → exec (.debugContinue c) s = .next (respond c 5 0 [] s)) ∧
    (OnStopped (debugCmd 4 c) s x → exec (.debugStep c) s = .next (respond c 5 0 [] s))) ∧
  (∀ (c : HostCmd) (x : Context) (s : State), x.dbg = true → noData c = true → otherStopped s x c.arg1.toNat = true →
    (Owned (debugCmd 5 c) s x → ∃ t v l, exec (.debugRstep c) s = .next t ∧ Answers s t c 0 v l ∧ v.toNat ≤ c.arg2.toNat ∧
      t.hart = s.hart) ∧
    (Owned (debugCmd 9 c) s x → bits c.arg2 63 16 = 0 → c.arg2.getLsbD 1 = false → ∃ t v, exec (.debugBreak c) s = .next t ∧
      Answers s t c 0 v [] ∧ (v.toNat < 8 ∨ v = BitVec.allOnes 64) ∧ t.hart = s.hart) ∧
    (Owned (debugCmd 4 c) s x → c.arg2 ≠ 0 → c.arg2.toNat ≤ 65535 → s.dev.fatal = false → ∃ t v, exec (.debugStep c) s = .next t ∧
      Answers s t c 0 v [] ∧ v.toNat ≤ c.arg2.toNat ∧ t.hart = s.hart))
end

