-- ==== Sys2Proof/Laws/Decode.lean ====
section
/-! SUPPORT. The fields of each form's word (R29), read back: the decoder finds the encoder's fields where they are. -/

namespace Sys2Proof.Laws

/-! Form X -/

theorem fld_encX_fn (m : BitVec 7) (d : BitVec 5) (a : BitVec 5) (b : BitVec 5) (la : BitVec 4) (fn : BitVec 6) :
    fld (encX m d a b la fn) 0 6 = fn := by
  unfold encX fld; ext i hi; simp only [BitVec.getElem_extractLsb', BitVec.getLsbD_append]
  rw [if_pos (by omega), ← BitVec.getLsbD_eq_getElem]; congr 1; omega

theorem fld_encX_la (m : BitVec 7) (d : BitVec 5) (a : BitVec 5) (b : BitVec 5) (la : BitVec 4) (fn : BitVec 6) :
    fld (encX m d a b la fn) 6 4 = la := by
  unfold encX fld; ext i hi; simp only [BitVec.getElem_extractLsb', BitVec.getLsbD_append]
  rw [if_neg (by omega), if_pos (by omega), ← BitVec.getLsbD_eq_getElem]; congr 1; omega

theorem fld_encX_b (m : BitVec 7) (d : BitVec 5) (a : BitVec 5) (b : BitVec 5) (la : BitVec 4) (fn : BitVec 6) :
    fld (encX m d a b la fn) 10 5 = b := by
  unfold encX fld; ext i hi; simp only [BitVec.getElem_extractLsb', BitVec.getLsbD_append]
  rw [if_neg (by omega), if_neg (by omega), if_pos (by omega), ← BitVec.getLsbD_eq_getElem]; congr 1; omega

theorem fld_encX_a (m : BitVec 7) (d : BitVec 5) (a : BitVec 5) (b : BitVec 5) (la : BitVec 4) (fn : BitVec 6) :
    fld (encX m d a b la fn) 15 5 = a := by
  unfold encX fld; ext i hi; simp only [BitVec.getElem_extractLsb', BitVec.getLsbD_append]
  rw [if_neg (by omega), if_neg (by omega), if_neg (by omega), if_pos (by omega), ← BitVec.getLsbD_eq_getElem]; congr 1; omega

theorem fld_encX_d (m : BitVec 7) (d : BitVec 5) (a : BitVec 5) (b : BitVec 5) (la : BitVec 4) (fn : BitVec 6) :
    fld (encX m d a b la fn) 20 5 = d := by
  unfold encX fld; ext i hi; simp only [BitVec.getElem_extractLsb', BitVec.getLsbD_append]
  rw [if_neg (by omega), if_neg (by omega), if_neg (by omega), if_neg (by omega), if_pos (by omega), ← BitVec.getLsbD_eq_getElem]; congr 1; omega

theorem fld_encX_m (m : BitVec 7) (d : BitVec 5) (a : BitVec 5) (b : BitVec 5) (la : BitVec 4) (fn : BitVec 6) :
    fld (encX m d a b la fn) 25 7 = m := by
  unfold encX fld; ext i hi; simp only [BitVec.getElem_extractLsb', BitVec.getLsbD_append]
  rw [if_neg (by omega), if_neg (by omega), if_neg (by omega), if_neg (by omega), if_neg (by omega), ← BitVec.getLsbD_eq_getElem]; congr 1; omega

/-! Form SI -/

theorem fld_encSI_imm (m : BitVec 7) (d : BitVec 5) (a : BitVec 5) (imm : BitVec 15) :
    fld (encSI m d a imm) 0 15 = imm := by
  unfold encSI fld; ext i hi; simp only [BitVec.getElem_extractLsb', BitVec.getLsbD_append]
  rw [if_pos (by omega), ← BitVec.getLsbD_eq_getElem]; congr 1; omega

theorem fld_encSI_a (m : BitVec 7) (d : BitVec 5) (a : BitVec 5) (imm : BitVec 15) :
    fld (encSI m d a imm) 15 5 = a := by
  unfold encSI fld; ext i hi; simp only [BitVec.getElem_extractLsb', BitVec.getLsbD_append]
  rw [if_neg (by omega), if_pos (by omega), ← BitVec.getLsbD_eq_getElem]; congr 1; omega

theorem fld_encSI_d (m : BitVec 7) (d : BitVec 5) (a : BitVec 5) (imm : BitVec 15) :
    fld (encSI m d a imm) 20 5 = d := by
  unfold encSI fld; ext i hi; simp only [BitVec.getElem_extractLsb', BitVec.getLsbD_append]
  rw [if_neg (by omega), if_neg (by omega), if_pos (by omega), ← BitVec.getLsbD_eq_getElem]; congr 1; omega

theorem fld_encSI_m (m : BitVec 7) (d : BitVec 5) (a : BitVec 5) (imm : BitVec 15) :
    fld (encSI m d a imm) 25 7 = m := by
  unfold encSI fld; ext i hi; simp only [BitVec.getElem_extractLsb', BitVec.getLsbD_append]
  rw [if_neg (by omega), if_neg (by omega), if_neg (by omega), ← BitVec.getLsbD_eq_getElem]; congr 1; omega

/-! Form SB -/

theorem fld_encSB_o (m : BitVec 7) (a : BitVec 5) (b : BitVec 5) (cond : BitVec 3) (o : BitVec 12) :
    fld (encSB m a b cond o) 0 12 = o := by
  unfold encSB fld; ext i hi; simp only [BitVec.getElem_extractLsb', BitVec.getLsbD_append]
  rw [if_pos (by omega), ← BitVec.getLsbD_eq_getElem]; congr 1; omega

theorem fld_encSB_cond (m : BitVec 7) (a : BitVec 5) (b : BitVec 5) (cond : BitVec 3) (o : BitVec 12) :
    fld (encSB m a b cond o) 12 3 = cond := by
  unfold encSB fld; ext i hi; simp only [BitVec.getElem_extractLsb', BitVec.getLsbD_append]
  rw [if_neg (by omega), if_pos (by omega), ← BitVec.getLsbD_eq_getElem]; congr 1; omega

theorem fld_encSB_b (m : BitVec 7) (a : BitVec 5) (b : BitVec 5) (cond : BitVec 3) (o : BitVec 12) :
    fld (encSB m a b cond o) 15 5 = b := by
  unfold encSB fld; ext i hi; simp only [BitVec.getElem_extractLsb', BitVec.getLsbD_append]
  rw [if_neg (by omega), if_neg (by omega), if_pos (by omega), ← BitVec.getLsbD_eq_getElem]; congr 1; omega

theorem fld_encSB_a (m : BitVec 7) (a : BitVec 5) (b : BitVec 5) (cond : BitVec 3) (o : BitVec 12) :
    fld (encSB m a b cond o) 20 5 = a := by
  unfold encSB fld; ext i hi; simp only [BitVec.getElem_extractLsb', BitVec.getLsbD_append]
  rw [if_neg (by omega), if_neg (by omega), if_neg (by omega), if_pos (by omega), ← BitVec.getLsbD_eq_getElem]; congr 1; omega

theorem fld_encSB_m (m : BitVec 7) (a : BitVec 5) (b : BitVec 5) (cond : BitVec 3) (o : BitVec 12) :
    fld (encSB m a b cond o) 25 7 = m := by
  unfold encSB fld; ext i hi; simp only [BitVec.getElem_extractLsb', BitVec.getLsbD_append]
  rw [if_neg (by omega), if_neg (by omega), if_neg (by omega), if_neg (by omega), ← BitVec.getLsbD_eq_getElem]; congr 1; omega

/-! Form SJ -/

theorem fld_encSJ_imm (m : BitVec 7) (d : BitVec 5) (imm : BitVec 20) :
    fld (encSJ m d imm) 0 20 = imm := by
  unfold encSJ fld; ext i hi; simp only [BitVec.getElem_extractLsb', BitVec.getLsbD_append]
  rw [if_pos (by omega), ← BitVec.getLsbD_eq_getElem]; congr 1; omega

theorem fld_encSJ_d (m : BitVec 7) (d : BitVec 5) (imm : BitVec 20) :
    fld (encSJ m d imm) 20 5 = d := by
  unfold encSJ fld; ext i hi; simp only [BitVec.getElem_extractLsb', BitVec.getLsbD_append]
  rw [if_neg (by omega), if_pos (by omega), ← BitVec.getLsbD_eq_getElem]; congr 1; omega

theorem fld_encSJ_m (m : BitVec 7) (d : BitVec 5) (imm : BitVec 20) :
    fld (encSJ m d imm) 25 7 = m := by
  unfold encSJ fld; ext i hi; simp only [BitVec.getElem_extractLsb', BitVec.getLsbD_append]
  rw [if_neg (by omega), if_neg (by omega), ← BitVec.getLsbD_eq_getElem]; congr 1; omega

/-! Form VR -/

theorem fld_encVR_km (m : BitVec 7) (d : BitVec 5) (a : BitVec 7) (b : BitVec 7) (ty : BitVec 4) (km : BitVec 2) :
    fld (encVR m d a b ty km) 0 2 = km := by
  unfold encVR fld; ext i hi; simp only [BitVec.getElem_extractLsb', BitVec.getLsbD_append]
  rw [if_pos (by omega), ← BitVec.getLsbD_eq_getElem]; congr 1; omega

theorem fld_encVR_ty (m : BitVec 7) (d : BitVec 5) (a : BitVec 7) (b : BitVec 7) (ty : BitVec 4) (km : BitVec 2) :
    fld (encVR m d a b ty km) 2 4 = ty := by
  unfold encVR fld; ext i hi; simp only [BitVec.getElem_extractLsb', BitVec.getLsbD_append]
  rw [if_neg (by omega), if_pos (by omega), ← BitVec.getLsbD_eq_getElem]; congr 1; omega

theorem fld_encVR_b (m : BitVec 7) (d : BitVec 5) (a : BitVec 7) (b : BitVec 7) (ty : BitVec 4) (km : BitVec 2) :
    fld (encVR m d a b ty km) 6 7 = b := by
  unfold encVR fld; ext i hi; simp only [BitVec.getElem_extractLsb', BitVec.getLsbD_append]
  rw [if_neg (by omega), if_neg (by omega), if_pos (by omega), ← BitVec.getLsbD_eq_getElem]; congr 1; omega

theorem fld_encVR_a (m : BitVec 7) (d : BitVec 5) (a : BitVec 7) (b : BitVec 7) (ty : BitVec 4) (km : BitVec 2) :
    fld (encVR m d a b ty km) 13 7 = a := by
  unfold encVR fld; ext i hi; simp only [BitVec.getElem_extractLsb', BitVec.getLsbD_append]
  rw [if_neg (by omega), if_neg (by omega), if_neg (by omega), if_pos (by omega), ← BitVec.getLsbD_eq_getElem]; congr 1; omega

theorem fld_encVR_d (m : BitVec 7) (d : BitVec 5) (a : BitVec 7) (b : BitVec 7) (ty : BitVec 4) (km : BitVec 2) :
    fld (encVR m d a b ty km) 20 5 = d := by
  unfold encVR fld; ext i hi; simp only [BitVec.getElem_extractLsb', BitVec.getLsbD_append]
  rw [if_neg (by omega), if_neg (by omega), if_neg (by omega), if_neg (by omega), if_pos (by omega), ← BitVec.getLsbD_eq_getElem]; congr 1; omega

theorem fld_encVR_m (m : BitVec 7) (d : BitVec 5) (a : BitVec 7) (b : BitVec 7) (ty : BitVec 4) (km : BitVec 2) :
    fld (encVR m d a b ty km) 25 7 = m := by
  unfold encVR fld; ext i hi; simp only [BitVec.getElem_extractLsb', BitVec.getLsbD_append]
  rw [if_neg (by omega), if_neg (by omega), if_neg (by omega), if_neg (by omega), if_neg (by omega), ← BitVec.getLsbD_eq_getElem]; congr 1; omega

/-! Form VU -/

theorem fld_encVU_fn (m : BitVec 7) (d : BitVec 5) (a : BitVec 7) (ty : BitVec 4) (km : BitVec 2) (la : BitVec 4) (fn : BitVec 3) :
    fld (encVU m d a ty km la fn) 0 3 = fn := by
  unfold encVU fld; ext i hi; simp only [BitVec.getElem_extractLsb', BitVec.getLsbD_append]
  rw [if_pos (by omega), ← BitVec.getLsbD_eq_getElem]; congr 1; omega

theorem fld_encVU_la (m : BitVec 7) (d : BitVec 5) (a : BitVec 7) (ty : BitVec 4) (km : BitVec 2) (la : BitVec 4) (fn : BitVec 3) :
    fld (encVU m d a ty km la fn) 3 4 = la := by
  unfold encVU fld; ext i hi; simp only [BitVec.getElem_extractLsb', BitVec.getLsbD_append]
  rw [if_neg (by omega), if_pos (by omega), ← BitVec.getLsbD_eq_getElem]; congr 1; omega

theorem fld_encVU_km (m : BitVec 7) (d : BitVec 5) (a : BitVec 7) (ty : BitVec 4) (km : BitVec 2) (la : BitVec 4) (fn : BitVec 3) :
    fld (encVU m d a ty km la fn) 7 2 = km := by
  unfold encVU fld; ext i hi; simp only [BitVec.getElem_extractLsb', BitVec.getLsbD_append]
  rw [if_neg (by omega), if_neg (by omega), if_pos (by omega), ← BitVec.getLsbD_eq_getElem]; congr 1; omega

theorem fld_encVU_ty (m : BitVec 7) (d : BitVec 5) (a : BitVec 7) (ty : BitVec 4) (km : BitVec 2) (la : BitVec 4) (fn : BitVec 3) :
    fld (encVU m d a ty km la fn) 9 4 = ty := by
  unfold encVU fld; ext i hi; simp only [BitVec.getElem_extractLsb', BitVec.getLsbD_append]
  rw [if_neg (by omega), if_neg (by omega), if_neg (by omega), if_pos (by omega), ← BitVec.getLsbD_eq_getElem]; congr 1; omega

theorem fld_encVU_a (m : BitVec 7) (d : BitVec 5) (a : BitVec 7) (ty : BitVec 4) (km : BitVec 2) (la : BitVec 4) (fn : BitVec 3) :
    fld (encVU m d a ty km la fn) 13 7 = a := by
  unfold encVU fld; ext i hi; simp only [BitVec.getElem_extractLsb', BitVec.getLsbD_append]
  rw [if_neg (by omega), if_neg (by omega), if_neg (by omega), if_neg (by omega), if_pos (by omega), ← BitVec.getLsbD_eq_getElem]; congr 1; omega

theorem fld_encVU_d (m : BitVec 7) (d : BitVec 5) (a : BitVec 7) (ty : BitVec 4) (km : BitVec 2) (la : BitVec 4) (fn : BitVec 3) :
    fld (encVU m d a ty km la fn) 20 5 = d := by
  unfold encVU fld; ext i hi; simp only [BitVec.getElem_extractLsb', BitVec.getLsbD_append]
  rw [if_neg (by omega), if_neg (by omega), if_neg (by omega), if_neg (by omega), if_neg (by omega), if_pos (by omega), ← BitVec.getLsbD_eq_getElem]; congr 1; omega

theorem fld_encVU_m (m : BitVec 7) (d : BitVec 5) (a : BitVec 7) (ty : BitVec 4) (km : BitVec 2) (la : BitVec 4) (fn : BitVec 3) :
    fld (encVU m d a ty km la fn) 25 7 = m := by
  unfold encVU fld; ext i hi; simp only [BitVec.getElem_extractLsb', BitVec.getLsbD_append]
  rw [if_neg (by omega), if_neg (by omega), if_neg (by omega), if_neg (by omega), if_neg (by omega), if_neg (by omega), ← BitVec.getLsbD_eq_getElem]; congr 1; omega

/-! Form VC -/

theorem fld_encVC_rnd (m : BitVec 7) (d : BitVec 5) (a : BitVec 7) (tyd : BitVec 4) (tys : BitVec 4) (part : BitVec 2) (rnd : BitVec 3) :
    fld (encVC m d a tyd tys part rnd) 0 3 = rnd := by
  unfold encVC fld; ext i hi; simp only [BitVec.getElem_extractLsb', BitVec.getLsbD_append]
  rw [if_pos (by omega), ← BitVec.getLsbD_eq_getElem]; congr 1; omega

theorem fld_encVC_part (m : BitVec 7) (d : BitVec 5) (a : BitVec 7) (tyd : BitVec 4) (tys : BitVec 4) (part : BitVec 2) (rnd : BitVec 3) :
    fld (encVC m d a tyd tys part rnd) 3 2 = part := by
  unfold encVC fld; ext i hi; simp only [BitVec.getElem_extractLsb', BitVec.getLsbD_append]
  rw [if_neg (by omega), if_pos (by omega), ← BitVec.getLsbD_eq_getElem]; congr 1; omega

theorem fld_encVC_tys (m : BitVec 7) (d : BitVec 5) (a : BitVec 7) (tyd : BitVec 4) (tys : BitVec 4) (part : BitVec 2) (rnd : BitVec 3) :
    fld (encVC m d a tyd tys part rnd) 5 4 = tys := by
  unfold encVC fld; ext i hi; simp only [BitVec.getElem_extractLsb', BitVec.getLsbD_append]
  rw [if_neg (by omega), if_neg (by omega), if_pos (by omega), ← BitVec.getLsbD_eq_getElem]; congr 1; omega

theorem fld_encVC_tyd (m : BitVec 7) (d : BitVec 5) (a : BitVec 7) (tyd : BitVec 4) (tys : BitVec 4) (part : BitVec 2) (rnd : BitVec 3) :
    fld (encVC m d a tyd tys part rnd) 9 4 = tyd := by
  unfold encVC fld; ext i hi; simp only [BitVec.getElem_extractLsb', BitVec.getLsbD_append]
  rw [if_neg (by omega), if_neg (by omega), if_neg (by omega), if_pos (by omega), ← BitVec.getLsbD_eq_getElem]; congr 1; omega

theorem fld_encVC_a (m : BitVec 7) (d : BitVec 5) (a : BitVec 7) (tyd : BitVec 4) (tys : BitVec 4) (part : BitVec 2) (rnd : BitVec 3) :
    fld (encVC m d a tyd tys part rnd) 13 7 = a := by
  unfold encVC fld; ext i hi; simp only [BitVec.getElem_extractLsb', BitVec.getLsbD_append]
  rw [if_neg (by omega), if_neg (by omega), if_neg (by omega), if_neg (by omega), if_pos (by omega), ← BitVec.getLsbD_eq_getElem]; congr 1; omega

theorem fld_encVC_d (m : BitVec 7) (d : BitVec 5) (a : BitVec 7) (tyd : BitVec 4) (tys : BitVec 4) (part : BitVec 2) (rnd : BitVec 3) :
    fld (encVC m d a tyd tys part rnd) 20 5 = d := by
  unfold encVC fld; ext i hi; simp only [BitVec.getElem_extractLsb', BitVec.getLsbD_append]
  rw [if_neg (by omega), if_neg (by omega), if_neg (by omega), if_neg (by omega), if_neg (by omega), if_pos (by omega), ← BitVec.getLsbD_eq_getElem]; congr 1; omega

theorem fld_encVC_m (m : BitVec 7) (d : BitVec 5) (a : BitVec 7) (tyd : BitVec 4) (tys : BitVec 4) (part : BitVec 2) (rnd : BitVec 3) :
    fld (encVC m d a tyd tys part rnd) 25 7 = m := by
  unfold encVC fld; ext i hi; simp only [BitVec.getElem_extractLsb', BitVec.getLsbD_append]
  rw [if_neg (by omega), if_neg (by omega), if_neg (by omega), if_neg (by omega), if_neg (by omega), if_neg (by omega), ← BitVec.getLsbD_eq_getElem]; congr 1; omega

/-! Form VG -/

theorem fld_encVG_km (m : BitVec 7) (d : BitVec 5) (xb : BitVec 5) (vb : BitVec 5) (la : BitVec 4) (ty : BitVec 4) (km : BitVec 2) :
    fld (encVG m d xb vb la ty km) 0 2 = km := by
  unfold encVG fld; ext i hi; simp only [BitVec.getElem_extractLsb', BitVec.getLsbD_append]
  rw [if_pos (by omega), ← BitVec.getLsbD_eq_getElem]; congr 1; omega

theorem fld_encVG_ty (m : BitVec 7) (d : BitVec 5) (xb : BitVec 5) (vb : BitVec 5) (la : BitVec 4) (ty : BitVec 4) (km : BitVec 2) :
    fld (encVG m d xb vb la ty km) 2 4 = ty := by
  unfold encVG fld; ext i hi; simp only [BitVec.getElem_extractLsb', BitVec.getLsbD_append]
  rw [if_neg (by omega), if_pos (by omega), ← BitVec.getLsbD_eq_getElem]; congr 1; omega

theorem fld_encVG_la (m : BitVec 7) (d : BitVec 5) (xb : BitVec 5) (vb : BitVec 5) (la : BitVec 4) (ty : BitVec 4) (km : BitVec 2) :
    fld (encVG m d xb vb la ty km) 6 4 = la := by
  unfold encVG fld; ext i hi; simp only [BitVec.getElem_extractLsb', BitVec.getLsbD_append]
  rw [if_neg (by omega), if_neg (by omega), if_pos (by omega), ← BitVec.getLsbD_eq_getElem]; congr 1; omega

theorem fld_encVG_vb (m : BitVec 7) (d : BitVec 5) (xb : BitVec 5) (vb : BitVec 5) (la : BitVec 4) (ty : BitVec 4) (km : BitVec 2) :
    fld (encVG m d xb vb la ty km) 10 5 = vb := by
  unfold encVG fld; ext i hi; simp only [BitVec.getElem_extractLsb', BitVec.getLsbD_append]
  rw [if_neg (by omega), if_neg (by omega), if_neg (by omega), if_pos (by omega), ← BitVec.getLsbD_eq_getElem]; congr 1; omega

theorem fld_encVG_xb (m : BitVec 7) (d : BitVec 5) (xb : BitVec 5) (vb : BitVec 5) (la : BitVec 4) (ty : BitVec 4) (km : BitVec 2) :
    fld (encVG m d xb vb la ty km) 15 5 = xb := by
  unfold encVG fld; ext i hi; simp only [BitVec.getElem_extractLsb', BitVec.getLsbD_append]
  rw [if_neg (by omega), if_neg (by omega), if_neg (by omega), if_neg (by omega), if_pos (by omega), ← BitVec.getLsbD_eq_getElem]; congr 1; omega

theorem fld_encVG_d (m : BitVec 7) (d : BitVec 5) (xb : BitVec 5) (vb : BitVec 5) (la : BitVec 4) (ty : BitVec 4) (km : BitVec 2) :
    fld (encVG m d xb vb la ty km) 20 5 = d := by
  unfold encVG fld; ext i hi; simp only [BitVec.getElem_extractLsb', BitVec.getLsbD_append]
  rw [if_neg (by omega), if_neg (by omega), if_neg (by omega), if_neg (by omega), if_neg (by omega), if_pos (by omega), ← BitVec.getLsbD_eq_getElem]; congr 1; omega

theorem fld_encVG_m (m : BitVec 7) (d : BitVec 5) (xb : BitVec 5) (vb : BitVec 5) (la : BitVec 4) (ty : BitVec 4) (km : BitVec 2) :
    fld (encVG m d xb vb la ty km) 25 7 = m := by
  unfold encVG fld; ext i hi; simp only [BitVec.getElem_extractLsb', BitVec.getLsbD_append]
  rw [if_neg (by omega), if_neg (by omega), if_neg (by omega), if_neg (by omega), if_neg (by omega), if_neg (by omega), ← BitVec.getLsbD_eq_getElem]; congr 1; omega

/-! Form M -/

theorem fld_encM_o (m : BitVec 7) (d : BitVec 5) (xb : BitVec 5) (la : BitVec 4) (hint : BitVec 2) (o : BitVec 9) :
    fld (encM m d xb la hint o) 0 9 = o := by
  unfold encM fld; ext i hi; simp only [BitVec.getElem_extractLsb', BitVec.getLsbD_append]
  rw [if_pos (by omega), ← BitVec.getLsbD_eq_getElem]; congr 1; omega

theorem fld_encM_hint (m : BitVec 7) (d : BitVec 5) (xb : BitVec 5) (la : BitVec 4) (hint : BitVec 2) (o : BitVec 9) :
    fld (encM m d xb la hint o) 9 2 = hint := by
  unfold encM fld; ext i hi; simp only [BitVec.getElem_extractLsb', BitVec.getLsbD_append]
  rw [if_neg (by omega), if_pos (by omega), ← BitVec.getLsbD_eq_getElem]; congr 1; omega

theorem fld_encM_la (m : BitVec 7) (d : BitVec 5) (xb : BitVec 5) (la : BitVec 4) (hint : BitVec 2) (o : BitVec 9) :
    fld (encM m d xb la hint o) 11 4 = la := by
  unfold encM fld; ext i hi; simp only [BitVec.getElem_extractLsb', BitVec.getLsbD_append]
  rw [if_neg (by omega), if_neg (by omega), if_pos (by omega), ← BitVec.getLsbD_eq_getElem]; congr 1; omega

theorem fld_encM_xb (m : BitVec 7) (d : BitVec 5) (xb : BitVec 5) (la : BitVec 4) (hint : BitVec 2) (o : BitVec 9) :
    fld (encM m d xb la hint o) 15 5 = xb := by
  unfold encM fld; ext i hi; simp only [BitVec.getElem_extractLsb', BitVec.getLsbD_append]
  rw [if_neg (by omega), if_neg (by omega), if_neg (by omega), if_pos (by omega), ← BitVec.getLsbD_eq_getElem]; congr 1; omega

theorem fld_encM_d (m : BitVec 7) (d : BitVec 5) (xb : BitVec 5) (la : BitVec 4) (hint : BitVec 2) (o : BitVec 9) :
    fld (encM m d xb la hint o) 20 5 = d := by
  unfold encM fld; ext i hi; simp only [BitVec.getElem_extractLsb', BitVec.getLsbD_append]
  rw [if_neg (by omega), if_neg (by omega), if_neg (by omega), if_neg (by omega), if_pos (by omega), ← BitVec.getLsbD_eq_getElem]; congr 1; omega

theorem fld_encM_m (m : BitVec 7) (d : BitVec 5) (xb : BitVec 5) (la : BitVec 4) (hint : BitVec 2) (o : BitVec 9) :
    fld (encM m d xb la hint o) 25 7 = m := by
  unfold encM fld; ext i hi; simp only [BitVec.getElem_extractLsb', BitVec.getLsbD_append]
  rw [if_neg (by omega), if_neg (by omega), if_neg (by omega), if_neg (by omega), if_neg (by omega), ← BitVec.getLsbD_eq_getElem]; congr 1; omega

/-! Form MX -/

theorem fld_encMX_fn (m : BitVec 7) (acc : BitVec 2) (ra : BitVec 3) (rb : BitVec 3) (z : BitVec 2) (xs : BitVec 5) (la : BitVec 4) (fn : BitVec 6) :
    fld (encMX m acc ra rb z xs la fn) 0 6 = fn := by
  unfold encMX fld; ext i hi; simp only [BitVec.getElem_extractLsb', BitVec.getLsbD_append]
  rw [if_pos (by omega), ← BitVec.getLsbD_eq_getElem]; congr 1; omega

theorem fld_encMX_la (m : BitVec 7) (acc : BitVec 2) (ra : BitVec 3) (rb : BitVec 3) (z : BitVec 2) (xs : BitVec 5) (la : BitVec 4) (fn : BitVec 6) :
    fld (encMX m acc ra rb z xs la fn) 6 4 = la := by
  unfold encMX fld; ext i hi; simp only [BitVec.getElem_extractLsb', BitVec.getLsbD_append]
  rw [if_neg (by omega), if_pos (by omega), ← BitVec.getLsbD_eq_getElem]; congr 1; omega

theorem fld_encMX_xs (m : BitVec 7) (acc : BitVec 2) (ra : BitVec 3) (rb : BitVec 3) (z : BitVec 2) (xs : BitVec 5) (la : BitVec 4) (fn : BitVec 6) :
    fld (encMX m acc ra rb z xs la fn) 10 5 = xs := by
  unfold encMX fld; ext i hi; simp only [BitVec.getElem_extractLsb', BitVec.getLsbD_append]
  rw [if_neg (by omega), if_neg (by omega), if_pos (by omega), ← BitVec.getLsbD_eq_getElem]; congr 1; omega

theorem fld_encMX_z (m : BitVec 7) (acc : BitVec 2) (ra : BitVec 3) (rb : BitVec 3) (z : BitVec 2) (xs : BitVec 5) (la : BitVec 4) (fn : BitVec 6) :
    fld (encMX m acc ra rb z xs la fn) 15 2 = z := by
  unfold encMX fld; ext i hi; simp only [BitVec.getElem_extractLsb', BitVec.getLsbD_append]
  rw [if_neg (by omega), if_neg (by omega), if_neg (by omega), if_pos (by omega), ← BitVec.getLsbD_eq_getElem]; congr 1; omega

theorem fld_encMX_rb (m : BitVec 7) (acc : BitVec 2) (ra : BitVec 3) (rb : BitVec 3) (z : BitVec 2) (xs : BitVec 5) (la : BitVec 4) (fn : BitVec 6) :
    fld (encMX m acc ra rb z xs la fn) 17 3 = rb := by
  unfold encMX fld; ext i hi; simp only [BitVec.getElem_extractLsb', BitVec.getLsbD_append]
  rw [if_neg (by omega), if_neg (by omega), if_neg (by omega), if_neg (by omega), if_pos (by omega), ← BitVec.getLsbD_eq_getElem]; congr 1; omega

theorem fld_encMX_ra (m : BitVec 7) (acc : BitVec 2) (ra : BitVec 3) (rb : BitVec 3) (z : BitVec 2) (xs : BitVec 5) (la : BitVec 4) (fn : BitVec 6) :
    fld (encMX m acc ra rb z xs la fn) 20 3 = ra := by
  unfold encMX fld; ext i hi; simp only [BitVec.getElem_extractLsb', BitVec.getLsbD_append]
  rw [if_neg (by omega), if_neg (by omega), if_neg (by omega), if_neg (by omega), if_neg (by omega), if_pos (by omega), ← BitVec.getLsbD_eq_getElem]; congr 1; omega

theorem fld_encMX_acc (m : BitVec 7) (acc : BitVec 2) (ra : BitVec 3) (rb : BitVec 3) (z : BitVec 2) (xs : BitVec 5) (la : BitVec 4) (fn : BitVec 6) :
    fld (encMX m acc ra rb z xs la fn) 23 2 = acc := by
  unfold encMX fld; ext i hi; simp only [BitVec.getElem_extractLsb', BitVec.getLsbD_append]
  rw [if_neg (by omega), if_neg (by omega), if_neg (by omega), if_neg (by omega), if_neg (by omega), if_neg (by omega), if_pos (by omega), ← BitVec.getLsbD_eq_getElem]; congr 1; omega

theorem fld_encMX_m (m : BitVec 7) (acc : BitVec 2) (ra : BitVec 3) (rb : BitVec 3) (z : BitVec 2) (xs : BitVec 5) (la : BitVec 4) (fn : BitVec 6) :
    fld (encMX m acc ra rb z xs la fn) 25 7 = m := by
  unfold encMX fld; ext i hi; simp only [BitVec.getElem_extractLsb', BitVec.getLsbD_append]
  rw [if_neg (by omega), if_neg (by omega), if_neg (by omega), if_neg (by omega), if_neg (by omega), if_neg (by omega), if_neg (by omega), ← BitVec.getLsbD_eq_getElem]; congr 1; omega

/-! Form CS -/

theorem fld_encCS_op (m : BitVec 7) (d : BitVec 5) (a : BitVec 5) (csr : BitVec 12) (op : BitVec 3) :
    fld (encCS m d a csr op) 0 3 = op := by
  unfold encCS fld; ext i hi; simp only [BitVec.getElem_extractLsb', BitVec.getLsbD_append]
  rw [if_pos (by omega), ← BitVec.getLsbD_eq_getElem]; congr 1; omega

theorem fld_encCS_csr (m : BitVec 7) (d : BitVec 5) (a : BitVec 5) (csr : BitVec 12) (op : BitVec 3) :
    fld (encCS m d a csr op) 3 12 = csr := by
  unfold encCS fld; ext i hi; simp only [BitVec.getElem_extractLsb', BitVec.getLsbD_append]
  rw [if_neg (by omega), if_pos (by omega), ← BitVec.getLsbD_eq_getElem]; congr 1; omega

theorem fld_encCS_a (m : BitVec 7) (d : BitVec 5) (a : BitVec 5) (csr : BitVec 12) (op : BitVec 3) :
    fld (encCS m d a csr op) 15 5 = a := by
  unfold encCS fld; ext i hi; simp only [BitVec.getElem_extractLsb', BitVec.getLsbD_append]
  rw [if_neg (by omega), if_neg (by omega), if_pos (by omega), ← BitVec.getLsbD_eq_getElem]; congr 1; omega

theorem fld_encCS_d (m : BitVec 7) (d : BitVec 5) (a : BitVec 5) (csr : BitVec 12) (op : BitVec 3) :
    fld (encCS m d a csr op) 20 5 = d := by
  unfold encCS fld; ext i hi; simp only [BitVec.getElem_extractLsb', BitVec.getLsbD_append]
  rw [if_neg (by omega), if_neg (by omega), if_neg (by omega), if_pos (by omega), ← BitVec.getLsbD_eq_getElem]; congr 1; omega

theorem fld_encCS_m (m : BitVec 7) (d : BitVec 5) (a : BitVec 5) (csr : BitVec 12) (op : BitVec 3) :
    fld (encCS m d a csr op) 25 7 = m := by
  unfold encCS fld; ext i hi; simp only [BitVec.getElem_extractLsb', BitVec.getLsbD_append]
  rw [if_neg (by omega), if_neg (by omega), if_neg (by omega), if_neg (by omega), ← BitVec.getLsbD_eq_getElem]; congr 1; omega

/-! Form RF -/

theorem fld_encRF_z (m : BitVec 7) (reps : BitVec 4) (len : BitVec 4) (ds : BitVec 5) (ss : BitVec 5) (z : BitVec 7) :
    fld (encRF m reps len ds ss z) 0 7 = z := by
  unfold encRF fld; ext i hi; simp only [BitVec.getElem_extractLsb', BitVec.getLsbD_append]
  rw [if_pos (by omega), ← BitVec.getLsbD_eq_getElem]; congr 1; omega

theorem fld_encRF_ss (m : BitVec 7) (reps : BitVec 4) (len : BitVec 4) (ds : BitVec 5) (ss : BitVec 5) (z : BitVec 7) :
    fld (encRF m reps len ds ss z) 7 5 = ss := by
  unfold encRF fld; ext i hi; simp only [BitVec.getElem_extractLsb', BitVec.getLsbD_append]
  rw [if_neg (by omega), if_pos (by omega), ← BitVec.getLsbD_eq_getElem]; congr 1; omega

theorem fld_encRF_ds (m : BitVec 7) (reps : BitVec 4) (len : BitVec 4) (ds : BitVec 5) (ss : BitVec 5) (z : BitVec 7) :
    fld (encRF m reps len ds ss z) 12 5 = ds := by
  unfold encRF fld; ext i hi; simp only [BitVec.getElem_extractLsb', BitVec.getLsbD_append]
  rw [if_neg (by omega), if_neg (by omega), if_pos (by omega), ← BitVec.getLsbD_eq_getElem]; congr 1; omega

theorem fld_encRF_len (m : BitVec 7) (reps : BitVec 4) (len : BitVec 4) (ds : BitVec 5) (ss : BitVec 5) (z : BitVec 7) :
    fld (encRF m reps len ds ss z) 17 4 = len := by
  unfold encRF fld; ext i hi; simp only [BitVec.getElem_extractLsb', BitVec.getLsbD_append]
  rw [if_neg (by omega), if_neg (by omega), if_neg (by omega), if_pos (by omega), ← BitVec.getLsbD_eq_getElem]; congr 1; omega

theorem fld_encRF_reps (m : BitVec 7) (reps : BitVec 4) (len : BitVec 4) (ds : BitVec 5) (ss : BitVec 5) (z : BitVec 7) :
    fld (encRF m reps len ds ss z) 21 4 = reps := by
  unfold encRF fld; ext i hi; simp only [BitVec.getElem_extractLsb', BitVec.getLsbD_append]
  rw [if_neg (by omega), if_neg (by omega), if_neg (by omega), if_neg (by omega), if_pos (by omega), ← BitVec.getLsbD_eq_getElem]; congr 1; omega

theorem fld_encRF_m (m : BitVec 7) (reps : BitVec 4) (len : BitVec 4) (ds : BitVec 5) (ss : BitVec 5) (z : BitVec 7) :
    fld (encRF m reps len ds ss z) 25 7 = m := by
  unfold encRF fld; ext i hi; simp only [BitVec.getElem_extractLsb', BitVec.getLsbD_append]
  rw [if_neg (by omega), if_neg (by omega), if_neg (by omega), if_neg (by omega), if_neg (by omega), ← BitVec.getLsbD_eq_getElem]; congr 1; omega

end Sys2Proof.Laws
end

