-- ==== Sys2Proof/Laws/Memory.lean ====
section
/-! SUPPORT. Memories: the canonical form is kept by every memory operation, a read after a write gives the value written and a
write leaves every other byte alone; and which updates of the state keep every memory. -/

namespace Sys2Proof.Machine

/-! ## Sparse maps -/

variable {w : Nat}

/-- A map whose keys rise from `lo` rises from anything below. -/
theorem smWfFrom_mono {lo lo' : Nat} (h : lo' ≤ lo) {m : SMap w} (hm : smWfFrom lo m = true) : smWfFrom lo' m = true := by
  cases m with
  | nil => rfl
  | cons e r =>
    simp only [smWfFrom, Bool.and_eq_true, decide_eq_true_eq] at hm ⊢
    exact ⟨⟨h.trans hm.1.1, hm.1.2⟩, hm.2⟩

/-- A write keeps the canonical form. -/
theorem smSet_wfFrom {lo a : Nat} (h : lo ≤ a) (v : BitVec w) {m : SMap w} (hm : smWfFrom lo m = true) :
    smWfFrom lo (smSet m a v) = true := by
  induction m generalizing lo with
  | nil => by_cases hv : v = 0#w <;> simp [smSet, smWfFrom, hv, h]
  | cons e r ih =>
    obtain ⟨k, u⟩ := e
    simp only [smWfFrom, Bool.and_eq_true, decide_eq_true_eq] at hm
    obtain ⟨⟨hk, hu⟩, hr⟩ := hm
    simp only [smSet]
    split
    · next hlt =>
      by_cases hv : v = 0#w
      · simpa [hv, smWfFrom] using ⟨⟨hk, by simpa using hu⟩, hr⟩
      · have hr' : smWfFrom (k + 1) r = true := hr
        simp [hv, smWfFrom, h, hr', Nat.succ_le_of_lt hlt, show u ≠ 0#w by simpa using hu]
    · next hge =>
      split
      · next he =>
        subst he
        by_cases hv : v = 0#w
        · simpa [hv] using smWfFrom_mono (by omega) hr
        · simp [hv, smWfFrom, h, hr]
      · simp only [smWfFrom, Bool.and_eq_true, decide_eq_true_eq]
        exact ⟨⟨hk, hu⟩, ih (by omega) hr⟩

/-- A write keeps the canonical form. -/
theorem smSet_wf (a : Nat) (v : BitVec w) {m : SMap w} (hm : Memory.wf m = true) : Memory.wf (smSet m a v) = true :=
  smSet_wfFrom (Nat.zero_le a) v hm

/-- Nothing is listed below the first key. -/
theorem smGet_below {lo a : Nat} (h : a < lo) {m : SMap w} (hm : smWfFrom lo m = true) : smGet m a = 0 := by
  cases m with
  | nil => rfl
  | cons e r =>
    simp only [smWfFrom, Bool.and_eq_true, decide_eq_true_eq] at hm
    have : a < e.1 := by omega
    simp [smGet, this, Nat.ne_of_lt this]

/-- A read after a write: the value written at its key, and every other key as before. -/
theorem smGet_smSetFrom {lo : Nat} (a b : Nat) (v : BitVec w) {m : SMap w} (hm : smWfFrom lo m = true) :
    smGet (smSet m a v) b = if b = a then v else smGet m b := by
  induction m generalizing lo with
  | nil => by_cases hv : v = 0#w <;> by_cases hb : b = a <;> simp [smSet, smGet, hv, hb]
  | cons e r ih =>
    obtain ⟨k, u⟩ := e
    simp only [smWfFrom, Bool.and_eq_true, decide_eq_true_eq] at hm
    obtain ⟨⟨hk, hu⟩, hr⟩ := hm
    simp only [smSet]
    split
    · next hlt =>
      by_cases hb : b = a
      · subst hb
        by_cases hv : v = 0#w <;> simp [hv, smGet, hlt, Nat.ne_of_lt hlt]
      · by_cases hv : v = 0#w
        · simp [hv, hb]
        · rw [if_neg (show ¬ v = 0 from hv), if_neg hb]
          show (if b = a then v else if b < a then 0 else smGet ((k, u) :: r) b) = _
          rw [if_neg hb]
          split
          · next hba =>
            have : b < k := hba.trans hlt
            simp [smGet, this, Nat.ne_of_lt this]
          · rfl
    · next hge =>
      split
      · next he =>
        subst he
        by_cases hb : b = a
        · subst hb
          by_cases hv : v = 0#w
          · rw [if_pos (show v = 0 from hv), if_pos rfl, hv]; exact smGet_below (Nat.lt_succ_self b) hr
          · simp [hv, smGet]
        · by_cases hv : v = 0#w
          · rw [if_pos (show v = 0 from hv), if_neg hb]
            simp only [smGet, if_neg hb]
            split
            · next hlt => exact smGet_below (by omega) hr
            · rfl
          · simp [hv, smGet, hb]
      · next hne =>
        simp only [smGet]
        split
        · next hbk => subst hbk; rw [if_neg (by omega)]
        · split
          · next hlt => rw [if_neg (by omega)]
          · exact ih hr

/-- A read after a write. -/
theorem smGet_smSet (a b : Nat) (v : BitVec w) {m : SMap w} (hm : Memory.wf m = true) :
    smGet (smSet m a v) b = if b = a then v else smGet m b := smGet_smSetFrom a b v hm

/-- What is left of a canonical map is canonical. -/
theorem filter_wfFrom (p : Nat × BitVec w → Bool) {lo : Nat} {m : SMap w} (hm : smWfFrom lo m = true) :
    smWfFrom lo (m.filter p) = true := by
  induction m generalizing lo with
  | nil => rfl
  | cons e r ih =>
    simp only [smWfFrom, Bool.and_eq_true, decide_eq_true_eq] at hm
    simp only [List.filter_cons]
    split
    · simp only [smWfFrom, Bool.and_eq_true, decide_eq_true_eq]
      exact ⟨hm.1, ih hm.2⟩
    · exact smWfFrom_mono (by omega) (ih hm.2)

/-- What is left of a canonical map is canonical. -/
theorem filter_wf (p : Nat × BitVec w → Bool) {m : SMap w} (hm : Memory.wf m = true) : Memory.wf (m.filter p) = true :=
  filter_wfFrom p hm

/-- Writes one after another keep the canonical form. -/
theorem foldl_smSet_wf {α : Type} (key : α → Nat) (val : α → BitVec w) (l : List α) {m : SMap w} (hm : Memory.wf m = true) :
    Memory.wf (l.foldl (fun m e => smSet m (key e) (val e)) m) = true := by
  induction l generalizing m with
  | nil => exact hm
  | cons e r ih => exact ih (smSet_wf _ _ hm)

/-- Two canonical maps that read the same are the same data. -/
theorem smExtFrom {lo : Nat} {m n : SMap w} (hm : smWfFrom lo m = true) (hn : smWfFrom lo n = true)
    (h : ∀ a, smGet m a = smGet n a) : m = n := by
  induction m generalizing lo n with
  | nil =>
    cases n with
    | nil => rfl
    | cons e r =>
      simp only [smWfFrom, Bool.and_eq_true, decide_eq_true_eq, bne_iff_ne, ne_eq] at hn
      have := h e.1
      simp only [smGet, if_true] at this
      exact absurd this.symm hn.1.2
  | cons e r ih =>
    have hm0 := hm
    simp only [smWfFrom, Bool.and_eq_true, decide_eq_true_eq, bne_iff_ne, ne_eq] at hm
    cases n with
    | nil =>
      have := h e.1
      simp only [smGet, if_true] at this
      exact absurd this hm.1.2
    | cons f q =>
      have hn0 := hn
      simp only [smWfFrom, Bool.and_eq_true, decide_eq_true_eq, bne_iff_ne, ne_eq] at hn
      have hk : e.1 = f.1 := by
        rcases Nat.lt_trichotomy e.1 f.1 with hl | he | hg
        · have := h e.1
          simp only [smGet, if_true, if_pos hl, if_neg (Nat.ne_of_lt hl)] at this
          exact absurd this hm.1.2
        · exact he
        · have := h f.1
          simp only [smGet, if_true, if_pos hg, if_neg (Nat.ne_of_lt hg)] at this
          exact absurd this.symm hn.1.2
      have hv : e.2 = f.2 := by
        have := h e.1
        simp only [smGet, if_true, hk] at this
        exact this
      have : r = q := by
        refine ih hm.2 (by rw [hk]; exact hn.2) fun a => ?_
        have := h a
        simp only [smGet, hk, hv] at this
        by_cases ha : a = f.1
        · subst ha
          rw [smGet_below (Nat.lt_succ_self _) (by rw [← hk]; exact hm.2), smGet_below (Nat.lt_succ_self _) hn.2]
        · by_cases hl : a < f.1
          · rw [smGet_below (by omega) hm.2, smGet_below (by omega) hn.2]
          · simpa [ha, hl] using this
      rw [this, show e = f from Prod.ext hk hv]

/-- A part of a memory keeps the canonical form. -/
theorem smFilterFrom (p : Nat × BitVec w → Bool) {a : Nat} {m : SMap w} (hm : smWfFrom a m = true) :
    smWfFrom a (m.filter p) = true := by
  induction m generalizing a with
  | nil => rfl
  | cons e r ih =>
    simp only [smWfFrom, Bool.and_eq_true, decide_eq_true_eq] at hm
    rw [List.filter_cons]
    split
    · simp only [smWfFrom, Bool.and_eq_true, decide_eq_true_eq]
      exact ⟨hm.1, ih hm.2⟩
    · exact smWfFrom_mono (by omega) (ih hm.2)

theorem smFilter_wf (p : Nat × BitVec w → Bool) {m : SMap w} (hm : Memory.wf m = true) : Memory.wf (m.filter p) = true :=
  smFilterFrom p hm

/-- Two memories in canonical form that read the same are the same data. -/
theorem memory_ext {m n : SMap w} (hm : Memory.wf m = true) (hn : Memory.wf n = true) (h : ∀ a, smGet m a = smGet n a) : m = n :=
  smExtFrom hm hn h

/-! ## Bytes -/

/-- Bytes stored keep the canonical form. -/
theorem memPut_wf (a : Nat) (bs : List Byte) {m : Mem} (hm : Memory.wf m = true) : Memory.wf (memPut m a bs) = true := by
  induction bs generalizing m a with
  | nil => exact hm
  | cons b r ih => exact ih (a + 1) (smSet_wf a b hm)

/-- One byte after a store: the byte stored there, or what stood there. -/
theorem smGet_memPut (a b : Nat) (bs : List Byte) {m : Mem} (hm : Memory.wf m = true) :
    smGet (memPut m a bs) b = if a ≤ b ∧ b < a + bs.length then bs.getD (b - a) 0 else smGet m b := by
  induction bs generalizing m a with
  | nil => rw [memPut, if_neg (by simp)]
  | cons c r ih =>
    rw [memPut, ih (a + 1) (smSet_wf a c hm), smGet_smSet a b c hm]
    by_cases hb : b = a
    · subst hb
      rw [if_neg (by omega), if_pos rfl, if_pos ⟨le_refl b, by simp⟩]; simp
    · rw [if_neg hb]
      by_cases h : a + 1 ≤ b ∧ b < a + 1 + r.length
      · rw [if_pos h, if_pos ⟨by omega, by simp only [List.length_cons]; omega⟩, show b - a = (b - (a + 1)) + 1 by omega]
        simp
      · rw [if_neg h, if_neg]
        simp only [List.length_cons]
        omega

/-- Bytes of memory, one by one. -/
theorem memBytes_eq (m : Mem) (a n : Nat) : memBytes m a n = (List.range n).map fun i => smGet m (a + i) := by
  induction n generalizing a with
  | zero => rfl
  | succ n ih =>
    rw [memBytes, ih (a + 1), List.range_succ_eq_map, List.map_cons, List.map_map]
    refine congrArg₂ _ (by rw [Nat.add_zero]) (List.map_congr_left fun i _ => ?_)
    simp only [Function.comp, Nat.succ_eq_add_one]
    congr 1
    omega

@[simp] theorem memBytes_length (m : Mem) (a n : Nat) : (memBytes m a n).length = n := by simp [memBytes_eq]

/-- Bytes stored, read back. -/
theorem memBytes_memPut (a : Nat) (bs : List Byte) {m : Mem} (hm : Memory.wf m = true) :
    memBytes (memPut m a bs) a bs.length = bs := by
  refine List.ext_getElem (by simp) fun i h₁ h₂ => ?_
  simp only [memBytes_eq, List.getElem_map, List.getElem_range]
  rw [smGet_memPut a (a + i) bs hm, if_pos ⟨by omega, by omega⟩, Nat.add_sub_cancel_left]
  exact (List.getElem_eq_getD 0).symm

@[simp] theorem natBytes_length (n v : Nat) : (natBytes n v).length = n := by
  induction n generalizing v with
  | zero => rfl
  | succ n ih => simp [natBytes, ih]

/-- The value of bytes is below what their number holds (R3). -/
theorem bytesNat_lt (bs : List Byte) : bytesNat bs < 256 ^ bs.length := by
  induction bs with
  | nil => simp [bytesNat]
  | cons b r ih => simp only [bytesNat, List.length_cons, Nat.pow_succ]; have := b.isLt; omega

/-- The bytes of a value give the value back, modulo what they hold (R3). -/
theorem bytesNat_natBytes (n v : Nat) : bytesNat (natBytes n v) = v % 256 ^ n := by
  induction n generalizing v with
  | zero => simp [natBytes, bytesNat, Nat.mod_one]
  | succ n ih =>
    rw [natBytes, bytesNat, ih, BitVec.toNat_ofNat, show 256 ^ (n + 1) = 256 * 256 ^ n by ring, Nat.mod_mul]

/-! ## Sealed ranges (R373) -/

theorem sealFrom_length (d : Device) (a : Nat) (bs : List Byte) : (sealFrom d a bs).length = bs.length := by
  induction bs generalizing a with
  | nil => rfl
  | cons b r ih => simp [sealFrom, ih]

theorem sealed_length (d : Device) (a : Nat) (bs : List Byte) : (sealed d a bs).length = bs.length := by
  unfold sealed; split <;> [rfl; exact sealFrom_length d a bs]

theorem sealFrom_sealFrom (d : Device) (a : Nat) (bs : List Byte) : sealFrom d a (sealFrom d a bs) = bs := by
  induction bs generalizing a with
  | nil => rfl
  | cons b r ih => simp [sealFrom, ih]

/-- The cells of bytes, read as bytes, give them back. -/
theorem sealed_sealed (d : Device) (a : Nat) (bs : List Byte) : sealed d a (sealed d a bs) = bs := by
  unfold sealed; split <;> [rfl; exact sealFrom_sealFrom d a bs]

/-- What is sealed depends on the seals and the key only. -/
theorem sealed_congr {d e : Device} (hs : e.seals = d.seals) (hk : e.imageKey = d.imageKey) (a : Nat) (bs : List Byte) :
    sealed e a bs = sealed d a bs := by
  have hb : ∀ a, sealByte e a = sealByte d a := fun a => by unfold sealByte; rw [hs, hk]
  have hf : ∀ (bs : List Byte) (a : Nat), sealFrom e a bs = sealFrom d a bs := by
    intro bs
    induction bs with
    | nil => intro a; rfl
    | cons b r ih => intro a; simp [sealFrom, hb, ih]
  unfold sealed; rw [hs, hf]

/-- A range wiped keeps the canonical form. -/
theorem wipe_wf (code : Option (Nat × Nat × Nat)) (a n : Nat) {d : Device} (h : Memory.wf d.dmem = true) :
    Memory.wf (wipe code a n d).dmem = true := smFilter_wf _ h

/-- Ranges wiped change device memory and the seals only. -/
theorem wipes_rest (l : List (Nat × Nat)) (d : Device) :
    ∃ m x, l.foldl (fun d r => wipe none r.1 r.2 d) d = { d with dmem := m, seals := x } ∧
      (Memory.wf d.dmem = true → Memory.wf m = true) := by
  induction l generalizing d with
  | nil => exact ⟨_, _, rfl, id⟩
  | cons r l ih =>
    obtain ⟨m, x, e, h⟩ := ih (wipe none r.1 r.2 d)
    exact ⟨m, x, e, fun hw => h (wipe_wf none _ _ hw)⟩

/-! ## The bytes of a location -/

/-- Clearing poison leaves every memory. -/
theorem clearPoison_ls (d : Device) (sp : Space) (ks : List Nat) : (clearPoison d sp ks).ls = d.ls := by cases sp <;> rfl
theorem clearPoison_scr (d : Device) (sp : Space) (ks : List Nat) : (clearPoison d sp ks).scr = d.scr := by cases sp <;> rfl
theorem clearPoison_dmem (d : Device) (sp : Space) (ks : List Nat) : (clearPoison d sp ks).dmem = d.dmem := by cases sp <;> rfl
theorem clearPoison_ctxs (d : Device) (sp : Space) (ks : List Nat) : (clearPoison d sp ks).ctxs = d.ctxs := by cases sp <;> rfl
theorem clearPoison_out (d : Device) (sp : Space) (ks : List Nat) : (clearPoison d sp ks).out = d.out := by cases sp <;> rfl

/-- The LS memory after a write at a location. -/
theorem rawPut_ls (d : Device) (l : Loc) (bs : List Byte) : (rawPut d l bs).ls =
    match l.space with | .ls c => memPut d.ls (lsKey c l.off) bs | _ => d.ls := by
  obtain ⟨sp, off⟩ := l
  unfold rawPut
  cases sp <;> dsimp only <;> split <;> simp [clearPoison_ls]
theorem rawPut_scr (d : Device) (l : Loc) (bs : List Byte) : (rawPut d l bs).scr =
    match l.space with | .scr c => memPut d.scr (scrKey c l.off) bs | _ => d.scr := by
  obtain ⟨sp, off⟩ := l
  unfold rawPut
  cases sp <;> dsimp only <;> split <;> simp [clearPoison_scr]
theorem rawPut_dmem (d : Device) (l : Loc) (bs : List Byte) : (rawPut d l bs).dmem =
    match l.space with | .dev => memPut d.dmem l.off (sealed d l.off bs) | _ => d.dmem := by
  obtain ⟨sp, off⟩ := l
  unfold rawPut
  cases sp <;> dsimp only <;> split <;> simp [clearPoison_dmem]
/-- A write at a location sends nothing and changes no context. -/
theorem rawPut_ctxs (d : Device) (l : Loc) (bs : List Byte) : (rawPut d l bs).ctxs = d.ctxs := by
  obtain ⟨sp, off⟩ := l
  unfold rawPut
  cases sp <;> dsimp only <;> split <;> simp [clearPoison_ctxs]
theorem rawPut_out (d : Device) (l : Loc) (bs : List Byte) : (rawPut d l bs).out = d.out := by
  obtain ⟨sp, off⟩ := l
  unfold rawPut
  cases sp <;> dsimp only <;> split <;> simp [clearPoison_out]

theorem clearPoison_seals (d : Device) (sp : Space) (ks : List Nat) : (clearPoison d sp ks).seals = d.seals := by cases sp <;> rfl
theorem clearPoison_key (d : Device) (sp : Space) (ks : List Nat) : (clearPoison d sp ks).imageKey = d.imageKey := by cases sp <;> rfl
/-- A write at a location seals nothing. -/
theorem rawPut_seals (d : Device) (l : Loc) (bs : List Byte) : (rawPut d l bs).seals = d.seals := by
  obtain ⟨sp, off⟩ := l
  unfold rawPut
  cases sp <;> dsimp only <;> split <;> simp [clearPoison_seals]
theorem rawPut_key (d : Device) (l : Loc) (bs : List Byte) : (rawPut d l bs).imageKey = d.imageKey := by
  obtain ⟨sp, off⟩ := l
  unfold rawPut
  cases sp <;> dsimp only <;> split <;> simp [clearPoison_key]

/-- A write at a location of LS, scratch or device memory, read back. -/
theorem rawBytes_rawPut {d : Device} {l : Loc} (bs : List Byte) (hl : Memory.wf d.ls = true) (hs : Memory.wf d.scr = true)
    (hd : Memory.wf d.dmem = true) (ht : ∀ h, l.space ≠ .ten h) : rawBytes (rawPut d l bs) l bs.length = bs := by
  obtain ⟨sp, off⟩ := l
  cases sp with
  | ls c => simp only [rawBytes, rawPut_ls]; exact memBytes_memPut _ _ hl
  | scr c => simp only [rawBytes, rawPut_scr]; exact memBytes_memPut _ _ hs
  | dev =>
    have h := memBytes_memPut off (sealed d off bs) hd
    rw [sealed_length] at h
    simp only [rawBytes, rawPut_dmem]
    rw [h, sealed_congr (rawPut_seals d _ bs) (rawPut_key d _ bs), sealed_sealed]
  | ten h => exact absurd rfl (ht h)

/-! ## Which updates keep every memory -/

/-- The memories of one context's images are in canonical form. -/
def ImagesOk (c : Context) : Prop :=
  ∀ g, (c.switchImg = some g ∨ c.boundImg = some g) →
    Memory.wf g.hart.imem = true ∧ Memory.wf g.ls = true ∧ Memory.wf g.scr = true

theorem memoriesKept_iff (s : State) : MemoriesKept s ↔ MemoriesOk s ∧ ∀ c ∈ s.dev.ctxs, ImagesOk c := Iff.rfl

/-- A state with the same memories and contexts keeps them. -/
theorem kept_congr {s t : State} (h : MemoriesKept s) (hi : t.hart.imem = s.hart.imem) (hl : t.dev.ls = s.dev.ls)
    (hs : t.dev.scr = s.dev.scr) (hd : t.dev.dmem = s.dev.dmem) (hc : t.dev.ctxs = s.dev.ctxs) : MemoriesKept t := by
  unfold MemoriesKept MemoriesOk at *
  rw [hi, hl, hs, hd, hc]
  exact h

/-- An update of the core that leaves its instruction memory. -/
theorem kept_onHart {f : Hart → Hart} {s : State} (h : MemoriesKept s) (hf : (f s.hart).imem = s.hart.imem) :
    MemoriesKept (onHart f s) := kept_congr h hf rfl rfl rfl rfl

/-- Every update of the cluster. -/
theorem kept_onClu (f : Cluster → Cluster) {s : State} (h : MemoriesKept s) : MemoriesKept (onClu f s) :=
  kept_congr h rfl rfl rfl rfl rfl

/-- An update of a context that keeps its images, or makes canonical ones. -/
theorem kept_onCtx {n : Nat} {f : Context → Context} {s : State} (h : MemoriesKept s) (hf : ∀ c, ImagesOk c → ImagesOk (f c)) :
    MemoriesKept (onCtx n f s) := by
  refine ⟨h.1, fun c hc => ?_⟩
  simp only [onCtx, onDev, modWhere, List.mem_map] at hc
  obtain ⟨k, hk, rfl⟩ := hc
  split
  · exact hf k (h.2 k hk)
  · exact h.2 k hk

/-- An update of a context that leaves its images. -/
theorem kept_onCtx_same {n : Nat} {f : Context → Context} {s : State} (h : MemoriesKept s)
    (hf : ∀ c, (f c).switchImg = c.switchImg ∧ (f c).boundImg = c.boundImg) : MemoriesKept (onCtx n f s) :=
  kept_onCtx h fun c hc => by unfold ImagesOk; rw [(hf c).1, (hf c).2]; exact hc

/-- Every update of a tensor. -/
theorem kept_onTensor (n : Nat) (f : Tensor → Tensor) {s : State} (h : MemoriesKept s) : MemoriesKept (onTensor n f s) :=
  kept_congr h rfl rfl rfl rfl rfl

/-- Time passes. -/
theorem kept_passTime {s : State} (h : MemoriesKept s) : MemoriesKept (passTime s) := kept_congr h rfl rfl rfl rfl rfl

/-- A write at a location. -/
theorem kept_rawPut (l : Loc) (bs : List Byte) {s : State} {d : Device} (h : MemoriesKept { s with dev := d }) :
    MemoriesKept { s with dev := rawPut d l bs } := by
  refine ⟨⟨h.1.1, ?_, ?_, ?_⟩, by simpa only [rawPut_ctxs] using h.2⟩
  · simp only [rawPut_ls]; split <;> [exact memPut_wf _ _ h.1.2.1; exact h.1.2.1]
  · simp only [rawPut_scr]; split <;> [exact memPut_wf _ _ h.1.2.2.1; exact h.1.2.2.1]
  · simp only [rawPut_dmem]; split <;> [exact memPut_wf _ _ h.1.2.2.2; exact h.1.2.2.2]

/-- A write by the device into a page of a context's space. -/
theorem kept_putPage (n va : Nat) (bs : List Byte) {s : State} {d : Device} (h : MemoriesKept { s with dev := d }) :
    MemoriesKept { s with dev := putPage d n va bs } := by
  unfold putPage
  split <;> [exact kept_rawPut _ _ h; exact h]

/-- A write by the device into a context's space. -/
theorem kept_putVa (n va : Nat) (bs : List Byte) {s : State} {d : Device} (h : MemoriesKept { s with dev := d }) :
    MemoriesKept { s with dev := putVa d n va bs } := kept_putPage _ _ _ (kept_putPage _ _ _ h)

/-- An entry appended to the undo log. -/
theorem kept_logAppend (n : Nat) (e : LogEntry) {s : State} (h : MemoriesKept s) : MemoriesKept (logAppend n e s) := by
  unfold logAppend
  split
  · exact h
  · refine kept_onCtx_same (kept_putVa _ _ _ ?_) fun c => ⟨by dsimp only; split <;> rfl, by dsimp only; split <;> rfl⟩
    split
    · split <;> [exact h; exact kept_putVa _ _ _ h]
    · exact h

/-- Contexts whose fields change but for their images. -/
theorem kept_ctxs {s : State} {d : Device} (h : MemoriesKept s) (hl : d.ls = s.dev.ls) (hs : d.scr = s.dev.scr)
    (hd : d.dmem = s.dev.dmem) (hc : ∀ c ∈ d.ctxs, ImagesOk c) : MemoriesKept { s with dev := d } := by
  refine ⟨?_, hc⟩
  unfold MemoriesOk at *
  rw [hl, hs, hd]
  exact h.1

/-- A key erased changes device memory, the seals and the pool's pages only (R438). -/
theorem eraseKey_rest (c : Context) (d : Device) :
    ∃ m x, eraseKey c d = { d with
      dmem := m, seals := x, tables := d.tables.map fun p => if p.2 == some c.num then (p.1, none) else p } ∧
      (Memory.wf d.dmem = true → Memory.wf m = true) := by
  unfold eraseKey
  dsimp only
  obtain ⟨m, x, e, h⟩ := wipes_rest _ d
  exact ⟨m, x, by rw [e], h⟩

/-- A context killed (R378). -/
theorem kept_killContext (n reason cause : Nat) (core : Option Nat) (addr : Word) {s : State} (h : MemoriesKept s) :
    MemoriesKept (killContext n reason cause core addr s) := by
  unfold killContext
  split
  · exact h
  · next x _ =>
    have hc : ∀ (p : Context → Bool), ∀ c ∈ modWhere p (fun k => { k with state := .dead, key := none }) s.dev.ctxs, ImagesOk c := by
      intro p c hc
      simp only [modWhere, List.mem_map] at hc
      obtain ⟨k, hk, rfl⟩ := hc
      split <;> exact h.2 k hk
    obtain ⟨m, y, e, hm⟩ := eraseKey_rest x s.dev
    dsimp only
    rw [e]
    split
    · exact ⟨⟨rfl, h.1.2.1, h.1.2.2.1, hm h.1.2.2.2⟩, hc _⟩
    · exact ⟨⟨h.1.1, h.1.2.1, h.1.2.2.1, hm h.1.2.2.2⟩, hc _⟩

/-- A trap taken (R358). -/
theorem kept_takeTrap (code : Byte) (tval : Word) (epc : IAddr) (op : Nat) (imp : Bool) {s : State} (h : MemoriesKept s) :
    MemoriesKept (takeTrap code tval epc op imp s) := by
  unfold takeTrap
  dsimp only
  split
  · exact kept_onHart (kept_killContext _ _ _ _ _ (kept_onHart h rfl)) rfl
  · exact kept_onHart h rfl

/-- The interval line of a write at a home (R375). -/
theorem kept_logLine (n : Nat) (l : Loc) {s : State} (h : MemoriesKept s) : MemoriesKept (logLine n l s) := by
  unfold logLine
  split
  · dsimp only
    split
    · have h1 : ∀ (e : LogEntry) (p : Loc × BitVec 512), MemoriesKept (onCtx n (fun c => { c with lines := c.lines ++ [p] }) (logAppend n e s)) :=
        fun e p => kept_onCtx_same (kept_logAppend n e h) fun c => ⟨rfl, rfl⟩
      split
      · split <;> [exact kept_killContext _ _ _ _ _ (h1 _ _); exact h1 _ _]
      · exact h1 _ _
    · exact h
  · exact h

/-- A property that every step of a fold keeps. -/
theorem foldl_kept {α σ : Type} {P : σ → Prop} {f : σ → α → σ} (hf : ∀ s a, P s → P (f s a)) (l : List α) {s : σ} (h : P s) :
    P (l.foldl f s) := by
  induction l generalizing s with
  | nil => exact h
  | cons a r ih => exact ih (hf s a h)

/-- The interval lines of a write. -/
theorem kept_logLines (n : Nat) (l : Loc) (k : Nat) {s : State} (h : MemoriesKept s) : MemoriesKept (logLines n l k s) := by
  exact foldl_kept (fun _ _ h => kept_logLine _ _ h) _ h

/-- A write at a home (R188). -/
theorem kept_homePut (l : Loc) (bs : List Byte) {s : State} (h : MemoriesKept s) : MemoriesKept (homePut l bs s) := by
  unfold homePut
  apply kept_rawPut
  split <;> [exact kept_logLines _ _ _ h; exact h]

/-- Reset's memories are in canonical form. -/
theorem reset_memoriesOk : MemoriesOk State.reset := ⟨rfl, rfl, rfl, rfl⟩

end Sys2Proof.Machine
end

