-- ==== Sys2Proof/Laws/State.lean ====
section
/-! SUPPORT. One lemma per field per update of the state, so that no proof unfolds a record update. -/

namespace Sys2Proof.Machine

@[simp] theorem onHart_hart (f : Hart → Hart) (s : State) : (onHart f s).hart = f s.hart := rfl
@[simp] theorem onHart_clu (f : Hart → Hart) (s : State) : (onHart f s).clu = s.clu := rfl
@[simp] theorem onHart_dev (f : Hart → Hart) (s : State) : (onHart f s).dev = s.dev := rfl
@[simp] theorem onHart_agenda (f : Hart → Hart) (s : State) : (onHart f s).agenda = s.agenda := rfl
@[simp] theorem onHart_waiting (f : Hart → Hart) (s : State) : (onHart f s).waiting = s.waiting := rfl
@[simp] theorem onHart_tick (f : Hart → Hart) (s : State) : (onHart f s).tick = s.tick := rfl
@[simp] theorem onHart_moved (f : Hart → Hart) (s : State) : (onHart f s).moved = s.moved := rfl

@[simp] theorem onClu_hart (f : Cluster → Cluster) (s : State) : (onClu f s).hart = s.hart := rfl
@[simp] theorem onClu_clu (f : Cluster → Cluster) (s : State) : (onClu f s).clu = f s.clu := rfl
@[simp] theorem onClu_dev (f : Cluster → Cluster) (s : State) : (onClu f s).dev = s.dev := rfl
@[simp] theorem onClu_agenda (f : Cluster → Cluster) (s : State) : (onClu f s).agenda = s.agenda := rfl
@[simp] theorem onClu_waiting (f : Cluster → Cluster) (s : State) : (onClu f s).waiting = s.waiting := rfl
@[simp] theorem onClu_tick (f : Cluster → Cluster) (s : State) : (onClu f s).tick = s.tick := rfl
@[simp] theorem onClu_moved (f : Cluster → Cluster) (s : State) : (onClu f s).moved = s.moved := rfl

@[simp] theorem onDev_hart (f : Device → Device) (s : State) : (onDev f s).hart = s.hart := rfl
@[simp] theorem onDev_clu (f : Device → Device) (s : State) : (onDev f s).clu = s.clu := rfl
@[simp] theorem onDev_dev (f : Device → Device) (s : State) : (onDev f s).dev = f s.dev := rfl
@[simp] theorem onDev_agenda (f : Device → Device) (s : State) : (onDev f s).agenda = s.agenda := rfl
@[simp] theorem onDev_waiting (f : Device → Device) (s : State) : (onDev f s).waiting = s.waiting := rfl
@[simp] theorem onDev_tick (f : Device → Device) (s : State) : (onDev f s).tick = s.tick := rfl
@[simp] theorem onDev_moved (f : Device → Device) (s : State) : (onDev f s).moved = s.moved := rfl

@[simp] theorem onCtx_hart (n : Nat) (f : Context → Context) (s : State) : (onCtx n f s).hart = s.hart := rfl
@[simp] theorem onCtx_clu (n : Nat) (f : Context → Context) (s : State) : (onCtx n f s).clu = s.clu := rfl
@[simp] theorem onCur_hart (f : Context → Context) (s : State) : (onCur f s).hart = s.hart := rfl
@[simp] theorem onCur_clu (f : Context → Context) (s : State) : (onCur f s).clu = s.clu := rfl
@[simp] theorem onTensor_hart (n : Nat) (f : Tensor → Tensor) (s : State) : (onTensor n f s).hart = s.hart := rfl
@[simp] theorem onTensor_clu (n : Nat) (f : Tensor → Tensor) (s : State) : (onTensor n f s).clu = s.clu := rfl

@[simp] theorem freeOldest_hart (need : Nat) (s : State) : (freeOldest need s).hart = s.hart := by
  unfold freeOldest; split <;> [(split <;> rfl); rfl]
@[simp] theorem freeOldest_clu (need : Nat) (s : State) : (freeOldest need s).clu = s.clu := by
  unfold freeOldest; split <;> [(split <;> rfl); rfl]

@[simp] theorem passTime_hart (s : State) : (passTime s).hart = s.hart := rfl
@[simp] theorem passTime_clu (s : State) : (passTime s).clu = s.clu := rfl

@[simp] theorem setFlags_regs (f : Nat) (s : State) : (setFlags f s).hart.regs = s.hart.regs := rfl
@[simp] theorem setFlags_pc (f : Nat) (s : State) : (setFlags f s).hart.pc = s.hart.pc := rfl
@[simp] theorem setFlags_clu (f : Nat) (s : State) : (setFlags f s).clu = s.clu := rfl
@[simp] theorem setFlags_dev (f : Nat) (s : State) : (setFlags f s).dev = s.dev := rfl
@[simp] theorem setLfsr_regs (l : Word) (s : State) : (setLfsr l s).hart.regs = s.hart.regs := rfl
@[simp] theorem setLfsr_pc (l : Word) (s : State) : (setLfsr l s).hart.pc = s.hart.pc := rfl
@[simp] theorem setLfsr_clu (l : Word) (s : State) : (setLfsr l s).clu = s.clu := rfl
@[simp] theorem setLfsr_dev (l : Word) (s : State) : (setLfsr l s).dev = s.dev := rfl
@[simp] theorem setPc_pc (a : IAddr) (s : State) : (setPc a s).hart.pc = a := rfl
@[simp] theorem setPc_regs (a : IAddr) (s : State) : (setPc a s).hart.regs = s.hart.regs := rfl
@[simp] theorem setPc_clu (a : IAddr) (s : State) : (setPc a s).clu = s.clu := rfl
@[simp] theorem setPc_dev (a : IAddr) (s : State) : (setPc a s).dev = s.dev := rfl

@[simp] theorem setX_clu (r : Reg) (v : Word) (s : State) : (setX r v s).clu = s.clu := by
  unfold setX; split <;> [rfl; (split <;> rfl)]
@[simp] theorem setX_dev (r : Reg) (v : Word) (s : State) : (setX r v s).dev = s.dev := by
  unfold setX; split <;> [rfl; (split <;> rfl)]
@[simp] theorem setX_ar (r : Reg) (v : Word) (s : State) : (setX r v s).hart.ar = s.hart.ar := by
  unfold setX; split <;> [rfl; (split <;> rfl)]
@[simp] theorem setX_ui (r : Reg) (v : Word) (s : State) : (setX r v s).hart.ui = s.hart.ui := by
  unfold setX; split <;> [rfl; (split <;> rfl)]
@[simp] theorem setX_pc (r : Reg) (v : Word) (s : State) : (setX r v s).hart.pc = s.hart.pc := by
  unfold setX; split <;> [rfl; (split <;> rfl)]
@[simp] theorem setX_zero (v : Word) (s : State) : setX 0#5 v s = s := rfl

@[simp] theorem setV_clu (r : VReg) (v : VWord) (s : State) : (setV r v s).clu = s.clu := by unfold setV; split <;> rfl
@[simp] theorem setV_dev (r : VReg) (v : VWord) (s : State) : (setV r v s).dev = s.dev := by unfold setV; split <;> rfl
@[simp] theorem setV_ar (r : VReg) (v : VWord) (s : State) : (setV r v s).hart.ar = s.hart.ar := by unfold setV; split <;> rfl
@[simp] theorem setV_ui (r : VReg) (v : VWord) (s : State) : (setV r v s).hart.ui = s.hart.ui := by unfold setV; split <;> rfl
@[simp] theorem setV_pc (r : VReg) (v : VWord) (s : State) : (setV r v s).hart.pc = s.hart.pc := by unfold setV; split <;> rfl

@[simp] theorem setK_clu (q : MSel) (v : MWord) (s : State) : (setK q v s).clu = s.clu := by unfold setK; split <;> rfl
@[simp] theorem setK_dev (q : MSel) (v : MWord) (s : State) : (setK q v s).dev = s.dev := by unfold setK; split <;> rfl
@[simp] theorem setK_ar (q : MSel) (v : MWord) (s : State) : (setK q v s).hart.ar = s.hart.ar := by unfold setK; split <;> rfl
@[simp] theorem setK_pc (q : MSel) (v : MWord) (s : State) : (setK q v s).hart.pc = s.hart.pc := by unfold setK; split <;> rfl

end Sys2Proof.Machine
end

