-- ==== Sys2Proof/Laws/Kept.lean ====
section
/-! SUPPORT. The operations that every instruction ends with, and those of the points and homes, keep the canonical form of
every memory: each is said once here, and instructions cite it. -/

namespace Sys2Proof.Machine

/-- What an outcome keeps: its next state, if it answers one. -/
def Keeps (o : Out) : Prop := ∀ t, o = .next t → MemoriesKept t

theorem keeps_next {t : State} (h : MemoriesKept t) : Keeps (.next t) := fun _ e => by cases e; exact h

/-! ## Registers -/

theorem setX_imem (r : Reg) (v : Word) (s : State) : (setX r v s).hart.imem = s.hart.imem := by
  unfold setX; split <;> [rfl; (split <;> rfl)]
theorem setV_imem (r : VReg) (v : VWord) (s : State) : (setV r v s).hart.imem = s.hart.imem := by unfold setV; split <;> rfl
theorem setK_imem (q : MSel) (v : MWord) (s : State) : (setK q v s).hart.imem = s.hart.imem := by unfold setK; split <;> rfl

theorem kept_setX (r : Reg) (v : Word) {s : State} (h : MemoriesKept s) : MemoriesKept (setX r v s) := by
  have hd := setX_dev r v s
  exact kept_congr h (setX_imem r v s) (by rw [hd]) (by rw [hd]) (by rw [hd]) (by rw [hd])
theorem kept_setV (r : VReg) (v : VWord) {s : State} (h : MemoriesKept s) : MemoriesKept (setV r v s) := by
  have hd := setV_dev r v s
  exact kept_congr h (setV_imem r v s) (by rw [hd]) (by rw [hd]) (by rw [hd]) (by rw [hd])
theorem kept_setK (q : MSel) (v : MWord) {s : State} (h : MemoriesKept s) : MemoriesKept (setK q v s) := by
  have hd := setK_dev q v s
  exact kept_congr h (setK_imem q v s) (by rw [hd]) (by rw [hd]) (by rw [hd]) (by rw [hd])
theorem kept_setFlags (f : Nat) {s : State} (h : MemoriesKept s) : MemoriesKept (setFlags f s) := kept_onHart h rfl
theorem kept_setPc (a : IAddr) {s : State} (h : MemoriesKept s) : MemoriesKept (setPc a s) := kept_onHart h rfl
theorem kept_markEffect {s : State} (h : MemoriesKept s) : MemoriesKept (markEffect s) := kept_onHart h rfl
theorem kept_openHeldLanes (dst : Dst) (la : BitVec 4) (v lanes : VWord) (missing flags : Nat) {s : State} (h : MemoriesKept s) :
    MemoriesKept (openHeldLanes dst la v lanes missing flags s) := kept_onHart h rfl
theorem kept_openHeld (dst : Dst) (la : BitVec 4) (v : VWord) (missing flags : Nat) {s : State} (h : MemoriesKept s) :
    MemoriesKept (openHeld dst la v missing flags s) := kept_onHart h rfl

/-! ## The log -/

theorem dropOldest_images (s : State) (need : Nat) (l : List LogEntry) (c : Context) :
    (dropOldest s need l c).switchImg = c.switchImg ∧ (dropOldest s need l c).boundImg = c.boundImg := by
  induction l generalizing c with
  | nil => exact ⟨rfl, rfl⟩
  | cons e r ih =>
    unfold dropOldest
    split
    · exact ⟨rfl, rfl⟩
    · split
      · exact ih c
      · exact ih _

/-- Entries freed under DROP_OLDEST keep the memories. -/
theorem kept_freeOldest (need : Nat) {s : State} (h : MemoriesKept s) : MemoriesKept (freeOldest need s) := by
  unfold freeOldest
  split
  · next c hc =>
    have hm : c ∈ s.dev.ctxs := List.mem_of_find?_eq_some hc
    split
    · refine kept_onCtx h fun _ _ => ?_
      unfold ImagesOk
      rw [(dropOldest_images _ _ _ c).1, (dropOldest_images _ _ _ c).2]
      exact h.2 c hm
    · exact h
  · exact h

theorem kept_reserveLog {need : Nat} {s t : State} (h : MemoriesKept s) (hr : reserveLog need s = some t) : MemoriesKept t := by
  unfold reserveLog at hr
  split at hr
  · cases hr; exact h
  · split at hr
    · cases hr; exact h
    · split at hr
      · cases hr; exact h
      · dsimp only at hr
        split at hr
        · split at hr
          · cases hr; exact kept_freeOldest need h
          · cases hr
        · cases hr

theorem keeps_holdCounted (i : Fin 9) {s : State} (h : MemoriesKept s) : Keeps (holdCounted i s) :=
  keeps_next (kept_congr h rfl rfl rfl rfl rfl)
theorem keeps_holdScribe {s : State} (h : MemoriesKept s) : Keeps (holdScribe s) := keeps_next (kept_congr h rfl rfl rfl rfl rfl)
theorem keeps_trap (c : Cause) (v : Word) {s : State} (h : MemoriesKept s) : Keeps (trap c v s) :=
  keeps_next (kept_takeTrap _ _ _ _ _ h)
theorem keeps_illegal (w : IWord) {s : State} (h : MemoriesKept s) : Keeps (illegal w s) := keeps_trap _ _ h

theorem keeps_withLog {s0 s : State} (need : Nat) {k : State → Out} (h0 : MemoriesKept s0) (h : MemoriesKept s)
    (hk : ∀ t, MemoriesKept t → Keeps (k t)) : Keeps (withLog s0 need s k) := by
  unfold withLog
  split
  · next t ht => exact hk t (kept_reserveLog h ht)
  · split
    · split <;> [exact keeps_trap _ _ h0; exact keeps_holdCounted _ (kept_freeOldest _ h0)]
    · exact keeps_next h0

/-! ## Retiring -/

theorem kept_countLog (core : Nat) {s : State} (h : MemoriesKept s) : MemoriesKept (countLog core s) := by
  unfold countLog
  split <;> [exact kept_onHart h rfl; exact h]

theorem kept_logValue (v : VWord) (n : Nat) (win : BitVec 16) {s : State} (h : MemoriesKept s) :
    MemoriesKept (logValue v n win s) := kept_countLog _ (kept_logAppend _ _ h)

theorem kept_ringPush (s0 : State) (pc : IAddr) (code : Nat) (first kill : Bool) {s : State} (h : MemoriesKept s) :
    MemoriesKept (ringPush s0 pc code first kill s) := by
  unfold ringPush
  dsimp only
  refine kept_onHart ?_ rfl
  split <;> [exact h; exact kept_logValue _ _ _ h]

theorem kept_ringPushAll (s0 : State) (pc : IAddr) (kill : Bool) (l : List Nat) (first : Bool) {s : State} (h : MemoriesKept s) :
    MemoriesKept (ringPushAll s0 pc kill l first s) := by
  induction l generalizing first s with
  | nil => exact h
  | cons c r ih => exact ih false (kept_ringPush _ _ _ _ _ h)

theorem kept_passCycle {s : State} (h : MemoriesKept s) : MemoriesKept (passCycle s) := kept_congr h rfl rfl rfl rfl rfl

theorem kept_ringRecord (s0 : State) (regs : List Nat) (kill : Bool) {s : State} (h : MemoriesKept s) :
    MemoriesKept (ringRecord s0 regs kill s) := by
  unfold ringRecord
  split
  · split <;> [exact kept_ringPushAll _ _ _ _ _ (kept_passCycle h); exact h]
  · exact h

theorem kept_tally (s0 : State) (regs : List Nat) (kill : Bool) {s : State} (h : MemoriesKept s) :
    MemoriesKept (tally s0 regs kill s) := kept_onHart (kept_ringRecord s0 regs kill h) rfl

/-- What every retired instruction does keeps the memories. -/
theorem kept_retired (s0 : State) (regs : List Nat) (kill : Bool) {s : State} (h : MemoriesKept s) :
    MemoriesKept (retired s0 regs kill s) := by
  unfold retired stepTrap
  split <;> [exact kept_takeTrap _ _ _ _ _ (kept_tally _ _ _ h); exact kept_tally _ _ _ h]

theorem advance_imem (h : Hart) : (advance h).imem = h.imem := by
  unfold advance
  split <;> [rfl; (split <;> [rfl; (split <;> rfl)])]

/-- The end of an instruction keeps the memories. -/
theorem keeps_finish {s0 s : State} (regs : List Nat) (h0 : MemoriesKept s0) (h : MemoriesKept s) : Keeps (finish s0 regs s) :=
  keeps_withLog _ h0 h fun _ ht => keeps_next (kept_retired _ _ _ (kept_onHart ht (advance_imem _)))
theorem keeps_finishFx {s0 s : State} (regs : List Nat) (h0 : MemoriesKept s0) (h : MemoriesKept s) : Keeps (finishFx s0 regs s) :=
  keeps_finish regs h0 (kept_markEffect h)
theorem keeps_finishAt {s0 s : State} (regs : List Nat) (a : IAddr) (h : MemoriesKept s) : Keeps (finishAt s0 regs a s) :=
  keeps_next (kept_retired _ _ _ (kept_setPc a h))
theorem keeps_finishHeldX {s0 s : State} (d : Reg) (la : BitVec 4) (v : Word) (h0 : MemoriesKept s0) (h : MemoriesKept s) :
    Keeps (finishHeldX s0 d la v s) := keeps_finish _ h0 (kept_openHeld _ _ _ _ _ h)

/-! ## Stops and watchpoints -/

theorem kept_stopHart (why : Nat) {s : State} (h : MemoriesKept s) : MemoriesKept (stopHart why s) := by
  unfold stopHart
  split <;> [exact kept_onHart (kept_passTime h) rfl; exact h]

theorem kept_gangStop (n why : Nat) {s : State} (h : MemoriesKept s) : MemoriesKept (gangStop n why s) := by
  unfold gangStop
  split
  · exact h
  · split
    · exact h
    · have h1 : MemoriesKept (onCtx n (ctxStopped s.dev.time why) s) := kept_onCtx_same h fun _ => ⟨rfl, rfl⟩
      dsimp only
      split <;> [exact kept_stopHart _ h1; exact h1]

theorem kept_stopSet (n : Nat) (scope : Bool) {s : State} (h : MemoriesKept s) : MemoriesKept (stopSet n scope s) := by
  unfold stopSet
  split <;> [exact kept_gangStop _ _ h; exact kept_stopHart _ h]

theorem kept_watchStop (n : Nat) (w : Watch) (a : WatchAccess) (mine here : Bool) {s : State} (h : MemoriesKept s) :
    MemoriesKept (watchStop n w a mine here s) := by
  unfold watchStop
  dsimp only
  repeat' split
  all_goals first
    | exact kept_stopSet _ _ (kept_onHart h (by rfl))
    | exact kept_stopSet _ _ h
    | exact kept_onHart h (by rfl)
    | exact h

theorem kept_watchAccess (n : Nat) (a : WatchAccess) (icount : Word) {s : State} (h : MemoriesKept s) :
    MemoriesKept (watchAccess n a icount s) := by
  unfold watchAccess
  split
  · exact h
  · split
    · exact h
    · split
      · exact h
      · dsimp only
        repeat' split
        all_goals first
          | exact kept_watchStop _ _ _ _ _ (kept_onCtx_same (kept_passTime h) fun _ => ⟨rfl, rfl⟩)
          | exact kept_gangStop _ _ (kept_onHart (kept_onCtx_same (kept_passTime h) fun _ => ⟨rfl, rfl⟩) (by rfl))
          | exact kept_stopHart _ (kept_onHart (kept_onCtx_same (kept_passTime h) fun _ => ⟨rfl, rfl⟩) (by rfl))
          | exact kept_onHart (kept_onCtx_same (kept_passTime h) fun _ => ⟨rfl, rfl⟩) (by rfl)
          | exact kept_onCtx_same (kept_passTime h) fun _ => ⟨rfl, rfl⟩

/-! ## Writes at their points and homes -/



theorem kept_logWrite (o : Origin) (kind : Nat) (eng : Bool) (va : Word) (l : Loc) (old : List Byte) {s : State}
    (h : MemoriesKept s) : MemoriesKept (logWrite o kind eng va l old s) := by
  unfold logWrite logWriteAt
  split
  · exact kept_countLog _ (kept_logAppend _ _ h)
  · exact h

/-- A write performed at its memory (R186, R188) keeps the memories. -/
theorem kept_performWrite (o : Origin) (kind : Nat) (va : Word) (l : Loc) (bs : List Byte) {s : State} (h : MemoriesKept s) :
    MemoriesKept (performWrite o kind va l bs s) := kept_watchAccess _ _ _ (kept_homePut _ _ (kept_logWrite _ _ _ _ _ _ h))

theorem kept_combineAt (n : Nat) (l : Loc) (op : RmwOp) (size : Nat) (cells : List (Nat × Word)) {s : State} (h : MemoriesKept s) :
    MemoriesKept (combineAt n l op size cells s) := by
  induction cells generalizing s with
  | nil => exact h
  | cons c r ih => exact ih (kept_watchAccess _ _ _ (kept_homePut _ _ h))

theorem kept_uoRecallLine (x : CmLine) {s : State} (h : MemoriesKept s) : MemoriesKept (uoRecallLine x s) := by
  unfold uoRecallLine
  split <;> [exact h; exact kept_combineAt _ _ _ _ _ (kept_onClu _ h)]

/-- Update-only lines recalled (R219) keep the memories. -/
theorem kept_uoRecallAll (p : CmLine → Bool) {s : State} (h : MemoriesKept s) : MemoriesKept (uoRecallAll p s) :=
  foldl_kept (fun _ _ h => kept_uoRecallLine _ h) _ h
theorem kept_recallAt (l : Loc) (n : Nat) {s : State} (h : MemoriesKept s) : MemoriesKept (recallAt l n s) := kept_uoRecallAll _ h

theorem kept_poisonRange (l : Loc) (n : Nat) {s : State} (h : MemoriesKept s) : MemoriesKept (poisonRange l n s) := by
  unfold poisonRange
  refine kept_congr h rfl ?_ ?_ ?_ ?_ <;> (dsimp only [onDev]; split <;> rfl)

theorem kept_postMsg (core : Nat) (m : Msg) {s : State} (h : MemoriesKept s) : MemoriesKept (postMsg core m s) := by
  unfold postMsg
  repeat' split
  all_goals exact h

theorem kept_writebackLost (l : Loc) (m : BitVec 128) {s : State} (h : MemoriesKept s) : MemoriesKept (writebackLost l m s) := by
  unfold writebackLost
  split
  · exact h
  · exact kept_postMsg _ _ (foldl_kept (fun _ _ h => kept_poisonRange _ _ h) _ h)

theorem kept_performWriteback (l : Loc) (m : BitVec 128) (d : BitVec 1024) (bad : BitVec 128) {s : State} (h : MemoriesKept s) :
    MemoriesKept (performWriteback l m d bad s) :=
  kept_writebackLost _ _ (foldl_kept (fun _ _ h => kept_homePut _ _ h) _ h)

theorem kept_flushLine (x : CmLine) {s : State} (h : MemoriesKept s) : MemoriesKept (flushLine x s) := kept_performWriteback _ _ _ _ h

theorem kept_engPut (o : Origin) (va : Word) (l : Loc) (bs : List Byte) {s : State} (h : MemoriesKept s) :
    MemoriesKept (engPut o va l bs s) := kept_watchAccess _ _ _ (kept_homePut _ _ (kept_recallAt _ _ h))
theorem kept_engRead (o : Origin) (va : Word) (l : Loc) (n : Nat) {s : State} (h : MemoriesKept s) :
    MemoriesKept (engRead o va l n s).2 := kept_watchAccess _ _ _ (kept_recallAt _ _ h)

theorem kept_flushLines {s : State} (h : MemoriesKept s) : MemoriesKept (flushLines s) :=
  kept_onHart (kept_onClu _ (foldl_kept (fun _ _ h => kept_flushLine _ h) _ (kept_uoRecallAll _ h))) rfl

/-! ## Stops that end -/

theorem kept_endStop {s : State} (h : MemoriesKept s) : MemoriesKept (endStop s) := by
  unfold endStop
  split <;> [exact h; exact kept_onClu _ (kept_onHart h rfl)]

/-! ## Fences -/

theorem kept_acquireMoves (sc : Scope) {s : State} (h : MemoriesKept s) : MemoriesKept (acquireMoves sc s) := by
  unfold acquireMoves
  split <;> exact h

theorem kept_settleFence (f : Fence) {s : State} (h : MemoriesKept s) : MemoriesKept (settleFence f s).2 := by
  unfold settleFence
  dsimp only
  repeat' split
  all_goals first | exact h | exact kept_acquireMoves _ h

theorem kept_settleList (l : List Fence) {s : State} (h : MemoriesKept s) : MemoriesKept (settleList l s).2 := by
  induction l generalizing s with
  | nil => exact h
  | cons f r ih => exact ih (kept_settleFence f h)

/-- Fences settled keep the memories. -/
theorem kept_settle {s : State} (h : MemoriesKept s) : MemoriesKept (settle s) := by
  unfold settle
  split <;> [exact h; exact kept_onHart (kept_settleList _ h) rfl]

theorem kept_resumeFences {s : State} (h : MemoriesKept s) : MemoriesKept (resumeFences s) := kept_settle (kept_onHart h rfl)

end Sys2Proof.Machine
end

