-- ==== Sys2Proof/Laws/PerInstr.lean ====
section
/-! SUPPORT. One lemma per instruction of the family MajorNotZero: the word of an instruction has a major opcode of R44, none
of which is 0, and an event has no word; so the word 0 is no instruction's. -/

namespace Sys2Proof.Laws

namespace MajorNotZero

/-- An event has no word; an instruction's major opcode is not 0 (R44). -/
def Statement (i : Instr) : Prop := encode i = 0 ∨ fld (encode i) 25 7 ≠ 0

/-- A major opcode that is not 0. -/
theorem of_major {w : IWord} {m : BitVec 7} (h : fld w 25 7 = m) (hm : (m == 0#7) = false) : w = 0 ∨ fld w 25 7 ≠ 0 :=
  .inr (h ▸ ne_of_beq_false hm)

theorem add (d : Reg) (a : Reg) (b : Reg) : Statement (.add d a b) := of_major (fld_encX_m 0x01#7 _ _ _ _ _) rfl
theorem sub (d : Reg) (a : Reg) (b : Reg) : Statement (.sub d a b) := of_major (fld_encX_m 0x01#7 _ _ _ _ _) rfl
theorem mul (d : Reg) (a : Reg) (b : Reg) : Statement (.mul d a b) := of_major (fld_encX_m 0x01#7 _ _ _ _ _) rfl
theorem mulh (d : Reg) (a : Reg) (b : Reg) : Statement (.mulh d a b) := of_major (fld_encX_m 0x01#7 _ _ _ _ _) rfl
theorem mulhn (d : Reg) (a : Reg) (b : Reg) : Statement (.mulhn d a b) := of_major (fld_encX_m 0x01#7 _ _ _ _ _) rfl
theorem div (d : Reg) (a : Reg) (b : Reg) (l : BitVec 4) : Statement (.div d a b l) := of_major (fld_encX_m 0x01#7 _ _ _ _ _) rfl
theorem divn (d : Reg) (a : Reg) (b : Reg) (l : BitVec 4) : Statement (.divn d a b l) := of_major (fld_encX_m 0x01#7 _ _ _ _ _) rfl
theorem rem (d : Reg) (a : Reg) (b : Reg) (l : BitVec 4) : Statement (.rem d a b l) := of_major (fld_encX_m 0x01#7 _ _ _ _ _) rfl
theorem remn (d : Reg) (a : Reg) (b : Reg) (l : BitVec 4) : Statement (.remn d a b l) := of_major (fld_encX_m 0x01#7 _ _ _ _ _) rfl
theorem and (d : Reg) (a : Reg) (b : Reg) : Statement (.and d a b) := of_major (fld_encX_m 0x01#7 _ _ _ _ _) rfl
theorem or (d : Reg) (a : Reg) (b : Reg) : Statement (.or d a b) := of_major (fld_encX_m 0x01#7 _ _ _ _ _) rfl
theorem xor (d : Reg) (a : Reg) (b : Reg) : Statement (.xor d a b) := of_major (fld_encX_m 0x01#7 _ _ _ _ _) rfl
theorem andn (d : Reg) (a : Reg) (b : Reg) : Statement (.andn d a b) := of_major (fld_encX_m 0x01#7 _ _ _ _ _) rfl
theorem shl (d : Reg) (a : Reg) (b : Reg) : Statement (.shl d a b) := of_major (fld_encX_m 0x01#7 _ _ _ _ _) rfl
theorem shr (d : Reg) (a : Reg) (b : Reg) : Statement (.shr d a b) := of_major (fld_encX_m 0x01#7 _ _ _ _ _) rfl
theorem sar (d : Reg) (a : Reg) (b : Reg) : Statement (.sar d a b) := of_major (fld_encX_m 0x01#7 _ _ _ _ _) rfl
theorem rol (d : Reg) (a : Reg) (b : Reg) : Statement (.rol d a b) := of_major (fld_encX_m 0x01#7 _ _ _ _ _) rfl
theorem ror (d : Reg) (a : Reg) (b : Reg) : Statement (.ror d a b) := of_major (fld_encX_m 0x01#7 _ _ _ _ _) rfl
theorem min (d : Reg) (a : Reg) (b : Reg) : Statement (.min d a b) := of_major (fld_encX_m 0x01#7 _ _ _ _ _) rfl
theorem max (d : Reg) (a : Reg) (b : Reg) : Statement (.max d a b) := of_major (fld_encX_m 0x01#7 _ _ _ _ _) rfl
theorem minn (d : Reg) (a : Reg) (b : Reg) : Statement (.minn d a b) := of_major (fld_encX_m 0x01#7 _ _ _ _ _) rfl
theorem maxn (d : Reg) (a : Reg) (b : Reg) : Statement (.maxn d a b) := of_major (fld_encX_m 0x01#7 _ _ _ _ _) rfl
theorem clz (d : Reg) (a : Reg) : Statement (.clz d a) := of_major (fld_encX_m 0x01#7 _ _ _ _ _) rfl
theorem ctz (d : Reg) (a : Reg) : Statement (.ctz d a) := of_major (fld_encX_m 0x01#7 _ _ _ _ _) rfl
theorem popc (d : Reg) (a : Reg) : Statement (.popc d a) := of_major (fld_encX_m 0x01#7 _ _ _ _ _) rfl
theorem slt (d : Reg) (a : Reg) (b : Reg) : Statement (.slt d a b) := of_major (fld_encX_m 0x01#7 _ _ _ _ _) rfl
theorem sltn (d : Reg) (a : Reg) (b : Reg) : Statement (.sltn d a b) := of_major (fld_encX_m 0x01#7 _ _ _ _ _) rfl
theorem seq (d : Reg) (a : Reg) (b : Reg) : Statement (.seq d a b) := of_major (fld_encX_m 0x01#7 _ _ _ _ _) rfl
theorem bext (d : Reg) (a : Reg) (b : Reg) : Statement (.bext d a b) := of_major (fld_encX_m 0x01#7 _ _ _ _ _) rfl
theorem bins (d : Reg) (a : Reg) (b : Reg) : Statement (.bins d a b) := of_major (fld_encX_m 0x01#7 _ _ _ _ _) rfl
theorem fshl (d : Reg) (a : Reg) (b : Reg) : Statement (.fshl d a b) := of_major (fld_encX_m 0x01#7 _ _ _ _ _) rfl
theorem fshr (d : Reg) (a : Reg) (b : Reg) : Statement (.fshr d a b) := of_major (fld_encX_m 0x01#7 _ _ _ _ _) rfl
theorem addi (d : Reg) (a : Reg) (i : BitVec 15) : Statement (.addi d a i) := of_major (fld_encSI_m 0x02#7 _ _ _) rfl
theorem andi (d : Reg) (a : Reg) (i : BitVec 15) : Statement (.andi d a i) := of_major (fld_encSI_m 0x03#7 _ _ _) rfl
theorem ori (d : Reg) (a : Reg) (i : BitVec 15) : Statement (.ori d a i) := of_major (fld_encSI_m 0x04#7 _ _ _) rfl
theorem xori (d : Reg) (a : Reg) (i : BitVec 15) : Statement (.xori d a i) := of_major (fld_encSI_m 0x05#7 _ _ _) rfl
theorem slti (d : Reg) (a : Reg) (i : BitVec 15) : Statement (.slti d a i) := of_major (fld_encSI_m 0x06#7 _ _ _) rfl
theorem shli (d : Reg) (a : Reg) (s : BitVec 8) : Statement (.shli d a s) := of_major (fld_encSI_m 0x07#7 _ _ _) rfl
theorem shri (d : Reg) (a : Reg) (s : BitVec 8) : Statement (.shri d a s) := of_major (fld_encSI_m 0x07#7 _ _ _) rfl
theorem sari (d : Reg) (a : Reg) (s : BitVec 8) : Statement (.sari d a s) := of_major (fld_encSI_m 0x07#7 _ _ _) rfl
theorem rori (d : Reg) (a : Reg) (s : BitVec 8) : Statement (.rori d a s) := of_major (fld_encSI_m 0x07#7 _ _ _) rfl
theorem li (d : Reg) (i : BitVec 20) : Statement (.li d i) := of_major (fld_encSJ_m 0x08#7 _ _) rfl
theorem lui (d : Reg) (i : BitVec 20) : Statement (.lui d i) := of_major (fld_encSJ_m 0x09#7 _ _) rfl
theorem lhi (d : Reg) (i : BitVec 20) : Statement (.lhi d i) := of_major (fld_encSJ_m 0x0A#7 _ _) rfl
theorem beq (a : Reg) (b : Reg) (o : BitVec 12) : Statement (.beq a b o) := of_major (fld_encSB_m 0x0B#7 _ _ _ _) rfl
theorem bne (a : Reg) (b : Reg) (o : BitVec 12) : Statement (.bne a b o) := of_major (fld_encSB_m 0x0B#7 _ _ _ _) rfl
theorem blt (a : Reg) (b : Reg) (o : BitVec 12) : Statement (.blt a b o) := of_major (fld_encSB_m 0x0B#7 _ _ _ _) rfl
theorem bge (a : Reg) (b : Reg) (o : BitVec 12) : Statement (.bge a b o) := of_major (fld_encSB_m 0x0B#7 _ _ _ _) rfl
theorem bltn (a : Reg) (b : Reg) (o : BitVec 12) : Statement (.bltn a b o) := of_major (fld_encSB_m 0x0B#7 _ _ _ _) rfl
theorem bgen (a : Reg) (b : Reg) (o : BitVec 12) : Statement (.bgen a b o) := of_major (fld_encSB_m 0x0B#7 _ _ _ _) rfl
theorem jal (d : Reg) (o : BitVec 20) : Statement (.jal d o) := of_major (fld_encSJ_m 0x0C#7 _ _) rfl
theorem jr (d : Reg) (a : Reg) : Statement (.jr d a) := of_major (fld_encX_m 0x0D#7 _ _ _ _ _) rfl
theorem jrf (d : Reg) (a : Reg) : Statement (.jrf d a) := of_major (fld_encX_m 0x0D#7 _ _ _ _ _) rfl
theorem jf (d : Reg) (o : BitVec 20) : Statement (.jf d o) := of_major (fld_encSJ_m 0x0E#7 _ _) rfl
theorem rpt (r : BitVec 4) (n : BitVec 4) (d : BitVec 5) (s : BitVec 5) : Statement (.rpt r n d s) := of_major (fld_encRF_m 0x0F#7 _ _ _ _ _) rfl
theorem cfetch (a : Reg) (b : Reg) : Statement (.cfetch a b) := of_major (fld_encX_m 0x10#7 _ _ _ _ _) rfl
theorem cfstat (d : Reg) (a : Reg) : Statement (.cfstat d a) := of_major (fld_encX_m 0x10#7 _ _ _ _ _) rfl
theorem csrr (d : Reg) (c : BitVec 12) : Statement (.csrr d c) := of_major (fld_encCS_m 0x11#7 _ _ _ _) rfl
theorem csrw (d : Reg) (a : Reg) (c : BitVec 12) : Statement (.csrw d a c) := of_major (fld_encCS_m 0x11#7 _ _ _ _) rfl
theorem csrs (d : Reg) (a : Reg) (c : BitVec 12) : Statement (.csrs d a c) := of_major (fld_encCS_m 0x11#7 _ _ _ _) rfl
theorem csrc (d : Reg) (a : Reg) (c : BitVec 12) : Statement (.csrc d a c) := of_major (fld_encCS_m 0x11#7 _ _ _ _) rfl
theorem csrx (d : Reg) (a : Reg) (c : BitVec 12) : Statement (.csrx d a c) := of_major (fld_encCS_m 0x11#7 _ _ _ _) rfl
theorem csrWrite (csr : BitVec 12) (v : Word) : Statement (.csrWrite csr v) := .inl rfl
theorem lfsrWrite (v : Word) : Statement (.lfsrWrite v) := .inl rfl
theorem ulfullClear (v : Word) : Statement (.ulfullClear v) := .inl rfl
theorem crootWrite (v : Word) : Statement (.crootWrite v) := .inl rfl
theorem vadd (d : VReg) (a : Src) (b : Src) (t : Ty) (q : MSel) : Statement (.vadd d a b t q) := of_major (fld_encVR_m 0x18#7 _ _ _ _ _) rfl
theorem vsub (d : VReg) (a : Src) (b : Src) (t : Ty) (q : MSel) : Statement (.vsub d a b t q) := of_major (fld_encVR_m 0x19#7 _ _ _ _ _) rfl
theorem vmul (d : VReg) (a : Src) (b : Src) (t : Ty) (q : MSel) : Statement (.vmul d a b t q) := of_major (fld_encVR_m 0x1A#7 _ _ _ _ _) rfl
theorem vfma (d : VReg) (a : Src) (b : Src) (t : Ty) (q : MSel) : Statement (.vfma d a b t q) := of_major (fld_encVR_m 0x1B#7 _ _ _ _ _) rfl
theorem vfnma (d : VReg) (a : Src) (b : Src) (t : Ty) (q : MSel) : Statement (.vfnma d a b t q) := of_major (fld_encVR_m 0x1C#7 _ _ _ _ _) rfl
theorem vmin (d : VReg) (a : Src) (b : Src) (t : Ty) (q : MSel) : Statement (.vmin d a b t q) := of_major (fld_encVR_m 0x1D#7 _ _ _ _ _) rfl
theorem vmax (d : VReg) (a : Src) (b : Src) (t : Ty) (q : MSel) : Statement (.vmax d a b t q) := of_major (fld_encVR_m 0x1E#7 _ _ _ _ _) rfl
theorem vadds (d : VReg) (a : Src) (b : Src) (t : Ty) (q : MSel) : Statement (.vadds d a b t q) := of_major (fld_encVR_m 0x1F#7 _ _ _ _ _) rfl
theorem vsubs (d : VReg) (a : Src) (b : Src) (t : Ty) (q : MSel) : Statement (.vsubs d a b t q) := of_major (fld_encVR_m 0x20#7 _ _ _ _ _) rfl
theorem vmulh (d : VReg) (a : Src) (b : Src) (t : Ty) (q : MSel) : Statement (.vmulh d a b t q) := of_major (fld_encVR_m 0x21#7 _ _ _ _ _) rfl
theorem vand (d : VReg) (a : Src) (b : Src) (t : Ty) (q : MSel) : Statement (.vand d a b t q) := of_major (fld_encVR_m 0x22#7 _ _ _ _ _) rfl
theorem vor (d : VReg) (a : Src) (b : Src) (t : Ty) (q : MSel) : Statement (.vor d a b t q) := of_major (fld_encVR_m 0x23#7 _ _ _ _ _) rfl
theorem vxor (d : VReg) (a : Src) (b : Src) (t : Ty) (q : MSel) : Statement (.vxor d a b t q) := of_major (fld_encVR_m 0x24#7 _ _ _ _ _) rfl
theorem vandn (d : VReg) (a : Src) (b : Src) (t : Ty) (q : MSel) : Statement (.vandn d a b t q) := of_major (fld_encVR_m 0x25#7 _ _ _ _ _) rfl
theorem vshl (d : VReg) (a : Src) (b : Src) (t : Ty) (q : MSel) : Statement (.vshl d a b t q) := of_major (fld_encVR_m 0x26#7 _ _ _ _ _) rfl
theorem vshr (d : VReg) (a : Src) (b : Src) (t : Ty) (q : MSel) : Statement (.vshr d a b t q) := of_major (fld_encVR_m 0x27#7 _ _ _ _ _) rfl
theorem vsar (d : VReg) (a : Src) (b : Src) (t : Ty) (q : MSel) : Statement (.vsar d a b t q) := of_major (fld_encVR_m 0x28#7 _ _ _ _ _) rfl
theorem vcmp (c : VCond) (kd : MSel) (a : Src) (b : Src) (t : Ty) (q : MSel) : Statement (.vcmp c kd a b t q) := of_major (fld_encVR_m 0x29#7 _ _ _ _ _) rfl
theorem vsel (d : VReg) (a : Src) (b : Src) (t : Ty) (q : MSel) : Statement (.vsel d a b t q) := of_major (fld_encVR_m 0x2A#7 _ _ _ _ _) rfl
theorem vfsh (d : VReg) (a : Src) (b : Src) (t : Ty) (q : MSel) : Statement (.vfsh d a b t q) := of_major (fld_encVR_m 0x2B#7 _ _ _ _ _) rfl
theorem vbext (d : VReg) (a : Src) (b : Src) (t : Ty) (q : MSel) : Statement (.vbext d a b t q) := of_major (fld_encVR_m 0x2C#7 _ _ _ _ _) rfl
theorem vperm (d : VReg) (a : VReg) (b : Src) (t : Ty) (q : MSel) : Statement (.vperm d a b t q) := of_major (fld_encVR_m 0x2D#7 _ _ _ _ _) rfl
theorem vcvt (d : VReg) (a : Src) (t : Ty) (ts : Ty) (p : BitVec 2) (r : Rnd) : Statement (.vcvt d a t ts p r) := of_major (fld_encVC_m 0x2E#7 _ _ _ _ _ _) rfl
theorem vabs (d : VReg) (a : Src) (t : Ty) (q : MSel) : Statement (.vabs d a t q) := of_major (fld_encVU_m 0x2F#7 _ _ _ _ _ _) rfl
theorem vneg (d : VReg) (a : Src) (t : Ty) (q : MSel) : Statement (.vneg d a t q) := of_major (fld_encVU_m 0x2F#7 _ _ _ _ _ _) rfl
theorem vnot (d : VReg) (a : Src) (t : Ty) (q : MSel) : Statement (.vnot d a t q) := of_major (fld_encVU_m 0x2F#7 _ _ _ _ _ _) rfl
theorem vclz (d : VReg) (a : Src) (t : Ty) (q : MSel) : Statement (.vclz d a t q) := of_major (fld_encVU_m 0x2F#7 _ _ _ _ _ _) rfl
theorem vpopc (d : VReg) (a : Src) (t : Ty) (q : MSel) : Statement (.vpopc d a t q) := of_major (fld_encVU_m 0x2F#7 _ _ _ _ _ _) rfl
theorem vmov (d : VReg) (a : Src) (t : Ty) (q : MSel) : Statement (.vmov d a t q) := of_major (fld_encVU_m 0x2F#7 _ _ _ _ _ _) rfl
theorem vrcp (d : VReg) (a : Src) (t : Ty) (q : MSel) (l : BitVec 4) : Statement (.vrcp d a t q l) := of_major (fld_encVU_m 0x2F#7 _ _ _ _ _ _) rfl
theorem vsqrt (d : VReg) (a : Src) (t : Ty) (q : MSel) (l : BitVec 4) : Statement (.vsqrt d a t q l) := of_major (fld_encVU_m 0x2F#7 _ _ _ _ _ _) rfl
theorem vrsq (d : VReg) (a : Src) (t : Ty) (q : MSel) (l : BitVec 4) : Statement (.vrsq d a t q l) := of_major (fld_encVU_m 0x30#7 _ _ _ _ _ _) rfl
theorem vexp2 (d : VReg) (a : Src) (t : Ty) (q : MSel) (l : BitVec 4) : Statement (.vexp2 d a t q l) := of_major (fld_encVU_m 0x30#7 _ _ _ _ _ _) rfl
theorem vlog2 (d : VReg) (a : Src) (t : Ty) (q : MSel) (l : BitVec 4) : Statement (.vlog2 d a t q l) := of_major (fld_encVU_m 0x30#7 _ _ _ _ _ _) rfl
theorem vtanh (d : VReg) (a : Src) (t : Ty) (q : MSel) (l : BitVec 4) : Statement (.vtanh d a t q l) := of_major (fld_encVU_m 0x30#7 _ _ _ _ _ _) rfl
theorem vsigm (d : VReg) (a : Src) (t : Ty) (q : MSel) (l : BitVec 4) : Statement (.vsigm d a t q l) := of_major (fld_encVU_m 0x30#7 _ _ _ _ _ _) rfl
theorem vfloor (d : VReg) (a : Src) (t : Ty) (q : MSel) : Statement (.vfloor d a t q) := of_major (fld_encVU_m 0x30#7 _ _ _ _ _ _) rfl
theorem vceil (d : VReg) (a : Src) (t : Ty) (q : MSel) : Statement (.vceil d a t q) := of_major (fld_encVU_m 0x30#7 _ _ _ _ _ _) rfl
theorem vrndi (d : VReg) (a : Src) (t : Ty) (q : MSel) : Statement (.vrndi d a t q) := of_major (fld_encVU_m 0x30#7 _ _ _ _ _ _) rfl
theorem vredSum (d : VReg) (a : VReg) (t : Ty) (q : MSel) (l : BitVec 4) : Statement (.vredSum d a t q l) := of_major (fld_encVU_m 0x31#7 _ _ _ _ _ _) rfl
theorem vredMax (d : VReg) (a : VReg) (t : Ty) (q : MSel) (l : BitVec 4) : Statement (.vredMax d a t q l) := of_major (fld_encVU_m 0x31#7 _ _ _ _ _ _) rfl
theorem vredMin (d : VReg) (a : VReg) (t : Ty) (q : MSel) (l : BitVec 4) : Statement (.vredMin d a t q l) := of_major (fld_encVU_m 0x31#7 _ _ _ _ _ _) rfl
theorem vredAnd (d : VReg) (a : VReg) (t : Ty) (q : MSel) (l : BitVec 4) : Statement (.vredAnd d a t q l) := of_major (fld_encVU_m 0x31#7 _ _ _ _ _ _) rfl
theorem vredOr (d : VReg) (a : VReg) (t : Ty) (q : MSel) (l : BitVec 4) : Statement (.vredOr d a t q l) := of_major (fld_encVU_m 0x31#7 _ _ _ _ _ _) rfl
theorem vredXor (d : VReg) (a : VReg) (t : Ty) (q : MSel) (l : BitVec 4) : Statement (.vredXor d a t q l) := of_major (fld_encVU_m 0x31#7 _ _ _ _ _ _) rfl
theorem vredAmax (d : VReg) (a : VReg) (t : Ty) (q : MSel) (l : BitVec 4) : Statement (.vredAmax d a t q l) := of_major (fld_encVU_m 0x31#7 _ _ _ _ _ _) rfl
theorem vscanSadd (d : VReg) (a : VReg) (t : Ty) (q : MSel) (l : BitVec 4) : Statement (.vscanSadd d a t q l) := of_major (fld_encVU_m 0x32#7 _ _ _ _ _ _) rfl
theorem vscanSmax (d : VReg) (a : VReg) (t : Ty) (q : MSel) (l : BitVec 4) : Statement (.vscanSmax d a t q l) := of_major (fld_encVU_m 0x32#7 _ _ _ _ _ _) rfl
theorem vscanSmin (d : VReg) (a : VReg) (t : Ty) (q : MSel) (l : BitVec 4) : Statement (.vscanSmin d a t q l) := of_major (fld_encVU_m 0x32#7 _ _ _ _ _ _) rfl
theorem vcompact (d : VReg) (a : VReg) (t : Ty) (q : MSel) : Statement (.vcompact d a t q) := of_major (fld_encVR_m 0x33#7 _ _ _ _ _) rfl
theorem vexpand (d : VReg) (a : VReg) (t : Ty) (q : MSel) : Statement (.vexpand d a t q) := of_major (fld_encVR_m 0x34#7 _ _ _ _ _) rfl
theorem vcell (d : VReg) (a : Src) (b : Src) (q : MSel) : Statement (.vcell d a b q) := of_major (fld_encVR_m 0x35#7 _ _ _ _ _) rfl
theorem vmorton (d : VReg) (a : Src) (b : Src) (t : Ty) (q : MSel) : Statement (.vmorton d a b t q) := of_major (fld_encVR_m 0x36#7 _ _ _ _ _) rfl
theorem vhashk (d : VReg) (a : Src) (b : Src) (t : Ty) (q : MSel) : Statement (.vhashk d a b t q) := of_major (fld_encVR_m 0x37#7 _ _ _ _ _) rfl
theorem mand (d : MSel) (a : MSel) (b : MSel) : Statement (.mand d a b) := of_major (fld_encX_m 0x38#7 _ _ _ _ _) rfl
theorem mor (d : MSel) (a : MSel) (b : MSel) : Statement (.mor d a b) := of_major (fld_encX_m 0x38#7 _ _ _ _ _) rfl
theorem mxor (d : MSel) (a : MSel) (b : MSel) : Statement (.mxor d a b) := of_major (fld_encX_m 0x38#7 _ _ _ _ _) rfl
theorem mandn (d : MSel) (a : MSel) (b : MSel) : Statement (.mandn d a b) := of_major (fld_encX_m 0x38#7 _ _ _ _ _) rfl
theorem mnot (d : MSel) (a : MSel) : Statement (.mnot d a) := of_major (fld_encX_m 0x38#7 _ _ _ _ _) rfl
theorem mpopc (d : Reg) (a : MSel) : Statement (.mpopc d a) := of_major (fld_encX_m 0x38#7 _ _ _ _ _) rfl
theorem mfirst (d : Reg) (a : MSel) : Statement (.mfirst d a) := of_major (fld_encX_m 0x38#7 _ _ _ _ _) rfl
theorem mfromx (d : MSel) (a : Reg) (b : Reg) : Statement (.mfromx d a b) := of_major (fld_encX_m 0x38#7 _ _ _ _ _) rfl
theorem mtox (d : Reg) (a : MSel) (h : Bool) : Statement (.mtox d a h) := of_major (fld_encX_m 0x38#7 _ _ _ _ _) rfl
theorem vsmap (d : Reg) (a : Reg) (l : BitVec 4) : Statement (.vsmap d a l) := of_major (fld_encX_m 0x39#7 _ _ _ _ _) rfl
theorem vsred (d : Reg) (a : Reg) (l : BitVec 4) : Statement (.vsred d a l) := of_major (fld_encX_m 0x3A#7 _ _ _ _ _) rfl
theorem vscvt (d : Reg) (a : Reg) (l : BitVec 4) : Statement (.vscvt d a l) := of_major (fld_encX_m 0x3B#7 _ _ _ _ _) rfl
theorem vgrow (d : Reg) (a : Reg) : Statement (.vgrow d a) := of_major (fld_encX_m 0x3C#7 _ _ _ _ _) rfl
theorem vshrink (d : Reg) (a : Reg) : Statement (.vshrink d a) := of_major (fld_encX_m 0x3C#7 _ _ _ _ _) rfl
theorem vallotq (d : Reg) : Statement (.vallotq d) := of_major (fld_encX_m 0x3C#7 _ _ _ _ _) rfl
theorem vext (d : Reg) (a : VReg) (b : Reg) : Statement (.vext d a b) := of_major (fld_encX_m 0x3C#7 _ _ _ _ _) rfl
theorem vins (d : VReg) (a : Reg) (b : Reg) : Statement (.vins d a b) := of_major (fld_encX_m 0x3C#7 _ _ _ _ _) rfl
theorem ldb (d : Reg) (b : Reg) (l : BitVec 4) (h : Hint) (o : BitVec 9) : Statement (.ldb d b l h o) := of_major (fld_encM_m 0x40#7 _ _ _ _ _) rfl
theorem ldh (d : Reg) (b : Reg) (l : BitVec 4) (h : Hint) (o : BitVec 9) : Statement (.ldh d b l h o) := of_major (fld_encM_m 0x41#7 _ _ _ _ _) rfl
theorem ldw (d : Reg) (b : Reg) (l : BitVec 4) (h : Hint) (o : BitVec 9) : Statement (.ldw d b l h o) := of_major (fld_encM_m 0x42#7 _ _ _ _ _) rfl
theorem ldd (d : Reg) (b : Reg) (l : BitVec 4) (h : Hint) (o : BitVec 9) : Statement (.ldd d b l h o) := of_major (fld_encM_m 0x43#7 _ _ _ _ _) rfl
theorem ldbn (d : Reg) (b : Reg) (l : BitVec 4) (h : Hint) (o : BitVec 9) : Statement (.ldbn d b l h o) := of_major (fld_encM_m 0x44#7 _ _ _ _ _) rfl
theorem ldhn (d : Reg) (b : Reg) (l : BitVec 4) (h : Hint) (o : BitVec 9) : Statement (.ldhn d b l h o) := of_major (fld_encM_m 0x45#7 _ _ _ _ _) rfl
theorem ldwn (d : Reg) (b : Reg) (l : BitVec 4) (h : Hint) (o : BitVec 9) : Statement (.ldwn d b l h o) := of_major (fld_encM_m 0x46#7 _ _ _ _ _) rfl
theorem stb (d : Reg) (b : Reg) (h : Hint) (o : BitVec 9) : Statement (.stb d b h o) := of_major (fld_encM_m 0x47#7 _ _ _ _ _) rfl
theorem sth (d : Reg) (b : Reg) (h : Hint) (o : BitVec 9) : Statement (.sth d b h o) := of_major (fld_encM_m 0x48#7 _ _ _ _ _) rfl
theorem stw (d : Reg) (b : Reg) (h : Hint) (o : BitVec 9) : Statement (.stw d b h o) := of_major (fld_encM_m 0x49#7 _ _ _ _ _) rfl
theorem std (d : Reg) (b : Reg) (h : Hint) (o : BitVec 9) : Statement (.std d b h o) := of_major (fld_encM_m 0x4A#7 _ _ _ _ _) rfl
theorem vld (d : VReg) (b : Reg) (l : BitVec 4) (h : Hint) (o : BitVec 9) : Statement (.vld d b l h o) := of_major (fld_encM_m 0x4B#7 _ _ _ _ _) rfl
theorem vst (d : VReg) (b : Reg) (h : Hint) (o : BitVec 9) : Statement (.vst d b h o) := of_major (fld_encM_m 0x4C#7 _ _ _ _ _) rfl
theorem vgath (d : VReg) (b : Reg) (v : VReg) (l : BitVec 4) (t : Ty) (q : MSel) : Statement (.vgath d b v l t q) := of_major (fld_encVG_m 0x4D#7 _ _ _ _ _ _) rfl
theorem vscat (d : VReg) (b : Reg) (v : VReg) (t : Ty) (q : MSel) : Statement (.vscat d b v t q) := of_major (fld_encVG_m 0x4E#7 _ _ _ _ _ _) rfl
theorem pref (a : Reg) : Statement (.pref a) := of_major (fld_encX_m 0x4F#7 _ _ _ _ _) rfl
theorem clean (a : Reg) : Statement (.clean a) := of_major (fld_encX_m 0x4F#7 _ _ _ _ _) rfl
theorem discard (a : Reg) : Statement (.discard a) := of_major (fld_encX_m 0x4F#7 _ _ _ _ _) rfl
theorem invl1 (a : Reg) : Statement (.invl1 a) := of_major (fld_encX_m 0x4F#7 _ _ _ _ _) rfl
theorem zline (a : Reg) : Statement (.zline a) := of_major (fld_encX_m 0x4F#7 _ _ _ _ _) rfl
theorem tnew (d : Reg) (a : Reg) (b : Reg) (l : BitVec 4) : Statement (.tnew d a b l) := of_major (fld_encX_m 0x50#7 _ _ _ _ _) rfl
theorem twiden (d : Reg) (a : Reg) (b : Reg) (l : BitVec 4) : Statement (.twiden d a b l) := of_major (fld_encX_m 0x50#7 _ _ _ _ _) rfl
theorem tfree (a : Reg) : Statement (.tfree a) := of_major (fld_encX_m 0x50#7 _ _ _ _ _) rfl
theorem tinfo (d : Reg) (a : Reg) (b : Reg) (l : BitVec 4) : Statement (.tinfo d a b l) := of_major (fld_encX_m 0x50#7 _ _ _ _ _) rfl
theorem tview (d : Reg) (a : Reg) (b : Reg) (l : BitVec 4) : Statement (.tview d a b l) := of_major (fld_encX_m 0x50#7 _ _ _ _ _) rfl
theorem tlde (d : Reg) (a : Reg) (b : Reg) (l : BitVec 4) : Statement (.tlde d a b l) := of_major (fld_encX_m 0x50#7 _ _ _ _ _) rfl
theorem tste (d : Reg) (a : Reg) (b : Reg) : Statement (.tste d a b) := of_major (fld_encX_m 0x50#7 _ _ _ _ _) rfl
theorem twait (a : Reg) : Statement (.twait a) := of_major (fld_encX_m 0x50#7 _ _ _ _ _) rfl
theorem fenceAcq (a : Reg) (s : Scope) : Statement (.fenceAcq a s) := of_major (fld_encX_m 0x54#7 _ _ _ _ _) rfl
theorem fenceRel (a : Reg) (s : Scope) : Statement (.fenceRel a s) := of_major (fld_encX_m 0x54#7 _ _ _ _ _) rfl
theorem fenceAr (a : Reg) (s : Scope) : Statement (.fenceAr a s) := of_major (fld_encX_m 0x54#7 _ _ _ _ _) rfl
theorem fenceSc (a : Reg) (s : Scope) : Statement (.fenceSc a s) := of_major (fld_encX_m 0x54#7 _ _ _ _ _) rfl
theorem fenceWin (a : Reg) (s : Scope) : Statement (.fenceWin a s) := of_major (fld_encX_m 0x54#7 _ _ _ _ _) rfl
theorem fenceEng (a : Reg) (s : Scope) : Statement (.fenceEng a s) := of_major (fld_encX_m 0x54#7 _ _ _ _ _) rfl
theorem ldaq (d : Reg) (a : Reg) (b : Reg) (l : BitVec 4) (s : Scope) (z : Size) : Statement (.ldaq d a b l s z) := of_major (fld_encX_m 0x55#7 _ _ _ _ _) rfl
theorem strl (d : Reg) (a : Reg) (b : Reg) (s : Scope) (z : Size) : Statement (.strl d a b s z) := of_major (fld_encX_m 0x56#7 _ _ _ _ _) rfl
theorem inrecv (d : Reg) (a : Reg) : Statement (.inrecv d a) := of_major (fld_encX_m 0x57#7 _ _ _ _ _) rfl
theorem inpeek (d : Reg) : Statement (.inpeek d) := of_major (fld_encX_m 0x57#7 _ _ _ _ _) rfl
theorem incount (d : Reg) : Statement (.incount d) := of_major (fld_encX_m 0x57#7 _ _ _ _ _) rfl
theorem uiarm (a : Reg) : Statement (.uiarm a) := of_major (fld_encX_m 0x57#7 _ _ _ _ _) rfl
theorem uidis : Statement (.uidis) := of_major (fld_encX_m 0x57#7 _ _ _ _ _) rfl
theorem uiret : Statement (.uiret) := of_major (fld_encX_m 0x57#7 _ _ _ _ _) rfl
theorem uiTake : Statement (.uiTake) := .inl rfl
theorem amoadd (d : Reg) (a : Reg) (b : Reg) (l : BitVec 4) (z : Size) (o : AOrder) : Statement (.amoadd d a b l z o) := of_major (fld_encX_m 0x58#7 _ _ _ _ _) rfl
theorem amomin (d : Reg) (a : Reg) (b : Reg) (l : BitVec 4) (z : Size) (o : AOrder) : Statement (.amomin d a b l z o) := of_major (fld_encX_m 0x58#7 _ _ _ _ _) rfl
theorem amomax (d : Reg) (a : Reg) (b : Reg) (l : BitVec 4) (z : Size) (o : AOrder) : Statement (.amomax d a b l z o) := of_major (fld_encX_m 0x58#7 _ _ _ _ _) rfl
theorem amominn (d : Reg) (a : Reg) (b : Reg) (l : BitVec 4) (z : Size) (o : AOrder) : Statement (.amominn d a b l z o) := of_major (fld_encX_m 0x58#7 _ _ _ _ _) rfl
theorem amomaxn (d : Reg) (a : Reg) (b : Reg) (l : BitVec 4) (z : Size) (o : AOrder) : Statement (.amomaxn d a b l z o) := of_major (fld_encX_m 0x58#7 _ _ _ _ _) rfl
theorem amoand (d : Reg) (a : Reg) (b : Reg) (l : BitVec 4) (z : Size) (o : AOrder) : Statement (.amoand d a b l z o) := of_major (fld_encX_m 0x58#7 _ _ _ _ _) rfl
theorem amoor (d : Reg) (a : Reg) (b : Reg) (l : BitVec 4) (z : Size) (o : AOrder) : Statement (.amoor d a b l z o) := of_major (fld_encX_m 0x58#7 _ _ _ _ _) rfl
theorem amoxor (d : Reg) (a : Reg) (b : Reg) (l : BitVec 4) (z : Size) (o : AOrder) : Statement (.amoxor d a b l z o) := of_major (fld_encX_m 0x58#7 _ _ _ _ _) rfl
theorem amoswap (d : Reg) (a : Reg) (b : Reg) (l : BitVec 4) (z : Size) (o : AOrder) : Statement (.amoswap d a b l z o) := of_major (fld_encX_m 0x59#7 _ _ _ _ _) rfl
theorem amocas (d : Reg) (a : Reg) (b : Reg) (l : BitVec 4) (z : Size) (o : AOrder) : Statement (.amocas d a b l z o) := of_major (fld_encX_m 0x59#7 _ _ _ _ _) rfl
theorem redaddi (a : Reg) (b : Reg) (z : Size) : Statement (.redaddi a b z) := of_major (fld_encX_m 0x5A#7 _ _ _ _ _) rfl
theorem redaddf32 (a : Reg) (b : Reg) : Statement (.redaddf32 a b) := of_major (fld_encX_m 0x5A#7 _ _ _ _ _) rfl
theorem redaddbf16 (a : Reg) (b : Reg) : Statement (.redaddbf16 a b) := of_major (fld_encX_m 0x5A#7 _ _ _ _ _) rfl
theorem redmin (a : Reg) (b : Reg) (z : Size) : Statement (.redmin a b z) := of_major (fld_encX_m 0x5A#7 _ _ _ _ _) rfl
theorem redmax (a : Reg) (b : Reg) (z : Size) : Statement (.redmax a b z) := of_major (fld_encX_m 0x5A#7 _ _ _ _ _) rfl
theorem redminn (a : Reg) (b : Reg) (z : Size) : Statement (.redminn a b z) := of_major (fld_encX_m 0x5A#7 _ _ _ _ _) rfl
theorem redmaxn (a : Reg) (b : Reg) (z : Size) : Statement (.redmaxn a b z) := of_major (fld_encX_m 0x5A#7 _ _ _ _ _) rfl
theorem redor (a : Reg) (b : Reg) (z : Size) : Statement (.redor a b z) := of_major (fld_encX_m 0x5A#7 _ _ _ _ _) rfl
theorem uoFlush (k : Nat) : Statement (.uoFlush k) := .inl rfl
theorem uoRecall (k : Nat) : Statement (.uoRecall k) := .inl rfl
theorem fetake (d : Reg) (a : Reg) (l : BitVec 4) : Statement (.fetake d a l) := of_major (fld_encX_m 0x5B#7 _ _ _ _ _) rfl
theorem feput (a : Reg) (b : Reg) : Statement (.feput a b) := of_major (fld_encX_m 0x5B#7 _ _ _ _ _) rfl
theorem feread (d : Reg) (a : Reg) (l : BitVec 4) : Statement (.feread d a l) := of_major (fld_encX_m 0x5B#7 _ _ _ _ _) rfl
theorem fepeek (d : Reg) (a : Reg) (l : BitVec 4) : Statement (.fepeek d a l) := of_major (fld_encX_m 0x5B#7 _ _ _ _ _) rfl
theorem feclr (a : Reg) : Statement (.feclr a) := of_major (fld_encX_m 0x5B#7 _ _ _ _ _) rfl
theorem barv (a : Reg) : Statement (.barv a) := of_major (fld_encX_m 0x5C#7 _ _ _ _ _) rfl
theorem bwait (d : Reg) (a : Reg) : Statement (.bwait d a) := of_major (fld_encX_m 0x5C#7 _ _ _ _ _) rfl
theorem bsync (d : Reg) (a : Reg) : Statement (.bsync d a) := of_major (fld_encX_m 0x5C#7 _ _ _ _ _) rfl
theorem btest (d : Reg) (a : Reg) : Statement (.btest d a) := of_major (fld_encX_m 0x5C#7 _ _ _ _ _) rfl
theorem bsetm (a : Reg) (b : Reg) : Statement (.bsetm a b) := of_major (fld_encX_m 0x5C#7 _ _ _ _ _) rfl
theorem bquorum (a : Reg) (b : Reg) : Statement (.bquorum a b) := of_major (fld_encX_m 0x5C#7 _ _ _ _ _) rfl
theorem brecord (a : Reg) (b : Reg) : Statement (.brecord a b) := of_major (fld_encX_m 0x5C#7 _ _ _ _ _) rfl
theorem barrierArrival (core : Arriver) (slot : Nat) (mask : Word) : Statement (.barrierArrival core slot mask) := .inl rfl
theorem barrierRelease (slot : Nat) : Statement (.barrierRelease slot) := .inl rfl
theorem lateArrival (slot : Nat) : Statement (.lateArrival slot) := .inl rfl
theorem tkspawn (d : Reg) (a : Reg) : Statement (.tkspawn d a) := of_major (fld_encX_m 0x60#7 _ _ _ _ _) rfl
theorem tknext (d : Reg) : Statement (.tknext d) := of_major (fld_encX_m 0x60#7 _ _ _ _ _) rfl
theorem tkend : Statement (.tkend) := of_major (fld_encX_m 0x60#7 _ _ _ _ _) rfl
theorem tkyield : Statement (.tkyield) := of_major (fld_encX_m 0x60#7 _ _ _ _ _) rfl
theorem tkdep (d : Reg) (a : Reg) (b : Reg) : Statement (.tkdep d a b) := of_major (fld_encX_m 0x60#7 _ _ _ _ _) rfl
theorem tkstat (d : Reg) (a : Reg) : Statement (.tkstat d a) := of_major (fld_encX_m 0x60#7 _ _ _ _ _) rfl
theorem taskDispatch (core : Nat) : Statement (.taskDispatch core) := .inl rfl
theorem taskAging (us : Nat) : Statement (.taskAging us) := .inl rfl
theorem sexch : Statement (.sexch) := of_major (fld_encX_m 0x61#7 _ _ _ _ _) rfl
theorem ssync : Statement (.ssync) := of_major (fld_encX_m 0x61#7 _ _ _ _ _) rfl
theorem sdom (a : Reg) : Statement (.sdom a) := of_major (fld_encX_m 0x61#7 _ _ _ _ _) rfl
theorem superstepRelease : Statement (.superstepRelease) := .inl rfl
theorem qnew (d : Reg) (a : Reg) : Statement (.qnew d a) := of_major (fld_encX_m 0x62#7 _ _ _ _ _) rfl
theorem qcontrib (a : Reg) (b : Reg) : Statement (.qcontrib a b) := of_major (fld_encX_m 0x62#7 _ _ _ _ _) rfl
theorem qarrive (d : Reg) (a : Reg) : Statement (.qarrive d a) := of_major (fld_encX_m 0x62#7 _ _ _ _ _) rfl
theorem kpoint : Statement (.kpoint) := of_major (fld_encX_m 0x62#7 _ _ _ _ _) rfl
theorem qstat (d : Reg) (a : Reg) : Statement (.qstat d a) := of_major (fld_encX_m 0x62#7 _ _ _ _ _) rfl
theorem qreset (a : Reg) : Statement (.qreset a) := of_major (fld_encX_m 0x62#7 _ _ _ _ _) rfl
theorem killSignal (join : Word) (member : Nat) : Statement (.killSignal join member) := .inl rfl
theorem retraction (join : Word) (member : Retracted) : Statement (.retraction join member) := .inl rfl
theorem joinCombine (join : Word) : Statement (.joinCombine join) := .inl rfl
theorem joinFutPost (join : Word) : Statement (.joinFutPost join) := .inl rfl
theorem joinClose (join : Word) : Statement (.joinClose join) := .inl rfl
theorem killTimeoutReset (join : Word) (member : Nat) : Statement (.killTimeoutReset join member) := .inl rfl
theorem wqpop (d : Reg) (a : Reg) : Statement (.wqpop d a) := of_major (fld_encX_m 0x63#7 _ _ _ _ _) rfl
theorem wqpush (d : Reg) (a : Reg) (b : Reg) : Statement (.wqpush d a b) := of_major (fld_encX_m 0x63#7 _ _ _ _ _) rfl
theorem wqfill (d : Reg) (a : Reg) (b : Reg) : Statement (.wqfill d a b) := of_major (fld_encX_m 0x63#7 _ _ _ _ _) rfl
theorem wqcount (d : Reg) (a : Reg) : Statement (.wqcount d a) := of_major (fld_encX_m 0x63#7 _ _ _ _ _) rfl
theorem wqRefill : Statement (.wqRefill) := .inl rfl
theorem cpy (a : Reg) : Statement (.cpy a) := of_major (fld_encX_m 0x68#7 _ _ _ _ _) rfl
theorem cpyq (a : Reg) : Statement (.cpyq a) := of_major (fld_encX_m 0x68#7 _ _ _ _ _) rfl
theorem cpyt (a : Reg) : Statement (.cpyt a) := of_major (fld_encX_m 0x68#7 _ _ _ _ _) rfl
theorem cpyxr (a : Reg) : Statement (.cpyxr a) := of_major (fld_encX_m 0x68#7 _ _ _ _ _) rfl
theorem cpypd (a : Reg) : Statement (.cpypd a) := of_major (fld_encX_m 0x68#7 _ _ _ _ _) rfl
theorem cpyst (d : Reg) (a : Reg) : Statement (.cpyst d a) := of_major (fld_encX_m 0x68#7 _ _ _ _ _) rfl
theorem copyExecute (k : Nat) : Statement (.copyExecute k) := .inl rfl
theorem exponentTableLoad (k : Nat) : Statement (.exponentTableLoad k) := .inl rfl
theorem copyComplete (k : CopyEnd) : Statement (.copyComplete k) := .inl rfl
theorem peerAckTimeout (k : Nat) : Statement (.peerAckTimeout k) := .inl rfl
theorem messageEnterInbox : Statement (.messageEnterInbox) := .inl rfl
theorem mqsend (d : Reg) (a : Reg) (b : Reg) : Statement (.mqsend d a b) := of_major (fld_encX_m 0x69#7 _ _ _ _ _) rfl
theorem mqrecv (d : Reg) (a : Reg) (b : Reg) : Statement (.mqrecv d a b) := of_major (fld_encX_m 0x69#7 _ _ _ _ _) rfl
theorem mqpoll (d : Reg) (a : Reg) : Statement (.mqpoll d a) := of_major (fld_encX_m 0x69#7 _ _ _ _ _) rfl
theorem mqbind (d : Reg) (a : Reg) (b : Reg) : Statement (.mqbind d a b) := of_major (fld_encX_m 0x69#7 _ _ _ _ _) rfl
theorem mcset (a : Reg) (b : Reg) : Statement (.mcset a b) := of_major (fld_encX_m 0x6C#7 _ _ _ _ _) rfl
theorem mcget (d : Reg) (a : Reg) : Statement (.mcget d a) := of_major (fld_encX_m 0x6C#7 _ _ _ _ _) rfl
theorem mcap (d : Reg) (a : Reg) : Statement (.mcap d a) := of_major (fld_encX_m 0x6C#7 _ _ _ _ _) rfl
theorem mrset (a : Reg) (b : Reg) : Statement (.mrset a b) := of_major (fld_encX_m 0x6D#7 _ _ _ _ _) rfl
theorem mradv (d : Reg) (a : Reg) (b : Reg) : Statement (.mradv d a b) := of_major (fld_encX_m 0x6D#7 _ _ _ _ _) rfl
theorem mrstat (d : Reg) (a : Reg) (b : Reg) : Statement (.mrstat d a b) := of_major (fld_encX_m 0x6D#7 _ _ _ _ _) rfl
theorem mma (c : BitVec 2) (a : BitVec 3) (b : BitVec 3) (s : Reg) (f : BitVec 6) : Statement (.mma c a b s f) := of_major (fld_encMX_m 0x6E#7 _ _ _ _ _ _ _) rfl
theorem mmab (c : BitVec 2) (a : BitVec 3) (b : BitVec 3) (s : Reg) (f : BitVec 6) : Statement (.mmab c a b s f) := of_major (fld_encMX_m 0x6F#7 _ _ _ _ _ _ _) rfl
theorem mpass (c : BitVec 2) (a : BitVec 3) (b : BitVec 3) (s : Reg) (f : BitVec 6) : Statement (.mpass c a b s f) := of_major (fld_encMX_m 0x70#7 _ _ _ _ _ _ _) rfl
theorem mdrain (c : BitVec 2) (a : Reg) (b : Reg) (u : Bool) (v : Bool) (w : Bool) (e : PSet) : Statement (.mdrain c a b u v w e) := of_major (fld_encX_m 0x71#7 _ _ _ _ _) rfl
theorem mzero (c : BitVec 2) (a : Reg) : Statement (.mzero c a) := of_major (fld_encX_m 0x72#7 _ _ _ _ _) rfl
theorem mfence (a : Reg) : Statement (.mfence a) := of_major (fld_encX_m 0x72#7 _ _ _ _ _) rfl
theorem mstat (c : BitVec 2) (a : Reg) (b : Reg) : Statement (.mstat c a b) := of_major (fld_encX_m 0x72#7 _ _ _ _ _) rfl
theorem mcsetUnit (unit : Nat) : Statement (.mcsetUnit unit) := .inl rfl
theorem mrsetUnit (unit : Nat) : Statement (.mrsetUnit unit) := .inl rfl
theorem mmaUnit (unit : Nat) : Statement (.mmaUnit unit) := .inl rfl
theorem mmabUnit (unit : Nat) : Statement (.mmabUnit unit) := .inl rfl
theorem mpassUnit (unit : Nat) : Statement (.mpassUnit unit) := .inl rfl
theorem mdrainUnit (unit : Nat) : Statement (.mdrainUnit unit) := .inl rfl
theorem mzeroUnit (unit : Nat) : Statement (.mzeroUnit unit) := .inl rfl
theorem nmupd (a : Reg) : Statement (.nmupd a) := of_major (fld_encX_m 0x73#7 _ _ _ _ _) rfl
theorem nmstat (d : Reg) (a : Reg) : Statement (.nmstat d a) := of_major (fld_encX_m 0x73#7 _ _ _ _ _) rfl
theorem nmuPieceUpdate (k : Nat) (piece : Nat) : Statement (.nmuPieceUpdate k piece) := .inl rfl
theorem nmuComplete (k : Nat) : Statement (.nmuComplete k) := .inl rfl
theorem proj (d : Reg) (a : Reg) (b : Reg) (u : Bool) (v : Bool) (e : PSet) : Statement (.proj d a b u v e) := of_major (fld_encX_m 0x74#7 _ _ _ _ _) rfl
theorem padj (d : Reg) (a : Reg) (b : Reg) (e : PSet) : Statement (.padj d a b e) := of_major (fld_encX_m 0x75#7 _ _ _ _ _) rfl
theorem ecall (d : Reg) (a : Reg) (b : Reg) : Statement (.ecall d a b) := of_major (fld_encX_m 0x76#7 _ _ _ _ _) rfl
theorem ecallAnswer : Statement (.ecallAnswer) := .inl rfl
theorem eret : Statement (.eret) := of_major (fld_encX_m 0x76#7 _ _ _ _ _) rfl
theorem wfi : Statement (.wfi) := of_major (fld_encX_m 0x76#7 _ _ _ _ _) rfl
theorem endT : Statement (.endT) := of_major (fld_encX_m 0x76#7 _ _ _ _ _) rfl
theorem spin (a : Reg) : Statement (.spin a) := of_major (fld_encX_m 0x76#7 _ _ _ _ _) rfl
theorem csave (d : Reg) (a : Reg) : Statement (.csave d a) := of_major (fld_encX_m 0x77#7 _ _ _ _ _) rfl
theorem crest (d : Reg) (a : Reg) : Statement (.crest d a) := of_major (fld_encX_m 0x77#7 _ _ _ _ _) rfl
theorem ckpt (d : Reg) (a : Reg) : Statement (.ckpt d a) := of_major (fld_encX_m 0x77#7 _ _ _ _ _) rfl
theorem rback (d : Reg) (a : Reg) : Statement (.rback d a) := of_major (fld_encX_m 0x77#7 _ _ _ _ _) rfl
theorem tinval (a : Reg) (b : Reg) : Statement (.tinval a b) := of_major (fld_encX_m 0x78#7 _ _ _ _ _) rfl
theorem fattr (a : Reg) (b : Reg) : Statement (.fattr a b) := of_major (fld_encX_m 0x78#7 _ _ _ _ _) rfl
theorem ulmark (d : Reg) (a : Reg) : Statement (.ulmark d a) := of_major (fld_encX_m 0x7C#7 _ _ _ _ _) rfl
theorem ulstat (d : Reg) (a : Reg) : Statement (.ulstat d a) := of_major (fld_encX_m 0x7C#7 _ _ _ _ _) rfl
theorem uldrain (d : Reg) (a : Reg) : Statement (.uldrain d a) := of_major (fld_encX_m 0x7C#7 _ _ _ _ _) rfl
theorem trec (a : Reg) (b : Reg) : Statement (.trec a b) := of_major (fld_encX_m 0x7D#7 _ _ _ _ _) rfl
theorem perfr (d : Reg) (a : Reg) : Statement (.perfr d a) := of_major (fld_encX_m 0x7D#7 _ _ _ _ _) rfl
theorem perfc (a : Reg) : Statement (.perfc a) := of_major (fld_encX_m 0x7D#7 _ _ _ _ _) rfl
theorem brk (a : Reg) : Statement (.brk a) := of_major (fld_encX_m 0x7E#7 _ _ _ _ _) rfl
theorem wset (d : Reg) (a : Reg) (b : Reg) : Statement (.wset d a b) := of_major (fld_encX_m 0x7E#7 _ _ _ _ _) rfl
theorem wclr (a : Reg) : Statement (.wclr a) := of_major (fld_encX_m 0x7E#7 _ _ _ _ _) rfl
theorem heldWriteLand (k : Nat) : Statement (.heldWriteLand k) := .inl rfl
theorem storePerform : Statement (.storePerform) := .inl rfl
theorem loadPerform (k : Nat) : Statement (.loadPerform k) := .inl rfl
theorem homePerform (stack : Nat) : Statement (.homePerform stack) := .inl rfl
theorem cvpWriteback (k : Nat) : Statement (.cvpWriteback k) := .inl rfl
theorem lineEvict (k : Nat) : Statement (.lineEvict k) := .inl rfl
theorem l1Drop (k : Nat) : Statement (.l1Drop k) := .inl rfl
theorem cmCleanDrop (k : Nat) : Statement (.cmCleanDrop k) := .inl rfl
theorem codeFetchComplete (seg : Nat) : Statement (.codeFetchComplete seg) := .inl rfl
theorem rerepMoveBegin (h : Nat) : Statement (.rerepMoveBegin h) := .inl rfl
theorem rerepMoveComplete (h : Nat) : Statement (.rerepMoveComplete h) := .inl rfl
theorem freeEntryHead (h : Nat) : Statement (.freeEntryHead h) := .inl rfl
theorem groupPlace : Statement (.groupPlace) := .inl rfl
theorem threadRetireFree (core : Nat) : Statement (.threadRetireFree core) := .inl rfl
theorem switchTimeReached : Statement (.switchTimeReached) := .inl rfl
theorem timeBudgetStop (ctx : Nat) : Statement (.timeBudgetStop ctx) := .inl rfl
theorem budgetPeriod : Statement (.budgetPeriod) := .inl rfl
theorem gangStop (ctx : Nat) (why : Nat) : Statement (.gangStop ctx why) := .inl rfl
theorem resumeStart (ctx : Nat) : Statement (.resumeStart ctx) := .inl rfl
theorem checkpointBoundary (ctx : Nat) : Statement (.checkpointBoundary ctx) := .inl rfl
theorem checkpointAbandon (ctx : Nat) : Statement (.checkpointAbandon ctx) := .inl rfl
theorem uncorrectableError (site : ErrSite) (lasting : Bool) : Statement (.uncorrectableError site lasting) := .inl rfl
theorem contextRollback (ctx : Nat) : Statement (.contextRollback ctx) := .inl rfl
theorem contextKill (ctx : Nat) (reason : Nat) (cause : Nat) (addr : Word) : Statement (.contextKill ctx reason cause addr) := .inl rfl
theorem contextRetire (ctx : Nat) : Statement (.contextRetire ctx) := .inl rfl
theorem fatalError : Statement (.fatalError) := .inl rfl
theorem watchpointTrigger (acc : WatchAccess) : Statement (.watchpointTrigger acc) := .inl rfl
theorem watchpointTrap : Statement (.watchpointTrap) := .inl rfl
theorem breakpointStop : Statement (.breakpointStop) := .inl rfl
theorem scribeEmit : Statement (.scribeEmit) := .inl rfl
theorem ident (c : HostCmd) : Statement (.ident c) := .inl rfl
theorem quote (c : HostCmd) : Statement (.quote c) := .inl rfl
theorem errread (c : HostCmd) : Statement (.errread c) := .inl rfl
theorem create (c : HostCmd) : Statement (.create c) := .inl rfl
theorem destroy (c : HostCmd) : Statement (.destroy c) := .inl rfl
theorem map (c : HostCmd) : Statement (.map c) := .inl rfl
theorem unmap (c : HostCmd) : Statement (.unmap c) := .inl rfl
theorem launch (c : HostCmd) : Statement (.launch c) := .inl rfl
theorem exportT (c : HostCmd) : Statement (.exportT c) := .inl rfl
theorem importT (c : HostCmd) : Statement (.importT c) := .inl rfl
theorem preempt (c : HostCmd) : Statement (.preempt c) := .inl rfl
theorem resume (c : HostCmd) : Statement (.resume c) := .inl rfl
theorem safesave (c : HostCmd) : Statement (.safesave c) := .inl rfl
theorem setpeer (c : HostCmd) : Statement (.setpeer c) := .inl rfl
theorem setlog (c : HostCmd) : Statement (.setlog c) := .inl rfl
theorem trdrain (c : HostCmd) : Statement (.trdrain c) := .inl rfl
theorem unknownCommand (c : HostCmd) : Statement (.unknownCommand c) := .inl rfl
theorem debugAttach (c : HostCmd) : Statement (.debugAttach c) := .inl rfl
theorem debugStop (c : HostCmd) : Statement (.debugStop c) := .inl rfl
theorem debugContinue (c : HostCmd) : Statement (.debugContinue c) := .inl rfl
theorem debugStep (c : HostCmd) : Statement (.debugStep c) := .inl rfl
theorem debugRstep (c : HostCmd) : Statement (.debugRstep c) := .inl rfl
theorem debugRwindow (c : HostCmd) : Statement (.debugRwindow c) := .inl rfl
theorem debugRead (c : HostCmd) : Statement (.debugRead c) := .inl rfl
theorem debugWrite (c : HostCmd) : Statement (.debugWrite c) := .inl rfl
theorem debugBreak (c : HostCmd) : Statement (.debugBreak c) := .inl rfl
theorem debugTrapstep (c : HostCmd) : Statement (.debugTrapstep c) := .inl rfl
theorem debugRecords (c : HostCmd) : Statement (.debugRecords c) := .inl rfl
theorem sessionKeyRenew (ctx : Nat) (peer : Nat) : Statement (.sessionKeyRenew ctx peer) := .inl rfl
theorem oldKeyExpire (ctx : Nat) (peer : Nat) : Statement (.oldKeyExpire ctx peer) := .inl rfl
theorem peerPacketAuthFail (k : Nat) : Statement (.peerPacketAuthFail k) := .inl rfl
theorem timeSyncUpdate (offset : Int) : Statement (.timeSyncUpdate offset) := .inl rfl
theorem portFail (port : Nat) : Statement (.portFail port) := .inl rfl
theorem resetRelease (images : List BootImage) (badBays : Nat) : Statement (.resetRelease images badBays) := .inl rfl
theorem recoveryImageLoad (image : BootImage) : Statement (.recoveryImageLoad image) := .inl rfl
theorem thermalThrottle : Statement (.thermalThrottle) := .inl rfl
theorem thermalFatal : Statement (.thermalFatal) := .inl rfl
theorem thermalShutdown : Statement (.thermalShutdown) := .inl rfl
theorem powerLoss : Statement (.powerLoss) := .inl rfl
theorem peerWriteArrival (ctx : PeerRoute) (va : Word) (bytes : List Byte) : Statement (.peerWriteArrival ctx va bytes) := .inl rfl
theorem spinHoldEnd : Statement (.spinHoldEnd) := .inl rfl
theorem rbcntRaise (level : Nat) (signed : Bool) : Statement (.rbcntRaise level signed) := .inl rfl

end MajorNotZero

end Sys2Proof.Laws
end

