-- ==== Sys2Proof/Laws/Registers.lean ====
section
/-! SUPPORT. The register files: a read after a write gives the value written, and a write leaves every other name alone. -/

namespace Sys2Proof.Machine

/-- x0 reads zero (R75). -/
@[simp] theorem xr_zero (s : State) : xr s 0#5 = 0#64 := rfl

/-- A scalar write, read back: only its own name, and never x0. -/
theorem xr_setX (s : State) (d r : Reg) (v : Word) : xr (setX d v s) r = if r = d ∧ r ≠ 0 then v else xr s r := by
  rcases eq_or_ne r 0 with rfl | hr
  · simp
  rcases eq_or_ne d 0 with rfl | hd
  · simp
  simp only [hr, ne_eq, not_false_eq_true, and_true]
  by_cases hs : inShadow s.hart d = true
  · have e : xr (setX d v s) r = if inShadow s.hart r then (s.hart.regs.xsh.set (d.toNat % 8) v (by omega))[r.toNat % 8]'(by omega)
        else s.hart.regs.x[r.toNat]'(by omega) := by
      unfold setX; rw [if_neg hd, if_pos hs]; exact if_neg hr
    rw [e, xr, if_neg hr]
    by_cases he : r = d
    · subst he; simp [hs]
    · rw [if_neg he]
      by_cases hq : inShadow s.hart r = true
      · rw [if_pos hq, if_pos hq, Vector.getElem_set, if_neg]
        intro e
        simp only [inShadow, Bool.and_eq_true, decide_eq_true_eq] at hs hq
        exact he (BitVec.eq_of_toNat_eq (by omega))
      · rw [if_neg hq, if_neg hq]
  · have e : xr (setX d v s) r = if inShadow s.hart r then s.hart.regs.xsh[r.toNat % 8]'(by omega)
        else (s.hart.regs.x.set d.toNat v (by omega))[r.toNat]'(by omega) := by
      unfold setX; rw [if_neg hd, if_neg hs]; exact if_neg hr
    rw [e, xr, if_neg hr]
    by_cases he : r = d
    · subst he; simp [hs]
    · rw [if_neg he]
      by_cases hq : inShadow s.hart r = true
      · rw [if_pos hq, if_pos hq]
      · rw [if_neg hq, if_neg hq, Vector.getElem_set, if_neg]
        exact fun e => he (BitVec.eq_of_toNat_eq e.symm)

/-- A vector write, read back. -/
theorem vr_setV (s : State) (d r : VReg) (v : VWord) : vr (setV d v s) r = if r = d then v else vr s r := by
  by_cases hs : inShadow s.hart d = true
  · have e : vr (setV d v s) r = if inShadow s.hart r then (s.hart.regs.vsh.set (d.toNat % 8) v (by omega))[r.toNat % 8]'(by omega)
        else s.hart.regs.v[r.toNat]'(by omega) := by
      unfold setV; rw [if_pos hs]; rfl
    rw [e, vr]
    by_cases he : r = d
    · subst he; simp [hs]
    · rw [if_neg he]
      by_cases hq : inShadow s.hart r = true
      · rw [if_pos hq, if_pos hq, Vector.getElem_set, if_neg]
        intro e
        simp only [inShadow, Bool.and_eq_true, decide_eq_true_eq] at hs hq
        exact he (BitVec.eq_of_toNat_eq (by omega))
      · rw [if_neg hq, if_neg hq]
  · have e : vr (setV d v s) r = if inShadow s.hart r then s.hart.regs.vsh[r.toNat % 8]'(by omega)
        else (s.hart.regs.v.set d.toNat v (by omega))[r.toNat]'(by omega) := by
      unfold setV; rw [if_neg hs]; rfl
    rw [e, vr]
    by_cases he : r = d
    · subst he; simp [hs]
    · rw [if_neg he]
      by_cases hq : inShadow s.hart r = true
      · rw [if_pos hq, if_pos hq]
      · rw [if_neg hq, if_neg hq, Vector.getElem_set, if_neg]
        exact fun e => he (BitVec.eq_of_toNat_eq e.symm)

/-- A mask write, read back: k0 always reads as all ones (R23, R35). -/
theorem kr_setK (s : State) (d r : MSel) (v : MWord) : kr (setK d v s) r = if r = d ∧ r ≠ 0 then v else kr s r := by
  rcases eq_or_ne r 0 with rfl | hr
  · simp [kr]
  rcases eq_or_ne d 0 with rfl | hd
  · simp [setK]
  simp only [hr, ne_eq, not_false_eq_true, and_true]
  have e : kr (setK d v s) r = (s.hart.regs.k.set d.toNat v (by omega))[r.toNat]'(by omega) := by
    unfold setK; rw [if_neg hd]; exact if_neg hr
  rw [e, kr, if_neg hr, Vector.getElem_set]
  by_cases he : r = d
  · subst he; simp
  · rw [if_neg he, if_neg]
    exact fun e => he (BitVec.eq_of_toNat_eq e.symm)

/-- A scalar write leaves the vector and mask registers alone. -/
@[simp] theorem vr_setX (s : State) (d : Reg) (v : Word) (r : VReg) : vr (setX d v s) r = vr s r := by
  unfold setX; split <;> [rfl; (split <;> rfl)]
@[simp] theorem kr_setX (s : State) (d : Reg) (v : Word) (q : MSel) : kr (setX d v s) q = kr s q := by
  unfold setX; split <;> [rfl; (split <;> rfl)]
/-- A vector write leaves the scalar and mask registers alone. -/
@[simp] theorem xr_setV (s : State) (d : VReg) (v : VWord) (r : Reg) : xr (setV d v s) r = xr s r := by
  unfold setV; split <;> rfl
@[simp] theorem kr_setV (s : State) (d : VReg) (v : VWord) (q : MSel) : kr (setV d v s) q = kr s q := by
  unfold setV; split <;> rfl
/-- A mask write leaves the scalar and vector registers alone. -/
@[simp] theorem xr_setK (s : State) (d : MSel) (v : MWord) (r : Reg) : xr (setK d v s) r = xr s r := by
  unfold setK; split <;> rfl
@[simp] theorem vr_setK (s : State) (d : MSel) (v : MWord) (r : VReg) : vr (setK d v s) r = vr s r := by
  unfold setK; split <;> rfl

end Sys2Proof.Machine
end

