-- ==== Sys2Proof/Laws/Retire.lean ====
section
/-! SUPPORT. What retiring does in a quiet state: the end of every instruction, said once. -/

namespace Sys2Proof.Machine

/-- Going on changes the program counter and the repeat frame only (R42, R75). -/
theorem advance_only (h : Hart) : ∃ p f, advance h = { h with pc := p, frame := f } := by
  unfold advance
  split
  · exact ⟨_, h.frame, rfl⟩
  · split <;> [exact ⟨_, _, rfl⟩; (split <;> exact ⟨_, _, rfl⟩)]

/-- Where the flow goes on depends on the program counter and the frame only. -/
theorem advance_congr {h k : Hart} (hp : k.pc = h.pc) (hf : k.frame = h.frame) :
    (advance k).pc = (advance h).pc ∧ (advance k).frame = (advance h).frame := by
  unfold advance
  rw [hf]
  split
  · simp [hp]
  · split <;> [simp [hp]; (split <;> simp)]

/-- A quiet state's reverse ring records nothing. -/
theorem ringRecord_quiet (s0 u : State) (regs : List Nat) (kill : Bool) (h : ∀ c, curCtx u = some c → c.mode ≠ 2) :
    ringRecord s0 regs kill u = u := by
  unfold ringRecord
  split
  · next c hc => rw [if_neg]; simpa using h c hc
  · rfl

/-- A quiet state's retirement. -/
theorem retired_quiet {s u : State} (regs : List Nat) (kill : Bool) (hs : Quiet s) (h : ∀ c, curCtx u = some c → c.mode ≠ 2)
    (hd : u.hart.dbg.trapStep = s.hart.dbg.trapStep) : retired s regs kill u = ended s u := by
  unfold retired stepTrap tally
  rw [ringRecord_quiet s u regs kill h]
  have e : (countStep u.hart.dbg).trapStep = s.hart.dbg.trapStep := hd
  simp only [onHart_hart, e, hs.1, Bool.false_eq_true, if_false]
  rfl

/-- No ring entry of a quiet state needs log space. -/
theorem ringNeed_quiet {u : State} (regs : List Nat) (h : ∀ c, curCtx u = some c → c.mode ≠ 2) : ringNeed u regs = 0 := by
  unfold ringNeed
  split
  · next c hc => rw [if_neg]; simpa using h c hc
  · rfl

/-- An instruction that needs no log space goes on at once. -/
theorem withLog_zero (s0 s : State) (k : State → Out) : withLog s0 0 s k = k s := rfl

/-- The end of an instruction in a quiet state. -/
theorem finish_quiet {s u : State} (regs : List Nat) (hs : Quiet s) (h : ∀ c, curCtx u = some c → c.mode ≠ 2)
    (hd : u.hart.dbg.trapStep = s.hart.dbg.trapStep) : finish s regs u = .next (wentOn s u) := by
  obtain ⟨p, f, e⟩ := advance_only u.hart
  have hc : curCtx (onHart advance u) = curCtx u := by simp only [curCtx, onHart, e]
  have ht : (onHart advance u).hart.dbg.trapStep = s.hart.dbg.trapStep := by simp only [onHart, e, hd]
  unfold finish wentOn
  rw [ringNeed_quiet regs h, withLog_zero, retired_quiet regs false hs (by rwa [hc]) ht]

/-- The end of a jump in a quiet state. -/
theorem finishAt_quiet {s u : State} (regs : List Nat) (a : IAddr) (hs : Quiet s) (h : ∀ c, curCtx u = some c → c.mode ≠ 2)
    (hd : u.hart.dbg.trapStep = s.hart.dbg.trapStep) : finishAt s regs a u = .next (ended s (setPc a u)) := by
  exact congrArg _ (retired_quiet (u := setPc a u) regs false hs h hd)

/-- The context of the core after an update that keeps the device and its context's number. -/
theorem curCtx_congr {s u : State} (hd : u.dev = s.dev) (ha : u.hart.ar.ctx = s.hart.ar.ctx) : curCtx u = curCtx s := by
  unfold curCtx; rw [hd, ha]

/-- An update of the core that keeps its context's number keeps a quiet state's end. -/
theorem finish_core {s u : State} (regs : List Nat) (hs : Quiet s) (hd : u.dev = s.dev) (ha : u.hart.ar.ctx = s.hart.ar.ctx)
    (ht : u.hart.dbg.trapStep = s.hart.dbg.trapStep) : finish s regs u = .next (wentOn s u) :=
  finish_quiet regs hs (by rw [curCtx_congr hd ha]; exact hs.2) ht

@[simp] theorem setX_dbg (r : Reg) (v : Word) (s : State) : (setX r v s).hart.dbg = s.hart.dbg := by
  unfold setX; split <;> [rfl; (split <;> rfl)]
@[simp] theorem setX_frame (r : Reg) (v : Word) (s : State) : (setX r v s).hart.frame = s.hart.frame := by
  unfold setX; split <;> [rfl; (split <;> rfl)]

/-- The end of an instruction that writes a scalar register, in a quiet state (R75). -/
theorem finish_setX {s : State} (regs : List Nat) (d : Reg) (v : Word) (hs : Quiet s) :
    finish s regs (setX d v s) = .next (wentOn s (setX d v s)) :=
  finish_core regs hs (setX_dev d v s) (by rw [setX_ar]) (by rw [setX_dbg])

/-- Retiring leaves the registers. -/
@[simp] theorem xr_ended (s u : State) (r : Reg) : xr (ended s u) r = xr u r := rfl
@[simp] theorem vr_ended (s u : State) (r : VReg) : vr (ended s u) r = vr u r := rfl
@[simp] theorem kr_ended (s u : State) (q : MSel) : kr (ended s u) q = kr u q := rfl
@[simp] theorem xr_wentOn (s u : State) (r : Reg) : xr (wentOn s u) r = xr u r := by
  obtain ⟨p, f, e⟩ := advance_only u.hart
  unfold wentOn onHart; rw [e]; rfl
@[simp] theorem vr_wentOn (s u : State) (r : VReg) : vr (wentOn s u) r = vr u r := by
  obtain ⟨p, f, e⟩ := advance_only u.hart
  unfold wentOn onHart; rw [e]; rfl
@[simp] theorem kr_wentOn (s u : State) (q : MSel) : kr (wentOn s u) q = kr u q := by
  obtain ⟨p, f, e⟩ := advance_only u.hart
  unfold wentOn onHart; rw [e]; rfl

/-- A write of a scalar register changes the scalar files only. -/
theorem setX_only (d : Reg) (v : Word) (s : State) : ∃ x xsh,
    setX d v s = { s with hart := { s.hart with regs := { s.hart.regs with x := x, xsh := xsh } } } := by
  unfold setX
  split
  · exact ⟨s.hart.regs.x, s.hart.regs.xsh, rfl⟩
  · split
    · exact ⟨s.hart.regs.x, _, rfl⟩
    · exact ⟨_, s.hart.regs.xsh, rfl⟩

/-- What a write of a scalar register leaves, retired (R75). -/
theorem scalarFrame_setX (s : State) (d : Reg) (v : Word) : ScalarFrame s (wentOn s (setX d v s)) := by
  obtain ⟨x, xsh, e⟩ := setX_only d v s
  obtain ⟨p, f, a⟩ := advance_only { s.hart with regs := { s.hart.regs with x := x, xsh := xsh } }
  rw [e]; unfold wentOn onHart; rw [a]
  exact ⟨⟨rfl, fun _ => rfl⟩, ⟨rfl, rfl⟩, rfl, rfl⟩

/-- The flow after an instruction whose effect leaves the program counter and the frame (R42, R75). -/
theorem flowsOn_wentOn {s u : State} (hp : u.hart.pc = s.hart.pc) (hf : u.hart.frame = s.hart.frame) :
    FlowsOn s (wentOn s u) := by
  exact advance_congr hp hf

/-- What an instruction that writes a scalar register does, said once (R75). -/
theorem setX_completes {s : State} (regs : List Nat) (d : Reg) (v : Word) (hs : Quiet s) :
    ∃ t, finish s regs (setX d v s) = .next t ∧ WritesX s t d v ∧ ScalarFrame s t ∧ FlowsOn s t :=
  ⟨_, finish_setX regs d v hs, fun r => by rw [xr_wentOn, xr_setX], scalarFrame_setX s d v,
    flowsOn_wentOn (setX_pc d v s) (setX_frame d v s)⟩

end Sys2Proof.Machine
end

