-- ==== Sys2Proof/Tests/Slice0.lean ====
section
/-! SUPPORT. Tests: words of the spec's encodings and what they decode to, the checks of `wf`, single steps whose results are
worked out from the spec, and for each statement a state and operands that meet its hypotheses. -/

open Sys2Proof Sys2Proof.Machine

namespace Sys2Proof.Tests

-- one theorem after another: checked side by side, each takes a thread with a stack of its own
set_option Elab.async false

/-! ## Decoding: words put together from the fields of 03_instruction_words.md and the opcode table -/

/-- Each word decodes to the instruction beside it. -/
noncomputable def decodesAll (l : List (IWord × Instr)) : Bool := l.all fun p => decode p.1 == some p.2

theorem test_decode_alu : decodesAll
   [(0x02931C00#32, .add 9 6 7), (0x02931C01#32, .sub 9 6 7), (0x02931C02#32, .mul 9 6 7), (0x02931C03#32, .mulh 9 6 7),
    (0x02931C04#32, .mulhn 9 6 7), (0x02931EC5#32, .div 9 6 7 11), (0x02931EC6#32, .divn 9 6 7 11),
    (0x02931EC7#32, .rem 9 6 7 11), (0x02931EC8#32, .remn 9 6 7 11), (0x02931C09#32, .and 9 6 7),
    (0x02931C0A#32, .or 9 6 7), (0x02931C0B#32, .xor 9 6 7), (0x02931C0C#32, .andn 9 6 7), (0x02931C0D#32, .shl 9 6 7),
    (0x02931C0E#32, .shr 9 6 7), (0x02931C0F#32, .sar 9 6 7), (0x02931C10#32, .rol 9 6 7), (0x02931C11#32, .ror 9 6 7),
    (0x02931C12#32, .min 9 6 7), (0x02931C13#32, .max 9 6 7), (0x02931C14#32, .minn 9 6 7), (0x02931C15#32, .maxn 9 6 7),
    (0x02930016#32, .clz 9 6), (0x02930017#32, .ctz 9 6), (0x02930018#32, .popc 9 6), (0x02931C19#32, .slt 9 6 7),
    (0x02931C1A#32, .sltn 9 6 7), (0x02931C1B#32, .seq 9 6 7), (0x02931C1C#32, .bext 9 6 7), (0x02931C1D#32, .bins 9 6 7),
    (0x02931C1E#32, .fshl 9 6 7), (0x02931C1F#32, .fshr 9 6 7)] = true := by decide +kernel

theorem test_decode_immediate : decodesAll
   [(0x04934E71#32, .addi 9 6 0x4E71), (0x06934E71#32, .andi 9 6 0x4E71), (0x08934E71#32, .ori 9 6 0x4E71),
    (0x0A934E71#32, .xori 9 6 0x4E71), (0x0C934E71#32, .slti 9 6 0x4E71), (0x0E9300A5#32, .shli 9 6 0xA5),
    (0x0E9320A5#32, .shri 9 6 0xA5), (0x0E9340A5#32, .sari 9 6 0xA5), (0x0E9360A5#32, .rori 9 6 0xA5),
    (0x1099A5C3#32, .li 9 0x9A5C3), (0x1299A5C3#32, .lui 9 0x9A5C3), (0x1499A5C3#32, .lhi 9 0x9A5C3)] = true := by decide +kernel

theorem test_decode_flow : decodesAll
   [(0x166388C5#32, .beq 6 7 0x8C5), (0x166398C5#32, .bne 6 7 0x8C5), (0x1663A8C5#32, .blt 6 7 0x8C5),
    (0x1663B8C5#32, .bge 6 7 0x8C5), (0x1663C8C5#32, .bltn 6 7 0x8C5), (0x1663D8C5#32, .bgen 6 7 0x8C5),
    (0x1899A5C3#32, .jal 9 0x9A5C3), (0x1A930000#32, .jr 9 6), (0x1A930001#32, .jrf 9 6), (0x1C99A5C3#32, .jf 9 0x9A5C3),
    (0x1F773980#32, .rpt 11 11 19 19)] = true := by decide +kernel

theorem test_decode_code_and_csr : decodesAll
   [(0x20031C00#32, .cfetch 6 7), (0x20930001#32, .cfstat 9 6), (0x22904628#32, .csrr 9 0x8C5),
    (0x22934629#32, .csrw 9 6 0x8C5), (0x2293462A#32, .csrs 9 6 0x8C5), (0x2293462B#32, .csrc 9 6 0x8C5),
    (0x2293462C#32, .csrx 9 6 0x8C5)] = true := by decide +kernel

theorem test_decode_vector : decodesAll
   [(0x3094F249#32, .vadd 9 (.x 7) (.c 9) .i32 1), (0x3294F249#32, .vsub 9 (.x 7) (.c 9) .i32 1),
    (0x3494F249#32, .vmul 9 (.x 7) (.c 9) .i32 1), (0x3694F249#32, .vfma 9 (.x 7) (.c 9) .i32 1),
    (0x3894F249#32, .vfnma 9 (.x 7) (.c 9) .i32 1), (0x3A94F249#32, .vmin 9 (.x 7) (.c 9) .i32 1),
    (0x3C94F249#32, .vmax 9 (.x 7) (.c 9) .i32 1), (0x3E94F249#32, .vadds 9 (.x 7) (.c 9) .i32 1),
    (0x4094F249#32, .vsubs 9 (.x 7) (.c 9) .i32 1), (0x4294F249#32, .vmulh 9 (.x 7) (.c 9) .i32 1),
    (0x4494F249#32, .vand 9 (.x 7) (.c 9) .i32 1), (0x4694F249#32, .vor 9 (.x 7) (.c 9) .i32 1),
    (0x4894F249#32, .vxor 9 (.x 7) (.c 9) .i32 1), (0x4A94F249#32, .vandn 9 (.x 7) (.c 9) .i32 1),
    (0x4C94F249#32, .vshl 9 (.x 7) (.c 9) .i32 1), (0x4E94F249#32, .vshr 9 (.x 7) (.c 9) .i32 1),
    (0x5094F249#32, .vsar 9 (.x 7) (.c 9) .i32 1), (0x53593FC9#32, .vcmp .ge 1 (.c 9) (.lit 31) .i32 1),
    (0x5494F249#32, .vsel 9 (.x 7) (.c 9) .i32 1), (0x5694F249#32, .vfsh 9 (.x 7) (.c 9) .i32 1),
    (0x5894F249#32, .vbext 9 (.x 7) (.c 9) .i32 1), (0x5A90D249#32, .vperm 9 6 (.c 9) .i32 1)] = true := by decide +kernel

theorem test_decode_vector_unary : decodesAll
   [(0x5C94F78B#32, .vcvt 9 (.x 7) .bf16 .f32 1 .rdn), (0x5E94E480#32, .vabs 9 (.x 7) .i32 1),
    (0x5E94E481#32, .vneg 9 (.x 7) .i32 1), (0x5E94E482#32, .vnot 9 (.x 7) .i32 1), (0x5E94E483#32, .vclz 9 (.x 7) .i32 1),
    (0x5E94E484#32, .vpopc 9 (.x 7) .i32 1), (0x5E94E485#32, .vmov 9 (.x 7) .i32 1),
    (0x5E94F8DE#32, .vrcp 9 (.x 7) .f32 1 11), (0x5E94F8DF#32, .vsqrt 9 (.x 7) .f32 1 11),
    (0x6094F8D8#32, .vrsq 9 (.x 7) .f32 1 11), (0x6094F8D9#32, .vexp2 9 (.x 7) .f32 1 11),
    (0x6094F8DA#32, .vlog2 9 (.x 7) .f32 1 11), (0x6094F8DB#32, .vtanh 9 (.x 7) .f32 1 11),
    (0x6094F8DC#32, .vsigm 9 (.x 7) .f32 1 11), (0x6094F885#32, .vfloor 9 (.x 7) .f32 1),
    (0x6094F886#32, .vceil 9 (.x 7) .f32 1), (0x6094F887#32, .vrndi 9 (.x 7) .f32 1),
    (0x6290C4D8#32, .vredSum 9 6 .i32 1 11), (0x6290C4D9#32, .vredMax 9 6 .i32 1 11),
    (0x6290C4DA#32, .vredMin 9 6 .i32 1 11), (0x6290C4DB#32, .vredAnd 9 6 .i32 1 11),
    (0x6290C4DC#32, .vredOr 9 6 .i32 1 11), (0x6290C4DD#32, .vredXor 9 6 .i32 1 11),
    (0x6290D8DE#32, .vredAmax 9 6 .f32 1 11), (0x6490C4D8#32, .vscanSadd 9 6 .i32 1 11),
    (0x6490C4D9#32, .vscanSmax 9 6 .i32 1 11), (0x6490C4DA#32, .vscanSmin 9 6 .i32 1 11)] = true := by decide +kernel

theorem test_decode_vector_special : decodesAll
   [(0x6690C009#32, .vcompact 9 6 .i32 1), (0x6890C009#32, .vexpand 9 6 .i32 1), (0x6A94F271#32, .vcell 9 (.x 7) (.c 9) 1),
    (0x6C94F259#32, .vmorton 9 (.x 7) (.c 9) .n32 1), (0x6E94F259#32, .vhashk 9 (.x 7) (.c 9) .n32 1)] = true := by decide +kernel

theorem test_decode_mask : decodesAll
   [(0x70208400#32, .mand 2 1 1), (0x70208401#32, .mor 2 1 1), (0x70208402#32, .mxor 2 1 1), (0x70208403#32, .mandn 2 1 1),
    (0x70208004#32, .mnot 2 1), (0x70908005#32, .mpopc 9 1), (0x70908006#32, .mfirst 9 1), (0x70231C07#32, .mfromx 2 6 7),
    (0x70908408#32, .mtox 9 1 true), (0x729302C0#32, .vsmap 9 6 11), (0x749302C0#32, .vsred 9 6 11),
    (0x769302C0#32, .vscvt 9 6 11), (0x78930000#32, .vgrow 9 6), (0x78930001#32, .vshrink 9 6),
    (0x78900002#32, .vallotq 9), (0x78931C03#32, .vext 9 6 7), (0x78931C04#32, .vins 9 6 7)] = true := by decide +kernel

theorem test_decode_memory : decodesAll
   [(0x8093DDA3#32, .ldb 9 7 11 .na 0x1A3), (0x8293DDA3#32, .ldh 9 7 11 .na 0x1A3), (0x8493DDA3#32, .ldw 9 7 11 .na 0x1A3),
    (0x8693DDA3#32, .ldd 9 7 11 .na 0x1A3), (0x8893DDA3#32, .ldbn 9 7 11 .na 0x1A3),
    (0x8A93DDA3#32, .ldhn 9 7 11 .na 0x1A3), (0x8C93DDA3#32, .ldwn 9 7 11 .na 0x1A3), (0x8E9385A3#32, .stb 9 7 .na 0x1A3),
    (0x909385A3#32, .sth 9 7 .na 0x1A3), (0x929385A3#32, .stw 9 7 .na 0x1A3), (0x949385A3#32, .std 9 7 .na 0x1A3),
    (0x9693DDA3#32, .vld 9 7 11 .na 0x1A3), (0x989385A3#32, .vst 9 7 .na 0x1A3), (0x9A93CAC9#32, .vgath 9 7 18 11 .i32 1),
    (0x9C93C809#32, .vscat 9 7 18 .i32 1)] = true := by decide +kernel

theorem test_decode_line : decodesAll
   [(0x9E030000#32, .pref 6), (0x9E030001#32, .clean 6), (0x9E030002#32, .discard 6), (0x9E030003#32, .invl1 6),
    (0x9E030004#32, .zline 6)] = true := by decide +kernel

theorem test_decode_tensor : decodesAll
   [(0xA0931EC0#32, .tnew 9 6 7 11), (0xA0931EC1#32, .twiden 9 6 7 11), (0xA0030002#32, .tfree 6),
    (0xA0931EC3#32, .tinfo 9 6 7 11), (0xA0931EC4#32, .tview 9 6 7 11), (0xA0931EC5#32, .tlde 9 6 7 11),
    (0xA0931C06#32, .tste 9 6 7), (0xA0030007#32, .twait 6)] = true := by decide +kernel

theorem test_decode_fence_inbox : decodesAll
   [(0xA8030008#32, .fenceAcq 6 .grp), (0xA8030009#32, .fenceRel 6 .grp), (0xA803000A#32, .fenceAr 6 .grp),
    (0xA803000B#32, .fenceSc 6 .grp), (0xA803000C#32, .fenceWin 6 .grp), (0xA803000D#32, .fenceEng 6 .grp),
    (0xAA931EC9#32, .ldaq 9 6 7 11 .grp .d), (0xAC931C09#32, .strl 9 6 7 .grp .d), (0xAE930000#32, .inrecv 9 6),
    (0xAE900001#32, .inpeek 9), (0xAE900002#32, .incount 9), (0xAE030003#32, .uiarm 6), (0xAE000004#32, .uidis),
    (0xAE000005#32, .uiret)] = true := by decide +kernel

theorem test_decode_atomic : decodesAll
   [(0xB0931EC7#32, .amoadd 9 6 7 11 .d .ar), (0xB0931ECF#32, .amomin 9 6 7 11 .d .ar),
    (0xB0931ED7#32, .amomax 9 6 7 11 .d .ar), (0xB0931EDF#32, .amominn 9 6 7 11 .d .ar),
    (0xB0931EE7#32, .amomaxn 9 6 7 11 .d .ar), (0xB0931EEF#32, .amoand 9 6 7 11 .d .ar),
    (0xB0931EF7#32, .amoor 9 6 7 11 .d .ar), (0xB0931EFF#32, .amoxor 9 6 7 11 .d .ar),
    (0xB2931EC7#32, .amoswap 9 6 7 11 .d .ar), (0xB2931ECF#32, .amocas 9 6 7 11 .d .ar), (0xB4031C04#32, .redaddi 6 7 .d),
    (0xB4031C08#32, .redaddf32 6 7), (0xB4031C10#32, .redaddbf16 6 7), (0xB4031C1C#32, .redmin 6 7 .d),
    (0xB4031C24#32, .redmax 6 7 .d), (0xB4031C2C#32, .redminn 6 7 .d), (0xB4031C34#32, .redmaxn 6 7 .d),
    (0xB4031C3C#32, .redor 6 7 .d)] = true := by decide +kernel

theorem test_decode_future_barrier : decodesAll
   [(0xB69302C0#32, .fetake 9 6 11), (0xB6031C01#32, .feput 6 7), (0xB69302C2#32, .feread 9 6 11),
    (0xB69302C3#32, .fepeek 9 6 11), (0xB6030004#32, .feclr 6), (0xB8030000#32, .barv 6), (0xB8930001#32, .bwait 9 6),
    (0xB8930002#32, .bsync 9 6), (0xB8930003#32, .btest 9 6), (0xB8031C04#32, .bsetm 6 7), (0xB8031C05#32, .bquorum 6 7),
    (0xB8031C06#32, .brecord 6 7)] = true := by decide +kernel

theorem test_decode_task_step : decodesAll
   [(0xC0930000#32, .tkspawn 9 6), (0xC0900001#32, .tknext 9), (0xC0000002#32, .tkend), (0xC0000003#32, .tkyield),
    (0xC0931C04#32, .tkdep 9 6 7), (0xC0930005#32, .tkstat 9 6), (0xC2000000#32, .sexch), (0xC2000001#32, .ssync),
    (0xC2030002#32, .sdom 6)] = true := by decide +kernel

theorem test_decode_queues : decodesAll
   [(0xC4930000#32, .qnew 9 6), (0xC4031C01#32, .qcontrib 6 7), (0xC4930002#32, .qarrive 9 6), (0xC4000003#32, .kpoint),
    (0xC4930004#32, .qstat 9 6), (0xC4030005#32, .qreset 6), (0xC6930000#32, .wqpop 9 6), (0xC6931C01#32, .wqpush 9 6 7),
    (0xC6931C02#32, .wqfill 9 6 7), (0xC6930003#32, .wqcount 9 6)] = true := by decide +kernel

theorem test_decode_copy_message : decodesAll
   [(0xD0030000#32, .cpy 6), (0xD0030001#32, .cpyq 6), (0xD0030002#32, .cpyt 6), (0xD0030003#32, .cpyxr 6),
    (0xD0030004#32, .cpypd 6), (0xD0930005#32, .cpyst 9 6), (0xD2931C00#32, .mqsend 9 6 7), (0xD2931C01#32, .mqrecv 9 6 7),
    (0xD2930002#32, .mqpoll 9 6), (0xD2931C03#32, .mqbind 9 6 7)] = true := by decide +kernel

theorem test_decode_matrix : decodesAll
   [(0xD8031C00#32, .mcset 6 7), (0xD8930001#32, .mcget 9 6), (0xD8930002#32, .mcap 9 6), (0xDA031C00#32, .mrset 6 7),
    (0xDA931C01#32, .mradv 9 6 7), (0xDA931C02#32, .mrstat 9 6 7), (0xDCDA5C2B#32, .mma 1 5 5 23 0x2B),
    (0xDEDA5C2B#32, .mmab 1 5 5 23 0x2B), (0xE0DA5C2B#32, .mpass 1 5 5 23 0x2B),
    (0xE2131C14#32, .mdrain 1 6 7 false true false .box), (0xE4130000#32, .mzero 1 6), (0xE4030001#32, .mfence 6),
    (0xE4131C02#32, .mstat 1 6 7)] = true := by decide +kernel

theorem test_decode_nmu_projection : decodesAll
   [(0xE6030000#32, .nmupd 6), (0xE6930001#32, .nmstat 9 6), (0xE8931C0C#32, .proj 9 6 7 false true .box),
    (0xEA931C04#32, .padj 9 6 7 .box)] = true := by decide +kernel

theorem test_decode_system : decodesAll
   [(0xEC931C00#32, .ecall 9 6 7), (0xEC000001#32, .eret), (0xEC000002#32, .wfi), (0xEC000003#32, .endT),
    (0xEC030004#32, .spin 6), (0xEE930000#32, .csave 9 6), (0xEE930001#32, .crest 9 6), (0xEE930002#32, .ckpt 9 6),
    (0xEE930003#32, .rback 9 6), (0xF0031C00#32, .tinval 6 7), (0xF0031C01#32, .fattr 6 7)] = true := by decide +kernel

theorem test_decode_log_trace_debug : decodesAll
   [(0xF8930000#32, .ulmark 9 6), (0xF8930001#32, .ulstat 9 6), (0xF8930002#32, .uldrain 9 6), (0xFA031C00#32, .trec 6 7),
    (0xFA930001#32, .perfr 9 6), (0xFA030002#32, .perfc 6), (0xFC030000#32, .brk 6), (0xFC931C01#32, .wset 9 6 7),
    (0xFC030002#32, .wclr 6)] = true := by decide +kernel

/-- Words that no instruction has: majors 0 and 0x7F, a function past the last, a lookahead of ADD, a reserved bit of ERET,
functions past the last of TASK and DBG, set 7, type 14, mask k0 of VCMP, scope 7, a doubleword ADDF32 (R43 to R49). -/
theorem test_decode_refuses : ([0x00000000, 0xFE000000, 0x02931C20, 0x02931C40, 0xEC000041, 0xC0000007, 0xFC030003, 0xE8531C1F,
    0x30000038, 0x52000000, 0xA8000038, 0xB403000C] : List IWord).all (fun w => decode w == none) = true := by decide +kernel

/-! ## Well-formedness: one ill-formed term for each check -/

theorem test_wf_vector : [Instr.vadd 1 (.v 2) (.v 3) .e4m3 0, .vadds 1 (.v 2) (.v 3) .f32 0, .vmulh 1 (.v 2) (.v 3) .bf16 0,
    .vbext 1 (.v 2) (.v 3) .i8 0, .vand 1 (.v 2) (.v 3) .e5m3 0, .vsel 1 (.v 2) (.v 3) .e5m3 0, .vperm 1 2 (.v 3) .e5m3 0,
    .vcmp .eq 0 (.v 2) (.v 3) .f32 0, .vcmp .eq 1 (.v 2) (.v 3) .e5m2 0, .vmov 1 (.v 2) .e5m3 0, .vabs 1 (.v 2) .e4m3 0,
    .vnot 1 (.v 2) .f16 0, .vclz 1 (.v 2) .f32 0].all (fun i => !wf i) = true := by decide +kernel

theorem test_wf_special : [Instr.vcvt 1 (.v 2) .f32 .f32 0 .rne, .vcvt 1 (.v 2) .e5m3 .i8 0 .rne, .vcvt 1 (.v 2) .i8 .i64 0 .rne,
    .vcvt 1 (.v 2) .bf16 .f32 2 .rne, .vrcp 1 (.v 2) .i32 0 0, .vfloor 1 (.v 2) .i32 0, .vredSum 1 2 .e4m3 0 0, .vredAnd 1 2 .f32 0 0,
    .vredAmax 1 2 .i32 0 0, .vscanSadd 1 2 .e5m3 0 0, .vcompact 1 2 .e5m3 0, .vmorton 1 (.v 2) (.v 3) .i32 0,
    .vhashk 1 (.v 2) (.v 3) .n16 0].all (fun i => !wf i) = true := by decide +kernel

theorem test_wf_rest : [Instr.mand 0 1 2, .mnot 0 1, .mfromx 0 1 2, .stb 1 2 .lu 0, .vst 1 2 .lu 0, .vgath 1 2 3 0 .e5m3 0,
    .vscat 1 2 3 .e5m3 0, .fenceSc 16 .dev, .fenceRel 1 .core, .ldaq 1 2 3 0 .clu .w, .strl 1 2 3 .sys .d].all
    (fun i => !wf i) = true := by decide +kernel

/-- The same shapes with a legal field are words. -/
theorem test_wf_accepts : [Instr.vadd 1 (.v 2) (.v 3) .f32 0, .vbext 1 (.v 2) (.v 3) .n16 0, .vcvt 1 (.v 2) .bf16 .f32 1 .rne,
    .vcvt 1 (.v 2) .f32 .e5m3 3 .rne, .vcmp .eq 1 (.v 2) (.v 3) .f32 0, .mand 1 1 2, .stb 1 2 .na 0, .fenceSc 16 .grp, .ldaq 1 2 0 0 .clu .w].all
    wf = true := by decide +kernel

/-! ## Single steps -/

/-- The state after reset with these scalar registers. -/
def withX (l : List (Reg × Word)) (s : State := State.reset) : State := l.foldl (fun s p => setX p.1 p.2 s) s

/-- The state after reset with these vector registers. -/
def withV (l : List (VReg × VWord)) (s : State := State.reset) : State := l.foldl (fun s p => setV p.1 p.2 s) s

/-- Whether one instruction answers a next state of which `f` holds. -/
noncomputable def after (i : Instr) (s : State) (f : State → Bool) : Bool :=
  match exec i s with
  | .next t => f t
  | _ => false

/-- Whether the word, stored where the next step fetches, makes the step answer a next state of which `f` holds. -/
noncomputable def ran (w : Nat) (s : State) (f : State → Bool) : Bool :=
  match step (s.withFetchWord 32 w) with
  | .next t => f t
  | _ => false

/-- The machine right after reset runs a placed instruction: ADDI x9, x6, #5 (R83), and goes on after it (R75). -/
theorem test_step_addi : ran 0x04930005 (withX [(6, 0xFFFFFFFFFFFFFFFE)])
    (fun t => xr t 9 == 3 && t.hart.pc == 0x1004 && t.hart.tc.icount == 1) = true := by decide +kernel

/-- A word that no instruction has raises Illegal Instruction, precise at its address, with the word as TVAL (R43, R358). -/
theorem test_step_illegal : ran 0xFE000000 State.reset
    (fun t => t.hart.tr.code == 1 && t.hart.tr.tval == 0xFE000000 && t.hart.tr.epc == 0x1000 && t.hart.mode == .s) = true := by
  decide +kernel

/-- The worked examples of R82. -/
theorem test_bext : after (.bext 9 6 7) (withX [(6, 0xABCD00), (7, 0x0C08)]) (fun t => xr t 9 == 0xBCD) = true := by decide +kernel
theorem test_bins : after (.bins 9 6 7) (withX [(9, 0xFFFFFFFFFFFFFFFF), (6, 0x123), (7, 0x0C08)])
    (fun t => xr t 9 == 0xFFFFFFFFFFF123FF) = true := by decide +kernel
theorem test_fshl : after (.fshl 9 6 7) (withX [(9, 0x0123456789ABCDEF), (6, 0xFEDCBA9876543210), (7, 0x0C08)])
    (fun t => xr t 9 == 0x23456789ABCDEFFE) = true := by decide +kernel

/-- The high half of a signed product: -1 times 1 (R81); a source that is also the destination. -/
theorem test_mulh : after (.mulh 6 6 7) (withX [(6, 0xFFFFFFFFFFFFFFFF), (7, 1)]) (fun t => xr t 6 == 0xFFFFFFFFFFFFFFFF) = true := by
  decide +kernel

/-- The quotient of the most negative number by -1 wraps, and lands later (R37, R53). -/
theorem test_div : after (.div 9 6 7 2) (withX [(6, 0x8000000000000000), (7, 0xFFFFFFFFFFFFFFFF)])
    (fun t => xr t 9 == 0 && t.hart.held.map (fun w => (w.dst, w.left, w.val)) == [(.x 9, 2, 0x8000000000000000)]) = true := by
  decide +kernel

/-- BLT compares signed numbers, and its offset counts words from its own address (R31, R86). -/
theorem test_blt : after (.blt 6 7 0xFFE) (withX [(6, 0xFFFFFFFFFFFFFFFF)]) (fun t => t.hart.pc == 0xFFF8) = true := by decide +kernel
/-- JAL links the address after it (R87). -/
theorem test_jal : after (.jal 1 3) State.reset (fun t => t.hart.pc == 12 && xr t 1 == 4) = true := by decide +kernel

/-- VFMA.F32 of Fragment 2, lane 1: 1.0 + -6.0 * 0.5 is -2.0 (R22). -/
theorem test_vfma : after (.vfma 2 (.v 1) (.x 6) .f32 0) (withX [(6, 0x3F000000)] (withV [(1, 0xC0C00000 <<< 32), (2, 0x3F800000 <<< 32)]))
    (fun t => lane (vr t 2) 32 1 == 0xC0000000) = true := by decide +kernel
/-- VCMP.GT.F32 k1, v2, #0 of the reduction's fragment: lanes 0 and 2 of 1.5, -2.0, 0.25, NaN. -/
theorem test_vcmp : after (.vcmp .gt 1 (.v 2) (.lit 0) .f32 0) (withV [(2, 0x7FC00000_3E800000_C0000000_3FC00000)])
    (fun t => kr t 1 == 5) = true := by decide +kernel
/-- VRED.SUM.F32 of its two present lanes: 1.75. -/
theorem test_vred : after (.vredSum 6 2 .f32 1 2) (setK 1 5 (withV [(2, 0x7FC00000_3E800000_C0000000_3FC00000)]))
    (fun t => t.hart.held.map (fun w => (w.dst, w.val, w.flags)) == [(.v 6, 0x3FE00000, 0)]) = true := by decide +kernel
/-- VEXT of its lane 1 of 16 bits: 0x3FE0. -/
theorem test_vext : after (.vext 11 6 10) (withX [(10, 0x0101)] (withV [(6, 0x3FE00000)])) (fun t => xr t 11 == 0x3FE0) = true := by
  decide +kernel

/-- The fragment of R153: the lanes enter in ascending order, 10.0, 20.0, 30.0 and 40.0 at indices 3, 0, 3, 1. -/
theorem test_vscat : after (.vscat 4 7 5 .f32 2) (setK 2 15 (withX [(7, 0x2000)]
    (withV [(5, 0x00000001_00000003_00000000_00000003), (4, 0x42200000_41F00000_41A00000_41200000)])))
    (fun t => t.hart.sq.map (fun q => (q.loc.off, q.op)) == [(0x200C, .store [0, 0, 0x20, 0x41] .normal),
      (0x2000, .store [0, 0, 0xA0, 0x41] .normal), (0x200C, .store [0, 0, 0xF0, 0x41] .normal),
      (0x2004, .store [0, 0, 0x20, 0x42] .normal)]) = true := by decide +kernel
/-- A lane outside every region: Translation at that lane, and nothing is stored (R152). -/
theorem test_vscat_outside : after (.vscat 4 7 5 .f32 2) (setK 2 15 (withX [(7, 0x1FFF8)] (withV [(5, 3)])))
    (fun t => t.hart.tr.code == 4 && t.hart.tr.tval == 0x20004 && t.hart.sq.isEmpty) = true := by decide +kernel

/-- The first advance of the load value of the LFSR (R70). -/
theorem test_lfsr : lfsrAdvance 1 = 0x100000000 := by decide +kernel
/-- Ties to even at 2^24 (the worked case of R318): 2^24 + 1 is 2^24, and 2^24 + 2 is exact. -/
theorem test_fadd_tie : ((faddCode .f32 ⟨.rne, true, 0⟩ 0x4B800000 0x3F800000).1, (faddCode .f32 ⟨.rne, true, 0⟩ 0x4B800000 0x40000000).1) =
    (0x4B800000, 0x4B800001) := by decide +kernel

/-- A CSR write of FRM keeps it when the value is 0, and reads the old value (R64, R77). -/
theorem test_csrw_frm : after (.csrw 9 6 0x011) (withX [(6, 8)]) (fun t => xr t 9 == 1 && t.hart.ar.frm == 1) = true := by decide +kernel
/-- U mode may not write a read-only register (R79). -/
theorem test_csrw_refused : after (.csrw 9 6 0x000) State.reset (fun t => t.hart.tr.code == 1) = true := by decide +kernel
/-- ECALL in U mode raises Environment Call with x(xa) as TVAL (R363). -/
theorem test_ecall : after (.ecall 9 6 7) (withX [(6, 5)]) (fun t => t.hart.tr.code == 0x13 && t.hart.tr.tval == 5 && t.hart.mode == .s) = true := by
  decide +kernel
/-- A misaligned load: Misaligned before the region is looked at (R148). -/
theorem test_misaligned : after (.ldd 9 6 2 .normal 0) (withX [(6, 0xFFFFFFFFFFFFFFF1)])
    (fun t => t.hart.tr.code == 3 && t.hart.tr.tval == 0xFFFFFFFFFFFFFFF1) = true := by decide +kernel
/-- A word store reaches LS little-endian when it leaves the queue (R139, R186). -/
theorem test_store_performs : after (.stw 7 6 .normal 1) (withX [(6, 0x100), (7, 0x11223344)])
    (fun t => after .storePerform t fun u => rawBytes u.dev ⟨.ls 0, 0x103⟩ 6 == [0, 0x44, 0x33, 0x22, 0x11, 0]) = true := by decide +kernel
/-- A message is received: its header, and the inbox is empty (R202). -/
theorem test_inrecv : after (.inrecv 9 0) { State.reset with hart := { State.reset.hart with inbox := [⟨5, 0, 1, 0x40, 7, [], 0⟩] } }
    (fun t => xr t 9 == 0x4000010005 && t.hart.inbox.isEmpty) = true := by decide +kernel

/-! ## Witnesses: for each statement of Obligations.lean, a state and operands that meet the hypotheses of each of its clauses -/

theorem quiet_of {s : State} (h : ((s.hart.dbg.trapStep && s.hart.mode == .u) || (curCtx s).any (·.mode == 2)) = false) : Quiet s := by
  rw [Bool.or_eq_false_iff] at h
  refine ⟨h.1, fun c hc he => ?_⟩
  simp [hc, he] at h

/-- Whether a state is quiet. -/
def calm (s : State) : Bool := !((s.hart.dbg.trapStep && s.hart.mode == .u) || (curCtx s).any (·.mode == 2))

theorem quiet_of_calm {s : State} (h : calm s = true) : Quiet s := quiet_of (by rw [calm, Bool.not_eq_true'] at h; exact h)

/-- With no update-only line in the cluster, a walk recalls none. -/
theorem tablesHome_of {s : State} {a : Word} (h : s.clu.cm.all (fun x => x.uo.isNone) = true) : TablesHome s a :=
  fun _ => if_pos h

theorem of_after {i : Instr} {s : State} {f : State → Bool} (h : after i s f = true) : ∃ t, exec i s = .next t ∧ f t = true := by
  unfold after at h
  split at h
  · exact ⟨_, ‹_›, h⟩
  · cases h

theorem ok_of {α : Type} {r : Chk α} {f : α → Bool} (h : r.toOption.any f = true) : ∃ p, r = .ok p ∧ f p = true := by
  cases r with
  | error _ => cases h
  | ok p => exact ⟨p, rfl, h⟩

theorem error_of {α : Type} {r : Chk α} (h : r.toOption.isNone = true) : ∃ e, r = .error e := by
  cases r with
  | error e => exact ⟨e, rfl⟩
  | ok _ => cases h

/-- The state after reset with a running thread and this word where it fetches next. -/
def placed (w : Nat) : State := State.reset.withFetchWord 32 w

/-- A state that waits for a held write that never lands. -/
def heldX9 : State := openHeld (.x 9) 0 0 1 0 (placed 0x04930005)

/-- A thread whose program counter has left the code that was placed. -/
def outside : State := onHart (fun h => { h with pc := 0x2000 }) (placed 0)

theorem witness_StepRunsDecoded :
    (Issues (placed 0x04930005) ∧ fetch (placed 0x04930005).hart = .ok 0x04930005 ∧ decode 0x04930005 = some (.addi 9 6 5) ∧
      mustHold (.addi 9 6 5) (placed 0x04930005) = false ∧
      ∃ t, exec (.addi 9 6 5) (placed 0x04930005) = .next t ∧ (waits (placed 0x04930005) t == false) = true) ∧
    (Issues heldX9 ∧ fetch heldX9.hart = .ok 0x04930005 ∧ mustHold (.addi 9 6 5) heldX9 = true) ∧
    (Issues (placed 0xAE900000) ∧ fetch (placed 0xAE900000).hart = .ok 0xAE900000 ∧ decode 0xAE900000 = some (.inrecv 9 0) ∧
      mustHold (.inrecv 9 0) (placed 0xAE900000) = false ∧
      ∃ t, exec (.inrecv 9 0) (placed 0xAE900000) = .next t ∧ (waits (placed 0xAE900000) t == true) = true) ∧
    (Issues (placed 0) ∧ fetch (placed 0).hart = .ok 0 ∧ decode 0 = none) ∧
    (Issues outside ∧ ∃ c v, fetch outside.hart = .error (c, v)) ∧
    encode .storePerform = 0 ∧ encode (.heldWriteLand 3) = 0 := by
  refine ⟨⟨by unfold Issues; decide +kernel, by decide +kernel, by decide +kernel, by decide +kernel, of_after (by decide +kernel)⟩,
    ⟨by unfold Issues; decide +kernel, by decide +kernel, by decide +kernel⟩,
    ⟨by unfold Issues; decide +kernel, by decide +kernel, by decide +kernel, by decide +kernel, of_after (by decide +kernel)⟩,
    ⟨by unfold Issues; decide +kernel, by decide +kernel, by decide +kernel⟩,
    ⟨by unfold Issues; decide +kernel, _, _, rfl⟩, by decide +kernel, by decide +kernel⟩

/-- Context 0 of session 1, with the tables that `tables` lays out. -/
def ctxA : Context := { newContext 0 1 [] with quota := 2 ^ 30, root := 0x40000000, log2sz := 21 }

/-- Tables that map the gigabyte from 2^40 to physical 0 with every permission (R145). -/
def tables : Mem := [(0x40000010, 0x01), (0x40000011, 0x10), (0x40000013, 0x40), (0x40001000, 0x3F)]

/-- A thread of context 0 that runs; the context owns the first frame. -/
def inA : State := onDev (fun d => { d with booted := true, ctxs := [ctxA], dmem := tables, owners := [(0, .ctx 0)] })
  { placed 0 with clu := { Cluster.reset with scratch := 0x1000, members := [0], group := [0] } }

/-- The same inside a trap's handler. -/
def inTrap : State := takeTrap 1 0 0x1000 0 false inA

theorem quiet_inA : Quiet inA := quiet_of (by decide +kernel)

theorem witness_TrapEntry : inA.hart.tr.tip = false ∧ inTrap.hart.tr.tip = true ∧ ∃ c, curCtx inTrap = some c := by
  exact ⟨rfl, rfl, _, rfl⟩

theorem witness_ScalarInstructionsComplete : (∃ p, scalarResult State.reset (.add 1 2 3) = some p) ∧
    (∃ p, scalarResult State.reset (.lhi 0 0xFFFFF) = some p) ∧ Quiet State.reset := ⟨⟨_, rfl⟩, ⟨_, rfl⟩, quiet_of rfl⟩

theorem witness_DivisionOpensHeldWrite : (∃ p, divResult (withX [(3, 5)]) (.div 1 2 3 15) = some p) ∧ Quiet (withX [(3, 5)]) ∧
    (∃ p, divResult State.reset (.remn 1 2 0 0) = some p) ∧ Quiet State.reset := ⟨⟨_, rfl⟩, quiet_of rfl, ⟨_, rfl⟩, quiet_of rfl⟩

theorem witness_BranchesCompleteAndWriteNothing : branchOf State.reset (.beq 0 0 0x800) = some ((0 : Word) = 0, 0x800) ∧
    branchOf State.reset (.bne 0 0 1) = some ((0 : Word) ≠ 0, 1) ∧ Quiet State.reset := ⟨rfl, rfl, quiet_of rfl⟩

/-- Segment 1 while its image is fetched. -/
def fetching : State := onHart (fun h => { h with segs := h.segs.set 1 ⟨.fetching, 0, 0x10000000000, false⟩ }) inA
/-- The same from an LS address, from an unmapped one, and from an image with a poisoned granule. -/
def fetchingLs : State := onHart (fun h => { h with segs := h.segs.set 1 ⟨.fetching, 0, 0x1000, false⟩ }) inA
def fetchingOff : State := onHart (fun h => { h with segs := h.segs.set 1 ⟨.fetching, 0, 0x18000000000, false⟩ }) inA
def fetchingBad : State := onDev (fun d => { d with devPoison := [1] }) fetching

theorem witness_JumpsLinkAndGo :
    (jumpOf (withX [(3, 0xFFFFFFFFFFFFFFFC)]) (.jr 0 3) = some (0, 0xFFFFFFFFFFFFFFFC, false, true) ∧
      (0xFFFFFFFFFFFFFFFC : Word).toNat % 4 = 0 ∧ Quiet (withX [(3, 0xFFFFFFFFFFFFFFFC)])) ∧
    (∃ p, jumpOf State.reset (.jal 1 0x80000) = some p ∧ (p.2.2 == (false, false)) = true) ∧
    (jumpOf (withX [(3, 0x1000)] inA) (.jrf 1 3) = some (1, 0x1000, true, true) ∧ segState (withX [(3, 0x1000)] inA) 0x1000 ≠ .fetching ∧
      Quiet (withX [(3, 0x1000)] inA)) ∧
    (jumpOf (withX [(3, 2)]) (.jr 1 3) = some (1, 2, false, true) ∧ (2 : Word).toNat % 4 ≠ 0) ∧
    (jumpOf (withX [(3, 0x1000)] fetching) (.jrf 1 3) = some (1, 0x1000, true, true) ∧ segState (withX [(3, 0x1000)] fetching) 0x1000 = .fetching) := by
  refine ⟨⟨rfl, rfl, quiet_of rfl⟩, ⟨_, rfl, rfl⟩, ⟨rfl, by decide +kernel, quiet_of (by decide +kernel)⟩, ⟨rfl, by decide⟩, rfl, rfl⟩

/-- Segment 1 landed, with ADD x9, x6, x7 after the program counter. -/
def loop : State := onHart (fun h => { h with imem := memPut h.imem 0x1004 (natBytes 4 0x02931C00) }) inA

theorem witness_RptBeginsFrame : Quiet loop ∧ ∀ a ∈ captured loop.hart.pc 0, fetchFault loop.hart a = none ∧
    capturable (imemWord loop.hart a) = true ∧ ∃ i, decodeLow (imemWord loop.hart a) = some i ∧ wf i = true := by
  refine ⟨quiet_of (by decide +kernel), fun a h => ?_⟩
  have e : captured loop.hart.pc 0 = [0x1004] := by decide +kernel
  rw [e, List.mem_singleton] at h
  subst h
  exact ⟨by decide +kernel, by decide +kernel, .add 9 6 7, by decide +kernel, by decide +kernel⟩

theorem witness_FlowFollowsFrame : Hart.reset.frame = none ∧
    (let f : Frame := ⟨0x1000, 2, 2, 0, 0, 0, 0, []⟩; f.i + 1 < f.len) ∧
    (let f : Frame := ⟨0x1000, 2, 2, 0, 0, 0, 1, []⟩; f.len ≤ f.i + 1 ∧ f.j + 1 < f.reps) ∧
    (let f : Frame := ⟨0x1000, 2, 2, 0, 0, 1, 1, []⟩; f.len ≤ f.i + 1 ∧ f.reps ≤ f.j + 1) := by decide

/-- Whether segment 1's image is translated, each of its lines may be read, and this holds of the first poisoned address. -/
def imageRead (s : State) (f : Option Word → Bool) : Bool :=
  (translate s (segAt s 1).user true ⟨false, false, 0⟩ (segAt s 1).addr).toOption.any fun p =>
    (fetchLines p.2 (segAt s 1) p.1).all (canPerform p.2) &&
      f ((fetchLines p.2 (segAt s 1) p.1).findSome? fun r => (loadPoison p.2 r).map fun i => r.va + wordOf i)

theorem witness_CodeFetchInstructions :
    ((xr (withX [(6, 0xFFF)]) 6).toNat % 4096 ≠ 0) ∧
    ((xr (withX [(7, 16)]) 6).toNat % 4096 = 0 ∧ 15 < (xr (withX [(7, 16)]) 7).toNat ∧ xr State.reset 7 = 0 ∧ State.reset.hart.mode = .u) ∧
    ((xr (withX [(7, 15)]) 6).toNat % 4096 = 0 ∧ (xr (withX [(7, 15)]) 7).toNat ≤ 15 ∧ xr (withX [(7, 15)]) 7 ≠ 0 ∧ Quiet (withX [(7, 15)])) ∧
    ((segAt fetchingLs 1).st = .fetching ∧ fetchingLs.hart.sq = [] ∧ isDevVa (segAt fetchingLs 1).addr = false) ∧
    ((segAt fetchingOff 1).st = .fetching ∧ fetchingOff.hart.sq = [] ∧ isDevVa (segAt fetchingOff 1).addr = true ∧
      ∃ r, translate fetchingOff (segAt fetchingOff 1).user true ⟨false, false, 0⟩ (segAt fetchingOff 1).addr = .error r) ∧
    ((segAt fetchingBad 1).st = .fetching ∧ fetchingBad.hart.sq = [] ∧ isDevVa (segAt fetchingBad 1).addr = true ∧
      imageRead fetchingBad (· == some 0x10000000040) = true) ∧
    ((segAt fetching 1).st = .fetching ∧ fetching.hart.sq = [] ∧ isDevVa (segAt fetching 1).addr = true ∧
      imageRead fetching (·.isNone) = true) := by
  refine ⟨by decide, ⟨by decide, by decide, rfl, rfl⟩, ⟨by decide, by decide, by decide, quiet_of rfl⟩, ⟨?_, ?_, ?_⟩,
    ⟨?_, ?_, ?_, error_of ?_⟩, ⟨?_, ?_, ?_, ?_⟩, ⟨?_, ?_, ?_, ?_⟩⟩ <;> decide +kernel

theorem witness_CsrInstructionsReadThenWrite :
    (∃ p, csrInstr State.reset (.csrw 1 2 0x011) = some p ∧ csrAllowed State.reset.hart.mode 0x011 true = true) ∧
    (∃ p, csrInstr State.reset (.csrs 1 0 0x001) = some p ∧ csrAllowed State.reset.hart.mode 0x001 false = true) ∧
    (∃ p, csrInstr State.reset (.csrx 1 2 0x001) = some p ∧ csrAllowed State.reset.hart.mode 0x001 true = false) ∧ Quiet State.reset := by
  exact ⟨⟨_, rfl, by decide +kernel⟩, ⟨_, rfl, by decide +kernel⟩, ⟨_, rfl, by decide +kernel⟩, quiet_of rfl⟩

theorem witness_CsrWriteFieldRules : (∃ c, curCtx inA = some c) ∧ (∃ c, ctxOf inA.dev inA.dev.csel.toNat = some c) ∧
    (0xF : BitVec 12).toNat < 0x10 := ⟨⟨_, rfl⟩, ⟨_, rfl⟩, by decide⟩

theorem witness_LaneInstructionsComplete :
    (∃ p, laneInstr State.reset (.vadd 7 (.v 1) (.lit 31) .i8 3) = some p) ∧ Allotted State.reset (7 :: srcRegs [.v 1, .lit 31]) ∧
    (∃ p, laneInstr State.reset (.vmov 0 (.c 31) .i64 0) = some p) ∧ Allotted State.reset (0 :: srcRegs [.c 31, .lit 0]) ∧
    Quiet State.reset := by
  exact ⟨⟨_, rfl⟩, by unfold Allotted; decide, ⟨_, rfl⟩, by unfold Allotted; decide, quiet_of rfl⟩

theorem witness_RoundingLaneInstructionsComplete :
    (∃ p, drawInstr State.reset (.vfma 7 (.v 1) (.x 2) .bf16 3) = some p) ∧ Allotted State.reset (7 :: srcRegs [.v 1, .x 2]) ∧
    Quiet State.reset := by
  exact ⟨⟨_, rfl⟩, by unfold Allotted; decide, quiet_of rfl⟩

theorem witness_VectorLongLatencyOpensHeldWrite :
    (∃ p, vectorHeld State.reset (.vrcp 7 (.v 1) .f32 0 15) = some p) ∧ (∃ p, vectorHeld State.reset (.vredSum 7 1 .f32 0 0) = some p) ∧
    (∃ p, vectorHeld State.reset (.vscanSmin 7 1 .n64 2 0) = some p) ∧ Allotted State.reset [7, 1] ∧ Quiet State.reset := by
  exact ⟨⟨_, rfl⟩, ⟨_, rfl⟩, ⟨_, rfl⟩, by unfold Allotted; decide, quiet_of rfl⟩

theorem witness_VectorMovesComplete : (∃ p, vectorMove State.reset (.vcvt 7 (.v 1) .bf16 .f32 1 .dyn) = some p) ∧
    (∃ p, vectorMove State.reset (.vcmp .eq 3 (.v 1) (.lit 0) .f32 0) = some p) ∧ (∃ p, vectorMove State.reset (.vins 7 0 2) = some p) ∧
    Allotted State.reset [7, 1] ∧ Quiet State.reset := by
  exact ⟨⟨_, rfl⟩, ⟨_, rfl⟩, ⟨_, rfl⟩, by unfold Allotted; decide, quiet_of rfl⟩

theorem witness_RefusedVectorNameTraps : insideInstr State.reset.hart = false ∧ allotNames (.vadd 7 (.v 8) (.v 31) .i8 0) = [7] ++ 8 :: [31] ∧
    (∀ p ∈ [(7 : VReg)], refused State.reset p = false) ∧ refused State.reset 8 = true ∧
    (onHart (fun h => { h with ui := { h.ui with inh := true } }) State.reset).hart.ui.inh = true ∧ 24 ≤ (24 : VReg).toNat := by
  decide

theorem witness_MaskInstructionsComplete : (∃ v, maskResult State.reset (.mand 3 0 1) = some (3, v)) ∧ (3 : MSel) ≠ 0 ∧
    (∃ p, maskScalar State.reset (.mtox 1 3 true) = some p) ∧ Quiet State.reset := ⟨⟨_, rfl⟩, by decide, ⟨_, rfl⟩, quiet_of rfl⟩

/-- A scalar register set, with a vector write held whose register VSHRINK releases. -/
def shrinks : State := openHeld (.v 20) 0 0 0 0 (withX [(2, 8)])

theorem witness_AllotmentInstructions :
    (isAllotment (xr (withX [(2, 32)]) 2) ∧ (withX [(2, 32)]).hart.regs.allot ≤ (xr (withX [(2, 32)]) 2).toNat ∧ Quiet (withX [(2, 32)])) ∧
    (isAllotment (xr shrinks 2) ∧ (xr shrinks 2).toNat ≤ shrinks.hart.regs.allot ∧ Quiet shrinks ∧
      ∀ w ∈ shrinks.hart.held, releasedBy (xr shrinks 2).toNat shrinks.hart.regs.allot w = true → w.missing = 0) ∧
    (¬ isAllotment (xr (withX [(2, 9)]) 2) ∧ Quiet (withX [(2, 9)])) ∧
    (withX [(2, 32)]).hart.regs.allot < (xr (withX [(2, 32)]) 2).toNat := by
  refine ⟨⟨?_, ?_, quiet_of rfl⟩, ⟨?_, ?_, quiet_of rfl, ?_⟩, ⟨?_, quiet_of rfl⟩, ?_⟩ <;> (try unfold isAllotment) <;> decide

/-- The state that an instruction answers. -/
noncomputable def did (i : Instr) (s : State) : State :=
  match exec i s with
  | .next t => t
  | _ => s

/-- x6 at the last doubleword of LS, and outside every region. -/
def atEdge : State := withX [(6, 0x1FFF8)]
def beyond : State := withX [(6, 0x20000)]
/-- x6 at a mapped device address. -/
def atDev : State := withX [(6, 0x10000000000)] inA

theorem witness_LoadsOpenHeldWrite :
    ((∃ p, loadOf atEdge (.ldd 9 6 15 .normal 0) = some p) ∧ Allotted atEdge (allotNames (.ldd 9 6 15 .normal 0)) ∧
      (∃ p, checkAccess atEdge 0x1FFF8 8 ⟨true, false, 0⟩ = .ok p ∧ (calm p.2 && (reserveLog (loadNeed p.2 .normal p.1) p.2).isSome) = true) ∧
      Quiet atEdge ∧ TablesHome atEdge 0x1FFF8) ∧
    ((∃ p, loadOf atDev (.vld 7 6 0 .lu 0) = some p) ∧ Allotted atDev (allotNames (.vld 7 6 0 .lu 0)) ∧
      (∃ p, checkAccess atDev 0x10000000000 128 ⟨true, false, 0⟩ = .ok p ∧ (calm p.2 && (reserveLog (loadNeed p.2 .lu p.1) p.2).isSome) = true) ∧
      Quiet atDev ∧ TablesHome atDev 0x10000000000) ∧
    ((∃ p, loadOf beyond (.ldb 9 6 0 .normal 0) = some p) ∧ ∃ r, checkAccess beyond 0x20000 1 ⟨true, false, 0⟩ = .error r) := by
  refine ⟨⟨⟨_, rfl⟩, by unfold Allotted; decide, ok_of (by decide +kernel), quiet_of (by decide +kernel), tablesHome_of rfl⟩,
    ⟨⟨_, rfl⟩, by unfold Allotted; decide +kernel, ok_of (by decide +kernel), quiet_of (by decide +kernel), tablesHome_of rfl⟩,
    ⟨_, rfl⟩, error_of (by decide +kernel)⟩

/-- A store queue at its capacity. -/
def fullSq : State := (List.range 32).foldl (fun s _ => enqueue .zline ⟨⟨.ls 0, 0⟩, .ls, 0⟩ none s) atEdge

theorem witness_StoresEnterQueue :
    ((∃ p, storeOf atEdge (.std 9 6 .na 0) = some p) ∧ (∃ p, checkAccess atEdge 0x1FFF8 8 ⟨false, true, 0⟩ = .ok p ∧
      (calm p.2 && sqRoom p.2 1 && (reserveLog (storeNeed p.2 (.store [0] .na) p.1.loc) (markEffect p.2)).isSome) = true) ∧
      Quiet atEdge ∧ TablesHome atEdge 0x1FFF8) ∧
    ((∃ p, storeOf atDev (.redor 6 7 .d) = some p) ∧ (∃ p, checkAccess atDev 0x10000000000 8 ⟨false, true, 8⟩ = .ok p ∧
      (calm p.2 && sqRoom p.2 1 && (reserveLog (storeNeed p.2 .zline p.1.loc) (markEffect p.2)).isSome) = true) ∧
      Quiet atDev ∧ TablesHome atDev 0x10000000000) ∧
    ((∃ p, storeOf fullSq (.stb 9 6 .normal 0) = some p) ∧ ∃ p, checkAccess fullSq 0x1FFF8 1 ⟨false, true, 0⟩ = .ok p ∧
      (!sqRoom p.2 1) = true) ∧
    ((∃ p, storeOf beyond (.zline 6) = some p) ∧ ∃ r, checkAccess beyond 0x20000 128 ⟨false, true, 0⟩ = .error r) ∧
    Allotted atEdge (allotNames (.vst 7 6 .normal 0)) := by
  refine ⟨⟨⟨_, rfl⟩, ok_of (by decide +kernel), quiet_of (by decide +kernel), tablesHome_of rfl⟩,
    ⟨⟨_, rfl⟩, ok_of (by decide +kernel), quiet_of (by decide +kernel), tablesHome_of rfl⟩,
    ⟨⟨_, rfl⟩, ok_of (by decide +kernel)⟩, ⟨⟨_, rfl⟩, error_of (by decide +kernel)⟩, by unfold Allotted; decide⟩

theorem witness_AccessChecksInOrder : (0 : Nat) < 8 ∧ (0x1FFF9 : Word).toNat % 8 ≠ 0 ∧
    ((0x1FFF8 : Word).toNat % 8 = 0 ∧ (0x1FFF8 : Word).toNat < 0x20000) ∧
    ((0x100000 : Word).toNat % 8 = 0 ∧ 0x100000 ≤ (0x100000 : Word).toNat ∧ (0x4FFFF8 : Word).toNat < 0x500000) ∧
    ((0x100000000 : Word).toNat % 8 = 0 ∧ 0x100000000 ≤ (0x100000000 : Word).toNat ∧ (0x16FFFFFF8 : Word).toNat < 0x170000000) ∧
    ((0x20000 : Word).toNat % 8 = 0 ∧ 0x20000 ≤ (0x20000 : Word).toNat ∧ (0xFFFF8 : Word).toNat < 0x100000) ∧
    (0x500000 ≤ (0x500000 : Word).toNat ∧ (0xFFFFFFF8 : Word).toNat < 0x100000000) ∧
    (0x170000000 ≤ (0x170000000 : Word).toNat ∧ (0xFFFFFFFFF8 : Word).toNat < devBase) ∧ devTop ≤ (0x1000000000000 : Word).toNat ∧
    (∃ p, checkAccess inA 0x10000000000 8 ⟨true, true, 0⟩ = .ok p ∧ true = true) := by
  refine ⟨by decide, by decide, by decide, by decide, by decide, by decide, by decide, by decide, by decide, ok_of (by decide +kernel)⟩

/-- One entry in the store queue; and a VSCAT whose last lane has not entered it yet. -/
def sqOne : State := enqueue .zline ⟨⟨.ls 0, 0⟩, .ls, 0⟩ none (withX [(7, 0x2000)])
def scattering : State := onHart (fun h => { h with mid := .scatter h.sq }) sqOne

theorem witness_GatherAndScatterComplete : Allotted (withX [(7, 0x2000)]) [4, 5] ∧ Quiet (withX [(7, 0x2000)]) ∧
    insideInstr (withX [(7, 0x2000)]).hart = false ∧
    (∃ p, checkLanes 4 ⟨true, false, 5⟩ (laneAddrs (withX [(7, 0x2000)]) 7 5 .f32 0) (withX [(7, 0x2000)]) = .ok p ∧ calm p.2 = true) ∧
    (∃ p, checkLanes 4 ⟨false, true, 6⟩ (laneAddrs (withX [(7, 0x2000)]) 7 5 .f32 0) (withX [(7, 0x2000)]) = .ok p ∧
      (calm p.2 && p.1.length == 32 && p.2.hart.sq.isEmpty &&
        (reserveLog ((p.1.map fun q => storeNeed (withX [(7, 0x2000)]) (.store (natBytes 4 0) .normal) q.2.loc).sum) p.2).isSome) = true) ∧
    (insideInstr sqOne.hart = false ∧ Allotted sqOne [4, 5] ∧ Quiet sqOne ∧
      ∃ p, checkLanes 4 ⟨false, true, 6⟩ (laneAddrs sqOne 7 5 .f32 0) sqOne = .ok p ∧
        (calm p.2 && p.1.length == 32 && p.2.hart.sq.length == 1 &&
          (reserveLog ((p.1.map fun q => storeNeed sqOne (.store (natBytes 4 0) .normal) q.2.loc).sum) p.2).isSome) = true) ∧
    (scattering.hart.mid = .scatter sqOne.hart.sq ∧ Quiet scattering ∧ scattering.hart.sq.length + sqOne.hart.sq.length ≤ 32) ∧
    (∃ r, checkLanes 4 ⟨true, false, 5⟩ (laneAddrs beyond 6 5 .f32 0) beyond = .error r) ∧
    (∃ r, checkLanes 4 ⟨false, true, 6⟩ (laneAddrs beyond 6 5 .f32 0) beyond = .error r) := by
  refine ⟨by unfold Allotted; decide, quiet_of rfl, rfl, ok_of (by decide +kernel), ok_of (by decide +kernel),
    ⟨rfl, by unfold Allotted; decide, quiet_of rfl, ok_of (by decide +kernel)⟩, ⟨rfl, quiet_of rfl, by decide⟩, error_of (by decide +kernel),
    error_of (by decide +kernel)⟩

/-- x6 at a mapped device address whose home has a request on its path. -/
def pathBusy : State := onClu (fun c => { c with path := (enqueue .zline ⟨⟨.dev, 0⟩, .wb, 0x10000000000⟩ none atDev).hart.sq }) atDev

theorem witness_LineMaintenanceCompletes :
    (∃ p, checkRegion atEdge (xr atEdge 6) 1 ⟨true, false, 0⟩ = .ok p ∧ (calm p.2 && p.1.region != .wb) = true) ∧ Quiet atEdge ∧
    (∃ p, checkRegion atDev (xr atDev 6) 1 ⟨true, false, 0⟩ = .ok p ∧ (calm p.2 && p.1.region == .wb && sqRoom p.2 1 && !isUo atDev.clu p.1.loc &&
      pathClear atDev p.1.loc && cmRoom p.2 p.1.loc false && (reserveLog (storeNeed p.2 .clean (lineAccess p.1).loc) p.2).isSome) = true) ∧
    Quiet atDev ∧ (isDevVa (xr pathBusy 6) = true ∧ Quiet pathBusy ∧
      ∃ p, checkRegion pathBusy (xr pathBusy 6) 1 ⟨true, false, 0⟩ = .ok p ∧ (calm p.2 && !pathClear pathBusy p.1.loc) = true) ∧
    (∃ p, checkRegion atEdge (xr atEdge 6) 1 ⟨false, true, 0⟩ = .ok p ∧ (calm p.2 && p.1.region != .wb) = true) ∧
    (∃ p, checkRegion atDev (xr atDev 6) 1 ⟨false, true, 0⟩ = .ok p ∧ (calm p.2 && p.1.region == .wb && sqRoom p.2 1 &&
      (reserveLog (storeNeed p.2 .discard (lineAccess p.1).loc) (markEffect p.2)).isSome) = true) ∧
    isDevVa (xr atEdge 6) = false ∧ isDevVa (xr atDev 6) = true ∧ (6 : Reg) ≠ 0 ∧
    (isDevVa (xr (withX [(6, 0x10000000000)]) 6) = true ∧ Quiet (withX [(6, 0x10000000000)]) ∧
      ∃ r, checkRegion (withX [(6, 0x10000000000)]) (xr (withX [(6, 0x10000000000)]) 6) 1 ⟨true, false, 0⟩ = .error r) := by
  refine ⟨ok_of (by decide +kernel), quiet_of rfl, ok_of (by decide +kernel), quiet_of (by decide +kernel),
    ⟨by decide +kernel, quiet_of (by decide +kernel), ok_of (by decide +kernel)⟩, ok_of (by decide +kernel),
    ok_of (by decide +kernel), by decide +kernel, by decide +kernel, by decide, by decide +kernel, quiet_of rfl, error_of (by decide +kernel)⟩

theorem witness_AtomicsEnterQueue : (∃ p, amoOf (.amocas 9 6 7 15 .w .ar) = some p) ∧ (∃ p, amoOf (.amoadd 0 6 7 0 .d .rlx) = some p) ∧
    (∃ p, checkAccess atDev (xr atDev 6) (sizeBytes .w) ⟨true, true, 7⟩ = .ok p ∧ (sqRoom atDev 1 &&
      (reserveLog (storeNeed atDev (.rmw .cas 4 0 0 (some 0) false) p.1.loc) p.2).isSome) = true) ∧ Quiet atDev ∧ TablesHome atDev (xr atDev 6) ∧
    (∃ r, checkAccess beyond (xr beyond 6) (sizeBytes .w) ⟨true, true, 7⟩ = .error r) := by
  refine ⟨⟨_, rfl⟩, ⟨_, rfl⟩, ok_of (by decide +kernel), quiet_of (by decide +kernel), tablesHome_of rfl, error_of (by decide +kernel)⟩

theorem witness_AtomicOperationsCompute : (4 = 4 ∨ 4 = 8) ∧ (8 = 4 ∨ 8 = 8) ∧ (0x1FFFFFFFF : Word).toNat % 2 ^ (8 * 4) = (0xFFFFFFFF : Word).toNat % 2 ^ (8 * 4) ∧
    (0x1FFFFFFFF : Word).toNat % 2 ^ (8 * 8) ≠ (0xFFFFFFFF : Word).toNat % 2 ^ (8 * 8) := by decide

theorem witness_AcquireLoadReleaseStore : resolveScope atDev .sys (xr atDev 0) = .ok .sys ∧ resolveScope atDev .core (xr atDev 0) = .ok .core ∧
    (∃ p, checkAccess atDev (xr atDev 6) (sizeBytes .d) ⟨true, false, 0⟩ = .ok p ∧ calm p.2 = true) ∧ Quiet atDev ∧
    (∃ p, checkAccess atDev (xr atDev 6) (sizeBytes .w) ⟨false, true, 0⟩ = .ok p ∧ (calm p.2 && sqRoom p.2 1 &&
      (reserveLog (storeNeed p.2 (.strl [0, 0, 0, 0] .dev) p.1.loc) (markEffect p.2)).isSome) = true) ∧
    8 ≤ (xr atDev 6).toNat ∧ State.reset.hart.nslots ≤ (xr State.reset 6).toNat := by
  refine ⟨by decide +kernel, by decide +kernel, ok_of (by decide +kernel), quiet_of (by decide +kernel), ok_of (by decide +kernel),
    by decide +kernel, by decide +kernel⟩

/-- A thread with all eight barrier slots. -/
def slots8 : State := onHart (fun h => { h with nslots := 8 }) inA

theorem witness_FencesComplete : (∃ p, fenceInstr (.fenceSc 0 .dev) = some p) ∧ resolveScope State.reset .dev (xr State.reset 0) = .ok .dev ∧
    Quiet State.reset ∧ (∃ p, fenceInstr (.fenceEng 7 .grp) = some p) ∧
    (∃ r, resolveScope (withX [(7, 7)] slots8) .grp (xr (withX [(7, 7)] slots8) 7) = .ok r ∧ true = true) ∧ Quiet (withX [(7, 7)] slots8) ∧
    8 ≤ (xr (withX [(7, 8)] slots8) 7).toNat ∧ State.reset.hart.nslots ≤ (xr State.reset 7).toNat := by
  refine ⟨⟨_, rfl⟩, by decide +kernel, quiet_of rfl, ⟨_, rfl⟩, ok_of (by decide +kernel), quiet_of (by decide +kernel), by decide +kernel,
    by decide +kernel⟩

/-- A thread whose task has issued an effect instruction. -/
def afterEffect : State := onHart (fun h => { h with tk := { h.tk with run := true, effect := true } }) inA

theorem witness_FutureInstructionsEnterQueue :
    (∃ p, feCheck atDev (xr atDev 6) = .ok p ∧ (calm p.2 && sqRoom atDev 1 && sqRoom p.2 1 && (reserveLog (storeNeed atDev (.fe .take 0 (some 0) none) p.1.loc) p.2).isSome &&
      (reserveLog (storeNeed p.2 (.fe .put 0 none none) p.1.loc) (markEffect p.2)).isSome &&
      (reserveLog (storeNeed p.2 (.fe .clr 0 none none) p.1.loc) (markEffect p.2)).isSome) = true) ∧ Quiet atDev ∧
    (atDev.hart.tk.run && atDev.hart.tk.effect) = false ∧ (afterEffect.hart.tk.run && afterEffect.hart.tk.effect) = true := by
  refine ⟨ok_of (by decide +kernel), quiet_of (by decide +kernel), by decide +kernel, by decide +kernel⟩

/-- A held write of x9 whose window is closed and whose value is there. -/
def landable : State := openHeld (.x 9) 0 7 0 1 State.reset

theorem witness_HeldWriteLands :
    (∃ w, landable.hart.held[0]? = some w ∧ w.poison = none ∧ w.bind = none) ∧ canLand landable.hart 0 = true ∧ landable.hart.fences = [] ∧
    canLand landable.hart 1 = false ∧ canLand heldX9.hart 0 = false := by
  refine ⟨⟨_, rfl, rfl, rfl⟩, by decide, rfl, by decide, by decide⟩

/-- One store in the queue: of a word to LS, and of a word to device memory. -/
noncomputable def storedLs : State := did (.stw 7 6 .normal 0) (withX [(6, 0x1FFFC), (7, 5)])
noncomputable def storedDev : State := did (.stw 7 6 .normal 31) (withX [(6, 0x10000000000), (7, 5)] inA)

theorem memoriesOk_of {s : State} (h : (Memory.wf s.hart.imem && Memory.wf s.dev.ls && Memory.wf s.dev.scr && Memory.wf s.dev.dmem) = true) :
    MemoriesOk s := by
  simp only [Bool.and_eq_true] at h
  exact ⟨h.1.1.1, h.1.1.2, h.1.2, h.2⟩

/-- What the store at the head of a queue must be for its clause of the statement. -/
def storeHead (s : State) (r : Region) : Bool :=
  match s.hart.sq with
  | [q] => q.op == .store [5, 0, 0, 0] .normal && q.region == r && storeNow s q == q && canLeave s q && s.hart.fences.isEmpty &&
    !logCovers s q.org.ctx q.org.cov && (if r == .ls then q.loc == ⟨.ls 0, 0x1FFFC⟩ else q.loc.off % 128 + 4 == 128 && cmRoom s q.loc true)
  | _ => false

/-- Whether the head of the queue may not leave. -/
def headWaits (s : State) : Bool :=
  match s.hart.sq with
  | q :: _ => !canLeave s (storeNow s q)
  | [] => false

/-- A store released to the device behind a store that the cluster holds. -/
noncomputable def storedRel : State := did .storePerform (did (.strl 7 6 0 .dev .w) (did (.stw 7 6 .normal 31) atDev))

theorem witness_StorePerformWritesItsBytes : storeHead storedLs .ls = true ∧ MemoriesOk storedLs ∧ storeHead storedDev .wb = true ∧
    MemoriesOk storedDev ∧ headWaits storedRel = true :=
  ⟨by decide +kernel, memoriesOk_of (by decide +kernel), by decide +kernel, memoriesOk_of (by decide +kernel), by decide +kernel⟩

/-- Whether an indexed entry exists and this holds of it. -/
def atIdx {α : Type} (l : List α) (k : Nat) (f : α → Bool) : Bool := (l[k]?).any f

/-- One load issued: of LS, and of device memory at its home. -/
noncomputable def loadLs : State := did (.ldw 9 6 0 .normal 0) (withX [(6, 0x1FFFC)])
noncomputable def loadNa : State := did (.ldd 9 6 0 .na 0) atDev
/-- A load behind the thread's own fetch-and-add to its bytes. -/
noncomputable def loadBehind : State := did (.ldd 9 6 0 .na 0) (did (.amoadd 8 6 7 0 .d .rlx) atDev)

theorem witness_LoadPerformBringsItsBytes :
    atIdx loadLs.hart.loads 0 (fun r => loadNow loadLs r == r && canPerform loadLs r && (loadPoison loadLs r).isNone && r.region == .ls) = true ∧
    loadLs.hart.fences = [] ∧ loadLs.dev.ctxs = [] ∧
    atIdx loadNa.hart.loads 0 (fun r => loadNow loadNa r == r && canPerform loadNa r && (loadPoison loadNa r).isNone && r.point == .noAlloc) = true ∧
    loadNa.hart.fences = [] ∧ (∀ c ∈ loadNa.dev.ctxs, c.watches = .replicate 16 none) ∧
    atIdx loadBehind.hart.loads 0 (fun r => !canPerform loadBehind (loadNow loadBehind r)) = true ∧ loadBehind.hart.fences = [] := by
  refine ⟨by decide +kernel, by decide +kernel, by decide +kernel, by decide +kernel, by decide +kernel, by decide +kernel,
    by decide +kernel, by decide +kernel⟩

/-- A dirty line in the cluster, then its copy cleaned; a store on the path to its home; a clean line. -/
noncomputable def dirty : State := did .storePerform storedDev
noncomputable def onPath : State := did (.cvpWriteback 0) dirty
/-- A request in the gate to die 1, for its stack 3. -/
def inGate : State := onClu (fun c => { c with gates := c.gates.set 0 (enqueue .zline ⟨⟨.dev, 0x3000⟩, .wb, 0x10000003000⟩ none atDev).hart.sq }) atDev

theorem witness_LineAndHomeMovesComplete :
    (homeNext onPath (toStack onPath 0) onPath.clu.path [] 0).isSome = true ∧
    ((homeNext inGate (toStack inGate 3) inGate.clu.path [] 0).isNone &&
      (homeNext inGate (fun _ => true) inGate.clu.gates[0] [] 0).any (fun p => toStack inGate 3 p.2)) = true ∧
    atIdx dirty.clu.cm 0 (fun x => x.uo.isNone && x.dirty != 0 && x.space == .dev && x.line == 0 && leavers dirty x == [x]) = true ∧
    dirty.clu.cm.length = 1 ∧
    dirty.hart.fences = [] ∧ atIdx onPath.clu.cm 0 (fun x => isClean onPath x) = true ∧
    MemoriesOk State.reset ∧ State.reset.clu.cm = [] ∧ homeOwner State.reset.dev ⟨.dev, 0x100⟩ = none ∧ logCovers State.reset 0 false = false := by
  refine ⟨by decide +kernel, by decide +kernel, by decide +kernel, by decide +kernel, by decide +kernel, by decide +kernel, memoriesOk_of rfl, rfl,
    rfl, rfl⟩

/-- A line that reductions hold update-only, with a partial sum and with none but identities. -/
noncomputable def uoLine (v : Word) : State := did .storePerform (did (.redaddi 6 7 .d) (withX [(7, v)] atDev))

theorem witness_UpdateOnlyLinesLeave :
    atIdx (uoLine 5).clu.cm 0 (fun x => x.uo.any fun p => !(uoSent p).isEmpty) = true ∧ (uoLine 5).hart.fences = [] ∧
    atIdx (uoLine 0).clu.cm 0 (fun x => x.uo.any fun p => (uoSent p).isEmpty) = true ∧ (uoLine 0).hart.fences = [] :=
  ⟨by decide +kernel, by decide +kernel, by decide +kernel, by decide +kernel⟩

/-- A message, an inbox with it, and the same with x6 at an LS address. -/
def msgA : Msg := ⟨5, 0, 1, 0x40, 7, [], 0⟩
def inboxed : State := onHart (fun h => { h with inbox := [msgA] }) (withX [(6, 0x1FFF0)])

theorem witness_InboxInstructionsComplete :
    (inboxed.hart.inbox = [msgA] ∧ msgA.wrote = [] ∧ Quiet inboxed) ∧
    ((6 : Reg) ≠ 0 ∧ (xr inboxed 6).toNat % 16 = 0 ∧ (xr inboxed 6).toNat + 15 < 0x20000 ∧
      (reserveLog (storeNeed inboxed (.store (List.replicate 16 0) .normal) ⟨.ls inboxed.hart.ar.core, 0⟩) inboxed).isSome = true) ∧
    ((withX [(6, 0x1FFF0)]).hart.inbox = [] ∧ inrecvCheck (withX [(6, 0x1FFF0)]) 6 = .ok ()) ∧
    ((xr (withX [(6, 0x1FFF8)]) 6).toNat % 16 ≠ 0) ∧ ((xr beyond 6).toNat % 16 = 0 ∧ 0x20000 ≤ (xr beyond 6).toNat + 15) ∧ Quiet State.reset ∧
    (let s : State := onClu (fun c => { c with hold := [msgA] }) inboxed
    s.clu.hold = [msgA] ∧ s.hart.inbox.length < 64 ∧ s.hart.dbg.stop = none) := by
  refine ⟨⟨rfl, rfl, quiet_of rfl⟩, ⟨by decide, by decide, by decide, by decide⟩, ⟨rfl, by decide⟩, by decide, by decide, quiet_of rfl, rfl, by decide, rfl⟩

/-- A thread armed for one message that has come, and the same inside its handler. -/
def armed1 : State := onHart (fun h => { h with inbox := [msgA], ui := { h.ui with armed := true, thr := 1, uivec := 0x2000 } }) inA
noncomputable def inUi : State := did .uiTake armed1

theorem witness_UserInterruptsTakenAndReturned :
    (1 ≤ (xr (withX [(6, 64)]) 6).toNat ∧ (xr (withX [(6, 64)]) 6).toNat ≤ 64 ∧ Quiet (withX [(6, 64)])) ∧
    ((xr State.reset 6).toNat < 1 ∧ 64 < (xr (withX [(6, 65)]) 6).toNat) ∧
    (armed1.hart.thread = .running ∧ armed1.hart.dbg.stop = none ∧ armed1.hart.ui.armed = true ∧ armed1.hart.ui.inh = false ∧
      insideInstr armed1.hart = false ∧ armed1.hart.ui.thr.toNat ≤ armed1.hart.inbox.length) ∧
    (inUi.hart.ui.inh = true ∧ atIdx inUi.hart.saved 0 (fun p => p.ui && inUi.hart.ui.uiepc == p.epc) = true ∧ inUi.hart.held = [] ∧ Quiet inUi) ∧
    State.reset.hart.ui.inh = false := by
  refine ⟨⟨by decide, by decide, quiet_of rfl⟩, by decide, ⟨by decide, rfl, rfl, rfl, rfl, by decide⟩,
    ⟨by decide +kernel, by decide +kernel, by decide +kernel, quiet_of (by decide +kernel)⟩, rfl⟩

/-- Core 0 alone in barrier slot 7, whose number is in x6; x7 is 1, x8 an LS address, x9 is 8. -/
def slot7 : State := withX [(6, 7), (7, 1), (8, 0x1FFE0), (9, 8)] (onHart (fun h => { h with slots := h.slots.set 7 { Slot.reset with bmem := 1 } }) slots8)
/-- Its arrival made, in the network, and released. -/
noncomputable def slot7Arrived : State := did (.barv 6) slot7
noncomputable def slot7Sent : State := did (.barrierArrival ⟨0, 0, false⟩ 7 1) slot7Arrived
noncomputable def slot7Released : State := did (.barrierRelease 7) slot7Sent
/-- BSYNC in place of BARV, and its release. -/
noncomputable def slot7Sync : State := did (.barrierRelease 7) (did (.barrierArrival ⟨0, 0, false⟩ 7 1) (did (.bsync 9 6) slot7))
/-- A BSYNC whose arrival a reverse step has left standing, to run again. -/
def slot7Stood : State := onHart (fun h => { h with dbg := { h.dbg with stood := some h.pc } }) slot7

theorem witness_BarrierSlotInstructions :
    (SlotGiven slot7 (xr slot7 6) ∧ (slotAt slot7 7).st = .idle ∧ Quiet slot7 ∧ slot7.hart.mid ≠ .bsync ∧
      slot7.hart.dbg.stood ≠ some slot7.hart.pc) ∧ slot7Stood.hart.dbg.stood = some slot7Stood.hart.pc ∧
    (SlotGiven slot7Released (xr slot7Released 6) ∧ (slotAt slot7Released 7).st = .released ∧
      loadsDone slot7Released (slot7Released.hart.nextSeq + 1) = true ∧ Quiet slot7Released) ∧
    (SlotGiven slot7Sync (xr slot7Sync 6) ∧ (slotAt slot7Sync 7).st = .released ∧ slot7Sync.hart.mid = .bsync ∧
      loadsDone slot7Sync (slot7Sync.hart.nextSeq + 1) = true ∧
      Quiet slot7Sync) ∧
    maskLegal slot7 (xr slot7 7) = true ∧ (xr slot7 7).toNat ≤ (maskMembers slot7 (slotAt slot7 7).bmem).length ∧
    (xr slot7 9 = 8 ∧ (xr slot7 8).toNat % 32 = 0 ∧ (xr slot7 8).toNat + 31 < 0x20000 ∧
      (reserveLog (storeNeed slot7 (.store (List.replicate 32 0) .normal) ⟨.ls slot7.hart.ar.core, 0⟩) slot7).isSome = true) ∧
    (¬ SlotGiven State.reset (xr State.reset 6) ∧ xr State.reset 6 ≠ 8 ∧ State.reset.hart.dbg.stood ≠ some State.reset.hart.pc) := by
  refine ⟨⟨?_, ?_, quiet_of (by decide +kernel), ?_, ?_⟩, ?_, ⟨?_, ?_, ?_, quiet_of (by decide +kernel)⟩, ⟨?_, ?_, ?_, ?_, quiet_of (by decide +kernel)⟩,
    ?_, ?_, ⟨?_, ?_, ?_, ?_⟩, ?_, ?_, ?_⟩ <;> (try unfold SlotGiven) <;> decide +kernel

/-- A late arrival in slot 7: the slot's group has gone on to another phase. -/
noncomputable def slot7Late : State := onHart (fun h => { h with slots := h.slots.set 7 { Slot.reset with st := .arrived, bmem := 1, gphase := 5 } }) slot7Sent

/-- The slot with core 1 beside core 0 in the cluster's launch. -/
def slot7Two : State := onClu (fun c => { c with members := [0, 1] }) slot7

theorem witness_BarrierNetworkMoves :
    (let i := findIdxFrom (fun (x : Arrival) => x.core == slot7Arrived.hart.ar.core && x.slot == 7 && !x.sent) slot7Arrived.clu.arrivals 0
    i = some 0 ∧ atIdx slot7Arrived.clu.arrivals 0 (fun a => released slot7Arrived a.scope a.seq) = true) ∧
    ((1 : Nat) ≠ slot7Two.hart.ar.core ∧ 7 ≤ 7 ∧ 1 ∈ slot7Two.clu.members ∧ slot7Two.clu.arrivals = [] ∧ 3 ≤ 5 ∧
      (1, 7, 1) ∉ slot7Two.clu.behind ∧ (1, 8, 0) ∉ slot7Two.clu.behind ∧ (1, 7, 1) ∈ (onClu (fun c => { c with behind := [(1, 7, 1)] }) slot7Two).clu.behind) ∧
    (slotReleases slot7Sent 7 = true ∧ ∃ a ∈ counted slot7Sent 7 (slotAt slot7Sent 7), a.core = slot7Sent.hart.ar.core) ∧
    ((slotAt slot7Late 7).st = .arrived ∧ ((slot7Late.clu.arrivals.find? fun x => x.core == slot7Late.hart.ar.core && x.slot == 7 &&
      x.phase != (slotAt slot7Late 7).gphase).any (·.sent)) = true) := by
  refine ⟨⟨?_, ?_⟩, ⟨?_, ?_, ?_, ?_, ?_, ?_, ?_, ?_⟩, ⟨?_, ?_⟩, ?_, ?_⟩ <;> decide +kernel

/-- A domain of the core alone: SEXCH has arrived, is released, and the exchange phase follows. -/
noncomputable def superGo : State := did .superstepRelease (did (.barrierArrival ⟨0, 0, false⟩ 8 0) (did .sexch inA))
def exchanging : State := onHart (fun h => { h with ss := { h.ss with ph := true } }) inA
noncomputable def superGo2 : State := did .superstepRelease (did (.barrierArrival ⟨0, 0, false⟩ 8 0) (did .ssync exchanging))

theorem witness_SuperstepInstructions :
    (inA.hart.ss.ph = false ∧ inA.hart.mid ≠ .sstep ∧ superArrived inA = false) ∧
    (superGo.hart.ss.ph = false ∧ superGo.hart.mid = .sstep ∧ superGo.hart.ss.released = true ∧ superGo.hart.tc.scribe = [] ∧
      loadsDone superGo (superGo.hart.nextSeq + 1) = true ∧ Quiet superGo) ∧
    (exchanging.hart.ss.ph = true ∧ exchanging.hart.mid ≠ .sstep ∧ exchangePending exchanging = false ∧ superArrived exchanging = false) ∧
    (superGo2.hart.ss.ph = true ∧ superGo2.hart.mid = .sstep ∧ superGo2.hart.ss.released = true ∧
      loadsDone superGo2 (superGo2.hart.nextSeq + 1) = true ∧ Quiet superGo2) ∧
    (xr (withX [(6, 5)] exchanging) 6).toNat ≤ 5 ∧ 5 < (xr (withX [(6, 6)] exchanging) 6).toNat ∧ Quiet exchanging ∧
    superReleases (did (.barrierArrival ⟨0, 0, false⟩ 8 0) (did .sexch inA)) = true := by
  refine ⟨⟨?_, ?_, ?_⟩, ⟨?_, ?_, ?_, ?_, ?_, quiet_of (by decide +kernel)⟩, ⟨?_, ?_, ?_, ?_⟩, ⟨?_, ?_, ?_, ?_, quiet_of (by decide +kernel)⟩, ?_, ?_,
    quiet_of (by decide +kernel), ?_⟩ <;> decide +kernel

/-- A record's fields (offset, bytes, value) put into memory at a location. -/
def fields (l : Loc) (fs : List (Nat × Nat × Nat)) (s : State) : State :=
  onDev (fun d => fs.foldl (fun d f => rawPut d { l with off := l.off + f.1 } (natBytes f.2.1 f.2.2)) d) s

/-- A task record at LS 0x40, whose address is in x6; and, with HOLD, at 0x80, in x7. -/
def taskRec : State := withX [(6, 0x40), (7, 0x80)]
  (fields ⟨.ls 0, 0x80⟩ [(0, 2, 0x1010), (3, 1, 1), (4, 4, 1), (16, 8, 1)] (fields ⟨.ls 0, 0x40⟩ [(0, 2, 0x1010), (4, 4, 1), (16, 8, 4)] inA))

/-- The first spawned, the thread waiting in TKNEXT, and the task given to it. -/
noncomputable def spawned1 : State := did (.tkspawn 9 6) taskRec
noncomputable def waiting1 : State := did (.tknext 9) spawned1
noncomputable def running1 : State := did (.taskDispatch 0) waiting1
/-- A thread that waits in TKNEXT with no task left. -/
noncomputable def asking : State := did (.tknext 9) inA
/-- A task spawned with HOLD, its identifier in x9 and a future word's address in x8. -/
noncomputable def held1 : State := withX [(8, 0x10000000100)] (did (.tkspawn 9 7) taskRec)
/-- The same once the future is full. -/
noncomputable def held1Full : State := onDev (fun d => rawPut d ⟨.dev, 0x108⟩ [1]) held1
/-- A queue of 64 tasks. -/
noncomputable def fullQueue : State := onClu (fun c => { c with tasks := List.replicate 64 (taskOfRecord taskRec []) }) taskRec

theorem witness_TaskInstructionsComplete :
    ((∃ r, tkspawnCheck taskRec (xr taskRec 6) = .ok r ∧ true = true) ∧ released taskRec .clu (taskRec.hart.nextSeq + 1) = true ∧ Quiet taskRec ∧
      spawned taskRec < 64) ∧
    ((∃ r, tkspawnCheck fullQueue (xr fullQueue 6) = .ok r ∧ true = true) ∧ released fullQueue .clu (fullQueue.hart.nextSeq + 1) = true ∧
      Quiet fullQueue ∧ 64 ≤ spawned fullQueue) ∧
    ((running1.hart.mid == .none && (mustArrive running1).isNone && !mustDie running1 && !taskStalls running1.hart &&
      running1.hart.tk.run && !(running1.hart.tk.run && running1.hart.tk.effect)) = true ∧ Quiet running1) ∧
    (awaitsTask asking = some (some 9, false) ∧ noWork asking = true ∧ Quiet asking) ∧
    (heldTask held1 (xr held1 9) = true ∧ Quiet held1 ∧ (8 : Reg) ≠ 0 ∧ (∃ p, feCheck held1 (xr held1 8) = .ok p ∧
      (calm p.2 && !homeBehind held1 p.1.loc 16 && (cmFind held1.clu p.1.loc).isNone && !futFull p.2.dev p.1.loc) = true)) ∧
    (heldTask held1Full (xr held1Full 9) = true ∧ Quiet held1Full ∧ (∃ p, feCheck held1Full (xr held1Full 8) = .ok p ∧
      (!homeBehind held1Full p.1.loc 16 && (cmFind held1Full.clu p.1.loc).isNone && futFull p.2.dev p.1.loc) = true)) ∧
    heldTask taskRec (xr taskRec 9) = false := by
  refine ⟨⟨ok_of (by decide +kernel), by decide +kernel, quiet_of (by decide +kernel), by decide +kernel⟩,
    ⟨ok_of (by decide +kernel), by decide +kernel, quiet_of (by decide +kernel), by decide +kernel⟩,
    ⟨by decide +kernel, quiet_of (by decide +kernel)⟩, ⟨by decide +kernel, by decide +kernel, quiet_of (by decide +kernel)⟩,
    ⟨by decide +kernel, quiet_of (by decide +kernel), by decide, ok_of (by decide +kernel)⟩,
    ⟨by decide +kernel, quiet_of (by decide +kernel), ok_of (by decide +kernel)⟩, by decide +kernel⟩

/-- Whether the queue's next task may be given to a core, and its footprint is fetched without a change of this core. -/
noncomputable def givable (core : Nat) (s : State) : Bool :=
  match nextTask s core with
  | some x => ((fetchFootprint core (giveTask x core s).1 (giveTask x core s).2).toOption.any fun u =>
      u.hart == s.hart && !(curCtx u).any (·.mode == 2))
  | none => false

theorem witness_TaskQueueMoves :
    ((awaitsTask waiting1 == some (some 9, false) && givable 0 waiting1 && !waiting1.hart.ui.inh) = true ∧ Quiet waiting1) ∧
    (let s := onClu (fun c => { c with members := [0, 15] }) spawned1
    ((15 : Nat) != s.hart.ar.core && s.clu.members.contains 15 && clusterOfCore 15 == s.hart.ar.cluster && (runningOn s 15).isNone &&
      givable 15 s && (curCtx s).isSome) = true) ∧
    ctxRuns spawned1 spawned1.hart.ar.ctx = true :=
  ⟨⟨by decide +kernel, quiet_of (by decide +kernel)⟩, by decide +kernel, by decide +kernel⟩

/-- The representation of the tensors below: rows, spread over the stacks. -/
def repA : Rep := ⟨false, .spread, false, false, false, false⟩
/-- A live f32 tensor of context 0 with every operation in its set. -/
def tenA (h : Nat) (ext : List Nat) : Tensor := ⟨h, 0, .f32, ext.length, 0, 0, ext, 0xFFFF, repA, [], [], 0, [], [], [], false⟩

/-- A join's record at scratch 0x100000, whose address is in x6: two members, quorum one, both of weight 1, a future word; and
the records of the two members' tasks at LS 0x40 (x7) and 0x80 (x8), and a contribution of two values at 0xC0 (x11). -/
def joinRec : State := withX [(6, 0x100000), (7, 0x40), (8, 0x80), (11, 0xC0)]
  (fields ⟨.ls 0, 0x80⟩ [(0, 2, 0x1010), (40, 8, 0x100000), (48, 1, 1)] (fields ⟨.ls 0, 0x40⟩ [(0, 2, 0x1010), (40, 8, 0x100000)]
    (fields ⟨.scr 0, 0⟩ [(0, 2, 2), (2, 2, 1), (8, 8, 0x100), (16, 8, 0x101), (24, 2, 1), (32, 2, 0x0101), (48, 8, 0x10000000200)]
      (onDev (fun d => { d with ctxs := [{ ctxA with mode := 1 }], tensors := [tenA 0x100 [2], tenA 0x101 [2, 2]] }) inA))))

/-- The join made, its members' tasks spawned, the first given to this core, which then arrives. -/
noncomputable def joinMade : State := did (.qnew 6 6) joinRec
noncomputable def joinBound : State := did (.tkspawn 10 8) (did (.tkspawn 9 7) joinMade)
noncomputable def joinRunning : State := did (.taskDispatch 0) (did (.tknext 9) joinBound)
/-- The same with a quorum of two. -/
noncomputable def joinRunning2 : State := fields ⟨.scr 0, 2⟩ [(0, 2, 2)] joinRunning
/-- The record's STATE set, and the task of a member put on a core. -/
noncomputable def joinAs (st : Nat) (s : State) : State := putJoin 0x100000 5 1 st s
/-- The join released without this core's member. -/
noncomputable def joinMissed : State := joinAs 1 joinRunning

theorem logHolds_of {s : State} (h : (curCtx s).any (·.mode == 3) = false) : LogHolds s := fun c hc he => by
  simp [hc, he] at h

theorem noLines_of {s : State} {n : Nat} (h : (ctxOf s.dev n).any (·.mode == 3) = false) : NoLines s n := fun c hc he => by
  simp [hc, he] at h

/-- What QCONTRIB needs of a member with its contribution at x11. -/
noncomputable def contribOk (s : State) : Bool :=
  !mustDie s && ((qcontribCheck s (xr s 6) (xr s 11)).toOption.any fun p =>
    !tensorMoving s.dev (shadowRow s (xr s 6) p.2.1) (s.hart.nextSeq + 1) &&
    (reserveLog (engNeed s (originOf s) p.2.2.length) s).any fun w => (liveTensor w (wordOf (joinField s (xr s 6) 16 8))).isSome &&
      engFits s.hart.ar.ctx w (engWrite (originOf s) (wordOf (joinField s (xr s 6) 16 8)) (shadowRow s (xr s 6) p.2.1) p.2.2 w))

/-- What QARRIVE needs of a member, and whether it releases. -/
noncomputable def arriveOk (s : State) (rel : Bool) : Bool :=
  !mustDie s && ((memberCheck s (xr s 6)).toOption.any fun p => decide (p.2 < 16) && !joinStalls s p.1 &&
    (decide (p.1.counted.length + 1 = joinField s (xr s 6) 2 2) == rel))

theorem witness_JoinInstructionsComplete :
    ((qnewCheck joinRec (xr joinRec 6)).toOption.isSome = true ∧ Quiet joinRec ∧ MemoriesOk joinRec) ∧
    (contribOk joinRunning = true ∧ arriveOk joinRunning true = true ∧ Quiet joinRunning ∧ MemoriesOk joinRunning) ∧
    (arriveOk joinRunning2 false = true ∧ Quiet joinRunning2 ∧ MemoriesOk joinRunning2) ∧
    (mustDie inA = false ∧ (∀ p, memberCheck inA (xr inA 6) ≠ .ok p)) ∧
    (inA.hart.mid = .none ∧ Quiet inA ∧ joinMissed.hart.mid = .none ∧ mustDie joinMissed = true ∧ taskStalls joinMissed.hart = false ∧
      writesDone joinMissed = true ∧ joinMissed.hart.tk.ktrap = false ∧ LogHolds joinMissed) ∧
    ((joinOf joinMade (xr joinMade 6)).isSome = true ∧ Quiet joinMade) ∧
    ((joinOf (joinAs 2 joinMade) (xr joinMade 6)).isSome = true ∧ joinState (joinAs 2 joinMade) (xr joinMade 6) = 2 ∧ Quiet (joinAs 2 joinMade) ∧
      MemoriesOk (joinAs 2 joinMade)) ∧
    joinOf inA (xr inA 6) = none ∧ joinState joinMade (xr joinMade 6) ≠ 2 := by
  refine ⟨⟨by decide +kernel, quiet_of (by decide +kernel), memoriesOk_of (by decide +kernel)⟩,
    ⟨by decide +kernel, by decide +kernel, quiet_of (by decide +kernel), memoriesOk_of (by decide +kernel)⟩,
    ⟨by decide +kernel, quiet_of (by decide +kernel), memoriesOk_of (by decide +kernel)⟩, ⟨by decide +kernel, fun p h => ?_⟩,
    ⟨by decide +kernel, quiet_of (by decide +kernel), by decide +kernel, by decide +kernel, by decide +kernel, by decide +kernel,
      by decide +kernel, logHolds_of (by decide +kernel)⟩, ⟨by decide +kernel, quiet_of (by decide +kernel)⟩,
    ⟨by decide +kernel, by decide +kernel, quiet_of (by decide +kernel), memoriesOk_of (by decide +kernel)⟩, by decide +kernel, by decide +kernel⟩
  obtain ⟨e, he⟩ := error_of (r := memberCheck inA (xr inA 6)) (by decide +kernel)
  rw [he] at h; cases h

/-- The task of a member, by the join's record. -/
def boundTask (s : State) (m : Nat) (f : Join → Task → Bool) : Bool :=
  (joinOf s 0x100000).any fun j => !isCounted j m && (j.bound.find? fun b => b.1 == m).any fun b => (taskById s b.2).any (f j)

/-- Member 1 run by core 1, with its window's marker. -/
noncomputable def otherMember : State :=
  did (.taskDispatch 1) (onClu (fun c => { c with members := [0, 1] }) (joinAs 1 joinRunning))
/-- The join after each step of its release. -/
noncomputable def combined1 : State := did (.joinCombine 0x100000) joinMissed
noncomputable def posted1 : State := did (.joinFutPost 0x100000) combined1

theorem witness_JoinReleaseMoves :
    (joinState joinMissed 0x100000 = 1 ∧ boundTask joinMissed 0 (fun _ k => k.running == some joinMissed.hart.ar.core) = true ∧
      boundTask joinMissed 1 (fun _ k => k.running.isNone) = true ∧ MemoriesOk joinMissed) ∧
    (joinState otherMember 0x100000 = 1 ∧ boundTask otherMember 1 (fun j k => (markerOf j 1).any fun w => k.running == some w.core &&
      w.core != otherMember.hart.ar.core && j.ctx == 0 && ctxRuns otherMember 0) = true ∧ MemoriesOk otherMember ∧ LogHolds otherMember ∧ NoLines otherMember 0) ∧
    ((joinOf joinMissed 0x100000).any (fun j => !j.combined && ctxRuns joinMissed j.ctx && j.ctx == 0) = true ∧
      joinField joinMissed 0x100000 4 1 ≠ 2 ∧ LogHolds joinMissed ∧ NoLines joinMissed 0) ∧
    ((tensorOf joinMissed.dev (joinField joinMissed 0x100000 8 8)).any (fun x => Memory.wf x.data && x.ctx == 0) = true ∧
      joinField joinMissed 0x100000 16 8 ≠ joinField joinMissed 0x100000 8 8) ∧
    (joinState combined1 0x100000 = 1 ∧ (joinOf combined1 0x100000).any (fun j => j.combined && !j.posted && ctxRuns combined1 j.ctx &&
      j.ctx == 0) = true ∧ LogHolds combined1 ∧ NoLines combined1 0 ∧ MemoriesOk combined1 ∧
      (combined1.clu.cm.all fun y => y.uo.isNone) = true ∧ joinField combined1 0x100000 48 8 ≠ 0 ∧
      (walk combined1.dev 0 (joinField combined1 0x100000 48 8)).isSome = true ∧ combined1.dev.futs = []) ∧
    (let s := putJoin 0x100000 28 1 1 (putJoin 0x100000 30 1 2 posted1)
    joinState s 0x100000 = 1 ∧ allResolved s 0x100000 = true ∧ (joinOf s 0x100000).any (fun j => j.toRetract.isEmpty && j.combined && j.posted) = true ∧
      traceStalls s.hart .join = false ∧ MemoriesOk s) ∧
    ((myMember joinMissed).any (fun p => p.1.jid == 0x100000 && !isCounted p.1 p.2 && ctxRuns joinMissed p.1.ctx) = true ∧
      writesOut joinMissed = true ∧ taskStalls joinMissed.hart = false ∧ joinMissed.hart.dbg.stop = none ∧ joinMissed.hart.dbg.stepping = none ∧ LogHolds joinMissed) := by
  refine ⟨⟨?_, ?_, ?_, memoriesOk_of (by decide +kernel)⟩, ⟨?_, ?_, memoriesOk_of (by decide +kernel), logHolds_of (by decide +kernel),
      noLines_of (by decide +kernel)⟩, ⟨?_, ?_, logHolds_of (by decide +kernel), noLines_of (by decide +kernel)⟩, ⟨?_, ?_⟩,
    ⟨?_, ?_, logHolds_of (by decide +kernel), noLines_of (by decide +kernel), memoriesOk_of (by decide +kernel), ?_, ?_, ?_, ?_⟩, ⟨?_, ?_, ?_, ?_, memoriesOk_of (by decide +kernel)⟩, ?_, ?_, ?_, ?_, ?_,
    logHolds_of (by decide +kernel)⟩ <;>
    decide +kernel

/-- A per-core queue at LS 0x40 (x6) of two entries, its ring at 0x100, and the cluster queue it names at scratch 0x100040 (x7),
its ring at 0x100100; x8 is an item; the per-core ring's HEAD and TAIL and the cluster's TAIL as given. -/
def queues (h t ct : Nat) (s : State := inA) : State := withX [(6, 0x40), (7, 0x100040), (8, 77)]
  (fields ⟨.scr 0, 0x40⟩ [(0, 4, 0x100100), (4, 4, 2), (12, 4, ct)]
    (fields ⟨.ls 0, 0x40⟩ [(0, 4, 0x100), (4, 2, 2), (8, 2, 1), (12, 4, 0x100040), (16, 4, h), (20, 4, t)] s))

/-- An empty queue whose refill is in flight, and a WQPOP that has waited for its refill. -/
def refilling1 : State := onHart (fun h => { h with refills := [⟨0x40, originOf inA⟩] }) (queues 0 0 1)
def refilled1 : State := onHart (fun h => { h with mid := .wq }) (queues 0 0 1)
/-- A ring whose first item came by a refill. -/
def refilledItem : State := onHart (fun h => { h with fromRefill := [(0x40, 0)] }) (queues 0 1 1)

/-- Message queue 1 of cluster 0 bound by this core, x6 its number, x7 an LS record, x8 0; with one message, and full. -/
def mqBound : State := withX [(6, 1), (7, 0x40)] (onClu (fun c => { c with mqs := [⟨1, some 0, []⟩] })
  (onDev (fun d => { d with ctxs := [{ ctxA with bays := 1 }] }) inA))
def mqFree : State := onClu (fun c => { c with mqs := [] }) mqBound
def mqOne : State := onClu (fun c => { c with mqs := [⟨1, some 0, [(3, 0, .clu)]⟩] }) mqBound
/-- The queue of another cluster of the bay. -/
def mqFar : State := withX [(6, 9)] mqBound
def mqFull : State := onClu (fun c => { c with mqs := [⟨1, some 5, List.replicate 32 (3, 0, .clu)⟩] }) mqBound

/-- Both descriptors legal, and this of them. -/
noncomputable def wqHas (s : State) (f : WqDesc → CqDesc → Bool) : Bool :=
  (wqCheck s (xr s 6)).toOption.any fun x => (cqCheck s (wordOf x.cq)).toOption.any fun q => f x q

theorem witness_QueueInstructionsComplete :
    (wqHas (queues 0 1 1) (fun x _ => ringCount x.head x.tail != 0 && (poisonAt inA.dev (lsLoc inA (ringAddr x.ring x.cap x.head)) 8).isNone &&
      decide (x.low ≤ ringCount x.head x.tail - 1)) = true ∧ (queues 0 1 1).hart.fromRefill.contains (0x40, 0) = false ∧ Quiet (queues 0 1 1)) ∧
    (wqHas refilledItem (fun x _ => x.head == 0 && ringCount x.head x.tail != 0 &&
      (poisonAt inA.dev (lsLoc inA (ringAddr x.ring x.cap x.head)) 8).isNone) = true ∧ refilledItem.hart.fromRefill.contains (0x40, 0) = true ∧
      loadsDone refilledItem (refilledItem.hart.nextSeq + 1) = true ∧ Quiet refilledItem) ∧
    (wqHas (queues 0xFFFFFFFF 0xFFFFFFFF 1) (fun x _ => ringCount x.head x.tail == 0 && !refilling (queues 0 0 1) 0x40) = true ∧
      (queues 0xFFFFFFFF 0xFFFFFFFF 1).hart.mid ≠ .wq) ∧
    (wqHas refilled1 (fun x _ => ringCount x.head x.tail == 0 && !refilling refilled1 0x40) = true ∧ refilled1.hart.mid = .wq ∧ Quiet refilled1) ∧
    (wqHas (queues 0 2 1) (fun x _ => decide (x.cap ≤ ringCount x.head x.tail)) = true ∧ xr (queues 0 2 1) 8 ≠ BitVec.allOnes 64 ∧
      Quiet (queues 0 2 1) ∧ xr (withX [(8, BitVec.allOnes 64)] (queues 0 2 1)) 8 = BitVec.allOnes 64 ∧
      (cqCheck (withX [(8, BitVec.allOnes 64)] (queues 0 2 1)) (xr (withX [(8, BitVec.allOnes 64)] (queues 0 2 1)) 7)).toOption.isSome = true) ∧
    (wqHas (queues 0xFFFFFFFF 0 1) (fun x _ => decide (ringCount x.head x.tail < x.cap)) = true) ∧
    ((cqCheck (queues 0 0 2) (xr (queues 0 0 2) 7)).toOption.any (fun q => decide (q.cap ≤ ringCount q.head q.tail)) = true ∧
      released (queues 0 0 2) .clu ((queues 0 0 2).hart.nextSeq + 1) = true ∧ Quiet (queues 0 0 2)) ∧
    ((cqCheck (queues 0 0 1) (xr (queues 0 0 1) 7)).toOption.any (fun q => decide (ringCount q.head q.tail < q.cap)) = true ∧
      released (queues 0 0 1) .clu ((queues 0 0 1).hart.nextSeq + 1) = true ∧ Quiet (queues 0 0 1)) ∧
    (refilling1.hart.refills.head?.any (fun r => r.desc == 0x40 && wqHas refilling1 fun x q =>
      (reserveLog (160 * (if logCovers refilling1 r.org.ctx r.org.cov then refillCount x q else 0)) refilling1).isSome) = true) := by
  refine ⟨⟨?_, ?_, quiet_of (by decide +kernel)⟩, ⟨?_, ?_, ?_, quiet_of (by decide +kernel)⟩, ⟨?_, ?_⟩, ⟨?_, ?_, quiet_of (by decide +kernel)⟩,
    ⟨?_, ?_, quiet_of (by decide +kernel), ?_, ?_⟩, ?_,
    ⟨?_, ?_, quiet_of (by decide +kernel)⟩, ⟨?_, ?_, quiet_of (by decide +kernel)⟩, ?_⟩ <;> decide +kernel

theorem witness_QueueInstructionsComplete_messages :
    (mqNamed mqFree (xr mqFree 6) = true ∧ (readRecord mqFree (xr mqFree 7) 64 64).toOption.isSome = true ∧
      released mqFree (mqScope mqFree 1) (mqFree.hart.nextSeq + 1) = true ∧ (mqOf mqFree 1).recv = none ∧ Quiet mqFree ∧
      mqOwn mqFree 1 = true ∧ xr mqFree 8 = 0) ∧
    (mqNamed mqFar (xr mqFar 6) = true ∧ (readRecord mqFar (xr mqFar 7) 64 64).toOption.isSome = true ∧
      released mqFar (mqScope mqFar (xr mqFar 6).toNat) (mqFar.hart.nextSeq + 1) = true ∧ Quiet mqFar ∧ mqOwn mqFar (xr mqFar 6).toNat = false) ∧
    (mqNamed mqFull (xr mqFull 6) = true ∧ released mqFull (mqScope mqFull 1) (mqFull.hart.nextSeq + 1) = true ∧ (mqOf mqFull 1).recv = some 5 ∧
      32 ≤ (mqOf mqFull 1).msgs.length ∧ Quiet mqFull) ∧
    (mqNamed mqBound (xr mqBound 6) = true ∧ (readRecord mqBound (xr mqBound 7) 64 64).toOption.isSome = true ∧
      released mqBound (mqScope mqBound 1) (mqBound.hart.nextSeq + 1) = true ∧ (mqOf mqBound 1).recv = some mqBound.hart.ar.core ∧
      (mqOf mqBound 1).msgs = [] ∧ mqBuffer (xr mqBound 7) = .ok () ∧ Quiet mqBound ∧ mqOwn mqBound 1 = true ∧ mqOwn mqFull 1 = true) ∧
    ((mqOf mqOne 1).recv = some mqOne.hart.ar.core ∧ (mqOf mqOne 1).msgs = [(3, 0, .clu)] ∧
      loadsDone mqOne (mqOne.hart.nextSeq + 1) = true ∧ Quiet mqOne ∧
      (reserveLog (storeNeed mqOne (.store (List.replicate 64 0) .normal) (lsLoc mqOne 0)) mqOne).isSome = true) ∧
    xr (withX [(8, 1)] mqOne) 8 = 1 ∧ 1 < (xr (withX [(8, 2)] mqBound) 8).toNat := by
  refine ⟨⟨?_, ?_, ?_, ?_, quiet_of (by decide +kernel), ?_, ?_⟩, ⟨?_, ?_, ?_, quiet_of (by decide +kernel), ?_⟩,
    ⟨?_, ?_, ?_, ?_, quiet_of (by decide +kernel)⟩,
    ⟨?_, ?_, ?_, ?_, ?_, ?_, quiet_of (by decide +kernel), ?_, ?_⟩, ⟨?_, ?_, ?_, quiet_of (by decide +kernel), ?_⟩, ?_, ?_⟩ <;> decide +kernel

/-- A shape record at LS 0x40 (x6): f32, two by two; x7 every operation bit; x8 a live handle, x9 its last element. -/
def shapes : State := withX [(6, 0x40), (7, 0x7FFF), (8, 0x100), (9, 1)]
  (fields ⟨.ls 0, 0x40⟩ [(0, 1, 0xC), (1, 1, 2), (8, 4, 2), (12, 4, 2)] (onDev (fun d => { d with tensors := [tenA 0x100 [2]] }) inA))

/-- A store to an element placed: the tensor has the thread's entry. -/
noncomputable def shapesBusy : State := did (.tste 6 8 9) shapes

theorem witness_TensorInstructionsComplete :
    (∃ x, tnewCheck shapes (xr shapes 6) (xr shapes 7) = .ok x ∧ (decide ((shapes.dev.tensors.filter (·.ctx == 0)).length < 65536) &&
      (curCtx shapes).any fun c => decide (charge shapes c + quotaPart x (chooseRep shapes x 0x7FFF) ≤ c.quota)) = true) ∧ Quiet shapes ∧
    (∃ x, tnewCheck shapes (xr shapes 6) (xr shapes 7) = .ok x ∧ (curCtx (onCur (fun c => { c with quota := 0 }) shapes)).any (fun c =>
      decide (c.quota < charge shapes c + quotaPart x (chooseRep shapes x 0x7FFF))) = true) ∧
    ((liveCheck shapes (xr shapes 8)).toOption.isSome = true ∧ (xr shapes 7).toNat < 2 ^ 15) ∧
    (isCtxQuery (7 : Word) ∧ isCtxQuery (5 : Word) ∧ ¬ isCtxQuery (4 : Word)) ∧
    ((tviewCheck shapes (xr shapes 8) 15).toOption.isSome = true ∧ (tviewCheck shapes 0 0).toOption.isSome = true) ∧
    ((elemCheck shapes (xr shapes 8) (xr shapes 9)).toOption.any (fun t =>
      (reserveLog (storeNeed shapes (.tste (xr shapes 9).toNat (tySize t.ty) 0 shapes.hart.ar.satf) (elemAccess t (xr shapes 9)).loc) shapes).isSome) =
      true ∧ sqRoom shapes 1 = true) ∧
    twaitWaits shapes 0 = false ∧ twaitWaits shapesBusy 0 = true ∧ liveTensor shapes (xr shapes 6) = none := by
  refine ⟨ok_of (by decide +kernel), quiet_of (by decide +kernel), ok_of (by decide +kernel), ⟨?_, ?_⟩, ⟨?_, ?_, ?_⟩, ⟨?_, ?_⟩, ⟨?_, ?_⟩, ?_, ?_, ?_⟩ <;>
    (try unfold isCtxQuery) <;> decide +kernel

/-- A tensor whose queue is this. -/
def queuedAs (q : List OEntry) : State := onDev (fun d => { d with tensors := [{ tenA 0x100 [2] with queue := q }] }) inA

theorem witness_OrderPointMoves :
    ((tensorOf (queuedAs [.rerep repA false (some 1)]).dev 0x100).any (fun t => t.queue == [.rerep repA false (some 1)]) = true ∧
      paths (queuedAs [.rerep repA false (some 1)]) = [] ∧ NoLines (queuedAs [.rerep repA false (some 1)]) 0) ∧
    ((tensorOf (queuedAs [.rerep repA true none, .access 4]).dev 0x100).any (fun t => t.queue == [.rerep repA true none, .access 4]) = true) ∧
    ((tensorOf (queuedAs [.free true]).dev 0x100).any (fun t => t.queue == [.free true]) = true ∧ (queuedAs [.free true]).hart.ar.ctx = 0) ∧
    (({ tenA 0x100 [2] with queue := [.access 2, .rerep repA false none, .access 4] }).queue =
      [.access 2] ++ .rerep repA false none :: [.access 4] ∧ OEntry.access 4 ∉ [OEntry.access 2]) ∧
    (({ tenA 0x100 [2] with queue := [.free true, .access 4] }).queue = [] ++ .free true :: [.access 4]) := by
  refine ⟨⟨?_, ?_, noLines_of (by decide +kernel)⟩, ?_, ⟨?_, ?_⟩, ⟨?_, ?_⟩, ?_⟩ <;> decide +kernel

/-- A stream record at LS 0x40 (x6): two elements from 0x100 to 0x200, with OP, the types and a count as given. -/
def stream (n op ts td : Nat) : State := withX [(6, 0x40)]
  (fields ⟨.ls 0, 0x40⟩ [(0, 8, 0x100), (8, 8, 0x200), (16, 4, n), (20, 1, op), (21, 1, ts), (22, 1, td)] inA)

/-- What the three streams need of their arrays. -/
noncomputable def streamOk (s : State) (f : StreamRec → Bool) : Bool := (streamAt s 6).toOption.any f

/-- Whether an array of words in LS is aligned, inside LS and free of poison. -/
def cleanWords (s : State) (a : Word) (n : Nat) : Bool :=
  decide (a.toNat % 4 = 0) && (firstOutside a n 32).isNone && (List.range n).all fun i => (streamGet s (a.toNat + i * 4) 32).2.isNone

theorem witness_StreamsAndProjectionsComplete :
    (streamOk (stream 2 4 0xC 0) (fun r => decide (r.n ≤ 65536) && decide (r.op ≤ 7) && tyOf r.tys == some .f32 && r.tyd == 0 && r.rnd == 0 &&
      cleanWords (stream 2 4 0xC 0) r.src r.n && decide (r.dst.toNat % 4 = 0) && (firstOutside r.dst r.n 32).isNone &&
      (reserveLog (streamNeed (stream 2 4 0xC 0) r.n) (stream 2 4 0xC 0)).any fun w => (streamMapped r 32 32 (r.op == 4)
        (fun x y c => mapLane (stream 2 4 0xC 0) .f32 r.op (r.sc % 2 ^ 32) x y c) (stream 2 4 0xC 0) w).bad.isNone) = true ∧
      Quiet (stream 2 4 0xC 0)) ∧
    (streamOk (stream 2 0 0xC 0) (fun r => decide (r.op ≤ 6) && tyOf r.tys == some .f32 && redAccepts r.op .f32 && r.tyd == 0 && r.rnd == 0 &&
      r.sc == 0 && cleanWords (stream 2 0 0xC 0) r.src r.n) = true ∧ Quiet (stream 2 0 0xC 0)) ∧
    (streamOk (stream 2 0 0xC 0xB) (fun r => r.op == 0 && tyOf r.tys == some .f32 && tyOf r.tyd == some .bf16 && streamPair .bf16 .f32 &&
      decide (r.rnd ≤ 7) && r.sc == 0 && cleanWords (stream 2 0 0xC 0xB) r.src r.n && decide (r.dst.toNat % 2 = 0) &&
      (firstOutside r.dst r.n 16).isNone && (reserveLog (streamNeed (stream 2 0 0xC 0xB) r.n) (stream 2 0 0xC 0xB)).any fun w =>
        (streamMapped r 32 16 false (fun x _ c => convLane .bf16 .f32 (rndOf (stream 2 0 0xC 0xB) .dyn)
          (stream 2 0 0xC 0xB).hart.ar.satf x c) (stream 2 0 0xC 0xB) w).bad.isNone) = true ∧ Quiet (stream 2 0 0xC 0xB)) ∧
    (streamOk (stream 0 0 0xC 0) (fun r => r.n == 0) = true) := by
  refine ⟨⟨?_, quiet_of (by decide +kernel)⟩, ⟨?_, quiet_of (by decide +kernel)⟩, ⟨?_, quiet_of (by decide +kernel)⟩, ?_⟩ <;> decide +kernel

/-- A projection's record at LS 0x40 (x6): two rows of two from 0x100 to 0x200, sizes at 0x300, its saved record at 0x400 where asked; x7 = 1.0. -/
def rows (f16 f20 : Nat) : State := withX [(6, 0x40), (7, 0x3F800000)]
  (fields ⟨.ls 0, 0x40⟩ [(0, 4, 0x100), (4, 4, 0x200), (8, 2, 2), (10, 2, 2), (12, 4, 8), (16, 4, f16), (20, 4, f20)] inA)
/-- The same after the first row. -/
noncomputable def rowOne (f16 f20 : Nat) : State := onHart (fun h => { h with
  mid := .rows (lsBytes (rows f16 f20) 0x40 32) 0x3F800000 1 0 0 }) (rows f16 f20)

/-- What row `i` of PROJ, and of PADJ, needs of the log and of its bytes. -/
noncomputable def projOk (s : State) (rb : List Byte) (i : Nat) : Bool :=
  (reserveLog (wordNeed s (((projRec rb).rows - i) * ((projRec rb).n + 1 + recordSize (projRec rb).n / 4))) s).any fun w =>
    (projRow (projRec rb) true true 1 0x3F800000 0 (rowStart w 0 0) i).bad.isNone
noncomputable def padjOk (s : State) (rb : List Byte) (i : Nat) : Bool :=
  (reserveLog (wordNeed s (((projRec rb).rows - i) * (projRec rb).n)) s).any fun w =>
    (padjRow (projRec rb) 0 0x3F800000 0 (rowStart w 0 0) i).bad.isNone

theorem rowStands_first {s : State} {a b : Reg} {ok : Prop} (hm : s.hart.mid = .none) (h : ok) :
    RowStands s a b ok (lsBytes s (xr s a).toNat 32) (xr s b) 0 0 0 :=
  .inr ⟨fun rb v i n f e => (by rw [hm] at e; cases e), h, rfl, rfl, rfl, rfl, rfl⟩

theorem witness_StreamsAndProjectionsComplete_rows :
    (RowStands (rows 0x300 0x400) 6 7 (∃ r, projCheck (rows 0x300 0x400) (xr (rows 0x300 0x400) 6) true true 1 (xr (rows 0x300 0x400) 7) = .ok r)
        (lsBytes (rows 0x300 0x400) (xr (rows 0x300 0x400) 6).toNat 32) (xr (rows 0x300 0x400) 7) 0 0 0 ∧
      projOk (rows 0x300 0x400) (lsBytes (rows 0x300 0x400) 0x40 32) 0 = true ∧ Quiet (rows 0x300 0x400)) ∧
    (RowStands (rowOne 0x300 0x400) 6 7 False (lsBytes (rows 0x300 0x400) 0x40 32) 0x3F800000 1 0 0 ∧
      projOk (rowOne 0x300 0x400) (lsBytes (rows 0x300 0x400) 0x40 32) 1 = true ∧ Quiet (rowOne 0x300 0x400)) ∧
    (RowStands (rows 0 0) 6 7 (∃ r, padjCheck (rows 0 0) (xr (rows 0 0) 6) 0 (xr (rows 0 0) 7) = .ok r)
        (lsBytes (rows 0 0) (xr (rows 0 0) 6).toNat 32) (xr (rows 0 0) 7) 0 0 0 ∧
      padjOk (rows 0 0) (lsBytes (rows 0 0) 0x40 32) 0 = true ∧ Quiet (rows 0 0)) ∧
    (RowStands (rowOne 0 0) 6 7 False (lsBytes (rows 0 0) 0x40 32) 0x3F800000 1 0 0 ∧
      padjOk (rowOne 0 0) (lsBytes (rows 0 0) 0x40 32) 1 = true ∧ Quiet (rowOne 0 0)) := by
  refine ⟨⟨rowStands_first (by decide +kernel) ?_, by decide +kernel, quiet_of (by decide +kernel)⟩,
    ⟨.inl rfl, by decide +kernel, quiet_of (by decide +kernel)⟩,
    ⟨rowStands_first (by decide +kernel) ?_, by decide +kernel, quiet_of (by decide +kernel)⟩,
    ⟨.inl rfl, by decide +kernel, quiet_of (by decide +kernel)⟩⟩
  · obtain ⟨p, h, -⟩ := ok_of (r := projCheck (rows 0x300 0x400) (xr (rows 0x300 0x400) 6) true true 1 (xr (rows 0x300 0x400) 7))
      (f := fun _ => true) (by decide +kernel)
    exact ⟨p, h⟩
  · obtain ⟨p, h, -⟩ := ok_of (r := padjCheck (rows 0 0) (xr (rows 0 0) 6) 0 (xr (rows 0 0) 7)) (f := fun _ => true) (by decide +kernel)
    exact ⟨p, h⟩

/-- A copy's record at LS 0x40 (x6): sixteen bytes from LS 0 to LS 0x1000 under tag 7. -/
def copyAt : State := withX [(6, 0x40)] (fields ⟨.ls 0, 0x40⟩ [(8, 8, 0x1000), (24, 2, 16), (26, 2, 1), (32, 1, 7), (34, 1, 1)] inA)
/-- The same, from the tensor 0x100; and a record that loads exponent table 3 from LS 0x80. -/
def copyTen : State := withX [(6, 0x40)] (fields ⟨.ls 0, 0x40⟩ [(0, 8, 0x100), (8, 8, 0x1000), (24, 2, 2), (26, 2, 1), (32, 1, 7)]
  (onDev (fun d => { d with tensors := [tenA 0x100 [2]] }) inA))
def loadAt : State := withX [(6, 0x40)] (fields ⟨.ls 0, 0x40⟩ [(0, 8, 0x80), (32, 1, 7), (34, 1, 13), (39, 1, 3)] inA)
/-- An update's record at LS 0x40 (x6): the one row of tensor 0x100 by the gradient 0x101, rule 0. -/
def nmuAt : State := withX [(6, 0x40)] (fields ⟨.ls 0, 0x40⟩ [(0, 8, 0x100), (8, 8, 0x101), (20, 4, 1), (25, 1, 9)]
  (onDev (fun d => { d with tensors := [tenA 0x100 [2], tenA 0x101 [2]] }) inA))

/-- The table's load in its queue. -/
noncomputable def loading : State := did (.cpy 6) loadAt

theorem witness_EngineInstructionsComplete :
    ((∃ p, copyFn (.cpy 6) = some p) ∧ (∃ b, copyCheck copyAt 0 (xr copyAt 6) = .ok b ∧ (!tableLoading copyAt (copyRec b)) = true) ∧ Quiet copyAt) ∧
    ((∃ p, copyFn (.cpyt 6) = some p) ∧ (∃ b, copyCheck copyTen 2 (xr copyTen 6) = .ok b ∧ (!tableLoading copyTen (copyRec b)) = true)) ∧
    (∃ b, copyCheck (onHart (fun h => { h with tags := [] }) loading) 0 (xr loading 6) = .ok b ∧ tableLoading loading (copyRec b) = true) ∧
    (∃ r, copyCheck inA 0 1 = .error r) ∧
    ((∃ x, nmupdCheck nmuAt (xr nmuAt 6) = .ok x ∧ true = true) ∧ Quiet nmuAt) ∧ (∃ r, nmupdCheck inA 0 = .error r) ∧
    (xr (withX [(6, 11)] inA) 6).toNat ≤ 11 ∧ 11 < (xr (withX [(6, 12)] inA) 6).toNat ∧ piecesAt inA.dev 11 (fun _ => true) = 0 := by
  refine ⟨⟨⟨_, rfl⟩, ok_of (by decide +kernel), quiet_of (by decide +kernel)⟩, ⟨⟨_, rfl⟩, ok_of (by decide +kernel)⟩, ok_of (by decide +kernel),
    error_of (by decide +kernel), ⟨ok_of (by decide +kernel), quiet_of (by decide +kernel)⟩, error_of (by decide +kernel), ?_, ?_, ?_⟩ <;>
    decide +kernel

/-- One copy, one update in the machine's lists. -/
noncomputable def copying : State := did (.cpy 6) copyAt
noncomputable def updating : State := did (.nmupd 6) nmuAt
/-- The copy in another state of its life. -/
noncomputable def copyIn (st : JobState) : State := onDev (fun d => { d with copies := d.copies.map fun c => { c with st := st } }) copying
noncomputable def updateIn (st : JobState) : State := onDev (fun d => { d with nmus := d.nmus.map fun c => { c with st := st } }) updating

/-- A peer's answer awaited behind an earlier copy of the engine. -/
noncomputable def copyBehind : State := onDev (fun d => { d with copies := d.copies.flatMap fun c => [{ c with id := c.id + 1, eng := 0 }, { c with eng := 0 }] }) (copyIn (.await 0 16))

/-- What the bytes of an exponent table read as in the load's queue. -/
noncomputable def tableRead (s : State) (ok : Bool) : Bool :=
  atIdx s.dev.copies 0 fun c => c.st == .queued && (copyRec c.record).load && ctxRuns s c.ctx && decide ((copyRec c.record).tbl < 8) &&
    (engReadVa c.org none c.user (copyRec c.record).src 128 s).toOption.any fun p => p.2.1.isNone &&
      (ehLegal (ehLens (BitVec.ofNat 1024 (bytesNat p.1))) == ok)

/-- The core may take an engine's message at once. -/
noncomputable def takesMessage (s : State) : Bool :=
  s.hart.thread != .idle && decide (s.hart.inbox.length < 64) && s.clu.hold.isEmpty && s.hart.dbg.stop.isNone && s.hart.fences.isEmpty

/-- A context in CHECKPOINT whose log has room for no interval line: a copy into its device memory does not fit. -/
noncomputable def copyFull : State := onCtx 0 (fun c => { c with mode := 3, logTail := c.logHead + 2 ^ c.log2sz - 2 ^ c.log2sz / 16 })
  (did (.cpy 6) (withX [(6, 0x40)] (fields ⟨.ls 0, 0x40⟩ [(8, 8, 0x10000001000), (24, 2, 16), (26, 2, 1), (32, 1, 7), (34, 1, 1)] inA)))

/-- What a copy that may start needs, and whether its lines fit. -/
noncomputable def copyStarts (s : State) (fit : Bool) : Bool :=
  atIdx s.dev.copies 0 fun c => c.st == .queued && !(copyRec c.record).load && copyReady s c.id (copyHandlesOf (copyRec c.record)) &&
    !peerBehind s c && !peerHeld s c && ctxRuns s c.ctx && (reserveLog (copyNeed s c (planOf s c)) s).any fun w =>
      engFits c.ctx w (settle (performCopy c w)) == fit

theorem witness_EngineMoves :
    copyStarts copying true = true ∧ copyStarts copyFull false = true ∧
    (atIdx (copyIn (.done 0 16)).dev.copies 0 (fun c => c.st != .queued && c.st == .done 0 16 && !loadHeld (copyIn (.done 0 16)) c &&
      !engineBehind (copyIn (.done 0 16)) c && c.core == 0) = true ∧ takesMessage (copyIn (.done 0 16)) = true) ∧
    (atIdx (copyIn (.await 0 16)).dev.copies 0 (fun c => c.st == .await 0 16 && !engineBehind (copyIn (.await 0 16)) c && c.core == 0 &&
      decide ((copyIn (.await 0 16)).dev.time.toNat ≤ ackEnd (copyIn (.await 0 16)) c)) = true ∧
      takesMessage (copyIn (.await 0 16)) = true) ∧
    atIdx copyBehind.dev.copies 0 (fun c => c.st == .await 0 16 && engineBehind copyBehind c && decide (copyBehind.dev.time.toNat ≤ ackEnd copyBehind c)) = true ∧
    tableRead loading true = true ∧
    tableRead (fields ⟨.ls 0, 0x80⟩ [(0, 8, 0x1111111111111111)] loading) false = true ∧
    (atIdx updating.dev.nmus 0 (fun j => j.st == .queued && ctxRuns updating j.ctx && (copyDead updating j.id (nmuHandles (nmuRec j.record))).isNone &&
      (tensorOf updating.dev (nmuRec j.record).wh.toNat).isSome && (tensorOf updating.dev (nmuRec j.record).gh.toNat).isSome &&
      copyReady updating j.id (nmuHandles (nmuRec j.record)) && atIdx j.todo 0 fun p => !pieceBehind updating j p &&
        (reserveLog (pieceNeed updating j 4 p.2.2) updating).any fun u =>
        (tensorOf updating.dev (nmuRec j.record).wh.toNat).any fun w => (tensorOf updating.dev (nmuRec j.record).gh.toNat).any fun g =>
          tySize w.ty == 4 && engFits j.ctx u (settle (updatePiece j 0 p w g u))) = true) ∧
    (atIdx (updateIn (.done 0 2)).dev.nmus 0 (fun j => j.st == .done 0 2 && !nmuBehind (updateIn (.done 0 2)) j && j.core == 0) = true ∧
      takesMessage (updateIn (.done 0 2)) = true) := by
  refine ⟨?_, ?_, ⟨?_, ?_⟩, ⟨?_, ?_⟩, ?_, ?_, ?_, ?_, ?_, ?_⟩ <;> decide +kernel

/-! A peg is opaque, so these witnesses carry it as it is. -/

/-- The code under a peg comes back (R301). -/
theorem pegOf_code (x c : Nat) (b : Bool) : (pegOf x c b).toNat / 2 ^^^ Config.pegKey % 2 ^ 63 = pegCode x c b := by
  have hk : Config.pegKey % 2 ^ 63 < 2 ^ 63 := Nat.mod_lt _ (by decide)
  have hc : pegCode x c b < 2 ^ 63 := by unfold pegCode; cases b <;> simp <;> omega
  have hx : Config.pegKey % 2 ^ 63 ^^^ pegCode x c b < 2 ^ 63 := Nat.xor_lt_two_pow hk hc
  have e : (pegOf x c b).toNat / 2 = Config.pegKey % 2 ^ 63 ^^^ pegCode x c b := by
    unfold pegOf wordOf
    rw [BitVec.toNat_ofNat]
    omega
  rw [e, Nat.xor_comm (Config.pegKey % 2 ^ 63), Nat.xor_assoc, Nat.xor_self, Nat.xor_zero]

theorem unpeg_pegOf (s : State) (c : Nat) (b : Bool) (hc : c < 512) (h : clusterInPartition s c = true) :
    unpeg s (pegOf (ctxSerial s) c b) = some (c, b) := by
  unfold unpeg
  simp only [pegOf_code]
  have h1 : pegCode (ctxSerial s) c b / 2 % 512 = c := by unfold pegCode; cases b <;> simp <;> omega
  have h2 : (pegCode (ctxSerial s) c b % 2 == 1) = b := by unfold pegCode; cases b <;> simp <;> omega
  simp [h1, h2, h]

theorem pegOf_ne (x c : Nat) (b : Bool) : ((0 : Word) == pegOf x c b) = false := by
  rw [beq_eq_false_iff_ne]
  intro h
  have e := congrArg (fun w : Word => w.toNat % 2) h
  simp only [pegOf, wordOf, BitVec.toNat_ofNat] at e
  simp at e

/-- A context with bay 0: x6 holds the peg of cluster 0 and x5 that of its bay, x7 an LS address of a ring's record (ring 1, at
0x100000, one slot of 512 bytes), x8 a scratch address. -/
noncomputable def pegs : State := withX [(5, pegOf 0 0 true), (6, pegOf 0 0 false), (7, 0x40), (8, 0x100000), (9, 0x101), (10, 7), (11, 0x0888)]
  (fields ⟨.ls 0, 0x40⟩ [(0, 8, 0x100000), (8, 4, 512), (12, 2, 1), (14, 1, 1)]
    (onDev (fun d => { d with ctxs := [{ ctxA with bays := 1 }] }) inA))

theorem xr_pegs_6 : xr pegs 6 = pegOf 0 0 false := by
  simp [pegs, withX, xr_setX]

theorem pegs_x6 : pegCheck pegs (xr pegs 6) = .ok (0, false) := by
  have e : unpeg pegs (xr pegs 6) = some (0, false) := by
    rw [xr_pegs_6]; exact unpeg_pegOf pegs 0 false (by decide) (by decide +kernel)
  unfold pegCheck; rw [e]

theorem xr_pegs_5 : xr pegs 5 = pegOf 0 0 true := by
  simp [pegs, withX, xr_setX]

theorem pegs_x5 : pegCheck pegs (xr pegs 5) = .ok (0, true) := by
  have e : unpeg pegs (xr pegs 5) = some (0, true) := by
    rw [xr_pegs_5]; exact unpeg_pegOf pegs 0 true (by decide) (by decide +kernel)
  unfold pegCheck; rw [e]

/-- The queues of cluster 0's unit full. -/
noncomputable def pegsFull : State := onUnit 0 (fun u => { u with queue := List.replicate 32 ⟨0, 0, 0, 0, false, 0, .mzero 0, false, .rne, true, 0, true, originOf inA⟩ }) pegs

theorem witness_MatrixInstructionsComplete :
    (mcsetCheck pegs (xr pegs 6) 0 = .ok (0, false) ∧ mcsetCheck pegs (xr pegs 5) (xr pegs 11) = .ok (0, true) ∧
      (∃ r, mrsetCheck pegs (xr pegs 6) (xr pegs 7) = .ok r) ∧
      (∃ r, mdrainCheck pegs (xr pegs 6) (xr pegs 8) true true = .ok r) ∧ (matrixSend pegs (.mma 3 7 0 6 63)).isSome = true ∧
      queuesFull pegs (pegUnits 0 true) = false ∧ Quiet pegs) ∧
    queuesFull pegsFull [0] = true ∧
    (clusterInPartition pegs 7 = true ∧ (0 : Nat) < 512) ∧
    (unpeg pegs (xr pegs 6) = some (0, false) ∧ (pegUnits 0 false).any (mineQueued pegs) = false ∧ (pegUnits 0 false).any (mineQueued pegsFull) = true) ∧
    (mradvCheck pegs (xr pegs 6) (xr pegs 9) = .ok (0, false) ∧ released pegs .clu (pegs.hart.nextSeq + 1) = true ∧
      advAnswer [some ⟨0x100000, 512, 1, false, false, 0, 0⟩] 1 = 0 ∧ advAnswer [some ⟨0x100000, 512, 1, false, false, 0, 1⟩] 1 = 1 ∧ advAnswer [none] 1 = 2) ∧
    mrstatCheck pegs (xr pegs 6) (xr pegs 10) = .ok (0, false) ∧
    (mstatCheck pegs (xr pegs 6) (xr pegs 7) = .ok (0, false) ∧ (reserveLog (storeNeed pegs (.store (mstatBytes pegs 0 3) .normal)
      (lsLoc pegs (xr pegs 7).toNat)) pegs).isSome = true) ∧
    unpeg pegs (xr pegs 0) = none := by
  have u6 : unpeg pegs (xr pegs 6) = some (0, false) := by
    rw [xr_pegs_6]; exact unpeg_pegOf pegs 0 false (by decide) (by decide +kernel)
  refine ⟨⟨?_, ?_, ?_, ?_, by rfl, by decide +kernel, quiet_of (by decide +kernel)⟩, by decide +kernel, by decide +kernel,
    ⟨u6, by decide +kernel, by decide +kernel⟩, ⟨?_, by decide +kernel, by decide, by decide, by decide⟩, ?_, ⟨?_, by decide +kernel⟩, ?_⟩
  · unfold mcsetCheck; rw [pegs_x6]; rfl
  · unfold mcsetCheck; rw [pegs_x5]; decide +kernel
  · unfold mrsetCheck; rw [pegs_x6]
    obtain ⟨r, h, -⟩ := ok_of (r := (readRecord pegs (xr pegs 7) 32 32 >>= fun r => recordRules (xr pegs 7) (ringRules r) >>= fun _ => .ok ((0 : Nat), false, r)))
      (f := fun _ => true) (by decide +kernel)
    exact ⟨r, h⟩
  · unfold mdrainCheck; rw [pegs_x6]; exact ⟨(0, false, none), by decide +kernel⟩
  · unfold mradvCheck; rw [pegs_x6]; decide +kernel
  · unfold mrstatCheck; rw [pegs_x6]; decide +kernel
  · unfold mstatCheck; rw [pegs_x6]; decide +kernel
  · have : xr pegs 0 = 0 := rfl
    unfold unpeg
    rw [this]
    simp only [pegOf_ne, Bool.and_false, Bool.false_eq_true, if_false]

/-- A unit of cluster `k` with this command alone in its queue, a format of e4m3 operands and an f32 drain for core 0, ring 0 of A tiles
and ring 1 of B tiles, each with one tile of 512 bytes published. -/
def unitWith (c : MCmd) (k : Nat) : MUnit :=
  { MUnit.reset k with queue := [c], fctx := [(0, 0xF00C88)]
                       rings := ((MUnit.reset k).rings.set 0 (some ⟨0x100000, 512, 1, false, false, 0, 1⟩)).set 1 (some ⟨0x100200, 512, 1, true, false, 0, 1⟩) }

/-- The machine with this command at the head of every unit that it names. -/
def unitsAt (bay : Bool) (op : MOp) : State :=
  let c : MCmd := ⟨0, 1, 0, 0, bay, 0, op, false, .rne, true, 0, true, originOf inA⟩
  onDev (fun d => { d with units := (pegUnits 0 bay).map (unitWith c), scratches := (rangeFrom 1 7).map fun k => (k, 0x1000) }) inA

/-- What a product needs of the command that unit 0 may start. -/
def productOk (s : State) (n : Nat) (raw : Bool) : Bool :=
  (startable s 0).any fun c => (cmdUnits c).all fun u => productFlag s c u n 0 1 15 raw == 0 && productReady s c u 0 1 15
/-- The tiles that it reads. -/
def productTilesOk (s : State) : Bool :=
  (startable s 0).any fun c => match tilesOf s c (cmdUnits c) 0 1 15 with
    | .ok l => decide (l.length = (cmdUnits c).length) && l.all fun p => p.2.2.2.1.bad.isNone && p.2.2.2.2.bad.isNone &&
        decide (p.2.1.rows ≤ 128) && decide (p.2.2.1.cols ≤ 128)
    | .error _ => false

/-- A product's command that its first flags refuse; and one that waits for a tile of the unit of cluster `k`, ring `r` being empty. -/
def productRefused (s : State) (n ra rb : Nat) (raw : Bool) : Bool :=
  (startable s 0).any fun c => (cmdUnits c).foldl (fun f k => f ||| productFlag s c k n ra rb 15 raw) 0 != 0
def productWaits (k r : Nat) (n : Nat) (raw : Bool) (s : State) : Bool :=
  let s := onUnit k (fun u => { u with rings := u.rings.setIfInBounds r (some ⟨0x100000 + 0x200 * r, 512, 1, r == 1, false, 1, 1⟩) }) s
  (startable s 0).any fun c => ((cmdUnits c).all fun u => productFlag s c u n 0 1 15 raw == 0) && (cmdUnits c).contains k &&
    !productReady s c k 0 1 15

/-- Whether what a plain drain of accumulator `n` writes to `va` has its log space. -/
noncomputable def drainFits (s : State) (c : MCmd) (n : Nat) (va : Word) : Bool :=
  let w := (formatOf (unitOf s c.lead) c.core).getD 0
  let p : DPlan := { n := n, set := 0, tr := false, clr := false, sup := false, va := va, view := none, w := w, units := cmdUnits c,
                     raws := (cmdUnits c).map fun k => isRaw (unitOf s k) n,
                     m := if fmtRnd w = 0 then c.rnd else Rnd.ofCode (BitVec.ofNat 3 (fmtRnd w)) }
  (reserveLog (drainNeed s c p) s).any fun u => engFits c.ctx u (settle (endDrain c p (runDrain c p (passTime u))))

theorem witness_MatrixUnitMoves :
    (runningHead (unitsAt false (.mcset 0)) 0).any (fun c => c.op == .mcset 0) = true ∧
    (runningHead (unitsAt false (.mrset 7 ⟨0x100000, 512, 1, false, false, 0, 0⟩)) 0).isSome = true ∧
    (runningHead (unitsAt true (.mzero 3)) 0).any (fun c => (cmdUnits c).all fun k => (formatOf (unitOf (unitsAt true (.mzero 3)) k) c.core).isSome) = true ∧
    Memory.wf (unitOf (unitsAt true (.mzero 3)) 0).acc = true ∧
    (productOk (unitsAt false (.mma 0 0 1 15)) 0 true && productTilesOk (unitsAt false (.mma 0 0 1 15))) = true ∧
    (productOk (unitsAt true (.mmab 3 0 1 15)) 3 true && productTilesOk (unitsAt true (.mmab 3 0 1 15))) = true ∧
    (productOk (unitsAt false (.mpass 0 0 1 15)) 0 false && productTilesOk (unitsAt false (.mpass 0 0 1 15))) = true ∧
    (startable (unitsAt true (.mmab 3 0 1 15)) 0).any (fun c => decide (cmdUnits c).Nodup &&
      (cmdUnits c).all fun k => Memory.wf (unitOf (unitsAt true (.mmab 3 0 1 15)) k).acc) = true ∧
    (productRefused (unitsAt false (.mma 0 2 1 15)) 0 2 1 true && productRefused (unitsAt true (.mmab 0 2 1 15)) 0 2 1 true &&
      productRefused (unitsAt false (.mpass 0 2 1 15)) 0 2 1 false) = true ∧
    (productWaits 0 0 0 true (unitsAt false (.mma 0 0 1 15)) && productWaits 3 1 0 true (unitsAt true (.mmab 0 0 1 15)) &&
      productWaits 0 1 0 false (unitsAt false (.mpass 0 0 1 15))) = true ∧
    (startable (unitsAt false (.mdrain 0 .none false false false 0x100400 none)) 0).any (fun c =>
      drainFlag (unitsAt false (.mdrain 0 .none false false false 0x100400 none)) c 0 .none == 0 && !drainMoving inA c none &&
      drainFits (unitsAt false (.mdrain 0 .none false false false 0x100400 none)) c 0 0x100400) = true ∧
    (let s := onUnit 0 (fun u => { u with fctx := [] }) (unitsAt false (.mdrain 0 .none false false false 0x100400 none))
    (startable s 0).any (fun c => drainFlag s c 0 .none != 0) = true) := by
  refine ⟨?_, ?_, ?_, ?_, ?_, ?_, ?_, ?_, ?_, ?_, ?_, ?_⟩ <;> decide +kernel

/-- The state in another mode; with context 0 changed by `f`. -/
def inMode (md : Mode) (s : State) : State := onHart (fun h => { h with mode := md }) s
def ctxIs (f : Context → Context) (s : State) : State := onCtx 0 f s

/-- Machine mode: a service core's firmware thread, which names context 0, in a state of its life. -/
def onService (s : State) : State := onHart (fun h => { h with mode := .m, ar := { h.ar with core := 7168, ctx := noCtx } }) s
def firmware (f : Context → Context := id) : State := onService (ctxIs f inA)
def fwSaved : State := firmware fun c => { c with state := .saved }
def fwStopped : State := firmware fun c => { c with state := .stopped 2, mode := 3 }
def fwCheckpoint : State := firmware fun c => { c with mode := 3 }
/-- A call of function x6 sent from a handler, and answered. -/
noncomputable def called (f : Word) : State := did (.ecall 9 6 7) (withX [(6, f), (7, 0x77)] inTrap)
noncomputable def answered : State := did .ecallAnswer (called 1)
/-- A call is outstanding for this function, and none has answered. -/
noncomputable def calling (f : Word) (s : State) : Bool := s.hart.ecall.any (fun p => p.1 == f) && s.hart.answer.isNone
/-- A stopped CHECKPOINT context with a boundary image; and the same with an uncorrectable error in the image's blocks. -/
def fwImaged : State := saveBoundary 0 fwStopped
def fwTorn : State := onDev (fun d => { d with devPoison := [(ctxA.save + imageSize ctxA) / 64] }) fwImaged
/-- A handler that holds a write of its own which met Poison. -/
def inPoison : State := onHart (fun h => { h with held := h.held.map fun w => { w with poison := some 0x40 } })
  (openHeld (.x 9) 2 0 0 0 inTrap)
/-- A thread whose held write's window has closed. -/
def endsLate : State := openHeld (.x 9) 0 7 0 0 inA
/-- A boundary armed by CKPT. -/
noncomputable def ckpting : State := did (.ckpt 9 0) fwCheckpoint
/-- The same with its interval closed. -/
noncomputable def ckptDone : State := ctxIs (fun c => { c with interval := c.interval + 1, armed := false }) ckpting

/-- Whether the context is named, and this holds of it. -/
def named (s : State) (v : Word) (f : Context → Bool) : Bool :=
  s.hart.mode == .m && decide (v.toNat ≤ 15) && (ctxOf s.dev v.toNat).any fun c => !c.armed && f c

theorem named_of {s : State} {v : Word} {f : Context → Bool} (h : named s v f = true) : ∃ c, CtxNamed s v c ∧ f c = true := by
  simp only [named, Bool.and_eq_true, beq_iff_eq, decide_eq_true_eq] at h
  obtain ⟨⟨hm, hv⟩, hc⟩ := h
  cases e : ctxOf s.dev v.toNat with
  | none => rw [e] at hc; cases hc
  | some c =>
    rw [e] at hc
    simp only [Option.any_some, Bool.and_eq_true, Bool.not_eq_true'] at hc
    exact ⟨c, ⟨hm, hv, e, hc.1⟩, hc.2⟩

theorem witness_SystemInstructionsComplete :
    (inA.hart.mode = .u ∧ (firmware).hart.mode = .m ∧ inTrap.hart.mode = .s ∧ inTrap.hart.mid ≠ .ecall) ∧
    (answered.hart.mode = .s ∧ answered.hart.mid = .ecall ∧ answered.hart.answer.isSome = true ∧ Quiet answered) ∧
    (calling 0 (called 0) = true ∧ calling 3 (called 3) = true ∧ calling 4 (called 4) = true ∧ calling 5 (called 5) = true ∧
      (curCtx (called 3)).isSome = true) ∧
    (inTrap.hart.mode ≠ .u ∧ inTrap.hart.saved.length = 1 ∧ inTrap.hart.held = [] ∧ Quiet inTrap ∧
      inTrap.hart.saved.any (fun p => p.epc == inTrap.hart.tr.epc) = true ∧
      (onHart (fun h => { h with tr := { h.tr with epc := 0x2000 } }) inTrap).hart.saved.any (fun p => p.epc == 0x2000) = false) ∧
    (inPoison.hart.mode ≠ .u ∧ returnWaits inPoison.hart = false ∧ (handlerPoison inPoison.hart).isSome = true) ∧
    (wfiReturns inboxed.hart = true ∧ Quiet inboxed ∧ wfiReturns inA.hart = false) ∧ Quiet (withX [(6, 65536)]) ∧
    (∃ n, (did (.spin 6) (withX [(6, 65536)])).hart.spin = some n ∧ n = 65535) ∧
    (mustArrive inA = none ∧ taskStalls inA.hart = false ∧ mustDie inA = false ∧ endWaits inA.hart = false ∧ Quiet inA) ∧
    (mustArrive endsLate = none ∧ mustDie endsLate = false ∧ endWaits endsLate.hart = true) ∧
    (∃ c, CtxNamed firmware (xr firmware 0) c ∧ (c.state == .running && c.mode != 3) = true) ∧ Quiet firmware ∧
    (∃ c, CtxNamed fwSaved (xr fwSaved 0) c ∧ (c.state == .saved) = true) ∧
    (∃ c, CtxNamed fwStopped (xr fwStopped 0) c ∧ (c.state != .running && c.state != .saved && c.mode == 3 && c.boundImg.isNone) = true) ∧
    (∃ c, CtxNamed fwImaged (xr fwImaged 0) c ∧ (c.state != .running && c.mode == 3 && c.rolledBack == 0 &&
      c.boundImg.any fun g => !imageBad fwImaged c 1 g) = true) ∧
    (∃ c, CtxNamed fwTorn (xr fwTorn 0) c ∧ (c.state != .running && c.mode == 3 && c.rolledBack == 0 &&
      c.boundImg.any fun g => imageBad fwTorn c 1 g) = true) ∧
    (∃ c, CtxNamed fwCheckpoint (xr fwCheckpoint 0) c ∧ (c.state == .running && c.mode == 3) = true) ∧
    (ckptDone.hart.mid = .ckpt 0 0 ∧ ckptAnswer ckptDone 0 0 = some 0 ∧ Quiet ckptDone) ∧
    (15 < (xr (withX [(6, 16)] firmware) 6).toNat ∧ ctxOf firmware.dev 5 = none) ∧
    (inTrap.hart.mode ≠ .u ∧ (xr inTrap 0).toNat ≤ 1 ∧
      frameBusy inTrap ((inTrap.clu.tlb.filter fun e => xr inTrap 0 == 1 || e.vframe == (xr inTrap 0).toNat / 65536).map (·.pframe)).contains = false) ∧
    ((xr firmware 0).toNat % 65536 = 0 ∧ (xr firmware 0).toNat < devEnd ∧ frameBusy firmware (fun k => k == (xr firmware 0).toNat / 65536) = false) := by
  refine ⟨⟨?_, ?_, ?_, ?_⟩, ⟨?_, ?_, ?_, quiet_of ?_⟩, ⟨?_, ?_, ?_, ?_, ?_⟩, ⟨?_, ?_, ?_, quiet_of ?_, ?_, ?_⟩, ⟨?_, ?_, ?_⟩,
    ⟨?_, quiet_of ?_, ?_⟩, quiet_of ?_, ⟨_, ?_, rfl⟩,
    ⟨?_, ?_, ?_, ?_, quiet_of ?_⟩, ⟨?_, ?_, ?_⟩, named_of ?_, quiet_of ?_, named_of ?_, named_of ?_, named_of ?_, named_of ?_, named_of ?_,
    ⟨?_, ?_, quiet_of ?_⟩, ⟨?_, ?_⟩, ⟨?_, ?_, ?_⟩,
    ⟨?_, ?_, ?_⟩⟩ <;> decide +kernel

/-- A watchpoint on the first doubleword of LS, its access, and the context that holds it. -/
def watch0 : Watch := ⟨0, ⟨.ls 0, 0⟩, 8, 1, false, false, true⟩
def read0 : WatchAccess := ⟨⟨.ls 0, 0⟩, 8, false, some 0, 0⟩
def watched : State := ctxIs (fun c => { c with watches := c.watches.set 0 (some watch0) }) inA
/-- Every watchpoint in use. -/
def watchedFull : State := withX [(7, 0x13)] (ctxIs (fun c => { c with watches := Vector.replicate 16 (some watch0) }) inA)
/-- The debug service attached, and a breakpoint at the next instruction. -/
def attachedA : State := onHart (fun h => { h with dbg := { h.dbg with bps := h.dbg.bps.set 0 (some 0x1000) } })
  (ctxIs (fun c => { c with attached := true }) inA)
/-- Every trace class on, with one record in the buffer. -/
def tracing : State := onHart (fun h => { h with tc := { h.tc with trcctl := 0xFFFF, scribe := [0] } })
  (ctxIs (fun c => { c with sink2sz := 16 }) inA)

theorem witness_TraceAndDebugInstructionsComplete :
    (xr inA 6).toNat ≤ 1 ∧ (curCtx inA).isSome = true ∧ Quiet inA ∧ (xr inA 6).toNat < 65536 ∧
    (curCtx (ctxIs (fun c => { c with mode := 2 }) inA)).any (·.mode == 2) = true ∧ inA.hart.dbg.trapStep = false ∧
    65536 ≤ (xr (withX [(6, 65536)]) 6).toNat ∧ traceStalls tracing.hart .user = false ∧ Quiet tracing ∧ traceOn tracing.hart .user = true ∧
    traceOn inA.hart .user = false ∧ ((xr (withX [(6, 8)]) 6).toNat ≤ 8 ∧ Quiet (withX [(6, 8)])) ∧
    (8 < (xr (withX [(6, 9)]) 6).toNat ∧ xr (withX [(6, 9)]) 6 ≠ 0xFF) ∧ attached inA = false ∧
    (attached attachedA = true ∧ attachedA.hart.thread = .running ∧ attachedA.hart.dbg.stop = none ∧ Quiet attachedA ∧
      atBreakpoint attachedA = true) ∧
    (∃ p, wsetCheck (withX [(7, 0x13)] inA) (xr (withX [(7, 0x13)] inA) 6) (xr (withX [(7, 0x13)] inA) 7) = .ok p ∧
      (calm p.2 && (curCtx p.2).any fun c => findIdxFrom (fun (o : Option Watch) => o.isNone) c.watches.toList 0 == some 0) = true) ∧
    (∃ p, wsetCheck watchedFull (xr watchedFull 6) (xr watchedFull 7) = .ok p ∧
      (calm p.2 && (curCtx p.2).any fun c => findIdxFrom (fun (o : Option Watch) => o.isNone) c.watches.toList 0 == none) = true) ∧
    ((xr inA 6).toNat ≤ 15 ∧ 15 < (xr (withX [(6, 16)] inA) 6).toNat) ∧
    ((curCtx watched).any fun c => findIdxFrom (fun (o : Option Watch) => match o with | some w => watchMatches w read0 | none => false)
      c.watches.toList 0 == some 0) = true ∧
    ((onHart (fun h => { h with dbg := { h.dbg with wpTrap := some 5 } }) inA).hart.dbg.wpTrap = some 5 ∧ inA.hart.thread = .running ∧
      inA.hart.dbg.stop = none ∧ insideInstr inA.hart = false) ∧
    (tracing.hart.tc.scribe = 0 :: [] ∧ mayEmit tracing = true ∧ (curCtx tracing).any (fun c => decide (c.sinkTail - c.sinkHead + 64 ≤ 2 ^ c.sink2sz)) = true) := by
  refine ⟨?_, ?_, quiet_of ?_, ?_, ?_, ?_, ?_, ?_, quiet_of ?_, ?_, ?_, ⟨?_, quiet_of ?_⟩, ⟨?_, ?_⟩, ?_, ⟨?_, ?_, ?_, quiet_of ?_, ?_⟩, ok_of ?_, ok_of ?_,
    ⟨?_, ?_⟩, ?_, ⟨?_, ?_, ?_, ?_⟩, ⟨?_, ?_, ?_⟩⟩ <;> decide +kernel

/-- A launch of one group of one thread: its image of one segment at the first mapped page, LS and stack of one page. -/
def launchBytes : List (Nat × Nat × Nat) := [(0, 8, 0x10000010000), (8, 2, 0x1000), (10, 1, 1), (12, 2, 1), (16, 4, 1), (20, 1, 32), (21, 1, 8),
  (24, 4, 4096), (28, 4, 4096), (32, 4, 0x10000), (36, 4, 1), (48, 8, 10), (56, 8, 1)]
def recordOf (l : List (Nat × Nat × Nat)) : List Byte :=
  l.foldl (fun b f => b.take f.1 ++ natBytes f.2.1 f.2.2 ++ b.drop (f.1 + f.2.1)) (List.replicate 128 0)
/-- The core free and the launch queued. -/
def placing : State := onHart (fun h => { h with thread := .idle })
  (ctxIs (fun c => { c with bays := 1, launches := [⟨0, recordOf launchBytes, 0, none⟩] }) inA)

/-- A context that stands in a state of its life; its core stopped at a switch time. -/
def switching : State := ctxIs (fun c => { c with switchAt := some 5 }) inA
noncomputable def stoppedA : State := ctxIs (fun c => { c with resumeAt := some 9 }) (did (.gangStop 0 2) inA)
/-- The same with PRN set. -/
noncomputable def stoppedPrn : State := onHart (fun h => { h with tr := { h.tr with prn := true } }) stoppedA
/-- A boundary armed on a core that runs no thread of the context. -/
def armedB : State := ctxIs (fun c => { c with mode := 3, armed := true }) (onService inA)
/-- A CHECKPOINT context with a boundary image. -/
def imaged : State := saveBoundary 0 (ctxIs (fun c => { c with mode := 3 }) inA)
/-- The same, its image torn; and rolled back once in its interval. -/
def imageTorn : State := onDev (fun d => { d with devPoison := [(ctxA.save + imageSize ctxA) / 64] }) imaged
def rolledOnce : State := ctxIs (fun c => { c with rolledBack := 1 }) imaged
/-- A stopped context whose core's store is still in its queue. -/
noncomputable def stoppedBusy : State := onHart (fun h => { h with sq := storedLs.hart.sq }) stoppedA
/-- A machine stopped by a fatal error. -/
noncomputable def fatalA : State := did .fatalError inA
/-- A copy whose peer is silent past the peer timeout. -/
noncomputable def late : State := onDev (fun d => { d with time := d.time + 1 }) (copyIn (.await 0 16))
/-- A context with a peer, whose older key is still accepted. -/
def peered : State := ctxIs (fun c => { c with peers := [⟨3, 1, [], 7, 0, 0, some 6⟩] }) inA

/-- Whether a stopped thread may start again. -/
def mayResume (s : State) (prn : Bool) : Bool :=
  (ctxOf s.dev 0).any (fun c => c.resumeAt.isSome && c.state == .stopped 2) && !s.dev.fatal && !s.hart.tr.tip && inContext s.hart 0 &&
  s.hart.thread == .running && s.hart.dbg.stop.any (fun r => r.why != 5) && s.hart.tr.prn == prn

theorem witness_ContextAndBoardMovesComplete :
    ((nextGroup placing).any fun p => ctxOf placing.dev p.1.num == some p.1 && p.1.mode != 3 && p.2.2.2.contains placing.hart.ar.core) = true ∧
    retireReady (did .endT inA) = true ∧ (otherMayRetire inA 5 && inContext inA.hart inA.hart.ar.ctx && (5 != inA.hart.ar.core)) = true ∧
    nextSwitch switching.dev.ctxs = some 5 ∧ (ctxOf switching.dev 0).any (fun c => c.state == .running && c.switchAt == some 5) = true ∧
    (inContext inA.hart 0 = true ∧ inA.hart.thread = .running ∧ inA.hart.dbg.stop = none) ∧
    (ctxOf (ctxIs (fun c => { c with cbudg := 10 }) inA).dev 0).any (fun c => timeBudget c == some 10 && c.state == .running && !c.spent) = true ∧
    (mayResume stoppedA false = true ∧ mayResume stoppedPrn true = true ∧ drained stoppedA = true ∧ holdsUo stoppedA = false ∧
      drained stoppedPrn = true ∧ holdsUo stoppedPrn = false) ∧
    ((ctxOf stoppedBusy.dev 0).any (·.resumeAt.isSome) = true ∧ inContext stoppedBusy.hart 0 = true ∧ drained stoppedBusy = false) ∧
    ((ctxOf armedB.dev 0).any (fun c => c.armed && c.state == .running) && boundaryReached 0 armedB &&
      (ctxOf (flushFor 0 (gangStop 0 3 armedB)).dev 0).isSome) = true ∧
    (ctxOf imaged.dev 0).any (fun c => c.mode == 3 && c.rolledBack == 0 && !c.armed && c.boundImg.any fun g => !imageBad imaged c 1 g) = true ∧
    (ctxOf imageTorn.dev 0).any (fun c => c.mode == 3 && c.boundImg.any fun g => imageBad imageTorn c 1 g) = true ∧
    (ctxOf rolledOnce.dev 0).any (fun c => c.mode == 3 && decide (1 ≤ c.rolledBack)) = true ∧
    (fatalA.dev.fatal && fatalA.dev.dump.isNone && drained fatalA) = true ∧
    (dirty.clu.cm[0]?.isSome = true ∧ (tensorOf (queuedAs []).dev 0x100).isSome = true) ∧
    ((ctxOf peered.dev 0).isSome = true ∧ (peerOf peered 0 3).any (fun p => p.old.isSome && keyAccepted 0 7 p && keyAccepted 0 6 p &&
      !keyAccepted 0 5 p && decide (keyEnd p < 2 ^ 64)) = true ∧ ageKey 0 3 peered = peered ∧
      ((lineParts 0x10000000000 2).all fun p => recallTables 0 p.1 peered == peered) = true) ∧
    (ctxOf armedB.dev 0).any (fun c => c.mode == 3 && c.boundImg.isNone && c.armed) = true ∧
    (ctxOf (clearCore inA).dev 0).any (fun c => !c.armed && mayRetire (clearCore inA) c) = true ∧
    (atIdx dirty.clu.cm 0 (fun x => x.dirty != 0) = true) ∧ (ctxOf inA.dev 0).any (·.mode != 3) = true ∧ (⟨.dev, 64⟩ : Loc).space ≠ .ten 0 ∧

    (let d := (did (.resetRelease [] 0) (onDev (fun d => { d with ports := 1 }) State.reset)).dev; d.recovery && !d.booted) = true ∧
    (inA.dev.booted = true ∧ inA.dev.rbcnt.toNat < 255) ∧ (ctxOf stoppedA.dev 0).any (·.state == .stopped 2) = true ∧
    atIdx late.dev.copies 0 (fun c => c.st == .await 0 16 && decide (ackEnd late c < late.dev.time.toNat)) = true ∧
    (peerParts peered 0 0 [1] = none ∧ peerParts peered 0 0x10000000000 [1, 2] = some [(⟨.dev, 0⟩, [1, 2])] ∧ MemoriesOk peered ∧
      homeOwner peered.dev ⟨.dev, 0⟩ = some 0 ∧ NoLines peered 0) := by
  refine ⟨?_, ?_, ?_, ?_, ?_, ⟨?_, ?_, ?_⟩, ?_, ⟨?_, ?_, ?_, ?_, ?_, ?_⟩, ⟨?_, ?_, ?_⟩, ?_, ?_, ?_, ?_, ?_, ⟨?_, ?_⟩, ⟨?_, ?_, ?_, ?_⟩, ?_, ?_, ?_, ?_, ?_, ?_,
    ⟨?_, ?_⟩, ?_, ?_, ⟨?_, ?_, memoriesOk_of ?_, ?_, noLines_of ?_⟩⟩ <;> decide +kernel

/-- A command on context 0 from its owner's session, with these arguments; from another session; and after one that waits. -/
def cmdOf (a0 a1 a2 : Word) (data : List Byte := []) : HostCmd := ⟨1, true, 0, 0, 9, a0, a1, a2, data⟩
def cmdOther : HostCmd := { cmdOf 0 0 0 with session := 2 }
def queued1 : State := { inA with waiting := [.cmd (cmdOf 0 0 0)] }

/-- Whether a command arrives, encrypted, on its owner's session, and this holds of the context. -/
def owned (k : HostCmd) (s : State) (f : Context → Bool) : Bool :=
  !sessionWaits k s && !cmdBlocked k s && s.dev.booted && k.enc && (ownerCtxOf k s).any f

theorem owned_of {k : HostCmd} {s : State} {f : Context → Bool} (h : owned k s f = true) : ∃ x, Owned k s x ∧ f x = true := by
  simp only [owned, Bool.and_eq_true, Bool.not_eq_true'] at h
  obtain ⟨⟨⟨⟨h1, h2⟩, h3⟩, h5⟩, h4⟩ := h
  cases e : ownerCtxOf k s with
  | none => rw [e] at h4; cases h4
  | some x => rw [e] at h4; exact ⟨x, ⟨⟨h1, h2⟩, h3, h5, e⟩, h4⟩

theorem arrives_of {k : HostCmd} {s : State} (h : (!sessionWaits k s && !cmdBlocked k s) = true) : Arrives k s := by
  simpa only [Arrives, Bool.and_eq_true, Bool.not_eq_true'] using h

/-- A context created with DBG; its core stopped by the service, with two instructions in the reverse ring; and the same with
a free watchpoint list. -/
def debuggable : State := ctxIs (fun c => { c with dbg := true }) inA
noncomputable def halted : State := did (.gangStop 0 5) debuggable
noncomputable def haltedAfter : State := did (.gangStop 0 5) (did (.addi 9 0 7) (did (.addi 9 0 5) (ctxIs (fun c => { c with mode := 2 }) debuggable)))
/-- The same with two cores of the context busy; and with this core alone. -/
noncomputable def haltedTwo : State := ctxIs (fun c => { c with bays := 1, busy := [(0, 0, 0), (1, 0, 0)] }) halted
noncomputable def haltedOne : State := ctxIs (fun c => { c with busy := [(0, 0, 0)] }) halted
/-- The same after a fatal error. -/
noncomputable def haltedDead : State := onDev (fun d => { d with fatal := true }) halted
/-- A sub-command arrives, the core is stopped with WHY = 5, and this holds of the context. -/
noncomputable def onHalted (k : HostCmd) (s : State) (f : Context → Bool) : Bool :=
  owned k s fun x => x.dbg && (k.arg0 == 8 || noData k) && debugStopped s x k.arg1.toNat && f x

/-- The generator of the curve, as a public key; and a legal parameter block (R429, R438): bay 1, its areas free. -/
def generator : List Byte :=
  (natBytes 48 0x1D1C64F068CF45FFA2A63A81B7C13F6B8847A3E77EF14FE3DB7FCAFE0CBD10E8E826E03436D646AAEF87B2E247D4AF1E).reverse ++
  (natBytes 48 0x8ABE1D7520F9C2A45CB1EB8E95CFD55262B70B29FEEC5864E19C054FF99129280E4646217791811142820341263C5315).reverse
def block : List Byte := natBytes 8 2 ++ natBytes 8 0x10000 ++ natBytes 8 0x80000000 ++ natBytes 8 0x10000000000 ++ natBytes 8 0x90000000 ++
  natBytes 8 0x10000200000 ++ natBytes 8 0 ++ [0, 21, 0, 16] ++ natBytes 4 1 ++ generator

/-- A launch record in the context's memory, its log and sink mapped; and the same with its allotment wrong. -/
def launching : State := fields ⟨.dev, 0⟩ launchBytes (onDev (fun d => { d with owners := (rangeFrom 0 65).map fun k => (k, .ctx 0) })
  (ctxIs (fun c => { c with logBase := 0x10000200000, sink := 0x10000400000, sink2sz := 16 }) inA))
def launchBad : State := fields ⟨.dev, 20⟩ [(0, 1, 9)] launching
/-- A context with a tensor of 8 bytes; poisoned; without the host's operation. -/
def withTen : State := onDev (fun d => { d with tensors := [tenA 0x100 [2], { tenA 0x101 [2] with poison := [0] }, { tenA 0x102 [2] with ops := 0 }] }) inA

theorem witness_HostCommandsComplete :
    (commandRows (cmdOf 0 0 0)).all (fun p => sessionWaits p.2 queued1) = true ∧
    (ownerRows cmdOther).all (fun p => !sessionWaits p.2 inA && !cmdBlocked p.2 inA && (ownerCtxOf p.2 inA).isNone) = true ∧
    (ownerRows (cmdOf 0 0 0)).all (fun p => !sessionWaits p.2 State.reset && !cmdBlocked p.2 State.reset && !State.reset.dev.booted) = true ∧
    (ownerRows { cmdOf 0 0 0 with enc := false }).all (fun p => !sessionWaits p.2 inA && !cmdBlocked p.2 inA && !p.2.enc) = true ∧
    (debugRows (cmdOf 0 0 0)).all (fun p => owned p.2 inA fun x => !x.dbg) = true ∧
    (Arrives (coded 1 (cmdOf 0 0 0)) inA ∧ Arrives (coded 2 (cmdOf 0 0 0)) inA ∧ Arrives (coded 3 (cmdOf 0 4 0)) inA ∧ inA.dev.booted = true) ∧
    (Arrives (coded 0x10 (cmdOf 0 0 0 block)) inA ∧ blockLegal inA.dev block = true ∧ freeNumber inA.dev = some 1 ∧
      (newContext 1 1 block).mode ≠ 3 ∧ blockLegal inA.dev [] = false) ∧
    (∃ x, Owned (coded 0x11 (cmdOf 0 0 0)) inA x ∧ noData (cmdOf 0 0 0) = true) ∧
    (∃ x, Owned (chosen 0x12 false (cmdOf 0x10000000000 0x10000 0x10000000102)) inA x ∧
      ((mapArgs (chosen 0x12 false (cmdOf 0x10000000000 0x10000 0x10000000102))).isSome &&
        decide (bits (chosen 0x12 false (cmdOf 0x10000000000 0x10000 0x10000000102)).arg2 41 40 ≤ 1)) = true) ∧
    (∃ x, Owned (chosen 0x12 true (cmdOf 0x10000000000 0 0x102)) inA x ∧ (mapArgs (chosen 0x12 true (cmdOf 0x10000000000 0 0x102))).isSome = true) ∧
    (∃ x, Owned (coded 0x13 (cmdOf 0x10000000000 0 0)) launching x ∧ (areasMapped launching.dev x &&
      (readVa (uoRecallAll (fun _ => true) launching) x.num 0x10000000000 128).toOption.any fun r =>
        (firstBroken (launchRules (uoRecallAll (fun _ => true) launching).dev x.num r)).isNone) = true) ∧
    (∃ x, Owned (coded 0x13 (cmdOf 0x10000000000 0 0)) launchBad x ∧ (areasMapped launchBad.dev x &&
      (readVa (uoRecallAll (fun _ => true) launchBad) x.num 0x10000000000 128).toOption.any fun r =>
        firstBroken (launchRules (uoRecallAll (fun _ => true) launchBad).dev x.num r) == some 20) = true) ∧
    (readVa (uoRecallAll (fun _ => true) launching) 0 0 128).toOption.isNone = true := by
  refine ⟨?_, ?_, ?_, ?_, ?_, ⟨arrives_of ?_, arrives_of ?_, arrives_of ?_, ?_⟩, ⟨arrives_of ?_, ?_, ?_, ?_, ?_⟩, owned_of ?_, owned_of ?_, owned_of ?_,
    owned_of ?_, owned_of ?_, ?_⟩ <;> decide +kernel

/-- Whether a transfer that is placed now is done at once. -/
noncomputable def xferOk (s : State) (k : HostCmd) (y : Tensor) (now : Bool) : Bool :=
  let u := onDev (fun d => { d with nextEng := s.dev.nextEng + 1 }) (placeEngine s.dev.nextEng y.h s)
  xferReady s.dev.nextEng k u == now && (copyDead u s.dev.nextEng [y.h]).isNone
/-- The tensor's re-representation queued. -/
def tenBusy : State := onDev (fun d => { d with tensors := [{ tenA 0x100 [2] with queue := [.rerep repA false (some 1)] }] }) inA
/-- A saved context with its switch image. -/
noncomputable def savedA : State := saveSwitch 0 stoppedA

theorem witness_HostCommandsComplete_contexts :
    ((∃ x, Owned (chosen 0x14 false (cmdOf 0x100 0 8)) withTen x ∧ (hostTensor (chosen 0x14 false (cmdOf 0x100 0 8)) x withTen).toOption.any
      (fun y => xferOk withTen (chosen 0x14 false (cmdOf 0x100 0 8)) y true) = true) ∧ withTen.clu.cm = [] ∧ NoLines withTen 0) ∧
    (∃ x, Owned (chosen 0x14 false (cmdOf 0x101 0 8)) withTen x ∧ (hostTensor (chosen 0x14 false (cmdOf 0x101 0 8)) x withTen).toOption.any
      (fun y => (poisonAt withTen.dev ⟨.ten y.h, 0⟩ 8).isSome && xferOk withTen (chosen 0x14 false (cmdOf 0x101 0 8)) y true) = true) ∧
    (∃ x, Owned (chosen 0x14 true (cmdOf 0x100 0 8 [1, 2, 3, 4, 5, 6, 7, 8])) withTen x ∧
      (hostTensor (chosen 0x14 true (cmdOf 0x100 0 8 [1, 2, 3, 4, 5, 6, 7, 8])) x withTen).toOption.any (fun y => y.ctx == 0 && Memory.wf y.data &&
        xferOk withTen (chosen 0x14 true (cmdOf 0x100 0 8 [1, 2, 3, 4, 5, 6, 7, 8])) y true) = true) ∧
    (∃ x, Owned (chosen 0x14 false (cmdOf 0x100 0 8)) tenBusy x ∧ (hostTensor (chosen 0x14 false (cmdOf 0x100 0 8)) x tenBusy).toOption.any
      (fun y => xferOk tenBusy (chosen 0x14 false (cmdOf 0x100 0 8)) y false) = true) ∧
    (∃ x, Owned (chosen 0x14 true (cmdOf 0x100 0 8 [1, 2, 3, 4, 5, 6, 7, 8])) tenBusy x ∧
      (hostTensor (chosen 0x14 true (cmdOf 0x100 0 8 [1, 2, 3, 4, 5, 6, 7, 8])) x tenBusy).toOption.any (fun y =>
        xferOk tenBusy (chosen 0x14 true (cmdOf 0x100 0 8 [1, 2, 3, 4, 5, 6, 7, 8])) y false) = true) ∧
    (∃ x, Owned (chosen 0x14 false (cmdOf 0x102 0 8)) withTen x ∧ (!(hostTensor (chosen 0x14 false (cmdOf 0x102 0 8)) x withTen).isOk) = true) ∧
    (∃ x, Owned (chosen 0x15 false (cmdOf 0 0 0)) inA x ∧ (x.state == .running) = true) ∧
    (∃ x, Owned (chosen 0x15 false (cmdOf 0 0 0)) stoppedA x ∧ (x.state == .stopped 2) = true) ∧
    (∃ x, Owned (chosen 0x15 true (cmdOf 0 1 0)) stoppedA x ∧ (x.state == .stopped 2 && !stoppedA.dev.fatal) = true) ∧
    (∃ x, Owned (chosen 0x15 true (cmdOf 0 1 0)) savedA x ∧
      (x.state == .saved && x.switchImg.any fun g => !imageBad savedA x 0 g) = true) ∧
    (∃ x, Owned (chosen 0x15 true (cmdOf 0 1 0)) (onDev (fun d => { d with devPoison := [ctxA.save / 64] }) savedA) x ∧
      (x.state == .saved && x.switchImg.any fun g => imageBad (onDev (fun d => { d with devPoison := [ctxA.save / 64] }) savedA) x 0 g) = true) ∧
    (∃ x, Owned (chosen 0x15 true (cmdOf 0 1 0)) (ctxIs (fun c => { c with state := .saved }) inA) x ∧ (x.state == .saved && x.switchImg.isNone) = true) ∧
    (∃ x, Owned (coded 0x16 (cmdOf 0 0 0)) inA x ∧ true = true) ∧
    (∃ x, Owned (coded 0x17 (cmdOf 0x3F 0 0 generator)) inA x ∧ generator.length = 96) ∧
    (∃ x, Owned (coded 0x17 (cmdOf 0x13F 0 0)) inA x ∧ noData (cmdOf 0x13F 0 0) = true) ∧
    (∃ x, Owned (coded 0x19 (cmdOf 2 0 0)) (clearCore inA) x ∧ (!contextBusy (clearCore inA) x && x.mode != 3) = true) ∧
    (∃ x, Owned (coded 0x1A (cmdOf 64 0 0)) inA x ∧ true = true) ∧
    (knownCode 0x7F = false ∧ Arrives { cmdOf 0 0 0 with code := 0x7F } inA) := by
  refine ⟨⟨owned_of ?_, ?_, noLines_of ?_⟩, owned_of ?_, owned_of ?_, owned_of ?_, owned_of ?_, owned_of ?_, owned_of ?_, owned_of ?_, owned_of ?_,
    owned_of ?_, owned_of ?_, owned_of ?_, owned_of ?_, ?_, ?_, owned_of ?_, owned_of ?_, ?_, arrives_of ?_⟩
  case refine_16 => exact (owned_of (f := fun _ => true) (by decide +kernel)).imp fun x h => ⟨h.1, by decide +kernel⟩
  case refine_17 => exact (owned_of (f := fun _ => true) (by decide +kernel)).imp fun x h => ⟨h.1, by decide +kernel⟩
  all_goals decide +kernel

theorem witness_HostCommandsComplete_debug :
    (∃ x, Owned (debugCmd 1 (cmdOf 0 1 0)) debuggable x ∧ x.dbg = true) ∧
    (∃ x, Owned (debugCmd 2 (cmdOf 0 0 0)) debuggable x ∧ (x.dbg && x.state == .running) = true) ∧
    (∃ x, Owned (debugCmd 3 (cmdOf 0 0 0)) halted x ∧ (x.dbg && x.state == .stopped 5 && debugStopped halted x 0) = true) ∧
    onHalted (debugCmd 4 (cmdOf 0 0 65535)) halted (fun _ => true) = true ∧
    onHalted (debugCmd 5 (cmdOf 0 0 1)) haltedAfter (fun _ => true) = true ∧
    ((reverseStep 0 haltedAfter).isOk = true ∧ (reverseStep 0 halted).isOk = false ∧ haltedAfter.hart.ar.ctx = 0 ∧
      (ringGroups haltedAfter.hart.tc.ring [] []).length = 2) ∧
    (∃ x, Owned (debugCmd 6 (cmdOf 0 0 0x10000)) haltedAfter x ∧ (x.dbg && noData (cmdOf 0 0 0x10000) && debugStopped haltedAfter x 0) = true) ∧
    (∃ x, Owned (debugCmd 10 (cmdOf 0 1 0)) haltedTwo x ∧ (x.dbg && otherStopped haltedTwo x 1) = true) ∧
    (∃ x, Owned (debugCmd 5 (cmdOf 0 1 0)) haltedTwo x ∧ (x.dbg && otherStopped haltedTwo x 1) = true) ∧
    (∃ x, Owned (debugCmd 9 (cmdOf 0 1 0x1001)) haltedTwo x ∧ (x.dbg && otherStopped haltedTwo x 1) = true) ∧
    (∃ x, Owned (debugCmd 4 (cmdOf 0 1 65535)) haltedTwo x ∧ (x.dbg && otherStopped haltedTwo x 1) = true) ∧
    (∃ x, Owned (debugCmd 3 (cmdOf 0 0 0)) haltedDead x ∧ (x.dbg && haltedDead.dev.fatal) = true) ∧
    onHalted (debugCmd 4 (cmdOf 0 0 65535)) haltedDead (fun _ => true) = true ∧
    (∃ x, Owned (debugCmd 11 (cmdOf 0 0 0)) haltedTwo x ∧ (x.dbg && (x.busy.map (·.1) != [])) = true) ∧
    (∃ x, Owned (debugCmd 11 (cmdOf 0 0 0)) haltedOne x ∧ (x.dbg && x.busy == [(0, 0, 0)]) = true) ∧
    onHalted (debugCmd 7 (cmdOf 0 0 0x8000000000000009)) halted (fun x => match debugAt halted (debugCmd 7 (cmdOf 0 0 0x8000000000000009)) x with
      | some (.reg k) => k == 9 | _ => false) = true ∧
    onHalted (debugCmd 7 (cmdOf 0 0 0x1FF80)) halted (fun x => match debugAt halted (debugCmd 7 (cmdOf 0 0 0x1FF80)) x with
      | some (.mem l) => l.off == 0x1FF80 | _ => false) = true ∧
    onHalted (debugCmd 7 (cmdOf 0 0 0xC000000000000001)) halted (fun x => match debugAt halted (debugCmd 7 (cmdOf 0 0 0xC000000000000001)) x with
      | some (.csr a) => csrAllowed .m a false | _ => false) = true ∧
    owned (debugCmd 7 (cmdOf 0 0xFFFF 0x10000000000)) debuggable (fun x => x.dbg && (readVa debuggable x.num 0x10000000000 128).isOk &&
      match debugAt debuggable (debugCmd 7 (cmdOf 0 0xFFFF 0x10000000000)) x with | some (.va a) => a == 0x10000000000 | _ => false) = true ∧
    (onHalted (debugCmd 9 (cmdOf 0 0 0x1001)) halted (fun _ => true) = true ∧ bpFind halted (· == none) = some 0) ∧
    onHalted (debugCmd 10 (cmdOf 0 0 1)) halted (fun _ => true) = true ∧
    (∃ x, Owned (debugCmd 11 (cmdOf 0 0 0)) halted x ∧ x.dbg = true) := by
  refine ⟨owned_of ?_, owned_of ?_, owned_of ?_, ?_, ?_, ⟨?_, ?_, ?_, ?_⟩, owned_of ?_, owned_of ?_, owned_of ?_, owned_of ?_, owned_of ?_, owned_of ?_, ?_, owned_of ?_, owned_of ?_, ?_, ?_, ?_, ?_, ⟨?_, ?_⟩, ?_, owned_of ?_⟩ <;> decide +kernel

theorem ran_of {w : Nat} {s : State} {f : State → Bool} (h : ran w s f = true) : ∃ t, step (s.withFetchWord 32 w) = .next t ∧ f t = true := by
  unfold ran at h
  split at h
  · exact ⟨_, ‹_›, h⟩
  · cases h

theorem witness_StepKeepsMemories : MemoriesKept (placed 0x04930005) ∧ ∃ t, step (placed 0x04930005) = .next t := by
  refine ⟨⟨memoriesOk_of (by decide +kernel), fun c hc => ?_⟩, ?_⟩
  rotate_left
  · obtain ⟨t, h, -⟩ := ran_of (w := 0x04930005) (s := State.reset) (f := fun _ => true) (by decide +kernel)
    exact ⟨t, h⟩
  have e : (placed 0x04930005).dev.ctxs = [] := by decide +kernel
  rw [e] at hc
  cases hc

theorem witness_DecodeEncodeAgree : (wf (.addi 9 6 5) = true ∧ encode (.addi 9 6 5) ≠ 0) ∧ decode 0x04930005 = some (.addi 9 6 5) := by
  refine ⟨⟨?_, ?_⟩, ?_⟩ <;> decide +kernel

theorem witness_EveryInstructionAnswers : State.reset.dev.powered = true := rfl

theorem witness_RoundingDrawsOnlyWhenStochastic : Rnd.sto = .sto ∧ Rnd.rne ≠ .sto := by decide
end Sys2Proof.Tests
end

section
/-! SUPPORT. The end of instructions that write register files only: what they leave as it was, said once. -/

namespace Sys2Proof.Machine

/-- Going on, the state an instruction leaves changes in the flow, the windows and the counts only (R42, R75). -/
theorem wentOn_flow (s u : State) : ∃ p f, wentOn s u = ended s { u with hart := { u.hart with pc := p, frame := f } } := by
  obtain ⟨p, f, e⟩ := advance_only u.hart
  refine ⟨p, f, ?_⟩
  unfold wentOn onHart
  rw [e]

@[simp] theorem wentOn_regs (s u : State) : (wentOn s u).hart.regs = u.hart.regs := by
  obtain ⟨p, f, e⟩ := wentOn_flow s u; rw [e]; rfl
@[simp] theorem wentOn_ar (s u : State) : (wentOn s u).hart.ar = u.hart.ar := by
  obtain ⟨p, f, e⟩ := wentOn_flow s u; rw [e]; rfl
@[simp] theorem wentOn_inbox (s u : State) : (wentOn s u).hart.inbox = u.hart.inbox := by
  obtain ⟨p, f, e⟩ := wentOn_flow s u; rw [e]; rfl
@[simp] theorem wentOn_recv (s u : State) : (wentOn s u).hart.recv = u.hart.recv := by
  obtain ⟨p, f, e⟩ := wentOn_flow s u; rw [e]; rfl
@[simp] theorem wentOn_tags (s u : State) : (wentOn s u).hart.tags = u.hart.tags := by
  obtain ⟨p, f, e⟩ := wentOn_flow s u; rw [e]; rfl
@[simp] theorem wentOn_dev (s u : State) : (wentOn s u).dev = u.dev := rfl
@[simp] theorem wentOn_clu (s u : State) : (wentOn s u).clu = u.clu := rfl

@[simp] theorem setX_inbox (d : Reg) (v : Word) (s : State) : (setX d v s).hart.inbox = s.hart.inbox := by
  obtain ⟨x, xsh, e⟩ := setX_only d v s; rw [e]
@[simp] theorem setX_recv (d : Reg) (v : Word) (s : State) : (setX d v s).hart.recv = s.hart.recv := by
  obtain ⟨x, xsh, e⟩ := setX_only d v s; rw [e]
@[simp] theorem setX_tags (d : Reg) (v : Word) (s : State) : (setX d v s).hart.tags = s.hart.tags := by
  obtain ⟨x, xsh, e⟩ := setX_only d v s; rw [e]

/-- An instruction that ends with a write of a scalar register, in a quiet state (R75). -/
theorem exec_setX_completes {i : Instr} {regs : List Nat} {d : Reg} {v : Word} {s : State}
    (e : exec i s = finish s regs (setX d v s)) (hq : Quiet s) :
    ∃ t, exec i s = .next t ∧ ScalarFrame s t ∧ FlowsOn s t ∧ WritesX s t d v := by
  obtain ⟨t, next, writes, frame, flow⟩ := setX_completes regs d v hq
  exact ⟨t, e.trans next, frame, flow, writes⟩

/-! ## Effects on register files only -/

/-- `u` is `s` but for its register files, its flags, rounding mode and LFSR. -/
def RegsOnly (s u : State) : Prop :=
  ∃ r a, u = { s with hart := { s.hart with regs := r, ar := a } } ∧ a.ctx = s.hart.ar.ctx

theorem RegsOnly.refl (s : State) : RegsOnly s s := ⟨s.hart.regs, s.hart.ar, rfl, rfl⟩

theorem RegsOnly.setX {s u : State} (h : RegsOnly s u) (d : Reg) (v : Word) : RegsOnly s (setX d v u) := by
  obtain ⟨r, a, rfl, hc⟩ := h
  obtain ⟨x, xsh, e⟩ := setX_only d v { s with hart := { s.hart with regs := r, ar := a } }
  exact ⟨{ r with x := x, xsh := xsh }, a, e, hc⟩

/-- A write of a vector register changes the vector files only. -/
theorem setV_only (d : VReg) (v : VWord) (s : State) : ∃ x vsh,
    setV d v s = { s with hart := { s.hart with regs := { s.hart.regs with v := x, vsh := vsh } } } := by
  unfold Machine.setV
  split
  · exact ⟨s.hart.regs.v, _, rfl⟩
  · exact ⟨_, s.hart.regs.vsh, rfl⟩

theorem RegsOnly.setV {s u : State} (h : RegsOnly s u) (d : VReg) (v : VWord) : RegsOnly s (setV d v u) := by
  obtain ⟨r, a, rfl, hc⟩ := h
  obtain ⟨x, vsh, e⟩ := setV_only d v { s with hart := { s.hart with regs := r, ar := a } }
  exact ⟨{ r with v := x, vsh := vsh }, a, e, hc⟩

/-- A write of a mask changes the mask file only. -/
theorem setK_only (q : MSel) (v : MWord) (s : State) : ∃ k,
    setK q v s = { s with hart := { s.hart with regs := { s.hart.regs with k := k } } } := by
  unfold Machine.setK
  split
  · exact ⟨s.hart.regs.k, rfl⟩
  · exact ⟨_, rfl⟩

theorem RegsOnly.setK {s u : State} (h : RegsOnly s u) (q : MSel) (v : MWord) : RegsOnly s (setK q v u) := by
  obtain ⟨r, a, rfl, hc⟩ := h
  obtain ⟨k, e⟩ := setK_only q v { s with hart := { s.hart with regs := r, ar := a } }
  exact ⟨{ r with k := k }, a, e, hc⟩

theorem RegsOnly.setFlags {s u : State} (h : RegsOnly s u) (f : Nat) : RegsOnly s (setFlags f u) := by
  obtain ⟨r, a, rfl, hc⟩ := h
  exact ⟨r, { a with fflags := a.fflags ||| BitVec.ofNat 6 f }, rfl, hc⟩

theorem RegsOnly.setLfsr {s u : State} (h : RegsOnly s u) (l : Word) : RegsOnly s (setLfsr l u) := by
  obtain ⟨r, a, rfl, hc⟩ := h
  exact ⟨r, { a with lfsr := l }, rfl, hc⟩

/-- The end of an instruction that writes register files only, in a quiet state. -/
theorem RegsOnly.finish {s u : State} (h : RegsOnly s u) (regs : List Nat) (hq : Quiet s) :
    finish s regs u = .next (wentOn s u) := by
  obtain ⟨r, a, rfl, hc⟩ := h
  exact finish_core regs hq rfl hc rfl

/-- What such an instruction leaves, retired: beside its effect only the flow, the windows and the counts have changed. -/
theorem RegsOnly.coreFrame {s u : State} (h : RegsOnly s u) : CoreFrame s (wentOn s u) := by
  obtain ⟨r, a, rfl, -⟩ := h
  obtain ⟨p, f, e⟩ := wentOn_flow s { s with hart := { s.hart with regs := r, ar := a } }
  rw [e]
  exact ⟨rfl, fun _ => rfl⟩

theorem RegsOnly.oldHeld {s u : State} (h : RegsOnly s u) : OldHeld s (wentOn s u) := by
  obtain ⟨r, a, rfl, -⟩ := h
  obtain ⟨p, f, e⟩ := wentOn_flow s { s with hart := { s.hart with regs := r, ar := a } }
  rw [e]
  exact ⟨rfl, rfl⟩

theorem RegsOnly.flowsOn {s u : State} (h : RegsOnly s u) : FlowsOn s (wentOn s u) := by
  obtain ⟨r, a, rfl, -⟩ := h
  exact flowsOn_wentOn rfl rfl

end Sys2Proof.Machine
end

section
/-! PROOFS. The repeat frame (R25, R40, R96). -/

namespace Sys2Proof.Machine

/-- A frame captures exactly the words that follow RPT (R40, R96). -/
theorem frameAddrs_eq_captured (pc : IAddr) (n : BitVec 4) : frameAddrs pc (n.toNat + 1) = captured pc n := rfl

/-- RPT, when every word after it can be fetched, captured and decoded (R40). -/
theorem execRpt_begins (r n : BitVec 4) (d k : BitVec 5) (s : State)
    (hf : ∀ a ∈ captured s.hart.pc n, fetchFault s.hart a = none)
    (hc : ∀ a ∈ captured s.hart.pc n, capturable (imemWord s.hart a) = true)
    (hw : ∀ a ∈ captured s.hart.pc n, ∃ i, decodeLow (imemWord s.hart a) = some i ∧ wf i = true) :
    execRpt r n d k s = .next (retired s [] false (onHart (fun h => { h with
      pc := h.pc + 4
      frame := some ⟨s.hart.pc, r.toNat + 1, n.toNat + 1, d.toNat, k.toNat, 0, 0,
        (captured s.hart.pc n).map (imemWord s.hart)⟩ }) s)) := by
  have noFault : (captured s.hart.pc n).findSome? (fetchFault s.hart) = none := List.findSome?_eq_none_iff.2 hf
  have noBad : ((captured s.hart.pc n).map (imemWord s.hart)).find?
      (fun w => !capturable w || ((decodeLow w).filter wf).isNone) = none := by
    refine List.find?_eq_none.2 fun w hm => ?_
    obtain ⟨a, ha, rfl⟩ := List.mem_map.1 hm
    obtain ⟨i, hi, hwf⟩ := hw a ha
    simp [hc a ha, hi, Option.filter, hwf]
  unfold execRpt
  simp only [frameAddrs_eq_captured, noFault, noBad]

/-- Settles O12: with the words' fetches, majors and decodings sound, RPT only retires with the new frame. -/
theorem rptBeginsFrame : Obligations.RptBeginsFrame := by
  intro r n d k s hq hw
  have e := execRpt_begins r n d k s (fun a ha => (hw a ha).1) (fun a ha => (hw a ha).2.1) (fun a ha => (hw a ha).2.2)
  rw [retired_quiet [] false hq (by exact hq.2) (by rfl)] at e
  exact ⟨_, e, rfl, rfl, rfl, rfl, ⟨rfl, rfl⟩, rfl, fun _ => rfl⟩

end Sys2Proof.Machine
end

section
/-! PROOFS. The mask instructions (R120, R127). -/

namespace Sys2Proof.Machine

/-- The population count, bit by bit. -/
theorem popN_eq_length_filter (w n : Nat) : popN w n = ((List.range w).filter fun i => n.testBit i).length := by
  induction w generalizing n with
  | zero => rfl
  | succ w ih =>
    have rest : ((List.range w).map Nat.succ).filter (fun i => n.testBit i) =
        ((List.range w).filter fun i => (n / 2).testBit i).map Nat.succ := by
      simp [List.filter_map, Function.comp_def, Nat.testBit_succ]
    rw [popN, ih, List.range_succ_eq_map, List.filter_cons, rest, Nat.testBit_zero]
    rcases Nat.mod_two_eq_zero_or_one n with h | h <;> simp [h, Nat.add_comm]

/-- The count of trailing zeros, bit by bit. -/
theorem ctzN_eq_length_takeWhile (w n : Nat) : ctzN w n = ((List.range w).takeWhile fun i => !n.testBit i).length := by
  induction w generalizing n with
  | zero => rfl
  | succ w ih =>
    have rest : ((List.range w).map Nat.succ).takeWhile (fun i => !n.testBit i) =
        ((List.range w).takeWhile fun i => !(n / 2).testBit i).map Nat.succ := by
      simp [List.takeWhile_map, Function.comp_def, Nat.testBit_succ]
    rw [ctzN, ih, List.range_succ_eq_map, List.takeWhile_cons, rest, Nat.testBit_zero]
    rcases Nat.mod_two_eq_zero_or_one n with h | h <;> simp [h, Nat.add_comm]

/-- What an instruction that writes a mask does in a quiet state (R75, R120). -/
theorem maskWrite_completes {s : State} {d : MSel} (v : MWord) (hd : d ≠ 0) (hq : Quiet s) :
    ∃ t, maskWrite d v s = .next t ∧ (∀ q, kr t q = if q = d then v else kr s q) ∧ CoreFrame s t ∧ OldHeld s t ∧ FlowsOn s t ∧
      t.hart.ar = s.hart.ar ∧ t.hart.regs = { s.hart.regs with k := t.hart.regs.k } := by
  have only : RegsOnly s (setK d v s) := (RegsOnly.refl s).setK d v
  refine ⟨_, only.finish _ hq, fun q => ?_, only.coreFrame, only.oldHeld, only.flowsOn, ?_, ?_⟩
  · have hk : q = d ∧ q ≠ 0 ↔ q = d := ⟨And.left, fun e => ⟨e, e ▸ hd⟩⟩
    rw [kr_wentOn, kr_setK]
    simp only [hk]
  · rw [wentOn_ar, setK_ar]
  · obtain ⟨k, e⟩ := setK_only d v s
    rw [wentOn_regs, e]

/-- The instructions of `maskResult` write their mask (R120). -/
theorem exec_maskResult {i : Instr} {d : MSel} {v : MWord} {s : State} (h : maskResult s i = some (d, v)) :
    exec i s = maskWrite d v s := by
  unfold maskResult at h
  split at h
  case h_7 => cases h
  all_goals
    obtain ⟨rfl, rfl⟩ := Prod.mk.inj (Option.some.inj h)
    rfl

/-- The instructions of `maskScalar` write their scalar register (R120, R127). -/
theorem exec_maskScalar {i : Instr} {d : Reg} {v : Word} {s : State} (h : maskScalar s i = some (d, v)) :
    exec i s = finish s [d.toNat] (setX d v s) := by
  unfold maskScalar at h
  split at h
  -- MPOPC
  case h_1 d a =>
    obtain ⟨rfl, rfl⟩ := Prod.mk.inj (Option.some.inj h)
    change finish s [d.toNat] (setX d (wordOf (popN 128 (kr s a).toNat)) s) = _
    rw [popN_eq_length_filter]
    rfl
  -- MFIRST
  case h_2 d a =>
    obtain ⟨rfl, rfl⟩ := Prod.mk.inj (Option.some.inj h)
    change finish s [d.toNat] (setX d (wordOf (ctzN 128 (kr s a).toNat)) s) = _
    rw [ctzN_eq_length_takeWhile]
    rfl
  case h_5 => cases h
  all_goals
    obtain ⟨rfl, rfl⟩ := Prod.mk.inj (Option.some.inj h)
    rfl

/-- Settles O23: each mask instruction is one register write, and a register write completes. -/
theorem maskInstructionsComplete : Obligations.MaskInstructionsComplete := by
  refine ⟨fun i d v s h hd hq => ?_, fun i d v s h hq => ?_⟩
  · rw [exec_maskResult h]
    exact maskWrite_completes v hd hq
  · rw [exec_maskScalar h]
    exact setX_completes [d.toNat] d v hq

end Sys2Proof.Machine
end

section
/-! PROOFS. The lanes of vectors, and the vector instructions that work on them (R98, R103 to R119, R128). -/

namespace Sys2Proof.Machine

/-! ## Vector names -/

/-- No name of an allotted list is refused (R100). -/
theorem firstRefused_of_allotted {s : State} {l : List VReg} (h : Allotted s l) : firstRefused s l = none := by
  induction l with
  | nil => rfl
  | cons r rs ih =>
    rw [firstRefused, if_neg (by simp [h r (by simp)]), ih fun x hx => h x (by simp [hx])]

/-- With every name within the allotment, an instruction goes on past the check of R43. -/
theorem withRegs_of_allotted {s : State} {l : List VReg} (w : IWord) (h : Allotted s l) (k : Unit → Out) :
    withRegs w l s k = k () := by
  unfold withRegs
  rw [firstRefused_of_allotted h]

/-! ## Lanes -/

theorem lanesNat_lt (w : Nat) (l : List Nat) : lanesNat w l < 2 ^ (w * l.length) := by
  induction l with
  | nil => simp [lanesNat]
  | cons x r ih =>
    have hx : x % 2 ^ w < 2 ^ w := Nat.mod_lt _ (Nat.two_pow_pos w)
    calc lanesNat w (x :: r) < 2 ^ w + 2 ^ w * lanesNat w r := Nat.add_lt_add_right hx _
      _ = 2 ^ w * (lanesNat w r + 1) := by ring
      _ ≤ 2 ^ w * 2 ^ (w * r.length) := Nat.mul_le_mul_left _ ih
      _ = 2 ^ (w * (x :: r).length) := by rw [← pow_add, List.length_cons]; congr 1; ring

/-- Lanes that fit into a bit vector lose nothing there. -/
theorem toNat_ofNat_lanesNat {w m : Nat} {l : List Nat} (h : w * l.length ≤ m) :
    (BitVec.ofNat m (lanesNat w l)).toNat = lanesNat w l := by
  rw [BitVec.toNat_ofNat]
  exact Nat.mod_eq_of_lt ((lanesNat_lt w l).trans_le (Nat.pow_le_pow_right Nat.two_pos h))

/-- The lanes of the number that lanes make. -/
theorem lanesNat_div_mod (w : Nat) (l : List Nat) (n : Nat) : lanesNat w l / 2 ^ (w * n) % 2 ^ w = l.getD n 0 % 2 ^ w := by
  induction l generalizing n with
  | nil => simp [lanesNat]
  | cons x r ih =>
    cases n with
    | zero => simp [lanesNat]
    | succ n =>
      have hx : (x % 2 ^ w + 2 ^ w * lanesNat w r) / 2 ^ w = lanesNat w r := by
        rw [Nat.add_mul_div_left _ _ (Nat.two_pow_pos w), Nat.div_eq_of_lt (Nat.mod_lt _ (Nat.two_pow_pos w)), Nat.zero_add]
      rw [lanesNat, Nat.mul_succ, Nat.add_comm (w * n), pow_add, ← Nat.div_div_eq_div_mul, hx, ih, List.getD_cons_succ]

/-- A vector made of lanes, read by lane (R98). -/
theorem lane_ofLanes {w : Nat} {l : List Nat} (h : w * l.length ≤ 1024) (n : Nat) : lane (ofLanes w l) w n = l.getD n 0 % 2 ^ w := by
  have fits : (ofLanes w l).toNat = lanesNat w l := toNat_ofNat_lanesNat h
  rw [lane, fits, lanesNat_div_mod]

@[simp] theorem lanesOf_length (v : VWord) (w : Nat) : (lanesOf v w).length = 1024 / w := by simp [lanesOf]

/-- Lane functions that thread nothing leave the accumulator, and compute the governed lanes only (R103.2). -/
theorem laneLoop_plain (k : MWord) (g : Nat → Nat) (old : List Nat) (i : Nat) (c : Acc) :
    laneLoop k (fun i c => (g i, c)) old i c = (old.mapIdx fun j x => if governs k (i + j) then g (i + j) else x, c) := by
  induction old generalizing i with
  | nil => rfl
  | cons x r ih =>
    have shift : ∀ j, i + 1 + j = i + (j + 1) := fun j => by omega
    by_cases h : governs k i <;> simp [laneLoop, h, ih, shift]

/-! ## Lane-wise instructions -/

/-- A vector register written, with the LFSR and the flags that its lanes threaded (R69, R103). -/
def writeLanes (d : VReg) (v : VWord) (c : Acc) (s : State) : State := setFlags c.flags (setLfsr c.lfsr (setV d v s))

theorem RegsOnly.writeLanes {s u : State} (h : RegsOnly s u) (d : VReg) (v : VWord) (c : Acc) :
    RegsOnly s (writeLanes d v c u) := ((h.setV d v).setLfsr c.lfsr).setFlags c.flags

theorem writeLanes_ar (d : VReg) (v : VWord) (c : Acc) (s : State) : (writeLanes d v c s).hart.ar =
    { s.hart.ar with fflags := s.hart.ar.fflags ||| BitVec.ofNat 6 c.flags, lfsr := c.lfsr } := by
  rw [← setV_ar d v s]
  rfl

theorem vr_writeLanes (d : VReg) (v : VWord) (c : Acc) (s : State) (r : VReg) :
    vr (writeLanes d v c s) r = if r = d then v else vr s r := vr_setV s d r v

/-- What an instruction that writes a vector register, the LFSR and the flags leaves, retired (R103). -/
theorem vectorFrame_writeLanes (d : VReg) (v : VWord) (c : Acc) (s : State) : VectorFrame s (wentOn s (writeLanes d v c s)) d := by
  have only := (RegsOnly.refl s).writeLanes d v c
  refine ⟨only.coreFrame, only.oldHeld, only.flowsOn, fun r hr => ?_, ?_, ?_⟩
  · rw [vr_wentOn, vr_writeLanes, if_neg hr]
  · rw [wentOn_ar, writeLanes_ar]
  · obtain ⟨x, vsh, e⟩ := setV_only d v s
    have files : (writeLanes d v c s).hart.regs = { s.hart.regs with v := x, vsh := vsh } := by
      change (setV d v s).hart.regs = _
      rw [e]
    rw [wentOn_regs, files]

section
variable {d : VReg} {a b : Src} {t : Ty} {q : MSel} {s : State}

/-- A lane-wise instruction completes in a quiet state with its names within the allotment (R75, R103). -/
theorem vrOp_quiet (w : IWord) (f : Nat → Nat → Nat → Acc → Nat × Acc) (ha : Allotted s (d :: srcRegs [a, b])) (hq : Quiet s) :
    vrOp w d a b t q f s =
      .next (wentOn s (writeLanes d (ofLanes t.width (lanesDrawn s d t q a b f).1) (lanesDrawn s d t q a b f).2 s)) := by
  unfold vrOp
  rw [withRegs_of_allotted w ha]
  exact ((RegsOnly.refl s).writeLanes d _ _).finish _ hq

/-- The lanes of an instruction that sets no flag and draws no value (R103). -/
theorem lanesDrawn_plain (f : Nat → Nat → Nat → Nat) : lanesDrawn s d t q a b (plain f) =
    ((lanesOf (vr s d) t.width).mapIdx fun i x => if governs (kr s q) i then
      f ((lanesOf (vr s d) t.width).getD i 0) ((srcLanes s t a).getD i 0) ((srcLanes s t b).getD i 0) else x, accOf s) := by
  refine (laneLoop_plain (kr s q) (fun i => f _ _ _) _ 0 _).trans ?_
  simp only [Nat.zero_add]
  rfl

/-- A lane-wise instruction that sets no flag and draws no value leaves the flags and the LFSR. -/
theorem writeLanes_accOf_ar (v : VWord) : (writeLanes d v (accOf s) s).hart.ar = s.hart.ar := by
  simp [writeLanes_ar, accOf]

/-- A governed lane holds its function of the old lane and the source lanes, any other its old value (R103). -/
theorem lane_lanesDrawn_plain (f : Nat → Nat → Nat → Nat) {n : Nat} (hn : n < 1024 / t.width) :
    lane (ofLanes t.width (lanesDrawn s d t q a b (plain f)).1) t.width n =
      if (kr s q).getLsbD n then
        f (lane (vr s d) t.width n) ((srcLanes s t a).getD n 0) ((srcLanes s t b).getD n 0) % 2 ^ t.width
      else lane (vr s d) t.width n := by
  have fits : t.width * (lanesDrawn s d t q a b (plain f)).1.length ≤ 1024 := by
    rw [lanesDrawn_plain, List.length_mapIdx, lanesOf_length]
    exact Nat.mul_div_le 1024 t.width
  have old : (lanesOf (vr s d) t.width)[n]? = some (lane (vr s d) t.width n) := by simp [lanesOf, hn]
  have bound : lane (vr s d) t.width n % 2 ^ t.width = lane (vr s d) t.width n := Nat.mod_mod _ _
  rw [lane_ofLanes fits, lanesDrawn_plain]
  simp only [List.getD_eq_getElem?_getD, List.getElem?_mapIdx, old, Option.map_some, Option.getD_some, governs]
  split <;> [rfl; exact bound]

/-- What a lane-wise instruction that sets no flag and draws no value does in a quiet state (R103). -/
theorem vrOp_plain_completes (w : IWord) (f : Nat → Nat → Nat → Nat) (ha : Allotted s (d :: srcRegs [a, b])) (hq : Quiet s) :
    ∃ u, vrOp w d a b t q (plain f) s = .next u ∧ VectorFrame s u d ∧ u.hart.ar = s.hart.ar ∧
      ∀ n, n < 1024 / t.width → lane (vr u d) t.width n =
        if (kr s q).getLsbD n then
          f (lane (vr s d) t.width n) ((srcLanes s t a).getD n 0) ((srcLanes s t b).getD n 0) % 2 ^ t.width
        else lane (vr s d) t.width n := by
  have acc : (lanesDrawn s d t q a b (plain f)).2 = accOf s := by rw [lanesDrawn_plain]
  refine ⟨_, vrOp_quiet w (plain f) ha hq, vectorFrame_writeLanes _ _ _ _, ?_, fun n hn => ?_⟩
  · rw [wentOn_ar, acc, writeLanes_accOf_ar]
  · rw [vr_wentOn, vr_writeLanes, if_pos rfl, lane_lanesDrawn_plain f hn]

end

/-- Integer arithmetic of lanes wraps, and sets no flag (R52, R104). -/
theorem arithLane_int {t : Ty} (h : t.isInt = true) (s : State) (fi : Int → Int → Int → Int)
    (ff : RMode → Nat → Nat → Nat → Rounded) :
    arithLane s t fi ff = plain fun z x y => laneWrap t (fi (laneInt t z) (laneInt t x) (laneInt t y)) := by
  funext z x y c
  rw [arithLane, if_pos h]
  rfl

/-- The shifts of lanes, as products and quotients (R54). -/
theorem shlN_eq (w x n : Nat) : shlN w x n = if n < w then x * 2 ^ n % 2 ^ w else 0 := by
  rw [shlN, Nat.shiftLeft_eq]
theorem shrN_eq (w x n : Nat) : shrN w x n = if n < w then x % 2 ^ w / 2 ^ n else 0 := by
  rw [shrN, Nat.shiftRight_eq_div_pow]
theorem sarN_eq (w x n : Nat) : sarN w x n = wrapInt w (toInt true w x / 2 ^ min n (w - 1)) := by
  rw [sarN, Int.shiftRight_eq_div_pow]
  norm_cast

/-- The lane that an index names, and 0 past the lanes (R109). -/
theorem lanesOf_getD (v : VWord) (t : Ty) (n : Nat) : (lanesOf v t.width).getD n 0 = if n < t.lanes then lane v t.width n else 0 := by
  rw [lanesOf, Ty.lanes]
  split <;> simp [*]

/-- Each instruction of `laneInstr` is lane-wise, with its lane function (R103 to R109, R113, R119). -/
theorem exec_laneInstr {i : Instr} {d : VReg} {ty : Ty} {q : MSel} {a b : Src} {f : Nat → Nat → Nat → Nat} {s : State}
    (h : laneInstr s i = some (d, ty, q, a, b, f)) : ∃ w, exec i s = vrOp w d a b ty q (plain f) s := by
  unfold laneInstr at h
  split at h
  -- VADD, VSUB, VMUL, VFMA, VFNMA of an integer type
  case h_1 | h_2 | h_3 | h_4 | h_5 =>
    obtain ⟨hi, h⟩ := Option.ite_none_right_eq_some.1 h
    cases h
    exact ⟨_, congrArg (vrOp _ d a b ty q · s) (arithLane_int hi s _ _)⟩
  -- VSHL, VSHR, VSAR
  case h_13 =>
    cases h
    exact ⟨_, congrArg (vrOp _ d a b ty q · s) (congrArg plain (funext₃ fun _ x y => shlN_eq ty.width x (y % 256)))⟩
  case h_14 =>
    cases h
    exact ⟨_, congrArg (vrOp _ d a b ty q · s) (congrArg plain (funext₃ fun _ x y => shrN_eq ty.width x (y % 256)))⟩
  case h_15 =>
    cases h
    exact ⟨_, congrArg (vrOp _ d a b ty q · s) (congrArg plain (funext₃ fun _ x y => sarN_eq ty.width x (y % 256)))⟩
  -- VPERM
  case h_18 a _ _ _ =>
    cases h
    exact ⟨_, congrArg (vrOp _ d (.v a) b ty q · s) (congrArg plain (funext₃ fun _ _ y => lanesOf_getD (vr s a) ty (y % 256)))⟩
  -- no lane-wise instruction
  case h_28 => cases h
  -- the others, by their definitions
  all_goals
    cases h
    exact ⟨_, rfl⟩

/-- Settles O17: each instruction is lane-wise with its function, and lane-wise instructions complete. -/
theorem laneInstructionsComplete : Obligations.LaneInstructionsComplete := by
  intro i d ty q a b f s h ha hq
  obtain ⟨w, e⟩ := exec_laneInstr h
  rw [e]
  exact vrOp_plain_completes w f ha hq

/-! ## Compare, select, convert, compact, expand and lane access -/

/-- The instructions of `vectorMove` check their names, then end with their effect, which is on register files only (R106, R107,
R110 to R112, R116, R128). -/
theorem exec_vectorMove {i : Instr} {names : List VReg} {s u : State} (h : vectorMove s i = some (names, u)) :
    RegsOnly s u ∧ ∃ w regs, exec i s = withRegs w names s fun _ => finish s regs u := by
  have same := RegsOnly.refl s
  unfold vectorMove at h
  split at h
  -- VCMP
  case h_1 =>
    cases h
    exact ⟨same.setK _ _, _, _, rfl⟩
  -- VSEL, VCOMPACT, VEXPAND, VINS
  case h_2 | h_4 | h_5 | h_7 =>
    cases h
    exact ⟨same.setV _ _, _, _, rfl⟩
  -- VCVT
  case h_3 =>
    cases h
    exact ⟨same.writeLanes _ _ _, _, _, rfl⟩
  -- VEXT
  case h_6 =>
    cases h
    exact ⟨same.setX _ _, _, _, rfl⟩
  -- any other instruction
  case h_8 => cases h

/-- Settles O21: each instruction ends with its effect, and an effect on register files leaves the rest. -/
theorem vectorMovesComplete : Obligations.VectorMovesComplete := by
  intro i names u s h ha hq
  obtain ⟨only, w, regs, e⟩ := exec_vectorMove h
  have bytes := only.coreFrame.2
  have done := e.trans ((withRegs_of_allotted w ha _).trans (only.finish regs hq))
  obtain ⟨r, a, rfl, -⟩ := only
  exact ⟨done, rfl, rfl, rfl, rfl, rfl, bytes⟩

end Sys2Proof.Machine
end

section
/-! SUPPORT. What keeps a state quiet while an instruction writes memory: no context changes its mode on the way (R385, R400). -/

namespace Sys2Proof.Machine

/-- What is found where every entry with the property changes, and the one that is found keeps it. -/
theorem find?_modWhere_self {α : Type} {p : α → Bool} {f : α → α} {l : List α}
    (hf : ∀ c, l.find? p = some c → p (f c) = true) :
    (modWhere p f l).find? p = (l.find? p).map f := by
  induction l with
  | nil => rfl
  | cons c r ih =>
    unfold modWhere at ih ⊢
    by_cases hc : p c = true
    · have hk : p (f c) = true := hf c (List.find?_cons_of_pos hc)
      rw [List.map_cons, if_pos hc, List.find?_cons_of_pos hk, List.find?_cons_of_pos hc, Option.map_some]
    · rw [List.find?_cons_of_neg hc] at hf ⊢
      rw [List.map_cons, if_neg hc, List.find?_cons_of_neg hc, ih hf]

/-- What is found where the entries that change have not the property sought, before or after. -/
theorem find?_modWhere_other {α : Type} {p k : α → Bool} {f : α → α} {l : List α} (hk : ∀ c, p c = true → ¬ k c = true)
    (hf : ∀ c, p c = true → ¬ k (f c) = true) : (modWhere p f l).find? k = l.find? k := by
  induction l with
  | nil => rfl
  | cons c r ih =>
    unfold modWhere at ih ⊢
    rw [List.map_cons]
    by_cases hc : p c = true
    · rw [if_pos hc, List.find?_cons_of_neg (hf c hc), List.find?_cons_of_neg (hk c hc), ih]
    · rw [if_neg hc, List.find?_cons, List.find?_cons, ih]

/-- A context changed, and found under its number if it keeps it and stays alive (R16, R378). -/
theorem ctxOf_onCtx_self {n : Nat} {f : Context → Context} {s : State}
    (hf : ∀ c, ctxOf s.dev n = some c → (f c).num = n ∧ (f c).state ≠ .dead) :
    ctxOf (onCtx n f s).dev n = (ctxOf s.dev n).map f :=
  find?_modWhere_self fun c hc => by simpa using hf c hc

/-- A context changed that keeps its number leaves what other numbers find. -/
theorem ctxOf_onCtx_ne {n m : Nat} (hm : m ≠ n) {f : Context → Context} {s : State} (hf : ∀ c, c.num = n → (f c).num = n) :
    ctxOf (onCtx n f s).dev m = ctxOf s.dev m := by
  have num : ∀ c : Context, (c.num == n && c.state != .dead) = true → c.num = n := fun c h => by simp_all
  exact find?_modWhere_other (fun c h => by simp [num c h, hm.symm]) fun c h => by simp [hf c (num c h), hm.symm]

theorem num_of_ctxOf {d : Device} {n : Nat} {c : Context} (h : ctxOf d n = some c) : c.num = n := by
  have := List.find?_some h
  simp_all

theorem live_of_ctxOf {d : Device} {n : Nat} {c : Context} (h : ctxOf d n = some c) : c.state ≠ .dead := by
  have := List.find?_some h
  simp_all

/-! ## The log and the contexts -/

/-- Freeing log entries changes the log of a context only (R391). -/
theorem dropOldest_same (s : State) (need : Nat) (l : List LogEntry) (c : Context) :
    (dropOldest s need l c).num = c.num ∧ (dropOldest s need l c).mode = c.mode ∧ (dropOldest s need l c).state = c.state := by
  induction l generalizing c with
  | nil => exact ⟨rfl, rfl, rfl⟩
  | cons e r ih =>
    unfold dropOldest
    split
    · exact ⟨rfl, rfl, rfl⟩
    · split
      · exact ih c
      · exact ih _

theorem putPage_ctxs (d : Device) (n va : Nat) (bs : List Byte) : (putPage d n va bs).ctxs = d.ctxs := by
  unfold putPage
  split <;> [exact rawPut_ctxs _ _ _; rfl]

theorem putVa_ctxs (d : Device) (n va : Nat) (bs : List Byte) : (putVa d n va bs).ctxs = d.ctxs := by
  rw [putVa, putPage_ctxs, putPage_ctxs]

/-- Moving HEAD changes the log of a context only (R387). -/
theorem logAdvance_same (p : Prop) [Decidable p] (c : Context) : (if p then logAdvance c else c).num = c.num ∧
    (if p then logAdvance c else c).mode = c.mode ∧ (if p then logAdvance c else c).state = c.state := by
  split <;> exact ⟨rfl, rfl, rfl⟩

/-- A message's tag freed, if its kind carries one (R279). -/
theorem freeTag_eq (m : Msg) (h : Hart) :
    freeTag m h = { h with tags := if tagKind m.kind then h.tags.erase m.tag else h.tags } := by
  unfold freeTag
  split <;> rfl

/-! ## What keeps a state quiet -/

/-- `u` is as quiet as `s`: the core has the same context and Step trap, and every context has the mode it had (R385, R400). -/
def SameMode (s u : State) : Prop :=
  u.hart.ar.ctx = s.hart.ar.ctx ∧ u.hart.dbg.trapStep = s.hart.dbg.trapStep ∧
  ∀ n, (ctxOf u.dev n).map (·.mode) = (ctxOf s.dev n).map (·.mode)

namespace SameMode

theorem refl (s : State) : SameMode s s := ⟨rfl, rfl, fun _ => rfl⟩

theorem trans {s u v : State} (h : SameMode s u) (k : SameMode u v) : SameMode s v :=
  ⟨k.1.trans h.1, k.2.1.trans h.2.1, fun n => (k.2.2 n).trans (h.2.2 n)⟩

/-- A quiet state's instruction ends as it should from any state that is as quiet. -/
theorem finish {s u : State} (h : SameMode s u) (regs : List Nat) (hq : Quiet s) : finish s regs u = .next (wentOn s u) := by
  obtain ⟨hc, ht, hm⟩ := h
  refine finish_quiet regs hq (fun c hu => ?_) ht
  have e := hm s.hart.ar.ctx
  rw [curCtx, hc] at hu
  rw [hu, Option.map_some] at e
  obtain ⟨k, hk, hkm⟩ := Option.map_eq_some_iff.1 e.symm
  exact hkm ▸ hq.2 k hk

theorem onHart {f : Hart → Hart} {s : State} (hc : (f s.hart).ar.ctx = s.hart.ar.ctx)
    (ht : (f s.hart).dbg.trapStep = s.hart.dbg.trapStep) : SameMode s (onHart f s) := ⟨hc, ht, fun _ => rfl⟩

theorem onClu (f : Cluster → Cluster) (s : State) : SameMode s (onClu f s) := refl s

theorem of_ctxs {s u : State} (hh : u.hart = s.hart) (hd : u.dev.ctxs = s.dev.ctxs) : SameMode s u := by
  refine ⟨by rw [hh], by rw [hh], fun n => ?_⟩
  unfold ctxOf
  rw [hd]

theorem of_dev {s : State} {d : Device} (hd : d.ctxs = s.dev.ctxs) : SameMode s { s with dev := d } := of_ctxs rfl hd

theorem onCtx {n : Nat} {f : Context → Context} {s : State} (hn : ∀ c, c.num = n → (f c).num = n)
    (hf : ∀ c, ctxOf s.dev n = some c → (f c).mode = c.mode ∧ (f c).state ≠ .dead) : SameMode s (onCtx n f s) := by
  refine ⟨rfl, rfl, fun m => ?_⟩
  by_cases hm : m = n
  · subst hm
    rw [ctxOf_onCtx_self fun c hc => ⟨hn c (num_of_ctxOf hc), (hf c hc).2⟩, Option.map_map]
    exact Option.map_congr fun c hc => (hf c hc).1
  · rw [ctxOf_onCtx_ne hm hn]

theorem of_ite {s u v : State} {p : Prop} [Decidable p] (h : SameMode s u) (k : SameMode s v) : SameMode s (if p then u else v) := by
  split <;> assumption

theorem onCtx_same {n : Nat} {f : Context → Context} {s : State}
    (hf : ∀ c, (f c).num = c.num ∧ (f c).mode = c.mode ∧ (f c).state = c.state) : SameMode s (Machine.onCtx n f s) :=
  onCtx (fun c hc => (hf c).1.trans hc) fun c hc => ⟨(hf c).2.1, (hf c).2.2 ▸ live_of_ctxOf hc⟩

theorem passTime (s : State) : SameMode s (passTime s) := of_ctxs rfl rfl

/-! ### The log -/

theorem freeOldest (need : Nat) (s : State) : SameMode s (freeOldest need s) := by
  unfold Machine.freeOldest
  split
  · next c hc =>
    obtain ⟨hn, hm, hs⟩ := dropOldest_same s need c.log c
    split
    · refine onCtx (fun _ _ => hn.trans (num_of_ctxOf hc)) fun k hk => ?_
      cases (show curCtx s = some k from hk).symm.trans hc
      exact ⟨hm, hs ▸ live_of_ctxOf hc⟩
    · exact refl s
  · exact refl s

theorem reserveLog {need : Nat} {s w : State} (h : reserveLog need s = some w) : SameMode s w := by
  unfold Machine.reserveLog at h
  split at h
  · cases h; exact refl s
  · split at h
    · cases h; exact refl s
    · split at h
      · cases h; exact refl s
      · dsimp only at h
        split at h
        · split at h
          · cases h; exact freeOldest need s
          · cases h
        · cases h

theorem logAppend (n : Nat) (e : LogEntry) (s : State) : SameMode s (logAppend n e s) := by
  unfold Machine.logAppend
  split
  · exact refl s
  · refine trans (of_dev ?_) (onCtx_same fun c => ?_)
    · rw [putVa_ctxs, apply_ite Device.ctxs, putVa_ctxs, ite_self]
    · exact logAdvance_same _ _

theorem countLog (core : Nat) (s : State) : SameMode s (countLog core s) := by
  unfold Machine.countLog
  split <;> [exact onHart rfl rfl; exact refl s]

theorem logWrite (o : Origin) (kind : Nat) (eng : Bool) (va : Word) (l : Loc) (old : List Byte) (s : State) :
    SameMode s (logWrite o kind eng va l old s) := by
  unfold Machine.logWrite logWriteAt
  split <;> [exact (logAppend _ _ _).trans (countLog _ _); exact refl s]

/-! ### Stops and watchpoints -/

theorem stopHart (why : Nat) (s : State) : SameMode s (stopHart why s) := by
  unfold Machine.stopHart
  split <;> [exact (passTime s).trans (onHart rfl rfl); exact refl s]

theorem gangStop (n why : Nat) (s : State) : SameMode s (gangStop n why s) := by
  unfold Machine.gangStop
  split
  · exact refl s
  · split
    · exact refl s
    · have stopped : SameMode s (Machine.onCtx n (ctxStopped s.dev.time why) s) :=
        onCtx (fun _ h => h) fun _ _ => ⟨rfl, nofun⟩
      dsimp only
      split <;> [exact stopped.trans (stopHart _ _); exact stopped]

theorem stopSet (n : Nat) (scope : Bool) (s : State) : SameMode s (stopSet n scope s) := by
  unfold Machine.stopSet
  split <;> [exact gangStop _ _ _; exact stopHart _ _]

theorem watchStop (n : Nat) (w : Watch) (a : WatchAccess) (mine here : Bool) (s : State) :
    SameMode s (watchStop n w a mine here s) := by
  have role : SameMode s (if s.hart.dbg.stop.isNone then
      Machine.onHart (fun h => { h with dbg := { h.dbg with role := if mine then 1 else 0 } }) s else s) :=
    of_ite (onHart rfl rfl) (refl s)
  unfold Machine.watchStop
  refine of_ite (onHart rfl rfl) (of_ite ?_ role)
  exact role.trans (stopSet _ _ _)

theorem watchAccess (n : Nat) (a : WatchAccess) (icount : Word) (s : State) : SameMode s (watchAccess n a icount s) := by
  unfold Machine.watchAccess
  split
  · exact refl s
  · split
    · exact refl s
    · split
      · exact refl s
      · extract_lets t lowest addr trig u mine here
        have noted : SameMode s u := (passTime s).trans (onCtx_same fun _ => ⟨rfl, rfl, rfl⟩)
        clear_value u
        exact of_ite (noted.trans (watchStop _ _ _ _ _ _)) (of_ite (noted.trans (onHart rfl rfl)) noted)

/-! ### A message taken -/

/-- A write of the core to local scratch (R139, R386): no context's interval lines lie there. -/
theorem performWrite_ls (o : Origin) (kind : Nat) (va : Word) (core off : Nat) (bs : List Byte) (s : State) :
    SameMode s (performWrite o kind va ⟨.ls core, off⟩ bs s) := by
  have put : ∀ u, SameMode u (homePut ⟨.ls core, off⟩ bs u) := fun u => of_dev (rawPut_ctxs _ _ _)
  exact ((logWrite _ _ _ _ _ _ s).trans (put _)).trans (watchAccess _ _ _ _)

theorem acquireLine (s : State) (l : Loc) : SameMode s (acquireLine s l) := by
  have dropped : SameMode s (Machine.onHart (l1Drop l 1) s) := onHart rfl rfl
  unfold Machine.acquireLine
  dsimp only
  split
  · split
    · exact dropped
    · split <;> exact dropped.trans (onClu _ _)
  · exact dropped

theorem acquireWrote (ls : List Loc) (s : State) : SameMode s (acquireWrote ls s) :=
  foldl_kept (P := SameMode s) (fun u l h => h.trans (acquireLine u l)) ls (refl s)

theorem setX (d : Reg) (v : Word) (s : State) : SameMode s (setX d v s) := by
  obtain ⟨x, xsh, e⟩ := setX_only d v s
  rw [e]
  exact refl _

theorem takeMsg (m : Msg) (a : Reg) (s : State) : SameMode s (takeMsg m a s) := by
  unfold Machine.takeMsg
  dsimp only
  refine SameMode.trans ?_ (onHart (by rw [freeTag_eq]) (by rw [freeTag_eq]))
  split <;> [exact acquireWrote _ _; exact (acquireWrote _ _).trans (performWrite_ls _ _ _ _ _ _ _)]

theorem markEffect (s : State) : SameMode s (markEffect s) := onHart rfl rfl

end SameMode

end Sys2Proof.Machine
end

section
/-! PROOFS. The inbox (R201 to R205). -/

namespace Sys2Proof.Machine

/-- A field above another is added to it. -/
theorem or_shiftLeft_eq_add {x n : Nat} (h : x < 2 ^ n) (y : Nat) : x ||| y <<< n = x + y * 2 ^ n := by
  rw [Nat.or_comm, ← Nat.shiftLeft_add_eq_or_of_lt h, Nat.shiftLeft_eq, Nat.add_comm]

/-- The header's fields lie side by side (R26, R201). -/
theorem msgHeader_eq_headerOf (m : Msg) : msgHeader m = headerOf m := by
  have ht := m.tag.isLt
  have hs := m.status.isLt
  have hk := m.kind.isLt
  have hc := m.count.isLt
  have fits : ∀ {v k n : Nat}, v < 2 ^ k → k + n ≤ 64 → v <<< n % 2 ^ 64 = v <<< n := by
    intro v k n hv hn
    refine Nat.mod_eq_of_lt ?_
    rw [Nat.shiftLeft_eq]
    calc v * 2 ^ n < 2 ^ k * 2 ^ n := Nat.mul_lt_mul_of_pos_right hv (Nat.two_pow_pos n)
      _ ≤ 2 ^ 64 := by rw [← pow_add]; exact Nat.pow_le_pow_right Nat.two_pos hn
  refine BitVec.eq_of_toNat_eq ?_
  have wide : ∀ {k : Nat} (v : BitVec k), k ≤ 64 → (v.setWidth 64).toNat = v.toNat := fun v hk => by
    rw [BitVec.toNat_setWidth]
    exact Nat.mod_eq_of_lt (v.isLt.trans_le (Nat.pow_le_pow_right Nat.two_pos hk))
  simp only [msgHeader, headerOf, wordOf, BitVec.toNat_or, BitVec.toNat_shiftLeft, wide _ (by decide : 8 ≤ 64),
    wide _ (by decide : 32 ≤ 64), fits hs (by decide : 8 + 8 ≤ 64), fits hk (by decide : 8 + 16 ≤ 64),
    fits hc (by decide : 32 + 32 ≤ 64), BitVec.toNat_ofNat]
  rw [or_shiftLeft_eq_add ht, or_shiftLeft_eq_add (n := 16) (by omega), or_shiftLeft_eq_add (n := 32) (by omega)]
  omega

/-- INRECV whose checks hold blocks on an empty inbox (R204). -/
theorem execInrecv_empty {d a : Reg} {s : State} (hc : inrecvCheck s a = .ok ()) (hi : s.hart.inbox = []) :
    execInrecv d a s = .next s := by
  rw [execInrecv, hc, afterChecks, hi]
  rfl

/-- INRECV whose checks hold takes the oldest message, once the log has the space it needs (R203, R204). -/
theorem execInrecv_takes {d a : Reg} {m : Msg} {r : List Msg} {s w : State} (hc : inrecvCheck s a = .ok ())
    (hi : s.hart.inbox = m :: r)
    (hl : reserveLog (if a = 0 then 0 else storeNeed s (.store (List.replicate 16 0) .normal) (lsLoc s 0)) s = some w)
    (hq : Quiet s) :
    execInrecv d a s = .next (wentOn s (markEffect (setX d (headerOf m) (takeMsg m a w)))) := by
  have same : SameMode s (markEffect (setX d (headerOf m) (takeMsg m a w))) :=
    (((SameMode.reserveLog hl).trans (.takeMsg m a w)).trans (.setX d _ _)).trans (.markEffect _)
  rw [execInrecv, hc, afterChecks, hi]
  simp only [withLog, hl, msgHeader_eq_headerOf]
  exact same.finish _ hq

/-- INRECV whose check fails traps (R204). -/
theorem execInrecv_refused {d a : Reg} {e : Refuse} {s : State} (hc : inrecvCheck s a = .error e) : execInrecv d a s = trapOf e s := by
  rw [execInrecv, hc, afterChecks]

theorem inrecvCheck_zero (s : State) : inrecvCheck s 0 = .ok () := rfl

/-- The checks of INRECV in their order: the alignment, then the bounds of LS (R204). -/
theorem inrecvCheck_of_ne {s : State} {a : Reg} (ha : a ≠ 0) : inrecvCheck s a =
    if (xr s a).toNat % 16 ≠ 0 then .error (.misaligned, xr s a, 0)
    else if 0x20000 ≤ (xr s a).toNat + 15 then .error (.protection, xr s a, 0) else .ok () := by
  rw [inrecvCheck, if_neg ha]
  by_cases h : (xr s a).toNat % 16 = 0 <;> by_cases k : 0x20000 ≤ (xr s a).toNat + 15 <;>
    simp [check, h, k, Bind.bind, Except.bind]

/-- A message taken that wrote nothing, with no LS address: the core's inbox, count and tags change only (R203, R204, R279). -/
theorem takeMsg_zero {m : Msg} (hw : m.wrote = []) (s : State) : takeMsg m 0 s = { s with hart := { s.hart with
    inbox := s.hart.inbox.tail, recv := s.hart.recv + 1
    tags := if tagKind m.kind then s.hart.tags.erase m.tag else s.hart.tags } } := by
  unfold takeMsg
  rw [hw]
  simp only [onHart, freeTag_eq]
  rfl

/-- What a message taken with no LS address leaves, retired (R203, R204, R279). -/
theorem taken_retired {m : Msg} {r : List Msg} {s : State} (hi : s.hart.inbox = m :: r) (hw : m.wrote = []) (d : Reg) (v : Word) :
    let t := wentOn s (markEffect (setX d v (takeMsg m 0 s)))
    WritesX s t d v ∧ t.hart.inbox = r ∧ t.hart.recv = s.hart.recv + 1 ∧ t.hart.ar = s.hart.ar ∧ t.dev = s.dev ∧ t.clu = s.clu ∧
      FlowsOn s t ∧ t.hart.tags = if tagKind m.kind then s.hart.tags.erase m.tag else s.hart.tags := by
  have writes : WritesX s (wentOn s (markEffect (setX d v (takeMsg m 0 s)))) d v := fun x => by
    rw [xr_wentOn, takeMsg_zero hw]
    exact xr_setX _ d x v
  have flow : FlowsOn s (wentOn s (markEffect (setX d v (takeMsg m 0 s)))) := by
    refine flowsOn_wentOn ?_ ?_ <;> simp only [markEffect, onHart_hart, setX_pc, setX_frame, takeMsg_zero hw]
  refine ⟨writes, ?_, ?_, ?_, ?_, ?_, flow, ?_⟩ <;>
    simp only [wentOn_inbox, wentOn_recv, wentOn_ar, wentOn_dev, wentOn_clu, wentOn_tags, markEffect, onHart_hart, onHart_dev,
      onHart_clu, setX_inbox, setX_recv, setX_tags, setX_ar, setX_dev, setX_clu, takeMsg_zero hw, hi, List.tail_cons]

/-- INPEEK of an empty inbox writes all ones (R205). -/
theorem execInpeek_nil (d : Reg) {s : State} (hi : s.hart.inbox = []) :
    execInpeek d s = finish s [d.toNat] (setX d (BitVec.allOnes 64) s) := by
  rw [execInpeek, hi]

/-- INPEEK writes the oldest header (R205). -/
theorem execInpeek_cons (d : Reg) {m : Msg} {r : List Msg} {s : State} (hi : s.hart.inbox = m :: r) :
    execInpeek d s = finish s [d.toNat] (setX d (headerOf m) s) := by
  rw [execInpeek, hi, ← msgHeader_eq_headerOf]

/-- The oldest held message enters an open inbox with the device time (R202). -/
theorem execMessageEnterInbox_open {m : Msg} {r : List Msg} {s : State} (hh : s.clu.hold = m :: r) (ho : inboxOpen s = true) :
    execMessageEnterInbox s = .next (placeMsg m (onClu (fun c => { c with hold := r }) s)) := by
  rw [execMessageEnterInbox, hh]
  exact if_pos ho

/-- Settles O40: what INRECV takes is said once for both forms; INPEEK and INCOUNT write one register. -/
theorem inboxInstructionsComplete : Obligations.InboxInstructionsComplete := by
  refine ⟨fun d m r s hi hw hq => ?_, fun d a m r s w hi ha hal hin hr hq => ?_, fun d a s hi hc => ?_, fun d a s ha hal => ?_,
    fun d a s ha hal hin => ?_, fun d s hq => ?_, fun d s hq => ?_, fun m r s hh hlen hst => ?_⟩
  · exact ⟨_, execInrecv_takes (inrecvCheck_zero s) hi rfl hq, taken_retired hi hw d (headerOf m)⟩
  · refine execInrecv_takes ?_ hi (by rwa [if_neg ha]) hq
    rw [inrecvCheck_of_ne ha, if_neg (by omega), if_neg (by omega)]
  · exact execInrecv_empty hc hi
  · refine execInrecv_refused (e := (.misaligned, xr s a, 0)) ?_
    rw [inrecvCheck_of_ne ha, if_pos hal]
  · refine execInrecv_refused (e := (.protection, xr s a, 0)) ?_
    rw [inrecvCheck_of_ne ha, if_neg (by omega), if_pos hin]
  · cases hi : s.hart.inbox with
    | nil => exact exec_setX_completes (i := .inpeek d) (execInpeek_nil d hi) hq
    | cons m r => exact exec_setX_completes (i := .inpeek d) (execInpeek_cons d hi) hq
  · exact exec_setX_completes (i := .incount d) (regs := [d.toNat]) rfl hq
  · refine ⟨_, execMessageEnterInbox_open hh ?_, rfl, rfl, rfl, rfl⟩
    simp [inboxOpen, inboxSize, hh, hlen, hst]

end Sys2Proof.Machine
end

section
/-! PROOFS. Reset, the control and status registers, and the stochastic rounding (R63 to R70, R80, R359, R383, R390). -/

namespace Sys2Proof.Machine

/-! ## Reset -/

/-- Reset has no context, so its memories are in canonical form with those of the machine (R434; log 2). -/
theorem reset_memoriesKept : MemoriesKept State.reset := by
  have none : State.reset.dev.ctxs = [] := rfl
  rw [memoriesKept_iff, none]
  exact ⟨reset_memoriesOk, fun c hc => absurd hc List.not_mem_nil⟩

/-- Settles O1: every register by the definition of reset, and the memories are in canonical form. -/
theorem resetState : Obligations.ResetState := by
  have quorums : ∀ x ∈ State.reset.hart.slots.toList, x.quorum = 0 := by decide
  exact ⟨rfl, rfl, rfl, rfl, rfl, rfl, rfl, rfl, rfl, quorums, rfl, rfl, rfl, rfl, rfl, rfl, rfl, rfl, rfl, rfl, rfl, rfl, rfl, rfl,
    rfl, rfl, rfl, rfl, rfl, rfl, rfl, rfl, rfl, rfl, rfl, reset_memoriesKept⟩

/-! ## CSR writes -/

/-- No write changes an identity register or anything else (R78). -/
theorem csrPut_identity {a : Nat} (h : a < 0x10) (v : Word) (s : State) : csrPut a v s = s := by
  unfold csrPut
  split
  case h_22 =>
    rw [if_neg]
    simp only [Bool.and_eq_true, decide_eq_true_eq, not_and]
    omega
  all_goals exact absurd h (by decide)

/-- PPM ignores the values 2 and 3 (R6, R359). -/
theorem ppmOf_eq (old : Mode) (v : Word) :
    ppmOf old v = if v.toNat % 4 = 0 then .u else if v.toNat % 4 = 1 then .s else old := by
  unfold ppmOf
  split <;> simp_all

/-- The context found under a number after an update that keeps its contexts' numbers and states (R16). -/
theorem ctxOf_onCtx_kept {n : Nat} {f : Context → Context} {s : State} (hf : ∀ c, (f c).num = c.num ∧ (f c).state = c.state) :
    ctxOf (onCtx n f s).dev n = (ctxOf s.dev n).map f :=
  ctxOf_onCtx_self fun c hc => ⟨(hf c).1.trans (num_of_ctxOf hc), (hf c).2 ▸ live_of_ctxOf hc⟩

/-- The core's context after a write of ULFULL (R390). -/
theorem curCtx_putUlfull (v : Word) (s : State) : curCtx (putUlfull v s) = (curCtx s).map fun c =>
    { c with ulRsv := c.ulRsv && !v.getLsbD 9, ulDropped := c.ulDropped && !v.getLsbD 8 } :=
  ctxOf_onCtx_kept fun _ => ⟨rfl, rfl⟩

/-- The selected context after a write of CROOT (R383). -/
theorem selCtx_putCroot (v : Word) (s : State) : ctxOf (putCroot v s).dev (putCroot v s).dev.csel.toNat =
    (ctxOf s.dev s.dev.csel.toNat).map fun c => { c with root := v.toNat % 2 ^ 40 / 4096 * 4096 } :=
  ctxOf_onCtx_kept fun _ => ⟨rfl, rfl⟩

/-- Settles O16: each write by the definition of its register's field rule; a context written is found changed. -/
theorem csrWriteFieldRules : Obligations.CsrWriteFieldRules := by
  refine ⟨fun v s => ⟨_, _, _, _, _, _, _, ⟨rfl, rfl⟩, ⟨rfl, rfl⟩, ⟨rfl, rfl⟩, ⟨rfl, rfl⟩, ⟨rfl, rfl⟩, ⟨rfl, rfl⟩,
      ⟨rfl, rfl, rfl, ppmOf_eq _ v⟩, fun k hk => ?_⟩, fun v s => rfl, fun v s c hc => ?_, fun v s c hc => ?_⟩
  · change execCsrWrite k v s = .next s
    rw [execCsrWrite, csrPut_identity hk]
  · refine ⟨putUlfull v s, _, rfl, rfl, rfl, ?_, rfl, rfl⟩
    rw [curCtx_putUlfull, hc, Option.map_some]
  · refine ⟨putCroot v s, _, rfl, rfl, rfl, ?_, rfl, rfl⟩
    rw [selCtx_putCroot, hc, Option.map_some]

/-! ## Stochastic rounding -/

/-- Settles O19: the mode and the random value of a rounding are drawn first. -/
theorem roundingDrawsOnlyWhenStochastic : Obligations.RoundingDrawsOnlyWhenStochastic := by
  refine fun m sat f a => ⟨?_, fun hm => ?_⟩
  · rintro rfl
    rfl
  · have same : drawn m sat a = (⟨m, sat, 0⟩, a) := if_neg (by simpa using hm)
    rw [rounding, same]

end Sys2Proof.Machine
end

section
/-! PROOFS. The lane-wise instructions that round or saturate (R55, R64, R68, R69, R103, R104, R113, R117, R118). -/

namespace Sys2Proof.Machine

/-- Each instruction of `drawInstr` is lane-wise, with its lane function (R104, R113, R117, R118). -/
theorem exec_drawInstr {i : Instr} {d : VReg} {ty : Ty} {q : MSel} {a b : Src} {f : Nat → Nat → Nat → Acc → Nat × Acc} {s : State}
    (h : drawInstr s i = some (d, ty, q, a, b, f)) : ∃ w, exec i s = vrOp w d a b ty q f s := by
  unfold drawInstr at h
  split at h
  -- no lane-wise instruction that draws
  case h_11 => cases h
  -- VADD to VMORTON, by their definitions
  all_goals
    cases h
    exact ⟨_, rfl⟩

/-- Settles O18: each instruction is lane-wise with its function, and a lane-wise instruction leaves the lanes, flags and LFSR that
its governed lanes make in ascending order. -/
theorem roundingLaneInstructionsComplete : Obligations.RoundingLaneInstructionsComplete := by
  intro i d ty q a b f s h ha hq
  obtain ⟨w, e⟩ := exec_drawInstr h
  refine ⟨_, e.trans (vrOp_quiet w f ha hq), vectorFrame_writeLanes _ _ _ _, ?_, ?_, ?_⟩
  · rw [vr_wentOn, vr_writeLanes, if_pos rfl]
  · rw [wentOn_ar, writeLanes_ar]
  · rw [wentOn_ar, writeLanes_ar]

end Sys2Proof.Machine
end

section
/-! SUPPORT. Tensors: what a write of their elements leaves, and what a watched access leaves of the machine (R158, R166, R397). -/

namespace Sys2Proof.Machine

/-- What is found, as far as `g` tells, after a change that neither the search nor `g` sees. -/
theorem find?_modWhere_map {α β : Type} {p k : α → Bool} {f : α → α} {g : α → β} (hk : ∀ c, k (f c) = k c) (hg : ∀ c, g (f c) = g c)
    (l : List α) : ((modWhere p f l).find? k).map g = (l.find? k).map g := by
  have keys : k ∘ (fun x => if p x then f x else x) = k := funext fun x => by
    rw [Function.comp_apply]; split <;> simp [hk]
  have views : g ∘ (fun x => if p x then f x else x) = g := funext fun x => by
    rw [Function.comp_apply]; split <;> simp [hg]
  rw [modWhere, List.find?_map, keys, Option.map_map, views]

/-- A tensor without its element values: its context, representation and order point (R159, R165). -/
def Tensor.standing (t : Tensor) : Nat × Rep × List OEntry := (t.ctx, t.rep, t.queue)

theorem clearPoison_standing (d : Device) (sp : Space) (ks : List Nat) (h : Nat) :
    (tensorOf (clearPoison d sp ks) h).map Tensor.standing = (tensorOf d h).map Tensor.standing := by
  cases sp with
  | ten g => exact find?_modWhere_map (fun _ => by rfl) (fun _ => by rfl) d.tensors
  | ls | scr | dev => rfl

/-- A write at a location changes of a tensor only its element values and poison (R158). -/
theorem rawPut_standing (d : Device) (l : Loc) (bs : List Byte) (h : Nat) :
    (tensorOf (rawPut d l bs) h).map Tensor.standing = (tensorOf d h).map Tensor.standing := by
  obtain ⟨sp, o⟩ := l
  unfold rawPut
  dsimp only
  rw [apply_ite (fun e => (tensorOf e h).map Tensor.standing), clearPoison_standing, ite_self]
  cases sp with
  | ten g => exact find?_modWhere_map (fun _ => by rfl) (fun _ => by rfl) d.tensors
  | ls | scr | dev => rfl

/-- A tensor changed, and found under its handle if it keeps it. -/
theorem tensorOf_onTensor_self {h : Nat} {f : Tensor → Tensor} {t : Tensor} {s : State} (ht : tensorOf s.dev h = some t)
    (hf : (f t).h = t.h) : tensorOf (onTensor h f s).dev h = some (f t) := by
  have found : (f t).h = h := hf.trans (by simpa using List.find?_some ht)
  have e : tensorOf (onTensor h f s).dev h = (tensorOf s.dev h).map f := find?_modWhere_self fun x hx => by
    cases hx.symm.trans ht
    simpa using found
  rw [e, ht, Option.map_some]

/-! ## Watched accesses -/

/-- `u` is `s` but for contexts, times and stops: the core's registers and program counter and every tensor are as they were. -/
structure StopsOnly (s u : State) : Prop where
  regs : u.hart.regs = s.hart.regs
  pc : u.hart.pc = s.hart.pc
  tensors : u.dev.tensors = s.dev.tensors

namespace StopsOnly

theorem refl (s : State) : StopsOnly s s := ⟨rfl, rfl, rfl⟩

theorem trans {s u v : State} (h : StopsOnly s u) (k : StopsOnly u v) : StopsOnly s v :=
  ⟨k.regs.trans h.regs, k.pc.trans h.pc, k.tensors.trans h.tensors⟩

theorem onHart {f : Hart → Hart} {s : State} (hr : (f s.hart).regs = s.hart.regs) (hp : (f s.hart).pc = s.hart.pc) :
    StopsOnly s (onHart f s) := ⟨hr, hp, rfl⟩

theorem onCtx (n : Nat) (f : Context → Context) (s : State) : StopsOnly s (onCtx n f s) := ⟨rfl, rfl, rfl⟩

theorem passTime (s : State) : StopsOnly s (passTime s) := ⟨rfl, rfl, rfl⟩

theorem of_ite {s u v : State} {p : Prop} [Decidable p] (h : StopsOnly s u) (k : StopsOnly s v) :
    StopsOnly s (if p then u else v) := by split <;> assumption

theorem stopHart (why : Nat) (s : State) : StopsOnly s (stopHart why s) := by
  unfold Machine.stopHart
  split <;> [exact (passTime s).trans (onHart rfl rfl); exact refl s]

theorem gangStop (n why : Nat) (s : State) : StopsOnly s (gangStop n why s) := by
  unfold Machine.gangStop
  split
  · exact refl s
  · exact of_ite (refl s) (of_ite ((onCtx n _ s).trans (stopHart _ _)) (onCtx n _ s))

theorem stopSet (n : Nat) (scope : Bool) (s : State) : StopsOnly s (stopSet n scope s) :=
  of_ite (gangStop _ _ _) (stopHart _ _)

theorem watchStop (n : Nat) (w : Watch) (a : WatchAccess) (mine here : Bool) (s : State) :
    StopsOnly s (watchStop n w a mine here s) := by
  have role : StopsOnly s (if s.hart.dbg.stop.isNone then
      Machine.onHart (fun h => { h with dbg := { h.dbg with role := if mine then 1 else 0 } }) s else s) :=
    of_ite (onHart rfl rfl) (refl s)
  exact of_ite (onHart rfl rfl) (of_ite (role.trans (stopSet _ _ _)) role)

/-- A watched access disarms watchpoints and stops cores (R397, R398). -/
theorem watchAccess (n : Nat) (a : WatchAccess) (icount : Word) (s : State) : StopsOnly s (watchAccess n a icount s) := by
  unfold Machine.watchAccess
  split
  · exact refl s
  · split
    · exact refl s
    · split
      · exact refl s
      · extract_lets t lowest addr trig u mine here
        have noted : StopsOnly s u := (passTime s).trans (onCtx _ _ _)
        clear_value u
        exact of_ite (noted.trans (watchStop _ _ _ _ _ _)) (of_ite (noted.trans (onHart rfl rfl)) noted)

end StopsOnly

end Sys2Proof.Machine
end

section
/-! PROOFS. The order point of a tensor (R166 to R170). -/

namespace Sys2Proof.Machine

/-! ## Writes that keep no interval lines -/

/-- A context that keeps no interval lines gains none from a write (R375). -/
theorem logLines_of_noLines {n : Nat} {s : State} (hn : NoLines s n) (l : Loc) (k : Nat) : logLines n l k s = s := by
  have line : ∀ x, logLine n x s = s := fun x => by
    unfold logLine
    split
    · next c hc =>
      have mode : (c.mode == 3) = false := beq_eq_false_iff_ne.2 (hn c hc)
      rw [mode]
      rfl
    · rfl
  exact foldl_kept (P := (· = s)) (fun u x hu => hu ▸ line x) _ rfl

/-- A write of a tensor's elements whose context keeps no interval lines is the write alone (R158, R375). -/
theorem homePut_of_noLines {h : Nat} {t : Tensor} {s : State} (ht : (tensorOf s.dev h).map Tensor.standing = some t.standing)
    (hn : NoLines s t.ctx) (o : Nat) (bs : List Byte) :
    homePut ⟨.ten h, o⟩ bs s = onDev (fun d => rawPut d ⟨.ten h, o⟩ bs) s := by
  have owner : homeOwner s.dev ⟨.ten h, o⟩ = some t.ctx := by
    have e := congrArg (Option.map Prod.fst) ht
    rwa [Option.map_map] at e
  unfold homePut
  rw [owner]
  dsimp only
  rw [logLines_of_noLines hn]

/-! ## Lines recalled -/

/-- While the lines of tensor `h` are recalled: the core and the contexts' modes are as in `s`, and the tensor stands as `t`. -/
structure Recalling (h : Nat) (t : Tensor) (s u : State) : Prop where
  mode : SameMode s u
  regs : u.hart.regs = s.hart.regs
  pc : u.hart.pc = s.hart.pc
  stands : (tensorOf u.dev h).map Tensor.standing = some t.standing

namespace Recalling

variable {h : Nat} {t : Tensor} {s u : State}

/-- Contexts whose modes are as they were keep no interval lines if they kept none. -/
theorem noLines (r : Recalling h t s u) {n : Nat} (hn : NoLines s n) : NoLines u n := fun c hc => by
  obtain ⟨-, -, modes⟩ := r.mode
  have e := modes n
  rw [hc] at e
  obtain ⟨k, hk, hm⟩ := Option.map_eq_some_iff.1 e.symm
  exact fun hc => hn k hk (hm.trans hc)

theorem onClu (r : Recalling h t s u) (f : Cluster → Cluster) : Recalling h t s (onClu f u) :=
  ⟨r.mode.trans (.onClu f u), r.regs, r.pc, r.stands⟩

theorem watchAccess (r : Recalling h t s u) (n : Nat) (a : WatchAccess) (icount : Word) :
    Recalling h t s (watchAccess n a icount u) := by
  have stops := StopsOnly.watchAccess n a icount u
  refine ⟨r.mode.trans (.watchAccess n a icount u), stops.regs.trans r.regs, stops.pc.trans r.pc, ?_⟩
  rw [tensorOf, stops.tensors]
  exact r.stands

theorem homePut (r : Recalling h t s u) (hn : NoLines s t.ctx) (o : Nat) (bs : List Byte) :
    Recalling h t s (homePut ⟨.ten h, o⟩ bs u) := by
  rw [homePut_of_noLines r.stands (r.noLines hn)]
  exact ⟨r.mode.trans (.of_dev (rawPut_ctxs _ _ _)), r.regs, r.pc, (rawPut_standing _ _ _ _).trans r.stands⟩

theorem combineAt (hn : NoLines s t.ctx) (n o : Nat) (op : RmwOp) (size : Nat) (cells : List (Nat × Word))
    (r : Recalling h t s u) : Recalling h t s (combineAt n ⟨.ten h, o⟩ op size cells u) := by
  induction cells generalizing u with
  | nil => exact r
  | cons c cs ih => exact ih ((r.homePut hn _ _).watchAccess _ _ _)

theorem uoRecallLine (hn : NoLines s t.ctx) {x : CmLine} (hx : x.space = .ten h) (r : Recalling h t s u) :
    Recalling h t s (uoRecallLine x u) := by
  unfold Machine.uoRecallLine
  split
  · exact r
  · rw [hx]
    exact combineAt hn _ _ _ _ _ (r.onClu _)

end Recalling

/-- The lines of a tensor recalled: the tensor stands as it did, and the cluster caches none of it (R167). -/
theorem recallTensor_recalling {h : Nat} {t : Tensor} {s : State} (ht : tensorOf s.dev h = some t) (hn : NoLines s t.ctx) :
    Recalling h t s (recallTensor h s) ∧ ∀ y ∈ (recallTensor h s).clu.cm, y.space ≠ .ten h := by
  have start : Recalling h t s s := ⟨.refl s, rfl, rfl, by rw [ht, Option.map_some]⟩
  have recalled : Recalling h t s (uoRecallAll (fun x => x.space == .ten h) s) :=
    List.foldlRecOn _ _ start fun u r x hx => r.uoRecallLine hn (by simpa using (List.mem_filter.1 hx).2 : _ ∧ _).2
  refine ⟨?_, fun y hy => ?_⟩
  · unfold recallTensor
    refine Recalling.onClu (foldl_kept (fun u x r => foldl_kept (fun v i q => ?_) _ r) _ recalled) _
    split <;> [exact q.homePut hn _ _; exact q]
  · simpa using (List.mem_filter.1 hy).2

/-! ## Moves and frees -/

/-- A re-representation at the head begins its move once the paths hold no view request of the tensor (R167). -/
theorem execRerepMoveBegin_begins {h : Nat} {t : Tensor} {r : Rep} {m : Option Nat} {q : List OEntry} {s : State}
    (ht : tensorOf s.dev h = some t) (hq : t.queue = .rerep r false m :: q)
    (hp : ∀ p ∈ paths s, ¬ (p.loc.space = .ten h ∧ viewOp p.op = true)) :
    execRerepMoveBegin h s = .next (onTensor h (fun t => { t with queue := .rerep r true m :: q }) (recallTensor h s)) := by
  have clear : ((paths s).any fun p => p.loc.space == .ten h && viewOp p.op) = false := by simpa using hp
  rw [execRerepMoveBegin, ht]
  simp only [hq, clear, Bool.false_eq_true, if_false]

/-- A moving re-representation takes force (R166, R170). -/
theorem execRerepMoveComplete_completes {h : Nat} {t : Tensor} {r : Rep} {m : Option Nat} {q : List OEntry} {s : State}
    (ht : tensorOf s.dev h = some t) (hq : t.queue = .rerep r true m :: q) :
    execRerepMoveComplete h s = .next (onTensor h (fun t => { t with rep := r, queue := q }) s) := by
  rw [execRerepMoveComplete, ht]
  simp only [hq]

/-- A free entry at the head drops the tensor and, in CHECKPOINT mode, defers its charge (R166, R178). -/
theorem execFreeEntryHead_drops {h : Nat} {t : Tensor} {m : Bool} {q : List OEntry} {s : State}
    (ht : tensorOf s.dev h = some t) (hq : t.queue = .free m :: q) :
    ∃ f, execFreeEntryHead h s = .next (onCtx t.ctx f (dropTensor t s)) := by
  rw [execFreeEntryHead, ht]
  simp only [hq]
  exact ⟨_, rfl⟩

theorem handle_of_tensorOf {d : Device} {h : Nat} {t : Tensor} (ht : tensorOf d h = some t) : t.h = h := by
  simpa using List.find?_some ht

/-- A dropped tensor is found no more, and every other is found as before (R166). -/
theorem tensorOf_dropTensor (t : Tensor) (s : State) (g : Nat) :
    tensorOf (dropTensor t s).dev g = if g = t.h then none else tensorOf s.dev g := by
  change (s.dev.tensors.filter fun x => x.h != t.h).find? (fun x => x.h == g) = _
  rw [List.find?_filter]
  split
  · next e => exact List.find?_eq_none.2 fun x _ => by simp [e]
  · next e =>
    refine congrArg (List.find? · _) (funext fun x => ?_)
    by_cases hx : x.h = g <;> simp [hx, e]

/-- No view of a dropped tensor's context stays bound to it (R166, R173). -/
theorem dropTensor_views {t : Tensor} {s : State} (hc : s.hart.ar.ctx = t.ctx) {i : Nat} {b : Nat × Nat}
    (hb : (dropTensor t s).hart.views[i]? = some (some b)) : b.1 ≠ t.h := by
  rw [dropTensor] at hb
  simp only [onClu_hart, onHart_hart, onDev_hart, hc, if_true, Vector.getElem?_map, Option.map_eq_some_iff] at hb
  obtain ⟨v, -, hv⟩ := hb
  split at hv
  · split at hv
    · cases hv
    · cases hv
      assumption
  · cases hv

/-! ## Entries behind others -/

/-- An entry that stands behind another has that one before it. -/
theorem mem_takeWhile_access {id : Nat} {pre post : List OEntry} {e : OEntry} (he : e ≠ .access id) (hid : OEntry.access id ∉ pre) :
    e ∈ (pre ++ e :: post).takeWhile fun e => e != .access id := by
  have all : ∀ x ∈ pre, (x != OEntry.access id) = true := fun x hx => by
    rw [bne_iff_ne]
    rintro rfl
    exact hid hx
  rw [List.takeWhile_append_of_pos all, List.takeWhile_cons_of_pos (by simpa using he)]
  simp

/-- Settles O51: the lines are recalled before the move; the free drops the tensor; an entry sees what stands before it. -/
theorem orderPointMoves : Obligations.OrderPointMoves := by
  refine ⟨fun h t r m q s ht hq hp hn => ?_, fun h t r m q s ht hq => ?_, fun h t m q s ht hq => ?_,
    fun t r b m pre post id hq hid => ?_, fun t m pre post id hq hid => ?_⟩
  · obtain ⟨recalled, gone⟩ := recallTensor_recalling ht hn
    obtain ⟨y, hy, hyt⟩ := Option.map_eq_some_iff.1 recalled.stands
    have rep : y.rep = t.rep := congrArg (fun z => z.2.1) hyt
    refine ⟨_, { y with queue := .rerep r true m :: q }, execRerepMoveBegin_begins ht hq hp, ?_, rfl, rep, gone, recalled.regs, recalled.pc⟩
    exact tensorOf_onTensor_self hy rfl
  · refine ⟨_, execRerepMoveComplete_completes ht hq, rfl, rfl, ?_⟩
    exact tensorOf_onTensor_self ht rfl
  · obtain ⟨f, e⟩ := execFreeEntryHead_drops ht hq
    obtain rfl := handle_of_tensorOf ht
    refine ⟨_, e, (tensorOf_dropTensor t s t.h).trans (if_pos rfl), fun y hy => ?_, fun y hy => ?_,
      fun hc i b hb => dropTensor_views hc hb, fun g hg => (tensorOf_dropTensor t s g).trans (if_neg hg), rfl, rfl⟩
    · simpa using (List.mem_filter.1 hy).2
    · simpa using (List.mem_filter.1 hy).2
  · have behind : OEntry.rerep r b m ∈ t.queue.takeWhile fun e => e != .access id := hq ▸ mem_takeWhile_access nofun hid
    exact List.all_eq_false.2 ⟨_, behind, by simp⟩
  · have behind : OEntry.free m ∈ t.queue.takeWhile fun e => e != .access id := hq ▸ mem_takeWhile_access nofun hid
    exact List.any_eq_true.2 ⟨_, behind, rfl⟩

end Sys2Proof.Machine
end

section
/-! SUPPORT. The matrix units: which unit an update reaches, what it leaves, and the accumulators as maps (R301 to R325). -/

namespace Sys2Proof.Machine

/-! ## Units -/

/-- A unit changed, read back; `f` leaves which unit it is. -/
theorem unitOf_onUnit {f : MUnit → MUnit} (hf : ∀ u, (f u).cluster = u.cluster) (c k : Nat) (s : State) :
    unitOf (onUnit c f s) k = if k = c then f (unitOf s k) else unitOf s k := by
  have reset : (f (.reset c)).cluster = c := hf _
  unfold unitOf onUnit
  simp only [onDev_dev]
  split
  · next known =>
    split
    · next e =>
      subst e
      rw [find?_modWhere_self fun u hu => by rw [hf]; exact List.find?_some (p := fun u : MUnit => u.cluster == k) hu]
      obtain ⟨u, hu⟩ := Option.isSome_iff_exists.1 ((List.find?_isSome (p := fun u : MUnit => u.cluster == k)).2 (by simpa using known))
      simp only [hu, Option.map_some, Option.getD_some]
    · next ne =>
      have other : ∀ u : MUnit, (u.cluster == c) = true → ¬ (u.cluster == k) = true := fun u hu hk =>
        ne ((beq_iff_eq.1 hk).symm.trans (beq_iff_eq.1 hu))
      rw [find?_modWhere_other other fun u hu => by rw [hf]; exact other u hu]
  · next fresh =>
    have absent : ∀ u ∈ s.dev.units, ¬ (u.cluster == c) = true := by simpa using fresh
    rw [List.find?_append]
    split
    · next e =>
      subst e
      have none : s.dev.units.find? (fun u => u.cluster == k) = none := List.find?_eq_none.2 absent
      simp [none, reset]
    · next ne =>
      simp [reset, Ne.symm ne]

theorem unitOf_onUnit_self {f : MUnit → MUnit} (hf : ∀ u, (f u).cluster = u.cluster) (c : Nat) (s : State) :
    unitOf (onUnit c f s) c = f (unitOf s c) := (unitOf_onUnit hf c c s).trans (if_pos rfl)

theorem unitOf_onUnit_ne {f : MUnit → MUnit} (hf : ∀ u, (f u).cluster = u.cluster) {c k : Nat} (h : k ≠ c) (s : State) :
    unitOf (onUnit c f s) k = unitOf s k := (unitOf_onUnit hf c k s).trans (if_neg h)

/-- What an update of units does not change, it leaves in every unit. -/
theorem onUnit_view {α : Type} {f : MUnit → MUnit} {g : MUnit → α} (hf : ∀ u, (f u).cluster = u.cluster)
    (hg : ∀ u, g (f u) = g u) (c k : Nat) (s : State) : g (unitOf (onUnit c f s) k) = g (unitOf s k) := by
  rw [unitOf_onUnit hf]
  split <;> [exact hg _; rfl]

theorem onUnits_view {α : Type} {f : MUnit → MUnit} {g : MUnit → α} (hf : ∀ u, (f u).cluster = u.cluster)
    (hg : ∀ u, g (f u) = g u) (cs : List Nat) (k : Nat) (s : State) : g (unitOf (onUnits cs f s) k) = g (unitOf s k) :=
  foldl_kept (P := fun t => g (unitOf t k) = g (unitOf s k)) (fun t c h => (onUnit_view hf hg c k t).trans h) cs rfl

@[simp] theorem onUnit_hart (c : Nat) (f : MUnit → MUnit) (s : State) : (onUnit c f s).hart = s.hart := rfl
@[simp] theorem onUnits_hart (cs : List Nat) (f : MUnit → MUnit) (s : State) : (onUnits cs f s).hart = s.hart :=
  foldl_kept (P := fun t : State => t.hart = s.hart) (f := fun s c => onUnit c f s) (fun _ _ h => h) cs rfl
@[simp] theorem popCmd_hart (us : List Nat) (id : Nat) (s : State) : (popCmd us id s).hart = s.hart := onUnits_hart _ _ _

/-- A command that retires leaves one unit's queue. -/
def dropCmd (id : Nat) (u : MUnit) : MUnit := { u with queue := u.queue.filter fun k => k.id != id }

theorem dropCmd_cluster (id : Nat) (u : MUnit) : (dropCmd id u).cluster = u.cluster := rfl

theorem popCmd_eq (us : List Nat) (id : Nat) (s : State) : popCmd us id s = onUnits us (dropCmd id) s := rfl

theorem unitOf_popCmd_one (c id : Nat) (s : State) : unitOf (popCmd [c] id s) c = dropCmd id (unitOf s c) :=
  unitOf_onUnit_self (dropCmd_cluster id) c s

theorem dropCmd_gone (id : Nat) (u : MUnit) : ∀ k ∈ (dropCmd id u).queue, k.id ≠ id := fun k hk => by
  simpa using (List.mem_filter.1 hk).2

/-- A retired command stands in no queue of its units (R318). -/
theorem popCmd_gone {us : List Nat} {u : Nat} (hu : u ∈ us) (id : Nat) (s : State) :
    ∀ k ∈ (unitOf (popCmd us id s) u).queue, k.id ≠ id := by
  obtain ⟨pre, post, rfl⟩ := List.append_of_mem hu
  rw [popCmd_eq, onUnits, List.foldl_append, List.foldl_cons]
  refine foldl_kept (P := fun t => ∀ k ∈ (unitOf t u).queue, k.id ≠ id) (fun t c h => ?_) post ?_
  · rw [unitOf_onUnit (dropCmd_cluster id)]
    split <;> [exact dropCmd_gone id _; exact h]
  · rw [unitOf_onUnit_self (dropCmd_cluster id)]
    exact dropCmd_gone id _

/-- What a queue does not change, a retiring command leaves. -/
theorem popCmd_view {α : Type} {g : MUnit → α} {id : Nat} (hg : ∀ u, g (dropCmd id u) = g u) (us : List Nat) (k : Nat) (s : State) :
    g (unitOf (popCmd us id s) k) = g (unitOf s k) := onUnits_view (dropCmd_cluster id) hg us k s

theorem popRing_cluster (r : Nat) (u : MUnit) : (popRing r u).cluster = u.cluster := by
  unfold popRing; split <;> rfl
theorem popRing_acc (r : Nat) (u : MUnit) : (popRing r u).acc = u.acc := by
  unfold popRing; split <;> rfl

/-! ## What goes on beside the units -/

/-- `u` is `s` but for times, messages, fences and caches: the core's registers and flow and every unit are as they were. -/
structure BesideUnits (s u : State) : Prop where
  regs : u.hart.regs = s.hart.regs
  ar : u.hart.ar = s.hart.ar
  pc : u.hart.pc = s.hart.pc
  units : u.dev.units = s.dev.units

namespace BesideUnits

theorem refl (s : State) : BesideUnits s s := ⟨rfl, rfl, rfl, rfl⟩

theorem trans {s u v : State} (h : BesideUnits s u) (k : BesideUnits u v) : BesideUnits s v :=
  ⟨k.regs.trans h.regs, k.ar.trans h.ar, k.pc.trans h.pc, k.units.trans h.units⟩

theorem of_ite {s u v : State} {p : Prop} [Decidable p] (h : BesideUnits s u) (k : BesideUnits s v) :
    BesideUnits s (if p then u else v) := by split <;> assumption

theorem unitOf {s u : State} (h : BesideUnits s u) (k : Nat) : unitOf u k = unitOf s k := by
  rw [Machine.unitOf, h.units, Machine.unitOf]

/-- A message for the core enters its inbox or the hold (R202). -/
theorem postMsg (core : Nat) (m : Msg) (s : State) : BesideUnits s (postMsg core m s) :=
  of_ite (refl s) (of_ite (of_ite ⟨rfl, rfl, rfl, rfl⟩ (refl s)) (of_ite ⟨rfl, rfl, rfl, rfl⟩ ⟨rfl, rfl, rfl, rfl⟩))

theorem poisonMsg (core n : Nat) (t : Tile) (s : State) : BesideUnits s (poisonMsg core n t s) := by
  unfold Machine.poisonMsg
  split <;> [exact postMsg _ _ s; exact refl s]

theorem acquireMoves (sc : Scope) (s : State) : BesideUnits s (acquireMoves sc s) := by
  cases sc <;> exact ⟨rfl, rfl, rfl, rfl⟩

theorem settleFence (f : Fence) (s : State) : BesideUnits s (settleFence f s).2 := by
  unfold Machine.settleFence
  extract_lets f1 f2 f3 free
  split <;> [exact acquireMoves _ s; exact refl s]

theorem settleList (l : List Fence) (s : State) : BesideUnits s (settleList l s).2 := by
  induction l generalizing s with
  | nil => exact refl s
  | cons f r ih => exact (settleFence f s).trans (ih _)

/-- Fences that settle empty caches (R192). -/
theorem settle (s : State) : BesideUnits s (settle s) :=
  have l := settleList s.hart.fences s
  of_ite (refl s) ⟨l.regs, l.ar, l.pc, l.units⟩

end BesideUnits

/-! ## Accumulators -/

/-- The keys of a canonical map that are left read as before, and the others 0. -/
theorem smGet_filter_keyFrom {w : Nat} {p : Nat → Bool} {lo : Nat} (a : Nat) {m : SMap w} (hm : smWfFrom lo m = true) :
    smGet (m.filter fun e => p e.1) a = if p a then smGet m a else 0 := by
  induction m generalizing lo with
  | nil => simp [smGet]
  | cons e r ih =>
    obtain ⟨k, v⟩ := e
    simp only [smWfFrom, Bool.and_eq_true, decide_eq_true_eq] at hm
    have rest := ih hm.2
    rw [List.filter_cons]
    rcases Nat.lt_trichotomy a k with hlt | rfl | hgt
    · have below : smGet r a = 0 := smGet_below (by omega) hm.2
      split <;> simp [smGet, rest, below, hlt, Nat.ne_of_lt hlt]
    · by_cases hp : p a = true <;> simp [smGet, rest, hp]
    · have ne : ¬ a = k ∧ ¬ a < k := by omega
      split <;> simp [smGet, rest, ne]

theorem smGet_filter_key {w : Nat} (p : Nat → Bool) (a : Nat) {m : SMap w} (hm : Memory.wf m = true) :
    smGet (m.filter fun e => p e.1) a = if p a then smGet m a else 0 := smGet_filter_keyFrom a hm

theorem accPut_wf (n i j : Nat) (r : List Nat) {m : SMap 32} (hm : Memory.wf m = true) : Memory.wf (accPut n i j r m) = true := by
  induction r generalizing j m with
  | nil => exact hm
  | cons v r ih => exact ih _ (smSet_wf _ _ hm)

/-- Part of a row written, read back: the elements written, and every other as before. -/
theorem smGet_accPut (n i j a : Nat) (r : List Nat) {m : SMap 32} (hm : Memory.wf m = true) : smGet (accPut n i j r m) a =
    if n * 16384 + i * 128 + j ≤ a then ((r[a - (n * 16384 + i * 128 + j)]?).map (BitVec.ofNat 32)).getD (smGet m a)
    else smGet m a := by
  induction r generalizing j m with
  | nil => simp [accPut]
  | cons v r ih =>
    rw [accPut, ih _ (smSet_wf _ _ hm), smGet_smSet _ _ _ hm]
    rcases Nat.lt_trichotomy a (n * 16384 + i * 128 + j) with hlt | rfl | hgt
    · rw [if_neg (by omega), if_neg (by omega), if_neg (by omega)]
    · simp
    · have step : a - (n * 16384 + i * 128 + j) = a - (n * 16384 + i * 128 + (j + 1)) + 1 := by omega
      rw [if_pos (by omega), if_neg (by omega), if_pos (by omega), step, List.getElem?_cons_succ]

/-- Rows written, read back: the elements written, and every other as before. -/
theorem smGet_accPutRows (n i : Nat) {x y : Nat} (hy : y < 128) {rs : List (List Nat)} (hr : ∀ r ∈ rs, r.length ≤ 128) {m : SMap 32}
    (hm : Memory.wf m = true) : smGet (accPutRows n i rs m) (n * 16384 + x * 128 + y) =
    if i ≤ x then ((rs[x - i]?.bind (·[y]?)).map (BitVec.ofNat 32)).getD (smGet m (n * 16384 + x * 128 + y))
    else smGet m (n * 16384 + x * 128 + y) := by
  induction rs generalizing i m with
  | nil => simp [accPutRows]
  | cons r rs ih =>
    have short : r.length ≤ 128 := hr r List.mem_cons_self
    rw [accPutRows, ih (i + 1) (fun q hq => hr q (List.mem_cons_of_mem r hq)) (accPut_wf _ _ _ _ hm), smGet_accPut _ _ _ _ _ hm]
    rcases Nat.lt_trichotomy x i with hlt | rfl | hgt
    · rw [if_neg (by omega), if_neg (by omega), if_neg (by omega)]
    · have col : n * 16384 + x * 128 + y - (n * 16384 + x * 128 + 0) = y := by omega
      rw [if_neg (by omega), if_pos (by omega), if_pos (Nat.le_refl x), col, Nat.sub_self]
      rfl
    · have past : r[n * 16384 + x * 128 + y - (n * 16384 + i * 128 + 0)]? = none := List.getElem?_eq_none (by omega)
      have step : x - i = x - (i + 1) + 1 := by omega
      rw [if_pos (by omega), if_pos (by omega), if_pos (by omega), past, step, List.getElem?_cons_succ]
      rfl

/-- An element of an accumulator whose rows have been written from row 0 on. -/
theorem accGet_of_accPutRows {v : MUnit} {m : SMap 32} {n i j rows cols : Nat} {f : Nat → Nat → Nat}
    (hv : v.acc = accPutRows n 0 ((List.range rows).map fun i => (List.range cols).map (f i)) m) (hw : Memory.wf m = true)
    (hc : cols ≤ 128) (hi : i < rows) (hj : j < cols) : accGet v n i j = f i j % 2 ^ 32 := by
  have widths : ∀ r ∈ (List.range rows).map (fun i => (List.range cols).map (f i)), r.length ≤ 128 := by
    simp [hc]
  rw [accGet, hv, smGet_accPutRows n 0 (by omega) widths hw]
  simp [hi, hj]

end Sys2Proof.Machine
end

section
/-! PROOFS. The commands at a matrix unit (R303 to R324). -/

namespace Sys2Proof.Machine

/-! ## Format contexts, rings and clears -/

theorem setFormat_cluster (core : Nat) (w : Word) (u : MUnit) : (setFormat core w u).cluster = u.cluster := rfl

/-- A format context set stands for its core, or is gone; every other core's is as before (R303). -/
theorem formatOf_setFormat (core k : Nat) (w : Word) (u : MUnit) : formatOf (setFormat core w u) k =
    if k = core then (if w = 0 then none else some w) else formatOf u k := by
  have rest : ((u.fctx.filter fun p => p.1 != core).find? fun p => p.1 == k) =
      if k = core then none else u.fctx.find? fun p => p.1 == k := by
    rw [List.find?_filter]
    split
    · next e => exact List.find?_eq_none.2 fun p _ => by simp [e]
    · next ne =>
      refine congrArg (List.find? · _) (funext fun p => ?_)
      by_cases hp : p.1 = k <;> simp [hp, ne]
  unfold formatOf setFormat
  dsimp only
  by_cases hw : w = 0
  · rw [if_pos hw, rest]
    split <;> rfl
  · rw [if_neg hw, List.find?_append, rest]
    split
    · next e => simp [e]
    · next ne => simp [Ne.symm ne]

/-- A ring put in its place in a unit (R305). -/
def setRing (r : Nat) (g : Ring) (u : MUnit) : MUnit := { u with rings := u.rings.setIfInBounds r (some g) }

theorem unitRing_setRing {r : Nat} (hr : r < 8) (g : Ring) (k : Nat) (u : MUnit) :
    unitRing (setRing r g u) k = if k = r then some g else unitRing u k := by
  unfold unitRing setRing
  dsimp only
  rw [Vector.getElem?_setIfInBounds]
  split
  · next e => rw [if_pos e.symm]; rfl
  · next ne => rw [if_neg (Ne.symm ne)]

/-- An accumulator cleared reads 0 everywhere, and the others as before (R324). -/
theorem accGet_zeroAcc (n m : Nat) {i j : Nat} (hi : i < 128) (hj : j < 128) {u : MUnit} (hw : Memory.wf u.acc = true) :
    accGet (zeroAcc n u) m i j = if m = n then 0 else accGet u m i j := by
  have acc : (m * 16384 + i * 128 + j) / 16384 = m := by omega
  unfold accGet zeroAcc
  dsimp only
  rw [smGet_filter_key (fun k => k / 16384 != n) _ hw, acc]
  by_cases e : m = n <;> simp [e]

/-- MCSET at the head of a unit's queue (R303). -/
theorem execMcsetUnit_runs {u : Nat} {c : MCmd} {w : Word} {s : State} (hc : runningHead s u = some c) (ho : c.op = .mcset w) :
    execMcsetUnit u s = .next (popCmd [u] c.id (onUnit u (setFormat c.core w) s)) := by
  rw [execMcsetUnit, hc]
  simp only [ho]

/-- MRSET at the head of a unit's queue (R305). -/
theorem execMrsetUnit_runs {u r : Nat} {c : MCmd} {g : Ring} {s : State} (hc : runningHead s u = some c) (ho : c.op = .mrset r g) :
    execMrsetUnit u s = .next (popCmd [u] c.id (onUnit u (setRing r g) s)) := by
  rw [execMrsetUnit, hc]
  simp only [ho]
  rfl

/-- MZERO at the head of a unit's queue, with a format context in every unit it names (R316, R324). -/
theorem execMzeroUnit_runs {u n : Nat} {c : MCmd} {s : State} (hc : runningHead s u = some c) (ho : c.op = .mzero n)
    (hf : ∀ k ∈ cmdUnits c, formatOf (unitOf s k) c.core ≠ none) :
    execMzeroUnit u s =
      .next (popCmd [u] c.id (onUnit u (fun x => stamp n (passTime s).dev.time (zeroAcc n x)) (passTime s))) := by
  have formats : ((cmdUnits c).any fun k => (formatOf (unitOf s k) c.core).isNone) = false := by simpa using hf
  rw [execMzeroUnit, hc]
  simp only [ho, formats, Bool.false_eq_true, if_false]

/-- What a unit holds after its one command has run there and left. -/
theorem unitOf_popCmd_onUnit {f : MUnit → MUnit} (hf : ∀ u, (f u).cluster = u.cluster) (u id : Nat) (s : State) :
    unitOf (popCmd [u] id (onUnit u f s)) u = dropCmd id (f (unitOf s u)) := by
  rw [unitOf_popCmd_one, unitOf_onUnit_self hf]

/-! ## Products -/

section
variable {s : State} {c : MCmd} {n ra rb : Nat} {code : BitVec 6} {raw : Bool}
  {work : Operand → Operand → Tile → Tile → MUnit → MUnit} {l : List (Nat × Operand × Operand × Tile × Tile)}

/-- Each unit's work on its tiles, with the time of the change (R311, R324). -/
def unitsWorked (n : Nat) (work : Operand → Operand → Tile → Tile → MUnit → MUnit)
    (l : List (Nat × Operand × Operand × Tile × Tile)) (s : State) : State :=
  l.foldl (fun s p => onUnit p.1 (fun u => stamp n s.dev.time (work p.2.1 p.2.2.1 p.2.2.2.1 p.2.2.2.2 u)) s) s

/-- The messages of the poisoned tiles: the A tile's, and each unit's B tile's (R316). -/
def tilesReported (core n : Nat) (l : List (Nat × Operand × Operand × Tile × Tile)) (s : State) : State :=
  l.foldl (fun s p => poisonMsg core n p.2.2.2.2 s) (match l.head? with | some p => poisonMsg core n p.2.2.2.1 s | none => s)

/-- What a product command that runs leaves (R311 to R313, R316). -/
def productDone (c : MCmd) (n ra rb : Nat) (work : Operand → Operand → Tile → Tile → MUnit → MUnit)
    (l : List (Nat × Operand × Operand × Tile × Tile)) (s : State) : State :=
  settle (popCmd (cmdUnits c) c.id (onUnits (cmdUnits c) (popRing rb) (onUnit c.lead (popRing ra)
    (tilesReported c.core n l (unitsWorked n work l (passTime s))))))

/-- The flags of a command's units are clear together if each is. -/
theorem productFlags_zero (h : ∀ u ∈ cmdUnits c, productFlag s c u n ra rb code raw = 0) :
    (cmdUnits c).foldl (fun f u => f ||| productFlag s c u n ra rb code raw) 0 = 0 :=
  List.foldlRecOn _ _ (motive := (· = 0)) rfl fun f hf u hu => by rw [hf, h u hu]; rfl

/-- A product that R316 refuses on a unit sets its flag and is retired. -/
theorem runProduct_refused {f : Nat} (hf : (cmdUnits c).foldl (fun f u => f ||| productFlag s c u n ra rb code raw) 0 = f)
    (h : f ≠ 0) : runProduct c n ra rb code raw work s = .next (refuseCmd c n f s) := by
  unfold runProduct
  simp only [hf, bne_iff_ne, ne_eq, h, not_false_eq_true, if_true]

/-- A product whose tiles are not published on a unit waits (R316). -/
theorem runProduct_waits (hf : ∀ u ∈ cmdUnits c, productFlag s c u n ra rb code raw = 0)
    (hr : ∃ u ∈ cmdUnits c, productReady s c u ra rb code = false) : runProduct c n ra rb code raw work s = .next s := by
  have waits : ((cmdUnits c).all fun u => productReady s c u ra rb code) = false := by simpa using hr
  unfold runProduct
  simp [productFlags_zero hf, waits]

/-- A product that may run runs (R311 to R313). -/
theorem runProduct_runs (h : ProductRuns s c n ra rb code raw l) :
    runProduct c n ra rb code raw work s = .next (productDone c n ra rb work l s) := by
  obtain ⟨clear, tiles⟩ := h
  have ready : ((cmdUnits c).all fun u => productReady s c u ra rb code) = true := List.all_eq_true.2 fun u hu => (clear u hu).2
  unfold runProduct
  simp only [productFlags_zero fun u hu => (clear u hu).1, ready, tiles]
  rfl

theorem tilesReported_beside (core : Nat) (s : State) : BesideUnits s (tilesReported core n l s) := by
  unfold tilesReported
  refine foldl_kept (P := BesideUnits s) (fun u p h => h.trans (.poisonMsg _ _ _ u)) l ?_
  split <;> [exact .poisonMsg _ _ _ s; exact .refl s]

theorem unitsWorked_hart (s : State) : (unitsWorked n work l s).hart = s.hart :=
  List.foldlRecOn l _ (motive := fun t : State => t.hart = s.hart) rfl fun _ h _ _ => h

/-- The command has left its units, and the core's registers and flow are as before. -/
theorem productDone_gone (s : State) : CmdGone s (productDone c n ra rb work l s) c := by
  have reported := tilesReported_beside (n := n) (l := l) c.core (unitsWorked n work l (passTime s))
  have settled := BesideUnits.settle (popCmd (cmdUnits c) c.id (onUnits (cmdUnits c) (popRing rb) (onUnit c.lead (popRing ra)
    (tilesReported c.core n l (unitsWorked n work l (passTime s))))))
  obtain ⟨tregs, tar, tpc, -⟩ := reported
  obtain ⟨sregs, sar, spc, -⟩ := settled
  simp only [popCmd_hart, onUnits_hart, onUnit_hart] at sregs sar spc
  rw [unitsWorked_hart] at tregs tar tpc
  refine ⟨fun u hu => ?_, sregs.trans tregs, sar.trans tar, spc.trans tpc⟩
  rw [productDone, (BesideUnits.settle _).unitOf]
  exact popCmd_gone hu c.id _

/-- The accumulators after a product are those that the units' work leaves. -/
theorem productDone_acc (s : State) (k : Nat) :
    (unitOf (productDone c n ra rb work l s) k).acc = (unitOf (unitsWorked n work l (passTime s)) k).acc := by
  rw [productDone, (BesideUnits.settle _).unitOf, popCmd_view (g := MUnit.acc) fun _ => rfl,
    onUnits_view (popRing_cluster rb) (popRing_acc rb), onUnit_view (popRing_cluster ra) (popRing_acc ra),
    (tilesReported_beside c.core _).unitOf]

theorem stamped_cluster (hw : ∀ oa ob ta tb u, (work oa ob ta tb u).cluster = u.cluster) {time : Word} {oa ob : Operand} {ta tb : Tile}
    (u : MUnit) : (stamp n time (work oa ob ta tb u)).cluster = u.cluster := hw oa ob ta tb u

/-- Work on other units leaves a unit. -/
theorem unitsWorked_other (hw : ∀ oa ob ta tb u, (work oa ob ta tb u).cluster = u.cluster) {k : Nat} (hk : k ∉ l.map (·.1)) (s : State) :
    unitOf (unitsWorked n work l s) k = unitOf s k :=
  List.foldlRecOn l _ (motive := fun t => unitOf t k = unitOf s k) rfl fun t ht p hp => by
    have other : k ≠ p.1 := fun e => hk (List.mem_map.2 ⟨p, hp, e.symm⟩)
    rw [unitOf_onUnit_ne (stamped_cluster hw) other, ht]

/-- A unit that is named once works once, on its own tiles (R312). -/
theorem unitsWorked_acc (hw : ∀ oa ob ta tb u, (work oa ob ta tb u).cluster = u.cluster) {k : Nat} {oa ob : Operand} {ta tb : Tile}
    (hk : (k, oa, ob, ta, tb) ∈ l) (hl : (l.map (·.1)).Nodup) (s : State) :
    (unitOf (unitsWorked n work l s) k).acc = (work oa ob ta tb (unitOf s k)).acc := by
  obtain ⟨pre, post, rfl⟩ := List.append_of_mem hk
  simp only [List.map_append, List.map_cons, List.nodup_append, List.nodup_cons] at hl
  obtain ⟨-, ⟨notPost, -⟩, apart⟩ := hl
  have notPre : k ∉ pre.map (·.1) := fun h => apart k h k List.mem_cons_self rfl
  have last : unitsWorked n work (pre ++ (k, oa, ob, ta, tb) :: post) s = unitsWorked n work post
      (onUnit k (fun u => stamp n (unitsWorked n work pre s).dev.time (work oa ob ta tb u)) (unitsWorked n work pre s)) := by
    unfold unitsWorked
    rw [List.foldl_append, List.foldl_cons]
  rw [last, unitsWorked_other hw notPost, unitOf_onUnit_self (stamped_cluster hw), unitsWorked_other hw notPre]
  rfl

/-- The accumulator of a unit after a product that runs there once (R311 to R313). -/
theorem productDone_unit_acc (hw : ∀ oa ob ta tb u, (work oa ob ta tb u).cluster = u.cluster) {k : Nat} {oa ob : Operand}
    {ta tb : Tile} (hk : (k, oa, ob, ta, tb) ∈ l) (hl : (l.map (·.1)).Nodup) (s : State) :
    (unitOf (productDone c n ra rb work l s) k).acc = (work oa ob ta tb (unitOf s k)).acc := by
  rw [productDone_acc, unitsWorked_acc hw hk hl]
  rfl

/-- The tiles that are given belong to the command's units, one for each at most. -/
theorem tilesOf_units {us : List Nat} (h : tilesOf s c us ra rb code = .ok l) : (l.map (·.1)).Sublist us := by
  have kept : ∀ us : List Nat, (((us.map fun u => (u, productTiles s c u ra rb code)).filterMap fun p =>
      match p.2 with | .ok t => some (p.1, t) | .error _ => none).map (·.1)).Sublist us := fun us => by
    induction us with
    | nil => exact List.Sublist.slnil
    | cons u r ih =>
      rw [List.map_cons]
      cases hu : productTiles s c u ra rb code with
      | ok t => exact ih.cons_cons u
      | error f => exact ih.cons u
  unfold tilesOf at h
  dsimp only at h
  split at h
  · cases h
  · cases h
    exact kept us

end

/-! ## What the units' work leaves -/

theorem addProduct_cluster (nbv : Bool) (n : Nat) (oa ob : Operand) (ta tb : Tile) (u : MUnit) :
    (addProduct nbv n oa ob ta tb u).cluster = u.cluster := by
  unfold addProduct; split <;> rfl

theorem passTile_cluster (n : Nat) (oa ob : Operand) (ta tb : Tile) (u : MUnit) : (passTile n oa ob ta tb u).cluster = u.cluster := rfl

/-- Clean tiles: each element gains its product (R74, R311). -/
theorem accGet_addProduct (nbv : Bool) (n : Nat) {oa ob : Operand} {ta tb : Tile} {u v : MUnit} {i j : Nat} (ha : ta.bad = none)
    (hb : tb.bad = none) (hw : Memory.wf u.acc = true) (hc : ob.cols ≤ 128) (hi : i < oa.rows) (hj : j < ob.cols)
    (hv : v.acc = (addProduct nbv n oa ob ta tb u).acc) : accGet v n i j =
      (productElem nbv oa ob ta tb ((ta.els.map (fdec oa.ty)).toArray) ((tb.els.map (fdec ob.ty)).toArray) i j (accGet u n i j)).1
        % 2 ^ 32 := by
  have acc : v.acc = accPutRows n 0 ((List.range oa.rows).map fun i => (List.range ob.cols).map fun j =>
      (productElem nbv oa ob ta tb ((ta.els.map (fdec oa.ty)).toArray) ((tb.els.map (fdec ob.ty)).toArray) i j (accGet u n i j)).1)
      u.acc := by
    rw [hv, addProduct, ha, hb]
    simp only [Option.isSome_none, Bool.or_self, Bool.false_eq_true, if_false, orStatus, List.map_map, Function.comp_def]
  exact accGet_of_accPutRows acc hw hc hi hj

/-- Clean tiles: each element is the pattern that its column selects (R313). -/
theorem accGet_passTile (n : Nat) {oa ob : Operand} {ta tb : Tile} {u v : MUnit} {i j : Nat} (ha : ta.bad = none)
    (hb : tb.bad = none) (hw : Memory.wf u.acc = true) (hc : ob.cols ≤ 128) (hi : i < oa.rows) (hj : j < ob.cols)
    (hv : v.acc = (passTile n oa ob ta tb u).acc) : accGet v n i j = passed oa ob ta tb i j % 2 ^ 32 := by
  have acc : v.acc = accPutRows n 0 ((List.range oa.rows).map fun i => (List.range ob.cols).map fun j => passed oa ob ta tb i j)
      u.acc := by
    rw [hv, passTile, ha, hb]
    simp only [Option.isSome_none, Bool.or_self, Bool.false_eq_true, if_false, orStatus, List.map_map, Function.comp_def]
    rfl
  exact accGet_of_accPutRows acc hw hc hi hj

/-! ## The instructions -/

section
variable {s : State} {u n ra rb : Nat} {code : BitVec 6} {c : MCmd}

theorem execMmaUnit_product (hs : startable s u = some c) (ho : c.op = .mma n ra rb code) :
    execMmaUnit u s = runProduct c n ra rb code true (addProduct c.nbv n) s := by
  rw [execMmaUnit, hs]
  simp only [ho]

theorem execMmabUnit_product (hs : startable s u = some c) (ho : c.op = .mmab n ra rb code) :
    execMmabUnit u s = runProduct c n ra rb code true (addProduct c.nbv n) s := by
  rw [execMmabUnit, hs]
  simp only [ho]

theorem execMpassUnit_product (hs : startable s u = some c) (ho : c.op = .mpass n ra rb code) :
    execMpassUnit u s = runProduct c n ra rb code false (passTile n) s := by
  rw [execMpassUnit, hs]
  simp only [ho]

/-- Each product command at a unit is one run of a product (R311 to R313). -/
theorem exec_product {i : Instr} {raw : Bool} (hs : startable s u = some c) (hp : Product c.op n ra rb code u i raw) :
    ∃ work, exec i s = runProduct c n ra rb code raw work s := by
  obtain ⟨ho, rfl, rfl⟩ | ⟨ho, rfl, rfl⟩ | ⟨ho, rfl, rfl⟩ := hp
  · exact ⟨_, execMmaUnit_product hs ho⟩
  · exact ⟨_, execMmabUnit_product hs ho⟩
  · exact ⟨_, execMpassUnit_product hs ho⟩

/-- What MDRAIN does as it starts (R314). -/
def drainPlan (s : State) (c : MCmd) (n : Nat) (set : PSet) (tr clr sup : Bool) (va : Word) (view : Option (Nat × Nat)) : DPlan :=
  { n := n, set := setCode set, tr := tr, clr := clr, sup := sup, va := va, view := view
    w := (formatOf (unitOf s c.lead) c.core).getD 0, units := cmdUnits c, raws := (cmdUnits c).map fun k => isRaw (unitOf s k) n
    m := if fmtRnd ((formatOf (unitOf s c.lead) c.core).getD 0) = 0 then c.rnd
      else Rnd.ofCode (BitVec.ofNat 3 (fmtRnd ((formatOf (unitOf s c.lead) c.core).getD 0))) }

variable {set : PSet} {tr clr sup : Bool} {va : Word} {view : Option (Nat × Nat)}

/-- A drain that R316 refuses sets its flag and is retired. -/
theorem execMdrainUnit_refused (hs : startable s u = some c) (ho : c.op = .mdrain n set tr clr sup va view)
    (hf : drainFlag s c n set ≠ 0) : execMdrainUnit u s = .next (refuseCmd c n (drainFlag s c n set) s) := by
  rw [execMdrainUnit, hs]
  simp only [ho]
  exact if_pos (bne_iff_ne.2 hf)

/-- A drain with its log space runs, if its interval line entries fit (R314, R391). -/
theorem execMdrainUnit_runs {w : State} (hs : startable s u = some c) (ho : c.op = .mdrain n set tr clr sup va view)
    (hf : drainFlag s c n set = 0) (hm : drainMoving s c view = false)
    (hl : reserveLog (drainNeed s c (drainPlan s c n set tr clr sup va view)) s = some w)
    (he : engFits c.ctx w (settle (endDrain c (drainPlan s c n set tr clr sup va view)
      (runDrain c (drainPlan s c n set tr clr sup va view) (passTime w)))) = true) :
    execMdrainUnit u s = .next (settle (endDrain c (drainPlan s c n set tr clr sup va view)
      (runDrain c (drainPlan s c n set tr clr sup va view) (passTime w)))) := by
  unfold drainPlan at hl he ⊢
  rw [execMdrainUnit, hs]
  simp only [ho, hf, hm, bne_self_eq_false, Bool.false_eq_true, if_false, hl, engStall, he, if_true]

end

/-- Settles O56: a format, a ring and a clear are one update of their unit; a product is one run of `runProduct`, refused, waiting or
done, and a unit that is named once works once; a drain is one run of its plan. -/
theorem matrixUnitMoves : Obligations.MatrixUnitMoves := by
  refine ⟨fun u c w s hc ho => ?_, fun u r c g s hc ho hr => ?_, fun u n c s hc ho hn hf hw => ?_, fun u n ra rb code c l s hs => ?_,
    fun u n ra rb code c oa ob ta tb s hs _ ha hb hw _ hcols => ?_, fun u n ra rb code c l s hs ho hp hnd => ?_,
    fun u n ra rb f code c i raw s hs hp hf h => ?_, fun u n ra rb code c i raw s hs hp hf hr => ?_,
    fun u n set tr clr sup va v c p s w hs ho hp => ?_⟩
  · have unit := unitOf_popCmd_onUnit (setFormat_cluster c.core w) u c.id s
    refine ⟨_, execMcsetUnit_runs hc ho, ?_, popCmd_hart _ _ _, ?_, fun k hk => ?_⟩ <;> rw [unit]
    · exact dropCmd_gone _ _
    · exact (formatOf_setFormat _ _ _ _).trans (if_pos rfl)
    · exact (formatOf_setFormat _ _ _ _).trans (if_neg hk)
  · have unit := unitOf_popCmd_onUnit (f := setRing r g) (fun _ => rfl) u c.id s
    refine ⟨_, execMrsetUnit_runs hc ho, ?_, popCmd_hart _ _ _, ?_, fun k hk => ?_⟩ <;> rw [unit]
    · exact dropCmd_gone _ _
    · exact (unitRing_setRing hr g r _).trans (if_pos rfl)
    · exact (unitRing_setRing hr g k _).trans (if_neg hk)
  · have unit := unitOf_popCmd_onUnit (f := fun x => stamp n (passTime s).dev.time (zeroAcc n x)) (fun _ => rfl) u c.id (passTime s)
    refine ⟨_, execMzeroUnit_runs hc ho hf, ?_, popCmd_hart _ _ _, ?_, fun m i j hi hj => ?_⟩ <;> rw [unit]
    · exact dropCmd_gone _ _
    · exact Vector.getElem?_setIfInBounds_self_of_lt hn
    · exact accGet_zeroAcc n m hi hj hw
  · exact ⟨fun ho hp => ⟨_, (execMmaUnit_product hs ho).trans (runProduct_runs hp), productDone_gone s⟩,
      fun ho hp => ⟨_, (execMmabUnit_product hs ho).trans (runProduct_runs hp), productDone_gone s⟩,
      fun ho hp => ⟨_, (execMpassUnit_product hs ho).trans (runProduct_runs hp), productDone_gone s⟩⟩
  · have one : (([(u, oa, ob, ta, tb)] : List (Nat × Operand × Operand × Tile × Tile)).map (·.1)).Nodup := List.nodup_singleton u
    refine ⟨fun ho hp => ⟨_, (execMmaUnit_product hs ho).trans (runProduct_runs hp), fun i j hi hj => ?_⟩,
      fun ho hp => ⟨_, (execMpassUnit_product hs ho).trans (runProduct_runs hp), fun i j hi hj => ?_⟩⟩
    · exact accGet_addProduct c.nbv n ha hb hw hcols hi hj
        (productDone_unit_acc (addProduct_cluster c.nbv n) List.mem_cons_self one s)
    · exact accGet_passTile n ha hb hw hcols hi hj (productDone_unit_acc (passTile_cluster n) List.mem_cons_self one s)
  · have units : (l.map (·.1)).Nodup := (tilesOf_units hp.2).nodup hnd
    refine ⟨_, (execMmabUnit_product hs ho).trans (runProduct_runs hp), fun k oa ob ta tb hk ha hb hw _ hcols i j hi hj => ?_⟩
    exact accGet_addProduct c.nbv n ha hb hw hcols hi hj (productDone_unit_acc (addProduct_cluster c.nbv n) hk units s)
  · obtain ⟨work, e⟩ := exec_product hs hp
    exact e.trans (runProduct_refused hf h)
  · obtain ⟨work, e⟩ := exec_product hs hp
    exact e.trans (runProduct_waits hf hr)
  · obtain rfl : p = drainPlan s c n set tr clr sup va v := hp
    refine ⟨fun f hf h => ?_, fun hf hm hl he => execMdrainUnit_runs hs ho hf hm hl he⟩
    subst hf
    exact execMdrainUnit_refused hs ho h

end Sys2Proof.Machine
end

section
/-! PROOFS. The scalar instructions that complete at issue (R54, R81 to R85). -/

namespace Sys2Proof.Machine

/-! ## Shifts and rotates of words (R54) -/

theorem wordOf_shlN (a : Word) (n : Nat) : wordOf (shlN 64 a.toNat n) = a <<< n := by
  refine BitVec.eq_of_toNat_eq ?_
  rw [wordOf, BitVec.toNat_ofNat, BitVec.toNat_shiftLeft, shlN]
  split
  · exact Nat.mod_mod _ _
  · next h => rw [Nat.shiftLeft_eq, Nat.mod_eq_zero_of_dvd (Dvd.dvd.mul_left (pow_dvd_pow 2 (Nat.le_of_not_lt h)) _)]

theorem wordOf_shrN (a : Word) (n : Nat) : wordOf (shrN 64 a.toNat n) = a >>> n := by
  refine BitVec.eq_of_toNat_eq ?_
  rw [wordOf, BitVec.toNat_ofNat, BitVec.toNat_ushiftRight, shrN, Nat.mod_eq_of_lt a.isLt]
  split
  · exact Nat.mod_eq_of_lt ((Nat.shiftRight_le _ _).trans_lt a.isLt)
  · next h => rw [Nat.shiftRight_eq_zero _ _ (a.isLt.trans_le (Nat.pow_le_pow_right Nat.two_pos (Nat.le_of_not_lt h)))]

/-- A word read as a signed number (R52). -/
theorem toInt_word (a : Word) : toInt true 64 a.toNat = a.toInt := by
  rw [toInt, Nat.mod_eq_of_lt a.isLt, BitVec.toInt_eq_toNat_cond]
  simp only [Bool.true_and, decide_eq_true_eq]
  split <;> split <;> omega

theorem wordOf_wrapInt (z : Int) : wordOf (wrapInt 64 z) = BitVec.ofInt 64 z := by
  refine BitVec.eq_of_toNat_eq ?_
  rw [wordOf, BitVec.toNat_ofNat, BitVec.toNat_ofInt, wrapInt]
  exact Nat.mod_eq_of_lt (by omega)

/-- Past bit 63 an arithmetic shift brings the sign only. -/
theorem sshiftRight_min (a : Word) (n : Nat) : a.sshiftRight (min n 63) = a.sshiftRight n := by
  rcases Nat.le_total n 63 with h | h
  · rw [Nat.min_eq_left h]
  · refine BitVec.eq_of_getLsbD_eq fun i hi => ?_
    rw [Nat.min_eq_right h, BitVec.getLsbD_sshiftRight, BitVec.getLsbD_sshiftRight, BitVec.msb_eq_getLsbD_last]
    congr 1
    split <;> split <;> congr 1 <;> omega

theorem wordOf_sarN (a : Word) (n : Nat) : wordOf (sarN 64 a.toNat n) = a.sshiftRight n := by
  rw [sarN, toInt_word, wordOf_wrapInt, ← sshiftRight_min]
  rfl

theorem wordOf_rolN (a : Word) (n : Nat) : wordOf (rolN 64 a.toNat n) = a.rotateLeft n := by
  refine BitVec.eq_of_toNat_eq ?_
  have right : a.toNat >>> (64 - n % 64) < 2 ^ 64 := (Nat.shiftRight_le _ _).trans_lt a.isLt
  rw [wordOf, BitVec.toNat_ofNat, BitVec.toNat_rotateLeft, rolN, Nat.mod_eq_of_lt a.isLt, Nat.mod_mod, Nat.or_mod_two_pow,
    Nat.mod_eq_of_lt right]

/-- A rotation right is one to the left by the rest of the 64 bits (R54). -/
theorem rotateLeft_sub (a : Word) (n : Nat) : a.rotateLeft (64 - n % 64) = a.rotateRight n := by
  refine BitVec.eq_of_toNat_eq ?_
  rw [BitVec.toNat_rotateLeft, BitVec.toNat_rotateRight]
  rcases Nat.eq_zero_or_pos (n % 64) with h | h
  · have gone : a.toNat >>> 64 = 0 := Nat.shiftRight_eq_zero _ _ a.isLt
    have wrapped : a.toNat <<< 64 % 2 ^ 64 = 0 := by rw [Nat.shiftLeft_eq, Nat.mul_mod_left]
    rw [h, Nat.sub_zero, Nat.mod_self, gone, wrapped, Nat.shiftLeft_zero, Nat.shiftRight_zero,
      Nat.mod_eq_of_lt a.isLt]
  · have left : (64 - n % 64) % 64 = 64 - n % 64 := Nat.mod_eq_of_lt (by omega)
    have back : 64 - (64 - n % 64) = n % 64 := by omega
    rw [left, back, Nat.or_comm]

theorem wordOf_rolN_right (a : Word) (n : Nat) : wordOf (rolN 64 a.toNat (64 - n % 64)) = a.rotateRight n := by
  rw [wordOf_rolN, rotateLeft_sub]

/-! ## Counts (R81) -/

/-- The highest one bit gives the length. -/
theorem bitLen_eq_succ {n w : Nat} (h : n < 2 ^ (w + 1)) (ht : n.testBit w = true) : bitLen n = w + 1 := by
  have low : 2 ^ w ≤ n := Nat.ge_two_pow_of_testBit ht
  have pos : n ≠ 0 := fun e => by simp [e] at ht
  rw [bitLen, if_neg pos, (Nat.log2_eq_iff pos).2 ⟨low, h⟩]

theorem bitLen_le {n w : Nat} (h : n < 2 ^ w) : bitLen n ≤ w := by
  rw [bitLen]
  split
  · exact Nat.zero_le w
  · next pos => exact (Nat.log2_lt pos).2 h

/-- The count of leading zeros, bit by bit. -/
theorem sub_bitLen_eq_length_takeWhile {w n : Nat} (h : n < 2 ^ w) :
    w - bitLen n = ((List.range w).takeWhile fun i => !(decide (i < w) && n.testBit (w - 1 - i))).length := by
  induction w with
  | zero => exact Nat.zero_sub _
  | succ w ih =>
    have rest : ((List.range w).map Nat.succ).takeWhile (fun i => !(decide (i < w + 1) && n.testBit (w + 1 - 1 - i))) =
        ((List.range w).takeWhile fun i => !(decide (i < w) && n.testBit (w - 1 - i))).map Nat.succ := by
      have shifted : ∀ i, w - 1 - i = w - (i + 1) := fun i => by omega
      simp [List.takeWhile_map, Function.comp_def, shifted]
    rw [List.range_succ_eq_map, List.takeWhile_cons, rest, decide_eq_true w.succ_pos, Bool.true_and]
    change _ = (if (!n.testBit w) = true then _ else []).length
    cases ht : n.testBit w with
    | true => rw [bitLen_eq_succ h ht, Nat.sub_self]; rfl
    | false =>
      have small : n < 2 ^ w := Nat.lt_pow_two_of_testBit n fun i hi => by
        rcases Nat.eq_or_lt_of_le hi with rfl | hi
        · exact ht
        · exact Nat.testBit_lt_two_pow (h.trans_le (Nat.pow_le_pow_right Nat.two_pos hi))
      rw [Bool.not_false, if_pos rfl, List.length_cons, List.length_map, ← ih small, Nat.succ_sub (bitLen_le small)]

theorem clzW_eq (a : Word) : clzW a = BitVec.ofNat 64 ((List.range 64).takeWhile fun i => !a.getMsbD i).length := by
  rw [clzW, sub_bitLen_eq_length_takeWhile a.isLt]
  rfl

/-! ## Fields and double words (R82, R85) -/

/-- A mask of low ones keeps a remainder. -/
theorem and_lowOnes (a : Word) {l : Nat} (h : l ≤ 64) : a &&& BitVec.ofNat 64 (2 ^ l - 1) = wordOf (a.toNat % 2 ^ l) := by
  refine BitVec.eq_of_toNat_eq ?_
  have ones : 2 ^ l - 1 < 2 ^ 64 := (Nat.sub_lt (Nat.two_pow_pos l) Nat.one_pos).trans_le (Nat.pow_le_pow_right Nat.two_pos h)
  rw [BitVec.toNat_and, BitVec.toNat_ofNat, Nat.mod_eq_of_lt ones, Nat.and_two_pow_sub_one_eq_mod, wordOf, BitVec.toNat_ofNat,
    Nat.mod_eq_of_lt ((Nat.mod_le _ _).trans_lt a.isLt)]

theorem fieldLen_le (b : Word) : fieldLen b ≤ 64 := Nat.min_le_right _ _

theorem bextW_eq (a b : Word) : bextW a b = (a >>> amount b) &&& BitVec.ofNat 64 (2 ^ fieldLen b - 1) := by
  rw [and_lowOnes _ (fieldLen_le b), BitVec.toNat_ushiftRight, Nat.shiftRight_eq_div_pow, bextW]
  split
  · next h =>
    rw [Nat.div_eq_of_lt (a.isLt.trans_le (Nat.pow_le_pow_right Nat.two_pos h)), Nat.zero_mod]
    rfl
  · rfl

theorem binsW_eq (d a b : Word) : binsW d a b = (d &&& ~~~(BitVec.ofNat 64 (2 ^ fieldLen b - 1) <<< amount b)) |||
    ((a <<< amount b) &&& (BitVec.ofNat 64 (2 ^ fieldLen b - 1) <<< amount b)) := by
  have mask : BitVec.ofNat 64 (2 ^ fieldLen b - 1) <<< amount b = wordOf ((2 ^ fieldLen b - 1) * 2 ^ amount b) := by
    refine BitVec.eq_of_toNat_eq ?_
    rw [BitVec.toNat_shiftLeft, wordOf, BitVec.toNat_ofNat, BitVec.toNat_ofNat, Nat.shiftLeft_eq, Nat.mod_mul_mod]
  rw [binsW]
  split
  · next h => rw [BitVec.shiftLeft_eq_zero h, BitVec.not_zero, BitVec.and_allOnes, BitVec.and_zero, BitVec.or_zero]
  · rw [mask]

theorem toNat_append_word (x y : Word) : (x ++ y).toNat = x.toNat * 2 ^ 64 + y.toNat := by
  rw [BitVec.toNat_append, ← Nat.shiftLeft_add_eq_or_of_lt y.isLt, Nat.shiftLeft_eq]

theorem fshlW_eq (d a b : Word) : fshlW d a b = ((d ++ a) <<< (b.toNat % 64)).extractLsb' 64 64 := by
  refine BitVec.eq_of_toNat_eq ?_
  rw [fshlW, wordOf, BitVec.toNat_ofNat, BitVec.extractLsb'_toNat, BitVec.toNat_shiftLeft, toNat_append_word, Nat.shiftLeft_eq,
    Nat.shiftRight_eq_div_pow]
  omega

theorem fshrW_eq (d a b : Word) : fshrW d a b = ((a ++ d) >>> (b.toNat % 64)).extractLsb' 0 64 := by
  refine BitVec.eq_of_toNat_eq ?_
  rw [fshrW, wordOf, BitVec.toNat_ofNat, BitVec.extractLsb'_toNat, BitVec.toNat_ushiftRight, toNat_append_word,
    Nat.shiftRight_zero, Nat.shiftRight_eq_div_pow]

/-- An immediate above the low bits of a word (R85). -/
theorem imm20_above {m k : Nat} (h : m + k = 64) (i : BitVec 20) (x : Word) :
    (imm20 i <<< k) + wordOf (x.toNat % 2 ^ k) = (i.signExtend m ++ x.extractLsb' 0 k).cast h := by
  have low : ∀ j < 64, (wordOf (x.toNat % 2 ^ k)).getLsbD j = (decide (j < k) && x.getLsbD j) := fun j hj => by
    rw [wordOf, BitVec.getLsbD_ofNat, decide_eq_true hj, Bool.true_and, Nat.testBit_mod_two_pow]
    rfl
  have high : ∀ j < 64, (imm20 i <<< k).getLsbD j = (!decide (j < k) && (i.signExtend m).getLsbD (j - k)) := fun j hj => by
    rw [BitVec.getLsbD_shiftLeft, imm20, decide_eq_true hj, Bool.true_and]
    by_cases hk : j < k
    · simp [hk]
    · have inside : j - k < 64 ∧ j - k < m := by omega
      rw [BitVec.getLsbD_signExtend, BitVec.getLsbD_signExtend, decide_eq_true inside.1, decide_eq_true inside.2, decide_eq_false hk]
  have apart : (imm20 i <<< k) &&& wordOf (x.toNat % 2 ^ k) = 0 := BitVec.eq_of_getLsbD_eq fun j hj => by
    rw [BitVec.getLsbD_and, high j hj, low j hj]
    by_cases hk : j < k <;> simp [hk]
  rw [BitVec.add_eq_or_of_and_eq_zero _ _ apart]
  refine BitVec.eq_of_getLsbD_eq fun j hj => ?_
  rw [BitVec.getLsbD_or, high j hj, low j hj, BitVec.getLsbD_cast, BitVec.getLsbD_append]
  by_cases hk : j < k <;> simp [hk]

/-! ## Comparisons -/

theorem boolW_decide (p : Prop) [Decidable p] : boolW (decide p) = if p then 1 else 0 := by
  simp only [boolW, decide_eq_true_eq]

/-- Between two values that are equal whenever the ones compared are, a strict and a weak comparison choose alike. -/
theorem ite_lt_eq_ite_le {α β : Type} [LinearOrder α] {x y : α} {u v : β} (h : x = y → u = v) :
    (if decide (x < y) then u else v) = if x ≤ y then u else v := by
  rcases lt_trichotomy x y with hl | he | hg
  · rw [decide_eq_true hl, if_pos rfl, if_pos hl.le]
  · rw [h he, ite_self, ite_self]
  · rw [decide_eq_false hg.not_gt, if_neg Bool.false_ne_true, if_neg hg.not_ge]

/-- An immediate keeps its sign (R31). -/
theorem toInt_imm15 (i : BitVec 15) : (imm15 i).toInt = i.toInt := BitVec.toInt_signExtend_of_le (by decide)

/-! ## The instructions -/

/-- Each instruction of `scalarResult` writes the value of its table and retires (R81 to R85). -/
theorem exec_scalarResult {i : Instr} {d : Reg} {v : Word} {s : State} (h : scalarResult s i = some (d, v)) :
    exec i s = aluWrite d v s := by
  unfold scalarResult at h
  split at h
  -- the shifts and rotates
  case h_10 | h_34 => cases h; exact congrArg (aluWrite d · s) (wordOf_shlN _ _)
  case h_11 | h_35 => cases h; exact congrArg (aluWrite d · s) (wordOf_shrN _ _)
  case h_12 | h_36 => cases h; exact congrArg (aluWrite d · s) (wordOf_sarN _ _)
  case h_13 => cases h; exact congrArg (aluWrite d · s) (wordOf_rolN _ _)
  case h_14 | h_37 => cases h; exact congrArg (aluWrite d · s) (wordOf_rolN_right _ _)
  -- MIN, MAX, MINN, MAXN
  case h_15 | h_16 => cases h; exact congrArg (aluWrite d · s) (ite_lt_eq_ite_le fun e => by rw [BitVec.eq_of_toInt_eq e])
  case h_17 | h_18 => cases h; exact congrArg (aluWrite d · s) (ite_lt_eq_ite_le fun e => by rw [BitVec.eq_of_toNat_eq e])
  -- CLZ, CTZ, POPC
  case h_19 => cases h; exact congrArg (aluWrite d · s) (clzW_eq _)
  case h_20 => cases h; exact congrArg (fun n => aluWrite d (wordOf n) s) (ctzN_eq_length_takeWhile 64 _)
  case h_21 => cases h; exact congrArg (fun n => aluWrite d (wordOf n) s) (popN_eq_length_filter 64 _)
  -- SLT, SLTN, SEQ, SLTI
  case h_22 | h_23 | h_24 => cases h; exact congrArg (aluWrite d · s) (boolW_decide _)
  case h_33 =>
    cases h
    rw [← toInt_imm15]
    exact congrArg (aluWrite d · s) (boolW_decide _)
  -- BEXT, BINS, FSHL, FSHR
  case h_25 => cases h; exact congrArg (aluWrite d · s) (bextW_eq _ _)
  case h_26 => cases h; exact congrArg (aluWrite d · s) (binsW_eq _ _ _)
  case h_27 => cases h; exact congrArg (aluWrite d · s) (fshlW_eq _ _ _)
  case h_28 => cases h; exact congrArg (aluWrite d · s) (fshrW_eq _ _ _)
  -- LUI, LHI
  case h_39 | h_40 => cases h; exact congrArg (aluWrite d · s) (imm20_above rfl _ _)
  -- no scalar result
  case h_41 => cases h
  -- the others, by their definitions
  all_goals
    cases h
    rfl

/-- Settles O8: each instruction is a write of one scalar register, which completes. -/
theorem scalarInstructionsComplete : Obligations.ScalarInstructionsComplete := by
  intro i d v s h hq
  rw [exec_scalarResult h]
  exact setX_completes [d.toNat] d v hq

end Sys2Proof.Machine
end

section
/-! PROOFS. Branches and jumps (R31, R75, R86 to R89). -/

namespace Sys2Proof.Machine

/-! ## Targets -/

/-- The words of an offset are four times as many bytes, modulo 2^16. -/
theorem shiftLeft_two_eq_ofInt {b : BitVec 16} {z : Int} (h : z % 65536 = b.toNat) : b <<< 2 = BitVec.ofInt 16 (4 * z) := by
  refine BitVec.eq_of_toNat_eq ?_
  rw [BitVec.toNat_shiftLeft, BitVec.toNat_ofInt, Nat.shiftLeft_eq]
  omega

/-- The targets of R31. -/
theorem target12_eq_wordsFrom (pc : IAddr) (o : BitVec 12) : target12 pc o = wordsFrom pc o.toInt := by
  have signed : (o.signExtend 16).toInt = o.toInt := BitVec.toInt_signExtend_of_le (by decide)
  refine congrArg (pc + ·) (shiftLeft_two_eq_ofInt ?_)
  rw [← signed, BitVec.toInt_eq_toNat_cond]
  split <;> omega

theorem target20_eq_wordsFrom (pc : IAddr) (o : BitVec 20) : target20 pc o = wordsFrom pc o.toInt := by
  refine congrArg (pc + ·) (shiftLeft_two_eq_ofInt ?_)
  rw [BitVec.toNat_setWidth, BitVec.toInt_eq_toNat_cond]
  split <;> omega

/-! ## The end of a branch or jump (R75) -/

/-- A jump that links, retired in a quiet state: it goes to its target and changes its link register only (R87). -/
theorem jump_completes {s : State} (d : Reg) (t : IAddr) (hq : Quiet s) :
    ∃ u, jump d t s = .next u ∧ FlowsTo s u t ∧ WritesX s u d ((s.hart.pc + 4).setWidth 64) ∧ ScalarFrame s u := by
  obtain ⟨x, xsh, e⟩ := setX_only d (linkOf s) s
  have done : jump d t s = .next (ended s (setPc t (setX d (linkOf s) s))) := by
    refine finishAt_quiet _ t hq ?_ ?_
    · rw [curCtx_congr (setX_dev _ _ _) (by rw [setX_ar])]
      exact hq.2
    · rw [setX_dbg]
  refine ⟨_, done, ?_, fun r => xr_setX s d r _, ?_⟩
  · rw [e]
    exact ⟨rfl, rfl, rfl, rfl⟩
  · rw [e]
    exact ⟨⟨rfl, fun _ => rfl⟩, ⟨rfl, rfl⟩, rfl, rfl⟩

/-- A branch, retired in a quiet state: it goes where its condition says and writes no register (R86). -/
theorem branch_completes {s : State} (c : Prop) [Decidable c] (o : BitVec 12) (hq : Quiet s) :
    ∃ t, branch (decide c) o s = .next t ∧ (c → FlowsTo s t (wordsFrom s.hart.pc o.toInt)) ∧
      (¬ c → FlowsTo s t (s.hart.pc + 4)) ∧ t.hart.regs = s.hart.regs ∧ t.hart.ar = s.hart.ar ∧ CoreFrame s t := by
  refine ⟨_, finishAt_quiet [] _ hq hq.2 rfl, fun h => ?_, fun h => ?_, rfl, rfl, rfl, fun _ => rfl⟩
  · refine ⟨?_, rfl, rfl, rfl⟩
    change (if decide c then target12 s.hart.pc o else s.hart.pc + 4) = _
    rw [decide_eq_true h, if_pos rfl, target12_eq_wordsFrom]
  · refine ⟨?_, rfl, rfl, rfl⟩
    change (if decide c then target12 s.hart.pc o else s.hart.pc + 4) = _
    rw [decide_eq_false h, if_neg Bool.false_ne_true]

theorem not_sltW (a b : Word) : (!sltW a b) = decide (b.toInt ≤ a.toInt) := by
  rw [sltW, BitVec.slt, ← decide_not, decide_eq_decide, not_lt]

theorem not_ultW (a b : Word) : (!ultW a b) = decide (b.toNat ≤ a.toNat) := by
  rw [ultW, BitVec.ult, ← decide_not, decide_eq_decide, not_lt]

/-- Each of the six branches is taken when its condition holds (R86). -/
theorem exec_branchOf {i : Instr} {c : Prop} {o : BitVec 12} {s : State} (h : branchOf s i = some (c, o)) :
    ∃ _ : Decidable c, exec i s = branch (decide c) o s := by
  unfold branchOf at h
  split at h
  -- BEQ, BLT, BLTN
  case h_1 | h_3 | h_5 =>
    cases h
    exact ⟨_, rfl⟩
  -- BNE
  case h_2 =>
    cases h
    exact ⟨_, congrArg (branch · o s) decide_not.symm⟩
  -- BGE, BGEN
  case h_4 =>
    cases h
    exact ⟨_, congrArg (branch · o s) (not_sltW _ _)⟩
  case h_6 =>
    cases h
    exact ⟨_, congrArg (branch · o s) (not_ultW _ _)⟩
  case h_7 => cases h

/-- Settles O10: each branch tests its condition, and a branch writes nothing but its way. -/
theorem branchesCompleteAndWriteNothing : Obligations.BranchesCompleteAndWriteNothing := by
  intro i c o s h hq
  obtain ⟨_, e⟩ := exec_branchOf h
  rw [e]
  exact branch_completes c o hq

/-! ## The jumps -/

/-- A fenced jump waits exactly while its segment is fetched (R89). -/
theorem jumpWaits_iff (s : State) (a : IAddr) : jumpWaits s.hart a = true ↔ segState s a = .fetching := beq_iff_eq

/-- A jump to `a`: with `r` the alignment of its target is checked, with `f` it waits for its segment (R87 to R89). -/
def jumpTo (d : Reg) (a : Word) (f r : Bool) (s : State) : Out :=
  if r && a.toNat % 4 != 0 then trap .misaligned a s
  else if f && jumpWaits s.hart (a.setWidth 16) then hold s
  else jump d (a.setWidth 16) s

/-- The target of a jump by an offset is an instruction address already. -/
theorem setWidth_target (pc : IAddr) (o : BitVec 20) : ((wordsFrom pc o.toInt).setWidth 64).setWidth 16 = target20 pc o := by
  rw [BitVec.setWidth_setWidth_of_le _ (by decide), BitVec.setWidth_eq, target20_eq_wordsFrom]

/-- The four jumps, with their targets, waits and checks (R87 to R89). -/
theorem exec_jumpOf {i : Instr} {d : Reg} {a : Word} {f r : Bool} {s : State} (h : jumpOf s i = some (d, a, f, r)) :
    exec i s = jumpTo d a f r s := by
  unfold jumpOf at h
  split at h
  -- JAL, JF
  case h_1 | h_2 =>
    cases h
    rw [jumpTo, setWidth_target]
    rfl
  -- JR, JRF
  case h_3 | h_4 =>
    cases h
    rfl
  case h_5 => cases h

/-- Misaligned comes before any wait (R88). -/
theorem jumpTo_misaligned {d : Reg} {a : Word} {f r : Bool} {s : State} (hr : r = true) (ha : a.toNat % 4 ≠ 0) :
    jumpTo d a f r s = trap .misaligned a s := by
  rw [jumpTo, if_pos (by simp [hr, ha])]

theorem jumpTo_aligned {d : Reg} {a : Word} {f r : Bool} {s : State} (ha : r = true → a.toNat % 4 = 0) :
    jumpTo d a f r s = if f && jumpWaits s.hart (a.setWidth 16) then hold s else jump d (a.setWidth 16) s := by
  rw [jumpTo, if_neg (by simpa using ha)]

/-- Settles O11: the check comes first, then the wait, and a jump that goes writes its link only. -/
theorem jumpsLinkAndGo : Obligations.JumpsLinkAndGo := by
  intro i d a f r s h
  rw [exec_jumpOf h]
  refine ⟨fun ha hf hq => ?_, jumpTo_misaligned, fun ha hf hw => ?_⟩
  · rw [jumpTo_aligned ha, if_neg (by simpa [jumpWaits_iff] using hf)]
    exact jump_completes d _ hq
  · rw [jumpTo_aligned ha, if_pos (by simp [hf, jumpWaits_iff, hw])]
    rfl

end Sys2Proof.Machine
end

section
/-! PROOFS. The CSR instructions (R77, R79, R80). -/

namespace Sys2Proof.Machine

/-! ## A write of a CSR keeps a state quiet -/

theorem SameMode.putArith {f : Arith → Arith} {s : State} (hf : (f s.hart.ar).ctx = s.hart.ar.ctx) :
    SameMode s (putArith f s) := .onHart hf rfl

theorem SameMode.putSlot (i : Nat) (f : Slot → Slot) (s : State) : SameMode s (putSlot i f s) := .onHart rfl rfl

theorem SameMode.putQuorum (i : Nat) (v : Word) (s : State) : SameMode s (putQuorum i v s) :=
  foldl_kept (P := SameMode s) (fun u _ h => h.trans (.putSlot _ _ u)) _ (.refl s)

/-- No write of a CSR changes the mode of a context (R80, R385): ULCTL, which holds it, is not written so. -/
theorem SameMode.csrPut (a : Nat) (v : Word) (s : State) : SameMode s (csrPut a v s) := by
  unfold Machine.csrPut
  split
  -- FRM, FFLAGS, LFSR, SATF
  case h_1 | h_2 | h_3 | h_4 => exact .putArith rfl
  -- the registers of user interrupts, traps and traces
  case h_5 | h_6 | h_7 | h_8 | h_9 | h_10 | h_11 | h_12 | h_14 | h_15 => exact .onHart rfl rfl
  -- ULFULL
  case h_13 => exact .onCtx_same fun _ => ⟨rfl, rfl, rfl⟩
  -- the quorums
  case h_16 | h_17 => exact .putQuorum _ _ _
  -- CSEL, MSEL
  case h_18 | h_21 => exact .of_ctxs rfl rfl
  -- CROOT, CBUDG
  case h_19 | h_20 => exact .onCtx_same fun _ => ⟨rfl, rfl, rfl⟩
  -- the slots
  case h_22 => exact .of_ite (.putSlot _ _ _) (.refl s)

theorem SameMode.readState (c : BitVec 12) (s : State) : SameMode s (readState c s) := .of_ite (.passTime s) (.refl s)

theorem SameMode.csrAfter (c : BitVec 12) (w : Option (Word → Word)) (s : State) : SameMode s (csrAfter c w s) := by
  cases w with
  | none => exact .refl s
  | some f => exact .csrPut _ _ s

/-! ## The instructions -/

/-- A read of TIME or WINDOW lets time pass first, every other read nothing (R15, R245). -/
theorem csrRead_eq (c : BitVec 12) (s : State) : csrRead c.toNat s = (csrVal (readState c s) c.toNat, readState c s) := by
  have address : (c.toNat = 0x030 ∨ c.toNat = 0x031) ↔ (c = 0x030 ∨ c = 0x031) := by simp [← BitVec.toNat_inj]
  simp only [csrRead, readState, Bool.or_eq_true, decide_eq_true_eq, address]
  split <;> rfl

/-- A CSR instruction that its mode allows reads, writes and goes on (R79). -/
theorem csrOp_allowed {w : IWord} {d : Reg} {c : BitVec 12} {new : Option (Word → Word)} {s : State}
    (ha : csrAllowed s.hart.mode c.toNat new.isSome = true) (hq : Quiet s) : csrOp w d c new s = .next (wentOn s
      (setX d (csrVal (readState c s) c.toNat) (csrAfter c new (readState c s)))) := by
  have same : SameMode s (setX d (csrVal (readState c s) c.toNat) (csrAfter c new (readState c s))) :=
    ((SameMode.readState c s).trans (.csrAfter c new _)).trans (.setX d _ _)
  have e : csrOp w d c new s = finish s [d.toNat] (setX d (csrVal (readState c s) c.toNat) (csrAfter c new (readState c s))) := by
    simp only [csrOp, ha, csrRead_eq]
    cases new <;> rfl
  exact e.trans (same.finish _ hq)

/-- A CSR instruction that its mode does not allow is illegal (R77, R79). -/
theorem csrOp_refused {w : IWord} {d : Reg} {c : BitVec 12} {new : Option (Word → Word)} {s : State}
    (ha : csrAllowed s.hart.mode c.toNat new.isSome = false) : csrOp w d c new s = illegal w s := by
  rw [csrOp, ha]
  rfl

/-- The five instructions, with their own words for a trap (R79). -/
theorem exec_csrInstr {i : Instr} {d : Reg} {c : BitVec 12} {w : Option (Word → Word)} {s : State}
    (h : csrInstr s i = some (d, c, w)) : exec i s = csrOp (encode i) d c w s := by
  unfold csrInstr at h
  split at h
  case h_6 => cases h
  all_goals
    cases h
    rfl

/-- Settles O15: an instruction that its mode allows reads, then writes, and ends as quiet as it began; any other traps. -/
theorem csrInstructionsReadThenWrite : Obligations.CsrInstructionsReadThenWrite := by
  intro i d c w s h
  rw [exec_csrInstr h]
  exact ⟨csrOp_allowed, csrOp_refused⟩

end Sys2Proof.Machine
end

section
/-! PROOFS. Code fetches (R90 to R94). -/

namespace Sys2Proof.Machine

/-! ## Segments -/

theorem setSeg_hart (k : Nat) (g : Seg) (s : State) :
    (setSeg k g s).hart = { s.hart with segs := s.hart.segs.setIfInBounds k g } := rfl
theorem setSeg_dev (k : Nat) (g : Seg) (s : State) : (setSeg k g s).dev = s.dev := rfl

theorem segAt_setSeg {k : Nat} (hk : k ≤ 15) (g : Seg) (s : State) : segAt (setSeg k g s) k = g := by
  have inside : k < 16 := Nat.lt_succ_of_le hk
  simp [segAt, setSeg, Vector.getD, inside]

/-! ## Room made for a line changes the cluster only (R134, R136) -/

/-- `u` is `s` but for its cluster. -/
def CluOnly (s u : State) : Prop := u.hart = s.hart ∧ u.dev = s.dev

namespace CluOnly

theorem refl (s : State) : CluOnly s s := ⟨rfl, rfl⟩

theorem trans {s u v : State} (h : CluOnly s u) (k : CluOnly u v) : CluOnly s v := ⟨k.1.trans h.1, k.2.trans h.2⟩

theorem onClu (f : Cluster → Cluster) (s : State) : CluOnly s (onClu f s) := ⟨rfl, rfl⟩

theorem of_ite {s u v : State} {p : Prop} [Decidable p] (h : CluOnly s u) (k : CluOnly s v) : CluOnly s (if p then u else v) := by
  split <;> assumption

theorem pathPut (r : StoreReq) (s : State) : CluOnly s (pathPut r s) := by
  unfold Machine.pathPut
  split <;> exact onClu _ s

theorem sendDirty (x : CmLine) (o : Origin) (s : State) : CluOnly s (sendDirty x o s) := of_ite (refl s) (pathPut _ s)

theorem uoFlushLine (x : CmLine) (s : State) : CluOnly s (uoFlushLine x s) := by
  unfold Machine.uoFlushLine
  split
  · exact refl s
  · exact (onClu _ s).trans (of_ite (refl _) (pathPut _ _))

theorem evictLine (x : CmLine) (s : State) : CluOnly s (evictLine x s) := by
  have sent : CluOnly s ((leavers s x).foldl (fun s y => Machine.sendDirty y (originOf s) s) s) :=
    foldl_kept (P := CluOnly s) (fun u y h => h.trans (sendDirty y _ u)) _ (refl s)
  exact of_ite (uoFlushLine x s) (sent.trans (onClu _ _))

theorem evictOne (keep : CmLine → Bool) (s : State) : CluOnly s (evictOne keep s) := by
  unfold Machine.evictOne
  dsimp only
  split <;> [exact evictLine _ s; exact refl s]

theorem makeRoom (l : Loc) (wr : Bool) (n : Nat) (s : State) : CluOnly s (makeRoom l wr n s) := by
  induction n generalizing s with
  | zero => exact refl s
  | succ n ih => exact of_ite (refl s) ((evictOne _ s).trans (ih _))

theorem roomFor (l : Loc) (wr : Bool) (s : State) : CluOnly s (roomFor l wr s) := of_ite (refl s) (makeRoom l wr _ s)

theorem cmFill (l : Loc) (s : State) : CluOnly s (cmFill l s) := by
  unfold Machine.cmFill
  refine of_ite ?_ (onClu _ s)
  exact foldl_kept (P := CluOnly s) (fun u _ h => h.trans (of_ite (refl u) (onClu _ u))) _ (refl s)

theorem fetchFill (s : State) (r : LoadReq) : CluOnly s (fetchFill s r) :=
  of_ite (refl s) ((roomFor r.loc false s).trans (of_ite (cmFill r.loc _) (refl _)))

theorem fetchFills (l : List LoadReq) (s : State) : CluOnly s (l.foldl Machine.fetchFill s) :=
  foldl_kept (P := CluOnly s) (fun u r h => h.trans (fetchFill u r)) l (refl s)

end CluOnly

/-! ## CFETCH and CFSTAT -/

/-- The checks of CFETCH in their order: the alignment, then the segment (R92). -/
theorem execCfetch_misaligned {a b : Reg} {s : State} (h : (xr s a).toNat % 4096 ≠ 0) :
    execCfetch a b s = trap .misaligned (xr s a) s := if_pos (by simpa using h)

theorem execCfetch_refused {a b : Reg} {s : State} (ha : (xr s a).toNat % 4096 = 0)
    (hb : 15 < (xr s b).toNat ∨ (xr s b = 0 ∧ s.hart.mode = .u)) : execCfetch a b s = trap .protection (xr s b) s := by
  rw [execCfetch]
  simp only [ha, bne_self_eq_false, Bool.false_eq_true, if_false]
  split
  · rfl
  · next hk => exact if_pos (by simpa using hb.resolve_left hk)

/-- CFETCH whose checks hold begins the fetch (R92). -/
theorem execCfetch_begins {a b : Reg} {s : State} (ha : (xr s a).toNat % 4096 = 0) (hb : (xr s b).toNat ≤ 15)
    (hu : xr s b = 0 → s.hart.mode ≠ .u) : execCfetch a b s =
      finishFx s [] (setSeg (xr s b).toNat ⟨.fetching, 0, xr s a, s.hart.mode == .u⟩ s) := by
  rw [execCfetch]
  simp only [ha, bne_self_eq_false, Bool.false_eq_true, if_false]
  rw [if_neg (Nat.not_lt.2 hb), if_neg (by simpa using hu)]

/-- The value that CFSTAT writes (R93). -/
theorem segCode_eq (g : Seg) : wordOf ((if g.st = .failed then g.cause.toNat * 256 else 0) + segCode g.st) =
    match g.st with
      | .landed => 0
      | .fetching => 1
      | .empty => 2
      | .failed => g.cause.setWidth 64 <<< 8 ||| 3 := by
  cases h : g.st
  case failed =>
    have hc := g.cause.isLt
    have small : g.cause.toNat <<< 8 < 2 ^ 64 := by rw [Nat.shiftLeft_eq]; omega
    have wide : (g.cause.setWidth 64 <<< 8).toNat = g.cause.toNat <<< 8 := by
      rw [BitVec.toNat_shiftLeft, BitVec.toNat_setWidth, Nat.mod_eq_of_lt (a := g.cause.toNat) (by omega), Nat.mod_eq_of_lt small]
    refine BitVec.eq_of_toNat_eq ?_
    change (wordOf (g.cause.toNat * 256 + 3)).toNat = _
    rw [BitVec.toNat_or, wide, Nat.or_comm, wordOf, BitVec.toNat_ofNat]
    change _ = 3 ||| _
    rw [or_shiftLeft_eq_add (by decide)]
    omega
  all_goals rfl

/-- CFSTAT of a segment that there is not, and of one that there is (R93). -/
theorem execCfstat_refused {d a : Reg} {s : State} (h : 15 < (xr s a).toNat) :
    execCfstat d a s = trap .protection (xr s a) s := if_pos h

theorem execCfstat_reads {d a : Reg} {s : State} (h : (xr s a).toNat ≤ 15) : execCfstat d a s =
    finish s [d.toNat] (setX d (match (segAt s (xr s a).toNat).st with
      | .landed => 0
      | .fetching => 1
      | .empty => 2
      | .failed => (segAt s (xr s a).toNat).cause.setWidth 64 <<< 8 ||| 3) s) := by
  rw [← segCode_eq]
  exact if_neg (Nat.not_lt.2 h)

/-! ## CODE_FETCH_COMPLETE (R90, R94) -/

section
variable {k : Nat} {s : State}

/-- The segment that an instruction names (R90). -/
theorem segs_getD (k : Nat) (s : State) : s.hart.segs.getD k Seg.reset = segAt s k := rfl

/-- A fetch whose core's stores have left the queue goes on. -/
theorem fetchGuard (hk : k ≤ 15) (hf : (segAt s k).st = .fetching) (hs : s.hart.sq = []) :
    ((segAt s k).st != .fetching || decide (k > 15) || !s.hart.sq.isEmpty) = false := by
  simp [hk, hf, hs]

variable (hk : k ≤ 15) (hf : (segAt s k).st = .fetching) (hs : s.hart.sq = [])
include hk hf hs

/-- An address that is none of device virtual memory; its segment keeps it (log 110). -/
theorem codeFetch_offDevice (hd : isDevVa (segAt s k).addr = false) :
    execCodeFetchComplete k s = .next (setSeg k { segAt s k with st := .failed, cause := 0x04 } s) := by
  simp only [execCodeFetchComplete, segs_getD, fetchGuard hk hf hs, hd]
  rfl

/-- An image that does not translate with code access: the cause and the address are the walk's (R94). -/
theorem codeFetch_refused (hd : isDevVa (segAt s k).addr = true) {c : Cause} {v : Word} {o : Nat}
    (ht : translate s (segAt s k).user true ⟨false, false, 0⟩ (segAt s k).addr = .error (c, v, o)) :
    execCodeFetchComplete k s = .next (setSeg k { segAt s k with st := .failed, cause := causeCode c, addr := v } s) := by
  simp only [execCodeFetchComplete, segs_getD, fetchGuard hk hf hs, hd, ht]
  rfl

/-- Poison in the image: the segment keeps the lowest address (R94, R140). -/
theorem codeFetch_poisoned (hd : isDevVa (segAt s k).addr = true) {l : Leaf} {u : State}
    (ht : translate s (segAt s k).user true ⟨false, false, 0⟩ (segAt s k).addr = .ok (l, u))
    (hp : (fetchLines u (segAt s k) l).all (canPerform u) = true) {a : Word}
    (ha : (fetchLines u (segAt s k) l).findSome? (fun r => (loadPoison u r).map fun i => r.va + wordOf i) = some a) :
    execCodeFetchComplete k s = .next (setSeg k { segAt s k with st := .failed, cause := 0x0C, addr := a } u) := by
  simp only [execCodeFetchComplete, segs_getD, fetchGuard hk hf hs, hd, ht, hp, ha]
  rfl

/-- A clean image lands whole (R94). -/
theorem codeFetch_lands (hd : isDevVa (segAt s k).addr = true) {l : Leaf} {u : State}
    (ht : translate s (segAt s k).user true ⟨false, false, 0⟩ (segAt s k).addr = .ok (l, u))
    (hp : (fetchLines u (segAt s k) l).all (canPerform u) = true)
    (hc : ∀ r ∈ fetchLines u (segAt s k) l, loadPoison u r = none) :
    ∃ v, CluOnly u v ∧ execCodeFetchComplete k s = .next (setSeg k { segAt s k with st := .landed } (onHart (fun h => { h with
      imem := memPut h.imem (4096 * k) ((fetchLines u (segAt s k) l).flatMap (loadBytes u)) }) v)) := by
  refine ⟨_, .fetchFills (fetchLines u (segAt s k) l) u, ?_⟩
  have clean : (fetchLines u (segAt s k) l).findSome? (fun r => (loadPoison u r).map fun i => r.va + wordOf i) = none :=
    List.findSome?_eq_none_iff.2 fun r hr => by rw [hc r hr, Option.map_none]
  simp only [execCodeFetchComplete, segs_getD, fetchGuard hk hf hs, hd, ht, hp, clean]
  rfl

end

/-- Settles O14: CFETCH and CFSTAT check, then write; a fetch completes by the first of its checks that fails, or lands whole, and
room made in the pool for its lines changes the cluster only. -/
theorem codeFetchInstructions : Obligations.CodeFetchInstructions := by
  refine ⟨fun a b s ha => execCfetch_misaligned ha, fun a b s ha hb => execCfetch_refused ha hb,
    fun a b s ha hb hu hq => ?_, fun d a s h => ?_, fun d a s h hq => ?_,
    fun k s hk hf hs => ⟨fun hd => ?_, fun hd c v o ht => ?_, fun hd l u ht hp => ⟨fun a ha => ?_, fun hc => ?_⟩⟩⟩
  · refine (execCfetch_begins ha hb hu).trans (SameMode.finish ?_ _ hq)
    exact SameMode.trans (.onHart rfl rfl) (.markEffect _)
  · exact execCfstat_refused h
  · exact exec_setX_completes (i := .cfstat d a) (execCfstat_reads h) hq
  · exact ⟨_, codeFetch_offDevice hk hf hs hd, segAt_setSeg hk _ s, rfl⟩
  · exact ⟨_, codeFetch_refused hk hf hs hd ht, segAt_setSeg hk _ s, rfl⟩
  · exact ⟨_, codeFetch_poisoned hk hf hs hd ht hp ha, segAt_setSeg hk _ u⟩
  · obtain ⟨v, ⟨hart, dev⟩, done⟩ := codeFetch_lands hk hf hs hd ht hp hc
    refine ⟨_, done, segAt_setSeg hk _ _, ?_, ?_, ?_⟩
    · rw [setSeg_dev, onHart_dev, dev]
    · rw [setSeg_hart, onHart_hart, hart]
    · rw [setSeg_hart, onHart_hart, hart]

end Sys2Proof.Machine
end

section
/-! SUPPORT. Effects on register files and held writes, and the held writes after an instruction (R38, R39, R75). -/

namespace Sys2Proof.Machine

/-! ## Windows counted -/

/-- A held write counted down names what it named, with its value, its lanes and its flags (R38). -/
theorem mem_countWindows {h : Hart} {n : Nat} {w : Held} (hw : w ∈ (countWindows h n).held) :
    ∃ e ∈ h.held, ∃ l, w = { e with left := l } := by
  obtain ⟨e, he, rfl⟩ := List.mem_map.1 hw
  refine ⟨e, he, ?_⟩
  split
  · exact ⟨e.left - 1, rfl⟩
  · exact ⟨e.left, rfl⟩

/-- A write that the counted instruction opened itself is not counted down (R38). -/
theorem countWindows_opened {h k : Hart} {w : Held} (hk : k.held = h.held ++ [w]) (hs : k.saved = h.saved) {n : Nat} (hn : n ≤ w.id) :
    (countWindows k n).held = (countWindows h n).held ++ [w] := by
  have depth : depthOf k = depthOf h := congrArg List.length hs
  have fresh : (w.depth == depthOf h && decide (w.id < n) && decide (w.left > 0)) = false := by
    simp [Nat.not_lt.2 hn]
  simp only [countWindows, hk, depth, List.map_append, List.map_cons, List.map_nil, fresh, Bool.false_eq_true, if_false]

/-! ## Effects on register files and held writes -/

/-- `u` is `s` but for its register files, its flags, rounding mode and LFSR, and its held writes. -/
def CoreOnly (s u : State) : Prop :=
  ∃ r a l n, u = { s with hart := { s.hart with regs := r, ar := a, held := l, nextId := n } } ∧ a.ctx = s.hart.ar.ctx

theorem CoreOnly.setX {s u : State} (h : CoreOnly s u) (d : Reg) (v : Word) : CoreOnly s (setX d v u) := by
  obtain ⟨r, a, l, n, rfl, hc⟩ := h
  obtain ⟨x, xsh, e⟩ := setX_only d v { s with hart := { s.hart with regs := r, ar := a, held := l, nextId := n } }
  exact ⟨{ r with x := x, xsh := xsh }, a, l, n, e, hc⟩

/-- The end of an instruction that writes register files and held writes only, in a quiet state. -/
theorem CoreOnly.finish {s u : State} (h : CoreOnly s u) (regs : List Nat) (hq : Quiet s) :
    finish s regs u = .next (wentOn s u) := by
  obtain ⟨r, a, l, n, rfl, hc⟩ := h
  exact finish_core regs hq rfl hc rfl

theorem CoreOnly.coreFrame {s u : State} (h : CoreOnly s u) : CoreFrame s (wentOn s u) := by
  obtain ⟨r, a, l, n, rfl, -⟩ := h
  obtain ⟨p, f, e⟩ := wentOn_flow s { s with hart := { s.hart with regs := r, ar := a, held := l, nextId := n } }
  rw [e]
  exact ⟨rfl, fun _ => rfl⟩

theorem CoreOnly.flowsOn {s u : State} (h : CoreOnly s u) : FlowsOn s (wentOn s u) := by
  obtain ⟨r, a, l, n, rfl, -⟩ := h
  exact flowsOn_wentOn rfl rfl

/-- The held writes that stand when an instruction has retired. -/
theorem wentOn_held (s u : State) : (wentOn s u).hart.held = (countWindows u.hart s.hart.nextId).held := by
  obtain ⟨p, f, e⟩ := wentOn_flow s u; rw [e]; rfl
@[simp] theorem wentOn_nextId (s u : State) : (wentOn s u).hart.nextId = u.hart.nextId := by
  obtain ⟨p, f, e⟩ := wentOn_flow s u; rw [e]; rfl

@[simp] theorem setX_held (d : Reg) (v : Word) (s : State) : (setX d v s).hart.held = s.hart.held := by
  obtain ⟨x, xsh, e⟩ := setX_only d v s; rw [e]
@[simp] theorem setX_v (d : Reg) (v : Word) (s : State) : (setX d v s).hart.regs.v = s.hart.regs.v := by
  obtain ⟨x, xsh, e⟩ := setX_only d v s; rw [e]
@[simp] theorem setX_allot (d : Reg) (v : Word) (s : State) : (setX d v s).hart.regs.allot = s.hart.regs.allot := by
  obtain ⟨x, xsh, e⟩ := setX_only d v s; rw [e]

end Sys2Proof.Machine
end

section
/-! PROOFS. The allotment (R99, R127). -/

namespace Sys2Proof.Machine

theorem legalAllot_iff (q : Word) : legalAllot q = true ↔ isAllotment q := by
  simp [legalAllot, isAllotment, or_assoc]

/-- The allotment set to `q`, with the names from `lo` to `hi - 1` zeroed (R99, R127). -/
def setAllot (lo hi q : Nat) (h : Hart) : Hart :=
  { zeroNames lo hi h with regs := { (zeroNames lo hi h).regs with allot := q } }

/-- The names that change hands read zero, the others as before (R99). -/
theorem setAllot_v (lo hi q : Nat) (h : Hart) {n : Nat} (hn : n < 32) :
    (setAllot lo hi q h).regs.v[n] = if lo ≤ n ∧ n < hi then 0 else h.regs.v[n] := by
  simp only [setAllot, zeroNames, Vector.getElem_mapIdx, Bool.and_eq_true, decide_eq_true_eq]

/-- Setting the allotment changes the vector registers and the allotment only. -/
theorem RegsOnly.setAllot (lo hi q : Nat) (s : State) : RegsOnly s (onHart (Machine.setAllot lo hi q) s) :=
  ⟨(Machine.setAllot lo hi q s.hart).regs, s.hart.ar, rfl, rfl⟩

/-- What an instruction that sets the allotment leaves of the registers, and the returned allotment (R127). -/
theorem allotment_returned {s u : State} {lo hi : Nat} {q : Word} (hr : u.hart.regs = (setAllot lo hi q.toNat s.hart).regs)
    (hu : u.hart.ui = s.hart.ui) (d : Reg) :
    WritesX s (wentOn s (setX d q u)) d q ∧ (wentOn s (setX d q u)).hart.regs.allot = q.toNat ∧
      ∀ n (_ : n < 32), (wentOn s (setX d q u)).hart.regs.v[n] = if lo ≤ n ∧ n < hi then 0 else s.hart.regs.v[n] := by
  refine ⟨fun r => ?_, ?_, fun n hn => ?_⟩
  · have kept : xr u r = xr s r := by
      simp only [xr, inShadow, hr, hu]
      rfl
    rw [xr_wentOn, xr_setX, kept]
  · rw [wentOn_regs, setX_allot, hr]
    rfl
  · simp only [wentOn_regs, setX_v, hr]
    exact setAllot_v lo hi q.toNat s.hart hn

/-! ## VGROW -/

/-- VGROW to a legal allotment not below the current one (R127). -/
theorem execVgrow_grows {d a : Reg} {s : State} (hl : isAllotment (xr s a)) (hc : s.hart.regs.allot ≤ (xr s a).toNat) :
    execVgrow d a s = finish s [d.toNat] (setX d (xr s a) (onHart (setAllot s.hart.regs.allot (xr s a).toNat (xr s a).toNat) s)) := by
  have granted : (legalAllot (xr s a) && decide (s.hart.regs.allot ≤ (xr s a).toNat)) = true := by
    simp [(legalAllot_iff _).2 hl, hc]
  have returned : wordOf (xr s a).toNat = xr s a := by simp [wordOf]
  simp only [execVgrow, granted, if_true]
  change finish s [d.toNat] (setX d (wordOf (xr s a).toNat) _) = _
  rw [returned]
  rfl

/-- VGROW to any other (R127). -/
theorem execVgrow_refused {d a : Reg} {s : State} (h : ¬ isAllotment (xr s a) ∨ (xr s a).toNat < s.hart.regs.allot) :
    execVgrow d a s = finish s [d.toNat] (setX d (BitVec.ofNat 64 s.hart.regs.allot) s) := by
  have refused : ¬ (legalAllot (xr s a) && decide (s.hart.regs.allot ≤ (xr s a).toNat)) = true := by
    rw [Bool.and_eq_true, legalAllot_iff, decide_eq_true_eq]
    exact fun ⟨hl, hc⟩ => h.elim (· hl) (Nat.not_lt.2 hc)
  simp only [execVgrow, if_neg refused]
  rfl

/-! ## VSHRINK -/

/-- Flags set one after another change FFLAGS only (R64). -/
theorem foldl_setFlags_only (l : List Held) (s : State) : ∃ f,
    l.foldl (fun s w => setFlags w.flags.toNat s) s = { s with hart := { s.hart with ar := { s.hart.ar with fflags := f } } } := by
  refine foldl_kept (P := fun u : State => ∃ f, u = { s with hart := { s.hart with ar := { s.hart.ar with fflags := f } } })
    (fun u w h => ?_) l ⟨s.hart.ar.fflags, rfl⟩
  obtain ⟨f, rfl⟩ := h
  exact ⟨_, rfl⟩

/-- The allotment lowered to `q`, with the held writes of the released names discarded and FFLAGS as their flags leave them (R127). -/
def shrunk (q : Nat) (f : BitVec 6) (h : Hart) : Hart :=
  { setAllot q h.regs.allot q h with
    ar := { h.ar with fflags := f }, held := h.held.filter fun w => !releasedBy q h.regs.allot w }

theorem CoreOnly.shrunk (q : Nat) (f : BitVec 6) (s : State) : CoreOnly s (onHart (Machine.shrunk q f) s) :=
  ⟨(Machine.shrunk q f s.hart).regs, { s.hart.ar with fflags := f }, (Machine.shrunk q f s.hart).held, s.hart.nextId, rfl, rfl⟩

/-- VSHRINK to a legal allotment not above the current one, every held write of a released name having its value (R127). -/
theorem execVshrink_shrinks {d a : Reg} {s : State} (hl : isAllotment (xr s a)) (hc : (xr s a).toNat ≤ s.hart.regs.allot)
    (hw : ∀ w ∈ s.hart.held, releasedBy (xr s a).toNat s.hart.regs.allot w = true → w.missing = 0) : ∃ f,
    execVshrink d a s = finish s [d.toNat] (setX d (xr s a) (onHart (shrunk (xr s a).toNat f) s)) := by
  obtain ⟨f, flags⟩ := foldl_setFlags_only (s.hart.held.filter (releasedBy (xr s a).toNat s.hart.regs.allot)) s
  have granted : (legalAllot (xr s a) && decide ((xr s a).toNat ≤ s.hart.regs.allot)) = true := by
    simp [(legalAllot_iff _).2 hl, hc]
  have ready : ¬ shrinkWaits s a = true := by
    simpa [shrinkWaits, granted] using hw
  have returned : wordOf (xr s a).toNat = xr s a := by simp [wordOf]
  refine ⟨f, ?_⟩
  simp only [execVshrink, if_neg ready, granted, if_true, flags]
  change finish s [d.toNat] (setX d (wordOf (xr s a).toNat) _) = _
  rw [returned]
  rfl

/-- VSHRINK to any other (R127). -/
theorem execVshrink_refused {d a : Reg} {s : State} (h : ¬ isAllotment (xr s a) ∨ s.hart.regs.allot < (xr s a).toNat) :
    execVshrink d a s = finish s [d.toNat] (setX d (BitVec.ofNat 64 s.hart.regs.allot) s) := by
  have refused : (legalAllot (xr s a) && decide ((xr s a).toNat ≤ s.hart.regs.allot)) = false := by
    rw [Bool.eq_false_iff, ne_eq, Bool.and_eq_true, legalAllot_iff, decide_eq_true_eq]
    exact fun ⟨hl, hc⟩ => h.elim (· hl) (Nat.not_lt.2 hc)
  simp only [execVshrink, shrinkWaits, refused, Bool.false_and, Bool.false_eq_true, if_false]
  rfl

/-- Settles O24: a granted request sets the allotment and zeroes the names between, VSHRINK drops the held writes of those released;
a refused one only returns the allotment. -/
theorem allotmentInstructions : Obligations.AllotmentInstructions := by
  refine ⟨fun d a s hl hc hq => ?_, fun d a s hl hc hq hw => ?_, fun d a s h hq => ?_, fun d a s h hq => ?_⟩
  · have only := (RegsOnly.setAllot s.hart.regs.allot (xr s a).toNat (xr s a).toNat s).setX d (xr s a)
    obtain ⟨writes, allot, names⟩ := allotment_returned (s := s) (lo := s.hart.regs.allot) (hi := (xr s a).toNat)
      (u := onHart (setAllot s.hart.regs.allot (xr s a).toNat (xr s a).toNat) s) rfl rfl d
    refine ⟨_, (execVgrow_grows hl hc).trans (only.finish _ hq), writes, allot, only.coreFrame, only.oldHeld, ?_, only.flowsOn, names⟩
    rw [wentOn_ar, setX_ar]
    rfl
  · obtain ⟨f, e⟩ := execVshrink_shrinks (d := d) hl hc hw
    have only := (CoreOnly.shrunk (xr s a).toNat f s).setX d (xr s a)
    obtain ⟨writes, allot, names⟩ := allotment_returned (s := s) (u := onHart (shrunk (xr s a).toNat f) s)
      (lo := (xr s a).toNat) (hi := s.hart.regs.allot) rfl rfl d
    refine ⟨_, e.trans (only.finish _ hq), writes, allot, only.coreFrame, only.flowsOn, fun w h => ?_, names⟩
    rw [wentOn_held] at h
    obtain ⟨k, hk, l, rfl⟩ := mem_countWindows h
    rw [setX_held] at hk
    have kept : releasedBy (xr s a).toNat s.hart.regs.allot k = false := by simpa using (List.mem_filter.1 hk).2
    exact kept
  · obtain ⟨t, next, frame, -, writes⟩ := exec_setX_completes (i := .vgrow d a) (execVgrow_refused h) hq
    exact ⟨t, next, writes, frame⟩
  · obtain ⟨t, next, frame, -, writes⟩ := exec_setX_completes (i := .vshrink d a) (execVshrink_refused h) hq
    exact ⟨t, next, writes, frame⟩

end Sys2Proof.Machine
end

section
/-! SUPPORT. What watched accesses and writes to LS leave of the core, and the held write that a long-latency instruction then opens
(R38, R42, R75, R386, R397). -/

namespace Sys2Proof.Machine

/-! ## Watched accesses -/

section
variable {P : State → Prop} (hp : ∀ u, P u → P (passTime u)) (hc : ∀ n f u, P u → P (onCtx n f u))
  (hd : ∀ u dbg spin ecall answer mid, P u → P { u with hart := { u.hart with
    dbg := dbg, spin := spin, ecall := ecall, answer := answer, mid := mid } })
include hp hd

theorem stopHart_keeps (why : Nat) {s : State} (h : P s) : P (stopHart why s) := by
  unfold stopHart
  split <;> [exact hd (passTime s) _ _ _ _ _ (hp s h); exact h]

include hc

theorem gangStop_keeps (n why : Nat) {s : State} (h : P s) : P (gangStop n why s) := by
  unfold gangStop
  split
  · exact h
  · split
    · exact h
    · have stopped := hc n (ctxStopped s.dev.time why) s h
      dsimp only
      split <;> [exact stopHart_keeps hp hd _ stopped; exact stopped]

theorem stopSet_keeps (n : Nat) (scope : Bool) {s : State} (h : P s) : P (stopSet n scope s) := by
  unfold stopSet
  split <;> [exact gangStop_keeps hp hc hd _ _ h; exact stopHart_keeps hp hd _ h]

theorem watchStop_keeps (n : Nat) (w : Watch) (a : WatchAccess) (mine here : Bool) {s : State} (h : P s) :
    P (watchStop n w a mine here s) := by
  have role : ∀ b, P (if s.hart.dbg.stop.isNone then onHart (fun h => { h with dbg := { h.dbg with role := b } }) s else s) :=
    fun b => by split <;> [exact hd s _ _ _ _ _ h; exact h]
  unfold watchStop
  extract_lets near
  clear_value near
  split
  · exact hd s _ _ _ _ _ h
  · split
    · exact stopSet_keeps hp hc hd _ _ (role _)
    · exact role _

/-- A watched access keeps whatever neither the passing of time, nor a change of a context, nor a stop of the core touches (R397,
R398). -/
theorem watchAccess_keeps (n : Nat) (a : WatchAccess) (icount : Word) {s : State} (h : P s) : P (watchAccess n a icount s) := by
  unfold watchAccess
  split
  · exact h
  · split
    · exact h
    · split
      · exact h
      · extract_lets t lowest addr trig u mine here
        have noted : P u := hc _ _ _ (hp s h)
        clear_value u
        split
        · exact watchStop_keeps hp hc hd _ _ _ _ _ noted
        · split <;> [exact hd u _ _ _ _ _ noted; exact noted]

end

/-! ## What the end of an instruction reads of its core -/

/-- The held write that is opened, behind those that stand (R38). -/
theorem openHeldLanes_held (dst : Dst) (la : BitVec 4) (val lanes : VWord) (missing flags : Nat) (s : State) :
    ∃ w, (openHeldLanes dst la val lanes missing flags s).hart.held = s.hart.held ++ [w] ∧ w.id = s.hart.nextId ∧ w.dst = dst ∧
      w.left = la.toNat ∧ w.val = val ∧ w.lanes = lanes ∧ w.missing = missing ∧ w.flags = BitVec.ofNat 6 flags :=
  ⟨_, rfl, rfl, rfl, rfl, rfl, rfl, rfl, rfl⟩

/-- The registers, the flow, and the held writes with the depth that counts them (R38, R39, R42, R75). -/
def endView (h : Hart) : Regs × IAddr × Option Frame × List Held × Nat × List SavedTrap :=
  (h.regs, h.pc, h.frame, h.held, h.nextId, h.saved)

/-- `u` is as quiet as `s`, and an instruction of `s` ends in it with the registers, the flow and the held writes of `s`. -/
structure Standing (s u : State) : Prop where
  mode : SameMode s u
  core : endView u.hart = endView s.hart

/-- A log entry changes of its core a counter only (R386, R405). -/
theorem endView_logWrite (o : Origin) (kind : Nat) (eng : Bool) (va : Word) (l : Loc) (old : List Byte) (s : State) :
    endView (logWrite o kind eng va l old s).hart = endView s.hart := by
  have appended : ∀ n e, (logAppend n e s).hart = s.hart := fun n e => by
    unfold logAppend
    split <;> rfl
  have counted : ∀ n t, endView (countLog n t).hart = endView t.hart := fun n t => by
    unfold countLog
    split <;> rfl
  unfold logWrite logWriteAt
  split
  · exact (counted _ _).trans (congrArg endView (appended _ _))
  · rfl

namespace Standing

theorem refl (s : State) : Standing s s := ⟨.refl s, rfl⟩

variable {s u : State}

theorem regs (h : Standing s u) : u.hart.regs = s.hart.regs := congrArg (·.1) h.core
theorem pc (h : Standing s u) : u.hart.pc = s.hart.pc := congrArg (·.2.1) h.core
theorem frame (h : Standing s u) : u.hart.frame = s.hart.frame := congrArg (·.2.2.1) h.core
theorem held (h : Standing s u) : u.hart.held = s.hart.held := congrArg (·.2.2.2.1) h.core
theorem nextId (h : Standing s u) : u.hart.nextId = s.hart.nextId := congrArg (·.2.2.2.2.1) h.core
theorem saved (h : Standing s u) : u.hart.saved = s.hart.saved := congrArg (·.2.2.2.2.2) h.core

theorem onHart (h : Standing s u) {f : Hart → Hart} (hc : (f u.hart).ar.ctx = u.hart.ar.ctx)
    (ht : (f u.hart).dbg.trapStep = u.hart.dbg.trapStep) (he : endView (f u.hart) = endView u.hart) : Standing s (onHart f u) :=
  ⟨h.mode.trans (.onHart hc ht), he.trans h.core⟩

theorem reserveLog {need : Nat} {w : State} (h : reserveLog need s = some w) : Standing s w := by
  refine ⟨.reserveLog h, ?_⟩
  unfold Machine.reserveLog at h
  split at h
  · cases h; rfl
  · split at h
    · cases h; rfl
    · split at h
      · cases h; rfl
      · dsimp only at h
        split at h
        · split at h
          · cases h; rw [freeOldest_hart]
          · cases h
        · cases h

theorem watchAccess (h : Standing s u) (n : Nat) (a : WatchAccess) (icount : Word) : Standing s (watchAccess n a icount u) :=
  ⟨h.mode.trans (.watchAccess n a icount u), watchAccess_keeps (P := fun v => endView v.hart = endView s.hart)
    (fun _ h => h) (fun _ _ _ h => h) (fun _ _ _ _ _ _ h => h) n a icount h.core⟩

/-- A write of the core to its LS (R139, R386). -/
theorem performWrite_ls (h : Standing s u) (o : Origin) (kind : Nat) (va : Word) (core off : Nat) (bs : List Byte) :
    Standing s (performWrite o kind va ⟨.ls core, off⟩ bs u) := by
  refine ⟨h.mode.trans (.performWrite_ls o kind va core off bs u), ?_⟩
  exact watchAccess_keeps (P := fun v => endView v.hart = endView s.hart)
    (fun _ h => h) (fun _ _ _ h => h) (fun _ _ _ _ _ _ h => h) _ _ _ ((endView_logWrite _ _ _ _ _ _ u).trans h.core)

/-- The held write that an instruction opens at its end (R38): the older ones have counted it, the new one has not. -/
theorem opensHeld (h : Standing s u) (dst : Dst) (la : BitVec 4) (val lanes : VWord) (missing flags : Nat) :
    ∃ w, OpensHeld s (wentOn s (openHeldLanes dst la val lanes missing flags u)) w ∧ w.dst = dst ∧ w.left = la.toNat ∧
      w.val = val ∧ w.lanes = lanes ∧ w.missing = missing ∧ w.flags = BitVec.ofNat 6 flags := by
  obtain ⟨w, held, id, known⟩ := openHeldLanes_held dst la val lanes missing flags u
  rw [h.held] at held
  rw [h.nextId] at id
  refine ⟨w, ⟨?_, ?_⟩, known⟩
  · rw [wentOn_held]
    exact countWindows_opened held h.saved id.ge
  · rw [wentOn_nextId, ← h.nextId]
    rfl

/-- The end of a long-latency instruction whose scalar result is known at issue (R38, R75). -/
theorem finish_openHeld (h : Standing s u) (regs : List Nat) (d : Reg) (la : BitVec 4) (v : Word) (flags : Nat) (hq : Quiet s) :
    ∃ t w, finish s regs (openHeld (xDst d) la (v.setWidth 1024) 0 flags u) = .next t ∧ OpensHeld s t w ∧ w.dst = xDst d ∧
      w.left = la.toNat ∧ w.val.setWidth 64 = v ∧ w.missing = 0 ∧ t.hart.regs = s.hart.regs ∧ FlowsOn s t ∧ t.dev = u.dev := by
  obtain ⟨w, opens, dst, left, val, -, missing, -⟩ := h.opensHeld (xDst d) la (v.setWidth 1024) (BitVec.allOnes 1024) 0 flags
  have mode : SameMode s (openHeld (xDst d) la (v.setWidth 1024) 0 flags u) := h.mode.trans (.onHart rfl rfl)
  have value : w.val.setWidth 64 = v := by
    rw [val, BitVec.setWidth_setWidth_of_le v (by decide), BitVec.setWidth_eq]
  have files : (openHeld (xDst d) la (v.setWidth 1024) 0 flags u).hart.regs = s.hart.regs := h.regs
  exact ⟨_, w, mode.finish regs hq, opens, dst, left, value, missing, (wentOn_regs _ _).trans files, flowsOn_wentOn h.pc h.frame, rfl⟩

end Standing

end Sys2Proof.Machine
end

section
/-! PROOFS. The stream operations (R121 to R126). -/

namespace Sys2Proof.Machine

/-! ## The checks of a record (R125, R445) -/

/-- A record that breaks no rule passes. -/
theorem recordRules_ok {l : List (Bool × Nat)} (a : Word) (h : ∀ p ∈ l, p.1 = true) : recordRules a l = .ok () := by
  have none : firstBroken l = none := by
    induction l with
    | nil => rfl
    | cons p r ih => rw [firstBroken, if_pos (h p (by simp)), ih fun q hq => h q (by simp [hq])]
  rw [recordRules, none]

theorem readRecord_of_streamAt {s : State} {a : Reg} {r : StreamRec} (h : streamAt s a = .ok r) :
    ∃ rb, readRecord s (xr s a) 32 32 = .ok rb ∧ streamRec rb = r := by
  unfold streamAt at h
  cases e : readRecord s (xr s a) 32 32 with
  | error x => rw [e] at h; cases h
  | ok rb => rw [e] at h; exact ⟨rb, rfl, Except.ok.inj h⟩

theorem tyIs_of_tyOf {c : Nat} {t : Ty} (h : tyOf c = some t) (p : Ty → Bool) : tyIs c p = p t := by rw [tyIs, h]

theorem streamAligned_ok {a : Word} {w : Nat} (h : a.toNat % (w / 8) = 0) : streamAligned a w = .ok () := by
  rw [streamAligned, check, if_pos (beq_iff_eq.2 h)]

theorem streamInside_ok {l : List (Option Nat)} (h : ∀ x ∈ l, x = none) : streamInside l = .ok () := by
  have none : l.filterMap id = [] := List.filterMap_eq_nil_iff.2 h
  rw [streamInside, none]
  rfl

/-! ## Elements -/

namespace Standing

variable {s u : State}

theorem streamRead (h : Standing s u) (off w : Nat) : Standing s (streamRead off w u) := h.watchAccess _ _ _

theorem streamPut (h : Standing s u) (off w v : Nat) : Standing s (streamPut off w v u) := h.performWrite_ls _ _ _ _ _ _

theorem streamElem {c : StreamAcc} (h : Standing s c.s) (src dst ws wd i : Nat) (rd : Bool) (f : Nat → Nat → Acc → Nat × Acc) :
    Standing s (streamElem src dst ws wd i rd f c).s := by
  unfold Machine.streamElem
  split
  · exact h
  · extract_lets c1 c2
    have read : Standing s c1.s := h.streamRead _ _
    have both : Standing s c2.s := by
      unfold c2
      split <;> [exact read.streamRead _ _; exact read]
    clear_value c2
    dsimp only
    split <;> [exact both.streamPut _ _ _; exact both; exact both]

/-- A mapping stream writes LS, and leaves of the core what its end reads (R122, R124). -/
theorem streamMapped {w : State} (h : Standing s w) (r : StreamRec) (ws wd : Nat) (rd : Bool) (f : Nat → Nat → Acc → Nat × Acc) :
    Standing s (streamMapped r ws wd rd f s w).s :=
  foldl_kept (P := fun c : StreamAcc => Standing s c.s) (fun _ i h => h.streamElem _ _ _ _ i _ _) _ h

theorem streamReads (h : Standing s u) (off : Nat → Nat) (w : Nat) (l : List Nat) :
    Standing s (l.foldl (fun s i => Machine.streamRead (off i) w s) u) :=
  foldl_kept (P := Standing s) (fun _ i h => h.streamRead (off i) w) l h

end Standing

/-- LS, cluster scratch and device memory of `u` are those of `s`. -/
def SameMemories (s u : State) : Prop := u.dev.ls = s.dev.ls ∧ u.dev.scr = s.dev.scr ∧ u.dev.dmem = s.dev.dmem

/-- Reads change no memory (R397). -/
theorem streamReads_memories (off : Nat → Nat) (w : Nat) (l : List Nat) (s : State) :
    SameMemories s (l.foldl (fun s i => streamRead (off i) w s) s) :=
  foldl_kept (P := SameMemories s) (fun _ _ h => watchAccess_keeps (P := SameMemories s)
    (fun _ h => h) (fun _ _ _ h => h) (fun _ _ _ _ _ _ h => h) _ _ _ h) l ⟨rfl, rfl, rfl⟩

/-! ## The end of a stream (R125) -/

/-- A stream that has met no poison opens its held write (R38, R125). -/
theorem streamEnd_opensHeld {s : State} (d : Reg) (l : BitVec 4) (v : Word) (fx : Bool) {c : StreamAcc} (h : Standing s c.s)
    (hb : c.bad = none) (hq : Quiet s) : ∃ u w, streamEnd s d l v fx c = .next u ∧ OpensHeld s u w ∧ w.dst = xDst d ∧
      w.left = l.toNat ∧ w.val.setWidth 64 = v ∧ w.missing = 0 ∧ u.hart.regs = s.hart.regs ∧ FlowsOn s u ∧ u.dev = c.s.dev := by
  have marked : Standing s (if fx then markEffect c.s else c.s) := by
    split <;> [exact h.onHart rfl rfl rfl; exact h]
  have drew : Standing s (setLfsr c.acc.lfsr (if fx then markEffect c.s else c.s)) := marked.onHart rfl rfl rfl
  have dev : (setLfsr c.acc.lfsr (if fx then markEffect c.s else c.s)).dev = c.s.dev := by
    rw [setLfsr_dev]
    split <;> rfl
  obtain ⟨u, w, done, opens, dst, left, val, missing, regs, flow, kept⟩ := drew.finish_openHeld [d.toNat] d l v c.acc.flags hq
  refine ⟨u, w, ?_, opens, dst, left, val, missing, regs, flow, kept.trans dev⟩
  rw [streamEnd, hb]
  exact done

/-! ## The checks of each stream -/

section
variable {s : State} {d a : Reg} {l : BitVec 4} {r : StreamRec}

/-- VSMAP with its checks passed and its log space given (R122, R125). -/
theorem execVsmap_runs {t : Ty} {w : State} (hr : streamAt s a = .ok r) (hn : r.n ≤ 65536) (ho : r.op ≤ 7) (ht : tyOf r.tys = some t)
    (hk : t.isInt = true ∨ (t.isFl = true ∧ r.op ≤ 4)) (hd : r.tyd = 0) (hm : r.rnd = 0) (hs : CleanArray s r.src t.width r.n)
    (ha : r.dst.toNat % (t.width / 8) = 0) (hi : firstOutside r.dst r.n t.width = none)
    (hl : reserveLog (streamNeed s r.n) s = some w) : execVsmap d a l s = streamEnd s d l (wordOf r.n) true
      (streamMapped r t.width t.width (r.op == 4) (fun x y c => mapLane s t r.op (r.sc % 2 ^ t.width) x y c) s w) := by
  obtain ⟨rb, hrb, rfl⟩ := readRecord_of_streamAt hr
  obtain ⟨srcAligned, srcInside, -⟩ := hs
  rw [execVsmap]
  simp only [hrb, bind, Except.bind, ht, Option.getD_some]
  rw [recordRules_ok, streamAligned_ok srcAligned, streamAligned_ok ha, streamInside_ok]
  · simp only [afterChecks, withLog, hl]
    rfl
  · simp [srcInside, hi]
  · simpa [tyIs_of_tyOf ht, hn, ho, hd, hm] using hk

/-- VSRED with its checks passed: every element is read, then the blocks are combined (R123, R125). -/
theorem execVsred_runs {t : Ty} (hr : streamAt s a = .ok r) (hn : r.n ≤ 65536) (ho : r.op ≤ 6) (ht : tyOf r.tys = some t)
    (hk : redAccepts r.op t = true) (hd : r.tyd = 0) (hm : r.rnd = 0) (hc : r.sc = 0) (hs : CleanArray s r.src t.width r.n) :
    let v := streamReduce (redOfCode r.op) t (frmOf s) (lsElems s r.src t.width r.n) r.n
      (List.range ((r.n + t.lanes - 1) / t.lanes)) none (accOf s)
    execVsred d a l s = streamEnd s d l (streamResult t (v.1.getD (emptyRed (redOfCode r.op) t))) false
      ⟨(List.range r.n).foldl (fun s i => streamRead (r.src.toNat + i * (t.width / 8)) t.width s) s, v.2, none⟩ := by
  obtain ⟨rb, hrb, rfl⟩ := readRecord_of_streamAt hr
  obtain ⟨srcAligned, srcInside, clean⟩ := hs
  have unpoisoned : ((List.range (streamRec rb).n).map fun i =>
      streamGet s ((streamRec rb).src.toNat + i * (t.width / 8)) t.width).findSome? (·.2) = none :=
    List.findSome?_eq_none_iff.2 fun x hx => by
      obtain ⟨i, hi, rfl⟩ := List.mem_map.1 hx
      exact clean i (List.mem_range.1 hi)
  have elements : ((List.range (streamRec rb).n).map fun i =>
      streamGet s ((streamRec rb).src.toNat + i * (t.width / 8)) t.width).map (·.1) = lsElems s (streamRec rb).src t.width (streamRec rb).n :=
    List.map_map
  rw [execVsred]
  simp only [hrb, bind, Except.bind, ht, Option.getD_some]
  rw [recordRules_ok, streamAligned_ok srcAligned, streamInside_ok]
  · simp only [afterChecks, unpoisoned, elements]
  · simp [srcInside]
  · simp [tyIs_of_tyOf ht, hn, ho, hd, hm, hc, hk]

/-- VSCVT with its checks passed and its log space given (R124, R125). -/
theorem execVscvt_runs {t ts : Ty} {w : State} (hr : streamAt s a = .ok r) (hn : r.n ≤ 65536) (ho : r.op = 0)
    (hts : tyOf r.tys = some ts) (ht : tyOf r.tyd = some t) (hk : streamPair t ts = true) (hm : r.rnd ≤ 7) (hc : r.sc = 0)
    (hs : CleanArray s r.src ts.width r.n) (ha : r.dst.toNat % (t.width / 8) = 0) (hi : firstOutside r.dst r.n t.width = none)
    (hl : reserveLog (streamNeed s r.n) s = some w) : execVscvt d a l s = streamEnd s d l (wordOf r.n) true
      (streamMapped r ts.width t.width false
        (fun x _ c => convLane t ts (rndOf s (Rnd.ofCode (BitVec.ofNat 3 r.rnd))) s.hart.ar.satf x c) s w) := by
  obtain ⟨rb, hrb, rfl⟩ := readRecord_of_streamAt hr
  obtain ⟨srcAligned, srcInside, -⟩ := hs
  rw [execVscvt]
  simp only [hrb, bind, Except.bind, ht, hts, Option.getD_some]
  rw [recordRules_ok, streamAligned_ok srcAligned, streamAligned_ok ha, streamInside_ok]
  · simp only [afterChecks, withLog, hl]
    rfl
  · simp [srcInside, hi]
  · simp [tyIs_of_tyOf ht, tyIs_of_tyOf hts, hn, ho, hm, hc, hk]

theorem exec_vsmap (d a : Reg) (l : BitVec 4) (s : State) : exec (.vsmap d a l) s = execVsmap d a l s := rfl
theorem exec_vsred (d a : Reg) (l : BitVec 4) (s : State) : exec (.vsred d a l) s = execVsred d a l s := rfl
theorem exec_vscvt (d a : Reg) (l : BitVec 4) (s : State) : exec (.vscvt d a l) s = execVscvt d a l s := rfl

end

end Sys2Proof.Machine
end

section
/-! PROOFS. PROJ and PADJ (R343 to R348), and with them the stream and projection instructions. -/

namespace Sys2Proof.Machine

/-! ## What a row leaves as quiet as it was -/

namespace SameMode

theorem readRow {a n : Nat} {v : List Nat} {s u : State} (h : readRow a n s = .ok (v, u)) : SameMode s u := by
  unfold Machine.readRow at h
  split at h
  · cases h
  · cases h
    exact foldl_kept (P := SameMode s) (fun _ _ h => h.trans (.watchAccess _ _ _ _)) _ (.refl s)

theorem writeWords (a : Nat) (l : List Nat) (s : State) : SameMode s (writeWords a l s) := by
  induction l generalizing a s with
  | nil => exact .refl s
  | cons x r ih => exact (performWrite_ls _ _ _ _ _ _ s).trans (ih _ _)

theorem projRow (r : ProjRec) (sup sav : Bool) (set p0 p1 : Nat) (x : Rows) (i : Nat) :
    SameMode x.s (projRow r sup sav set p0 p1 x i).s := by
  unfold Machine.projRow
  split
  · exact .refl _
  · split
    · exact .refl _
    · next v s hv =>
      have read : SameMode x.s s := readRow hv
      have out := read.trans (writeWords (r.dst + i * r.pitch) (project set p0 p1 v).y s)
      have sized : SameMode x.s (if sup then Machine.writeWords (r.f16 + 4 * i) [(project set p0 p1 v).sup]
          (Machine.writeWords (r.dst + i * r.pitch) (project set p0 p1 v).y s)
        else Machine.writeWords (r.dst + i * r.pitch) (project set p0 p1 v).y s) := of_ite (out.trans (writeWords _ _ _)) out
      exact of_ite (sized.trans (writeWords _ _ _)) sized

theorem rowSaved {r : ProjRec} {set p0 p1 i : Nat} {s u : State} {sv : Saved} {y : List Nat}
    (h : rowSaved r set p0 p1 i s = .ok (sv, y, u)) : SameMode s u := by
  unfold Machine.rowSaved at h
  simp only [bind, Except.bind] at h
  split at h
  -- no Y
  · split at h
    · cases h
      exact .refl s
    · split at h
      · cases h
      · next hr =>
        cases h
        exact readRow hr
  -- Y read first
  · split at h
    · cases h
    · next hy =>
      split at h
      · cases h
        exact readRow hy
      · split at h
        · cases h
        · next hr =>
          cases h
          exact (readRow hy).trans (readRow hr)

theorem padjRow (r : ProjRec) (set p0 p1 : Nat) (x : Rows) (i : Nat) : SameMode x.s (padjRow r set p0 p1 x i).s := by
  unfold Machine.padjRow
  split
  · exact .refl _
  · dsimp only
    split
    · exact .refl _
    · next g sv y s got =>
      simp only [bind, Except.bind] at got
      split at got
      · cases got
      · next hg =>
        split at got
        · cases got
        · next hs =>
          cases got
          exact ((readRow hg).trans (rowSaved hs)).trans (writeWords _ _ _)

end SameMode

/-! ## A row done -/

section
variable {s w : State} {d a b : Reg} {rb : List Byte} {v : Word} {i n f : Nat} {x : Rows}

/-- A row without poison, its log space given: the next row is kept, or the status returned (R345, R346). -/
theorem rowStep_runs {words : Nat} {row : Rows → Rows} (hl : reserveLog (wordNeed s (((projRec rb).rows - i) * words)) s = some w)
    (hx : row (rowStart w n f) = x) (hm : SameMode (rowStart w n f).s x.s) (hb : x.bad = none) (hq : Quiet s) :
    rowStep d rb v i n f words row s = .next (afterRow s d rb v i x) := by
  have reserved : SameMode s (rowStart w n f).s := (SameMode.reserveLog hl).trans (.onHart rfl rfl)
  have mode : SameMode s (markEffect (setX d (statusWord x) x.s)) :=
    ((reserved.trans hm).trans (.setX d _ _)).trans (.markEffect _)
  have last : endRows s d x = .next (wentOn s (markEffect (setX d (statusWord x) x.s))) := by
    rw [endRows, hb]
    exact mode.finish [d.toNat] hq
  have start : row ⟨onHart (fun h => { h with mid := .none }) w, n, f, none⟩ = x := hx
  simp only [rowStep, withLog, hl, start, hb, Option.isNone_none, Bool.true_and, decide_eq_true_eq, last, afterRow]
  split <;> rfl

theorem exec_proj (d a b : Reg) (sup sav : Bool) (e : PSet) (s : State) :
    exec (.proj d a b sup sav e) s = execProj d a b sup sav e s := rfl
theorem exec_padj (d a b : Reg) (e : PSet) (s : State) : exec (.padj d a b e) s = execPadj d a b e s := rfl

/-- A row of PROJ stands at the row kept, or at the first once its checks have passed (R344, R346). -/
theorem execProj_stands {sup sav : Bool} {e : PSet}
    (h : RowStands s a b (∃ r, projCheck s (xr s a) sup sav (setCode e) (xr s b) = .ok r) rb v i n f) :
    execProj d a b sup sav e s = projFrom d sup sav (setCode e) rb v i n f s := by
  unfold execProj
  obtain hm | ⟨hm, ⟨r, hr⟩, rfl, rfl, rfl, rfl, rfl⟩ := h
  · rw [hm]
  · split
    · next hk => exact absurd hk (hm _ _ _ _ _)
    · simp only [hr, afterChecks]

/-- A row of PADJ likewise (R346, R347). -/
theorem execPadj_stands {e : PSet} (h : RowStands s a b (∃ r, padjCheck s (xr s a) (setCode e) (xr s b) = .ok r) rb v i n f) :
    execPadj d a b e s = padjFrom d (setCode e) rb v i n f s := by
  unfold execPadj
  obtain hm | ⟨hm, ⟨r, hr⟩, rfl, rfl, rfl, rfl, rfl⟩ := h
  · rw [hm]
  · split
    · next hk => exact absurd hk (hm _ _ _ _ _)
    · simp only [hr, afterChecks]

end

/-- Settles O52: a stream with its checks passed ends with its held write; a row with its log space ends as its successor needs. -/
theorem streamsAndProjectionsComplete : Obligations.StreamsAndProjectionsComplete := by
  refine ⟨fun d a l r t s w hr hn ho ht hk hd hm hs ha hi hl hb hq => ?_,
    fun d a l r t s hr hn ho ht hk hd hm hc hs hq => ?_,
    fun d a l r t ts m s w hr hn ho hts ht hk hm hc hrm hs ha hi hl hb hq => ?_,
    fun r ws wd rd f s w hn => ?_,
    fun d a b sup sav e rb v i n f s w x hs hl hx hb hq => ?_,
    fun d a b e rb v i n f s w x hs hl hx hb hq => ?_⟩
  · rw [exec_vsmap, execVsmap_runs hr hn ho ht hk hd hm hs ha hi hl]
    exact streamEnd_opensHeld d l _ true ((Standing.reserveLog hl).streamMapped r _ _ _ _) hb hq
  · obtain ⟨ls, scr, dmem⟩ := streamReads_memories (fun i => r.src.toNat + i * (t.width / 8)) t.width (List.range r.n) s
    have read := (Standing.refl s).streamReads (fun i => r.src.toNat + i * (t.width / 8)) t.width (List.range r.n)
    rw [exec_vsred, execVsred_runs hr hn ho ht hk hd hm hc hs]
    obtain ⟨u, h, done, opens, dst, left, val, missing, regs, flow, dev⟩ := streamEnd_opensHeld d l _ false (c := ⟨_, _, none⟩) read rfl hq
    exact ⟨u, h, done, opens, dst, left, missing, val, regs, dev ▸ ls, dev ▸ scr, dev ▸ dmem, flow⟩
  · rw [exec_vscvt, execVscvt_runs hr hn ho hts ht hk hm hc hs ha hi hl, ← hrm]
    exact streamEnd_opensHeld d l _ true ((Standing.reserveLog hl).streamMapped r _ _ _ _) hb hq
  · rw [streamMapped, hn]
    rfl
  · have mode : SameMode (rowStart w n f).s x.s := by
      rw [hx]
      exact .projRow _ _ _ _ _ _ _ _
    rw [exec_proj, execProj_stands hs, projFrom]
    exact rowStep_runs hl hx.symm mode hb hq
  · have mode : SameMode (rowStart w n f).s x.s := by
      rw [hx]
      exact .padjRow _ _ _ _ _ _
    rw [exec_padj, execPadj_stands hs, padjFrom]
    exact rowStep_runs hl hx.symm mode hb hq

end Sys2Proof.Machine
end

section
/-! SUPPORT. What instructions that reach order points, the pool and the store queue keep as it was (R136, R159, R165, R186). -/

namespace Sys2Proof.Machine

/-- The pool fitted again changes the cluster only (R132, R136). -/
theorem CluOnly.fitPool (s : State) : CluOnly s (fitPool s) := by
  have evicted : ∀ n u, CluOnly u (evictUntilFit n u) := fun n => by
    induction n with
    | zero => exact CluOnly.refl
    | succ n ih => exact fun u => CluOnly.of_ite (CluOnly.refl u) ((CluOnly.evictOne _ u).trans (ih _))
  exact evicted _ s

namespace SameMode

theorem fitPool (s : State) : SameMode s (fitPool s) := by
  obtain ⟨hart, dev⟩ := CluOnly.fitPool s
  exact of_ctxs hart (congrArg Device.ctxs dev)

theorem onTensor (h : Nat) (f : Tensor → Tensor) (s : State) : SameMode s (onTensor h f s) := of_dev rfl

theorem openHeld (dst : Dst) (l : BitVec 4) (v : VWord) (missing flags : Nat) (s : State) :
    SameMode s (openHeld dst l v missing flags s) := onHart rfl rfl

theorem enqueue (op : StoreOp) (a : Access) (rel : Option Scope) (s : State) : SameMode s (enqueue op a rel s) := by
  unfold Machine.enqueue
  refine onHart ?_ ?_ <;> (dsimp only; split <;> rfl)

theorem placeEntry (h : Nat) (s : State) : SameMode s (placeEntry h s) := onTensor _ _ s

end SameMode

/-- The end of an instruction that returns a scalar result in a held write, from any state as quiet as that it issued in (R38). -/
theorem SameMode.finishHeldX {s u : State} (h : SameMode s u) (d : Reg) (l : BitVec 4) (v : Word) (hq : Quiet s) :
    finishHeldX s d l v u = .next (wentOn s (tensResult d l v u)) :=
  (h.trans (.openHeld (xDst d) l _ 0 0 u)).finish [d.toNat] hq

/-- The end of an effect instruction (R253), likewise. -/
theorem SameMode.finishFx {s u : State} (h : SameMode s u) (regs : List Nat) (hq : Quiet s) :
    finishFx s regs u = .next (wentOn s (Machine.markEffect u)) := (h.trans (.markEffect u)).finish regs hq

end Sys2Proof.Machine
end

section
/-! PROOFS. The tensor instructions (R157, R158, R176 to R182). -/

namespace Sys2Proof.Machine

/-! ## A handle named (R158) -/

theorem liveCheck_dead {s : State} {h : Word} (hd : ∀ t, liveTensor s h ≠ some t) : liveCheck s h = .error (.protection, h, 0) := by
  rw [liveCheck, Option.eq_none_iff_forall_ne_some.2 hd]

theorem elemCheck_dead {s : State} {h : Word} (hd : ∀ t, liveTensor s h ≠ some t) (e : Word) :
    elemCheck s h e = .error (.protection, h, 0) := by
  rw [elemCheck, liveCheck_dead hd]
  rfl

/-! ## TNEW (R157, R176) -/

/-- Of more numbers in a row than a list has entries, one is not in the list. -/
theorem exists_rangeFrom_not_mem (a : Nat) (l : List Nat) : ∃ k ∈ rangeFrom a (l.length + 1), k ∉ l := by
  by_contra! all
  have distinct : (rangeFrom a (l.length + 1)).Nodup := List.nodup_range.map fun _ _ => Nat.add_left_cancel
  have short := (List.subperm_of_subset distinct all).length_le
  simp [rangeFrom] at short

/-- A fresh handle is no reserved value, and none that the context had or a tensor has (R157). -/
theorem freshHandle_fresh (s : State) (used : List Nat) :
    256 ≤ freshHandle s used ∧ freshHandle s used ∉ used ∧ ∀ t ∈ s.dev.tensors, t.h ≠ freshHandle s used := by
  suffices fresh : 256 ≤ freshHandle s used ∧ freshHandle s used ∉ used ++ s.dev.tensors.map (·.h) by
    obtain ⟨low, free⟩ := fresh
    rw [List.mem_append, not_or] at free
    exact ⟨low, free.1, fun t ht e => free.2 (e ▸ List.mem_map_of_mem ht)⟩
  unfold freshHandle
  extract_lets v taken
  change 256 ≤ (if _ then _ else _) ∧ (if _ then _ else _) ∉ taken
  split
  · next h => simpa using h
  · obtain ⟨k, hk, free⟩ := exists_rangeFrom_not_mem 256 taken
    cases found : (rangeFrom 256 (taken.length + 1)).find? fun k => !taken.contains k with
    | none => exact absurd (List.find?_eq_none.1 found k hk) (by simpa using free)
    | some n =>
      obtain ⟨i, -, rfl⟩ := List.mem_map.1 (List.mem_of_find?_eq_some found)
      exact ⟨Nat.le_add_right _ _, by simpa using List.find?_some found⟩

/-- `s` with a tensor made under the handle `h`, before lines leave the pool for it (R157, R159, R162). -/
def addTensor (h n : Nat) (x : Shape) (ops : BitVec 16) (r : Rep) (s : State) : State :=
  onDev (fun d => { d with tensors := d.tensors ++ [newTensor h n x ops r] })
    (onCtx n (fun c => { c with used := h :: c.used }) { s with tick := s.tick + 1 })

section
variable {x : Shape} {ops : BitVec 16} {c : Context} {s : State} (hc : curCtx s = some c)
include hc

theorem createTensor_tooMany (hn : 65536 ≤ (s.dev.tensors.filter (·.ctx == c.num)).length) : createTensor x ops s = (2, s) := by
  simp only [createTensor, hc, ge_iff_le, hn, if_true]

theorem createTensor_overQuota (hn : (s.dev.tensors.filter (·.ctx == c.num)).length < 65536)
    (hq : c.quota < charge s c + quotaPart x (chooseRep s x ops)) : createTensor x ops s = (1, s) := by
  simp only [createTensor, hc, ge_iff_le, Nat.not_le.2 hn, if_false, gt_iff_lt, hq, if_true]

theorem createTensor_makes (hn : (s.dev.tensors.filter (·.ctx == c.num)).length < 65536)
    (hq : charge s c + quotaPart x (chooseRep s x ops) ≤ c.quota) : createTensor x ops s =
      (wordOf (freshHandle s c.used), fitPool (addTensor (freshHandle s c.used) c.num x ops (chooseRep s x ops) s)) := by
  simp only [createTensor, hc, ge_iff_le, Nat.not_le.2 hn, if_false, gt_iff_lt, Nat.not_lt.2 hq]
  rfl

end

theorem SameMode.addTensor (h n : Nat) (x : Shape) (ops : BitVec 16) (r : Rep) (s : State) : SameMode s (addTensor h n x ops r s) := by
  have chose : SameMode s { s with tick := s.tick + 1 } := .of_ctxs rfl rfl
  have named := chose.trans (.onCtx_same (n := n) (f := fun c => { c with used := h :: c.used }) fun _ => ⟨rfl, rfl, rfl⟩)
  exact named.trans (.of_dev rfl)

theorem SameMode.createTensor (x : Shape) (ops : BitVec 16) (s : State) : SameMode s (createTensor x ops s).2 := by
  cases hc : curCtx s with
  | none =>
    simp only [Machine.createTensor, hc]
    exact .refl s
  | some c =>
    rcases Nat.lt_or_ge (s.dev.tensors.filter (·.ctx == c.num)).length 65536 with few | many
    · rcases Nat.lt_or_ge c.quota (charge s c + quotaPart x (chooseRep s x ops)) with above | within
      · rw [createTensor_overQuota hc few above]
        exact .refl s
      · rw [createTensor_makes hc few within]
        exact (SameMode.addTensor _ _ _ _ _ _).trans (.fitPool _)
    · rw [createTensor_tooMany hc many]
      exact .refl s

/-- What TNEW adds where it makes a tensor (R157, R162, R176). -/
theorem createTensor_adds {x : Shape} {ops : BitVec 16} {c : Context} {s : State} (hc : curCtx s = some c)
    (hn : (s.dev.tensors.filter (·.ctx == c.num)).length < 65536) (hq : charge s c + quotaPart x (chooseRep s x ops) ≤ c.quota) :
    (createTensor x ops s).1 = BitVec.ofNat 64 (freshHandle s c.used) ∧
      (createTensor x ops s).2.dev.tensors = s.dev.tensors ++ [newTensor (freshHandle s c.used) c.num x ops (chooseRep s x ops)] ∧
      (createTensor x ops s).2.hart = s.hart := by
  rw [createTensor_makes hc hn hq]
  obtain ⟨hart, dev⟩ := CluOnly.fitPool (addTensor (freshHandle s c.used) c.num x ops (chooseRep s x ops) s)
  exact ⟨rfl, congrArg Device.tensors dev, hart⟩

theorem execTnew_creates {d a b : Reg} {l : BitVec 4} {x : Shape} {s : State} (h : tnewCheck s (xr s a) (xr s b) = .ok x)
    (hq : Quiet s) : execTnew d a b l s = .next (wentOn s (tensResult d l (createTensor x ((xr s b).setWidth 16) s).1
      (markEffect (createTensor x ((xr s b).setWidth 16) s).2))) := by
  simp only [execTnew, h, afterChecks]
  exact ((SameMode.createTensor _ _ s).trans (.markEffect _)).finishHeldX d l _ hq

/-! ## TWIDEN, TFREE and TINFO (R177 to R179) -/

theorem SameMode.widen (t : Tensor) (b : BitVec 16) (s : State) : SameMode s (widen t b s).2 := by
  unfold Machine.widen
  extract_lets ops r tooBig
  clear_value tooBig
  split
  · exact .onTensor _ _ s
  · split
    · exact .refl s
    · exact (SameMode.onTensor _ _ s).trans (.fitPool _)

theorem execTwiden_widens {d a b : Reg} {l : BitVec 4} {t : Tensor} {s : State} (h : liveCheck s (xr s a) = .ok t)
    (hb : (xr s b).toNat < 2 ^ 15) (hq : Quiet s) : execTwiden d a b l s =
      .next (wentOn s (tensResult d l (widen t ((xr s b).setWidth 16) s).1 (markEffect (widen t ((xr s b).setWidth 16) s).2))) := by
  simp only [execTwiden, h, check, hb, decide_true, if_true, bind, Except.bind, afterChecks]
  exact ((SameMode.widen _ _ s).trans (.markEffect _)).finishHeldX d l _ hq

theorem execTwiden_dead {d a b : Reg} {l : BitVec 4} {s : State} (hd : ∀ t, liveTensor s (xr s a) ≠ some t) :
    execTwiden d a b l s = trapOf (.protection, xr s a, 0) s := by
  simp only [execTwiden, liveCheck_dead hd, bind, Except.bind, afterChecks]

theorem execTfree_frees {a : Reg} {t : Tensor} {s : State} (h : liveCheck s (xr s a) = .ok t) (hq : Quiet s) :
    execTfree a s = .next (wentOn s (markEffect (onTensor t.h freeTensor s))) := by
  rw [execTfree, h, afterChecks]
  exact (SameMode.onTensor _ _ s).finishFx [] hq

/-- A free entry goes to the end, and no re-representation that has not begun stays before it (R166, R169). -/
theorem freeTensor_queue (t : Tensor) : (freeTensor t).queue.getLast? = some (.free true) ∧
    ∀ r m, OEntry.rerep r false m ∉ (freeTensor t).queue :=
  ⟨List.getLast?_concat, fun r m h => by simp [freeTensor] at h⟩

theorem execTinfo_context {d a b : Reg} {l : BitVec 4} {s : State} (hb : isCtxQuery (xr s b)) (ha : a = 0) (hq : Quiet s) :
    execTinfo d a b l s = .next (wentOn s (tensResult d l (BitVec.ofNat 64 (infoCtx s (xr s b).toNat)) s)) := by
  have query : (decide (5 ≤ (xr s b).toNat) && decide ((xr s b).toNat ≤ 7) && decide (a = 0)) = true := by
    simpa [isCtxQuery, ha] using hb
  simp only [execTinfo, query, if_true]
  exact (SameMode.refl s).finishHeldX d l _ hq

theorem execTinfo_tensor {d a b : Reg} {l : BitVec 4} {t : Tensor} {s : State} (h : liveCheck s (xr s a) = .ok t)
    (hb : ¬ (isCtxQuery (xr s b) ∧ a = 0)) (hq : Quiet s) : execTinfo d a b l s = .next (wentOn s (tensResult d l
      (BitVec.ofNat 64 (if 5 ≤ (xr s b).toNat then infoCtx s (xr s b).toNat else infoOf t (xr s b).toNat)) s)) := by
  have query : ¬ (decide (5 ≤ (xr s b).toNat) && decide ((xr s b).toNat ≤ 7) && decide (a = 0)) = true := by
    simpa [isCtxQuery] using hb
  simp only [execTinfo, if_neg query, h, afterChecks]
  exact (SameMode.refl s).finishHeldX d l _ hq

/-! ## TVIEW (R180) -/

/-- The held write that a binding goes into is the one opened last (R180). -/
theorem bindLast_held {s u : State} {w : Held} (hu : u.hart.held = s.hart.held ++ [w]) (i : Nat) (v : Option (Nat × Nat)) :
    (bindLast i v u).hart.held = s.hart.held ++ [{ w with bind := some (i, v) }] := by
  simp [bindLast, modAt, hu]

/-- TVIEW with its checks passed (R180). -/
theorem execTview_opensHeld {d a b : Reg} {l : BitVec 4} {v : Option (Nat × Nat)} {s : State}
    (h : tviewCheck s (xr s a) (xr s b) = .ok v) (hq : Quiet s) :
    ∃ t w, execTview d a b l s = .next t ∧ OpensHeld s t w ∧ w.dst = xDst d ∧ w.left = l.toNat ∧ w.missing = 0 ∧
      w.val.setWidth 64 = BitVec.ofNat 64 (viewBase + (xr s b).toNat % 16 * 2 ^ 32) ∧ w.bind = some ((xr s b).toNat % 16, v) ∧
      t.hart.regs = s.hart.regs ∧ t.hart.ar = s.hart.ar ∧ t.hart.views = s.hart.views ∧ t.dev = s.dev ∧ FlowsOn s t := by
  have slot : bits (xr s b) 3 0 = (xr s b).toNat % 16 := rfl
  obtain ⟨w, held, id, dst, left, val, -, missing, -⟩ := openHeldLanes_held (xDst d) l
    ((wordOf (viewBase + (xr s b).toNat % 16 * 2 ^ 32)).setWidth 1024) (BitVec.allOnes 1024) 0 0 s
  have same : SameMode s (bindLast ((xr s b).toNat % 16) v
      (openHeld (xDst d) l ((wordOf (viewBase + (xr s b).toNat % 16 * 2 ^ 32)).setWidth 1024) 0 0 s)) :=
    (SameMode.openHeld _ _ _ _ _ s).trans (.onHart rfl rfl)
  simp only [execTview, h, afterChecks, slot]
  refine ⟨_, { w with bind := some ((xr s b).toNat % 16, v) }, same.finish [d.toNat] hq, ⟨?_, ?_⟩, dst, left, missing, ?_, rfl,
    wentOn_regs _ _, wentOn_ar _ _, ?_, rfl, flowsOn_wentOn rfl rfl⟩
  · rw [wentOn_held]
    exact countWindows_opened (bindLast_held held _ v) rfl id.ge
  · rw [wentOn_nextId]
    rfl
  · rw [val, BitVec.setWidth_setWidth_of_le _ (by decide), BitVec.setWidth_eq]
    rfl
  · obtain ⟨p, f, e⟩ := wentOn_flow s (bindLast ((xr s b).toNat % 16) v
      (openHeld (xDst d) l ((wordOf (viewBase + (xr s b).toNat % 16 * 2 ^ 32)).setWidth 1024) 0 0 s))
    rw [e]
    rfl

/-! ## TLDE, TSTE and TWAIT (R181, R182) -/

section
variable {d a b : Reg} {t : Tensor} {s : State}

theorem execTlde_places {l : BitVec 4} (h : elemCheck s (xr s a) (xr s b) = .ok t) (hr : sqRoom s 1 = true) (hq : Quiet s) :
    execTlde d a b l s = .next (wentOn s (enqueue (.tlde (xr s b).toNat (tySize t.ty) s.hart.nextId) (elemAccess t (xr s b)) none
      (placeEntry t.h (openHeld (xDst d) l 0 1 0 s)))) := by
  simp only [execTlde, h, afterChecks, hr, Bool.not_true, Bool.false_eq_true, if_false]
  exact (((SameMode.openHeld _ _ _ _ _ s).trans (.placeEntry _ _)).trans (.enqueue _ _ _ _)).finish _ hq

theorem execTste_places {w : State} (h : elemCheck s (xr s a) (xr s b) = .ok t) (hr : sqRoom s 1 = true) (hq : Quiet s)
    (hl : reserveLog (storeNeed s (.tste (xr s b).toNat (tySize t.ty) (xr s d) s.hart.ar.satf) (elemAccess t (xr s b)).loc) s = some w) :
    execTste d a b s = .next (wentOn s (markEffect (enqueue (.tste (xr s b).toNat (tySize t.ty) (xr s d) s.hart.ar.satf)
      (elemAccess t (xr s b)) none (placeEntry t.h w)))) := by
  simp only [execTste, h, afterChecks, hr, Bool.not_true, Bool.false_eq_true, if_false, withLog, hl]
  exact (((SameMode.reserveLog hl).trans (.placeEntry _ _)).trans (.enqueue _ _ _ _)).finishFx [] hq

theorem execTwait_goesOn (h : twaitWaits s a = false) (hq : Quiet s) : execTwait a s = .next (wentOn s s) := by
  rw [execTwait, h]
  exact (SameMode.refl s).finish [] hq

end

/-- A handle that names no live tensor raises Protection (R158). -/
theorem exec_deadHandle {d a b : Reg} {l : BitVec 4} {s : State} (hd : ∀ t, liveTensor s (xr s a) ≠ some t) {i : Instr}
    (hi : i ∈ [Instr.twiden d a b l, .tfree a, .tlde d a b l, .tste d a b]) : exec i s = trapOf (.protection, xr s a, 0) s := by
  simp only [List.mem_cons, List.not_mem_nil, or_false] at hi
  rcases hi with rfl | rfl | rfl | rfl
  · exact execTwiden_dead hd
  · change execTfree a s = _
    rw [execTfree, liveCheck_dead hd, afterChecks]
  · change execTlde d a b l s = _
    rw [execTlde, elemCheck_dead hd, afterChecks]
  · change execTste d a b s = _
    rw [execTste, elemCheck_dead hd, afterChecks]

/-- Settles O50: each instruction with its checks passed is one change, which leaves the state as quiet as it was; a fresh handle
exists since fewer are taken than there are numbers to try. -/
theorem tensorInstructionsComplete : Obligations.TensorInstructionsComplete := by
  refine ⟨fun d a b l x s h hq => execTnew_creates h hq,
    fun x ops c s hc => ⟨createTensor_tooMany hc, createTensor_overQuota hc, fun hn hq => ?_⟩,
    fun d a b l t s h hb hq => execTwiden_widens h hb hq, fun a t s h hq => execTfree_frees h hq,
    fun t => ⟨rfl, freeTensor_queue t⟩,
    fun d a b l s hq => ⟨fun hb ha => execTinfo_context hb ha hq, fun t h hb => execTinfo_tensor h hb hq⟩,
    fun d a b l v s h hq => execTview_opensHeld h hq, fun d a b l t s h hr hq => execTlde_places h hr hq,
    fun d a b t s w h hr hq hl => execTste_places h hr hq hl, fun a s hq h => execTwait_goesOn h hq,
    fun a s h => ?_, fun d a b l s hd i hi => exec_deadHandle hd hi⟩
  · obtain ⟨low, unused, free⟩ := freshHandle_fresh s c.used
    obtain ⟨value, tensors, hart⟩ := createTensor_adds hc hn hq
    exact ⟨_, value, low, unused, free, tensors, hart⟩
  · exact if_pos h

end Sys2Proof.Machine
end

section
/-! PROOFS. Copies and near-memory updates at issue (R165, R200, R279, R280, R290, R293, R326, R328, R446). -/

namespace Sys2Proof.Machine

/-! ## Entries at order points (R165) -/

/-- Entries placed change the tensors only. -/
theorem placeEngines_only (id : Nat) (l : List Nat) (s : State) :
    ∃ ts, l.foldl (fun s h => placeEngine id h s) s = onDev (fun d => { d with tensors := ts }) s :=
  foldl_kept (P := fun u => ∃ ts, u = onDev (fun d => { d with tensors := ts }) s)
    (fun _ _ hu => by obtain ⟨ts, rfl⟩ := hu; exact ⟨_, rfl⟩) l ⟨s.dev.tensors, rfl⟩

theorem tensorOf_placeEngine_self (id : Nat) {h : Nat} {x : Tensor} {s : State} (hx : tensorOf s.dev h = some x) :
    tensorOf (placeEngine id h s).dev h = some { x with queue := x.queue ++ [engineEntry id] } :=
  tensorOf_onTensor_self hx rfl

theorem tensorOf_placeEngine_ne (id : Nat) {g h : Nat} (hg : g ≠ h) (s : State) :
    tensorOf (placeEngine id g s).dev h = tensorOf s.dev h := by
  have other : ∀ c : Tensor, (c.h == g) = true → ¬ (c.h == h) = true := fun c hc => by simpa [beq_iff_eq.1 hc] using hg
  exact find?_modWhere_other other other

theorem tensorOf_placeEngines_not_mem (id : Nat) {h : Nat} {l : List Nat} (hl : h ∉ l) (s : State) :
    tensorOf (l.foldl (fun s h => placeEngine id h s) s).dev h = tensorOf s.dev h := by
  induction l generalizing s with
  | nil => rfl
  | cons g r ih =>
    rw [List.mem_cons, not_or] at hl
    exact (ih hl.2 _).trans (tensorOf_placeEngine_ne id (Ne.symm hl.1) s)

/-- Each tensor named once gets the command's entry last. -/
theorem tensorOf_placeEngines_mem (id : Nat) {h : Nat} {l : List Nat} (hn : l.Nodup) (hl : h ∈ l) {x : Tensor} {s : State}
    (hx : tensorOf s.dev h = some x) : tensorOf (l.foldl (fun s h => placeEngine id h s) s).dev h =
      some { x with queue := x.queue ++ [engineEntry id] } := by
  induction l generalizing s with
  | nil => cases hl
  | cons g r ih =>
    rw [List.nodup_cons] at hn
    rcases List.mem_cons.1 hl with rfl | hr
    · exact (tensorOf_placeEngines_not_mem id hn.1 _).trans (tensorOf_placeEngine_self id hx)
    · have other : g ≠ h := fun e => hn.1 (e ▸ hr)
      exact ih hn.2 hr ((tensorOf_placeEngine_ne id other s).trans hx)

/-! ## A command sent (R200, R279, R368) -/

/-- `u` is `s` with a command sent under `tag`: the tag is taken and the command counted, and no register but the LFSR, no flow and no
memory has changed. -/
structure Sends (tag : Byte) (s u : State) : Prop where
  mode : SameMode s u
  tags : u.hart.tags = tag :: s.hart.tags
  sent : u.hart.sent = s.hart.sent + 1
  regs : u.hart.regs = s.hart.regs
  ar : u.hart.ar = { s.hart.ar with lfsr := u.hart.ar.lfsr }
  pc : u.hart.pc = s.hart.pc
  frame : u.hart.frame = s.hart.frame
  clu : u.clu = s.clu
  ls : u.dev.ls = s.dev.ls
  scr : u.dev.scr = s.dev.scr
  dmem : u.dev.dmem = s.dev.dmem

@[simp] theorem wentOn_sent (s u : State) : (wentOn s u).hart.sent = u.hart.sent := by
  obtain ⟨p, f, e⟩ := wentOn_flow s u; rw [e]; rfl

/-- The end of an instruction that has sent a command, in a quiet state (R75, R253). -/
theorem Sends.finishFx {tag : Byte} {s u : State} (h : Sends tag s u) (hq : Quiet s) :
    ∃ t, finishFx s [] u = .next t ∧ t.dev = u.dev ∧ t.hart.tags = tag :: s.hart.tags ∧ t.hart.sent = s.hart.sent + 1 ∧
      t.hart.regs = s.hart.regs ∧ t.hart.ar = u.hart.ar ∧ t.clu = s.clu ∧ FlowsOn s t :=
  ⟨_, h.mode.finishFx [] hq, rfl, (wentOn_tags _ _).trans h.tags, (wentOn_sent _ _).trans h.sent, (wentOn_regs _ _).trans h.regs,
    wentOn_ar _ _, h.clu, flowsOn_wentOn h.pc h.frame⟩

/-! ## Copies (R279, R280, R290) -/

/-- A stochastic copy that rounds steps the LFSR; of its core it changes nothing else (R70, R446). -/
def drawCopy (b : List Byte) (s : State) : State :=
  if copyRounding s (copyRec b) == .sto && !(copyRec b).namesTable then setLfsr (lfsrAdvance s.hart.ar.lfsr) s else s

theorem drawCopy_only (b : List Byte) (s : State) : ∃ r,
    drawCopy b s = { s with hart := { s.hart with ar := { s.hart.ar with lfsr := r } } } ∧
      (copyRounding s (copyRec b) ≠ .sto → r = s.hart.ar.lfsr) := by
  unfold drawCopy
  split
  · next h => exact ⟨_, rfl, fun hn => absurd h (by simp [hn])⟩
  · exact ⟨_, rfl, fun _ => rfl⟩

/-- The copy that an instruction puts last, its place, and what it leaves (R165, R279, R280, R290). -/
theorem queueCopy_queues (fn : Nat) (b : List Byte) (s : State) : ∃ c, (queueCopy fn b s).dev.copies = s.dev.copies ++ [c] ∧
    c.fn = fn ∧ c.record = b ∧ c.core = s.hart.ar.core ∧ c.ctx = s.hart.ar.ctx ∧ c.tag = BitVec.ofNat 8 (copyRec b).tag ∧
    c.st = .queued ∧ c.id = s.dev.nextEng ∧ c.rnd = copyRounding s (copyRec b) ∧ c.sat = s.hart.ar.satf ∧
    (queueCopy fn b s).dev.nextEng = s.dev.nextEng + 1 ∧
    (copyRounding s (copyRec b) ≠ .sto → (queueCopy fn b s).hart.ar.lfsr = s.hart.ar.lfsr) ∧
    (∀ h ∈ copyHandlesOf (copyRec b), ∀ x, tensorOf s.dev h = some x →
      tensorOf (queueCopy fn b s).dev h = some { x with queue := x.queue ++ [engineEntry c.id] }) ∧
    Sends c.tag s (queueCopy fn b s) := by
  unfold queueCopy
  extract_lets r m sto s1 id c s2 s3
  obtain ⟨lfsr, drawn, kept⟩ := drawCopy_only b s
  have hs1 : s1 = { s with hart := { s.hart with ar := { s.hart.ar with lfsr := lfsr } } } := drawn
  obtain ⟨ts, placed⟩ := placeEngines_only id (copyHandlesOf r) { s1 with tick := s1.tick + 1 }
  have entries : ∀ h ∈ copyHandlesOf r, ∀ x, tensorOf s1.dev h = some x →
      tensorOf s2.dev h = some { x with queue := x.queue ++ [engineEntry id] } := fun h hh x hx =>
    tensorOf_placeEngines_mem id (List.nodup_dedup _) hh hx
  have hs2 : s2 = onDev (fun d => { d with tensors := ts }) { s1 with tick := s1.tick + 1 } := placed
  clear_value s2
  subst hs2
  clear_value s1
  subst hs1
  exact ⟨c, rfl, rfl, rfl, rfl, rfl, rfl, rfl, rfl, rfl, rfl, rfl, kept, entries,
    .onHart rfl rfl, rfl, rfl, rfl, rfl, rfl, rfl, rfl, rfl, rfl, rfl⟩

/-- A copy instruction is the issue of its function (R279). -/
theorem exec_copyFn {i : Instr} {fn : Nat} {a : Reg} (h : copyFn i = some (fn, a)) (s : State) : exec i s = copyIssue fn a s := by
  cases i <;> cases h <;> rfl

section
variable {fn : Nat} {a : Reg} {b : List Byte} {s : State}

theorem copyIssue_queues (h : copyCheck s fn (xr s a) = .ok b) (hl : tableLoading s (copyRec b) = false) :
    copyIssue fn a s = finishFx s [] (queueCopy fn b s) := by
  simp only [copyIssue, h, afterChecks, hl, Bool.false_eq_true, if_false]

theorem copyIssue_waits (h : copyCheck s fn (xr s a) = .ok b) (hl : tableLoading s (copyRec b) = true) :
    copyIssue fn a s = .next s := by
  simp only [copyIssue, h, afterChecks, hl, if_true, hold]

theorem copyIssue_refused {r : Refuse} (h : copyCheck s fn (xr s a) = .error r) : copyIssue fn a s = .next (checkTrap r s) := by
  rw [copyIssue, h, afterChecks]
  rfl

end

/-! ## Near-memory updates (R326, R328) -/

/-- NMUPD with its checks passed puts one update last, with all its pieces (R326, R327). -/
theorem execNmupd_queues {a : Reg} {b : List Byte} {w g : Tensor} {s : State} (h : nmupdCheck s (xr s a) = .ok (b, w, g)) :
    ∃ u j, execNmupd a s = finishFx s [] u ∧ u.dev.nmus = s.dev.nmus ++ [j] ∧ j.record = b ∧ j.core = s.hart.ar.core ∧
      j.ctx = s.hart.ar.ctx ∧ j.tag = BitVec.ofNat 8 (nmuRec b).tag ∧ j.st = .queued ∧ j.id = s.dev.nextEng ∧
      j.todo = nmuPieces w (nmuRec b).row0 (nmuRec b).nrows ∧ u.hart.ar = s.hart.ar ∧ Sends j.tag s u := by
  obtain ⟨ts, placed⟩ := placeEngines_only s.dev.nextEng (nmuHandles (nmuRec b)) s
  simp only [execNmupd, h, afterChecks, placed]
  exact ⟨_, _, rfl, rfl, rfl, rfl, rfl, rfl, rfl, rfl, rfl, rfl, .onHart rfl rfl, rfl, rfl, rfl, rfl, rfl, rfl, rfl, rfl, rfl, rfl⟩

theorem execNmupd_refused {a : Reg} {r : Refuse} {s : State} (h : nmupdCheck s (xr s a) = .error r) :
    execNmupd a s = .next (checkTrap r s) := by
  rw [execNmupd, h, afterChecks]
  rfl

/-- Whether NMSTAT reports a row lock at the unit of a stack (R328, log 61). -/
def lockSeen (s : State) (k : Nat) : Bool := piecesAt s.dev k (fun _ => true) != 0 && (Config.freeWord s.tick).getLsbD 0

/-- NMSTAT of a unit (R328). -/
theorem execNmstat_reads {d a : Reg} {s : State} (h : (xr s a).toNat ≤ 11) : execNmstat d a s =
    finish s [d.toNat] (setX d (BitVec.ofNat 64 ((if lockSeen s (xr s a).toNat = true then 65536 else 0) +
      piecesAt s.dev (xr s a).toNat (fun j => j.ctx == s.hart.ar.ctx) % 65536)) { s with tick := s.tick + 1 }) := by
  rw [execNmstat]
  exact if_neg (Nat.not_lt.2 h)

/-- The end of NMSTAT, which observes a free value and writes one register (R75). -/
theorem finish_setX_observed (d : Reg) (v : Word) {s : State} (hq : Quiet s) :
    ∃ t, finish s [d.toNat] (setX d v { s with tick := s.tick + 1 }) = .next t ∧ WritesX s t d v ∧ t.dev = s.dev ∧ t.clu = s.clu ∧
      FlowsOn s t := by
  have same : SameMode s (setX d v { s with tick := s.tick + 1 }) :=
    SameMode.trans (u := { s with tick := s.tick + 1 }) (.of_ctxs rfl rfl) (.setX d v _)
  refine ⟨_, same.finish _ hq, fun r => ?_, ?_, ?_, flowsOn_wentOn ?_ ?_⟩
  · rw [xr_wentOn, xr_setX]
    rfl
  · rw [wentOn_dev, setX_dev]
  · rw [wentOn_clu, setX_clu]
  · rw [setX_pc]
  · rw [setX_frame]

/-- Settles O53: a copy or an update with its checks passed sends one command, whose entry goes last at each tensor that it names;
CPYST and NMSTAT write one register. -/
theorem engineInstructionsComplete : Obligations.EngineInstructionsComplete := by
  refine ⟨fun i fn a s hi => ?_, fun d a s hq => exec_setX_completes (i := .cpyst d a) (regs := [d.toNat]) rfl hq,
    fun a b w g s h hq => ?_, fun a r s h => execNmupd_refused h, fun d a s h hq => ?_, fun d a s h => if_pos h⟩
  · rw [exec_copyFn hi]
    refine ⟨fun b h hl hq => ?_, fun b h hl => copyIssue_waits h hl, fun r h => copyIssue_refused h⟩
    obtain ⟨c, last, hfn, record, core, ctx, tag, st, id, rnd, sat, next, lfsr, entries, sends⟩ := queueCopy_queues fn b s
    obtain ⟨t, done, dev, tags, sent, regs, ar, clu, flow⟩ := sends.finishFx hq
    rw [copyIssue_queues h hl]
    exact ⟨t, c, done, dev ▸ last, hfn, record, core, ctx, tag, st, id, rnd, sat, dev ▸ next, tags, sent, regs, ar ▸ sends.ar,
      fun hn => ar ▸ lfsr hn, dev ▸ entries, clu, dev ▸ sends.ls, dev ▸ sends.scr, dev ▸ sends.dmem, flow⟩
  · obtain ⟨u, j, e, last, record, core, ctx, tag, st, id, todo, kept, sends⟩ := execNmupd_queues h
    obtain ⟨t, done, dev, tags, sent, regs, ar, clu, flow⟩ := sends.finishFx hq
    exact ⟨t, j, e.trans done, dev ▸ last, record, core, ctx, tag, st, id, todo, tags, sent, regs, ar.trans kept, clu,
      dev ▸ sends.ls, dev ▸ sends.scr, dev ▸ sends.dmem, flow⟩
  · obtain ⟨t, done, writes, dev, clu, flow⟩ := finish_setX_observed d _ hq
    refine ⟨t, lockSeen s (xr s a).toNat, (execNmstat_reads h).trans done, writes, dev, clu, fun none => ?_, flow⟩
    simp [lockSeen, none]

end Sys2Proof.Machine
end

section
/-! PROOFS. The fences (R192, R194 to R196). -/

namespace Sys2Proof.Machine

/-! ## What fences that settle leave -/

/-- `u` is `s` but for its caches and the fences that hold. -/
def CachesOnly (s u : State) : Prop := ∃ l1 fences exp cm,
  u = { s with hart := { s.hart with l1 := l1, fences := fences }, clu := { s.clu with exp := exp, cm := cm } }

namespace CachesOnly

theorem refl (s : State) : CachesOnly s s := ⟨s.hart.l1, s.hart.fences, s.clu.exp, s.clu.cm, rfl⟩

theorem trans {s u v : State} (h : CachesOnly s u) (k : CachesOnly u v) : CachesOnly s v := by
  obtain ⟨_, _, _, _, rfl⟩ := h
  obtain ⟨l1, fences, exp, cm, rfl⟩ := k
  exact ⟨l1, fences, exp, cm, rfl⟩

theorem onFences (f : List Fence → List Fence) (s : State) :
    CachesOnly s (onHart (fun h => { h with fences := f h.fences }) s) := ⟨_, _, _, _, rfl⟩

/-- An acquire drops lines of caches (R192). -/
theorem acquireMoves (sc : Scope) (s : State) : CachesOnly s (acquireMoves sc s) := by
  cases sc with
  | core => exact refl s
  | _ => exact ⟨_, _, _, _, rfl⟩

theorem settleFence (f : Fence) (s : State) : CachesOnly s (settleFence f s).2 := by
  unfold Machine.settleFence
  extract_lets f1 f2 f3 free
  split <;> [exact acquireMoves _ s; exact refl s]

theorem settleList (l : List Fence) (s : State) : CachesOnly s (settleList l s).2 := by
  induction l generalizing s with
  | nil => exact refl s
  | cons f r ih => exact (settleFence f s).trans (ih _)

theorem settle (s : State) : CachesOnly s (settle s) := by
  unfold Machine.settle
  split <;> [exact refl s; exact (settleList _ s).trans (onFences (fun _ => _) _)]

theorem sameMode {s u : State} (h : CachesOnly s u) : SameMode s u := by
  obtain ⟨_, _, _, _, rfl⟩ := h
  exact ⟨rfl, rfl, fun _ => rfl⟩

/-- Such a change, retired, has left the registers, the device, the store queue and the paths to the homes. -/
theorem retired {s u : State} (h : CachesOnly s u) : (wentOn s u).hart.regs = s.hart.regs ∧ (wentOn s u).hart.ar = s.hart.ar ∧
    (wentOn s u).dev = s.dev ∧ (wentOn s u).hart.sq = s.hart.sq ∧ (wentOn s u).clu.path = s.clu.path ∧
    (wentOn s u).clu.gates = s.clu.gates := by
  obtain ⟨p, f, e⟩ := wentOn_flow s u
  obtain ⟨_, _, _, _, rfl⟩ := h
  rw [e]
  exact ⟨rfl, rfl, rfl, rfl, rfl, rfl⟩

end CachesOnly

/-! ## Issue -/

/-- A FENCE is the issue of its kind (R195). -/
theorem exec_fenceInstr {i : Instr} {k : FenceKind} {a : Reg} {sc : Scope} (h : fenceInstr i = some (k, a, sc)) (s : State) :
    exec i s = fenceIssue k a sc s := by
  cases i <;> cases h <;> rfl

section
variable {k : FenceKind} {a : Reg} {sc r : Scope} {s : State}

/-- A fence whose scope resolves is one pending fence more, settled as far as the machine has come (R195). -/
theorem fenceIssue_adds (h : resolveScope s sc (xr s a) = .ok r) (hq : Quiet s) : fenceIssue k a sc s =
    .next (wentOn s (settle (onHart (fun h => { h with fences := h.fences ++ [fenceOf s k r] }) s))) := by
  rw [fenceIssue, h, afterChecks]
  exact ((CachesOnly.onFences (· ++ [fenceOf s k r]) s).trans (.settle _)).sameMode.finish [] hq

theorem fenceIssue_refused {e : Refuse} (h : resolveScope s sc (xr s a) = .error e) :
    fenceIssue k a sc s = .next (checkTrap e s) := by
  rw [fenceIssue, h, afterChecks]
  rfl

/-- A slot that the thread may not name has no group scope (R196, R231). -/
theorem resolveScope_badSlot {v : Word} (h : 8 ≤ v.toNat ∨ s.hart.nslots ≤ v.toNat) :
    resolveScope s .grp v = .error (.protection, v, 0) := by
  have bad : (decide (v.toNat < 8) && decide (v.toNat < s.hart.nslots)) = false := by
    rw [Bool.and_eq_false_iff, decide_eq_false_iff_not, decide_eq_false_iff_not]
    omega
  simp only [resolveScope, slotCheck, check, bad]
  rfl

end

/-- Settles O33: a fence is one entry more, and what settles of the fences changes caches only. -/
theorem fencesComplete : Obligations.FencesComplete := by
  refine fun i k a sc r s hi => ⟨fun h hq => ?_, fun hg hv => ?_⟩
  · have only := (CachesOnly.onFences (· ++ [fenceOf s k r]) s).trans (.settle _)
    exact ⟨_, (exec_fenceInstr hi s).trans (fenceIssue_adds h hq), rfl, only.retired⟩
  · subst hg
    exact (exec_fenceInstr hi s).trans (fenceIssue_refused (resolveScope_badSlot hv))

end Sys2Proof.Machine
end

section
/-! PROOFS. The moves of engines (R201, R202, R286 to R291, R327): a rule for each. They give every clause of O54 but one, which wants
a premise: that a loaded table reads back needs the map of the other clusters' tables in canonical form (`tablesOf_setTable`). -/

namespace Sys2Proof.Machine

/-! ## A copy that starts (R286, R391) -/

section
variable {n : Nat} {s t : State}

theorem engStall_fits (h : engFits n s t = true) : engStall n s t = t := if_pos h

theorem engStall_full (h : engFits n s t = false) : engStall n s t = onCtx n (fun c => { c with armed := true }) s :=
  if_neg (by simp [h])

end

section
variable {k : Nat} {c : Copy} {s w : State}

theorem execCopyExecute_runs (hk : s.dev.copies[k]? = some c) (hc : CopyStarts s c)
    (hl : reserveLog (copyNeed s c (planOf s c)) s = some w) :
    exec (.copyExecute k) s = .next (engStall c.ctx w (settle (performCopy c w))) := by
  obtain ⟨queued, noLoad, ready, first, sync, runs⟩ := hc
  change execCopyExecute k s = _
  simp [execCopyExecute, hk, queued, noLoad, ready, first, sync, runs, hl]

theorem execCopyExecute_stays (hk : s.dev.copies[k]? = some c) (hc : ¬ CopyStarts s c) :
    exec (.copyExecute k) s = .next s := by
  change execCopyExecute k s = _
  rw [execCopyExecute, hk]
  refine if_pos ?_
  by_contra no
  simp only [Bool.or_eq_true, not_or, Bool.not_eq_true, bne_eq_false_iff_eq, Bool.not_eq_false'] at no
  obtain ⟨⟨⟨⟨⟨queued, noLoad⟩, ready⟩, first⟩, sync⟩, runs⟩ := no
  exact hc ⟨queued, noLoad, ready, first, sync, runs⟩

end

/-! ## A table that loads (R287, R288) -/

/-- A copy changed under its number, found with the state that it got. -/
theorem st_onCopy {id : Nat} {j : JobState} {s : State} :
    ∀ x ∈ (onCopy id (fun c => { c with st := j }) s).dev.copies, x.id = id → x.st = j := by
  intro x hx hid
  obtain ⟨y, -, rfl⟩ := List.mem_map.1 (show x ∈ modWhere _ _ _ from hx)
  by_cases hy : (y.id == id) = true
  · rw [if_pos hy]
  · rw [if_neg hy] at hid
    exact absurd (beq_iff_eq.2 hid) hy

@[simp] theorem setTable_hart (c i : Nat) (img : BitVec 1024) (s : State) : (setTable c i img s).hart = s.hart := by
  unfold setTable
  split <;> rfl

/-- Where the map of the other clusters' tables is in canonical form, a table that is loaded reads back (R288). -/
theorem tablesOf_setTable {c i : Nat} (hi : i < 8) (img : BitVec 1024) {s : State} (hm : Memory.wf s.dev.etabs = true) :
    (tablesOf (setTable c i img s) c)[i]? = some img := by
  unfold setTable tablesOf
  split
  · next own => simp [own, hi]
  · next far => simp [far, hi, smGet_smSet _ _ _ hm]

/-- The state of a load that is done (R288, R291): with a poisoned byte it says Poison and where. -/
def loadEnd : Option Word → JobState
  | none => .done 0 128
  | some a => .done 0x0C (a.setWidth 32)

/-- Entry `k` of the list is a load that is queued in a context that runs, and the bytes `bs` of its image are read, which leaves `u`;
`bad` is the address of a poisoned one (R288, R291). -/
structure LoadReads (k : Nat) (c : Copy) (s : State) (bs : List Byte) (bad : Option Word) (u : State) : Prop where
  entry : s.dev.copies[k]? = some c
  queued : c.st = .queued
  load : (copyRec c.record).load = true
  runs : ctxRuns s c.ctx = true
  read : engReadVa c.org (if (copyRec c.record).sk = 2 then some (copyRec c.record).core else none) c.user (copyRec c.record).src 128 s =
    .ok (bs, bad, u)

section
variable {k : Nat} {c : Copy} {bs : List Byte} {bad : Option Word} {s u : State}

theorem execExponentTableLoad_loads (h : LoadReads k c s bs bad u) (legal : ehLegal (ehLens (BitVec.ofNat 1024 (bytesNat bs))) = true) :
    exec (.exponentTableLoad k) s = .next (onCopy c.id (fun x => { x with st := loadEnd bad })
      (setTable (clusterOfCore c.core) (copyRec c.record).tbl (BitVec.ofNat 1024 (bytesNat bs)) u)) := by
  obtain ⟨entry, queued, load, runs, read⟩ := h
  change execExponentTableLoad k s = _
  simp only [execExponentTableLoad, entry, queued, load, runs, read, legal]
  cases bad <;> rfl

/-- With its map of tables in canonical form, what a legal load leaves: its image in the table, and its end in the list (R288, R291). -/
theorem execExponentTableLoad_table (h : LoadReads k c s bs bad u) (ht : (copyRec c.record).tbl < 8)
    (legal : ehLegal (ehLens (BitVec.ofNat 1024 (bytesNat bs))) = true) (hm : Memory.wf u.dev.etabs = true) :
    ∃ t, exec (.exponentTableLoad k) s = .next t ∧
      (tablesOf t (clusterOfCore c.core))[(copyRec c.record).tbl]? = some (BitVec.ofNat 1024 (bytesNat bs)) ∧
      (∀ x ∈ t.dev.copies, x.id = c.id → x.st = loadEnd bad) ∧ t.hart.regs = u.hart.regs :=
  ⟨_, execExponentTableLoad_loads h legal, tablesOf_setTable ht _ hm, st_onCopy, congrArg Hart.regs (setTable_hart _ _ _ u)⟩

/-- An illegal image enters no table (R287). -/
theorem execExponentTableLoad_refuses (h : LoadReads k c s bs bad u)
    (illegal : ehLegal (ehLens (BitVec.ofNat 1024 (bytesNat bs))) = false) :
    exec (.exponentTableLoad k) s =
      .next (onCopy c.id (fun x => { x with st := .done 0x05 ((copyRec c.record).src.setWidth 32) }) u) := by
  obtain ⟨entry, queued, load, runs, read⟩ := h
  change execExponentTableLoad k s = _
  simp only [execExponentTableLoad, entry, queued, load, runs, read, illegal]
  rfl

end

/-! ## A message that enters the inbox (R201, R202) -/

/-- The core takes a message at once: a thread is there, the inbox has room, no message waits, the core is not stopped; and no fence
holds that the message could settle. -/
def TakesMsg (s : State) : Prop :=
  s.hart.thread ≠ .idle ∧ s.hart.inbox.length < 64 ∧ s.clu.hold = [] ∧ s.hart.dbg.stop = none ∧ s.hart.fences = []

theorem settle_postMsg {s : State} (h : TakesMsg s) (m : Msg) : settle (postMsg s.hart.ar.core m s) = placeMsg m s := by
  obtain ⟨thread, room, hold, stop, fences⟩ := h
  have placed : postMsg s.hart.ar.core m s = placeMsg m s := by
    simp [postMsg, thread, hold, stop, inboxSize, room]
  rw [placed]
  exact if_pos (by simp [placeMsg, passTime, fences])

/-- The machine without a copy that has ended. -/
def dropCopy (c : Copy) (s : State) : State := onDev (fun d => { d with copies := d.copies.filter fun b => b.id != c.id }) s
/-- The machine without an update that has ended. -/
def dropNmu (j : NmuJob) (s : State) : State := onDev (fun d => { d with nmus := d.nmus.filter fun i => i.id != j.id }) s

theorem dropCopy_gone (c : Copy) (s : State) : ∀ x ∈ (dropCopy c s).dev.copies, x.id ≠ c.id := fun x hx => by
  simpa using (List.mem_filter.1 hx).2

theorem dropNmu_gone (j : NmuJob) (s : State) : ∀ x ∈ (dropNmu j s).dev.nmus, x.id ≠ j.id := fun x hx => by
  simpa using (List.mem_filter.1 hx).2

/-- The message of a copy that ends (R201). -/
def copyMsg (c : Copy) (st : Byte) (n : BitVec 32) : Msg := ⟨c.tag, st, BitVec.ofNat 8 c.fn, n, 0, c.wrote, c.org.icount⟩

/-- How a copy ends: it is done, and no load of a table that it names keeps it; or its peer acknowledges or refuses it within the
peer timeout (R286, R288). -/
inductive CopyEnds (s : State) (c : Copy) : Option Word → Byte → BitVec 32 → Prop
  | done {f st n} : c.st = .done st n → loadHeld s c = false → CopyEnds s c f st n
  | acked {st n} : c.st = .await st n → s.dev.time.toNat ≤ ackEnd s c → CopyEnds s c none st n
  | refused {st n} {a : Word} : c.st = .await st n → s.dev.time.toNat ≤ ackEnd s c → CopyEnds s c (some a) 0x05 (a.setWidth 32)

section
variable {k : Nat} {c : Copy} {st : Byte} {n : BitVec 32} {s : State}

theorem placeCopy_enters (hc : c.core = s.hart.ar.core) (h : TakesMsg s) :
    placeCopy c st n s = placeMsg (copyMsg c st n) (dropCopy c s) := by
  rw [placeCopy, hc]
  exact settle_postMsg (s := dropCopy c s) h _

theorem peerSays_inTime (ht : s.dev.time.toNat ≤ ackEnd s c) : peerSays c st n s = endPeer c st n s := if_neg (Nat.not_lt.2 ht)

theorem endPeer_first (hb : engineBehind s c = false) : endPeer c st n s = placeCopy c st n s := if_neg (by simp [hb])

/-- The first copy of its engine and core that ends places its message (R200, R202, R286). -/
theorem execCopyComplete_places {f : Option Word} (hk : s.dev.copies[k]? = some c) (he : CopyEnds s c f st n)
    (hb : engineBehind s c = false) (hc : c.core = s.hart.ar.core) (h : TakesMsg s) :
    exec (.copyComplete ⟨k, f⟩) s = .next (placeMsg (copyMsg c st n) (dropCopy c s)) := by
  rw [← placeCopy_enters hc h]
  change execCopyComplete ⟨k, f⟩ s = _
  cases he with
  | done hst hl => simp [execCopyComplete, hk, hst, hb, hl]
  | acked hst ht => simp [execCopyComplete, hk, hst, peerSays_inTime ht, endPeer_first hb]
  | refused hst ht =>
    simp only [execCopyComplete, hk, hst, peerSays_inTime ht, endPeer_first hb]
    rfl

/-- Behind an earlier copy of its engine and core, a peer's copy only ends (R202). -/
theorem execCopyComplete_waits (hk : s.dev.copies[k]? = some c) (hst : c.st = .await st n) (hb : engineBehind s c = true)
    (ht : s.dev.time.toNat ≤ ackEnd s c) :
    exec (.copyComplete ⟨k, none⟩) s = .next (onCopy c.id (fun x => { x with st := .done st n }) s) := by
  change execCopyComplete ⟨k, none⟩ s = _
  simp only [execCopyComplete, hk, hst, peerSays_inTime ht]
  exact congrArg _ (if_pos hb)

theorem orphanCopy_enters (hb : engineBehind s c = false) (hc : c.core = s.hart.ar.core) (h : TakesMsg s) :
    orphanCopy c s = placeMsg (copyMsg c 0x05 (BitVec.allOnes 32))
      (dropCopy c (onCtx c.ctx (fun x => { x with orphaned := x.orphaned + 1 }) s)) := by
  rw [orphanCopy, endPeer_first (by exact hb), placeCopy_enters (by exact hc) (by exact h)]
  rfl

/-- A peer copy that times out is orphaned, and ends as refused (R286, R378). -/
theorem execPeerAckTimeout_places (hk : s.dev.copies[k]? = some c) (hst : c.st = .await st n) (hb : engineBehind s c = false)
    (hc : c.core = s.hart.ar.core) (h : TakesMsg s) :
    exec (.peerAckTimeout k) s = .next (placeMsg (copyMsg c 0x05 (BitVec.allOnes 32)) (dropCopy c
      (onCtx c.ctx (fun x => { x with orphaned := x.orphaned + 1 }) (reachTime (ackEnd s c) s)))) := by
  rw [← orphanCopy_enters (s := reachTime (ackEnd s c) s) hb hc h]
  change execPeerAckTimeout k s = _
  simp only [execPeerAckTimeout, hk, hst]

end

/-! ## Updates (R327) -/

section
variable {k i : Nat} {j : NmuJob} {s : State}

theorem execNmuPieceUpdate_runs {p : Nat × Nat × Nat} {w g : Tensor} {u : State} (hk : s.dev.nmus[k]? = some j) (hst : j.st = .queued)
    (hr : ctxRuns s j.ctx = true) (hd : copyDead s j.id (nmuHandles (nmuRec j.record)) = none) (hp : j.todo[i]? = some p)
    (hw : tensorOf s.dev (nmuRec j.record).wh.toNat = some w) (hg : tensorOf s.dev (nmuRec j.record).gh.toNat = some g)
    (ready : copyReady s j.id (nmuHandles (nmuRec j.record)) = true) (hb : pieceBehind s j p = false)
    (hl : reserveLog (pieceNeed s j (tySize w.ty) p.2.2) s = some u) :
    exec (.nmuPieceUpdate k i) s = .next (engStall j.ctx u (settle (updatePiece j i p w g u))) := by
  change execNmuPieceUpdate k i s = _
  simp [execNmuPieceUpdate, hk, hst, hr, hd, hp, hw, hg, ready, hb, hl]

theorem execNmuComplete_places {st : Byte} {n : BitVec 32} (hk : s.dev.nmus[k]? = some j) (hst : j.st = .done st n)
    (hb : nmuBehind s j = false) (hc : j.core = s.hart.ar.core) (h : TakesMsg s) :
    exec (.nmuComplete k) s = .next (placeMsg ⟨j.tag, st, 0x11, n, 0, [], j.org.icount⟩ (dropNmu j s)) := by
  change execNmuComplete k s = _
  simp only [execNmuComplete, hk, hst, hb, hc, Bool.false_eq_true, if_false]
  exact congrArg _ (settle_postMsg (s := dropNmu j s) h _)

end

/-! ## The map of the other clusters' tables -/

/-- The load of table 0 from LS address 0 (R288), by a core of cluster 1. -/
def farLoad : Copy where
  id := 0
  eng := 0
  seq := 0
  fn := 0
  core := 16
  ctx := 0
  tag := 0
  record := List.replicate 34 0 ++ [12]
  rnd := .rne
  sat := false
  gen := none
  user := true
  st := .queued
  wrote := []
  org := ⟨16, 0, 0, 0, false, false⟩
  exch := false
  sentAt := 0

/-- The machine at reset with a running context, that load, and a map of the other clusters' tables which lists table 0 of cluster 1
twice: it is not in canonical form. -/
def listedTwice : State :=
  onDev (fun d => { d with ctxs := [newContext 0 1 []], copies := [farLoad], etabs := [(8, 1), (8, 1)] }) State.reset

/-- LS is zero, so the load reads the table without a code. -/
theorem listedTwice_reads : LoadReads 0 farLoad listedTwice (List.replicate 128 0) none listedTwice := by
  refine ⟨rfl, rfl, rfl, ?_, ?_⟩ <;> decide +kernel

/-- The table without a code is legal (R287). -/
theorem zeroTable_legal : ehLegal (ehLens (BitVec.ofNat 1024 (bytesNat (List.replicate 128 0)))) = true := by decide +kernel

/-- Refutes O54, in its clause of legal table loads, for a map of the other clusters' tables that is not in canonical form: the zero
table loaded unlists one of the two entries of its key, and the other is what the table then holds. -/
theorem not_engineMoves : ¬ Obligations.EngineMoves := by
  intro h
  obtain ⟨-, -, loads, -⟩ := h
  obtain ⟨entry, queued, load, runs, read⟩ := listedTwice_reads
  obtain ⟨t, run, table, -⟩ := (loads 0 farLoad _ _ _ _ entry queued load runs (by decide) read).1 zeroTable_legal
  rw [execExponentTableLoad_loads listedTwice_reads zeroTable_legal] at run
  cases run
  exact absurd table (by decide +kernel)

end Sys2Proof.Machine
end

section
/-! PROOFS. The values of the atomics and the reductions (R213, R216, R217). -/

namespace Sys2Proof.Machine

/-- The signed value of the low bytes of a word is that of the bit vector they make (R52). -/
theorem asInt_eq_toInt (n : Nat) (hn : 0 < n) (v : Word) : asInt n v = (v.setWidth (8 * n)).toInt := by
  have half : 2 ^ (8 * n) = 2 * 2 ^ (8 * n - 1) := by rw [← pow_succ']; congr 1; omega
  have cast : ((2 ^ (8 * n) : Nat) : Int) = 2 ^ (8 * n) := by norm_cast
  simp only [asInt, toInt, BitVec.toInt, BitVec.toNat_setWidth, Bool.true_and, decide_eq_true_eq, cast]
  by_cases h : 2 ^ (8 * n - 1) ≤ v.toNat % 2 ^ (8 * n)
  · rw [if_pos h, if_neg (by omega)]
  · rw [if_neg h, if_pos (by omega)]

section
variable {n : Nat} (hn : n = 4 ∨ n = 8) (old v cmp : Word)
include hn

/-- The bytes of an atomic are part of a word (R212). -/
theorem atomicModulus_le : 2 ^ (8 * n) ≤ 2 ^ 64 := by rcases hn with rfl | rfl <;> decide

/-- What an atomic makes of values below its modulus is kept by the word (R213). -/
theorem toNat_wordOf_atomic {x : Nat} (h : x < 2 ^ (8 * n)) : (wordOf x).toNat = x :=
  Nat.mod_eq_of_lt (h.trans_le (atomicModulus_le hn))

theorem toNat_wordOf_low : (wordOf (v.toNat % 2 ^ (8 * n))).toNat = v.toNat % 2 ^ (8 * n) :=
  toNat_wordOf_atomic hn (Nat.mod_lt _ (Nat.two_pow_pos _))

/-- The low bytes of a word, in a word: below the modulus, and read signed as they were (R213). -/
theorem wordOf_low_signed : (wordOf (v.toNat % 2 ^ (8 * n))).toNat < 2 ^ (8 * n) ∧
    ((wordOf (v.toNat % 2 ^ (8 * n))).setWidth (8 * n)).toInt = asInt n v := by
  have low := toNat_wordOf_low hn v
  refine ⟨low.trans_lt (Nat.mod_lt _ (Nat.two_pow_pos _)), ?_⟩
  rw [asInt_eq_toInt n (by omega)]
  congr 1
  refine BitVec.eq_of_toNat_eq ?_
  rw [BitVec.toNat_setWidth, BitVec.toNat_setWidth, low, Nat.mod_mod]

theorem rmwNew_add : ∃ r, rmwNew .add n old v cmp = some r ∧ r.toNat = (old.toNat + v.toNat) % 2 ^ (8 * n) :=
  ⟨_, rfl, by rw [toNat_wordOf_atomic hn (Nat.mod_lt _ (Nat.two_pow_pos _)), ← Nat.add_mod]⟩

theorem rmwNew_and : ∃ r, rmwNew .and n old v cmp = some r ∧ r.toNat = (old &&& v).toNat % 2 ^ (8 * n) :=
  ⟨_, rfl, by
    rw [← Nat.and_mod_two_pow, toNat_wordOf_atomic hn (Nat.mod_lt _ (Nat.two_pow_pos _)), BitVec.toNat_and]⟩

theorem rmwNew_or : ∃ r, rmwNew .or n old v cmp = some r ∧ r.toNat = (old ||| v).toNat % 2 ^ (8 * n) :=
  ⟨_, rfl, by
    rw [← Nat.or_mod_two_pow, toNat_wordOf_atomic hn (Nat.mod_lt _ (Nat.two_pow_pos _)), BitVec.toNat_or]⟩

theorem rmwNew_xor : ∃ r, rmwNew .xor n old v cmp = some r ∧ r.toNat = (old ^^^ v).toNat % 2 ^ (8 * n) :=
  ⟨_, rfl, by
    rw [← Nat.xor_mod_two_pow, toNat_wordOf_atomic hn (Nat.mod_lt _ (Nat.two_pow_pos _)), BitVec.toNat_xor]⟩

/-- The signed lesser is one of the two values' low bytes (R213). -/
theorem rmwNew_min : ∃ r, rmwNew .min n old v cmp = some r ∧ r.toNat < 2 ^ (8 * n) ∧
    (r.setWidth (8 * n)).toInt = min (old.setWidth (8 * n)).toInt (v.setWidth (8 * n)).toInt := by
  obtain ⟨oldSmall, oldValue⟩ := wordOf_low_signed hn old
  obtain ⟨newSmall, newValue⟩ := wordOf_low_signed hn v
  rw [← asInt_eq_toInt n (by omega) old, ← asInt_eq_toInt n (by omega) v]
  by_cases h : asInt n old ≤ asInt n v
  · exact ⟨_, congrArg (fun x => some (wordOf x)) (if_pos h), oldSmall, oldValue.trans (min_eq_left h).symm⟩
  · exact ⟨_, congrArg (fun x => some (wordOf x)) (if_neg h), newSmall, newValue.trans (min_eq_right (le_of_not_ge h)).symm⟩

/-- So is the signed greater. -/
theorem rmwNew_max : ∃ r, rmwNew .max n old v cmp = some r ∧ r.toNat < 2 ^ (8 * n) ∧
    (r.setWidth (8 * n)).toInt = max (old.setWidth (8 * n)).toInt (v.setWidth (8 * n)).toInt := by
  obtain ⟨oldSmall, oldValue⟩ := wordOf_low_signed hn old
  obtain ⟨newSmall, newValue⟩ := wordOf_low_signed hn v
  rw [← asInt_eq_toInt n (by omega) old, ← asInt_eq_toInt n (by omega) v]
  by_cases h : asInt n old ≥ asInt n v
  · exact ⟨_, congrArg (fun x => some (wordOf x)) (if_pos h), oldSmall, oldValue.trans (max_eq_left h).symm⟩
  · exact ⟨_, congrArg (fun x => some (wordOf x)) (if_neg h), newSmall, newValue.trans (max_eq_right (le_of_not_ge h)).symm⟩

theorem rmwNew_minn : ∃ r, rmwNew .minn n old v cmp = some r ∧
    r.toNat = min (old.toNat % 2 ^ (8 * n)) (v.toNat % 2 ^ (8 * n)) :=
  ⟨_, rfl, toNat_wordOf_atomic hn ((min_le_left _ _).trans_lt (Nat.mod_lt _ (Nat.two_pow_pos _)))⟩

theorem rmwNew_maxn : ∃ r, rmwNew .maxn n old v cmp = some r ∧
    r.toNat = max (old.toNat % 2 ^ (8 * n)) (v.toNat % 2 ^ (8 * n)) :=
  ⟨_, rfl, toNat_wordOf_atomic hn (max_lt (Nat.mod_lt _ (Nat.two_pow_pos _)) (Nat.mod_lt _ (Nat.two_pow_pos _)))⟩

/-- A CAS that finds its compare value stores its operand (R216). -/
theorem rmwNew_cas_equal (h : old.toNat % 2 ^ (8 * n) = cmp.toNat % 2 ^ (8 * n)) :
    ∃ r, rmwNew .cas n old v cmp = some r ∧ r.toNat = v.toNat % 2 ^ (8 * n) :=
  ⟨_, if_pos h, toNat_wordOf_low hn v⟩

theorem rmwResult_minn_maxn {op : RmwOp} (h : op = .minn ∨ op = .maxn) :
    (rmwResult op n old).toNat = old.toNat % 2 ^ (8 * n) := by
  rcases h with rfl | rfl <;> exact toNat_wordOf_low hn old

end

/-- Every result but those of MINN and MAXN is the old value sign-extended (R213). -/
theorem rmwResult_signed {op : RmwOp} (hmin : op ≠ .minn) (hmax : op ≠ .maxn) {n : Nat} (hn : 0 < n) (old : Word) :
    rmwResult op n old = (old.setWidth (8 * n)).signExtend 64 := by
  have extended : (old.setWidth (8 * n)).signExtend 64 = BitVec.ofInt 64 (asInt n old) := by
    rw [asInt_eq_toInt n hn, BitVec.signExtend]
  rw [extended]
  unfold rmwResult
  split
  · exact absurd rfl hmin
  · exact absurd rfl hmax
  · rfl

/-- The low and the high half of the low word of a number. -/
theorem halves_of_low (n : Nat) : n % 2 ^ 32 % 2 ^ 16 = n % 2 ^ 16 ∧ n % 2 ^ 32 / 2 ^ 16 % 2 ^ 16 = n / 2 ^ 16 % 2 ^ 16 := by
  omega

/-- The BF16 pair of low words is that of their halves (R217). -/
theorem addBf16Pair_low (a b : Nat) : addBf16Pair (a % 2 ^ 32) (b % 2 ^ 32) =
    (faddCode .bf16 rmRne (a % 2 ^ 16) (b % 2 ^ 16)).1 +
      2 ^ 16 * (faddCode .bf16 rmRne (a / 2 ^ 16 % 2 ^ 16) (b / 2 ^ 16 % 2 ^ 16)).1 := by
  obtain ⟨lowA, highA⟩ := halves_of_low a
  obtain ⟨lowB, highB⟩ := halves_of_low b
  rw [addBf16Pair, show 65536 = 2 ^ 16 from rfl, lowA, highA, lowB, highB]

/-- Settles O31: each operation's value by its own rule; the sums of REDs are those of `faddCode`. -/
theorem atomicOperationsCompute : Obligations.AtomicOperationsCompute := by
  refine fun old v cmp => ⟨fun n hn => ⟨rmwNew_add hn old v cmp, rmwNew_and hn old v cmp, rmwNew_or hn old v cmp,
    rmwNew_xor hn old v cmp, ⟨_, rfl, toNat_wordOf_low hn v⟩, rmwNew_min hn old v cmp, rmwNew_max hn old v cmp,
    rmwNew_minn hn old v cmp, rmwNew_maxn hn old v cmp, rmwNew_cas_equal hn old v cmp, fun h => if_neg h,
    fun op h => rmwResult_minn_maxn hn old h, fun op hmin hmax => rmwResult_signed hmin hmax (by omega) old⟩,
    ⟨_, rfl, rfl⟩, ⟨_, rfl, congrArg (· % 2 ^ 64) (addBf16Pair_low old.toNat v.toNat)⟩⟩

end Sys2Proof.Machine
end

section
/-! SUPPORT. What writes at homes and the lines that they recall keep, whatever it is: a property that the interval lines, the write
alone, a watched access and a line dropped each keep (R145, R219, R375, R397). -/

namespace Sys2Proof.Machine

/-! ## Interval lines -/

/-- The entry of an interval line (R375, R388). -/
def lineEntry (l : Loc) (s : State) : LogEntry :=
  { pos := 0, cvp := false, kind := 8, eng := false, pay := true, done := false, freed := false, win := 0, core := 0xFFFF
    addr := lineAddr { l with off := l.off / 64 * 64 }, loc := { l with off := l.off / 64 * 64 }
    old := homeLine s.dev { l with off := l.off / 64 * 64 }, size := 64, elem := 0, icount := 0 }

/-- A context's log and interval lines after the first write to a line (R375). -/
def lineLogged (n : Nat) (l : Loc) (s : State) : State :=
  onCtx n (fun c => { c with lines := c.lines ++
    [({ l with off := l.off / 64 * 64 }, BitVec.ofNat 512 (bytesNat (homeLine s.dev { l with off := l.off / 64 * 64 })))] })
    (logAppend n (lineEntry l s) s)

/-- What the interval line of a write can be: none; or, in CHECKPOINT mode, an entry, after which an exhausted log kills the context
(R375, R391). -/
theorem logLine_cases (n : Nat) (l : Loc) (s : State) : logLine n l s = s ∨ ∃ c, ctxOf s.dev n = some c ∧ c.mode = 3 ∧
    (logLine n l s = lineLogged n l s ∨ logLine n l s = killContext n 8 0 none 0 (lineLogged n l s)) := by
  unfold logLine
  split
  · next c hc =>
    dsimp only
    split
    · next logged =>
      simp only [Bool.and_eq_true, beq_iff_eq] at logged
      refine .inr ⟨c, hc, logged.1.1, ?_⟩
      split
      · split <;> [exact .inr rfl; exact .inl rfl]
      · exact .inl rfl
    · exact .inl rfl
  · exact .inl rfl

/-! ## Writes and recalled lines -/

section
variable {P : State → Prop} (hline : ∀ n l u, P u → P (logLine n l u))
  (hput : ∀ l bs u, P u → P (onDev (fun d => rawPut d l bs) u))
include hline hput

theorem homePut_keeps (l : Loc) (bs : List Byte) {s : State} (h : P s) : P (homePut l bs s) := by
  refine hput l bs _ ?_
  split
  · exact foldl_kept (fun u x hu => hline _ x u hu) _ h
  · exact h

variable (hwatch : ∀ n a i u, P u → P (watchAccess n a i u))
include hwatch

theorem combineAt_keeps (n : Nat) (l : Loc) (op : RmwOp) (size : Nat) (cells : List (Nat × Word)) {s : State} (h : P s) :
    P (combineAt n l op size cells s) := by
  induction cells generalizing s with
  | nil => exact h
  | cons c r ih => exact ih (hwatch _ _ _ _ (homePut_keeps hline hput _ _ h))

variable (hdrop : ∀ l u, P u → P (onClu (cmDrop l) u))
include hdrop

theorem uoRecallLine_keeps (x : CmLine) {s : State} (h : P s) : P (uoRecallLine x s) := by
  unfold uoRecallLine
  split <;> [exact h; exact combineAt_keeps hline hput hwatch _ _ _ _ _ (hdrop _ s h)]

theorem recallAt_keeps (l : Loc) (n : Nat) {s : State} (h : P s) : P (recallAt l n s) :=
  foldl_kept (fun _ x hu => uoRecallLine_keeps hline hput hwatch hdrop x hu) _ h

theorem recallFrom_keeps (va fuel t : Nat) {s : State} (h : P s) : P (recallFrom va fuel t s) := by
  induction fuel generalizing t s with
  | zero => exact h
  | succ fuel ih =>
    have recalled := recallAt_keeps hline hput hwatch hdrop ⟨.dev, t + 8 * walkIndex va (4 - fuel)⟩ 8 h
    unfold recallFrom
    dsimp only
    split <;> [exact ih _ recalled; exact recalled]

theorem recallTables_keeps (n va : Nat) {s : State} (h : P s) : P (recallTables n va s) := by
  unfold recallTables
  split
  · exact h
  · split <;> [exact recallFrom_keeps hline hput hwatch hdrop _ _ _ h; exact h]

end

end Sys2Proof.Machine
end

section
/-! SUPPORT. The end of an instruction whose address check may have recalled lines (R145, R219): a context that a recalled write killed
leaves no Step trap to take (R378, R400). -/

namespace Sys2Proof.Machine

/-- A check that passes after another has passed it. -/
theorem bind_ok {α β : Type} {c : Chk α} {f : α → Chk β} {b : β} (h : (c >>= f) = .ok b) : ∃ a, c = .ok a ∧ f a = .ok b := by
  cases c with
  | error e => exact nomatch h
  | ok a => exact ⟨a, rfl, h⟩

/-- The checks of a region change the state by a translation only (R145, R148). -/
theorem checkRegion_state {s u : State} {a : Word} {size : Nat} {n : Need} {x : Access} (h : checkRegion s a size n = .ok (x, u)) :
    u = s ∨ ∃ l, translate s (s.hart.mode == .u) false n a = .ok (l, u) := by
  have same : ∀ {y : Access}, (.ok (y, s) : Chk (Access × State)) = .ok (x, u) → u = s := fun e =>
    (Prod.mk.inj (Except.ok.inj e)).2.symm
  rw [checkRegion] at h
  split at h
  -- local scratch
  · exact .inl (same h)
  · split at h
    -- the cluster's scratch
    · obtain ⟨-, -, h⟩ := bind_ok h
      obtain ⟨-, -, h⟩ := bind_ok h
      exact .inl (same h)
    · split at h
      · exact nomatch h
      · split at h
        -- a view
        · obtain ⟨y, -, h⟩ := bind_ok h
          exact .inl (same h)
        · split at h
          -- device memory
          · obtain ⟨⟨l, v⟩, translated, h⟩ := bind_ok h
            obtain ⟨-, rfl⟩ := Prod.mk.inj (Except.ok.inj h)
            exact .inr ⟨l, translated⟩
          · exact nomatch h

/-- `u` takes a Step trap only where `s` does (R400). -/
def TrapsAs (s u : State) : Prop := u.hart.dbg.trapStep = true → s.hart.dbg.trapStep = true

namespace TrapsAs

variable {s u : State}

theorem of_sameMode {v : State} (h : TrapsAs s u) (k : SameMode u v) : TrapsAs s v := fun e => h (k.2.1 ▸ e)

theorem of_ite {v : State} {p : Prop} [Decidable p] (h : TrapsAs s u) (k : TrapsAs s v) : TrapsAs s (if p then u else v) := by
  split <;> assumption

theorem killContext (h : TrapsAs s u) (n reason cause : Nat) (core : Option Nat) (addr : Word) :
    TrapsAs s (killContext n reason cause core addr u) := by
  unfold Machine.killContext
  split
  · exact h
  · dsimp only
    split <;> [exact nofun; exact h]

theorem logLine (n : Nat) (l : Loc) (u : State) (h : TrapsAs s u) : TrapsAs s (logLine n l u) := by
  have logged : TrapsAs s (lineLogged n l u) :=
    h.of_sameMode ((SameMode.logAppend n _ u).trans (.onCtx_same fun _ => ⟨rfl, rfl, rfl⟩))
  rcases logLine_cases n l u with none | ⟨_, _, _, line | killed⟩
  · rwa [none]
  · rwa [line]
  · rw [killed]; exact logged.killContext _ _ _ _ _

theorem recallTables (n va : Nat) (s : State) : TrapsAs s (recallTables n va s) :=
  recallTables_keeps (P := TrapsAs s) logLine (fun _ _ _ h => h) (fun n a i u h => h.of_sameMode (.watchAccess n a i u))
    (fun _ _ h => h) n va (id : TrapsAs s s)

theorem tlbFill (h : TrapsAs s u) (c : Nat) (e : TlbEntry) : TrapsAs s (tlbFill c e u) := by
  unfold Machine.tlbFill
  split <;> exact h

/-- A translation leaves the core as the recalled lines of its tables leave it (R145, R219). -/
theorem translateIn {clu : Nat} {user fetch : Bool} {n : Need} {va : Word} {l : Leaf}
    (h : translateIn clu s user fetch n va = .ok (l, u)) : TrapsAs s u := by
  have recalled := recallTables s.hart.ar.ctx va.toNat s
  rw [Machine.translateIn] at h
  split at h
  · exact nomatch h
  · obtain ⟨-, -, h⟩ := bind_ok h
    obtain ⟨-, rfl⟩ := Prod.mk.inj (Except.ok.inj h)
    refine tlbFill ?_ _ _
    exact of_ite recalled recalled

theorem checkAccess {a : Word} {size : Nat} {n : Need} {x : Access} (h : checkAccess s a size n = .ok (x, u)) : TrapsAs s u := by
  obtain ⟨-, -, region⟩ := bind_ok h
  rcases checkRegion_state region with rfl | ⟨l, translated⟩
  · exact id
  · exact translateIn translated

theorem feCheck {a : Word} {x : Access} (h : feCheck s a = .ok (x, u)) : TrapsAs s u := by
  obtain ⟨⟨y, v⟩, access, h⟩ := bind_ok h
  obtain ⟨-, -, h⟩ := bind_ok h
  obtain ⟨-, rfl⟩ := Prod.mk.inj (Except.ok.inj h)
  exact checkAccess access

end TrapsAs

/-- The end of an instruction from any state without a ring to record in and without a Step trap to take. -/
theorem finish_noTrap {s u : State} (regs : List Nat) (hu : ∀ c, curCtx u = some c → c.mode ≠ 2)
    (ht : (u.hart.dbg.trapStep && s.hart.mode == .u) = false) : finish s regs u = .next (wentOn s u) := by
  obtain ⟨p, f, e⟩ := advance_only u.hart
  have hc : curCtx (onHart advance u) = curCtx u := by simp only [curCtx, onHart, e]
  have step : (countStep (onHart advance u).hart.dbg).trapStep = u.hart.dbg.trapStep := by simp only [onHart, e]; rfl
  unfold finish wentOn
  rw [ringNeed_quiet regs hu, withLog_zero, retired, tally, ringRecord_quiet s _ regs false (by rwa [hc]), stepTrap, if_neg]
  · rfl
  · rw [Bool.not_eq_true]
    exact (congrArg (· && s.hart.mode == .u) step).trans ht

/-- What goes on as quiet as a quiet state that an instruction's check has left ends the instruction. -/
theorem TrapsAs.finish {s u v : State} (h : TrapsAs s u) (k : SameMode u v) (regs : List Nat) (hs : Quiet s) (hu : Quiet u) :
    finish s regs v = .next (wentOn s v) := by
  refine finish_noTrap regs (fun c hc => ?_) ?_
  · obtain ⟨ctx, -, modes⟩ := k
    have e := modes u.hart.ar.ctx
    rw [curCtx, ctx] at hc
    rw [hc, Option.map_some] at e
    obtain ⟨b, hb, hm⟩ := Option.map_eq_some_iff.1 e.symm
    exact hm ▸ hu.2 b hb
  · have traps := h.of_sameMode k
    have quiet := hs.1
    cases e : v.hart.dbg.trapStep
    · rfl
    · rwa [traps e] at quiet

end Sys2Proof.Machine
end

section
/-! PROOFS. The future instructions (R222 to R224). -/

namespace Sys2Proof.Machine

section
variable {s u w : State} {a : Reg} {x : Access}

/-- An FE instruction with a result whose checks hold: its held write, its acquire, its request (R222, R223). -/
theorem feRead_enters {op : FeOp} {d : Reg} {l : BitVec 4} {acq fx : Bool} (hc : feCheck s (xr s a) = .ok (x, u))
    (hr : sqRoom s 1 = true) (hs : Quiet s) (hu : Quiet u)
    (hl : reserveLog (storeNeed s (.fe op 0 (some s.hart.nextId) (if op = .read then taskOf s.hart else none)) x.loc) u = some w) :
    feRead op d a l acq fx s = .next (wentOn s
      (enqueue (.fe op 0 (some s.hart.nextId) (if op = .read then taskOf s.hart else none)) x none
        (let v := openHeld (xDst d) l 0 1 0 w
         let v := if acq then acquireLast (if op = .read then .fut else .acq) .dev v else v
         if fx then markEffect v else v))) := by
  have opened := (SameMode.reserveLog hl).trans (.openHeld (xDst d) l 0 1 0 w)
  have acquired : ∀ k, SameMode u (if acq then acquireLast k .dev (openHeld (xDst d) l 0 1 0 w) else openHeld (xDst d) l 0 1 0 w) :=
    fun k => .of_ite (opened.trans (.onHart rfl rfl)) opened
  have marked : ∀ v, SameMode u v → SameMode u (if fx then markEffect v else v) := fun v h => .of_ite (h.trans (.markEffect v)) h
  simp only [feRead, hc, afterChecks, hr, Bool.not_true, Bool.false_eq_true, if_false, withLog, hl]
  exact (TrapsAs.feCheck hc).finish ((marked _ (acquired _)).trans (.enqueue _ _ _ _)) _ hs hu

/-- A store whose checks hold enters the queue as an effect instruction (R149, R253). -/
theorem storeIssue_enters {op : StoreOp} {rel : Option Scope} (hc : feCheck s (xr s a) = .ok (x, u)) (hr : sqRoom u 1 = true)
    (hs : Quiet s) (hu : Quiet u) (hl : reserveLog (storeNeed u op x.loc) (markEffect u) = some w) :
    storeIssue s op (feCheck s (xr s a)) rel = .next (wentOn s (enqueue op x rel w)) := by
  have reserved : SameMode u w := (SameMode.markEffect u).trans (.reserveLog hl)
  have room : sqRoom (markEffect u) 1 = true := hr
  have need : reserveLog (storeNeed (markEffect u) op x.loc) (markEffect u) = some w := hl
  simp only [storeIssue, hc, afterChecks, sqIssue, room, Bool.not_true, Bool.false_eq_true, if_false, withLog, need]
  exact (TrapsAs.feCheck hc).finish (reserved.trans (.enqueue _ _ _ _)) _ hs hu

end

/-- FEREAD and FEPEEK need no log space: they write nothing (R386). -/
theorem storeNeed_feRead (s : State) (id : Option Nat) (task : Option (Word × IAddr)) (l : Loc) :
    storeNeed s (.fe .read 0 id task) l = 0 ∧ storeNeed s (.fe .peek 0 id task) l = 0 := ⟨ite_self 0, ite_self 0⟩

/-- Settles O34: each instruction with its checks passed is its request in the queue, behind the held write and the acquire it needs. -/
theorem futureInstructionsEnterQueue : Obligations.FutureInstructionsEnterQueue := by
  refine ⟨fun d a l s x u hc hr hs hu => ⟨fun w hl => feRead_enters hc hr hs hu hl, fun he => ?_, ?_⟩, fun d a l s he => ?_,
    fun a b s x u w hc hr hs hu hl => storeIssue_enters hc hr hs hu hl,
    fun a s x u w hc hr hs hu hl => storeIssue_enters hc hr hs hu hl⟩
  · have allowed : exec (.feread d a l) s = feRead .read d a l true false s := if_neg (by simp [he])
    rw [allowed]
    exact feRead_enters hc hr hs hu (by rw [(storeNeed_feRead _ _ _ _).1]; rfl)
  · exact feRead_enters hc hr hs hu (by rw [(storeNeed_feRead _ _ _ _).2]; rfl)
  · exact if_pos he

end Sys2Proof.Machine
end

section
/-! PROOFS. The update-only lines (R218, R219). -/

namespace Sys2Proof.Machine

/-- Without a fence that holds, nothing settles (R195). -/
theorem settle_noFences {s : State} (h : s.hart.fences = []) : settle s = s := if_pos (by rw [h]; rfl)

/-- A request put on its way is at the end of its path or gate, and the lines stay (R187). -/
theorem pathPut_sent (q : StoreReq) (s : State) : SentHome s (pathPut q s) q ∧ (pathPut q s).clu.cm = s.clu.cm := by
  unfold pathPut SentHome
  cases gateOf s q.loc with
  | none => exact ⟨⟨rfl, rfl⟩, rfl⟩
  | some g => exact ⟨⟨rfl, rfl⟩, rfl⟩

/-- A line dropped is gone (R134). -/
theorem cmDrop_gone (l : Loc) (c : Cluster) : ∀ y ∈ (cmDrop l c).cm, ¬ (y.space = l.space ∧ y.line = lineOf l) := fun y hy => by
  simpa [-not_and, not_and_or] using (List.mem_filter.1 hy).2

/-- The first byte of a line is in it. -/
theorem lineOf_line (sp : Space) (n : Nat) : lineOf ⟨sp, n * 128⟩ = n := Nat.mul_div_cancel n (by decide)

section
variable {k : Nat} {x : CmLine} {p : Partials} {s : State}

theorem execUoFlush_flushes (hk : s.clu.cm[k]? = some x) (hp : x.uo = some p) :
    execUoFlush k s = .next (settle (uoFlushLine x s)) := by
  simp only [execUoFlush, hk, hp, Option.isSome_some, if_true]

theorem execUoRecall_recalls (hk : s.clu.cm[k]? = some x) (hp : x.uo = some p) :
    execUoRecall k s = .next (settle (uoRecallLine x s)) := by
  simp only [execUoRecall, hk, hp, Option.isSome_some, if_true]

/-- A flush drops its line, and sends what the line holds beyond the identity (R218). -/
theorem uoFlushLine_leaves (hp : x.uo = some p) :
    (∀ y ∈ (uoFlushLine x s).clu.cm, ¬ (y.space = x.space ∧ y.line = x.line)) ∧
    (uoSent p = [] → (uoFlushLine x s).clu.path = s.clu.path ∧ (uoFlushLine x s).clu.gates = s.clu.gates) ∧
    (uoSent p ≠ [] → ∃ q, SentHome s (uoFlushLine x s) q ∧ q.op = .flush (uoSent p) p.op p.size ∧
      q.loc = ⟨x.space, x.line * 128⟩) := by
  have gone := cmDrop_gone ⟨x.space, x.line * 128⟩ s.clu
  rw [lineOf_line] at gone
  unfold uoFlushLine
  rw [hp]
  dsimp only
  by_cases none : uoSent p = []
  · rw [if_pos (List.isEmpty_iff.2 none)]
    exact ⟨gone, fun _ => ⟨rfl, rfl⟩, fun some => absurd none some⟩
  · rw [if_neg (mt List.isEmpty_iff.1 none)]
    refine ⟨?_, fun empty => absurd empty none, fun _ =>
      ⟨_, (pathPut_sent _ (onClu (cmDrop ⟨x.space, x.line * 128⟩) s)).1, rfl, rfl⟩⟩
    rwa [(pathPut_sent _ _).2]

end

/-- Settles O39: a flush is one request more on the way home, a recall the combination itself. -/
theorem updateOnlyLinesLeave : Obligations.UpdateOnlyLinesLeave := by
  intro k x p s hk hp hf
  obtain ⟨hart, dev⟩ := CluOnly.uoFlushLine x s
  have settled : settle (uoFlushLine x s) = uoFlushLine x s := settle_noFences (hart ▸ hf)
  obtain ⟨gone, empty, sent⟩ := uoFlushLine_leaves (s := s) hp
  refine ⟨⟨_, execUoFlush_flushes hk hp, ?_⟩, (execUoRecall_recalls hk hp).trans ?_⟩
  · rw [settled]
    exact ⟨gone, dev, hart, empty, sent⟩
  · rw [uoRecallLine, hp]

end Sys2Proof.Machine
end

section
/-! PROOFS. The barrier slots and the instructions on them (R225 to R232, R393). -/

namespace Sys2Proof.Machine

/-! ## Slots -/

/-- A slot written, read back. -/
theorem slotAt_putSlot {i : Nat} (hi : i < 8) (f : Slot → Slot) (s : State) : slotAt (putSlot i f s) i = f (slotAt s i) := by
  simp [slotAt, putSlot, Vector.getD, hi]

@[simp] theorem wentOn_slots (s u : State) : (wentOn s u).hart.slots = u.hart.slots := by
  obtain ⟨p, f, e⟩ := wentOn_flow s u; rw [e]; rfl
@[simp] theorem wentOn_mid (s u : State) : (wentOn s u).hart.mid = u.hart.mid := by
  obtain ⟨p, f, e⟩ := wentOn_flow s u; rw [e]; rfl
@[simp] theorem slotAt_wentOn (s u : State) (i : Nat) : slotAt (wentOn s u) i = slotAt u i := by
  rw [slotAt, wentOn_slots]; rfl
@[simp] theorem slotAt_markEffect (s : State) (i : Nat) : slotAt (markEffect s) i = slotAt s i := rfl
@[simp] theorem slotAt_setX (d : Reg) (v : Word) (s : State) (i : Nat) : slotAt (setX d v s) i = slotAt s i := by
  obtain ⟨x, xsh, e⟩ := setX_only d v s; rw [e]; rfl

theorem slotCheck_given {s : State} {v : Word} (h : SlotGiven s v) : slotCheck s v = .ok () := by
  obtain ⟨named, given⟩ := h
  simp [slotCheck, check, named, given]

theorem slotCheck_refused {s : State} {v : Word} (h : ¬ SlotGiven s v) : slotCheck s v = .error (.protection, v, 0) :=
  if_neg (by simpa [SlotGiven] using h)

/-! ## BARV and BWAIT (R227, R228, R231) -/

section
variable {s : State} {d a b : Reg} {i : Nat}

theorem SameMode.slotArrive (i : Nat) (s : State) : SameMode s (slotArrive i s) := (SameMode.putSlot _ _ s).trans (.onClu _ _)

/-- What an arrival leaves: its slot, and one arrival more on its way (R227, R228). -/
theorem slotArrive_sends (hi : i < 8) : (slotAt (slotArrive i s) i).st = .arrived ∧
    ∃ v, (slotArrive i s).clu.arrivals = s.clu.arrivals ++ [v] ∧ v.core = s.hart.ar.core ∧ v.slot = i ∧
      v.mask = (slotAt s i).bmem ∧ v.phase = (slotAt s i).phase ∧ v.sent = false ∧ v.scope = maskScope s (slotAt s i).bmem :=
  ⟨congrArg Slot.st (slotAt_putSlot hi (fun x => { x with st := .arrived, scope := maskScope s (slotAt s i).bmem }) s),
    _, rfl, rfl, rfl, rfl, rfl, rfl, rfl⟩

/-- BARV on a slot that has not arrived (R231). -/
theorem execBarv_arrives (hg : SlotGiven s (xr s a)) (hst : (slotAt s (xr s a).toNat).st ≠ .arrived) (hq : Quiet s) :
    execBarv a s = .next (wentOn s (markEffect (slotArrive (xr s a).toNat s))) := by
  rw [execBarv, slotCheck_given hg, afterChecks]
  exact (if_neg hst).trans ((SameMode.slotArrive _ s).finishFx [] hq)

/-- What BWAIT on a slot that does not hold it leaves (R228, R231): caches, the slot and its register have changed. -/
theorem slotWait_leaves (hi : i < 8) (d : Reg) (s : State) : SameMode s (slotWait i d s) ∧
    (∀ r, xr (slotWait i d s) r = if r = d ∧ r ≠ 0 then waitStatus (slotAt s i) else xr s r) ∧
    slotAt (slotWait i d s) i = { slotAt s i with st := .idle } ∧ (slotWait i d s).dev = s.dev ∧
    (slotWait i d s).hart.ar = s.hart.ar ∧ (slotWait i d s).hart.pc = s.hart.pc ∧ (slotWait i d s).hart.frame = s.hart.frame ∧
    ((slotAt s i).st ≠ .released → (slotWait i d s).clu = s.clu) := by
  have acquired : ∃ u, slotWait i d s = setX d (waitStatus (slotAt s i)) (putSlot i (fun x => { x with st := .idle }) u) ∧
      CachesOnly s u ∧ ((slotAt s i).st ≠ .released → u = s) := by
    refine ⟨_, rfl, ?_, fun h => if_neg h⟩
    split <;> [exact .acquireMoves _ s; exact .refl s]
  obtain ⟨u, e, caches, idle⟩ := acquired
  have mode := (caches.sameMode.trans (.putSlot i (fun x => { x with st := .idle }) u)).trans (.setX d (waitStatus (slotAt s i)) _)
  have kept : (slotAt s i).st ≠ .released → u.clu = s.clu := fun h => congrArg State.clu (idle h)
  rw [e]
  obtain ⟨_, _, _, _, rfl⟩ := caches
  refine ⟨mode, fun r => ?_, ?_, setX_dev _ _ _, setX_ar _ _ _, setX_pc _ _ _, setX_frame _ _ _,
    fun h => (setX_clu _ _ _).trans (kept h)⟩
  · rw [xr_setX]
    rfl
  · rw [slotAt_setX, slotAt_putSlot hi]
    rfl

/-- BWAIT that does not hold (R231). -/
theorem execBwait_goesOn (hg : SlotGiven s (xr s a)) (hw : waitHolds s (slotAt s (xr s a).toNat) = false) (hq : Quiet s) :
    execBwait d a s = .next (wentOn s (slotWait (xr s a).toNat d s)) := by
  rw [execBwait, slotCheck_given hg, afterChecks]
  exact (if_neg (Bool.eq_false_iff.1 hw)).trans ((slotWait_leaves hg.1 d s).1.finish _ hq)

/-- A released slot holds no BWAIT once the loads before it are performed (R192). -/
theorem waitHolds_released {x : Slot} (hst : x.st = .released) (hl : loadsDone s (s.hart.nextSeq + 1) = true) :
    waitHolds s x = false := by
  rw [waitHolds, hst]
  simp [hl]

theorem waitHolds_idle {x : Slot} (hst : x.st = .idle) : waitHolds s x = false := by
  rw [waitHolds, hst]

theorem waitStatus_released {x : Slot} (hst : x.st = .released) : waitStatus x = x.status.setWidth 64 := by
  rw [waitStatus, hst]

theorem waitStatus_idle {x : Slot} (hst : x.st = .idle) : waitStatus x = 2 := by
  rw [waitStatus, hst]

/-! ## BSYNC (R231, R393) -/

theorem takeUp_of_ne (h : s.hart.dbg.stood ≠ some s.hart.pc) : takeUp s = s := if_neg h

/-- A standing arrival taken up: BSYNC is in its second half (R393). -/
def takenUp (s : State) : State :=
  { s with hart := { s.hart with mid := .bsync, dbg := { s.hart.dbg with stood := none } } }

theorem execBsync_standing (h : s.hart.dbg.stood = some s.hart.pc) : execBsync d a s = execBsync d a (takenUp s) := by
  have taken : takeUp s = takenUp s := if_pos h
  have again : takeUp (takenUp s) = takenUp s := takeUp_of_ne nofun
  rw [execBsync, execBsync, taken, again]

/-- The first half of BSYNC is a BARV (R231). -/
theorem execBsync_arrives (hg : SlotGiven s (xr s a)) (hst : (slotAt s (xr s a).toNat).st ≠ .arrived) (hm : s.hart.mid ≠ .bsync)
    (hs : s.hart.dbg.stood ≠ some s.hart.pc) : execBsync d a s =
      .next (markEffect (onHart (fun h => { h with mid := .bsync }) (slotArrive (xr s a).toNat s))) := by
  rw [execBsync, takeUp_of_ne hs, slotCheck_given hg, afterChecks]
  exact (if_neg hm).trans (if_neg hst)

/-- The second half of BSYNC is a BWAIT (R231). -/
theorem execBsync_goesOn (hg : SlotGiven s (xr s a)) (hw : waitHolds s (slotAt s (xr s a).toNat) = false) (hm : s.hart.mid = .bsync)
    (hs : s.hart.dbg.stood ≠ some s.hart.pc) (hq : Quiet s) : execBsync d a s =
      .next (wentOn s (onHart (fun h => { h with mid := .none }) (slotWait (xr s a).toNat d s))) := by
  rw [execBsync, takeUp_of_ne hs, slotCheck_given hg, afterChecks]
  exact (if_pos hm).trans ((if_neg (Bool.eq_false_iff.1 hw)).trans
    (((slotWait_leaves hg.1 d s).1.trans (.onHart rfl rfl)).finish _ hq))

/-- A BSYNC whose slot is released, in its second half, goes on with the status (R228, R231). -/
theorem execBsync_released (hg : SlotGiven s (xr s a)) (hst : (slotAt s (xr s a).toNat).st = .released) (hm : s.hart.mid = .bsync)
    (hs : s.hart.dbg.stood ≠ some s.hart.pc) (hl : loadsDone s (s.hart.nextSeq + 1) = true) (hq : Quiet s) :
    ∃ t, execBsync d a s = .next t ∧ WritesX s t d ((slotAt s (xr s a).toNat).status.setWidth 64) ∧ t.hart.mid = .none ∧
      (slotAt t (xr s a).toNat).st = .idle ∧ FlowsOn s t := by
  obtain ⟨-, regs, slot, -, -, pc, frame, -⟩ := slotWait_leaves hg.1 d s
  refine ⟨_, execBsync_goesOn hg (waitHolds_released hst hl) hm hs hq, fun r => ?_, wentOn_mid _ _, ?_, flowsOn_wentOn pc frame⟩
  · rw [xr_wentOn, ← waitStatus_released hst]
    exact regs r
  · rw [slotAt_wentOn]
    exact congrArg Slot.st slot

/-! ## BTEST, BSETM, BQUORUM, BRECORD (R231, R232) -/

/-- The fields of BTEST's value lie side by side. -/
theorem btest_value (x : Slot) : wordOf (x.phase.toNat * 2 ^ 32 + x.status.toNat * 4 + slotCode x.st) =
    ((x.phase.setWidth 64 <<< 32) ||| (x.status.setWidth 64 <<< 2) ||| wordOf (slotCode x.st)) := by
  have phase := x.phase.isLt
  have status := x.status.isLt
  have code : slotCode x.st < 2 ^ 2 := by cases x.st <;> decide
  have low : x.status.toNat <<< 2 ||| slotCode x.st = slotCode x.st + x.status.toNat * 2 ^ 2 := by
    rw [Nat.or_comm, or_shiftLeft_eq_add code]
  have whole : x.phase.toNat <<< 32 ||| x.status.toNat <<< 2 ||| slotCode x.st =
      slotCode x.st + x.status.toNat * 2 ^ 2 + x.phase.toNat * 2 ^ 32 := by
    rw [Nat.or_assoc, low, Nat.or_comm, or_shiftLeft_eq_add (by omega)]
  refine BitVec.eq_of_toNat_eq ?_
  have shifted : x.phase.toNat <<< 32 < 2 ^ 64 ∧ x.status.toNat <<< 2 < 2 ^ 64 := by
    rw [Nat.shiftLeft_eq, Nat.shiftLeft_eq]
    omega
  simp only [wordOf, BitVec.toNat_or, BitVec.toNat_shiftLeft, BitVec.toNat_setWidth, BitVec.toNat_ofNat,
    Nat.mod_eq_of_lt (phase.trans (by decide : 2 ^ 32 < 2 ^ 64)), Nat.mod_eq_of_lt (status.trans (by decide : 2 ^ 2 < 2 ^ 64)),
    Nat.mod_eq_of_lt shifted.1, Nat.mod_eq_of_lt shifted.2, Nat.mod_eq_of_lt (code.trans (by decide : 2 ^ 2 < 2 ^ 64)), whole]
  omega

theorem execBtest_reads (hg : SlotGiven s (xr s a)) : execBtest d a s = finish s [d.toNat] (setX d
    (((slotAt s (xr s a).toNat).phase.setWidth 64 <<< 32) ||| ((slotAt s (xr s a).toNat).status.setWidth 64 <<< 2) |||
      wordOf (slotCode (slotAt s (xr s a).toNat).st)) s) := by
  rw [execBtest, slotCheck_given hg, afterChecks, ← btest_value]
  rfl

theorem execBsetm_sets (hg : SlotGiven s (xr s a)) (hst : (slotAt s (xr s a).toNat).st = .idle) (hm : maskLegal s (xr s b) = true)
    (hq : Quiet s) : execBsetm a b s = .next (wentOn s (markEffect (putSlot (xr s a).toNat
      (fun x => { x with bmem := xr s b, quorum := 0, gphase := x.phase, past := [] }) s))) := by
  have idle : ((slotOf s (xr s a).toNat).st == .idle) = true := beq_iff_eq.2 hst
  simp only [execBsetm, slotCheck_given hg, check, idle, hm, if_true, bind, Except.bind, afterChecks]
  exact (SameMode.putSlot _ _ s).finishFx [] hq

theorem execBquorum_sets (hg : SlotGiven s (xr s a)) (hst : (slotAt s (xr s a).toNat).st = .idle)
    (hn : (xr s b).toNat ≤ (maskMembers s (slotAt s (xr s a).toNat).bmem).length) (hq : Quiet s) : execBquorum a b s =
      .next (wentOn s (markEffect (putSlot (xr s a).toNat (fun x => { x with quorum := (xr s b).setWidth 16 }) s))) := by
  have idle : ((slotOf s (xr s a).toNat).st == .idle) = true := beq_iff_eq.2 hst
  have few : decide ((xr s b).toNat ≤ (maskMembers s (slotMask s (xr s a).toNat)).length) = true := decide_eq_true hn
  simp only [execBquorum, slotCheck_given hg, check, idle, few, if_true, bind, Except.bind, afterChecks]
  exact (SameMode.putSlot _ _ s).finishFx [] hq

/-- The record that BRECORD names: slot 8 is the superstep barrier's (R231, R244). -/
theorem recordOf_named :
    recordOf s (xr s b).toNat = if xr s b = 8 then s.hart.ss.record else (slotAt s (xr s b).toNat).record := by
  have eight : (xr s b).toNat = 8 ↔ xr s b = 8 := ⟨fun e => BitVec.eq_of_toNat_eq e, fun e => by rw [e]; rfl⟩
  simp only [recordOf, eight]
  rfl

theorem execBrecord_stores {w : State} (hb : xr s b = 8 ∨ SlotGiven s (xr s b)) (hal : (xr s a).toNat % 32 = 0)
    (hin : (xr s a).toNat + 31 < 0x20000)
    (hl : reserveLog (storeNeed s (.store (List.replicate 32 0) .normal) (lsLoc s 0)) s = some w) (hq : Quiet s) :
    execBrecord a b s = .next (wentOn s (markEffect (performWrite (originOf s) 1 (xr s a) (lsLoc s (xr s a).toNat)
      (recordBytes (if xr s b = 8 then s.hart.ss.record else (slotAt s (xr s b).toNat).record)) w))) := by
  have named : (xr s b == 8 || (decide ((xr s b).toNat < 8) && decide ((xr s b).toNat < s.hart.nslots))) = true := by
    simpa [SlotGiven] using hb
  have aligned : ((xr s a).toNat % 32 == 0) = true := beq_iff_eq.2 hal
  have inside : decide ((xr s a).toNat + 31 < lsTop) = true := decide_eq_true hin
  simp only [execBrecord, check, named, aligned, inside, if_true, bind, Except.bind, afterChecks, withLog, hl, recordOf_named]
  exact ((SameMode.reserveLog hl).trans (.performWrite_ls _ _ _ _ _ _ w)).finishFx [] hq

/-! ## Slot numbers that the thread may not name (R231) -/

theorem exec_badSlot (hg : ¬ SlotGiven s (xr s a)) {i : Instr}
    (hi : i ∈ [Instr.barv a, .bwait d a, .btest d a, .bsetm a d, .bquorum a d]) :
    exec i s = .next (takeTrap 0x05 (xr s a) s.hart.pc 0 false s) := by
  have refused := slotCheck_refused hg
  simp only [List.mem_cons, List.not_mem_nil, or_false] at hi
  rcases hi with rfl | rfl | rfl | rfl | rfl
  · change execBarv a s = _
    rw [execBarv, refused]
    rfl
  · change execBwait d a s = _
    rw [execBwait, refused]
    rfl
  · change execBtest d a s = _
    rw [execBtest, refused]
    rfl
  · change execBsetm a d s = _
    rw [execBsetm, refused]
    rfl
  · change execBquorum a d s = _
    rw [execBquorum, refused]
    rfl

theorem execBsync_badSlot (hg : ¬ SlotGiven s (xr s a)) (hs : s.hart.dbg.stood ≠ some s.hart.pc) :
    execBsync d a s = .next (takeTrap 0x05 (xr s a) s.hart.pc 0 false s) := by
  rw [execBsync, takeUp_of_ne hs, slotCheck_refused hg]
  rfl

theorem execBrecord_badSlot (hb : xr s b ≠ 8) (hg : ¬ SlotGiven s (xr s b)) :
    execBrecord a b s = .next (takeTrap 0x05 (xr s b) s.hart.pc 0 false s) := by
  have named : (xr s b == 8 || (decide ((xr s b).toNat < 8) && decide ((xr s b).toNat < s.hart.nslots))) = false := by
    simpa [SlotGiven] using And.intro hb hg
  simp only [execBrecord, check, named, bind, Except.bind]
  rfl

end

/-- Settles O42: each instruction by what its slot's state makes of it; a slot number not given fails the first check. -/
theorem barrierSlotInstructions : Obligations.BarrierSlotInstructions := by
  refine ⟨fun a s hg hst hq => ?_, fun d a s hg hst hl hq => ?_, fun d a s hg hst hq => ?_, fun d a s hg hst hm hs => ?_,
    fun d a s hg hst hm hl hq => ?_, fun d a s hs => execBsync_standing hs, fun d a s hg hq => ?_,
    fun a b s hg hst hm hq => ?_, fun a b s hg hst hn hq => ?_,
    fun a b s w hb hal hin hl hq => execBrecord_stores hb hal hin hl hq, fun d a s hg i hi => exec_badSlot hg hi,
    fun d a s hg hs => execBsync_badSlot hg hs, fun a b s hb hg => execBrecord_badSlot hb hg⟩
  -- BARV
  · obtain ⟨arrived, v, sent, core, slot, mask, phase, fresh, scope⟩ := slotArrive_sends (s := s) hg.1
    exact ⟨_, v, execBarv_arrives hg hst hq, (congrArg Slot.st (slotAt_wentOn _ _ _)).trans arrived, sent, core, slot, mask, phase,
      fresh, scope, wentOn_regs _ _, wentOn_ar _ _, rfl, flowsOn_wentOn rfl rfl⟩
  -- BWAIT of a released slot
  · obtain ⟨-, regs, slot, dev, ar, pc, frame, -⟩ := slotWait_leaves hg.1 d s
    refine ⟨_, execBwait_goesOn hg (waitHolds_released hst hl) hq, fun r => ?_, (slotAt_wentOn _ _ _).trans slot, dev,
      (wentOn_ar _ _).trans ar, flowsOn_wentOn pc frame⟩
    rw [xr_wentOn, ← waitStatus_released hst]
    exact regs r
  -- BWAIT of an idle slot
  · obtain ⟨-, regs, -, dev, ar, pc, frame, clu⟩ := slotWait_leaves hg.1 d s
    refine ⟨_, execBwait_goesOn hg (waitHolds_idle hst) hq, fun r => ?_, dev, clu (by rw [hst]; decide), (wentOn_ar _ _).trans ar,
      flowsOn_wentOn pc frame⟩
    rw [xr_wentOn, ← waitStatus_idle hst]
    exact regs r
  -- BSYNC that arrives
  · obtain ⟨arrived, v, sent, core, slot, -⟩ := slotArrive_sends (s := s) hg.1
    exact ⟨_, v, execBsync_arrives hg hst hm hs, arrived, rfl, rfl, sent, slot, core, rfl⟩
  -- BSYNC that is released
  · by_cases hs : s.hart.dbg.stood = some s.hart.pc
    · obtain ⟨t, run, writes, mid, slot, pc, frame⟩ := execBsync_released (s := takenUp s) (d := d) hg hst rfl nofun hl hq
      obtain ⟨samePc, sameFrame⟩ := advance_congr (h := s.hart) (k := (takenUp s).hart) rfl rfl
      exact ⟨t, (execBsync_standing hs).trans run, writes, mid, slot, pc.trans samePc, frame.trans sameFrame⟩
    · exact execBsync_released hg hst hm hs hl hq
  -- BTEST
  · obtain ⟨t, run, frame, flow, writes⟩ := exec_setX_completes (i := .btest d a) (execBtest_reads hg) hq
    refine ⟨t, run, frame, flow, ?_⟩
    cases st : (slotAt s (xr s a).toNat).st <;> rwa [st] at writes
  -- BSETM
  · refine ⟨_, execBsetm_sets hg hst hm hq, ?_, ?_, wentOn_regs _ _, wentOn_ar _ _, rfl, rfl, flowsOn_wentOn rfl rfl⟩
    · rw [slotAt_wentOn, slotAt_markEffect, slotAt_putSlot hg.1]
    · rw [slotAt_wentOn, slotAt_markEffect, slotAt_putSlot hg.1]
  -- BQUORUM
  · refine ⟨_, execBquorum_sets hg hst hn hq, ?_, ?_, wentOn_regs _ _, wentOn_ar _ _, rfl, rfl, flowsOn_wentOn rfl rfl⟩
    · rw [slotAt_wentOn, slotAt_markEffect, slotAt_putSlot hg.1]
    · rw [slotAt_wentOn, slotAt_markEffect, slotAt_putSlot hg.1]

end Sys2Proof.Machine
end

section
/-! PROOFS. The barrier network (R226 to R230, R232, R242). -/

namespace Sys2Proof.Machine

/-! ## Arrivals (R226, R228, R230) -/

section
variable {s : State} {c slot q : Nat} {m : Word}

/-- The core's own arrival enters once its release is complete (R228). -/
theorem execBarrierArrival_own {i : Nat} {a : Arrival}
    (hi : findIdxFrom (fun (x : Arrival) => x.core == s.hart.ar.core && x.slot == slot && !x.sent) s.clu.arrivals 0 = some i)
    (ha : s.clu.arrivals[i]? = some a) (hr : released s a.scope a.seq = true) :
    execBarrierArrival ⟨s.hart.ar.core, q, false⟩ slot m s = .next (onClu (fun c => { c with
      arrivals := c.arrivals.eraseIdx i ++ [{ a with sent := true, time := (passTime s).dev.time, cyc := (passTime s).dev.cycle }] })
      (passTime s)) := by
  simp only [execBarrierArrival, if_true, hi, ha, arrivalReady, hr, Bool.not_true, Bool.or_false, Bool.false_eq_true, if_false]

/-- What another core's arrival or word is taken for: its mask and its phase, which slot 8 gives its own (R226, R242). -/
theorem execBarrierArrival_other {told : Bool} (hc : c ≠ s.hart.ar.core) (hs : slot ≤ 8) (hm : c ∈ s.clu.members)
    (hq : slot = 8 → q ≤ 5) : execBarrierArrival ⟨c, q, told⟩ slot m s =
      let phase := if slot = 8 then s.hart.ss.phase else (slotAt s slot).gphase
      let mask := if slot = 8 then 0 else m
      if told then .next (learn c slot mask q true s)
      else if s.clu.arrivals.any fun a => a.core == c && a.slot == slot && a.sent &&
          (slot == 8 || (a.mask == mask && a.phase == phase)) then .next s
      else if s.clu.behind.contains (c, slot, mask) then
        .next (onClu (fun u => { u with behind := u.behind.erase (c, slot, mask) }) s)
      else
        .next (onClu (fun u => { u with arrivals := u.arrivals ++ [{
          core := c, slot := slot, mask := mask, phase := phase, scope := .core, seq := 0, sent := true
          time := (passTime (learn c slot mask q false s)).dev.time, cyc := (passTime (learn c slot mask q false s)).dev.cycle }] })
          (passTime (learn c slot mask q false s))) := by
  have low : decide (slot > 8) = false := decide_eq_false (by omega)
  have level : (slot == 8 && decide (5 < q)) = false := by
    by_cases h : slot = 8
    · simp [h, hq h]
    · simp [h]
  have member : s.clu.members.contains c = true := List.contains_iff_mem.2 hm
  simp only [execBarrierArrival, hc, if_false, low, level, member, Bool.not_true, Bool.or_false, Bool.false_eq_true]
  rfl

/-- What a core tells of its slot's quorum count is the first that the network then knows (R232). -/
theorem learn_slot (hs : slot ≠ 8) (told : Bool) : ∃ l, learn c slot m q told s = onClu (fun u => { u with quorums := l }) s ∧
    l.head? = some (c, slot, m, BitVec.ofNat 16 q) := ⟨_, if_neg hs, rfl⟩

/-- What a core tells of its level, likewise (R242). -/
theorem learn_level (told : Bool) : ∃ l, learn c 8 m q told s = onClu (fun u => { u with levels := l }) s ∧
    l.head? = some (c, if told then BitVec.ofNat 3 q else levelAt s c, BitVec.ofNat 3 q) := ⟨_, rfl, rfl⟩

section
variable (hc : c ≠ s.hart.ar.core) (hm : c ∈ s.clu.members)
include hc hm

/-- A word of another core's slot (R232). -/
theorem execBarrierArrival_tellsSlot (hs : slot ≤ 7) :
    execBarrierArrival ⟨c, q, true⟩ slot m s = .next (learn c slot m q true s) := by
  have other : slot ≠ 8 := by omega
  rw [execBarrierArrival_other hc (by omega) hm fun h => absurd h other]
  simp only [other, if_false, if_true]

/-- A word of another core's level (R242). -/
theorem execBarrierArrival_tellsLevel (hq : q ≤ 5) : execBarrierArrival ⟨c, q, true⟩ 8 m s = .next (learn c 8 0 q true s) := by
  rw [execBarrierArrival_other hc le_rfl hm fun _ => hq]
  rfl

section
variable (hs : slot ≤ 7) (none : ∀ a ∈ s.clu.arrivals,
  ¬ (a.core = c ∧ a.slot = slot ∧ a.sent = true ∧ a.mask = m ∧ a.phase = (slotAt s slot).gphase))
include hs none

/-- Another core's first arrival of its phase counts, unless the core owes one (R226, R227). -/
theorem execBarrierArrival_slot : execBarrierArrival ⟨c, q, false⟩ slot m s =
    if s.clu.behind.contains (c, slot, m) then .next (onClu (fun u => { u with behind := u.behind.erase (c, slot, m) }) s)
    else .next (onClu (fun u => { u with arrivals := u.arrivals ++ [{
      core := c, slot := slot, mask := m, phase := (slotAt s slot).gphase, scope := .core, seq := 0, sent := true
      time := (passTime (learn c slot m q false s)).dev.time, cyc := (passTime (learn c slot m q false s)).dev.cycle }] })
      (passTime (learn c slot m q false s))) := by
  have other : slot ≠ 8 := by omega
  have first : (s.clu.arrivals.any fun a => a.core == c && a.slot == slot && a.sent &&
      (slot == 8 || (a.mask == m && a.phase == (slotAt s slot).gphase))) = false := by
    refine List.any_eq_false.2 fun a ha => ?_
    simpa [other, and_assoc] using none a ha
  rw [execBarrierArrival_other hc (by omega) hm fun h => absurd h other]
  simp only [other, if_false, Bool.false_eq_true, first]

/-- An arrival that counts: it comes last, and its core's quorum count is known (R226, R230, R232). -/
theorem execBarrierArrival_enters (hb : (c, slot, m) ∉ s.clu.behind) :
    ∃ t v, execBarrierArrival ⟨c, q, false⟩ slot m s = .next t ∧ t.hart = s.hart ∧ t.clu.arrivals = s.clu.arrivals ++ [v] ∧
      v.core = c ∧ v.slot = slot ∧ v.mask = m ∧ v.phase = (slotAt s slot).gphase ∧ v.sent = true ∧ v.time = t.dev.time ∧
      t.clu.quorums.head? = some (c, slot, m, BitVec.ofNat 16 q) := by
  obtain ⟨l, e, head⟩ := learn_slot (s := s) (c := c) (m := m) (q := q) (by omega : slot ≠ 8) false
  rw [execBarrierArrival_slot hc hm hs none, if_neg (mt List.contains_iff_mem.1 hb), e]
  exact ⟨_, _, rfl, rfl, rfl, rfl, rfl, rfl, rfl, rfl, rfl, head⟩

/-- An arrival that its core owes to a phase released without it is late and does not count (R227). -/
theorem execBarrierArrival_owed (hb : (c, slot, m) ∈ s.clu.behind) : execBarrierArrival ⟨c, q, false⟩ slot m s =
    .next (onClu (fun u => { u with behind := u.behind.erase (c, slot, m) }) s) :=
  (execBarrierArrival_slot hc hm hs none).trans (if_pos (List.contains_iff_mem.2 hb))

end

/-- Another thread's arrival at its superstep barrier, with the level to which that releases it (R242). -/
theorem execBarrierArrival_superstep (hq : q ≤ 5) (none : ∀ a ∈ s.clu.arrivals, ¬ (a.core = c ∧ a.slot = 8 ∧ a.sent = true))
    (hb : (c, 8, 0) ∉ s.clu.behind) :
    ∃ t v, execBarrierArrival ⟨c, q, false⟩ 8 m s = .next t ∧ t.hart = s.hart ∧ t.clu.arrivals = s.clu.arrivals ++ [v] ∧
      v.core = c ∧ v.slot = 8 ∧ v.sent = true ∧ t.clu.levels.head? = some (c, levelAt s c, BitVec.ofNat 3 q) := by
  obtain ⟨l, e, head⟩ := learn_level (s := s) (c := c) (m := 0) (q := q) false
  have first : (s.clu.arrivals.any fun a => a.core == c && a.slot == 8 && a.sent &&
      ((8 : Nat) == 8 || (a.mask == 0 && a.phase == s.hart.ss.phase))) = false := by
    refine List.any_eq_false.2 fun a ha => ?_
    simpa [and_assoc] using none a ha
  have owes : s.clu.behind.contains (c, 8, 0) = false := Bool.eq_false_iff.2 (mt List.contains_iff_mem.1 hb)
  rw [execBarrierArrival_other hc le_rfl hm fun _ => hq]
  simp only [if_true, Bool.false_eq_true, if_false, first, owes, e]
  exact ⟨_, _, rfl, rfl, rfl, rfl, rfl, rfl, head⟩

end

end

/-! ## Releases and late arrivals (R226, R227, R230) -/

/-- A trace record changes of the core its trace only (R402). -/
theorem traceRecord_leaves (k : TraceKind) (p : List Byte) (s : State) :
    ∃ tc, (traceRecord k p s).hart = { s.hart with tc := tc } ∧ (traceRecord k p s).clu = s.clu := by
  unfold traceRecord
  split
  · exact ⟨_, rfl, rfl⟩
  · exact ⟨s.hart.tc, rfl, rfl⟩

theorem slotAt_traceRecord (k : TraceKind) (p : List Byte) (s : State) (i : Nat) :
    slotAt (traceRecord k p s) i = slotAt s i := by
  obtain ⟨tc, e, -⟩ := traceRecord_leaves k p s
  rw [slotAt, e]
  rfl

theorem traceRecord_regs (k : TraceKind) (p : List Byte) (s : State) : (traceRecord k p s).hart.regs = s.hart.regs := by
  obtain ⟨tc, e, -⟩ := traceRecord_leaves k p s
  rw [e]

theorem traceRecord_pc (k : TraceKind) (p : List Byte) (s : State) : (traceRecord k p s).hart.pc = s.hart.pc := by
  obtain ⟨tc, e, -⟩ := traceRecord_leaves k p s
  rw [e]

theorem slotAt_blast (b : Word) (s : State) (i : Nat) : slotAt (onHart (fun h => { h with blast := b }) s) i = slotAt s i := rfl

section
variable {s : State} {i : Nat}

/-- A slot whose group releases, the core's arrival counted (R226, R227, R230). -/
theorem execBarrierRelease_mine (hi : i ≤ 7) (hr : slotReleases s i = true)
    (hm : ∃ a ∈ counted s i (slotAt s i), a.core = s.hart.ar.core) :
    ∃ t r, execBarrierRelease i s = .next t ∧
      slotAt t i = { slotAt s i with
        record := r, gphase := (slotAt s i).gphase + 1, past := [], st := .released
        status := if allArrived (counted s i (slotAt s i)) (maskMembers s (slotAt s i).bmem) then 0 else 1
        phase := (slotAt s i).phase + 1 } ∧
      r.phase = (slotAt s i).gphase ∧ t.hart.regs = s.hart.regs ∧ t.hart.pc = s.hart.pc := by
  have mine : ((counted s i (slotOf s i)).any fun a => a.core == s.hart.ar.core) = true :=
    List.any_eq_true.2 (hm.imp fun a h => ⟨h.1, beq_iff_eq.2 h.2⟩)
  have releases : (decide (i > 7) || !slotReleases s i) = false := by simp [hr, hi]
  have low : i < 8 := by omega
  simp only [execBarrierRelease, releases, Bool.false_eq_true, if_false, mine, if_true]
  refine ⟨_, imbalance (counted s i (slotOf s i)) (maskMembers s (slotOf s i).bmem).length i (slotOf s i).gphase
    (!allArrived (counted s i (slotOf s i)) (maskMembers s (slotOf s i).bmem)), rfl, ?_, ?_, ?_, ?_⟩
  · rw [slotAt_traceRecord, slotAt_blast, slotAt_putSlot low]
    rfl
  · rfl
  · exact traceRecord_regs ..
  · exact traceRecord_pc ..

/-- A late arrival is answered with the record of the phase it was late for (R227). -/
theorem execLateArrival_answers {a : Arrival} (hi : i ≤ 7) (hst : (slotAt s i).st = .arrived)
    (ha : s.clu.arrivals.find? (lateOne s i (slotAt s i)) = some a) (hsent : a.sent = true) :
    ∃ t, execLateArrival i s = .next t ∧
      slotAt t i = { slotAt s i with
        st := .released, status := 3, phase := (slotAt s i).phase + 1, past := (slotAt s i).past.filter fun r => r.phase != a.phase } ∧
      t.hart.regs = s.hart.regs ∧ t.dev = s.dev ∧
      t.hart.blast = blastOf (((slotAt s i).past.find? fun r => r.phase == a.phase).getD (slotAt s i).record) := by
  have holds : (decide (i > 7) || (slotOf s i).st != .arrived || !(a.sent || arrivalReady s a)) = false := by
    simp only [hsent, Bool.true_or, Bool.not_true, Bool.or_false, Bool.or_eq_false_iff, decide_eq_false_iff_not]
    exact ⟨by omega, by rw [show slotOf s i = slotAt s i from rfl, hst]; rfl⟩
  have late : s.clu.arrivals.find? (lateOne s i (slotOf s i)) = some a := ha
  simp only [execLateArrival, late, holds, Bool.false_eq_true, if_false]
  refine ⟨_, rfl, ?_, rfl, rfl, rfl⟩
  rw [slotAt_blast, slotAt_putSlot (by omega)]
  rfl

end

/-- Settles O43, from the lemma of each move. -/
theorem barrierNetworkMoves : Obligations.BarrierNetworkMoves := by
  refine ⟨fun i slot q m a s hi ha hr => ?_, fun c slot q m s hc hs hm none => ⟨?_, ?_⟩, fun c slot q m s hc hs hm => ?_,
    fun c q m s hc hq hm => ⟨?_, ?_⟩, fun i s hi hr hm => ?_, fun i a s hi hst ha hsent => ?_⟩
  · exact ⟨_, execBarrierArrival_own hi ha hr, rfl, rfl⟩
  · exact execBarrierArrival_enters hc hm hs none
  · exact execBarrierArrival_owed hc hm hs none
  · obtain ⟨l, e, head⟩ := learn_slot (s := s) (c := c) (m := m) (q := q) (by omega : slot ≠ 8) true
    exact ⟨_, (execBarrierArrival_tellsSlot hc hm hs).trans (congrArg _ e), rfl, head⟩
  · obtain ⟨l, e, head⟩ := learn_level (s := s) (c := c) (m := 0) (q := q) true
    exact ⟨_, (execBarrierArrival_tellsLevel hc hm hq).trans (congrArg _ e), rfl, head⟩
  · exact execBarrierArrival_superstep hc hm hq
  · obtain ⟨t, r, run, slot, phase, regs, pc⟩ := execBarrierRelease_mine hi hr hm
    exact ⟨t, run, by rw [slot], by rw [slot], by rw [slot], by rw [slot, ← phase], by rw [slot], regs, pc⟩
  · obtain ⟨t, run, slot, regs, dev, blast⟩ := execLateArrival_answers hi hst ha hsent
    exact ⟨t, run, by rw [slot], by rw [slot], by rw [slot], regs, dev, blast⟩

end Sys2Proof.Machine
end

section
/-! SUPPORT. What the device does beside a core whose context keeps no interval lines: its writes at homes, and the contexts that an
exhausted log kills (R375, R378, R391). -/

namespace Sys2Proof.Machine

/-- What of a core only its own thread, traps and launches change. -/
def ownPart (h : Hart) : Regs × IAddr × Arith × TaskRegs × Vector Slot 8 × Mem := (h.regs, h.pc, h.ar, h.tk, h.slots, h.imem)

/-- What of a context writes at homes change in CHECKPOINT mode only. -/
def intervalPart (c : Context) : BitVec 2 × List (Loc × BitVec 512) := (c.mode, c.lines)

/-- From `s` to `u` the core's own part has stayed, no parked request has come, and the contexts that keep no interval lines live as
they did. -/
structure Aside (s u : State) : Prop where
  core : ownPart u.hart = ownPart s.hart
  futs : ∀ w ∈ u.dev.futs, w ∈ s.dev.futs
  contexts : ∀ n, NoLines s n → (ctxOf u.dev n).map intervalPart = (ctxOf s.dev n).map intervalPart
  memories : MemoriesOk s → MemoriesOk u

/-- A core is in no context but the one it names (R13). -/
theorem inContext_other {h : Hart} {n : Nat} (hn : n ≠ h.ar.ctx) : inContext h n = false := by
  rw [inContext, beq_eq_false_iff_ne.2 hn.symm, Bool.false_and]

theorem clearPoison_futs (d : Device) (sp : Space) (ks : List Nat) : (clearPoison d sp ks).futs = d.futs := by cases sp <;> rfl

/-- A write at a location leaves what is parked at the homes. -/
theorem rawPut_futs (d : Device) (l : Loc) (bs : List Byte) : (rawPut d l bs).futs = d.futs := by
  obtain ⟨sp, off⟩ := l
  unfold rawPut
  dsimp only
  rw [apply_ite Device.futs, clearPoison_futs, ite_self]
  cases sp <;> rfl

/-- An interval line keeps a state as quiet as it was (R385). -/
theorem SameMode.lineLogged (n : Nat) (l : Loc) (s : State) : SameMode s (lineLogged n l s) :=
  (SameMode.logAppend n _ s).trans (.onCtx_same fun _ => ⟨rfl, rfl, rfl⟩)

namespace Aside

variable {s u v : State}

theorem regs (h : Aside s u) : u.hart.regs = s.hart.regs := congrArg (·.1) h.core
theorem pc (h : Aside s u) : u.hart.pc = s.hart.pc := congrArg (·.2.1) h.core
theorem ar (h : Aside s u) : u.hart.ar = s.hart.ar := congrArg (·.2.2.1) h.core
theorem tk (h : Aside s u) : u.hart.tk = s.hart.tk := congrArg (·.2.2.2.1) h.core
theorem slots (h : Aside s u) : u.hart.slots = s.hart.slots := congrArg (·.2.2.2.2.1) h.core
theorem imem (h : Aside s u) : u.hart.imem = s.hart.imem := congrArg (·.2.2.2.2.2) h.core

theorem noLines (h : Aside s u) {n : Nat} (hn : NoLines s n) : NoLines u n := by
  intro c hc
  have e := h.contexts n hn
  rw [hc, Option.map_some] at e
  obtain ⟨b, hb, same⟩ := Option.map_eq_some_iff.1 e.symm
  have mode : b.mode = c.mode := congrArg Prod.fst same
  exact mode ▸ hn b hb

theorem logHolds (h : Aside s u) (hs : LogHolds s) : LogHolds u := fun c hc =>
  h.noLines (n := s.hart.ar.ctx) hs c (by rw [← h.ar]; exact hc)

theorem refl (s : State) : Aside s s := ⟨rfl, fun _ h => h, fun _ _ => rfl, id⟩

theorem trans (h : Aside s u) (k : Aside u v) : Aside s v :=
  ⟨k.core.trans h.core, fun w hw => h.futs w (k.futs w hw), fun n hn => (k.contexts n (h.noLines hn)).trans (h.contexts n hn),
    k.memories ∘ h.memories⟩

theorem of_ite {p : Prop} [Decidable p] (h : Aside s u) (k : Aside s v) : Aside s (if p then u else v) := by
  split <;> assumption

theorem onHart {f : Hart → Hart} (hf : ownPart (f s.hart) = ownPart s.hart) : Aside s (onHart f s) :=
  have imem : (f s.hart).imem = s.hart.imem := congrArg (·.2.2.2.2.2) hf
  ⟨hf, fun _ h => h, fun _ _ => rfl, fun ⟨hi, m⟩ => ⟨imem.symm ▸ hi, m⟩⟩

theorem of_dev {d : Device} (hf : ∀ w ∈ d.futs, w ∈ s.dev.futs) (hc : d.ctxs = s.dev.ctxs)
    (hm : MemoriesOk s → MemoriesOk { s with dev := d }) : Aside s { s with dev := d } :=
  ⟨rfl, hf, fun n _ => by unfold ctxOf; rw [hc], hm⟩

theorem onClu (f : Cluster → Cluster) (s : State) : Aside s (onClu f s) := ⟨rfl, fun _ h => h, fun _ _ => rfl, id⟩

theorem of_cluOnly (h : CluOnly s u) : Aside s u := by
  obtain ⟨hart, dev⟩ := h
  refine ⟨by rw [hart], fun w hw => dev ▸ hw, fun n _ => by rw [dev], fun m => ?_⟩
  unfold MemoriesOk
  rwa [hart, dev]

theorem onTensor (h : Nat) (f : Tensor → Tensor) (s : State) : Aside s (onTensor h f s) := of_dev (fun _ h => h) rfl id

theorem passTime (s : State) : Aside s (passTime s) := ⟨rfl, fun _ h => h, fun _ _ => rfl, id⟩

/-- A context changed: one that keeps no interval lines still keeps none. -/
theorem onCtx {n : Nat} {f : Context → Context} (hn : ∀ c, c.num = n → (f c).num = n)
    (hf : ∀ c, ctxOf s.dev n = some c → (f c).state ≠ .dead ∧ (c.mode ≠ 3 → intervalPart (f c) = intervalPart c)) :
    Aside s (onCtx n f s) := by
  refine ⟨rfl, fun _ h => h, fun m hm => ?_, id⟩
  by_cases e : m = n
  · subst e
    rw [ctxOf_onCtx_self fun c hc => ⟨hn c (num_of_ctxOf hc), (hf c hc).1⟩, Option.map_map]
    exact Option.map_congr fun c hc => (hf c hc).2 (hm c hc)
  · rw [ctxOf_onCtx_ne e hn]

theorem onCtx_same {n : Nat} {f : Context → Context}
    (hf : ∀ c, (f c).num = c.num ∧ (f c).state = c.state ∧ intervalPart (f c) = intervalPart c) : Aside s (Machine.onCtx n f s) :=
  onCtx (fun c hc => (hf c).1.trans hc) fun c hc => ⟨(hf c).2.1 ▸ live_of_ctxOf hc, fun _ => (hf c).2.2⟩

/-! ### Writes -/

theorem rawPut (l : Loc) (bs : List Byte) {d : Device} (h : Aside s { s with dev := d }) :
    Aside s { s with dev := rawPut d l bs } := by
  refine h.trans (of_dev (s := { s with dev := d }) (fun w hw => ?_) (rawPut_ctxs _ _ _) fun ⟨hi, hl, hs, hd⟩ => ⟨hi, ?_, ?_, ?_⟩)
  · rwa [rawPut_futs] at hw
  · simp only [rawPut_ls]; split <;> [exact memPut_wf _ _ hl; exact hl]
  · simp only [rawPut_scr]; split <;> [exact memPut_wf _ _ hs; exact hs]
  · simp only [rawPut_dmem]; split <;> [exact memPut_wf _ _ hd; exact hd]

theorem putPage (n va : Nat) (bs : List Byte) {d : Device} (h : Aside s { s with dev := d }) :
    Aside s { s with dev := putPage d n va bs } := by
  unfold Machine.putPage
  split <;> [exact rawPut _ _ h; exact h]

theorem putVa (n va : Nat) (bs : List Byte) {d : Device} (h : Aside s { s with dev := d }) :
    Aside s { s with dev := putVa d n va bs } := putPage _ _ _ (putPage _ _ _ h)

/-! ### The undo log -/

theorem logAppend (n : Nat) (e : LogEntry) (s : State) : Aside s (logAppend n e s) := by
  unfold Machine.logAppend
  split
  · exact refl s
  · next c hc =>
    have filler (p : Prop) [Decidable p] (va : Nat) (bs : List Byte) :
        Aside s { s with dev := if p then s.dev else Machine.putVa s.dev n va bs } := by
      split <;> [exact refl s; exact putVa _ _ _ (refl s)]
    refine (putVa n _ _ (filler _ _ _)).trans (onCtx_same fun c => ?_)
    dsimp only
    split <;> exact ⟨rfl, rfl, rfl⟩

theorem countLog (core : Nat) (s : State) : Aside s (countLog core s) := of_ite (onHart rfl) (refl s)

theorem logWrite (o : Origin) (kind : Nat) (eng : Bool) (va : Word) (l : Loc) (old : List Byte) (s : State) :
    Aside s (logWrite o kind eng va l old s) :=
  of_ite ((logAppend _ _ _).trans (countLog _ _)) (refl s)

/-- A context killed that is not the core's, and that kept interval lines (R378). -/
theorem killContext {n : Nat} (hk : ¬ NoLines s n) (hc : n ≠ s.hart.ar.ctx) (reason cause : Nat) (core : Option Nat) (addr : Word) :
    Aside s (killContext n reason cause core addr s) := by
  unfold Machine.killContext
  split
  · exact refl s
  · next x hx =>
    obtain ⟨m, y, e, hm⟩ := eraseKey_rest x s.dev
    simp only [inContext_other hc, Bool.false_eq_true, if_false, e]
    refine ⟨rfl, fun _ h => h, fun k hk' => ?_, fun ⟨hi, hl, hs, hd⟩ => ⟨hi, hl, hs, hm hd⟩⟩
    have ne : n ≠ k := fun h => hk (h ▸ hk')
    refine congrArg _ (find?_modWhere_other (fun c h => ?_) fun c h => ?_)
    · simp_all
    · simp_all

theorem logLine (hs : LogHolds s) (n : Nat) (l : Loc) : Aside s (logLine n l s) := by
  obtain none | ⟨c, hc, mode, logged⟩ := logLine_cases n l s
  · rw [none]
    exact refl s
  · have appended : SameMode s (Machine.logAppend n (lineEntry l s) s) := .logAppend n _ s
    have lined {u : State} (h : SameMode s u) {b : Context} (hb : ctxOf u.dev n = some b) : b.mode = 3 := by
      have e := h.2.2 n
      rw [hb, hc] at e
      exact (Option.some.inj e).trans mode
    have entry : Aside s (lineLogged n l s) := (logAppend n _ s).trans
      (onCtx (fun _ h => h) fun b hb => ⟨(show b.state ≠ .dead from live_of_ctxOf hb), fun hm => absurd (lined appended hb) hm⟩)
    obtain line | killed := logged
    · rwa [line]
    · rw [killed]
      have same := SameMode.lineLogged n l s
      obtain ⟨b, hb, -⟩ := Option.map_eq_some_iff.1 ((same.2.2 n).trans (congrArg _ hc))
      refine entry.trans (killContext (fun h => h b hb (lined same hb)) (fun h => ?_) _ _ _ _)
      exact hs c (by rw [curCtx, ← entry.ar, ← h]; exact hc) mode

theorem logLines (hs : LogHolds s) (n : Nat) (l : Loc) (k : Nat) : Aside s (logLines n l k s) :=
  foldl_kept (P := Aside s) (fun _ _ h => h.trans (logLine (h.logHolds hs) _ _)) _ (refl s)

/-! ### Stops and watchpoints -/

theorem stopHart (why : Nat) (s : State) : Aside s (stopHart why s) := of_ite ((passTime s).trans (onHart rfl)) (refl s)

theorem gangStop (n why : Nat) (s : State) : Aside s (gangStop n why s) := by
  unfold Machine.gangStop
  split
  · exact refl s
  · have stopped : Aside s (Machine.onCtx n (ctxStopped s.dev.time why) s) := onCtx (fun _ h => h) fun _ _ => ⟨nofun, fun _ => rfl⟩
    exact of_ite (refl s) (of_ite (stopped.trans (stopHart _ _)) stopped)

theorem stopSet (n : Nat) (scope : Bool) (s : State) : Aside s (stopSet n scope s) := of_ite (gangStop _ _ _) (stopHart _ _)

theorem watchStop (n : Nat) (w : Watch) (a : WatchAccess) (mine here : Bool) (s : State) : Aside s (watchStop n w a mine here s) := by
  have role : Aside s (if s.hart.dbg.stop.isNone then
      Machine.onHart (fun h => { h with dbg := { h.dbg with role := if mine then 1 else 0 } }) s else s) := of_ite (onHart rfl) (refl s)
  exact of_ite (onHart rfl) (of_ite (role.trans (stopSet _ _ _)) role)

theorem watchAccess (n : Nat) (a : WatchAccess) (icount : Word) (s : State) : Aside s (watchAccess n a icount s) := by
  unfold Machine.watchAccess
  split
  · exact refl s
  · split
    · exact refl s
    · split
      · exact refl s
      · extract_lets t lowest addr trig u mine here
        have noted : Aside s u := (passTime s).trans (onCtx_same fun _ => ⟨rfl, rfl, rfl⟩)
        clear_value u
        exact of_ite (noted.trans (watchStop _ _ _ _ _ _)) (of_ite (noted.trans (onHart rfl)) noted)

/-! ### Writes at homes, and the lines that they recall -/

theorem keepsPut (l : Loc) (bs : List Byte) (u : State) (h : Aside s u) : Aside s (onDev (fun d => Machine.rawPut d l bs) u) :=
  h.trans (rawPut l bs (refl u))

theorem keepsWatch (n : Nat) (a : WatchAccess) (i : Word) (u : State) (h : Aside s u) : Aside s (Machine.watchAccess n a i u) :=
  h.trans (watchAccess n a i u)

theorem keepsDrop (l : Loc) (u : State) (h : Aside s u) : Aside s (Machine.onClu (cmDrop l) u) := h.trans (onClu _ u)

theorem cvpStore (l : Loc) (bs : List Byte) (s : State) : Aside s (cvpStore l bs s) := by
  unfold Machine.cvpStore
  exact onClu _ s

theorem markDone (n pos : Nat) (u : State) : Aside u (markDone n pos u) := by
  unfold Machine.markDone
  split
  · exact refl u
  · have marked : Aside u (Machine.onCtx n (fun c => { c with
        log := modWhere (fun e => e.pos == pos) (fun e => { e with done := true }) c.log }) u) := onCtx_same fun _ => ⟨rfl, rfl, rfl⟩
    dsimp only
    split <;> [exact putVa _ _ _ marked; exact marked]

section
variable (hs : LogHolds s)
include hs

theorem keepsLine (n : Nat) (l : Loc) (u : State) (h : Aside s u) : Aside s (Machine.logLine n l u) :=
  h.trans (logLine (h.logHolds hs) n l)

theorem homePut (l : Loc) (bs : List Byte) (h : Aside s u) : Aside s (homePut l bs u) :=
  homePut_keeps (keepsLine hs) keepsPut l bs h

theorem recallAt (l : Loc) (n : Nat) (h : Aside s u) : Aside s (recallAt l n u) :=
  recallAt_keeps (keepsLine hs) keepsPut keepsWatch keepsDrop l n h

theorem recallTables (n va : Nat) (h : Aside s u) : Aside s (recallTables n va u) :=
  recallTables_keeps (keepsLine hs) keepsPut keepsWatch keepsDrop n va h

theorem performWrite (o : Origin) (kind : Nat) (va : Word) (l : Loc) (bs : List Byte) (h : Aside s u) :
    Aside s (performWrite o kind va l bs u) :=
  (homePut hs l bs (h.trans (logWrite o kind false va l _ u))).trans (watchAccess _ _ _ _)

/-! ### Retractions -/

theorem homeWrite (l : Loc) (bs : List Byte) (h : Aside s u) : Aside s (homeWrite l bs u) := by
  unfold Machine.homeWrite
  exact ((homePut hs l bs (recallAt hs l bs.length h)).trans (onHart rfl)).trans (onClu _ _)

theorem plainWrite (l : Loc) (bs : List Byte) (h : Aside s u) : Aside s (plainWrite l bs u) := by
  have recalled := recallAt hs l bs.length (h.trans (onHart (f := l1Drop l bs.length) rfl))
  exact of_ite ((recalled.trans (of_cluOnly (.roomFor l true _))).trans (cvpStore l bs _)) (homePut hs l bs recalled)

theorem logTail (g o k : Nat) (h : Aside s u) : Aside s (logTail g o k u) := by
  unfold Machine.logTail
  split <;> [exact h.trans (logLines (h.logHolds hs) _ _ _); exact h]

theorem restoreEntry (n : Nat) (e : LogEntry) (h : Aside s u) : Aside s (restoreEntry n u e) := by
  have tail (g : Nat) : Aside s (match tensorOf u.dev g with
      | some t => Machine.logTail g (e.loc.off - tBytes t) e.old.length u
      | none => u) := by split <;> [exact logTail hs _ _ _ h; exact h]
  refine Aside.trans ?_ (markDone n e.pos _)
  dsimp only
  split
  · exact (tail _).trans (onTensor _ _ _)
  · exact (tail _).trans (onTensor _ _ _)
  · refine foldl_kept (fun v p hv => ?_) _ h
    split <;> [exact plainWrite hs _ _ hv; exact homeWrite hs _ _ hv]

theorem retract (n core : Nat) (lo hi : BitVec 16) (h : Aside s u) : Aside s (retract n core lo hi u) := by
  unfold Machine.retract
  split <;> [exact h; exact foldl_kept (fun v e hv => restoreEntry hs n e hv) _ h]

end

/-! ### Joins and trace records -/

theorem putJoin (jid : Word) (o n v : Nat) (s : State) : Aside s (putJoin jid o n v s) := rawPut _ _ (refl s)

theorem setJoinBit (jid : Word) (o m : Nat) (s : State) : Aside s (setJoinBit jid o m s) := putJoin ..

theorem unretCounted (n : Nat) (s : State) : Aside s (Machine.onCtx n (fun c => { c with unret := c.unret + 1 }) s) :=
  onCtx_same fun _ => ⟨rfl, rfl, rfl⟩

theorem freeWindows (n core : Nat) (lo hi : BitVec 16) (s : State) : Aside s (freeWindows n core lo hi s) :=
  onCtx_same fun c => by split <;> exact ⟨rfl, rfl, rfl⟩

theorem traceRecord (k : TraceKind) (p : List Byte) (s : State) : Aside s (traceRecord k p s) :=
  of_ite ((passTime s).trans (onHart rfl)) (refl s)

end Aside

/-! ## The joins of the cluster -/

theorem logAppend_clu (n : Nat) (e : LogEntry) (s : State) : (logAppend n e s).clu = s.clu := by
  unfold logAppend
  split <;> rfl

theorem countLog_clu (core : Nat) (s : State) : (countLog core s).clu = s.clu := by
  unfold countLog
  split <;> rfl

theorem logWrite_clu (o : Origin) (kind : Nat) (eng : Bool) (va : Word) (l : Loc) (old : List Byte) (s : State) :
    (logWrite o kind eng va l old s).clu = s.clu := by
  unfold logWrite logWriteAt
  split
  · exact (countLog_clu ..).trans (logAppend_clu ..)
  · rfl

theorem watchAccess_clu (n : Nat) (a : WatchAccess) (i : Word) (s : State) : (watchAccess n a i s).clu = s.clu :=
  watchAccess_keeps (P := fun u => u.clu = s.clu) (fun _ h => h) (fun _ _ _ h => h) (fun _ _ _ _ _ _ h => h) n a i rfl

theorem traceRecord_clu (k : TraceKind) (p : List Byte) (s : State) : (traceRecord k p s).clu = s.clu := by
  unfold traceRecord
  split <;> rfl

/-- A context killed that is not the core's leaves the cluster (R378). -/
theorem killContext_clu {n : Nat} {s : State} (hc : n ≠ s.hart.ar.ctx) (reason cause : Nat) (core : Option Nat) (addr : Word) :
    (killContext n reason cause core addr s).clu = s.clu := by
  unfold killContext
  split
  · rfl
  · simp only [inContext_other hc, Bool.false_eq_true, if_false]

theorem logLine_clu {s : State} (hs : LogHolds s) (n : Nat) (l : Loc) : (logLine n l s).clu = s.clu := by
  have entry : (lineLogged n l s).clu = s.clu := logAppend_clu n _ s
  obtain none | ⟨c, hc, mode, line | killed⟩ := logLine_cases n l s
  · rw [none]
  · rw [line, entry]
  · have ctx : (lineLogged n l s).hart.ar.ctx = s.hart.ar.ctx := (SameMode.lineLogged n l s).1
    rw [killed, killContext_clu fun h => hs c (by rw [curCtx, ← ctx, ← h]; exact hc) mode, entry]

/-- `Aside`, and the cluster's joins have stayed. -/
def Beside (s u : State) : Prop := Aside s u ∧ u.clu.joins = s.clu.joins

namespace Beside

variable {s u v : State}

theorem refl (s : State) : Beside s s := ⟨.refl s, rfl⟩

theorem trans (h : Beside s u) (k : Beside u v) : Beside s v := ⟨h.1.trans k.1, k.2.trans h.2⟩

theorem of_clu (h : Aside s u) (k : u.clu = s.clu) : Beside s u := ⟨h, congrArg Cluster.joins k⟩

theorem of_ite {p : Prop} [Decidable p] (h : Beside s u) (k : Beside s v) : Beside s (if p then u else v) := by
  split <;> assumption

theorem watchAccess (n : Nat) (a : WatchAccess) (i : Word) (s : State) : Beside s (watchAccess n a i s) :=
  of_clu (.watchAccess n a i s) (watchAccess_clu n a i s)

theorem traceRecord (k : TraceKind) (p : List Byte) (s : State) : Beside s (traceRecord k p s) :=
  of_clu (.traceRecord k p s) (traceRecord_clu k p s)

theorem keepsPut (l : Loc) (bs : List Byte) (u : State) (h : Beside s u) : Beside s (onDev (fun d => rawPut d l bs) u) :=
  h.trans ⟨Aside.keepsPut l bs u (.refl u), rfl⟩

theorem keepsWatch (n : Nat) (a : WatchAccess) (i : Word) (u : State) (h : Beside s u) : Beside s (Machine.watchAccess n a i u) :=
  h.trans (watchAccess n a i u)

theorem keepsDrop (l : Loc) (u : State) (h : Beside s u) : Beside s (onClu (cmDrop l) u) := h.trans ⟨.onClu _ u, rfl⟩

section
variable (hs : LogHolds s)
include hs

theorem keepsLine (n : Nat) (l : Loc) (u : State) (h : Beside s u) : Beside s (logLine n l u) :=
  h.trans (of_clu (.logLine (h.1.logHolds hs) n l) (logLine_clu (h.1.logHolds hs) n l))

theorem homePut (l : Loc) (bs : List Byte) (h : Beside s u) : Beside s (homePut l bs u) :=
  homePut_keeps (keepsLine hs) keepsPut l bs h

theorem recallAt (l : Loc) (n : Nat) (h : Beside s u) : Beside s (recallAt l n u) :=
  recallAt_keeps (keepsLine hs) keepsPut keepsWatch keepsDrop l n h

theorem recallTables (n va : Nat) (h : Beside s u) : Beside s (recallTables n va u) :=
  recallTables_keeps (keepsLine hs) keepsPut keepsWatch keepsDrop n va h

theorem performWrite (o : Origin) (kind : Nat) (va : Word) (l : Loc) (bs : List Byte) (h : Beside s u) :
    Beside s (performWrite o kind va l bs u) :=
  (homePut hs l bs (h.trans (of_clu (.logWrite o kind false va l _ u) (logWrite_clu ..)))).trans (watchAccess _ _ _ _)

end

end Beside

end Sys2Proof.Machine
end

section
/-! PROOFS. A join's release (R222, R267 to R271, R278). -/

namespace Sys2Proof.Machine

/-! ## The join's record (R265) -/

/-- Bytes beside those stored are as they were. -/
theorem memBytes_memPut_beside {m : Mem} (hm : Memory.wf m = true) {a b n : Nat} {bs : List Byte} 
    (h : a + bs.length ≤ b ∨ b + n ≤ a) : memBytes (memPut m a bs) b n = memBytes m b n := by
  rw [memBytes_eq, memBytes_eq]
  refine List.map_congr_left fun i hi => ?_
  have := List.mem_range.1 hi
  rw [smGet_memPut a (b + i) bs hm, if_neg (by omega)]

section
variable {s : State} (hm : MemoriesOk s) (jid : Word)
include hm

/-- A field of a join's record written, read back. -/
theorem joinField_putJoin (o n v : Nat) : joinField (putJoin jid o n v s) jid o n = v % 256 ^ n := by
  obtain ⟨-, hl, hs, hd⟩ := hm
  have read := rawBytes_rawPut (d := s.dev) (l := { joinLoc jid with off := (joinLoc jid).off + o }) (natBytes n v) hl hs hd
    fun h => nofun
  rw [natBytes_length] at read
  exact (congrArg bytesNat read).trans (bytesNat_natBytes n v)

/-- The other fields stay. -/
theorem joinField_putJoin_beside {o n p k : Nat} (v : Nat) (h : o + n ≤ p ∨ p + k ≤ o) :
    joinField (putJoin jid o n v s) jid p k = joinField s jid p k := by
  obtain ⟨-, -, hs, -⟩ := hm
  refine congrArg bytesNat ?_
  simp only [putJoin, onDev, joinLoc, rawBytes, rawPut_scr, scrKey]
  exact memBytes_memPut_beside hs (by rw [natBytes_length]; omega)

/-- A bit of a join's record set. -/
theorem joinBit_setJoinBit (o : Nat) {m : Nat} (h : m < 16) : joinBit (setJoinBit jid o m s) jid o m := by
  rw [joinBit, setJoinBit, joinField_putJoin hm, show 256 ^ 2 = 2 ^ 16 from rfl, Nat.testBit_mod_two_pow, Nat.testBit_or,
    Nat.testBit_two_pow_self]
  simp [h]

theorem joinBit_setJoinBit_beside {o p : Nat} (m k : Nat) (h : o + 2 ≤ p ∨ p + 2 ≤ o) :
    joinBit (setJoinBit jid o m s) jid p k ↔ joinBit s jid p k := by
  rw [joinBit, setJoinBit, joinField_putJoin_beside hm jid _ h]
  rfl

end

/-! ## Kills (R268) -/

/-- A task taken out of the cluster is not found. -/
theorem taskById_filter (tid : Word) (s : State) :
    taskById (onClu (fun c => { c with tasks := c.tasks.filter fun x => x.tid != tid }) s) tid = none := by
  refine List.find?_eq_none.2 fun x hx => ?_
  have other := (List.mem_filter.1 hx).2
  simpa using other

section
variable {s : State} {jid tid : Word} {m : Nat} {j : Join} {k : Task} (hj : joinOf s jid = some j) (hst : joinState s jid = 1)
  (hc : isCounted j m = false) (hb : j.bound.find? (fun b => b.1 == m) = some (m, tid)) (hk : taskById s tid = some k)
include hj hst hc hb hk

/-- A kill reaches a member that runs on this core (R268). -/
theorem execKillSignal_running (hr : k.running = some s.hart.ar.core) :
    execKillSignal jid m s = .next (onHart (fun h => { h with tk := { h.tk with kpend := true } }) s) := by
  simp only [execKillSignal, hj, hst, hc, decide_true, Bool.not_false, Bool.and_self, if_true, killMember, Option.bind_some, hb, hk,
    queued, hr, Option.isNone_some, Bool.false_eq_true, if_false]

/-- A kill removes a queued member (R268). -/
theorem execKillSignal_queued (hr : k.running = none) (hm : m < 16) (mem : MemoriesOk s) :
    ∃ t, execKillSignal jid m s = .next t ∧ taskById t tid = none ∧ joinBit t jid 30 m ∧ t.hart = s.hart := by
  simp only [execKillSignal, hj, hst, hc, decide_true, Bool.not_false, Bool.and_self, if_true, killMember, Option.bind_some, hb, hk,
    queued, hr, Option.isNone_none]
  refine ⟨_, rfl, taskById_filter tid s, joinBit_setJoinBit (s := onDev _ (onClu _ s)) ?_ jid 30 hm, rfl⟩
  exact mem

/-- RETRACTION of a member that ran on another core (R268, R270). -/
theorem execRetraction_retracts {p : Bool} {w : Marker} (hw : markerOf j m = some w) (hr : k.running = some w.core)
    (ho : w.core ≠ s.hart.ar.core) (hm : m < 16) (mem : MemoriesOk s) (hs : LogHolds s) (hx : ctxRuns s j.ctx = true) :
    ∃ t, execRetraction jid ⟨m, p⟩ s = .next t ∧ taskById t k.tid = none ∧ joinBit t jid 30 m ∧ (p = true → joinBit t jid 26 m) ∧
      Aside s t := by
  simp only [execRetraction, hj, Option.bind_some, hb, hk, hw, hst, hc, hr, ho, hx, bne_self_eq_false, Bool.or_self, decide_false,
    Bool.not_true, Bool.false_eq_true, if_false]
  have gone := ((Aside.refl s).retract hs j.ctx w.core w.lo w.hi).trans
    (.onClu (fun c => { c with tasks := c.tasks.filter fun x => x.tid != k.tid }) _)
  have none := taskById_filter k.tid (retract j.ctx w.core w.lo w.hi s)
  cases p with
  | false =>
    exact ⟨_, rfl, none, joinBit_setJoinBit (gone.memories mem) jid 30 hm, nofun, (gone.trans (.setJoinBit ..)).trans (.onClu ..)⟩
  | true =>
    have unret := (gone.trans (.setJoinBit jid 26 m _)).trans (.unretCounted j.ctx _)
    have kept := (joinBit_setJoinBit_beside (unret.memories mem) jid (o := 30) (p := 26) m m (by omega)).2
      (joinBit_setJoinBit (gone.memories mem) jid 26 hm)
    exact ⟨_, rfl, none, joinBit_setJoinBit (unret.memories mem) jid 30 hm, fun _ => kept,
      (unret.trans (.setJoinBit ..)).trans (.onClu ..)⟩

end

/-! ## The combination (R267) -/

/-- Where the interval lines of a context stay none, an engine's step fits (R391). -/
theorem Aside.engFits {s u : State} (h : Aside s u) {n : Nat} (hn : NoLines s n) : engFits n s u = true := by
  have same := h.contexts n hn
  unfold Machine.engFits
  cases hs : ctxOf s.dev n with
  | none => rfl
  | some a =>
    rw [hs, Option.map_some] at same
    obtain ⟨b, hb, e⟩ := Option.map_eq_some_iff.1 same
    have lines : b.lines = a.lines := congrArg Prod.snd e
    simp only [hb, lines, beq_self_eq_true, Bool.true_or]

theorem Beside.joinOf {s u : State} (h : Beside s u) (jid : Word) : joinOf u jid = joinOf s jid :=
  congrArg (List.find? _) h.2

/-- A join changed, and found under its identifier if it keeps it. -/
theorem joinOf_onJoin {s : State} {jid : Word} {j : Join} {f : Join → Join} (hj : joinOf s jid = some j) (hf : (f j).jid = j.jid) :
    joinOf (onJoin jid f s) jid = some (f j) := by
  have found : (f j).jid = jid := hf.trans (by simpa using List.find?_some hj)
  have e : joinOf (onJoin jid f s) jid = (joinOf s jid).map f := find?_modWhere_self fun x hx => by
    cases hx.symm.trans hj
    simpa using found
  rw [e, hj, Option.map_some]

theorem Beside.joinElem {s u : State} (hs : LogHolds s) (jid : Word) (j : Join) (e : Nat) (h : Beside s u) :
    Beside s (joinElem jid j u e) :=
  of_ite h ((h.homePut hs _ _).trans (.watchAccess _ _ _ _))

section
variable {s : State} {jid : Word} {j : Join} (hj : joinOf s jid = some j) (hst : joinState s jid = 1) (hx : ctxRuns s j.ctx = true)
  (hs : LogHolds s) (hn : NoLines s j.ctx)

section
variable (hc : j.combined = false) (hr : joinField s jid 4 1 ≠ 2 ∨ j.toRetract = [])

/-- The elements of the accumulator combined (R267). -/
def combinedElems (s : State) (jid : Word) (j : Join) : State :=
  (List.range (accCount s (joinField s jid 8 8))).foldl (joinElem jid j) s

theorem combinedElems_beside (hs : LogHolds s) : Beside s (combinedElems s jid j) :=
  foldl_kept (fun _ e h => h.joinElem hs jid j e) _ (.refl s)

include hj hst hx hs hn hc hr

theorem execJoinCombine_combines : execJoinCombine jid s =
    .next (onJoin jid (fun j => { j with combined := true }) (combinedElems s jid j)) := by
  have ready : (decide (joinField s jid 4 1 = 2) && !j.toRetract.isEmpty) = false := by
    obtain other | none := hr
    · simp [other]
    · simp [none]
  have fits : engFits j.ctx s (onJoin jid (fun j => { j with combined := true }) (combinedElems s jid j)) = true :=
    ((combinedElems_beside hs).1.trans (.onClu _ _)).engFits hn
  simp only [execJoinCombine, hj, hst, hc, ready, hx, bne_self_eq_false, Bool.or_self, Bool.not_true, Bool.false_eq_true, if_false]
  exact congrArg _ (engStall_fits fits)

end

end

end Sys2Proof.Machine
end

section
/-! PROOFS. What JOIN_COMBINE leaves in the accumulator (R267). -/

namespace Sys2Proof.Machine

/-! ## A tensor's elements written -/

/-- A tensor without its poison. -/
def Tensor.unpoisoned (t : Tensor) : Tensor := { t with poison := [] }

theorem clearPoison_unpoisoned (d : Device) (sp : Space) (ks : List Nat) (h : Nat) :
    (tensorOf (clearPoison d sp ks) h).map Tensor.unpoisoned = (tensorOf d h).map Tensor.unpoisoned := by
  cases sp with
  | ten g => exact find?_modWhere_map (fun _ => by rfl) (fun _ => by rfl) d.tensors
  | ls | scr | dev => rfl

/-- A write of a tensor's elements, in the tensor (R158). -/
theorem tensorOf_rawPut_self {d : Device} {h : Nat} {t : Tensor} (ht : tensorOf d h = some t) (o : Nat) (bs : List Byte) :
    (tensorOf (rawPut d ⟨.ten h, o⟩ bs) h).map Tensor.unpoisoned = some { t with data := memPut t.data o bs, poison := [] } := by
  have found : t.h = h := by simpa using List.find?_some ht
  have put : tensorOf { d with
      tensors := modWhere (fun t => t.h == h) (fun t => { t with data := memPut t.data o bs }) d.tensors } h =
      some { t with data := memPut t.data o bs } := by
    have e := find?_modWhere_self (p := fun t : Tensor => t.h == h) (f := fun t => { t with data := memPut t.data o bs })
      (l := d.tensors) fun x hx => by
        cases hx.symm.trans ht
        simpa using found
    exact e.trans (congrArg (Option.map _) ht)
  unfold rawPut
  dsimp only
  rw [apply_ite (fun e => (tensorOf e h).map Tensor.unpoisoned), clearPoison_unpoisoned, ite_self, put]
  rfl

/-- It leaves the other tensors. -/
theorem tensorOf_rawPut_other {h g : Nat} (hg : g ≠ h) (d : Device) (o : Nat) (bs : List Byte) :
    (tensorOf (rawPut d ⟨.ten h, o⟩ bs) g).map Tensor.unpoisoned = (tensorOf d g).map Tensor.unpoisoned := by
  have put : tensorOf { d with
      tensors := modWhere (fun t => t.h == h) (fun t => { t with data := memPut t.data o bs }) d.tensors } g = tensorOf d g :=
    find?_modWhere_other (fun c hc => by simp_all [Ne.symm]) fun c hc => by simp_all [Ne.symm]
  unfold rawPut
  dsimp only
  rw [apply_ite (fun e => (tensorOf e g).map Tensor.unpoisoned), clearPoison_unpoisoned, ite_self, put]

/-- The bytes of a tensor do not depend on its poison. -/
theorem rawBytes_ten (d : Device) (h o n : Nat) : rawBytes d ⟨.ten h, o⟩ n =
    (((tensorOf d h).map Tensor.unpoisoned).map fun t => memBytes t.data o n).getD (List.replicate n 0) := by
  simp only [rawBytes]
  cases tensorOf d h <;> rfl

/-! ## The combination's steps -/

/-- What the combination leaves in an element (R267). -/
def combinedValue (s : State) (jid : Word) (j : Join) (e : Nat) : Nat :=
  (faddCode .f32 rmRne (bytesNat (rawBytes s.dev ⟨.ten (joinField s jid 8 8), 4 * e⟩ 4)) (joinTerm s jid j e)).1

/-- From `s` to `u` the first `e` elements of the accumulator `x` are combined. -/
structure Combining (s : State) (jid : Word) (j : Join) (x : Tensor) (e : Nat) (u : State) : Prop where
  aside : Aside s u
  scr : u.dev.scr = s.dev.scr
  other : ∀ g, g ≠ joinField s jid 8 8 → (tensorOf u.dev g).map Tensor.unpoisoned = (tensorOf s.dev g).map Tensor.unpoisoned
  acc : ∃ m, (tensorOf u.dev (joinField s jid 8 8)).map Tensor.unpoisoned = some { x with data := m, poison := [] } ∧
    Memory.wf m = true ∧ (∀ i, i < e → memBytes m (4 * i) 4 = natBytes 4 (combinedValue s jid j i)) ∧
    ∀ i, e ≤ i → memBytes m (4 * i) 4 = memBytes x.data (4 * i) 4

section
variable {s u : State} {jid : Word} {j : Join} {x : Tensor} {e : Nat}

theorem joinField_of_scr (h : u.dev.scr = s.dev.scr) (o n : Nat) : joinField u jid o n = joinField s jid o n := by
  unfold joinField rawBytes joinLoc
  dsimp only
  rw [h]

/-- Element `e` of a member's row of the shadow buffer. -/
def rowElem (s : State) (jid : Word) (m e : Nat) : List Byte :=
  rawBytes s.dev { shadowRow s jid m with off := (shadowRow s jid m).off + 4 * e } 4

theorem weightedSum_congr {ms : List Nat} (h : u.dev.scr = s.dev.scr) (hr : ∀ m ∈ ms, rowElem u jid m e = rowElem s jid m e) :
    weightedSum u jid e ms = weightedSum s jid e ms := by
  unfold weightedSum
  refine congrArg (fun r => (sumVal r).1) (List.foldl_ext _ _ _ fun acc m hm => ?_)
  have bytes := hr m hm
  unfold rowElem at bytes
  simp only [bytes, weightOf, joinField_of_scr h]

/-- The term of an element depends on the join's record and on the rows of its members. -/
theorem joinTerm_congr (h : u.dev.scr = s.dev.scr)
    (hr : ∀ m, m ∈ j.counted ∨ m < joinField s jid 0 2 → rowElem u jid m e = rowElem s jid m e) :
    joinTerm u jid j e = joinTerm s jid j e := by
  have counted := weightedSum_congr (ms := j.counted) h fun m hm => hr m (.inl hm)
  have all := weightedSum_congr (ms := List.range (joinField s jid 0 2)) h fun m hm => hr m (.inr (List.mem_range.1 hm))
  have weights : weightOf u jid = weightOf s jid := funext fun m => joinField_of_scr h _ _
  unfold joinTerm
  rw [joinField_of_scr h, joinField_of_scr h]
  dsimp only
  rw [weights, counted, all]

theorem accCount_eq (s : State) (h : Nat) : accCount s h = (((tensorOf s.dev h).map Tensor.unpoisoned).map tCount).getD 0 := by
  unfold accCount
  cases tensorOf s.dev h <;> rfl

theorem watchAccess_scr (n : Nat) (a : WatchAccess) (i : Word) (s : State) : (watchAccess n a i s).dev.scr = s.dev.scr :=
  watchAccess_keeps (P := fun u => u.dev.scr = s.dev.scr) (fun _ h => h) (fun _ _ _ h => h) (fun _ _ _ _ _ _ h => h) n a i rfl

/-- Nothing is combined at first. -/
theorem Combining.start (hx : tensorOf s.dev (joinField s jid 8 8) = some x) (hw : Memory.wf x.data = true) :
    Combining s jid j x 0 s :=
  ⟨.refl s, rfl, fun _ _ => rfl, x.data, by rw [hx]; rfl, hw, fun _ h => absurd h (by omega), fun _ _ => rfl⟩

section
variable (hx : tensorOf s.dev (joinField s jid 8 8) = some x)
  (hrow : joinField s jid 16 8 ≠ joinField s jid 8 8 ∨ (joinField s jid 0 2 = 1 ∧ ∀ m ∈ j.counted, m = 0))
  (h : Combining s jid j x e u)
include hx hrow h

/-- An element that is not combined yet is computed from what `s` held. -/
theorem Combining.value :
    (faddCode .f32 rmRne (bytesNat (rawBytes u.dev ⟨.ten (joinField s jid 8 8), 4 * e⟩ 4)) (joinTerm u jid j e)).1 =
    combinedValue s jid j e := by
  obtain ⟨-, scr, other, m, acc, -, -, rest⟩ := h
  have elem : rawBytes u.dev ⟨.ten (joinField s jid 8 8), 4 * e⟩ 4 = rawBytes s.dev ⟨.ten (joinField s jid 8 8), 4 * e⟩ 4 := by
    rw [rawBytes_ten, rawBytes_ten, acc, hx]
    exact rest e le_rfl
  have count : accCount u (joinField s jid 8 8) = accCount s (joinField s jid 8 8) := by
    rw [accCount_eq, accCount_eq, acc, hx]
    rfl
  have rows : ∀ m, m ∈ j.counted ∨ m < joinField s jid 0 2 → rowElem u jid m e = rowElem s jid m e := by
    intro m hm
    unfold rowElem shadowRow
    rw [joinField_of_scr scr, joinField_of_scr scr, count]
    dsimp only
    by_cases same : joinField s jid 16 8 = joinField s jid 8 8
    · obtain ⟨one, zero⟩ := hrow.resolve_left (not_not.2 same)
      have first : m = 0 := hm.elim (zero m) fun lt => by omega
      rw [same, first, Nat.zero_mul, Nat.zero_mul, Nat.zero_add, elem]
    · rw [rawBytes_ten, rawBytes_ten, other _ same]
  rw [elem, joinTerm_congr scr rows, combinedValue]

/-- The next element is written and its access watched. -/
theorem Combining.writes (hn : NoLines s x.ctx) : ∃ a, joinElem jid j u e = watchAccess j.ctx a j.icount (onDev (fun d =>
    rawPut d ⟨.ten (joinField s jid 8 8), 4 * e⟩ (natBytes 4 (combinedValue s jid j e))) u) := by
  have value := h.value hx hrow
  obtain ⟨aside, scr, -, m, acc, -⟩ := h
  obtain ⟨y, hy, same⟩ := Option.map_eq_some_iff.1 acc
  have ctx : y.ctx = x.ctx := (congrArg Tensor.ctx same :)
  have put : homePut ⟨.ten (joinField s jid 8 8), 4 * e⟩ (natBytes 4 (combinedValue s jid j e)) u = onDev (fun d =>
      rawPut d ⟨.ten (joinField s jid 8 8), 4 * e⟩ (natBytes 4 (combinedValue s jid j e))) u :=
    homePut_of_noLines (congrArg _ hy) (aside.noLines (ctx ▸ hn)) _ _
  rw [joinElem, joinField_of_scr scr]
  simp only [hy, Option.isNone_some, Bool.false_eq_true, if_false, value, put]
  exact ⟨_, rfl⟩

/-- The next element combined (R267). -/
theorem Combining.step (hn : NoLines s x.ctx) : Combining s jid j x (e + 1) (joinElem jid j u e) := by
  obtain ⟨a, elem⟩ := h.writes hx hrow hn
  obtain ⟨aside, scr, other, m, acc, wf, done, rest⟩ := h
  obtain ⟨y, hy, same⟩ := Option.map_eq_some_iff.1 acc
  rw [elem]
  have tensors := (StopsOnly.watchAccess j.ctx a j.icount (onDev (fun d =>
    rawPut d ⟨.ten (joinField s jid 8 8), 4 * e⟩ (natBytes 4 (combinedValue s jid j e))) u)).tensors
  refine ⟨(aside.keepsPut _ _).keepsWatch _ _ _, (watchAccess_scr ..).trans ((rawPut_scr ..).trans scr), fun g hg => ?_,
    memPut m (4 * e) (natBytes 4 (combinedValue s jid j e)), ?_, memPut_wf _ _ wf, fun i hi => ?_, fun i hi => ?_⟩
  · rw [tensorOf, tensors]
    exact (tensorOf_rawPut_other hg _ _ _).trans (other g hg)
  · rw [tensorOf, tensors]
    exact (tensorOf_rawPut_self hy _ _).trans (congrArg (fun t : Tensor => some
      { t with data := memPut t.data (4 * e) (natBytes 4 (combinedValue s jid j e)), poison := [] }) same)
  · obtain before | rfl := Nat.lt_succ_iff_lt_or_eq.1 hi
    · rw [memBytes_memPut_beside wf (by rw [natBytes_length]; omega), done i before]
    · have read := memBytes_memPut (4 * i) (natBytes 4 (combinedValue s jid j i)) wf
      rwa [natBytes_length] at read
  · rw [memBytes_memPut_beside wf (by rw [natBytes_length]; omega), rest i (by omega)]

end

/-- Every element of the accumulator is combined (R267). -/
theorem combining_all (hx : tensorOf s.dev (joinField s jid 8 8) = some x) (hw : Memory.wf x.data = true)
    (hrow : joinField s jid 16 8 ≠ joinField s jid 8 8 ∨ (joinField s jid 0 2 = 1 ∧ ∀ m ∈ j.counted, m = 0))
    (hn : NoLines s x.ctx) : Combining s jid j x (tCount x) (combinedElems s jid j) := by
  have count : accCount s (joinField s jid 8 8) = tCount x := by rw [accCount, hx]
  have steps : ∀ n, Combining s jid j x n ((List.range n).foldl (joinElem jid j) s) := fun n => by
    induction n with
    | zero => exact .start hx hw
    | succ n ih =>
      rw [List.range_succ, List.foldl_append]
      exact ih.step hx hrow hn
  rw [combinedElems, count]
  exact steps _

/-- Each element, read back (R267). -/
theorem Combining.reads (h : Combining s jid j x (tCount x) u) (he : e < tCount x) :
    bytesNat (rawBytes u.dev ⟨.ten (joinField s jid 8 8), 4 * e⟩ 4) = combinedValue s jid j e % 2 ^ 32 := by
  obtain ⟨-, -, -, m, acc, -, done, -⟩ := h
  rw [rawBytes_ten, acc]
  exact (congrArg bytesNat (done e he)).trans (bytesNat_natBytes 4 _)

end

end Sys2Proof.Machine
end

section
/-! PROOFS. The future word that a join posts, and its closing (R222, R267, R271). -/

namespace Sys2Proof.Machine

/-! ## Device memory (R143) -/

theorem memBytes_add (m : Mem) (a p n : Nat) : memBytes m a (p + n) = memBytes m a p ++ memBytes m (a + p) n := by
  induction p generalizing a with
  | zero => rw [Nat.zero_add]; rfl
  | succ p ih => rw [Nat.succ_add, memBytes, memBytes, ih, Nat.add_right_comm, Nat.add_assoc]; rfl

theorem sealed_append (d : Device) (a : Nat) (bs cs : List Byte) :
    sealed d a (bs ++ cs) = sealed d a bs ++ sealed d (a + bs.length) cs := by
  have cells : sealFrom d a (bs ++ cs) = sealFrom d a bs ++ sealFrom d (a + bs.length) cs := by
    induction bs generalizing a with
    | nil => rfl
    | cons b r ih =>
      simp only [List.cons_append, sealFrom, ih, List.length_cons]
      rw [Nat.add_right_comm, Nat.add_assoc]
  unfold sealed
  split <;> [rfl; exact cells]

/-- A run of device memory, cut in two. -/
theorem rawBytes_dev_add (d : Device) (a p n : Nat) :
    rawBytes d ⟨.dev, a⟩ (p + n) = rawBytes d ⟨.dev, a⟩ p ++ rawBytes d ⟨.dev, a + p⟩ n := by
  simp only [rawBytes]
  rw [memBytes_add, sealed_append, memBytes_length]

/-- What the bytes of device memory depend on. -/
def devCells (d : Device) : Mem × List Seal × BitVec 256 := (d.dmem, d.seals, d.imageKey)

theorem rawBytes_dev_congr {d e : Device} (h : devCells d = devCells e) (a n : Nat) :
    rawBytes d ⟨.dev, a⟩ n = rawBytes e ⟨.dev, a⟩ n := by
  have mem : d.dmem = e.dmem := congrArg (·.1) h
  simp only [rawBytes]
  rw [sealed_congr (congrArg (·.2.1) h : d.seals = e.seals) (congrArg (·.2.2) h), mem]

theorem watchAccess_devCells (n : Nat) (a : WatchAccess) (i : Word) (s : State) :
    devCells (watchAccess n a i s).dev = devCells s.dev :=
  watchAccess_keeps (P := fun u => devCells u.dev = devCells s.dev) (fun _ h => h) (fun _ _ _ h => h)
    (fun _ _ _ _ _ _ h => h) n a i rfl

theorem putJoin_devCells (jid : Word) (o n v : Nat) (s : State) : devCells (putJoin jid o n v s).dev = devCells s.dev := by
  simp only [putJoin, onDev, joinLoc, devCells, rawPut_dmem, rawPut_seals, rawPut_key]

theorem traceRecord_devCells (k : TraceKind) (p : List Byte) (s : State) : devCells (traceRecord k p s).dev = devCells s.dev := by
  unfold traceRecord
  split <;> rfl

theorem traceRecord_scr (k : TraceKind) (p : List Byte) (s : State) : (traceRecord k p s).dev.scr = s.dev.scr := by
  unfold traceRecord
  split <;> rfl

theorem lowerDep_dev (tid : Word) (s : State) : (lowerDep tid s).dev = s.dev := by
  unfold lowerDep
  split
  · rfl
  · dsimp only
    split <;> rfl

/-- A write at a home, read back (R188). -/
theorem homePut_reads {s : State} (hs : LogHolds s) (mem : MemoriesOk s) (a : Nat) (bs : List Byte) :
    rawBytes (homePut ⟨.dev, a⟩ bs s).dev ⟨.dev, a⟩ bs.length = bs := by
  have lined : Aside s (match homeOwner s.dev ⟨.dev, a⟩ with
      | some n => logLines n ⟨.dev, a⟩ bs.length s
      | none => s) := by
    split <;> [exact .logLines hs _ _ _; exact .refl s]
  obtain ⟨-, hl, hsc, hd⟩ := lined.memories mem
  exact rawBytes_rawPut (l := ⟨.dev, a⟩) bs hl hsc hd fun _ => nofun

theorem performWrite_reads {s : State} (hs : LogHolds s) (mem : MemoriesOk s) (o : Origin) (kind : Nat) (va : Word) (a : Nat)
    (bs : List Byte) : rawBytes (performWrite o kind va ⟨.dev, a⟩ bs s).dev ⟨.dev, a⟩ bs.length = bs := by
  have logged : Aside s (logWrite o kind false va ⟨.dev, a⟩ (rawBytes s.dev ⟨.dev, a⟩ bs.length) s) := .logWrite ..
  exact (rawBytes_dev_congr (watchAccess_devCells ..) a _).trans (homePut_reads (logged.logHolds hs) (logged.memories mem) a bs)

/-! ## Future words (R221, R222) -/

section
variable {s : State} {a v st : Nat}

/-- Both doublewords of a future word written, read back. -/
theorem putFut_reads (hs : LogHolds s) (mem : MemoriesOk s) (o : Origin) (va : Word) (hv : v < 2 ^ 64) (hst : st < 2 ^ 64) :
    futValue (putFut o va ⟨.dev, a⟩ v st s).dev ⟨.dev, a⟩ = v ∧ futState (putFut o va ⟨.dev, a⟩ v st s).dev ⟨.dev, a⟩ = st := by
  have read := performWrite_reads hs mem o 3 va a (natBytes 8 v ++ natBytes 8 st)
  rw [List.length_append, natBytes_length, natBytes_length, rawBytes_dev_add] at read
  obtain ⟨value, state⟩ := List.append_inj read (by simp [rawBytes, sealed_length])
  rw [futValue, futState, putFut, value, state, bytesNat_natBytes, bytesNat_natBytes]
  exact ⟨Nat.mod_eq_of_lt hv, Nat.mod_eq_of_lt hst⟩

theorem splitServed_parked (l k : Loc) (take : Bool) (id : Nat) (va : Word) (o : Origin) (r : List FutWait) :
    splitServed l (.parked k take id va o :: r) =
      if k = l then
        if take then ([.parked k take id va o], r) else (.parked k take id va o :: (splitServed l r).1, (splitServed l r).2)
      else ((splitServed l r).1, .parked k take id va o :: (splitServed l r).2) := rfl

/-- What an FEPUT serves is parked on its word, and what stays was there. -/
theorem splitServed_mem (l : Loc) (ws : List FutWait) :
    (∀ w ∈ (splitServed l ws).1, w ∈ ws ∧ ∃ take id va o, w = .parked l take id va o) ∧ ∀ w ∈ (splitServed l ws).2, w ∈ ws := by
  induction ws with
  | nil => exact ⟨nofun, nofun⟩
  | cons w r ih =>
    obtain ⟨served, rest⟩ := ih
    have later : ∀ x ∈ (splitServed l r).1, x ∈ w :: r ∧ ∃ take id va o, x = .parked l take id va o := fun x hx =>
      (served x hx).imp_left (List.mem_cons_of_mem w)
    have kept : ∀ x ∈ w :: (splitServed l r).2, x ∈ w :: r := fun x hx =>
      List.mem_cons.2 ((List.mem_cons.1 hx).imp_right (rest x))
    cases w with
    | reg k t => exact ⟨later, kept⟩
    | parked k take id va o =>
      rw [splitServed_parked]
      split
      · next here =>
        subst here
        split
        · refine ⟨fun x hx => ?_, fun x hx => List.mem_cons_of_mem _ hx⟩
          rw [List.mem_singleton.1 hx]
          exact ⟨List.mem_cons_self, _, _, _, _, rfl⟩
        · refine ⟨fun x hx => ?_, fun x hx => List.mem_cons_of_mem _ (rest x hx)⟩
          obtain rfl | hx := List.mem_cons.1 hx
          · exact ⟨List.mem_cons_self, _, _, _, _, rfl⟩
          · exact later x hx
      · exact ⟨later, kept⟩

/-- What an FEPUT leaves in STATE (R222). -/
def putState (d : Device) (l : Loc) : Nat := if futState d l % 2 = 1 then futState d l ||| 3 else futState d l + 1

theorem futState_lt (d : Device) (a : Nat) : futState d ⟨.dev, a⟩ < 2 ^ 64 := by
  have low := bytesNat_lt (rawBytes d ⟨.dev, a + 8⟩ 8)
  rwa [show (rawBytes d ⟨.dev, a + 8⟩ 8).length = 8 by simp [rawBytes, sealed_length]] at low

theorem putState_lt (d : Device) (a : Nat) : putState d ⟨.dev, a⟩ < 2 ^ 64 := by
  have low := futState_lt d a
  unfold putState
  split
  · exact Nat.or_lt_two_pow low (by decide)
  · omega

theorem lowered_dev (tids : List Word) (s : State) : (tids.foldl (fun u t => lowerDep t u) s).dev = s.dev :=
  foldl_kept (P := fun u => u.dev = s.dev) (fun u t h => (lowerDep_dev t u).trans h) tids rfl

/-! ### What an FEPUT leaves beside its word -/

theorem Beside.feReturn (id v : Nat) (s : State) : Beside s (feReturn id v s) := ⟨.onHart rfl, rfl⟩

theorem Beside.lowerDep (tid : Word) (s : State) : Beside s (lowerDep tid s) := by
  unfold Machine.lowerDep
  split
  · exact refl s
  · dsimp only
    split <;> exact ⟨⟨rfl, fun _ h => h, fun _ _ => rfl, id⟩, rfl⟩

section
variable {u : State} (hs : LogHolds s)
include hs

theorem Beside.serveOne (v : Nat) (w : FutWait) (h : Beside s u) : Beside s (serveOne v u w) := by
  cases w with
  | reg k t => exact h
  | parked k take id va o =>
    have returned := (h.trans (feReturn id v u)).trans (watchAccess o.ctx ⟨k, 16, false, some o.core, va⟩ o.icount _)
    exact of_ite (returned.performWrite hs _ _ _ _ _) returned

/-- An FEPUT is the write of its word, the service of what is parked on it, and dependence counters lowered (R222, R254). -/
theorem fePut_steps (o : Origin) (va : Word) (l : Loc) (v : Nat) : ∃ (u : State) (served : List FutWait) (tids : List Word),
    Beside s u ∧ u.dev = { (putFut o va l v (putState s.dev l) s).dev with futs := u.dev.futs } ∧
    (∀ w ∈ served, w ∈ s.dev.futs ∧ ∃ take id va o, w = .parked l take id va o) ∧
    fePut o va l v s = tids.foldl (fun u t => lowerDep t u) (served.foldl (serveOne v) u) := by
  have put : Beside s (putFut o va l v (putState s.dev l) s) := (Beside.refl s).performWrite hs _ _ _ _ _
  obtain ⟨served, rest⟩ := splitServed_mem l (putFut o va l v (putState s.dev l) s).dev.futs
  refine ⟨onDev (fun d => { d with futs := (splitServed l (putFut o va l v (putState s.dev l) s).dev.futs).2.filter fun w =>
    match w with | .reg k _ => k != l | .parked _ _ _ _ _ => true }) (putFut o va l v (putState s.dev l) s), _, _,
    put.trans ⟨.of_dev (fun w hw => rest w (List.mem_of_mem_filter hw)) rfl id, rfl⟩, rfl,
    fun w hw => (served w hw).imp_left (put.1.futs w), rfl⟩

theorem Beside.fePut (o : Origin) (va : Word) (l : Loc) (v : Nat) (h : Beside s u) : Beside s (fePut o va l v u) := by
  obtain ⟨w, served, tids, put, -, -, e⟩ := fePut_steps (h.1.logHolds hs) o va l v
  rw [e]
  exact foldl_kept (fun _ t h => h.trans (lowerDep t _)) _ (foldl_kept (fun _ w h => h.serveOne hs v w) _ (h.trans put))

/-- A request served leaves VALUE as it was put (R222). -/
theorem serveOne_value (mem : MemoriesOk s) {w : FutWait} {take : Bool} {id : Nat} {va : Word} {o : Origin}
    (hw : w = .parked ⟨.dev, a⟩ take id va o) (hv : v < 2 ^ 64) (h : futValue s.dev ⟨.dev, a⟩ = v) :
    futValue (serveOne v s w).dev ⟨.dev, a⟩ = v := by
  subst hw
  have returned : Beside s (watchAccess o.ctx ⟨⟨.dev, a⟩, 16, false, some o.core, va⟩ o.icount (feReturn id v s)) :=
    (Beside.feReturn id v s).trans (.watchAccess ..)
  unfold serveOne
  dsimp only
  split
  · have low := futState_lt (watchAccess o.ctx ⟨⟨.dev, a⟩, 16, false, some o.core, va⟩ o.icount (feReturn id v s)).dev a
    exact (putFut_reads (returned.1.logHolds hs) (returned.1.memories mem) o va hv (by omega)).1
  · exact (congrArg bytesNat (rawBytes_dev_congr (watchAccess_devCells ..) a 8)).trans h

/-- An FEPUT leaves its value (R222). -/
theorem fePut_value (mem : MemoriesOk s) (o : Origin) (va : Word) (hv : v < 2 ^ 64) :
    futValue (fePut o va ⟨.dev, a⟩ v s).dev ⟨.dev, a⟩ = v := by
  obtain ⟨u, served, tids, put, dev, parked, e⟩ := fePut_steps hs o va ⟨.dev, a⟩ v
  have value : futValue u.dev ⟨.dev, a⟩ = v := by
    rw [dev]
    exact (putFut_reads (a := a) hs mem o va hv (putState_lt s.dev a)).1
  have done := List.foldlRecOn (motive := fun u => Beside s u ∧ futValue u.dev ⟨.dev, a⟩ = v) served (serveOne v) ⟨put, value⟩
    fun u h w hw => by
      obtain ⟨-, take, id, va, o, hw⟩ := parked w hw
      exact ⟨h.1.serveOne hs v w, serveOne_value (h.1.1.logHolds hs) (h.1.1.memories mem) hw hv h.2⟩
  rw [e, lowered_dev]
  exact done.2

/-- Where nothing is parked on its word, it leaves its STATE too. -/
theorem fePut_state (mem : MemoriesOk s) (o : Origin) (va : Word) (hv : v < 2 ^ 64)
    (none : ∀ w ∈ s.dev.futs, ∀ k take id va o, w = .parked k take id va o → k ≠ ⟨.dev, a⟩) :
    futState (fePut o va ⟨.dev, a⟩ v s).dev ⟨.dev, a⟩ = putState s.dev ⟨.dev, a⟩ := by
  obtain ⟨u, served, tids, -, dev, parked, e⟩ := fePut_steps hs o va ⟨.dev, a⟩ v
  have nothing : served = [] := List.eq_nil_iff_forall_not_mem.2 fun w hw => by
    obtain ⟨stood, take, id, va, o, hw⟩ := parked w hw
    exact none w stood _ _ _ _ _ hw rfl
  rw [e, lowered_dev, nothing, List.foldl_nil, dev]
  exact (putFut_reads (a := a) hs mem o va hv (putState_lt s.dev a)).2

end

end

/-! ## The join closed (R271) -/

/-- A join closed, once what it waits for is done. -/
def closed (jid : Word) (j : Join) (s : State) : State :=
  joinRecord jid ((j.markers.filter fun k => !isCounted j k.member).foldl (fun s k => freeWindows j.ctx k.core k.lo k.hi s)
    (putJoin jid 5 1 2 s))

theorem closeJoin_cases (jid : Word) (s : State) :
    closeJoin jid s = s ∨ closeJoin jid s = scribeStall s ∨ ∃ j, closeJoin jid s = closed jid j s := by
  unfold closeJoin
  split
  · exact .inl rfl
  · split
    · exact .inl rfl
    · split
      · exact .inr (.inl rfl)
      · exact .inr (.inr ⟨_, rfl⟩)

/-- The windows of members freed leave the device but for its contexts. -/
theorem freedWindows_beside (ctx : Nat) (ks : List Marker) (s : State) :
    Beside s (ks.foldl (fun s k => freeWindows ctx k.core k.lo k.hi s) s) ∧
    ∃ c, (ks.foldl (fun s k => freeWindows ctx k.core k.lo k.hi s) s).dev = { s.dev with ctxs := c } :=
  foldl_kept (P := fun u => Beside s u ∧ ∃ c, u.dev = { s.dev with ctxs := c })
    (fun u k ⟨h, c, e⟩ => ⟨h.trans ⟨.freeWindows .., rfl⟩, _, by rw [freeWindows, onCtx, onDev, e]⟩) ks ⟨.refl s, s.dev.ctxs, rfl⟩

theorem closed_beside (jid : Word) (j : Join) (s : State) : Beside s (closed jid j s) :=
  (Beside.trans ⟨.putJoin jid 5 1 2 s, rfl⟩ (freedWindows_beside ..).1).trans (.traceRecord ..)

theorem closed_devCells (jid : Word) (j : Join) (s : State) : devCells (closed jid j s).dev = devCells s.dev := by
  obtain ⟨-, c, e⟩ := freedWindows_beside j.ctx (j.markers.filter fun k => !isCounted j k.member) (putJoin jid 5 1 2 s)
  refine (traceRecord_devCells ..).trans (Eq.trans ?_ (putJoin_devCells jid 5 1 2 s))
  rw [e]
  rfl

theorem scribeStall_beside (s : State) : Beside s (scribeStall s) := ⟨⟨rfl, fun _ h => h, fun _ _ => rfl, id⟩, rfl⟩

theorem closeJoin_beside (jid : Word) (s : State) :
    Beside s (closeJoin jid s) ∧ devCells (closeJoin jid s).dev = devCells s.dev := by
  obtain e | e | ⟨j, e⟩ := closeJoin_cases jid s
  · rw [e]; exact ⟨.refl s, rfl⟩
  · rw [e]; exact ⟨scribeStall_beside s, rfl⟩
  · rw [e]; exact ⟨closed_beside jid j s, closed_devCells jid j s⟩

/-- JOIN_CLOSE of a join that waits for nothing more, its record having room (R271). -/
theorem execJoinClose_closes {s : State} {jid : Word} {j : Join} (hj : joinOf s jid = some j) (hst : joinState s jid = 1)
    (hall : allResolved s jid = true) (hr : j.toRetract = []) (hc : j.combined = true) (hp : j.posted = true)
    (ht : traceStalls s.hart .join = false) : execJoinClose jid s = .next (closed jid j s) := by
  have found : j.jid = jid := by simpa using List.find?_some hj
  have done : joinDone s j = true := by
    rw [joinDone, found, hst, hall, hr, hc, hp]
    rfl
  simp only [execJoinClose, closeJoin, hj, done, ht, Bool.not_true, Bool.false_eq_true, if_false]
  rfl

/-- It is CLOSED. -/
theorem joinState_closed {s : State} (mem : MemoriesOk s) (jid : Word) (j : Join) : joinState (closed jid j s) jid = 2 := by
  obtain ⟨-, c, e⟩ := freedWindows_beside j.ctx (j.markers.filter fun k => !isCounted j k.member) (putJoin jid 5 1 2 s)
  have scr : (closed jid j s).dev.scr = (putJoin jid 5 1 2 s).dev.scr := by
    rw [closed, joinRecord, traceRecord_scr, e]
  exact (joinField_of_scr scr 5 1).trans (joinField_putJoin mem jid 5 1 2)

/-! ## The post (R267) -/

theorem Beside.settle (s : State) : Beside s (settle s) ∧ (Machine.settle s).dev = s.dev := by
  obtain ⟨_, _, _, _, e⟩ := CachesOnly.settle s
  rw [e]
  exact ⟨⟨⟨rfl, fun _ h => h, fun _ _ => rfl, id⟩, rfl⟩, rfl⟩

/-- The value that a join posts: ARRIVED and ROUND (R267). -/
def postValue (s : State) (jid : Word) : Nat := joinField s jid 28 2 + joinField s jid 6 2 * 2 ^ 16

theorem postValue_lt (s : State) (jid : Word) : postValue s jid < 2 ^ 64 := by
  have field : ∀ o, joinField s jid o 2 < 2 ^ 16 := fun o => by
    have low := bytesNat_lt (rawBytes s.dev { joinLoc jid with off := (joinLoc jid).off + o } 2)
    rwa [show (rawBytes s.dev { joinLoc jid with off := (joinLoc jid).off + o } 2).length = 2 by simp [rawBytes, joinLoc]] at low
  have arrived := field 28
  have round := field 6
  unfold postValue
  omega

/-- A join marked as having posted. -/
def markPosted (jid : Word) (s : State) : State := onJoin jid (fun j => { j with posted := true }) s

theorem markPosted_aside (jid : Word) (s : State) : Aside s (markPosted jid s) := by
  unfold markPosted onJoin
  exact .onClu _ s

/-- The same, the tables of FUT's walk recalled (R219, R267). -/
def posting (jid : Word) (j : Join) (s : State) : State := recallTables j.ctx (joinField s jid 48 8) (markPosted jid s)

/-- The post of a join at the word that its FUT names (R267). -/
def posted (jid : Word) (pa : Nat) (s u : State) : State :=
  settle (closeJoin jid (fePut { originOf u with cov := false } (wordOf (joinField s jid 48 8)) ⟨.dev, pa⟩ (postValue s jid)
    (recallAt ⟨.dev, pa⟩ 16 u)))

section
variable {s : State} {jid : Word} {j : Join}

section
variable (hs : LogHolds s)
include hs

theorem posting_beside : Beside (markPosted jid s) (posting jid j s) :=
  (Beside.refl (markPosted jid s)).recallTables (s := markPosted jid s) hs _ _

theorem posted_beside (pa : Nat) : Beside (markPosted jid s) (posted jid pa s (posting jid j s)) := by
  have marked : LogHolds (markPosted jid s) := hs
  exact (((posting_beside hs).recallAt marked ⟨.dev, pa⟩ 16).fePut marked _ _ _ _).trans
    ((closeJoin_beside ..).1.trans (Beside.settle _).1)

end

variable (hj : joinOf s jid = some j) (hst : joinState s jid = 1) (hc : j.combined = true) (hp : j.posted = false)
  (hx : ctxRuns s j.ctx = true)
include hj hst hc hp hx

/-- JOIN_FUT_POST posts where FUT names a word, and then closes the join if it waited for that only (R267, R271). -/
theorem execJoinFutPost_posts (hs : LogHolds s) (hn : NoLines s j.ctx) {l : Leaf} (hf : joinField s jid 48 8 ≠ 0)
    (hw : walk (posting jid j s).dev j.ctx (joinField s jid 48 8) = some l) :
    execJoinFutPost jid s = .next (posted jid l.pa s (posting jid j s)) := by
  have fits : engFits j.ctx s (posted jid l.pa s (posting jid j s)) = true :=
    ((markPosted_aside jid s).trans (posted_beside hs l.pa).1).engFits hn
  simp only [execJoinFutPost, hj, hst, hc, hp, hx, bne_self_eq_false, Bool.or_self, Bool.not_true, Bool.false_eq_true, if_false]
  unfold posting markPosted at hw
  simp only [hw, hf, if_false]
  exact congrArg _ (engStall_fits fits)

/-- Where FUT names none, it closes the join only. -/
theorem execJoinFutPost_closes (h : joinField s jid 48 8 = 0 ∨ walk (posting jid j s).dev j.ctx (joinField s jid 48 8) = none) :
    execJoinFutPost jid s = .next (closeJoin jid (posting jid j s)) := by
  simp only [execJoinFutPost, hj, hst, hc, hp, hx, bne_self_eq_false, Bool.or_self, Bool.not_true, Bool.false_eq_true, if_false]
  unfold posting markPosted at h ⊢
  obtain zero | none := h
  · simp only [zero, if_true]
    split <;> rfl
  · simp only [none]

/-- The join has posted, and the core stands where it stood. -/
theorem execJoinFutPost_marks (hs : LogHolds s) (hn : NoLines s j.ctx) :
    ∃ t k, execJoinFutPost jid s = .next t ∧ joinOf t jid = some k ∧
    k.posted = true ∧ t.hart.pc = s.hart.pc := by
  have marked : joinOf (markPosted jid s) jid = some { j with posted := true } :=
    joinOf_onJoin hj rfl
  have from' {t : State} (h : Beside (markPosted jid s) t) : ∃ k, joinOf t jid = some k ∧
      k.posted = true ∧ t.hart.pc = s.hart.pc := ⟨_, (h.joinOf jid).trans marked, rfl, h.1.pc⟩
  by_cases h : joinField s jid 48 8 = 0 ∨ walk (posting jid j s).dev j.ctx (joinField s jid 48 8) = none
  · obtain ⟨k, rest⟩ := from' ((posting_beside hs).trans (closeJoin_beside jid _).1)
    exact ⟨_, k, execJoinFutPost_closes hj hst hc hp hx h, rest⟩
  · obtain ⟨hf, hw⟩ := not_or.1 h
    obtain ⟨l, hl⟩ := Option.ne_none_iff_exists'.1 hw
    obtain ⟨k, rest⟩ := from' (posted_beside hs l.pa)
    exact ⟨_, k, execJoinFutPost_posts hj hst hc hp hx hs hn hf hl, rest⟩

end

/-! ### Without update-only lines nothing is recalled (R219) -/

theorem recallAt_of_noUo {s : State} (h : ∀ y ∈ s.clu.cm, y.uo = none) (l : Loc) (n : Nat) : recallAt l n s = s := by
  have none : ∀ p : CmLine → Bool, (s.clu.cm.filter fun x => x.uo.isSome && p x) = [] := fun p =>
    List.filter_eq_nil_iff.2 fun x hx => by simp [h x hx]
  rw [recallAt, uoRecallAll, none]
  rfl

theorem recallTables_of_noUo {s : State} (h : ∀ y ∈ s.clu.cm, y.uo = none) (n va : Nat) : recallTables n va s = s :=
  if_pos (List.all_eq_true.2 fun x hx => by simp [h x hx])

section
variable {s : State} (none : ∀ y ∈ s.clu.cm, y.uo = none) (jid : Word)
include none

theorem markPosted_noUo : ∀ y ∈ (markPosted jid s).clu.cm, y.uo = Option.none := none

theorem posting_of_noUo (j : Join) : posting jid j s = markPosted jid s := recallTables_of_noUo (markPosted_noUo none jid) _ _

variable (hs : LogHolds s) (mem : MemoriesOk s) (pa : Nat)
include hs mem

/-- The future word that FUT names holds ARRIVED and ROUND, and a full STATE (R222, R267). -/
theorem posted_futWord : futValue (posted jid pa s (markPosted jid s)).dev ⟨.dev, pa⟩ = postValue s jid ∧
    ((∀ w ∈ s.dev.futs, ∀ k take id va o, w = .parked k take id va o → k ≠ ⟨.dev, pa⟩) →
      futState (posted jid pa s (markPosted jid s)).dev ⟨.dev, pa⟩ = putState s.dev ⟨.dev, pa⟩) := by
  have recalled : recallAt ⟨.dev, pa⟩ 16 (markPosted jid s) = markPosted jid s :=
    recallAt_of_noUo (markPosted_noUo none jid) _ _
  have cells : devCells (posted jid pa s (markPosted jid s)).dev = devCells (fePut { originOf (markPosted jid s) with cov := false }
      (wordOf (joinField s jid 48 8)) ⟨.dev, pa⟩ (postValue s jid) (markPosted jid s)).dev := by
    rw [posted, recalled, (Beside.settle _).2, (closeJoin_beside ..).2]
  have marked : LogHolds (markPosted jid s) := hs
  refine ⟨?_, fun free => ?_⟩
  · rw [futValue, rawBytes_dev_congr cells]
    exact fePut_value marked mem _ _ (postValue_lt s jid)
  · rw [futState, rawBytes_dev_congr cells]
    exact fePut_state marked mem _ _ (postValue_lt s jid) free

end

end Sys2Proof.Machine
end

section
/-! PROOFS. The reset of a late member (R269), and with it the release of a join. -/

namespace Sys2Proof.Machine

/-! ## The core reset -/

section
variable (s : State)

/-- A core after its reset: x2 and x3 stay, every other scalar register is 0. -/
theorem xr_resetCore (r : Reg) : xr (onHart resetCore s) r =
    if r = 2 then s.hart.regs.x[2] else if r = 3 then s.hart.regs.x[3] else 0 := by
  have unshadowed : inShadow (onHart resetCore s).hart r = false := rfl
  have two : r = 2 ↔ 2 = r.toNat := by rw [BitVec.toNat_eq, eq_comm]; rfl
  have three : r = 3 ↔ 3 = r.toNat := by rw [BitVec.toNat_eq, eq_comm]; rfl
  rw [xr, unshadowed]
  by_cases h0 : r = 0
  · subst h0
    rfl
  · simp only [h0, if_false, Bool.false_eq_true, onHart, resetCore, Vector.getElem_set, Vector.getElem_replicate, two, three]
    by_cases h2 : 2 = r.toNat
    · simp [← h2]
    · simp only [h2, if_false]

theorem vr_resetCore (r : VReg) : vr (onHart resetCore s) r = 0 := by
  have unshadowed : inShadow (onHart resetCore s).hart r = false := rfl
  rw [vr, unshadowed]
  exact Vector.getElem_replicate _

theorem kr_resetCore {q : MSel} (h : q ≠ 0) : kr (onHart resetCore s) q = 0 :=
  (if_neg h).trans (Vector.getElem_replicate _)

theorem slotAt_resetCore {i : Nat} (h : i < 8) : (slotAt (onHart resetCore s) i).st = .idle := by
  simp [slotAt, onHart, resetCore, Vector.getD, h]

end

/-! ## The retraction of the core's member (R268, R270) -/

theorem Aside.retractMine {s u : State} (hs : LogHolds s) (h : Aside s u) : Aside s (retractMine u) := by
  unfold Machine.retractMine
  split
  · exact h
  · next j m _ =>
    have marked := (h.retract hs u.hart.ar.ctx u.hart.ar.core u.hart.tk.win u.hart.tc.ulwin).trans (.setJoinBit j.jid 30 m _)
    dsimp only
    refine Aside.trans ?_ (.onClu _ _)
    exact of_ite ((marked.trans (.setJoinBit j.jid 26 m _)).trans (.unretCounted _ _)) marked

/-- The core has no task of a join but one that runs. -/
theorem run_of_myMember {s : State} {p : Join × Nat} (h : myMember s = some p) : s.hart.tk.run = true := by
  unfold myMember at h
  split at h
  · next runs => exact (Bool.and_eq_true_iff.1 runs).1
  · exact nomatch h

/-- What a retirement other than by the task's own end leaves (R257). -/
theorem retireTask_leaves {s : State} (hr : s.hart.tk.run = true) {how : BitVec 3} (hh : how ≠ 1) (cause : Byte) :
    (retireTask how cause s).hart.tk.lastHow = how ∧ (retireTask how cause s).hart.tk.lastCause = cause ∧
    (retireTask how cause s).hart.tk.run = false ∧ (retireTask how cause s).hart.regs = s.hart.regs ∧
    ∀ w ∈ (retireTask how cause s).dev.futs, w ∈ s.dev.futs := by
  have run : (!s.hart.tk.run) = false := by rw [hr]; rfl
  have left : (!(onClu (fun c => { c with tasks := c.tasks.filter fun t => t.running != some s.hart.ar.core }) s).hart.tk.run) =
      false := run
  simp only [retireTask, endTask, run, left, hh, Bool.false_eq_true, if_false]
  exact ⟨congrArg TaskRegs.lastHow (Aside.traceRecord ..).tk, congrArg TaskRegs.lastCause (Aside.traceRecord ..).tk,
    congrArg TaskRegs.run (Aside.traceRecord ..).tk, (Aside.traceRecord ..).regs, (Aside.traceRecord ..).futs⟩

/-! ## The reset (R269) -/

section
variable {s : State} {jid : Word} {m : Nat} {j : Join} (hj : myMember s = some (j, m)) (hi : j.jid = jid) (hst : joinState s jid = 1)
  (hc : isCounted j m = false) (hw : writesOut s = true) (ht : taskStalls s.hart = false) (hp : s.hart.dbg.stop = none)
  (hg : s.hart.dbg.stepping = none) (hx : ctxRuns s j.ctx = true)
include hj hi hst hc hw ht hp hg hx

/-- The reset of a late member, from the core as it finds it: time has passed, and the homes have dropped what it has parked. -/
theorem execKillTimeoutReset_resets : ∃ u, Aside s u ∧
    (∀ w ∈ u.dev.futs, ∀ l take id va o, w = .parked l take id va o → o.core ≠ s.hart.ar.core) ∧
    execKillTimeoutReset jid m s = .next (onHart resetCore (retireTask 5 0x10 (retractMine u))) := by
  simp only [execKillTimeoutReset, hj, hi, hst, hc, hw, ht, hp, hg, hx, bne_self_eq_false, Bool.or_self, Bool.not_true,
    Option.isSome_none, Bool.false_eq_true, if_false]
  refine ⟨_, ?_, ?_, rfl⟩
  · exact ((Aside.passTime s).trans (.of_dev (fun _ h => h) rfl id)).trans
      (.of_dev (fun w hw => List.mem_of_mem_filter hw) rfl id)
  · rintro w hw l take id va o rfl
    simpa using (List.mem_filter.1 hw).2

/-- What the reset leaves. -/
theorem execKillTimeoutReset_leaves (hs : LogHolds s) : ∃ t, execKillTimeoutReset jid m s = .next t ∧
    t.hart.mid = .tknext none false ∧ t.hart.tk.lastHow = 5 ∧
    t.hart.tk.lastCause = 0x10 ∧ t.hart.tk.run = false ∧ t.hart.mode = .u ∧ t.hart.frame = none ∧ t.hart.held = [] ∧
    (∀ r, xr t r = if r = 2 then s.hart.regs.x[2] else if r = 3 then s.hart.regs.x[3] else 0) ∧ (∀ r, vr t r = 0) ∧
    (∀ q, q ≠ 0 → kr t q = 0) ∧ (∀ i, i < 8 → (slotAt t i).st = .idle) ∧
    ∀ w ∈ t.dev.futs, ∀ l take id va o, w = .parked l take id va o → o.core ≠ s.hart.ar.core := by
  obtain ⟨u, found, dropped, e⟩ := execKillTimeoutReset_resets hj hi hst hc hw ht hp hg hx
  have retracted := (Aside.refl u).retractMine (found.logHolds hs)
  have run : (retractMine u).hart.tk.run = true := by rw [retracted.tk, found.tk, run_of_myMember hj]
  obtain ⟨how, cause, ended, regs, futs⟩ := retireTask_leaves run (how := 5) (by decide) 0x10
  refine ⟨_, e, rfl, how, cause, ended, rfl, rfl, rfl, fun r => ?_, vr_resetCore _, fun q => kr_resetCore _,
    fun i => slotAt_resetCore _, fun w hw => dropped w (retracted.futs w (futs w hw))⟩
  rw [xr_resetCore, regs, retracted.regs, found.regs]

end

/-- Settles O48, from the lemma of each step of the release. -/
theorem joinReleaseMoves : Obligations.JoinReleaseMoves := by
  refine ⟨fun jid tid m j k s hj hst hc hb hk hm mem => ⟨?_, ?_⟩,
    fun jid tid m p j k w s hj hst hc hb hk hw hr ho hm mem hs hn hx => ?_,
    fun jid j s hj hst hc hr hx hs hn => ?_, fun jid j x s hj hst hc hr hx hs hn ht hw hnx hrow => ?_,
    fun jid j s hj hst hc hp hx hs hn => execJoinFutPost_marks hj hst hc hp hx hs hn,
    fun jid j l s hj hst hc hp hx hs hn mem none hf hw => ?_, fun jid j s hj hst hall hr hc hp ht mem => ?_,
    fun jid m j s hj hi hst hc hw ht hp hg hx hs => execKillTimeoutReset_leaves hj hi hst hc hw ht hp hg hx hs⟩
  · exact execKillSignal_running hj hst hc hb hk
  · exact fun hr => execKillSignal_queued hj hst hc hb hk hr hm mem
  · obtain ⟨t, run, gone, killed, peered, aside⟩ := execRetraction_retracts hj hst hc hb hk (p := p) hw hr ho hm mem hs hx
    exact ⟨t, run, gone, killed, peered, aside.regs, aside.pc⟩
  · have combined := combinedElems_beside (jid := jid) (j := j) hs
    exact ⟨_, _, execJoinCombine_combines hj hst hx hs hn hc hr, joinOf_onJoin ((combined.joinOf jid).trans hj) rfl, rfl,
      combined.1.regs, combined.1.pc⟩
  · exact ⟨_, execJoinCombine_combines hj hst hx hs hn hc hr, fun e he => (combining_all ht hw hrow hnx).reads he⟩
  · have same := posting_of_noUo none jid j
    obtain ⟨value, state⟩ := posted_futWord none jid hs mem l.pa
    refine ⟨_, execJoinFutPost_posts hj hst hc hp hx hs hn hf (by rw [same]; exact hw), ?_, ?_⟩
    · rw [same]; exact value
    · rw [same]; exact state
  · have close := closed_beside jid j s
    exact ⟨_, execJoinClose_closes hj hst hall hr hc hp ht, joinState_closed mem jid j, close.1.regs, close.1.pc⟩

end Sys2Proof.Machine
end

section
/-! SUPPORT. What the opening of a window leaves of the machine (R266, R389). -/

namespace Sys2Proof.Machine

/-- `u` is `s` but for the trace registers, the markers of joins and the contexts. -/
def WindowsOnly (s u : State) : Prop := ∃ tc joins ctxs, u = { s with
  hart := { s.hart with tc := tc }, clu := { s.clu with joins := joins }, dev := { s.dev with ctxs := ctxs } }

/-- A window opened is as quiet, and changes the trace registers, the markers of joins and the core's context only (R266, R389). -/
theorem openWindow_leaves (mark : Bool) (s : State) : SameMode s (openWindow mark s) ∧ WindowsOnly s (openWindow mark s) := by
  unfold openWindow
  split
  · exact ⟨.refl s, s.hart.tc, s.clu.joins, s.dev.ctxs, rfl⟩
  · extract_lets member u
    have only : SameMode s u ∧ ∃ joins, u = { s with clu := { s.clu with joins := joins } } := by
      unfold u
      split
      · exact ⟨.onClu _ s, _, rfl⟩
      · exact ⟨.refl s, s.clu.joins, rfl⟩
    clear_value u
    obtain ⟨mode, joins, rfl⟩ := only
    refine ⟨?_, _, joins, _, rfl⟩
    exact (mode.trans (.onHart rfl rfl)).trans (.onCtx_same fun _ => ⟨rfl, rfl, rfl⟩)

/-- The windows that a release opens, likewise (R389). -/
theorem openWindows_leaves (n : Nat) (s : State) : SameMode s (openWindows n s) ∧ WindowsOnly s (openWindows n s) := by
  obtain ⟨mode, tc, joins, ctxs, e⟩ := openWindow_leaves false s
  refine ⟨mode.trans (.onCtx_same fun _ => ⟨rfl, rfl, rfl⟩), tc, joins, ?_⟩
  unfold openWindows
  rw [e]
  exact ⟨_, rfl⟩

end Sys2Proof.Machine
end

section
/-! PROOFS. Supersteps (R242 to R246). -/

namespace Sys2Proof.Machine

@[simp] theorem wentOn_ss (s u : State) : (wentOn s u).hart.ss = u.hart.ss := by
  obtain ⟨p, f, e⟩ := wentOn_flow s u; rw [e]; rfl

section
variable {s : State}

theorem phaseCheck_holds {ph : Bool} (h : s.hart.ss.ph = ph) : phaseCheck s ph = .ok () := if_pos (beq_iff_eq.2 h)

/-- In the other phase the check raises Phase with the count (R246). -/
theorem phaseCheck_refused {ph : Bool} (h : s.hart.ss.ph = !ph) :
    phaseCheck s ph = .error (.phase, s.hart.ss.count.setWidth 64, 0) := if_neg (by rw [h]; cases ph <;> decide)

/-! ## The barrier's arrivals and its passing (R242, R244, R246) -/

/-- A first arrival is one more of slot 8, in the phase and at the scope of the level (R242, R246). -/
theorem superArrive_sends (h : superArrived s = false) : ∃ v, (superArrive s).hart.mid = .sstep ∧
    (superArrive s).hart.pc = s.hart.pc ∧ (superArrive s).clu.arrivals = s.clu.arrivals ++ [v] ∧ v.slot = 8 ∧
    v.phase = s.hart.ss.phase ∧ v.scope = levelScope s.hart.ss.level := by
  unfold superArrive
  rw [h]
  exact ⟨_, rfl, rfl, rfl, rfl, rfl, rfl⟩

/-- Past the release the phase is entered, and the rest of the core goes on (R246, R389). -/
theorem superPass_passes (sc : Scope) (f : Superstep → Superstep) (hl : loadsDone s (s.hart.nextSeq + 1) = true) (hq : Quiet s) :
    ∃ t, superPass sc f s = .next t ∧ t.hart.ss = f { s.hart.ss with released := false } ∧ t.hart.mid = .none ∧
      t.hart.regs = s.hart.regs ∧ t.hart.ar = s.hart.ar ∧ FlowsOn s t := by
  have passes : (sc != .core && !loadsDone s (s.hart.nextSeq + 1)) = false := by rw [hl, Bool.not_true, Bool.and_false]
  have entered : SameMode s (onHart (fun h => { h with mid := .none, ss := f { h.ss with released := false } }) s) := .onHart rfl rfl
  have caches := CachesOnly.acquireMoves sc (onHart (fun h => { h with mid := .none, ss := f { h.ss with released := false } }) s)
  obtain ⟨windows, only⟩ := openWindows_leaves s.hart.ss.record.count.toNat
    (acquireMoves sc (onHart (fun h => { h with mid := .none, ss := f { h.ss with released := false } }) s))
  refine ⟨_, (if_neg (Bool.eq_false_iff.1 passes)).trans (((entered.trans caches.sameMode).trans windows).finish [] hq), ?_⟩
  obtain ⟨_, _, _, e⟩ := only
  obtain ⟨_, _, _, _, a⟩ := caches
  rw [e, a]
  exact ⟨wentOn_ss _ _, wentOn_mid _ _, wentOn_regs _ _, wentOn_ar _ _, flowsOn_wentOn rfl rfl⟩

/-! ## The instructions (R246) -/

theorem execSexch_compute (hp : s.hart.ss.ph = false) : execSexch s =
    if s.hart.mid != .sstep then .next (superArrive s)
    else if !s.hart.ss.released then superHold s
    else if !s.hart.tc.scribe.isEmpty then holdScribe s
    else superPass (levelScope s.hart.ss.level) (fun x => { x with ph := true }) s := by
  rw [execSexch, phaseCheck_holds hp, afterChecks]

theorem execSsync_exchange (hp : s.hart.ss.ph = true) : execSsync s =
    if s.hart.mid != .sstep then (if exchangePending s then holdCounted 5 s else .next (superArrive s))
    else if !s.hart.ss.released then superHold s
    else superPass (levelScope (widerLevel s.hart.ss.level s.hart.ss.next))
      (fun x => { x with level := x.next, ph := false, count := x.count + 1 }) s := by
  rw [execSsync, phaseCheck_holds hp, afterChecks]

theorem execSdom_sets {a : Reg} (hp : s.hart.ss.ph = true) (hv : (xr s a).toNat ≤ 5) (hq : Quiet s) : execSdom a s =
    .next (wentOn s (markEffect (onHart (fun h => { h with ss := { h.ss with next := (xr s a).setWidth 3 } }) s))) := by
  rw [execSdom, phaseCheck_holds hp]
  simp only [check, hv, decide_true, if_true, bind, Except.bind, afterChecks]
  exact ((SameMode.onHart rfl rfl).trans (.markEffect _)).finish [] hq

theorem execSdom_refused {a : Reg} (hp : s.hart.ss.ph = true) (hv : 5 < (xr s a).toNat) :
    execSdom a s = trapOf (.protection, xr s a, 0) s := by
  have wide : decide ((xr s a).toNat ≤ 5) = false := decide_eq_false (by omega)
  rw [execSdom, phaseCheck_holds hp]
  simp only [check, wide, bind, Except.bind, afterChecks, Bool.false_eq_true, if_false]

theorem execSdom_compute {a : Reg} (hp : s.hart.ss.ph = false) :
    execSdom a s = trapOf (.phase, s.hart.ss.count.setWidth 64, 0) s := by
  rw [execSdom, phaseCheck_refused hp]
  rfl

/-! ## The release (R244) -/

/-- A superstep whose members have all arrived, released. -/
theorem execSuperstepRelease_releases (h : superReleases s = true) : ∃ t, execSuperstepRelease s = .next t ∧
    t.hart.ss.released = true ∧ t.clu = releaseMembers (superCounted s) s.clu ∧ t.hart.ss.phase = s.hart.ss.phase + 1 ∧
    t.hart.ss.record.slot = 8 ∧ t.hart.regs = s.hart.regs ∧ t.hart.pc = s.hart.pc := by
  have releases : (!superReleases s) = false := by rw [h]; rfl
  simp only [execSuperstepRelease, releases, Bool.false_eq_true, if_false]
  refine ⟨_, rfl, ?_⟩
  split
  · obtain ⟨tc, hart, clu⟩ := traceRecord_leaves .superstep _ _
    rw [hart, clu]
    exact ⟨rfl, rfl, rfl, rfl, rfl, rfl⟩
  · exact ⟨rfl, rfl, rfl, rfl, rfl, rfl⟩

end

/-- Settles O44: an arrival, a passing, a refused phase and a release are one lemma each. -/
theorem superstepInstructions : Obligations.SuperstepInstructions := by
  refine ⟨fun s hp hm ha => ?_, fun s hp hm hr hs hl hq => ?_, fun s hp hm he ha => ?_, fun s hp hm hr hl hq => ?_, fun s hp => ?_,
    fun s hp => ?_, fun a s hp hv hq => execSdom_sets hp hv hq, fun a s hp hv => execSdom_refused hp hv,
    fun a s hp => execSdom_compute hp, fun s hr => ?_⟩
  · obtain ⟨v, sent⟩ := superArrive_sends ha
    exact ⟨_, v, (execSexch_compute hp).trans (if_pos (bne_iff_ne.2 hm)), sent⟩
  · obtain ⟨t, run, rest⟩ := superPass_passes (levelScope s.hart.ss.level) (fun x => { x with ph := true }) hl hq
    refine ⟨t, Eq.trans ?_ run, rest⟩
    exact (execSexch_compute hp).trans (by simp [hm, hr, hs])
  · obtain ⟨v, mid, pc, arrivals, slot, -⟩ := superArrive_sends ha
    refine ⟨_, v, ?_, mid, pc, arrivals, slot⟩
    exact (execSsync_exchange hp).trans (by simp [hm, he])
  · obtain ⟨t, run, rest⟩ := superPass_passes (levelScope (widerLevel s.hart.ss.level s.hart.ss.next))
      (fun x => { x with level := x.next, ph := false, count := x.count + 1 }) hl hq
    refine ⟨t, Eq.trans ?_ run, rest⟩
    exact (execSsync_exchange hp).trans (by simp [hm, hr])
  · change execSexch s = _
    rw [execSexch, phaseCheck_refused hp]
    rfl
  · change execSsync s = _
    rw [execSsync, phaseCheck_refused hp]
    rfl
  · obtain ⟨t, run, released, clu, rest⟩ := execSuperstepRelease_releases hr
    exact ⟨t, run, released, by rw [clu]; rfl, by rw [clu]; rfl, rest⟩

end Sys2Proof.Machine
end

section
/-! PROOFS. The task instructions (R247 to R260). -/

namespace Sys2Proof.Machine

/-- A trace record keeps a state as quiet as it was (R402). -/
theorem SameMode.traceRecord (k : TraceKind) (p : List Byte) (s : State) : SameMode s (traceRecord k p s) :=
  of_ite ((passTime s).trans (onHart rfl rfl)) (refl s)

@[simp] theorem wentOn_tk (s u : State) : (wentOn s u).hart.tk = u.hart.tk := by
  obtain ⟨p, f, e⟩ := wentOn_flow s u; rw [e]; rfl

/-! ## Retiring (R257) -/

/-- What the end of a task leaves: no task is current, and the registers and the flow are as they were. -/
structure TaskEnded (s u : State) : Prop where
  mode : SameMode s u
  run : u.hart.tk.run = false
  regs : u.hart.regs = s.hart.regs
  pc : u.hart.pc = s.hart.pc

theorem endTask_ends (how : BitVec 3) (cause : Byte) (s : State) : TaskEnded s (endTask how cause s) := by
  by_cases run : s.hart.tk.run = true
  · have goes : (!s.hart.tk.run) = false := by rw [run]; rfl
    simp only [endTask, goes, Bool.false_eq_true, if_false]
    exact ⟨.trans (.onHart rfl rfl) (.traceRecord ..), congrArg TaskRegs.run (Aside.traceRecord ..).tk, traceRecord_regs ..,
      traceRecord_pc ..⟩
  · rw [endTask, if_pos (by simpa using run)]
    exact ⟨.refl s, Bool.eq_false_iff.2 run, rfl, rfl⟩

theorem SameMode.freeWindows (n core : Nat) (lo hi : BitVec 16) (s : State) : SameMode s (freeWindows n core lo hi s) :=
  onCtx_same fun c => by split <;> exact ⟨rfl, rfl, rfl⟩

theorem retireTask_ends (how : BitVec 3) (cause : Byte) (s : State) : TaskEnded s (retireTask how cause s) := by
  unfold retireTask
  by_cases run : s.hart.tk.run = true
  · rw [if_neg (by simp [run])]
    extract_lets me u
    have freed : SameMode s u ∧ u.hart = s.hart := by
      unfold u
      split
      · exact ⟨.freeWindows .., rfl⟩
      · exact ⟨.refl s, rfl⟩
    clear_value u
    obtain ⟨mode, hart⟩ := freed
    obtain ⟨ends, stopped, regs, pc⟩ := endTask_ends how cause (onClu (fun c => { c with
      tasks := c.tasks.filter fun t => t.running != some me }) u)
    exact ⟨(mode.trans (.onClu _ u)).trans ends, stopped, regs.trans (congrArg Hart.regs hart), pc.trans (congrArg Hart.pc hart)⟩
  · rw [if_pos (by simpa using run)]
    exact ⟨.refl s, Bool.eq_false_iff.2 run, rfl, rfl⟩

/-- A state as quiet as a quiet one has no DEBUG mode context (R392). -/
theorem SameMode.mode_ne {s u : State} (h : SameMode s u) (hq : Quiet s) : ∀ c, curCtx u = some c → c.mode ≠ 2 := by
  obtain ⟨hc, -, hm⟩ := h
  intro c hu
  have e := hm s.hart.ar.ctx
  rw [curCtx, hc] at hu
  rw [hu, Option.map_some] at e
  obtain ⟨k, hk, hkm⟩ := Option.map_eq_some_iff.1 e.symm
  exact hkm ▸ hq.2 k hk

theorem killPoint_goesOn {s : State} (h : mustDie s = false) (k : State → Out) : killPoint s k = k s :=
  if_neg (Bool.eq_false_iff.1 h)

section
variable {s : State} {d a b : Reg}

/-- TKNEXT of a thread that does not wait yet retires its task (R257). -/
theorem execTknext_retires (hm : ∀ x k, s.hart.mid ≠ .tknext x k) (ha : mustArrive s = none) (hd : mustDie s = false)
    (ht : taskStalls s.hart = false) :
    execTknext d s = .next (onHart (fun h => { h with mid := .tknext (some d) false }) (retireTask 1 0 s)) := by
  unfold execTknext
  split
  · next x k e => exact absurd e (hm x k)
  · rw [ha]
    exact (if_neg (Bool.eq_false_iff.1 ht)).trans (killPoint_goesOn hd _)

theorem execTkend_retires (ha : mustArrive s = none) (hd : mustDie s = false) (ht : taskStalls s.hart = false) (hq : Quiet s) :
    execTkend s = .next (wentOn s (retireTask 1 0 s)) := by
  rw [execTkend, ha]
  exact (if_neg (Bool.eq_false_iff.1 ht)).trans ((killPoint_goesOn hd _).trans ((retireTask_ends 1 0 s).mode.finish [] hq))

/-- TKYIELD of a thread that does not wait yet, whose task has had no effect (R253, R258). -/
theorem execTkyield_yields (hm : ∀ x k, s.hart.mid ≠ .tknext x k) (he : (s.hart.tk.run && s.hart.tk.effect) = false)
    (hd : mustDie s = false) (ht : taskStalls s.hart = false) :
    execTkyield s = .next (onHart (fun h => { h with mid := .tknext (some 0) false }) (yieldTask s)) := by
  unfold execTkyield
  split
  · next x k e => exact absurd e (hm x k)
  · exact (if_neg (Bool.eq_false_iff.1 he)).trans ((if_neg (Bool.eq_false_iff.1 ht)).trans (killPoint_goesOn hd _))

/-! ## Waiting for a task (R252, R257) -/

/-- A core that may be given a task stands in a TKNEXT (R251). -/
theorem mid_of_awaitsTask {p : Option Reg × Bool} (h : awaitsTask s = some p) : s.hart.mid = .tknext p.1 p.2 := by
  unfold awaitsTask at h
  split at h
  · next x k e =>
    split at h
    · cases h
      exact e
    · exact nomatch h
  · exact nomatch h

/-- Without work left, a thread that waits goes on with 0 in its register (R252). -/
theorem tknextWait_noWork {r : Reg} {k : Bool} (h : awaitsTask s = some (some r, k)) (hn : noWork s = true) (hq : Quiet s) :
    tknextWait (some r) k s = .next (wentOn s (onHart (fun h => { h with mid := .none }) (setX r 0 s))) := by
  have mode : SameMode s (onHart (fun h => { h with mid := .none }) (setX r 0 s)) := (SameMode.setX r 0 s).trans (.onHart rfl rfl)
  obtain ⟨p, f, e⟩ := advance_only (onHart (fun h => { h with mid := .none }) (setX r 0 s)).hart
  have flow : SameMode s (onHart advance (onHart (fun h => { h with mid := .none }) (setX r 0 s))) :=
    mode.trans (.onHart (by rw [e]) (by rw [e]))
  rw [tknextWait, h]
  exact (if_pos hn).trans (congrArg _ (retired_quiet _ _ hq (flow.mode_ne hq) flow.2.1))

theorem execTknext_noWork {r : Reg} {k : Bool} (h : awaitsTask s = some (some r, k)) (hn : noWork s = true) (hq : Quiet s) :
    execTknext d s = .next (wentOn s (onHart (fun h => { h with mid := .none }) (setX r 0 s))) := by
  rw [execTknext, mid_of_awaitsTask h]
  exact tknextWait_noWork h hn hq

theorem execTkyield_noWork {r : Reg} {k : Bool} (h : awaitsTask s = some (some r, k)) (hn : noWork s = true) (hq : Quiet s) :
    execTkyield s = .next (wentOn s (onHart (fun h => { h with mid := .none }) (setX r 0 s))) := by
  rw [execTkyield, mid_of_awaitsTask h]
  exact tknextWait_noWork h hn hq

/-! ## TKSPAWN (R256) -/

theorem SameMode.spawn (t : Task) (s : State) : SameMode s (spawn t s) := of_ite (onClu _ s) ((onClu _ s).trans (onClu _ _))

/-- TKSPAWN whose record is legal and whose release is complete: at 64 it answers 0, else the task's identifier (R256). -/
theorem execTkspawn_spawns {r : List Byte} (hc : tkspawnCheck s (xr s a) = .ok r) (hr : released s .clu (s.hart.nextSeq + 1) = true)
    (hq : Quiet s) : execTkspawn d a s = if 64 ≤ spawned s then .next (wentOn s (markEffect (setX d 0 s)))
      else .next (wentOn s (markEffect (setX d (taskOfRecord s r).tid (spawn (taskOfRecord s r) s)))) := by
  have full := ((SameMode.setX d 0 s).trans (.markEffect _)).finish [d.toNat] hq
  have placed := (((SameMode.spawn (taskOfRecord s r) s).trans (.setX d (taskOfRecord s r).tid _)).trans (.markEffect _)).finish
    [d.toNat] hq
  rw [execTkspawn, hc, afterChecks]
  simp only [hr, Bool.not_true, Bool.false_eq_true, if_false, finishFx, full, placed, ge_iff_le]

/-! ## TKDEP and TKSTAT (R255, R259, R260) -/

theorem SameMode.onTask (tid : Word) (f : Task → Task) (s : State) : SameMode s (onTask tid f s) := onClu _ s

theorem SameMode.lowerDep (tid : Word) (s : State) : SameMode s (lowerDep tid s) := by
  unfold Machine.lowerDep
  split
  · exact refl s
  · exact of_ite ((onTask tid _ s).trans ((onClu _ _).trans (onClu _ _))) (onTask tid _ s)

theorem execTkdep_clears (h : heldTask s (xr s a) = true) (hq : Quiet s) : execTkdep d a 0 s =
    .next (wentOn s (markEffect (setX d 2 (lowerDep (xr s a) (onTask (xr s a) (fun t => { t with hold := false }) s))))) := by
  rw [execTkdep]
  simp only [check, h, if_true, bind, Except.bind, afterChecks]
  exact ((((SameMode.onTask _ _ s).trans (.lowerDep _ _)).trans (.setX d 2 _)).trans (.markEffect _)).finish [d.toNat] hq

/-- TKDEP on a future that nothing stands before at its home tests it there (R255). -/
theorem execTkdep_tests {x : Access} {u : State} (h : heldTask s (xr s a) = true) (hb : b ≠ 0) (hc : feCheck s (xr s b) = .ok (x, u))
    (hh : homeBehind s x.loc 16 = false) (hm : cmFind s.clu x.loc = none) (hq : Quiet s) (hu : Quiet u) : execTkdep d a b s =
      .next (wentOn s (markEffect (setX d (tkdepTest (xr s a) x.loc u).1 (tkdepTest (xr s a) x.loc u).2))) := by
  have tested : SameMode u (tkdepTest (xr s a) x.loc u).2 := by
    unfold tkdepTest
    split
    · exact .refl u
    · exact (SameMode.onTask _ _ u).trans (.of_dev rfl)
  rw [execTkdep]
  simp only [check, h, if_true, bind, Except.bind, hb, if_false, hc, Except.map, afterChecks, hh, hm, Bool.false_eq_true,
    Option.isSome_none]
  exact (TrapsAs.feCheck hc).finish ((tested.trans (.setX d _ _)).trans (.markEffect _)) [d.toNat] hq hu

theorem execTkdep_refused (h : heldTask s (xr s a) = false) : execTkdep d a b s = trapOf (.protection, xr s a, 0) s := by
  rw [execTkdep]
  simp only [check, h, bind, Except.bind, afterChecks, Bool.false_eq_true, if_false]

/-- TKSTAT reads a task of the own launch, else 0 (R260). -/
theorem execTkstat_reads : execTkstat d a s = finish s [d.toNat] (setX d (match taskById s (xr s a) with
    | some k => if k.launch = myLaunch s then BitVec.ofNat 64 (taskCode k) else 0
    | none => 0) s) := by
  unfold execTkstat
  cases taskById s (xr s a) with
  | none => rfl
  | some k => by_cases own : k.launch = myLaunch s <;> simp [own, wordOf]

end

/-- Settles O45: each instruction by its lemma. -/
theorem taskInstructionsComplete : Obligations.TaskInstructionsComplete := by
  refine ⟨fun d a r s hc hr hq => ⟨fun full => ?_, fun room => ?_⟩, fun d s hm ha hd ht => ?_,
    fun d r k s h hn hq => ⟨execTknext_noWork h hn hq, execTkyield_noWork h hn hq⟩, fun s ha hd ht hq => ?_,
    fun s hm he hd ht => execTkyield_yields hm he hd ht, fun d a s h hq => execTkdep_clears h hq,
    fun d a b x s u h hb hc hh hm hq hu => ⟨fun full => ?_, fun empty => ?_⟩, fun d a b s h => execTkdep_refused h, fun d a s hq => ?_⟩
  · exact (execTkspawn_spawns hc hr hq).trans (if_pos full)
  · exact (execTkspawn_spawns hc hr hq).trans (if_neg (Nat.not_le.2 room))
  · obtain ⟨-, run, regs, pc⟩ := retireTask_ends 1 0 s
    exact ⟨_, execTknext_retires hm ha hd ht, rfl, pc, regs, run⟩
  · obtain ⟨-, run, regs, -⟩ := retireTask_ends 1 0 s
    exact ⟨_, execTkend_retires ha hd ht hq, rfl, (congrArg TaskRegs.run (wentOn_tk _ _)).trans run, (wentOn_regs _ _).trans regs⟩
  · have tested := execTkdep_tests (d := d) h hb hc hh hm hq hu
    rwa [tkdepTest, if_pos full] at tested
  · have tested := execTkdep_tests (d := d) h hb hc hh hm hq hu
    rwa [tkdepTest, if_neg (Bool.eq_false_iff.1 empty)] at tested
  · exact exec_setX_completes (i := .tkstat d a) execTkstat_reads hq

end Sys2Proof.Machine
end

section
/-! PROOFS. The task queue's moves (R249 to R252, R278). -/

namespace Sys2Proof.Machine

/-- A scalar register is read of the register files, through the shadow bank in a handler (R75, R206). -/
theorem xr_congr {s u : State} (hr : u.hart.regs = s.hart.regs) (hi : u.hart.ui = s.hart.ui) (r : Reg) : xr u r = xr s r := by
  unfold xr inShadow
  rw [hr, hi]

/-- A task that starts changes the task and trace registers of the core; it runs, with its identifier (R251, R261). -/
theorem startTask_leaves (t : Task) (s : State) : SameMode s (startTask t s) ∧
    (∃ tk tc, (startTask t s).hart = { s.hart with tk := tk, tc := tc } ∧ tk.run = true ∧ tk.tid = t.tid) := by
  unfold startTask
  extract_lets win late u v
  obtain ⟨opened, tc, joins, ctxs, e⟩ := openWindow_leaves false u
  have started : SameMode s u := .onHart rfl rfl
  have core : v.hart = { u.hart with tc := tc } := congrArg State.hart e
  split
  · exact ⟨started.trans opened, u.hart.tk, tc, core, rfl, rfl⟩
  · exact ⟨(started.trans opened).trans (.onClu _ v), u.hart.tk, tc, core, rfl, rfl⟩

section
variable {s s1 u : State} {x : Task} {d : Option Reg} {k : Bool}

/-- What the dispatch of a task with its footprint fetched leaves of the core (R251, R257). -/
def dispatched (d : Option Reg) (x : Task) (u : State) : State :=
  setPc x.entry (onHart (fun h => { h with mid := .none, frame := none })
    (setX (d.getD 0) x.tid (setX 5 x.hi (setX 4 x.lo (startTask x (acquireMoves .clu u))))))

theorem SameMode.dispatched (d : Option Reg) (x : Task) (u : State) : SameMode u (dispatched d x u) :=
  ((((((CachesOnly.acquireMoves .clu u).sameMode.trans (startTask_leaves x _).1).trans (setX 4 x.lo _)).trans
    (setX 5 x.hi _)).trans (setX (d.getD 0) x.tid _)).trans (onHart rfl rfl)).trans (onHart rfl rfl)

theorem runTask_dispatches (hf : fetchFootprint s1.hart.ar.core x s1 = .ok u) (hm : ∀ c, curCtx u = some c → c.mode ≠ 2)
    (hh : u.hart = s.hart) (hq : Quiet s) : runTask d k x s s1 = .next (ended s (dispatched d x u)) := by
  have quiet : Quiet u := ⟨by rw [hh]; exact hq.1, hm⟩
  have mode := SameMode.dispatched d x u
  rw [runTask, hf]
  exact congrArg _ (retired_quiet _ k hq (mode.mode_ne quiet) (mode.2.1.trans (by rw [hh])))

/-- What a dispatched core then holds. -/
theorem dispatched_leaves (d : Option Reg) (x : Task) (u : State) : (dispatched d x u).hart.pc = x.entry ∧
    (dispatched d x u).hart.mid = .none ∧ (dispatched d x u).hart.tk.run = true ∧ (dispatched d x u).hart.tk.tid = x.tid ∧
    ∀ r, xr (dispatched d x u) r = if r ≠ 0 ∧ some r = d then x.tid else if r = 4 then x.lo else if r = 5 then x.hi else xr u r := by
  obtain ⟨-, tk, tc, core, run, tid⟩ := startTask_leaves x (acquireMoves .clu u)
  have files : ∀ a v w, ∃ regs, (setX a v w).hart = { w.hart with regs := regs } := fun a v w => by
    obtain ⟨y, ysh, e⟩ := setX_only a v w
    exact ⟨{ w.hart.regs with x := y, xsh := ysh }, by rw [e]⟩
  have tasks : (dispatched d x u).hart.tk = tk := by
    obtain ⟨_, e4⟩ := files 4 x.lo (startTask x (acquireMoves .clu u))
    obtain ⟨_, e5⟩ := files 5 x.hi (setX 4 x.lo (startTask x (acquireMoves .clu u)))
    obtain ⟨_, ed⟩ := files (d.getD 0) x.tid (setX 5 x.hi (setX 4 x.lo (startTask x (acquireMoves .clu u))))
    simp only [dispatched, setPc, onHart_hart, ed, e5, e4, core]
  have before : ∀ r, xr (startTask x (acquireMoves .clu u)) r = xr u r := fun r => by
    refine xr_congr ?_ ?_ r <;> rw [core] <;> rfl
  refine ⟨rfl, rfl, by rw [tasks, run], by rw [tasks, tid], fun r => ?_⟩
  have named : (r ≠ 0 ∧ some r = d) ↔ (r = d.getD 0 ∧ r ≠ 0) := by
    cases d <;> simp [and_comm]
  have read : xr (dispatched d x u) r = xr (setX (d.getD 0) x.tid (setX 5 x.hi (setX 4 x.lo (startTask x (acquireMoves .clu u))))) r :=
    rfl
  rw [read, xr_setX, xr_setX, xr_setX, before]
  simp only [named]
  refine if_congr Iff.rfl rfl ?_
  rcases eq_or_ne r 5 with rfl | five
  · rfl
  · rw [if_neg (fun h => five h.1), if_neg five]
    rcases eq_or_ne r 4 with rfl | four
    · rfl
    · rw [if_neg (fun h => four h.1), if_neg four]

/-- The queue gives its next task to the core that waits (R249 to R251). -/
theorem execTaskDispatch_own (ha : awaitsTask s = some (d, k)) (hn : nextTask s s.hart.ar.core = some x) :
    execTaskDispatch s.hart.ar.core s =
      runTask d k (giveTask x s.hart.ar.core s).1 s (giveTask x s.hart.ar.core s).2 := by
  rw [execTaskDispatch, if_pos rfl, ha, hn]

theorem giveTask_hart (x : Task) (c : Nat) (s : State) : (giveTask x c s).2.hart = s.hart := by
  unfold giveTask
  split <;> rfl

/-- The queue gives its next task to another core, while the context runs (R249, R278). -/
theorem execTaskDispatch_other {c : Nat} {y : Context} (hc : c ≠ s.hart.ar.core) (hm : c ∈ s.clu.members)
    (hk : clusterOfCore c = s.hart.ar.cluster) (hr : runningOn s c = none) (hn : nextTask s c = some x) (hy : curCtx s = some y)
    (hx : ctxRuns s s.hart.ar.ctx = true) (hf : fetchFootprint c (giveTask x c s).1 (giveTask x c s).2 = .ok u) :
    ∃ t, execTaskDispatch c s = .next t ∧ t.hart = u.hart ∧ ((giveTask x c s).1.join = 0 → t.clu = u.clu) := by
  have member : s.clu.members.contains c = true := List.contains_iff_mem.2 hm
  rw [execTaskDispatch]
  simp only [hc, if_false, member, hk, hx, bne_self_eq_false, Bool.not_true, Bool.or_self, Bool.false_eq_true, hr, hn, hy, hf]
  refine ⟨_, rfl, ?_, fun none => ?_⟩
  · split <;> rfl
  · rw [if_pos none]
    rfl

end

/-- Settles O46: a dispatch to the core is the start of the task chosen; the other moves are an update each. -/
theorem taskQueueMoves : Obligations.TaskQueueMoves := by
  refine ⟨fun d k x s u ha hn hf hq hm hh => ?_, fun c x k s u hc hm hk hr hn hy hx hf => ?_, fun us s hx => ?_⟩
  · obtain ⟨pc, mid, run, tid, regs⟩ := dispatched_leaves d (giveTask x s.hart.ar.core s).1 u
    refine ⟨_, (execTaskDispatch_own ha hn).trans (runTask_dispatches ?_ hm hh hq), pc, mid, run, tid, fun r => ?_⟩
    · rw [giveTask_hart]
      exact hf
    · rw [xr_ended, regs, xr_congr (congrArg Hart.regs hh) (congrArg Hart.ui hh)]
  · exact execTaskDispatch_other hc hm hk hr hn hy hx hf
  · exact if_neg (by simp [hx])

end Sys2Proof.Machine
end

section
/-! SUPPORT. Effects beside the registers and the flow of a core: how an instruction with such an effect and a result ends. -/

namespace Sys2Proof.Machine

/-- `u` is `s` after an effect that leaves the registers and the flow of the core. -/
structure FlowKept (s u : State) : Prop where
  mode : SameMode s u
  regs : u.hart.regs = s.hart.regs
  ui : u.hart.ui = s.hart.ui
  pc : u.hart.pc = s.hart.pc
  frame : u.hart.frame = s.hart.frame

@[simp] theorem setX_mid (d : Reg) (w : Word) (s : State) : (setX d w s).hart.mid = s.hart.mid := by
  obtain ⟨x, xsh, e⟩ := setX_only d w s
  rw [e]

namespace FlowKept

variable {s u v : State}

theorem refl (s : State) : FlowKept s s := ⟨.refl s, rfl, rfl, rfl, rfl⟩

theorem trans (h : FlowKept s u) (k : FlowKept u v) : FlowKept s v :=
  ⟨h.mode.trans k.mode, k.regs.trans h.regs, k.ui.trans h.ui, k.pc.trans h.pc, k.frame.trans h.frame⟩

theorem of_hart (mode : SameMode s u) (h : u.hart = s.hart) : FlowKept s u := by
  refine ⟨mode, ?_, ?_, ?_, ?_⟩ <;> rw [h]

theorem of_ite {p : Prop} [Decidable p] (h : FlowKept s u) (k : FlowKept s v) : FlowKept s (if p then u else v) := by
  split <;> [exact h; exact k]

/-- A write at a memory that no context owns changes that memory only. -/
theorem rawPut (l : Loc) (bs : List Byte) (s : State) : FlowKept s (onDev (fun d => rawPut d l bs) s) :=
  of_hart (.of_dev (rawPut_ctxs s.dev l bs)) rfl

theorem of_caches (h : CachesOnly s u) : FlowKept s u := by
  refine ⟨h.sameMode, ?_, ?_, ?_, ?_⟩ <;> (obtain ⟨_, _, _, _, e⟩ := h; rw [e])

/-- The end of an effect instruction with a result (R75, R253). -/
theorem finishFx (h : FlowKept s u) (regs : List Nat) (d : Reg) (w : Word) (hq : Quiet s) :
    Machine.finishFx s regs (setX d w u) = .next (wentOn s (markEffect (setX d w u))) :=
  (h.mode.trans (.setX d w u)).finishFx regs hq

/-- The end of another instruction with a result (R75). -/
theorem finish (h : FlowKept s u) (regs : List Nat) (d : Reg) (w : Word) (hq : Quiet s) :
    Machine.finish s regs (setX d w u) = .next (wentOn s (setX d w u)) := (h.mode.trans (.setX d w u)).finish regs hq

theorem xr_eq (h : FlowKept s u) (r : Reg) : xr u r = xr s r := xr_congr h.regs h.ui r

theorem writesX (h : FlowKept s u) (d : Reg) (w : Word) : WritesX s (wentOn s (setX d w u)) d w := fun r => by
  rw [xr_wentOn, xr_setX, h.xr_eq]

theorem writesX_effect (h : FlowKept s u) (d : Reg) (w : Word) : WritesX s (wentOn s (markEffect (setX d w u))) d w := fun r => by
  rw [xr_wentOn]
  exact (xr_setX u d r w).trans (by rw [h.xr_eq])

theorem flowsOn (h : FlowKept s u) (d : Reg) (w : Word) : FlowsOn s (wentOn s (setX d w u)) :=
  flowsOn_wentOn ((setX_pc d w u).trans h.pc) ((setX_frame d w u).trans h.frame)

theorem flowsOn_effect (h : FlowKept s u) (d : Reg) (w : Word) : FlowsOn s (wentOn s (markEffect (setX d w u))) :=
  flowsOn_wentOn ((setX_pc d w u).trans h.pc) ((setX_frame d w u).trans h.frame)

end FlowKept

end Sys2Proof.Machine
end

section
/-! PROOFS. Work queues and message queues (R262 to R264, R294 to R296). -/

namespace Sys2Proof.Machine

/-! ## What the device's writes of descriptors and rings leave (R262) -/

theorem FlowKept.putWq (a o n v : Nat) (s : State) : FlowKept s (putWq a o n v s) := .rawPut _ _ s

theorem FlowKept.putScratch (a n v : Nat) (s : State) : FlowKept s (putScratch a n v s) :=
  .trans (u := onHart (l1Drop (scrLoc s a) n) s) ⟨.onHart rfl rfl, rfl, rfl, rfl, rfl⟩ (.rawPut _ _ _)

theorem FlowKept.ticked (s : State) : FlowKept s { s with tick := s.tick + 1 } := of_hart (.of_ctxs rfl rfl) rfl

theorem FlowKept.startRefill (a : Nat) (s : State) : FlowKept s (startRefill a s) :=
  (FlowKept.ticked s).trans ((FlowKept.putWq a 24 8 (Config.freeWord s.tick).toNat _).trans ⟨.onHart rfl rfl, rfl, rfl, rfl, rfl⟩)

/-! ## The work queue instructions (R263, R264) -/

section
variable {s : State} {d a b : Reg} {x : WqDesc} {q : CqDesc}

theorem execWqpop_checked (h : WqOk s (xr s a) x q) : execWqpop d a s =
    if ringCount x.head x.tail != 0 then popEntry d (xr s a).toNat x s
    else if refilling s (xr s a).toNat then hold s
    else if s.hart.mid = .wq then
      finishFx s [d.toNat] (setX d (BitVec.allOnes 64) (onHart (fun h => { h with mid := .none }) s))
    else .next (markEffect (onHart (fun h => { h with mid := .wq }) (startRefill (xr s a).toNat s))) := by
  simp only [execWqpop, h.1, h.2, bind, Except.bind, afterChecks]

/-- The state of a core that has popped the entry at HEAD, no refill started. -/
def popped (a : Nat) (x : WqDesc) (s : State) : State :=
  onHart (fun h => { h with fromRefill := h.fromRefill.filter (· != (a, x.head)), mid := .none }) (putWq a 16 4 (x.head + 1) s)

theorem FlowKept.popped (a : Nat) (x : WqDesc) (s : State) : FlowKept s (popped a x s) :=
  (FlowKept.putWq _ _ _ _ s).trans ⟨.onHart rfl rfl, rfl, rfl, rfl, rfl⟩

/-- The entry at HEAD that no poison spoils, no acquire in its way, is popped (R263). -/
theorem popEntry_pops {p : Nat} (hp : poisonAt s.dev (lsLoc s (ringAddr x.ring x.cap x.head)) 8 = none)
    (hl : (s.hart.fromRefill.contains (p, x.head) && !loadsDone s (s.hart.nextSeq + 1)) = false) (hq : Quiet s) :
    popEntry d p x s = .next (wentOn s (markEffect (setX d (wordOf (bytesNat (lsBytes s (ringAddr x.ring x.cap x.head) 8)))
      (if s.hart.fromRefill.contains (p, x.head) then
        acquireMoves .clu (if ringCount x.head x.tail - 1 < x.low && !refilling s p then startRefill p (popped p x s) else popped p x s)
      else if ringCount x.head x.tail - 1 < x.low && !refilling s p then startRefill p (popped p x s) else popped p x s)))) := by
  have refilled : FlowKept s (if ringCount x.head x.tail - 1 < x.low && !refilling s p then startRefill p (popped p x s)
      else popped p x s) := .of_ite ((FlowKept.popped p x s).trans (.startRefill p _)) (.popped p x s)
  rw [popEntry, hp]
  simp only [hl, Bool.false_eq_true, if_false]
  exact (FlowKept.of_ite (refilled.trans (.of_caches (.acquireMoves .clu _))) refilled).finishFx _ _ _ hq

/-- WQPOP of an empty ring starts a refill, and waits (R263). -/
theorem execWqpop_refills (h : WqOk s (xr s a) x q) (he : ringCount x.head x.tail = 0) (hr : refilling s (xr s a).toNat = false)
    (hm : s.hart.mid ≠ .wq) : execWqpop d a s =
      .next (markEffect (onHart (fun h => { h with mid := .wq }) (startRefill (xr s a).toNat s))) := by
  rw [execWqpop_checked h]
  simp [he, hr, hm]

/-- WQPOP whose own refill brought nothing answers all ones (R263). -/
theorem execWqpop_empty (h : WqOk s (xr s a) x q) (he : ringCount x.head x.tail = 0) (hr : refilling s (xr s a).toNat = false)
    (hm : s.hart.mid = .wq) : execWqpop d a s =
      finishFx s [d.toNat] (setX d (BitVec.allOnes 64) (onHart (fun h => { h with mid := .none }) s)) := by
  rw [execWqpop_checked h]
  simp [he, hr, hm]

theorem execWqpop_pops (h : WqOk s (xr s a) x q) (he : ringCount x.head x.tail ≠ 0) :
    execWqpop d a s = popEntry d (xr s a).toNat x s := by
  rw [execWqpop_checked h, if_pos (bne_iff_ne.2 he)]

theorem execWqcount_reads (h : WqOk s (xr s a) x q) : execWqcount d a s = finish s [d.toNat] (setX d (wordOf
    (ringCount x.head x.tail % 2 ^ 16 + (if refilling s (xr s a).toNat then 2 ^ 16 else 0) +
      ringCount q.head q.tail % 2 ^ 17 * 2 ^ 32)) s) := by
  simp only [execWqcount, h.1, h.2, bind, Except.bind, afterChecks]

/-- WQPUSH of a legal value: at CAP entries it answers 1, else the entry and TAIL are written (R264). -/
theorem execWqpush_pushes (h : wqCheck s (xr s a) = .ok x) (hv : xr s b ≠ BitVec.allOnes 64) (hq : Quiet s) : execWqpush d a b s =
    if x.cap ≤ ringCount x.head x.tail then .next (wentOn s (markEffect (setX d 1 s)))
    else .next (wentOn s (markEffect (setX d 0 (putWq (xr s a).toNat 20 4 (x.tail + 1)
      (homePut (lsLoc s (ringAddr x.ring x.cap x.tail)) (natBytes 8 (xr s b).toNat) s))))) := by
  have written : FlowKept s (putWq (xr s a).toNat 20 4 (x.tail + 1)
      (homePut (lsLoc s (ringAddr x.ring x.cap x.tail)) (natBytes 8 (xr s b).toNat) s)) :=
    (FlowKept.rawPut _ _ s).trans (.putWq _ _ _ _ _)
  simp only [execWqpush, h, bind, Except.bind, check, bne_iff_ne.2 hv, if_true, afterChecks, ge_iff_le, (FlowKept.refl s).finishFx _ d _ hq,
    written.finishFx _ d _ hq]

/-- WQFILL of a legal value past its release, likewise in the scratch window (R264). -/
theorem execWqfill_fills (h : cqCheck s (xr s a) = .ok q) (hv : xr s b ≠ BitVec.allOnes 64)
    (hr : released s .clu (s.hart.nextSeq + 1) = true) (hq : Quiet s) : execWqfill d a b s =
      if q.cap ≤ ringCount q.head q.tail then .next (wentOn s (markEffect (setX d 1 s)))
      else .next (wentOn s (markEffect (setX d 0 (putScratch ((xr s a).toNat + 12) 4 (q.tail + 1)
        (putScratch (ringAddr q.base q.cap q.tail) 8 (xr s b).toNat s))))) := by
  have written : FlowKept s (putScratch ((xr s a).toNat + 12) 4 (q.tail + 1)
      (putScratch (ringAddr q.base q.cap q.tail) 8 (xr s b).toNat s)) := (FlowKept.putScratch _ _ _ s).trans (.putScratch _ _ _ _)
  simp only [execWqfill, h, bind, Except.bind, check, bne_iff_ne.2 hv, if_true, afterChecks, hr, Bool.not_true, Bool.false_eq_true,
    if_false, ge_iff_le, (FlowKept.refl s).finishFx _ d _ hq, written.finishFx _ d _ hq]

/-- All ones is no entry (R264). -/
theorem execWqpush_refused (h : wqCheck s (xr s a) = .ok x) (hv : xr s b = BitVec.allOnes 64) :
    execWqpush d a b s = trap .protection (xr s b) s := by
  simp only [execWqpush, h, bind, Except.bind, check, hv, bne_self_eq_false, Bool.false_eq_true, if_false, afterChecks]
  rfl

theorem execWqfill_refused (h : cqCheck s (xr s a) = .ok q) (hv : xr s b = BitVec.allOnes 64) :
    execWqfill d a b s = trap .protection (xr s b) s := by
  simp only [execWqfill, h, bind, Except.bind, check, hv, bne_self_eq_false, Bool.false_eq_true, if_false, afterChecks]
  rfl

/-- The oldest refill in flight is performed once the log has room (R263, R391). -/
theorem execWqRefill_refills {r : Refill} {rest : List Refill} {w : State} (hr : s.hart.refills = r :: rest)
    (h : WqOk s (wordOf r.desc) x q)
    (hl : reserveLog (160 * (if logCovers s r.org.ctx r.org.cov then refillCount x q else 0)) s = some w) :
    execWqRefill s = .next (settle (refill r x q (putWq r.desc 24 8 0 (onHart (fun h => { h with refills := rest }) w)))) := by
  simp only [execWqRefill, hr, h.1, h.2, bind, Except.bind, hl]

theorem refillCount_le (x : WqDesc) (q : CqDesc) : refillCount x q ≤ x.batch ∧
    refillCount x q ≤ x.cap - ringCount x.head x.tail ∧ refillCount x q ≤ ringCount q.head q.tail :=
  ⟨Nat.min_le_left _ _, (Nat.min_le_right _ _).trans (Nat.min_le_left _ _), (Nat.min_le_right _ _).trans (Nat.min_le_right _ _)⟩

/-! ## The message queues (R294 to R296) -/

theorem mqOf_q (s : State) (n : Nat) : (mqOf s n).q = n := by
  unfold mqOf
  rcases h : s.clu.mqs.find? fun x => x.q == n with _ | y <;> rw [h]
  · rfl
  · simpa using List.find?_some h

/-- A queue put in place is the one read by its name. -/
theorem mqOf_putMq (y : MQueue) (s : State) : mqOf (putMq y s) y.q = y := by
  have others : (s.clu.mqs.filter fun z => z.q != y.q).find? (fun z => z.q == y.q) = none := by
    simp [List.find?_eq_none]
  show (List.find? _ (List.filter _ _ ++ [y])).getD _ = y
  rw [List.find?_append, others]
  simp

theorem mqBuffer_of_readRecord {p : Word} {bs : List Byte} (h : readRecord s p 64 64 = .ok bs) : mqBuffer p = .ok () := by
  obtain ⟨_, aligned, h⟩ := bind_ok h
  obtain ⟨_, inside, -⟩ := bind_ok h
  have a : (p.toNat % 64 == 0) = true := by
    by_contra n
    exact nomatch (if_neg n).symm.trans aligned
  have i : p.toNat + 64 ≤ lsTop := by
    by_contra n
    exact nomatch (if_neg (by simpa using n)).symm.trans inside
  have below : decide (p.toNat + 63 < lsTop) = true := decide_eq_true (by omega)
  simp only [mqBuffer, check, a, below, if_true, bind, Except.bind]

theorem FlowKept.putMq (y : MQueue) (s : State) : FlowKept s (putMq y s) := of_hart (.onClu _ s) rfl

theorem FlowKept.countSent (s : State) : FlowKept s (countSent s) := ⟨.onHart rfl rfl, rfl, rfl, rfl, rfl⟩

/-- MQSEND of a legal message past its release (R295, R296). -/
theorem execMqsend_released {bs : List Byte} (hn : mqNamed s (xr s a) = true) (hb : readRecord s (xr s b) 64 64 = .ok bs)
    (hr : released s (mqScope s (xr s a).toNat) (s.hart.nextSeq + 1) = true) : execMqsend d a b s =
      if !mqOwn s (xr s a).toNat then sendAway d s
      else if (mqOf s (xr s a).toNat).recv.isNone then finish s [d.toNat] (setX d 2 s)
      else if 32 ≤ (mqOf s (xr s a).toNat).msgs.length then finish s [d.toNat] (setX d 1 s)
      else finish s [d.toNat] (setX d 0 (countSent (putMq { mqOf s (xr s a).toNat with msgs := (mqOf s (xr s a).toNat).msgs ++
        [(s.hart.ar.core, BitVec.ofNat 512 (bytesNat bs), mqScope s (xr s a).toNat)] } s))) := by
  simp only [execMqsend, check, hn, if_true, mqBuffer_of_readRecord hb, hb, bind, Except.bind, afterChecks, hr, Bool.not_true,
    Bool.false_eq_true, if_false, mqSize, ge_iff_le]

/-- MQSEND to another cluster answers a free value, and changes the core's counts only (R296). -/
theorem sendAway_answers (d : Reg) (hq : Quiet s) : ∃ t, sendAway d s = .next t ∧ FlowsOn s t ∧ t.clu = s.clu ∧ t.dev = s.dev ∧
    WritesX s t d (wordOf (Config.queueAnswer s.tick % 3)) := by
  have sent : FlowKept s (if Config.queueAnswer s.tick % 3 = 0 then countSent { s with tick := s.tick + 1 }
      else { s with tick := s.tick + 1 }) := .of_ite ((FlowKept.ticked s).trans (.countSent _)) (.ticked s)
  refine ⟨_, sent.finish [d.toNat] d _ hq, sent.flowsOn _ _, ?_, ?_, sent.writesX _ _⟩
  · rw [wentOn_clu, setX_clu]
    split <;> rfl
  · rw [wentOn_dev, setX_dev]
    split <;> rfl

/-- A message appended (R296). -/
theorem mqsend_appends {i : Instr} {regs : List Nat} {n : Nat} {l : List (Nat × BitVec 512 × Scope)}
    (h : exec i s = finish s regs (setX d 0 (countSent (putMq { mqOf s n with msgs := l } s)))) (hq : Quiet s) :
    ∃ t, exec i s = .next t ∧ WritesX s t d 0 ∧ FlowsOn s t ∧ t.hart.sent = s.hart.sent + 1 ∧ t.dev = s.dev ∧
      (mqOf t n).recv = (mqOf s n).recv ∧ (mqOf t n).msgs = l := by
  have sent : FlowKept s (countSent (putMq { mqOf s n with msgs := l } s)) := (FlowKept.putMq _ s).trans (.countSent _)
  have queue : mqOf (wentOn s (setX d 0 (countSent (putMq { mqOf s n with msgs := l } s)))) n = { mqOf s n with msgs := l } := by
    have put := mqOf_putMq { mqOf s n with msgs := l } s
    rw [mqOf_q] at put
    rw [mqOf, wentOn_clu, setX_clu]
    exact put
  refine ⟨_, h.trans (sent.finish _ d 0 hq), sent.writesX d 0, sent.flowsOn d 0, ?_, (wentOn_dev _ _).trans (setX_dev _ _ _),
    by rw [queue], by rw [queue]⟩
  obtain ⟨p, f, e⟩ := wentOn_flow s (setX d 0 (countSent (putMq { mqOf s n with msgs := l } s)))
  obtain ⟨x, xsh, written⟩ := setX_only d 0 (countSent (putMq { mqOf s n with msgs := l } s))
  rw [e, written]
  rfl

/-- MQRECV by the receiver waits on an empty queue (R295). -/
theorem execMqrecv_empty (hr : (mqOf s (xr s b).toNat).recv = some s.hart.ar.core) (hb : mqBuffer (xr s a) = .ok ())
    (hm : (mqOf s (xr s b).toNat).msgs = []) : execMqrecv d a b s = hold s := by
  simp only [execMqrecv, check, hr, beq_self_eq_true, if_true, hb, bind, Except.bind, afterChecks, hm]

/-- MQRECV by the receiver takes the oldest message once the log has room (R295, R296, R391). -/
theorem execMqrecv_takes {m : Nat × BitVec 512 × Scope} {r : List (Nat × BitVec 512 × Scope)} {w : State}
    (hr : (mqOf s (xr s b).toNat).recv = some s.hart.ar.core) (hb : mqBuffer (xr s a) = .ok ())
    (hm : (mqOf s (xr s b).toNat).msgs = m :: r) (hd : loadsDone s (s.hart.nextSeq + 1) = true)
    (hl : reserveLog (storeNeed s (.store (List.replicate 64 0) .normal) (lsLoc s 0)) s = some w) : execMqrecv d a b s =
      finishFx s [d.toNat] (setX d (wordOf (m.1 % 2 ^ 13 + r.length * 2 ^ 16)) (takeMq (mqOf s (xr s b).toNat) m (xr s a) w)) := by
  simp only [execMqrecv, check, hr, beq_self_eq_true, if_true, hb, bind, Except.bind, afterChecks, hm, hd, Bool.not_true,
    Bool.false_eq_true, if_false, withLog, hl]

theorem execMqrecv_refused (hr : (mqOf s (xr s b).toNat).recv ≠ some s.hart.ar.core) :
    execMqrecv d a b s = trap .protection (xr s b) s := by
  simp only [execMqrecv, check, beq_iff_eq, hr, if_false, bind, Except.bind, afterChecks]
  rfl

theorem SameMode.takeMq (y : MQueue) (m : Nat × BitVec 512 × Scope) (p : Word) (s : State) : SameMode s (takeMq y m p s) :=
  ((onClu _ s).trans (performWrite_ls _ _ _ _ _ _ _)).trans ((onHart rfl rfl).trans (CachesOnly.acquireMoves _ _).sameMode)

/-- MQPOLL of an own queue reads it (R295). -/
theorem execMqpoll_own (hn : mqNamed s (xr s a) = true) (ho : mqOwn s (xr s a).toNat = true) :
    execMqpoll d a s = finish s [d.toNat] (setX d (BitVec.ofNat 64 ((mqOf s (xr s a).toNat).msgs.length +
      if (mqOf s (xr s a).toNat).recv = none then 0 else 2 ^ 63)) s) := by
  simp only [execMqpoll, check, hn, if_true, afterChecks, ho]
  cases (mqOf s (xr s a).toNat).recv <;> rfl

/-- What MQPOLL answers of another cluster's queue: it holds at most 32 messages, and one that is not bound holds none (R294). -/
theorem execMqpoll_away (hn : mqNamed s (xr s a) = true) (ho : mqOwn s (xr s a).toNat = false) : ∃ v : Word,
    execMqpoll d a s = finish s [d.toNat] (setX d v { s with tick := s.tick + 1 }) ∧
      (v = 0 ∨ (2 ^ 63 ≤ v.toNat ∧ v.toNat ≤ 2 ^ 63 + 32)) := by
  simp only [execMqpoll, check, hn, if_true, afterChecks, ho, Bool.false_eq_true, if_false]
  refine ⟨_, rfl, ?_⟩
  split
  · refine .inr ?_
    rw [wordOf, BitVec.toNat_ofNat, Nat.mod_eq_of_lt] <;> omega
  · exact .inl rfl

theorem execMqbind_checked (hn : mqNamed s (xr s a) = true) (ho : mqOwn s (xr s a).toNat = true) (hv : (xr s b).toNat ≤ 1) :
    execMqbind d a b s = finishFx s [d.toNat] (setX d (mqBind (xr s a).toNat (xr s b == 1) s).1
      (mqBind (xr s a).toNat (xr s b == 1) s).2) := by
  simp only [execMqbind, check, hn, ho, Bool.and_true, if_true, hv, decide_true, bind, Except.bind, afterChecks]

theorem execMqbind_refused (hn : mqNamed s (xr s a) = true) (ho : mqOwn s (xr s a).toNat = true) (hv : 1 < (xr s b).toNat) :
    execMqbind d a b s = trap .protection (xr s b) s := by
  have wide : decide ((xr s b).toNat ≤ 1) = false := decide_eq_false (by omega)
  simp only [execMqbind, check, hn, ho, Bool.and_true, if_true, wide, Bool.false_eq_true, if_false, bind, Except.bind, afterChecks]
  rfl

/-- A queue put in place by MQBIND, with its answer 0. -/
theorem mqbind_puts {y : MQueue} {off : Bool} (hn : mqNamed s (xr s a) = true) (ho : mqOwn s (xr s a).toNat = true)
    (hv : (xr s b).toNat ≤ 1) (h1 : (xr s b == 1) = off) (hb : mqBind (xr s a).toNat off s = (0, putMq y s)) (hy : y.q = (xr s a).toNat)
    (hq : Quiet s) : ∃ t, execMqbind d a b s = .next t ∧ WritesX s t d 0 ∧ FlowsOn s t ∧ mqOf t (xr s a).toNat = y := by
  have put := FlowKept.putMq y s
  refine ⟨_, ?_, put.writesX_effect d 0, put.flowsOn_effect d 0, ?_⟩
  · rw [execMqbind_checked hn ho hv, h1, hb]
    exact put.finishFx _ d 0 hq
  · have queues : (wentOn s (markEffect (setX d 0 (putMq y s)))).clu = (putMq y s).clu := (wentOn_clu _ _).trans (setX_clu _ _ _)
    rw [mqOf, queues, ← hy]
    exact mqOf_putMq y s

/-- MQBIND that changes nothing answers 1 (R296). -/
theorem mqbind_answersOne {off : Bool} (hn : mqNamed s (xr s a) = true) (ho : mqOwn s (xr s a).toNat = true)
    (hv : (xr s b).toNat ≤ 1) (h1 : (xr s b == 1) = off) (hb : mqBind (xr s a).toNat off s = (1, s)) (hq : Quiet s) :
    execMqbind d a b s = .next (wentOn s (markEffect (setX d 1 s))) := by
  rw [execMqbind_checked hn ho hv, h1, hb]
  exact (FlowKept.refl s).finishFx _ d 1 hq

end

section
variable {s : State} {d a : Reg} {x : WqDesc} {q : CqDesc}

/-- An entry that a refill brought is popped, and its acquire made (R263). -/
theorem wqpop_brought (h : WqOk s (xr s a) x q) (some : ringCount x.head x.tail ≠ 0)
    (clean : poisonAt s.dev (lsLoc s (ringAddr x.ring x.cap x.head)) 8 = none)
    (brought : s.hart.fromRefill.contains ((xr s a).toNat, x.head) = true) (done : loadsDone s (s.hart.nextSeq + 1) = true)
    (hq : Quiet s) : ∃ t, execWqpop d a s = .next t ∧ FlowsOn s t ∧
      WritesX s t d (wordOf (bytesNat (lsBytes s (ringAddr x.ring x.cap x.head) 8))) := by
  have pops := popEntry_pops (d := d) (p := (xr s a).toNat) clean (by rw [done, Bool.not_true, Bool.and_false]) hq
  rw [brought, if_pos rfl] at pops
  have popped := FlowKept.popped (xr s a).toNat x s
  have acquired := (FlowKept.of_ite (p := (ringCount x.head x.tail - 1 < x.low && !refilling s (xr s a).toNat) = true)
    (popped.trans (.startRefill (xr s a).toNat _)) popped).trans (.of_caches (.acquireMoves .clu _))
  exact ⟨_, (execWqpop_pops h some).trans pops, acquired.flowsOn_effect _ _, acquired.writesX_effect _ _⟩

/-- An entry that the core pushed is popped, and HEAD raised, where the ring stays above LOW or a refill is in flight (R263). -/
theorem wqpop_own (h : WqOk s (xr s a) x q) (some : ringCount x.head x.tail ≠ 0)
    (clean : poisonAt s.dev (lsLoc s (ringAddr x.ring x.cap x.head)) 8 = none)
    (own : s.hart.fromRefill.contains ((xr s a).toNat, x.head) = false)
    (still : x.low ≤ ringCount x.head x.tail - 1 ∨ refilling s (xr s a).toNat = true) (hq : Quiet s) :
    ∃ t, execWqpop d a s = .next t ∧ FlowsOn s t ∧ t.dev = (putWq (xr s a).toNat 16 4 (x.head + 1) s).dev ∧ t.clu = s.clu ∧
      WritesX s t d (wordOf (bytesNat (lsBytes s (ringAddr x.ring x.cap x.head) 8))) ∧ t.hart.ar = s.hart.ar := by
  have pops := popEntry_pops (d := d) (p := (xr s a).toNat) clean (by rw [own, Bool.false_and]) hq
  have idle : ¬ (ringCount x.head x.tail - 1 < x.low && !refilling s (xr s a).toNat) = true := by
    rcases still with low | busy
    · simp [Nat.not_lt.2 low]
    · simp [busy]
  rw [own, if_neg Bool.false_ne_true, if_neg idle] at pops
  have popped := FlowKept.popped (xr s a).toNat x s
  exact ⟨_, (execWqpop_pops h some).trans pops, popped.flowsOn_effect _ _, (wentOn_dev _ _).trans (setX_dev _ _ _),
    (wentOn_clu _ _).trans (setX_clu _ _ _), popped.writesX_effect _ _, (wentOn_ar _ _).trans (setX_ar _ _ _)⟩

/-- WQPOP whose own refill brought nothing goes on with all ones (R263). -/
theorem wqpop_nothing (h : WqOk s (xr s a) x q) (none : ringCount x.head x.tail = 0) (idle : refilling s (xr s a).toNat = false)
    (again : s.hart.mid = .wq) (hq : Quiet s) : ∃ t, execWqpop d a s = .next t ∧ FlowsOn s t ∧
      WritesX s t d (BitVec.allOnes 64) ∧ t.hart.mid = .none ∧ t.dev = s.dev := by
  have waited : FlowKept s (onHart (fun h => { h with mid := .none }) s) := ⟨.onHart rfl rfl, rfl, rfl, rfl, rfl⟩
  exact ⟨_, (execWqpop_empty h none idle again).trans (waited.finishFx _ d _ hq), waited.flowsOn_effect _ _,
    waited.writesX_effect _ _, (wentOn_mid _ _).trans (setX_mid _ _ _), (wentOn_dev _ _).trans (setX_dev _ _ _)⟩

end

/-- Settles O49: a lemma for each instruction and answer. -/
theorem queueInstructionsComplete : Obligations.QueueInstructionsComplete := by
  refine ⟨fun d a x q s h hq => ?_, fun d a b x s h hq => ⟨fun ones => execWqpush_refused h ones, fun v full => ?_, fun v room => ?_⟩,
    fun d a b q s h v hr hq => ⟨fun full => ?_, fun room => ?_⟩, fun d a b q s h ones => execWqfill_refused h ones,
    fun r rest x q s w hr h hl => execWqRefill_refills hr h hl, refillCount_le, fun d a b bs s hn hb hr hq => ?_,
    fun d a b s hr hb => ⟨fun empty => ?_, fun m r w some done hq hl => ?_⟩, fun d a b s hr => execMqrecv_refused hr,
    fun d a s hn hq => ⟨fun own => exec_setX_completes (i := .mqpoll d a) (execMqpoll_own hn own) hq, fun away => ?_⟩,
    fun d a b s hn ho hq => ?_⟩
  · exact ⟨fun some clean => ⟨fun brought done => wqpop_brought h some clean brought done hq,
        fun own still => wqpop_own h some clean own still hq⟩,
      fun none idle first => ⟨_, _, execWqpop_refills h none idle first, rfl, rfl, rfl, rfl⟩,
      fun none idle again => wqpop_nothing h none idle again hq, exec_setX_completes (i := .wqcount d a) (execWqcount_reads h) hq⟩
  · exact (execWqpush_pushes h v hq).trans (if_pos full)
  · exact (execWqpush_pushes h v hq).trans (if_neg (Nat.not_le.2 room))
  · exact (execWqfill_fills h v hr hq).trans (if_pos full)
  · exact (execWqfill_fills h v hr hq).trans (if_neg (Nat.not_le.2 room))
  · have sends := execMqsend_released (d := d) hn hb hr
    refine ⟨fun away => ?_, fun own unbound => ?_, fun own bound full => ?_, fun own bound room => ?_⟩
    · obtain ⟨t, answers, rest⟩ := sendAway_answers d hq
      exact ⟨t, (sends.trans (if_pos (by rw [away]; rfl))).trans answers, rest⟩
    · rw [own, Bool.not_true, if_neg Bool.false_ne_true, if_pos (Option.isNone_iff_eq_none.2 unbound)] at sends
      exact sends.trans ((FlowKept.refl s).finish _ d 2 hq)
    · rw [own, Bool.not_true, if_neg Bool.false_ne_true, if_neg (mt Option.isNone_iff_eq_none.1 bound), if_pos full] at sends
      exact sends.trans ((FlowKept.refl s).finish _ d 1 hq)
    · rw [own, Bool.not_true, if_neg Bool.false_ne_true, if_neg (mt Option.isNone_iff_eq_none.1 bound),
        if_neg (Nat.not_le.2 room)] at sends
      exact mqsend_appends sends hq
  · exact execMqrecv_empty hr hb empty
  · have takes := ((SameMode.reserveLog hl).trans (.takeMq (mqOf s (xr s b).toNat) m (xr s a) w)).trans
      (.setX d (wordOf (m.1 % 2 ^ 13 + r.length * 2 ^ 16)) _)
    exact (execMqrecv_takes hr hb some done hl).trans (takes.finishFx _ hq)
  · obtain ⟨v, polls, bounds⟩ := execMqpoll_away (d := d) hn away
    have ticked := FlowKept.ticked s
    exact ⟨_, v, polls.trans (ticked.finish _ d v hq), ticked.flowsOn d v, (wentOn_dev _ _).trans (setX_dev _ _ _),
      (wentOn_clu _ _).trans (setX_clu _ _ _), ticked.writesX d v, bounds⟩
  · refine ⟨fun on unbound => ?_, fun on bound other => ?_, fun off mine empty => ?_, fun off kept => ?_,
      fun wide => execMqbind_refused hn ho wide⟩
    · obtain ⟨t, binds, writes, flow, put⟩ := mqbind_puts (d := d) (b := b) (off := false)
        (y := { mqOf s (xr s a).toNat with recv := some s.hart.ar.core }) hn ho (by simp [on]) (by simp [on])
        (by simp [mqBind, unbound]) (mqOf_q s _) hq
      exact ⟨t, binds, writes, flow, by rw [put], by rw [put]⟩
    · obtain ⟨c, hc⟩ := Option.ne_none_iff_exists'.1 bound
      have stranger : c ≠ s.hart.ar.core := fun e => other (by rw [hc, e])
      exact mqbind_answersOne (off := false) hn ho (by simp [on]) (by simp [on]) (by simp [mqBind, hc, stranger]) hq
    · obtain ⟨t, binds, writes, flow, put⟩ := mqbind_puts (d := d) (b := b) (off := true)
        (y := { mqOf s (xr s a).toNat with recv := none }) hn ho (by simp [off]) (by simp [off])
        (by simp [mqBind, mine, empty]) (mqOf_q s _) hq
      exact ⟨t, binds, writes, flow, by rw [put]⟩
    · refine mqbind_answersOne (off := true) hn ho (by simp [off]) (by simp [off]) ?_ hq
      have stays : ¬ ((mqOf s (xr s a).toNat).msgs.isEmpty && (mqOf s (xr s a).toNat).recv == some s.hart.ar.core) = true := by
        rcases kept with other | some <;> simp_all
      rw [mqBind, if_pos rfl, if_neg stays]

end Sys2Proof.Machine
end

section
/-! PROOFS. The join instructions (R265 to R268, R272 to R275). -/

namespace Sys2Proof.Machine

/-! ## The record's fields written by the device (R265) -/

theorem FlowKept.putJoin (jid : Word) (o n v : Nat) (s : State) : FlowKept s (putJoin jid o n v s) := .rawPut _ _ s

theorem FlowKept.setJoinBit (jid : Word) (o m : Nat) (s : State) : FlowKept s (setJoinBit jid o m s) := .putJoin _ _ _ _ s

theorem FlowKept.onClu (f : Cluster → Cluster) (s : State) : FlowKept s (onClu f s) := of_hart (.onClu f s) rfl

theorem FlowKept.l1Drop (l : Loc) (n : Nat) (s : State) : FlowKept s (onHart (l1Drop l n) s) := ⟨.onHart rfl rfl, rfl, rfl, rfl, rfl⟩

theorem MemoriesOk.putJoin {s : State} (h : MemoriesOk s) (jid : Word) (o n v : Nat) : MemoriesOk (putJoin jid o n v s) :=
  (Aside.putJoin jid o n v s).memories h

/-! ## QNEW (R272) -/

section
variable {s : State} (jid : Word)

theorem FlowKept.clearJoin : FlowKept s (clearJoin jid s) :=
  (FlowKept.l1Drop (joinLoc jid) 64 s).trans ((FlowKept.putJoin jid 5 3 0 _).trans
    ((FlowKept.putJoin jid 26 6 0 _).trans (.putJoin jid 56 8 0 _)))

theorem clearJoin_fields (hm : MemoriesOk s) : joinField (clearJoin jid s) jid 5 3 = 0 ∧
    joinField (clearJoin jid s) jid 26 6 = 0 ∧ joinField (clearJoin jid s) jid 56 8 = 0 := by
  have m0 : MemoriesOk (onHart (l1Drop (joinLoc jid) 64) s) := hm
  have m1 := m0.putJoin jid 5 3 0
  have m2 := m1.putJoin jid 26 6 0
  refine ⟨?_, ?_, ?_⟩ <;> unfold clearJoin <;> dsimp only
  · rw [joinField_putJoin_beside m2 jid 0 (by omega), joinField_putJoin_beside m1 jid 0 (by omega), joinField_putJoin m0, Nat.zero_mod]
  · rw [joinField_putJoin_beside m2 jid 0 (by omega), joinField_putJoin m1, Nat.zero_mod]
  · rw [joinField_putJoin m2, Nat.zero_mod]

end

/-- QNEW whose checks pass (R272). -/
theorem execQnew_makes {d a : Reg} {s : State} (h : qnewCheck s (xr s a) = .ok ()) (hq : Quiet s) (hm : MemoriesOk s) :
    ∃ t, execQnew d a s = .next t ∧ WritesX s t d (joinId s (xr s a)) ∧
      t.clu.joins = s.clu.joins ++ [newJoin s (joinId s (xr s a))] ∧ joinField t (joinId s (xr s a)) 5 3 = 0 ∧
      joinField t (joinId s (xr s a)) 26 6 = 0 ∧ joinField t (joinId s (xr s a)) 56 8 = 0 ∧ t.hart.ar = s.hart.ar ∧ FlowsOn s t := by
  have made := (FlowKept.clearJoin (s := s) (joinId s (xr s a))).trans
    (.onClu (fun c => { c with joins := c.joins ++ [newJoin s (joinId s (xr s a))] }) _)
  obtain ⟨state, bits, released⟩ := clearJoin_fields (joinId s (xr s a)) hm
  have dev : ∀ w : State, (wentOn s (markEffect (setX d (joinId s (xr s a)) w))).dev = w.dev := fun w => setX_dev _ _ _
  refine ⟨_, ?_, made.writesX_effect d _, ?_, ?_, ?_, ?_, ?_, made.flowsOn_effect d _⟩
  · rw [execQnew, h]
    exact made.finishFx _ d _ hq
  · exact congrArg Cluster.joins (setX_clu _ _ _)
  · rw [joinField, dev]; exact state
  · rw [joinField, dev]; exact bits
  · rw [joinField, dev]; exact released
  · exact (wentOn_ar _ _).trans (setX_ar _ _ _)

/-! ## QRESET and QSTAT (R275) -/

section
variable {s : State} {jid : Word}

/-- The record of a join whose new round begins. -/
def renewed (jid : Word) (s : State) : State :=
  putJoin jid 26 6 0 (putJoin jid 6 2 (joinField s jid 6 2 + 1) (putJoin jid 5 1 0 (onHart (l1Drop (joinLoc jid) 64) s)))

theorem resetJoin_eq : resetJoin jid s = onJoin jid (fun j => { j with
    bound := [], markers := [], counted := [], toRetract := [], combined := false, posted := false, icount := 0
    paused := 0 }) (renewed jid s) := rfl

theorem FlowKept.resetJoin : FlowKept s (resetJoin jid s) := by
  have record : FlowKept s (renewed jid s) := (FlowKept.l1Drop (joinLoc jid) 64 s).trans ((FlowKept.putJoin jid 5 1 0 _).trans
    ((FlowKept.putJoin jid 6 2 _ _).trans (.putJoin jid 26 6 0 _)))
  rw [resetJoin_eq]
  exact record.trans (.onClu _ _)

theorem renewed_fields (hm : MemoriesOk s) : joinField (renewed jid s) jid 5 1 = 0 ∧
    joinField (renewed jid s) jid 6 2 = (joinField s jid 6 2 + 1) % 65536 ∧ joinField (renewed jid s) jid 26 6 = 0 := by
  have m0 : MemoriesOk (onHart (l1Drop (joinLoc jid) 64) s) := hm
  have m1 := m0.putJoin jid 5 1 0
  have m2 := m1.putJoin jid 6 2 (joinField s jid 6 2 + 1)
  refine ⟨?_, ?_, ?_⟩ <;> rw [renewed]
  · rw [joinField_putJoin_beside m2 jid 0 (by omega), joinField_putJoin_beside m1 jid _ (by omega), joinField_putJoin m0, Nat.zero_mod]
  · rw [joinField_putJoin_beside m2 jid 0 (by omega), joinField_putJoin m1, show 256 ^ 2 = 65536 from rfl]
  · rw [joinField_putJoin m2, Nat.zero_mod]

theorem joinCheck_live {j : Join} (h : joinOf s jid = some j) : joinCheck s jid = .ok j := by rw [joinCheck, h]

theorem joinCheck_none (h : joinOf s jid = none) : joinCheck s jid = .error (.protection, jid, 0) := by rw [joinCheck, h]

end

section
variable {s : State} {a d : Reg} {j : Join}

theorem execQreset_resets (hj : joinOf s (xr s a) = some j) (hs : joinState s (xr s a) = 2) (hq : Quiet s) :
    execQreset a s = .next (wentOn s (markEffect (resetJoin (xr s a) s))) := by
  simp only [execQreset, joinCheck_live hj, check, hs, beq_self_eq_true, if_true, bind, Except.bind, afterChecks]
  exact FlowKept.resetJoin.mode.finishFx _ hq

theorem execQreset_open (hj : joinOf s (xr s a) = some j) (hs : joinState s (xr s a) ≠ 2) :
    execQreset a s = trap .protection (xr s a) s := by
  simp only [execQreset, joinCheck_live hj, check, beq_iff_eq, hs, if_false, bind, Except.bind, afterChecks]
  rfl

theorem execQreset_none (hj : joinOf s (xr s a) = none) : execQreset a s = trap .protection (xr s a) s := by
  rw [execQreset, joinCheck_none hj]
  rfl

theorem execQstat_none (hj : joinOf s (xr s a) = none) : execQstat d a s = trap .protection (xr s a) s := by
  rw [execQstat, joinCheck_none hj]
  rfl

theorem execQstat_reads (hj : joinOf s (xr s a) = some j) :
    execQstat d a s = finish s [d.toNat] (setX d (wordOf (qstatVal s (xr s a))) s) := by
  rw [execQstat, joinCheck_live hj]
  rfl

end

/-! ## QARRIVE (R267, R274) -/

/-- From `s` on a join is released: its state stays, and so does member `m`'s bit in ARRIVED. -/
structure Releasing (s : State) (jid : Word) (m : Nat) (u : State) : Prop where
  flow : FlowKept s u
  memories : MemoriesOk u
  released : joinState u jid = 1
  arrived : joinBit u jid 28 m

namespace Releasing

variable {s u v : State} {jid : Word} {m : Nat}

theorem of_scr (h : Releasing s jid m u) (k : FlowKept u v) (hm : MemoriesOk v) (hs : v.dev.scr = u.dev.scr) :
    Releasing s jid m v := by
  refine ⟨h.flow.trans k, hm, ?_, ?_⟩
  · rw [joinState, joinField_of_scr hs]
    exact h.released
  · rw [joinBit, joinField_of_scr hs]
    exact h.arrived

theorem onClu (h : Releasing s jid m u) (f : Cluster → Cluster) : Releasing s jid m (onClu f u) :=
  h.of_scr (.onClu f u) h.memories rfl

theorem onFuts (h : Releasing s jid m u) (f : List FutWait → List FutWait) :
    Releasing s jid m (onDev (fun d => { d with futs := f d.futs }) u) :=
  h.of_scr (.of_hart (.of_dev rfl) rfl) h.memories rfl

/-- A member marked KILLED. -/
theorem killed (h : Releasing s jid m u) (k : Nat) : Releasing s jid m (setJoinBit jid 30 k u) := by
  refine ⟨h.flow.trans (.setJoinBit ..), h.memories.putJoin .., ?_, ?_⟩
  · rw [joinState, setJoinBit, joinField_putJoin_beside h.memories jid _ (by omega)]
    exact h.released
  · exact (joinBit_setJoinBit_beside h.memories jid k m (by omega)).2 h.arrived

/-- A kill that reaches a member (R268). -/
theorem killMember (h : Releasing s jid m u) (k : Nat) : Releasing s jid m (killMember jid k u) := by
  unfold Machine.killMember
  split
  · exact h
  · split
    · exact h
    · dsimp only
      split
      -- a queued member leaves the cluster with its registrations
      · exact (((h.onClu _).onFuts _).killed k).onClu _
      · split
        -- the core's own member has its kill pending
        · exact h.of_scr ⟨.onHart rfl rfl, rfl, rfl, rfl, rfl⟩ h.memories rfl
        · exact h

theorem traceRecord (h : Releasing s jid m u) (k : TraceKind) (p : List Byte) : Releasing s jid m (traceRecord k p u) := by
  obtain ⟨tc, hart, -⟩ := traceRecord_leaves k p u
  refine h.of_scr ⟨.traceRecord k p u, ?_, ?_, ?_, ?_⟩ ((Aside.traceRecord k p u).memories h.memories) (traceRecord_scr k p u) <;>
    rw [hart]

end Releasing

section
variable {s : State} {jid : Word} {j : Join} {m : Nat}

/-- The release of a live join (R267). -/
theorem releaseJoin_releases (hj : joinOf s jid = some j) (hm : MemoriesOk s) (ha : joinBit s jid 28 m) :
    Releasing s jid m (releaseJoin jid s) := by
  have timed : MemoriesOk (passTime s) := hm
  have stated := timed.putJoin jid 5 1 1
  have first : Releasing s jid m (putJoin jid 56 8 (passTime s).dev.time.toNat (putJoin jid 5 1 1 (passTime s))) := by
    refine ⟨(FlowKept.of_hart (.passTime s) rfl).trans ((FlowKept.putJoin ..).trans (.putJoin ..)), stated.putJoin .., ?_, ?_⟩
    · rw [joinState, joinField_putJoin_beside stated jid _ (by omega), joinField_putJoin timed]
      rfl
    · rw [joinBit, joinField_putJoin_beside stated jid _ (by omega), joinField_putJoin_beside timed jid _ (by omega)]
      exact ha
  simp only [releaseJoin, hj]
  refine (foldl_kept (P := Releasing s jid m) (fun u k h => ?_) _ (first.onClu _)).traceRecord _ _
  split
  · exact h.killMember k
  · exact h.killed k

/-- An uncounted member that the core runs (R273). -/
theorem memberCheck_ok (h : memberCheck s jid = .ok (j, m)) : joinOf s jid = some j := by
  unfold memberCheck at h
  split at h
  · next k n member =>
    split at h
    · next named =>
      obtain ⟨rfl, rfl⟩ := Prod.mk.inj (Except.ok.inj h)
      have jid_eq : k.jid = jid := beq_iff_eq.1 (Bool.and_eq_true_iff.1 named).1
      unfold myMember at member
      split at member
      · obtain ⟨t, -, found⟩ := Option.bind_eq_some_iff.1 member
        obtain ⟨x, hx, e⟩ := Option.map_eq_some_iff.1 found
        obtain ⟨rfl, -⟩ := Prod.mk.inj e
        have id_eq : x.jid = t.join := by simpa using List.find?_some hx
        rwa [← jid_eq, id_eq]
      · exact nomatch member
    · exact nomatch h
  · exact nomatch h

theorem memberCheck_refused (h : ∀ p, memberCheck s jid ≠ .ok p) : memberCheck s jid = .error (.protection, jid, 0) := by
  revert h
  unfold memberCheck
  split
  · split
    · exact fun h => absurd rfl (h _)
    · exact fun _ => rfl
  · exact fun _ => rfl

/-- The state of a join with member `m` counted. -/
def memberCounted (jid : Word) (m : Nat) (s : State) : State :=
  setJoinBit jid 28 m (onJoin jid (fun j => { j with counted := j.counted ++ [m] }) s)

theorem countMember_eq (hj : joinOf s jid = some j) (hm : MemoriesOk s) : countMember jid m s =
    if j.counted.length + 1 = joinField s jid 2 2 then (1, releaseJoin jid (memberCounted jid m s)) else (0, memberCounted jid m s) := by
  have live : joinOf (memberCounted jid m s) jid = some { j with counted := j.counted ++ [m] } :=
    joinOf_onJoin (f := fun j => { j with counted := j.counted ++ [m] }) hj rfl
  have quorum : joinField (memberCounted jid m s) jid 2 2 = joinField s jid 2 2 :=
    joinField_putJoin_beside (s := onJoin jid _ s) hm jid _ (by omega)
  unfold memberCounted at live quorum ⊢
  simp only [countMember, live, quorum, List.length_append, List.length_singleton]

end

/-- QARRIVE of an uncounted member (R267, R274). -/
theorem execQarrive_counts {d a : Reg} {j : Join} {m : Nat} {s : State} (hd : mustDie s = false)
    (hc : memberCheck s (xr s a) = .ok (j, m)) (h16 : m < 16) (hs : joinStalls s j = false) (hq : Quiet s) (hm : MemoriesOk s) :
    ∃ t, execQarrive d a s = .next t ∧ joinBit t (xr s a) 28 m ∧ FlowsOn s t ∧
      (j.counted.length + 1 = joinField s (xr s a) 2 2 → WritesX s t d 1 ∧ joinState t (xr s a) = 1) ∧
      (j.counted.length + 1 ≠ joinField s (xr s a) 2 2 → WritesX s t d 0 ∧ joinState t (xr s a) = joinState s (xr s a)) := by
  have live := memberCheck_ok hc
  have flow : FlowKept s (memberCounted (xr s a) m s) := (FlowKept.onClu _ s).trans (.setJoinBit ..)
  have memories : MemoriesOk (memberCounted (xr s a) m s) := MemoriesOk.putJoin (s := onJoin (xr s a) _ s) hm ..
  have bit : joinBit (memberCounted (xr s a) m s) (xr s a) 28 m := joinBit_setJoinBit (s := onJoin (xr s a) _ s) hm _ 28 h16
  have arrives : execQarrive d a s = finishFx s [d.toNat] (setX d (countMember (xr s a) m s).1 (countMember (xr s a) m s).2) := by
    rw [execQarrive]
    refine (killPoint_goesOn hd _).trans ?_
    rw [hc, afterChecks]
    exact if_neg (Bool.eq_false_iff.1 hs)
  have dev : ∀ v w, (wentOn s (markEffect (setX d v w))).dev = w.dev := fun v w => setX_dev d v w
  have reads : ∀ v w o n, joinField (wentOn s (markEffect (setX d v w))) (xr s a) o n = joinField w (xr s a) o n := fun v w o n => by
    rw [joinField, dev]
    rfl
  rw [arrives, countMember_eq live hm]
  by_cases completes : j.counted.length + 1 = joinField s (xr s a) 2 2
  · have live' : joinOf (memberCounted (xr s a) m s) (xr s a) = some { j with counted := j.counted ++ [m] } :=
      joinOf_onJoin (f := fun j => { j with counted := j.counted ++ [m] }) live rfl
    have released := releaseJoin_releases live' memories bit
    have all := flow.trans released.flow
    rw [if_pos completes]
    refine ⟨_, all.finishFx _ d 1 hq, ?_, all.flowsOn_effect d 1, fun _ => ⟨all.writesX_effect d 1, ?_⟩, fun n => absurd completes n⟩
    · rw [joinBit, reads]; exact released.arrived
    · rw [joinState, reads]; exact released.released
  · rw [if_neg completes]
    refine ⟨_, flow.finishFx _ d 0 hq, ?_, flow.flowsOn_effect d 0, fun y => absurd y completes, fun _ => ⟨flow.writesX_effect d 0, ?_⟩⟩
    · rw [joinBit, reads]; exact bit
    · rw [joinState, reads]
      exact joinField_putJoin_beside (s := onJoin (xr s a) _ s) hm _ _ (by omega)

/-! ## KPOINT and the kill (R268, R275) -/

theorem execKpoint_killPoint {s : State} (hm : ∀ x k, s.hart.mid ≠ .tknext x k) : execKpoint s = killPoint s fun s => finish s [] s := by
  unfold execKpoint
  split
  · next x k e => exact absurd e (hm x k)
  · rfl

theorem endTask_ktrap (how : BitVec 3) (cause : Byte) (s : State) : (endTask how cause s).hart.tk.ktrap = s.hart.tk.ktrap := by
  unfold endTask
  split
  · rfl
  · dsimp only
    rw [(Aside.traceRecord ..).tk]
    rfl

theorem retireTask_ktrap (how : BitVec 3) (cause : Byte) (s : State) : (retireTask how cause s).hart.tk.ktrap = s.hart.tk.ktrap := by
  unfold retireTask
  split
  · rfl
  · refine (endTask_ktrap ..).trans ?_
    split <;> rfl

/-- A kill that is due, with the member's writes performed and room for its record, ends the task at the kill point (R268). -/
theorem killPoint_kills {s : State} {k : State → Out} (hd : mustDie s = true) (ht : taskStalls s.hart = false)
    (hw : writesDone s = true) (hk : s.hart.tk.ktrap = false) (hl : LogHolds s) :
    ∃ t, killPoint s k = .next t ∧ t.hart.mid = .tknext (some 0) true ∧ t.hart.tk.run = false ∧ t.hart.tk.lastHow = 4 ∧
      t.hart.tk.lastCause = 0x10 ∧ t.hart.regs = s.hart.regs ∧ t.hart.pc = s.hart.pc := by
  have retracted := (Aside.refl s).retractMine hl
  have run : (retractMine s).hart.tk.run = true := by
    rw [retracted.tk]
    unfold mustDie at hd
    split at hd
    · next j m member => exact run_of_myMember member
    · exact nomatch hd
  obtain ⟨how, cause, stopped, regs, -⟩ := retireTask_leaves run (how := 4) (by decide) 0x10
  have trap : ¬ (retireTask 4 0x10 (retractMine s)).hart.tk.ktrap = true := by
    rw [retireTask_ktrap, retracted.tk, hk]
    exact Bool.false_ne_true
  rw [killPoint, if_pos hd, if_neg (Bool.eq_false_iff.1 ht), if_pos hw]
  exact ⟨_, if_neg trap, rfl, stopped, how, cause, regs.trans retracted.regs, (retireTask_ends 4 0x10 _).pc.trans retracted.pc⟩

/-! ## QCONTRIB (R266, R273) -/

/-- A context killed is gone, and no other is (R378). -/
theorem ctxOf_killContext (n reason cause : Nat) (core : Option Nat) (addr : Word) (s : State) (m : Nat) :
    ctxOf (killContext n reason cause core addr s).dev m = if m = n then none else ctxOf s.dev m := by
  unfold killContext
  split
  · next none =>
    split
    · next same => rw [same, none]
    · rfl
  · have gone : ∀ d : Device, d.ctxs = modWhere (fun k => k.num == n && k.state != .dead) (fun k => { k with state := .dead, key := none })
        s.dev.ctxs → ctxOf d m = if m = n then none else ctxOf s.dev m := by
      intro d e
      rw [ctxOf, e]
      split
      · next same =>
        subst same
        refine List.find?_eq_none.2 fun c hc => ?_
        obtain ⟨b, -, rfl⟩ := List.mem_map.1 hc
        split <;> simp_all
      · next other => exact find?_modWhere_other (fun c h => by simp_all [Ne.symm other]) fun c h => by simp_all
    dsimp only
    split <;> exact gone _ rfl

theorem killContext_hart {n : Nat} {s : State} (h : inContext s.hart n = false) (reason cause : Nat) (core : Option Nat) (addr : Word) :
    (killContext n reason cause core addr s).hart = s.hart := by
  unfold killContext
  split
  · rfl
  · simp only [h, Bool.false_eq_true, if_false]

/-- From `s` to `u` the core's context, its mode and the Step trap have stayed, or its context has been killed. -/
def OwnKept (s u : State) : Prop :=
  (u.hart.ar.ctx = s.hart.ar.ctx ∧ u.hart.dbg.trapStep = s.hart.dbg.trapStep ∧
    (ctxOf u.dev s.hart.ar.ctx).map (·.mode) = (ctxOf s.dev s.hart.ar.ctx).map (·.mode)) ∨
  ((ctxOf s.dev s.hart.ar.ctx).isSome = true ∧ ctxOf u.dev s.hart.ar.ctx = none)

namespace OwnKept

variable {s u v : State}

theorem refl (s : State) : OwnKept s s := .inl ⟨rfl, rfl, rfl⟩

theorem trans (h : OwnKept s u) (k : SameMode u v) : OwnKept s v := by
  obtain ⟨ctx, step, modes⟩ := k
  refine h.imp (fun ⟨own, quiet, mode⟩ => ⟨ctx.trans own, step.trans quiet, (modes _).trans mode⟩) fun ⟨was, gone⟩ => ⟨was, ?_⟩
  have none := modes s.hart.ar.ctx
  rw [gone] at none
  simpa using none

theorem killContext (h : OwnKept s u) (n reason cause : Nat) (core : Option Nat) (addr : Word) :
    OwnKept s (killContext n reason cause core addr u) := by
  have left := ctxOf_killContext n reason cause core addr u s.hart.ar.ctx
  rcases h with ⟨ctx, step, mode⟩ | ⟨was, gone⟩
  · by_cases own : s.hart.ar.ctx = n
    · rw [if_pos own] at left
      cases old : ctxOf s.dev s.hart.ar.ctx with
      | none =>
        rw [old] at mode
        have absent : ctxOf u.dev n = none := own ▸ by simpa using mode
        rw [Machine.killContext, absent]
        exact .inl ⟨ctx, step, by rw [old]; exact mode⟩
      | some c => exact .inr ⟨by rw [old]; rfl, left⟩
    · rw [if_neg own] at left
      have hart := killContext_hart (inContext_other (h := u.hart) (ctx ▸ Ne.symm own)) reason cause core addr
      exact .inl ⟨by rw [hart, ctx], by rw [hart, step], by rw [left, mode]⟩
  · refine .inr ⟨was, ?_⟩
    rw [left, gone, ite_self]

theorem logLine (n : Nat) (l : Loc) (u : State) (h : OwnKept s u) : OwnKept s (logLine n l u) := by
  have logged := h.trans (.lineLogged n l u)
  rcases logLine_cases n l u with none | ⟨_, _, _, line | killed⟩
  · rwa [none]
  · rwa [line]
  · rw [killed]
    exact logged.killContext _ _ _ _ _

theorem put (l : Loc) (bs : List Byte) (u : State) (h : OwnKept s u) : OwnKept s (onDev (fun d => rawPut d l bs) u) :=
  h.trans (FlowKept.rawPut l bs u).mode

theorem watch (n : Nat) (a : WatchAccess) (i : Word) (u : State) (h : OwnKept s u) : OwnKept s (watchAccess n a i u) :=
  h.trans (.watchAccess n a i u)

theorem drop (l : Loc) (u : State) (h : OwnKept s u) : OwnKept s (onClu (cmDrop l) u) := h.trans (.onClu _ u)

theorem recallAt (h : OwnKept s u) (l : Loc) (n : Nat) : OwnKept s (recallAt l n u) := recallAt_keeps logLine put watch drop l n h

/-- An engine's write leaves the core's context, unless it kills it (R386, R391). -/
theorem engWrite (h : OwnKept s u) (o : Origin) (va : Word) (l : Loc) (bs : List Byte) : OwnKept s (engWrite o va l bs u) := by
  refine foldl_kept (fun w i k => ?_) _ h
  have logged := (k.recallAt { l with off := l.off + 128 * i } ((bs.drop (128 * i)).take 128).length).trans
    (.logWrite o 5 true (va + wordOf (128 * i)) { l with off := l.off + 128 * i } (rawBytes
      (Machine.recallAt { l with off := l.off + 128 * i } ((bs.drop (128 * i)).take 128).length w).dev
      { l with off := l.off + 128 * i } ((bs.drop (128 * i)).take 128).length) _)
  exact watch _ _ _ _ (homePut_keeps logLine put _ _ (logged.recallAt _ _))

/-- Where an engine's step fits, its context lives, and the instruction ends (R391). -/
theorem finish {w : State} (h : OwnKept w u) (hw : SameMode s w) (hf : engFits s.hart.ar.ctx w u = true) (hq : Quiet s) :
    finishFx s [] u = .next (wentOn s (markEffect u)) := by
  obtain ⟨ctx, step, modes⟩ := hw
  rcases h with ⟨own, quiet, mode⟩ | ⟨was, gone⟩
  · refine finish_quiet (u := markEffect u) [] hq (fun c hc => ?_) (quiet.trans step)
    have here : ctxOf u.dev w.hart.ar.ctx = some c := own ▸ hc
    rw [here, ctx, modes] at mode
    obtain ⟨b, hb, same⟩ := Option.map_eq_some_iff.1 mode.symm
    have modeSame : b.mode = c.mode := same
    exact modeSame ▸ hq.2 b hb
  · obtain ⟨c, hc⟩ := Option.isSome_iff_exists.1 was
    rw [ctx] at hc gone
    rw [engFits, hc, gone] at hf
    exact nomatch hf

end OwnKept

/-- QCONTRIB of an uncounted member whose log entries fit (R273, R391). -/
theorem execQcontrib_writes {a b : Reg} {j : Join} {m : Nat} {bs : List Byte} {s w : State} (hd : mustDie s = false)
    (hc : qcontribCheck s (xr s a) (xr s b) = .ok (j, m, bs))
    (hm : tensorMoving s.dev (shadowRow s (xr s a) m) (s.hart.nextSeq + 1) = false)
    (hl : reserveLog (engNeed s (originOf s) bs.length) s = some w)
    (ht : (liveTensor w (wordOf (joinField s (xr s a) 16 8))).isSome = true)
    (hf : engFits s.hart.ar.ctx w
      (engWrite (originOf s) (wordOf (joinField s (xr s a) 16 8)) (shadowRow s (xr s a) m) bs w) = true) (hq : Quiet s) :
    execQcontrib a b s = .next (wentOn s (markEffect
      (engWrite (originOf s) (wordOf (joinField s (xr s a) 16 8)) (shadowRow s (xr s a) m) bs w))) := by
  rw [execQcontrib]
  refine (killPoint_goesOn hd _).trans ?_
  simp only [hc, afterChecks, hm, Bool.false_eq_true, if_false, withLog, hl, ht, if_true, hf]
  exact ((OwnKept.refl w).engWrite _ _ _ _).finish (.reserveLog hl) hf hq

/-- Settles O47: a lemma for each instruction, and one for the kill. -/
theorem joinInstructionsComplete : Obligations.JoinInstructionsComplete := by
  refine ⟨fun d a s hc hq hm => ?_, fun a b j m bs s w hd hc hm hl ht hf hq => execQcontrib_writes hd hc hm hl ht hf hq,
    fun d a j m s hd hc h16 hs hq hm => execQarrive_counts hd hc h16 hs hq hm, fun d a s hd hc => ?_, fun s hm hd hq => ?_,
    fun s hm hd ht hw hk hl => ?_, fun d a j s hj hq => exec_setX_completes (i := .qstat d a) (execQstat_reads hj) hq,
    fun a j s hj hs hq hm => ?_, fun d a s hj i hi => ?_, fun a j s hj hs => execQreset_open hj hs⟩
  · obtain ⟨t, makes, writes, joins, fields⟩ := execQnew_makes (d := d) hc hq hm
    obtain ⟨state, bits, released, ar, flow⟩ := fields
    exact ⟨t, newJoin s (joinId s (xr s a)), makes, writes, joins, rfl, rfl, rfl, rfl, rfl, rfl, state, bits, released, ar, flow⟩
  · change execQarrive d a s = _
    rw [execQarrive]
    refine (killPoint_goesOn hd _).trans ?_
    rw [memberCheck_refused hc]
    rfl
  · exact (execKpoint_killPoint hm).trans ((killPoint_goesOn hd _).trans ((SameMode.refl s).finish [] hq))
  · obtain ⟨t, kills, rest⟩ := killPoint_kills (k := fun s => finish s [] s) hd ht hw hk hl
    exact ⟨t, (execKpoint_killPoint hm).trans kills, rest⟩
  · obtain ⟨state, round, bits⟩ := renewed_fields (jid := xr s a) hm
    have reset : FlowKept s (resetJoin (xr s a) s) := .resetJoin
    exact ⟨_, execQreset_resets hj hs hq, state, round, bits, joinOf_onJoin hj rfl, (wentOn_regs _ _).trans reset.regs,
      flowsOn_wentOn reset.pc reset.frame⟩
  · rcases List.mem_pair.1 hi with rfl | rfl
    · exact execQstat_none hj
    · exact execQreset_none hj

end Sys2Proof.Machine
end

section
/-! PROOFS. A peer's write that recalls an update-only line with a unit outside it (R219, R375, R391, R431). -/

namespace Sys2Proof.Machine

/-! ## The state -/

/-- A context with a peer; its root table lies in frame 1. -/
def peerContext : Context := { newContext 0 1 [] with root := 0x10000, peers := [⟨3, 1, [], 7, 0, 0, none⟩] }

/-- A context in CHECKPOINT mode whose log area is a byte long. -/
def logless : Context := { newContext 1 1 [] with mode := 3 }

/-- An update-only line at address 0 with a partial of a unit that stands 0x20000 bytes on, in another frame: its cells are not those of
a line (R218). -/
def strayLine : CmLine := ⟨.dev, 0, 0, 0, 0, 0, some ⟨.add, 4, [(0x8000, 1)]⟩⟩

/-- The machine at reset with these contexts, which own frames 0 and 2, a table that leads from 0x10000000000 to frame 0, and that line. -/
def strayed : State := onClu (fun c => { c with cm := [strayLine] }) (onDev (fun d => { d with
  ctxs := [peerContext, logless]
  owners := [(0, .ctx 0), (2, .ctx 1)]
  dmem := [(0x10010, 0x01), (0x10011, 0x10), (0x10012, 0x01), (0x11000, 0x25)] }) State.reset)

/-- Where the peer writes. -/
def strayedVa : Word := 0x10000000000

/-! ## What the machine makes of it -/

theorem strayed_key : ageKey 0 3 strayed = strayed := by decide +kernel

theorem strayed_tables : ∀ p ∈ lineParts strayedVa.toNat 1, recallTables 0 p.1 strayed = strayed := by
  decide +kernel

theorem strayed_parts : peerParts strayed 0 strayedVa [1] = some [(⟨.dev, 0⟩, [1])] := by decide +kernel

theorem strayed_memories : MemoriesOk strayed := ⟨rfl, rfl, rfl, rfl⟩

/-- The messages that have left the ports in the state an outcome goes on in. -/
def sentOut : Out → Nat
  | .next t => t.dev.out.length
  | _ => 0

/-- The write sends two messages: the kill record of the other context, and the acknowledgement. -/
theorem strayed_sends : sentOut (exec (.peerWriteArrival ⟨0, 3, 7⟩ strayedVa [1]) strayed) = 2 := by decide +kernel

/-- The owner of frame 0 keeps no interval lines. -/
theorem strayed_noLines : ∀ k, homeOwner strayed.dev ⟨.dev, 0⟩ = some k → NoLines strayed k := by
  intro k hk c hc
  have owner : homeOwner strayed.dev ⟨.dev, 0⟩ = some 0 := rfl
  cases owner.symm.trans hk
  have own : ctxOf strayed.dev 0 = some peerContext := rfl
  cases own.symm.trans hc
  decide

/-- Refutes O59, in its clause of a peer's write, for an update-only line that is not in canonical form: recalled by the write, it
combines a partial in another frame, whose context's log is exhausted, so that the kill record leaves the ports before the
acknowledgement. -/
theorem not_contextAndBoardMovesComplete : ¬ Obligations.ContextAndBoardMovesComplete := by
  intro h
  obtain ⟨-, -, -, -, -, -, -, -, -, -, -, -, -, -, -,
    -, -, -, -, -, -, -, -, -, -, -, -, -, -, -, arrival⟩ := h
  obtain ⟨-, performed⟩ := arrival 0 3 7 strayedVa [1] strayed strayed strayed_key.symm
  obtain ⟨-, accepted⟩ := performed strayed_tables
  obtain ⟨t, run, -, out, -⟩ := accepted _ _ rfl rfl strayed_parts strayed_memories strayed_noLines
  have sends := strayed_sends
  rw [run, sentOut, out] at sends
  exact absurd sends (by decide)

end Sys2Proof.Machine
end
